-- ==== Sys2Proof/Word.lean ====
section
/-!
DEFINITION. The word types of the Varavo W64: byte, half, word and dword (00 R10), and the lane
vectors of 32 values (01 R18).
-/

namespace Sys2Proof

/-- 8 bits (R10). -/
abbrev Byte := BitVec 8
/-- 16 bits (R10). -/
abbrev Half := BitVec 16
/-- 32 bits (R10). -/
abbrev Word := BitVec 32
/-- 64 bits (R10). -/
abbrev DWord := BitVec 64

/-- One bit per lane of a weave (R18). -/
abbrev LaneMask := BitVec 32

/-- The sticky flags of `fpflags` (R42): bit 0 nv, 1 dz, 2 of, 3 uf, 4 nx, 5 sat, 6 labr. -/
abbrev Flags := BitVec 7

/-- One 32-bit value for each of the 32 lanes, lane 0 first. -/
abbrev LaneVec := List Word

/-- One 64-bit value for each of the 32 lanes, lane 0 first. -/
abbrev WideVec := List DWord

/-- The vector whose lane i holds `f i`. -/
def tabulate {α : Type} (f : Nat → α) : List α := (List.range 32).map f

/-- Lane i of a vector; a lane that was never written holds zero (R137). -/
def lane {w : Nat} (v : List (BitVec w)) (i : Nat) : BitVec w := v.getD i 0#w

end Sys2Proof
end

