-- ==== Sys2Proof/Machine/Bits.lean ====
section
/-!
DEFINITION. Bit-field, sign and byte-order helpers used by every other file (00 R10, 06 R151).
-/

namespace Sys2Proof.Machine

open Sys2Proof

/-- `x[hi:lo]` of a natural number (R10, R14). -/
def bits (x hi lo : Nat) : Nat := (x / 2 ^ lo) % 2 ^ (hi + 1 - lo)

/-- Bit i of a natural number, as a truth value. -/
def bit (x i : Nat) : Bool := (x / 2 ^ i) % 2 == 1

/-- `zext` of R151 on naturals: the low w bits. -/
def low (w x : Nat) : Nat := x % 2 ^ w

/-- The low w bits of x read as a two's complement number (R56). -/
def signed (w x : Nat) : Int :=
  let y := x % 2 ^ w
  if y < 2 ^ (w - 1) then (y : Int) else (y : Int) - (2 ^ w : Nat)

/-- `wrap(w, x)` of R151 as the natural number that the w bits encode. -/
def wrapNat (w : Nat) (x : Int) : Nat := (x % ((2 ^ w : Nat) : Int)).toNat

/-- The low w bits of x, sign-extended to 64 bits. -/
def sext64 (w x : Nat) : DWord := BitVec.ofInt 64 (signed w x)

/-- The low w bits of x, zero-extended to 64 bits. -/
def zext64 (w x : Nat) : DWord := BitVec.ofNat 64 (low w x)

/-- Lane i is named by the mask. -/
def inMask (m : LaneMask) (i : Nat) : Bool := m.getLsbD i

/-- The lanes of a mask in ascending order (R152). -/
def lanesOf (m : LaneMask) : List Nat := (List.range 32).filter (fun i => inMask m i)

/-- The mask that holds the lanes on which p is true. -/
def maskOf (p : Nat → Bool) : LaneMask :=
  (List.range 32).foldl (fun acc i => if p i then acc ||| (1#32 <<< i) else acc) 0#32

/-- The lowest lane of a mask, 0 when it is empty (R20, R165). -/
def lowestLane (m : LaneMask) : Nat := (lanesOf m).headD 0

/-- The number of lanes of a mask. -/
def countLanes (m : LaneMask) : Nat := (lanesOf m).length

/-- The n little-endian bytes of x (R10). -/
def toBytes (n : Nat) (x : Nat) : List Byte :=
  (List.range n).map (fun k => BitVec.ofNat 8 (x / 2 ^ (8 * k)))

/-- The number that little-endian bytes encode (R10). -/
def ofBytes : List Byte → Nat
  | [] => 0
  | b :: rest => b.toNat + 256 * ofBytes rest

/-- The number of bits needed to write x; 0 for 0. -/
def bitLen (x : Nat) : Nat := if x == 0 then 0 else Nat.log2 x + 1

/-- ceil(x / d). -/
def ceilDiv (x d : Nat) : Nat := (x + d - 1) / d

/-- The lane vector in which the lanes of m come from `new` and the others from `old` (R129). -/
def mergeLanes {w : Nat} (m : LaneMask) (new old : List (BitVec w)) : List (BitVec w) :=
  tabulate (fun i => if inMask m i then lane new i else lane old i)

/-- The list with entry n set; a list that ends before n counts as filled with d. -/
def setAt {α : Type} (d : α) : List α → Nat → α → List α
  | [], 0, x => [x]
  | [], n + 1, x => d :: setAt d [] n x
  | _ :: rest, 0, x => x :: rest
  | y :: rest, n + 1, x => y :: setAt d rest n x

/-- Floor of the square root, one bit a round; `fuel` bounds the number of bits of the root. -/
def isqrtLoop : Nat → Nat → Nat → Nat
  | 0, _, r => r
  | fuel + 1, x, r =>
    let t := r + 2 ^ fuel
    isqrtLoop fuel x (if t * t ≤ x then t else r)

/-- Floor of the square root of x. -/
def isqrt (x : Nat) : Nat := isqrtLoop (bitLen x / 2 + 1) x 0

end Sys2Proof.Machine
end

