-- ==== Sys2Proof/Machine/Cells.lean ====
section
/-!
DEFINITION. Sparse bytes: a list of cells in one canonical form, addresses strictly rising and no cell
equal to 0, which is what an unlisted address reads as (log 7 for memory; R88, R94, R241 for the
scratch claim and a reservation, which read as zero at first).
-/

namespace Sys2Proof.Machine

open Sys2Proof

/-- The byte at an address. -/
def cellRead : List Host.Cell → Nat → Byte
  | [], _ => 0#8
  | (k, b) :: rest, a => if k == a then b else if a < k then 0#8 else cellRead rest a

/-- The cell (a, b) in front of a list that holds only greater addresses. -/
def cellPut (a : Nat) (b : Byte) (rest : List Host.Cell) : List Host.Cell :=
  if b == 0#8 then rest else (a, b) :: rest

/-- The cells with the byte at `a` set to b. -/
def cellWrite : List Host.Cell → Nat → Byte → List Host.Cell
  | [], a, b => cellPut a b []
  | (k, c) :: rest, a, b =>
    if k == a then cellPut a b rest
    else if a < k then cellPut a b ((k, c) :: rest)
    else (k, c) :: cellWrite rest a b

/-- Every address is above `lo`, addresses rise, and no byte is 0. -/
def cellsAbove : Nat → List Host.Cell → Bool
  | _, [] => true
  | lo, (k, b) :: rest => lo ≤ k && b != 0#8 && cellsAbove (k + 1) rest

/-- The canonical form. -/
def cellsWf (m : List Host.Cell) : Bool := cellsAbove 0 m

/-- A memory: the listed bytes. -/
abbrev Memory : Type := List Host.Cell

/-- The canonical form of a memory: the addresses strictly rise and no listed byte is the one that an unlisted address
reads as, 0. -/
def Memory.wf (m : Memory) : Bool := cellsWf m

/-- n bytes from an address, lowest first. -/
def cellReadN (m : List Host.Cell) (a n : Nat) : List Byte := (List.range n).map (fun k => cellRead m (a + k))

/-- Bytes stored from an address on. -/
def cellWriteN (m : List Host.Cell) (a : Nat) : List Byte → List Host.Cell
  | [] => m
  | b :: rest => cellWriteN (cellWrite m a b) (a + 1) rest

/-- The n-byte little-endian number at an address (R10). -/
def cellNat (m : List Host.Cell) (a n : Nat) : Nat := ofBytes (cellReadN m a n)

/-- The first pair with a key. -/
def assoc? {α : Type} (k : Nat) : List (Nat × α) → Option α
  | [] => none
  | (j, x) :: rest => if j == k then some x else assoc? k rest

/-- The association list with one key set. -/
def assocSet {α : Type} (k : Nat) (x : α) : List (Nat × α) → List (Nat × α)
  | [] => [(k, x)]
  | (j, y) :: rest => if j == k then (k, x) :: rest else (j, y) :: assocSet k x rest

/-- The first element with p replaced. -/
def replaceFirst {α : Type} (p : α → Bool) (f : α → α) : List α → List α
  | [] => []
  | x :: rest => if p x then f x :: rest else x :: replaceFirst p f rest

/-- Distinct elements, first occurrences kept in order. -/
def distinct (xs : List Nat) : List Nat := xs.foldl (fun acc x => if acc.contains x then acc else acc ++ [x]) []

end Sys2Proof.Machine
end

