-- ==== Sys2Proof/Machine/Num.lean ====
section
/-!
DEFINITION. Exact numbers and the floating-point encodings: the value of an encoding (03 R58, R59,
R69), exact sums and products with their special values (03 R72, R76), and the one rounding
function (03 R60 to R63) that every floating-point result goes through.
-/

namespace Sys2Proof.Machine

open Sys2Proof

/-- A number as an encoding denotes it: NaN, an infinity, or exactly (-1)^neg * m * 2^e, with a
signed zero when m = 0 (R59). -/
inductive Num where
  | nan
  | inf (neg : Bool)
  | fin (neg : Bool) (m : Nat) (e : Int)
  deriving DecidableEq, Repr

/-- How the all-ones exponent field is used (R59, R69). -/
inductive Top where
  | ieee     -- infinities and NaNs
  | e4m3     -- one NaN magnitude, no infinity
  | finite   -- every encoding is a number
  deriving DecidableEq, Repr

/-- A floating-point layout: E exponent bits, M fraction bits and the bias (R58, R69). -/
structure FloatFmt where
  ebits : Nat
  mbits : Nat
  bias  : Nat
  top   : Top
  deriving DecidableEq, Repr

def fF64  : FloatFmt := ⟨11, 52, 1023, .ieee⟩
def fF32  : FloatFmt := ⟨8, 23, 127, .ieee⟩
def fBF16 : FloatFmt := ⟨8, 7, 127, .ieee⟩
def fF16  : FloatFmt := ⟨5, 10, 15, .ieee⟩
def fE4M3 : FloatFmt := ⟨4, 3, 7, .e4m3⟩
def fE5M2 : FloatFmt := ⟨5, 2, 15, .ieee⟩
def fE3M2 : FloatFmt := ⟨3, 2, 3, .finite⟩
def fE2M3 : FloatFmt := ⟨2, 3, 1, .finite⟩
def fE2M1 : FloatFmt := ⟨2, 1, 1, .finite⟩

namespace FloatFmt

/-- The number of bits of an encoding. -/
def width (f : FloatFmt) : Nat := 1 + f.ebits + f.mbits

def expField (f : FloatFmt) (b : Nat) : Nat := bits b (f.mbits + f.ebits - 1) f.mbits
def fracField (f : FloatFmt) (b : Nat) : Nat := low f.mbits b
def signBit (f : FloatFmt) (b : Nat) : Bool := bit b (f.width - 1)

/-- R59: b encodes a NaN. -/
def isNan (f : FloatFmt) (b : Nat) : Bool :=
  match f.top with
  | .ieee => f.expField b == 2 ^ f.ebits - 1 && f.fracField b != 0
  | .e4m3 => f.expField b == 15 && f.fracField b == 7
  | .finite => false

/-- R59: a NaN is signalling when the top fraction bit is 0. -/
def isSnan (f : FloatFmt) (b : Nat) : Bool :=
  f.top == .ieee && f.isNan b && !bit b (f.mbits - 1)

def isInf (f : FloatFmt) (b : Nat) : Bool :=
  f.top == .ieee && f.expField b == 2 ^ f.ebits - 1 && f.fracField b == 0

/-- The exponent of the largest finite binade, emax. -/
def emax (f : FloatFmt) : Int :=
  match f.top with
  | .ieee => (2 ^ f.ebits - 2 : Nat) - (f.bias : Int)
  | _ => (2 ^ f.ebits - 1 : Nat) - (f.bias : Int)

/-- The exponent of the smallest normal, emin = 1 - bias. -/
def emin (f : FloatFmt) : Int := 1 - (f.bias : Int)

/-- The largest finite magnitude as a multiple of 2^(emax - M). -/
def maxSig (f : FloatFmt) : Nat :=
  match f.top with
  | .e4m3 => 2 ^ (f.mbits + 1) - 2
  | _ => 2 ^ (f.mbits + 1) - 1

/-- The encoding of the largest finite magnitude, without the sign. -/
def maxCode (f : FloatFmt) : Nat :=
  match f.top with
  | .ieee => (2 ^ f.ebits - 1) * 2 ^ f.mbits - 1
  | .e4m3 => 0x7E
  | .finite => 2 ^ (f.ebits + f.mbits) - 1

/-- The infinity of the format; in e4m3, the NaN code that stands where R62 gives one (R65). -/
def infCode (f : FloatFmt) : Nat :=
  match f.top with
  | .ieee => (2 ^ f.ebits - 1) * 2 ^ f.mbits
  | .e4m3 => 0x7F
  | .finite => f.maxCode

/-- The canonical NaN (R60). -/
def nanCode (f : FloatFmt) : Nat :=
  match f.top with
  | .ieee => (2 ^ f.ebits - 1) * 2 ^ f.mbits + 2 ^ (f.mbits - 1)
  | .e4m3 => 0x7F
  | .finite => 0

/-- The sign bit in its place. -/
def signed (f : FloatFmt) (neg : Bool) (code : Nat) : Nat :=
  if neg then code + 2 ^ (f.width - 1) else code

/-- `val(t, b)` of R151: the number that b encodes (R59, R69). -/
def val (f : FloatFmt) (b : Nat) : Num :=
  let s := f.signBit b
  if f.isNan b then .nan
  else if f.isInf b then .inf s
  else if f.expField b == 0 then .fin s (f.fracField b) (f.emin - f.mbits)
  else .fin s (2 ^ f.mbits + f.fracField b) ((f.expField b : Int) - f.bias - f.mbits)

end FloatFmt

/-! ### Exact arithmetic -/

/-- Shift a natural number left, or right with the lost bits gathered into bit 0. -/
def shiftSticky (m : Nat) (k : Int) : Nat :=
  if 0 ≤ k then m * 2 ^ k.toNat
  else
    let d := 2 ^ (-k).toNat
    if m % d == 0 then m / d else (m / d) ||| 1

namespace Num

def isNan : Num → Bool
  | .nan => true
  | _ => false

def isInf : Num → Bool
  | .inf _ => true
  | _ => false

def isZero : Num → Bool
  | .fin _ m _ => m == 0
  | _ => false

def isNeg : Num → Bool
  | .nan => false
  | .inf n => n
  | .fin n _ _ => n

def neg : Num → Num
  | .nan => .nan
  | .inf n => .inf (!n)
  | .fin n m e => .fin (!n) m e

def abs : Num → Num
  | .nan => .nan
  | .inf _ => .inf false
  | .fin _ m e => .fin false m e

/-- An integer as an exact number. -/
def ofInt (x : Int) : Num := .fin (x < 0) x.natAbs 0

def zero : Num := .fin false 0 0
def one : Num := .fin false 1 0

/-- The exact product; zero times an infinity is NaN (R72). -/
def mul : Num → Num → Num
  | .nan, _ => .nan
  | _, .nan => .nan
  | .inf a, .inf b => .inf (a != b)
  | .inf a, .fin b m _ => if m == 0 then .nan else .inf (a != b)
  | .fin a m _, .inf b => if m == 0 then .nan else .inf (a != b)
  | .fin a m e, .fin b n g => .fin (a != b) (m * n) (e + g)

/-- x * 2^k. -/
def scale (x : Num) (k : Int) : Num :=
  match x with
  | .fin n m e => .fin n m (e + k)
  | y => y

/-- The signed mantissa of a finite number at exponent `q ≤ e`. -/
def mantAt (q : Int) : Num → Int
  | .fin n m e => let v : Int := (m * 2 ^ (e - q).toNat : Nat); if n then -v else v
  | _ => 0

/-- The exponent of a finite number; a zero does not hold the sum's exponent down. -/
def expOr (d : Int) : Num → Int
  | .fin _ m e => if m == 0 then d else e
  | _ => d

/-- The least exponent of the nonzero finite addends. -/
def minExp (xs : List Num) : Int :=
  match xs.filterMap (fun x => match x with
      | .fin _ m e => if m == 0 then none else some e
      | _ => none) with
  | [] => 0
  | e :: es => es.foldl min e

/-- The exact sum with the special values of R76. `negZero` gives the sign of an exact zero sum. -/
def sumWith (negZero : Bool) (xs : List Num) : Num :=
  if xs.any isNan then .nan
  else if xs.any (fun x => x.isInf && x.isNeg) && xs.any (fun x => x.isInf && !x.isNeg) then .nan
  else if xs.any isInf then .inf (xs.any (fun x => x.isInf && x.isNeg))
  else
    let q := minExp xs
    let t : Int := (xs.map (mantAt q)).foldl (· + ·) 0
    if t == 0 then .fin negZero 0 0 else .fin (t < 0) t.natAbs q

/-- R76: an exact zero sum is -0 when every addend is -0, or when the mode is rdn. -/
def sum76 (rdn : Bool) (xs : List Num) : Num :=
  sumWith (rdn || xs.all (fun x => x.isZero && x.isNeg)) xs

/-- The sum of IEEE 754 (R198): an exact zero of two addends of one sign keeps that sign; opposite
signs give -0 in rdn only. -/
def add754 (rdn : Bool) (x y : Num) : Num :=
  sumWith (if x.isNeg == y.isNeg then x.isNeg else rdn) [x, y]

/-- x < y as numbers, for non-NaN operands; -0 = +0. -/
def lt (x y : Num) : Bool :=
  match x, y with
  | .inf a, .inf b => a && !b
  | .inf a, .fin _ _ _ => a
  | .fin _ _ _, .inf b => !b
  | .fin _ _ _, .fin _ _ _ =>
    let q := minExp [x, y]
    decide (mantAt q x < mantAt q y)
  | _, _ => false

/-- x = y as numbers, for non-NaN operands; -0 = +0. -/
def eq (x y : Num) : Bool := !x.isNan && !y.isNan && !lt x y && !lt y x

end Num

/-! ### Rounding -/

/-- R62. -/
inductive Mode where
  | rne | rtz | rup | rdn | rna | sr
  deriving DecidableEq, Repr

/-- R62: codes 6 and 7 are reserved. -/
def Mode.ofCode (c : Nat) : Option Mode :=
  match c with
  | 0 => some .rne
  | 1 => some .rtz
  | 2 => some .rup
  | 3 => some .rdn
  | 4 => some .rna
  | 5 => some .sr
  | _ => none

def flNv : Flags := 1#7
def flDz : Flags := 2#7
def flOf : Flags := 4#7
def flUf : Flags := 8#7
def flNx : Flags := 16#7
def flSat : Flags := 32#7
def flLabr : Flags := 64#7

/-- An encoding together with the flags that forming it sets. -/
structure Rounded where
  code  : Nat
  flags : Flags
  deriving DecidableEq, Repr

/-- Does rounding x = (n + r/d) away from n go up in magnitude? `h` is the stochastic hash's low
word, `hd` the distance (in units of n) to the upper neighbour (R62, R63). -/
def roundsUp (mode : Mode) (neg : Bool) (n r d : Nat) (h : Nat) (hd : Nat) : Bool :=
  if r == 0 then false else
  match mode with
  | .rne => decide (2 * r > d) || (2 * r == d && n % 2 == 1)
  | .rna => decide (2 * r ≥ d)
  | .rtz => false
  | .rup => !neg
  | .rdn => neg
  | .sr => decide (r * 2 ^ 32 / (d * hd) + h ≥ 2 ^ 32)

/-- |x| = m * 2^e as the integer part and the remainder (over 2^k) of a multiple of 2^q. -/
def splitAt (m : Nat) (e q : Int) : Nat × Nat × Nat :=
  if q ≤ e then (m * 2 ^ (e - q).toNat, 0, 1)
  else
    let d := 2 ^ (q - e).toNat
    (m / d, m % d, d)

/-- m * 2^e compared with n * 2^q: is the first greater? -/
def gtScaled (m : Nat) (e : Int) (n : Nat) (q : Int) : Bool :=
  if q ≤ e then decide (m * 2 ^ (e - q).toNat > n) else decide (m > n * 2 ^ (q - e).toNat)

/-- The encoding, without sign, of n * 2^q with q ≥ emin - M that the format holds. -/
def encodeMag (f : FloatFmt) (n : Nat) (q : Int) : Nat :=
  -- a carry out of the significand raises the exponent by one
  let (n, q) := if n == 2 ^ (f.mbits + 1) then (2 ^ f.mbits, q + 1) else (n, q)
  if n < 2 ^ f.mbits then n
  else ((q + f.mbits + f.bias).toNat) * 2 ^ f.mbits + (n - 2 ^ f.mbits)

/-- What an overflow delivers (R62, R65): infinity or the largest finite number, by mode and sign. -/
def overflowCode (f : FloatFmt) (mode : Mode) (neg : Bool) : Nat :=
  match mode with
  | .rtz => f.signed neg f.maxCode
  | .rup => if neg then f.signed true f.maxCode else f.infCode
  | .rdn => if neg then f.signed (f.top == .ieee) f.infCode else f.maxCode
  | _ => f.signed (neg && f.top == .ieee) f.infCode

/-- `round_to(t, m, x)` of R151 for a finite nonzero x, with the flags of R61 and, when `sat` is
set, the saturating outcome of R65. `h` is the low word of the stochastic hash (R63). -/
def roundFin (f : FloatFmt) (mode : Mode) (sat : Bool) (h : Nat) (neg : Bool) (m : Nat) (e : Int) :
    Rounded :=
  let ex : Int := e + (bitLen m : Int) - 1               -- floor(log2 |x|)
  let q  : Int := max ex f.emin - f.mbits                -- quantum of the delivered encoding
  let (n0, r0, d) := splitAt m e q
  -- R63: from the largest finite magnitude on, sr has 2^(emax+1) as its upper neighbour
  let atMax := mode == .sr && decide (f.maxSig ≤ n0) && q == f.emax - f.mbits
  let n := if atMax then f.maxSig else n0
  let r := if atMax then (n0 - f.maxSig) * d + r0 else r0
  let hd := if atMax then 2 ^ (f.mbits + 1) - f.maxSig else 1
  let past := decide (ex > f.emax)                       -- |x| ≥ 2^(emax+1)
  let up := if mode == .sr && past then true else roundsUp mode neg n r d h hd
  let n' := if up then n + 1 else n
  -- the value rounded with unbounded exponent decides overflow and, but for sr, tininess (R61)
  let qU : Int := ex - f.mbits
  let (nU, rU, dU) := splitAt m e qU
  let nU' := if roundsUp mode neg nU rU dU h 1 then nU + 1 else nU
  let tooBig := match mode with
    | .sr => past || (atMax && up)
    | _ => gtScaled nU' qU f.maxSig (f.emax - f.mbits)
  let inexact := r != 0
  if tooBig then
    if sat then ⟨f.signed neg f.maxCode, flSat ||| flNx⟩
    else ⟨overflowCode f mode neg, flOf ||| flNx⟩
  else
    let tiny := match mode with
      | .sr => decide (n' < 2 ^ f.mbits)
      | _ => !gtScaled (nU' + 1) qU (2 ^ f.mbits) (f.emin - f.mbits)
    ⟨f.signed neg (encodeMag f n' q),
      (if inexact then flNx else 0#7) ||| (if inexact && tiny then flUf else 0#7)⟩

/-- `round_to` of R151 for every exact x: NaN gives the canonical NaN, infinities and zeros keep
their sign (R60, R65); under `sat` an infinity becomes the largest finite number (R65). An infinity
has no encoding in e4m3: it gives 0x7F and sets nv (R65). -/
def roundNum (f : FloatFmt) (mode : Mode) (sat : Bool) (h : Nat) : Num → Rounded
  | .nan => ⟨f.nanCode, 0#7⟩
  | .inf neg =>
    if sat then ⟨f.signed neg f.maxCode, flSat⟩
    else match f.top with
      | .ieee => ⟨f.signed neg f.infCode, 0#7⟩
      | _ => ⟨f.infCode, flNv⟩
  | .fin neg m e =>
    if m == 0 then ⟨f.signed neg 0, 0#7⟩ else roundFin f mode sat h neg m e

/-- `round_rne` of R151. -/
def roundRne (f : FloatFmt) (x : Num) : Rounded := roundNum f .rne false 0 x

/-- A finite number rounded to an integer in a mode (R62, R66): the integer and whether it is
inexact. `h` is the low word of the stochastic hash. -/
def roundInt (mode : Mode) (h : Nat) (neg : Bool) (m : Nat) (e : Int) : Int × Bool :=
  let (n, r, d) := splitAt m e 0
  let n' := if roundsUp mode neg n r d h 1 then n + 1 else n
  (if neg then -(n' : Int) else n', r != 0)

/-- The hash of R63. -/
def srHash (seed : DWord) (ln : Nat) (cnt : Word) (elem : Nat) : DWord :=
  let w : DWord := (cnt.zeroExtend 64) * 4#64 + BitVec.ofNat 64 elem
  let h := seed ^^^ (BitVec.ofNat 64 ln * 0x9E3779B97F4A7C15#64) ^^^ (w * 0xC2B2AE3D27D4EB4F#64)
  let h := (h ^^^ (h >>> 30)) * 0xBF58476D1CE4E5B9#64
  let h := (h ^^^ (h >>> 27)) * 0x94D049BB133111EB#64
  h ^^^ (h >>> 31)

/-- What the hash contributes to a rounding: its bits [31:0] (R63). -/
def srLow (h : DWord) : Nat := low 32 h.toNat

end Sys2Proof.Machine
end

