-- ==== Sys2Proof/Machine/Types.lean ====
section
/-!
DEFINITION. The element types of the type field (06 R132) and their classification (03 R56, R58).
-/

namespace Sys2Proof.Machine

open Sys2Proof

/-- R132; code 15 is reserved. -/
inductive Ty where
  | i8 | i16 | i32 | i64 | n8 | n16 | n32 | n64 | f16 | bf16 | f32 | f64 | e4m3 | e5m2 | b32
  deriving DecidableEq, Repr

def Ty.ofCode (c : Nat) : Option Ty :=
  match c with
  | 0 => some .i8 | 1 => some .i16 | 2 => some .i32 | 3 => some .i64
  | 4 => some .n8 | 5 => some .n16 | 6 => some .n32 | 7 => some .n64
  | 8 => some .f16 | 9 => some .bf16 | 10 => some .f32 | 11 => some .f64
  | 12 => some .e4m3 | 13 => some .e5m2 | 14 => some .b32
  | _ => none

/-- The type of a code; the reserved code, which the encoding check refuses, reads as b32. -/
def Ty.ofCodeD (c : Nat) : Ty := (Ty.ofCode c).getD .b32

/-- `width(t)` of R151. -/
def Ty.width : Ty → Nat
  | .i8 | .n8 | .e4m3 | .e5m2 => 8
  | .i16 | .n16 | .f16 | .bf16 => 16
  | .i64 | .n64 | .f64 => 64
  | _ => 32

def Ty.isSigned : Ty → Bool
  | .i8 | .i16 | .i32 | .i64 => true
  | _ => false

def Ty.isNatural : Ty → Bool
  | .n8 | .n16 | .n32 | .n64 => true
  | _ => false

def Ty.isInt (t : Ty) : Bool := t.isSigned || t.isNatural

/-- f16, bf16, f32 and f64: the types that vector arithmetic takes (R58). -/
def Ty.isFloat : Ty → Bool
  | .f16 | .bf16 | .f32 | .f64 => true
  | _ => false

def Ty.isFp8 : Ty → Bool
  | .e4m3 | .e5m2 => true
  | _ => false

def Ty.is64 (t : Ty) : Bool := t.width == 64

/-- The layout of a floating-point type (R58). -/
def Ty.fmt : Ty → FloatFmt
  | .f16 => fF16
  | .bf16 => fBF16
  | .f64 => fF64
  | .e4m3 => fE4M3
  | .e5m2 => fE5M2
  | _ => fF32

/-- The number that the low bits of x encode in an integer type (R56). -/
def Ty.intVal (t : Ty) (x : Nat) : Int :=
  if t.isSigned then signed t.width x else (low t.width x : Int)

/-- The least and the greatest number of an integer type (R56). -/
def Ty.minInt (t : Ty) : Int := if t.isSigned then -((2 ^ (t.width - 1) : Nat) : Int) else 0
def Ty.maxInt (t : Ty) : Int :=
  if t.isSigned then ((2 ^ (t.width - 1) : Nat) : Int) - 1 else ((2 ^ t.width : Nat) : Int) - 1

/-- R188: a result of w bits as it fills the 32-bit lane, or the 64 bits of a pair: sign-extended
for signed types, zero-extended otherwise. Bits above the lane are cut off when it is written. -/
def Ty.extend (t : Ty) (x : Nat) : DWord :=
  if t.isSigned then sext64 t.width x else zext64 t.width x

end Sys2Proof.Machine
end

