-- ==== Sys2Proof/Machine/Fields.lean ====
section
/-!
DEFINITION. The fields of an instruction: the base word, its extension word and its prefix
(06 R125 to R138), sliced once. Nothing after the decoder sees a raw word.
-/

namespace Sys2Proof

/-- A 12-bit source modifier (R136). -/
structure SrcMod where
  cls : BitVec 2
  lgs : BitVec 3
  dist : BitVec 5
  neg : Bool
  abs : Bool
  deriving DecidableEq, Repr

/-- The modifier that changes nothing (R136). -/
def SrcMod.none : SrcMod := ⟨0#2, 0#3, 0#5, false, false⟩

/-- The four forms (R125, R133, R134): 64 bits; 96 bits with a 32-bit immediate; 96 bits with one
modifier, the modified source and a rounding mode; 128 bits. -/
inductive Ext where
  | w64
  | imm (i : Word)
  | mod (m : SrcMod) (targ : BitVec 2) (rnd : BitVec 3)
  | long (ma mb mc : SrcMod) (rnd : BitVec 3) (cl : Bool) (shape : BitVec 2) (e f : BitVec 8)
  deriving DecidableEq, Repr

/-- The fields of a prefix word (R138); 0 in a field means "take it from `memdef`". -/
structure Prefix where
  spec : BitVec 2
  policy : BitVec 3
  aspace : BitVec 3
  scope : BitVec 3
  order : BitVec 3
  deriving DecidableEq, Repr

/-- The base word of R128 without its opcode and length code, the extension word, and the prefix. -/
structure Fields where
  variant : BitVec 5
  type : BitVec 4
  c : BitVec 8
  b : BitVec 8
  a : BitVec 8
  d : BitVec 8
  msense : Bool
  mask : BitVec 3
  lastrd : BitVec 3
  hold : BitVec 2
  la : BitVec 4
  ext : Ext
  pfx : Option Prefix
  deriving DecidableEq, Repr

namespace Fields

/-- A 64-bit instruction with every operand absent and no mask: the start of a literal. -/
def base : Fields :=
  ⟨0#5, 0#4, 0xF0#8, 0xF0#8, 0xF0#8, 0xF0#8, false, 0#3, 0#3, 0#2, 0#4, .w64, none⟩

/-- The length of the instruction in bytes, prefix excluded (R125). -/
def length (f : Fields) : Nat :=
  match f.ext with
  | .w64 => 8
  | .imm _ => 12
  | .mod _ _ _ => 12
  | .long _ _ _ _ _ _ _ _ => 16

/-- The bytes of the prefix before the instruction (R127). -/
def prefixBytes (f : Fields) : Nat := if f.pfx.isSome then 8 else 0

/-- The effective rounding code (R135). -/
def rnd (f : Fields) : Nat :=
  match f.ext with
  | .mod _ _ r => r.toNat
  | .long _ _ _ r _ _ _ _ => r.toNat
  | _ => 0

/-- The operand E of a 128-bit instruction; absent elsewhere (R134). -/
def e (f : Fields) : BitVec 8 :=
  match f.ext with
  | .long _ _ _ _ _ _ e _ => e
  | _ => 0xF0#8

/-- The operand F of a 128-bit instruction; absent elsewhere (R134). -/
def f (f : Fields) : BitVec 8 :=
  match f.ext with
  | .long _ _ _ _ _ _ _ x => x
  | _ => 0xF0#8

/-- The shape code: 1 for 16, 2 for 32, 3 for 64 (R134). -/
def shape (f : Fields) : Nat :=
  match f.ext with
  | .long _ _ _ _ _ s _ _ => s.toNat
  | _ => 0

/-- The classical-order bit (R134). -/
def cl (f : Fields) : Bool :=
  match f.ext with
  | .long _ _ _ _ c _ _ _ => c
  | _ => false

/-- The 32-bit immediate of the immediate form (R133). -/
def imm32 (f : Fields) : Word :=
  match f.ext with
  | .imm i => i
  | _ => 0#32

/-- The modifier of source field k: 0 A, 1 B, 2 C (R133, R134). -/
def srcMod (f : Fields) (k : Nat) : SrcMod :=
  match f.ext with
  | .mod m t _ => if t.toNat == k then m else SrcMod.none
  | .long a b c _ _ _ _ _ => if k == 0 then a else if k == 1 then b else if k == 2 then c else SrcMod.none
  | _ => SrcMod.none

/-- Bit k of the last-read field: 0 A, 1 B, 2 C (R128). -/
def lastRead (f : Fields) (k : Nat) : Bool := f.lastrd.getLsbD k

end Fields

end Sys2Proof
end

