-- ==== Sys2Proof/Syntax.lean ====
section
/-!
DEFINITION. The instructions and device steps of the Varavo W64, one constructor for each row of
the table of operations and events (spec/opcode_table.json; file 95 calls its rows the part's
steps). A row that a ply issues carries the fields of its words; a row that another agent takes
carries what names the unit concerned and the inputs of that step.
-/

namespace Sys2Proof

/-- One constructor for each row of the table, the rows with fields first. -/
inductive Instr where
  | nop (wide : Bool)
  | brNz (f : Fields)
  | brZ (f : Fields)
  | brAny (f : Fields)
  | brAll (f : Fields)
  | brsNz (f : Fields)
  | brsZ (f : Fields)
  | resume (f : Fields)
  | plysync (f : Fields)
  | jmp (f : Fields)
  | call (f : Fields)
  | callReg (f : Fields)
  | ret (f : Fields)
  | yield (f : Fields)
  | sleepUntil (f : Fields)
  | sleepEv (f : Fields)
  | rgn (f : Fields)
  | rgnEnd (f : Fields)
  | trap (f : Fields)
  | exit (f : Fields)
  | sadd (f : Fields)
  | ssub (f : Fields)
  | smul (f : Fields)
  | smad (f : Fields)
  | sand (f : Fields)
  | sor (f : Fields)
  | sxor (f : Fields)
  | sshl (f : Fields)
  | sshr (f : Fields)
  | ssra (f : Fields)
  | smin (f : Fields)
  | smax (f : Fields)
  | scmp (f : Fields)
  | ssel (f : Fields)
  | smov (f : Fields)
  | rdsp (f : Fields)
  | wrsp (f : Fields)
  | kand (f : Fields)
  | kor (f : Fields)
  | kxor (f : Fields)
  | knot (f : Fields)
  | kmov (f : Fields)
  | voteAny (f : Fields)
  | voteAll (f : Fields)
  | voteCnt (f : Fields)
  | add (f : Fields)
  | sub (f : Fields)
  | mulLo (f : Fields)
  | mulHi (f : Fields)
  | mad (f : Fields)
  | abs (f : Fields)
  | neg (f : Fields)
  | min (f : Fields)
  | max (f : Fields)
  | and (f : Fields)
  | or (f : Fields)
  | xor (f : Fields)
  | not (f : Fields)
  | shl (f : Fields)
  | shr (f : Fields)
  | sra (f : Fields)
  | rot (f : Fields)
  | popc (f : Fields)
  | clz (f : Fields)
  | brev (f : Fields)
  | bfx (f : Fields)
  | bfi (f : Fields)
  | cmp (f : Fields)
  | sel (f : Fields)
  | dp4 (f : Fields)
  | fadd (f : Fields)
  | fsub (f : Fields)
  | fmul (f : Fields)
  | fma (f : Fields)
  | fmin (f : Fields)
  | fmax (f : Fields)
  | fcmp (f : Fields)
  | frcp (f : Fields)
  | frsq (f : Fields)
  | fsqrt (f : Fields)
  | fdiv (f : Fields)
  | fexp2 (f : Fields)
  | flog2 (f : Fields)
  | fsin (f : Fields)
  | fcos (f : Fields)
  | frnd (f : Fields)
  | fclass (f : Fields)
  | fscale (f : Fields)
  | fdot2 (f : Fields)
  | cvtIntInt (f : Fields)
  | cvtIntFloat (f : Fields)
  | cvtFloatInt (f : Fields)
  | cvtFloatNarrow (f : Fields)
  | cvtFloatWiden (f : Fields)
  | cvtFp8 (f : Fields)
  | pack (f : Fields)
  | unpack (f : Fields)
  | perm (f : Fields)
  | lscanAdd (f : Fields)
  | lred (f : Fields)
  | qblk (f : Fields)
  | dqblk (f : Fields)
  | ld (f : Fields)
  | st (f : Fields)
  | ldx (f : Fields)
  | stx (f : Fields)
  | lds (f : Fields)
  | sts (f : Fields)
  | tlook (f : Fields)
  | tset (f : Fields)
  | tinv (f : Fields)
  | spmove (f : Fields)
  | atom (f : Fields)
  | atomCas (f : Fields)
  | red (f : Fields)
  | lr (f : Fields)
  | sc (f : Fields)
  | fence (f : Fields)
  | fenceSpec (f : Fields)
  | pref (f : Fields)
  | salloc (f : Fields)
  | sfree (f : Fields)
  | barTeam (f : Fields)
  | arriveCrew (f : Fields)
  | waitCrew (f : Fields)
  | mst (f : Fields)
  | obres (f : Fields)
  | obrel (f : Fields)
  | obload (f : Fields)
  | obgath (f : Fields)
  | gangSet (f : Fields)
  | mm (f : Fields)
  | mtr (f : Fields)
  | mperm (f : Fields)
  | mrsum (f : Fields)
  | accZero (f : Fields)
  | accLd (f : Fields)
  | accSt (f : Fields)
  | mwait (f : Fields)
  | mpoll (f : Fields)
  | mstat (f : Fields)
  | xcopy (f : Fields)
  | xwait (f : Fields)
  | xwaitRn (f : Fields)
  | xput (f : Fields)
  | xget (f : Fields)
  | xred (f : Fields)
  | xatom (f : Fields)
  | launchW (f : Fields)
  | launchL (f : Fields)
  | gsig (f : Fields)
  | evrec (f : Fields)
  | rdpv (f : Fields)
  | wrpv (f : Fields)
  | eret (f : Fields)
  | rwinRd (f : Fields)
  | rwinWr (f : Fields)
  | ctxsv (f : Fields)
  | ctxld (f : Fields)
  | scanpassCore (f : Fields)
  | scanpassEngine (f : Fields)
  | assayCtlRd (f : Fields)
  | assayCtlWr (f : Fields)
  | assayCtlArm (f : Fields)
  | assayCtlDisarm (f : Fields)
  | haltCore (f : Fields)
  | reservedOpcodeInstruction (base ext : DWord)
  | plyDue (uid windex n : Nat)
  | yieldExpiry (uid windex n : Nat)
  | sleepUntilWake (uid windex n : Nat)
  | sleepEvWake (uid windex n : Nat)
  | sleepEvTimeout (uid windex n : Nat)
  | registerAllocationStall (uid windex : Nat)
  | refillWeave (uid windex : Nat)
  | volatileDeferralEnd (uid windex : Nat)
  | loadDataReturn (uid windex tag : Nat)
  | fenceSpecValidate (uid windex n : Nat)
  | ptsAgeTick (uid windex n : Nat)
  | engineGrant (site phys : Nat)
  | commandAgePromotion (site phys id : Nat)
  | matrixPassEnd (site phys : Nat)
  | transferEnd (site phys : Nat)
  | copyComplete (site phys id : Nat)
  | promiseMissed (uid windex n : Nat)
  | remoteOpComplete (id : Nat)
  | launchRequest (tag : Nat)
  | launchAnswer (tag : Nat)
  | teamEnd (uid : Nat)
  | launchCompletion (key : Nat)
  | priorityAging (launch lix : Nat)
  | preemption (uid : Nat)
  | contextRestore (site uid : Nat)
  | faultSwapOut (uid : Nat)
  | watchdogExpiry (uid : Nat)
  | bgtWrite (site k : Nat) (v : DWord)
  | fbidxWrite (site : Nat) (fabric : Bool) (v : DWord)
  | pendingTableRetry (id : Nat)
  | uncorrectableErrorFound (place uid windex n : Nat)
  | assayRerunAdmission (launch lix : Nat)
  | assayRunEnd (launch lix : Nat)
  | errorRecordResend (seq : Nat) (ack : Bool)
  | ptpSample (ns : Nat)
  | meshPacketArrival (id : Nat) (forged : Bool)
  | gateRequestArrival (id : Nat)
  | flitCrcError (a b link : Nat) (again : Bool)
  | linkDead (a b link : Nat) (lock : Bool) (cut dup : List Nat)
  | portQueueAdvertisement (site flits : Nat)
  | portUp (site peer : Nat)
  | opctlWrite (site : Nat) (v : DWord)
  | berWindow (site w errors : Nat)
  | retrainResult (site : Nat) (ok : Bool)
  | lossOfLight (site module : Nat)
  | stripedFlitReceive (site wave : Nat) (d0 : DWord) (body : List Byte) (lset rest : BitVec 16) (crc : Word)
  | nakReceive (site seq ack : Nat)
  | hostCxlMemAccess (port dec off n : Nat) (write : Bool) (bytes : List Byte)
  | hostLinkDown (port : Nat)
  | getVersion (port : Nat)
  | getCapabilities (port : Nat)
  | negotiateAlgorithms (port : Nat) (p521 sha512 : Bool)
  | getDigests (port : Nat)
  | getCertificate (port off len : Nat)
  | challenge (port : Nat) (nonce : List Byte)
  | getMeasurements (port index : Nat) (nonce : List Byte)
  | coldReset (units dram seams : List Nat) (stop : Nat)
  | setPowerLimit (watts : Nat)
  | returnUnitToService (unit : Nat)
  | restoreDarkWavelength (site w : Nat) (light : Bool)
  | writeDomainKey (tdom : Nat) (key : List Byte)
  | writeSitepart (site part : Nat)
  | writeRecord (bytes : List Byte)
  | warmReset (units dram seams : List Nat) (command : Bool)
  | powerClockAdjust (raise : Bool)
  | registerWrite (site off : Nat) (v : DWord)
  | longLatencyResultWrite (uid windex tag : Nat)
  | hostLinkUp (port : Nat)
  | hostLineGrant (site line : Nat) (shared : Bool)
  | hostSnoop (site line : Nat) (shared : Bool)
  | ultraEthernetRetransmission (id : Nat)
  | ptpSyncMessage (offset : Nat)
  | correctedError (unit : Nat)
  | spdmUnsupportedRequest (port : Nat)
  | teamAdmission
  | admissionStarvation
  | splitChangeRequest
  | splitChangeCancel
  | splitFlush
  | splitConfig
  | splitServe
  | migrationAdvertisement
  | migrationOffer
  | migrationOfferReceive
  | migrationAnswerReceive
  | queueRecordService
  | queueTailObserved
  | queueEntryNop
  | queueEntryLaunch
  | queueEntryGraph
  | graphToken
  | nodeLoop
  | nodeWait
  | graphCompletion
  | budgetWindowStart
  | faultBatchPost
  | serviceTailObserved
  | serviceNop
  | replayFault
  | cancelFault
  | replayRange
  | invalidate
  | invalidateLeaseLapse
  | flip
  | marker
  | grant
  | scanTurn
  | scanDrainDone
  | scanDrainTimeout
  | scanComplete
  | detourTablesLoaded
  | portDown
  | proxyAnnounce
  | proxyHandbackEnd
  | stripedAckTimer
  | stripedGapTimeout
  deriving DecidableEq, Repr

end Sys2Proof
end

