-- ==== Sys2Proof/Machine/Encoding.lean ====
section
/-!
DEFINITION. The opcode map and the operand tables as data, and the check of an instruction's fields
against them: lengths and forms (07 R154), types (R157), variants (R161), operand kinds (02 R41 and
the tables R167, R189, R217, R240, R266, R310), modifiers (06 R133 to R136) and prefixes (R127, R159).
-/

namespace Sys2Proof.Machine

open Sys2Proof

/-- The issue slot (R155). -/
inductive Slot where
  | v | m | x
  deriving DecidableEq, Repr

/-- The latency classes of R156; `aOrW` is A, or W when a type of the instruction is 64 bits wide. -/
inductive LatClass where
  | a | w | p | t | g | e | c | aOrW
  deriving DecidableEq, Repr

/-- The lengths and forms that a row of the opcode map lists (R154). -/
inductive Forms where
  | only64 | imm | all | mod64 | only128
  deriving DecidableEq, Repr

/-- How wide a vector operand is: an element of the type (a pair when it has 64 bits, R39), one
register, a pair, or an element of the source type of `cvt`. -/
inductive Width where
  | ty | single | pair | srcTy
  deriving DecidableEq, Repr

/-- The operand kinds of the encoding tables. -/
inductive Kind where
  | absent
  | vsrc (w : Width)                 -- vector, scalar, constant, latch, or 0xFB (R189, "dat" of R217)
  | vreg (w : Width)                 -- vector register or latch
  | vregOrS                          -- single vector register, latch, or scalar register
  | vindex                           -- index register of the matrix group (R240)
  | vdst (w : Width)
  | vdstOpt (w : Width)              -- also 0xF0, which discards
  | vinout                           -- single vector register, read and written (F of `qblk`)
  | vsdst | vsdstOpt                 -- vector or scalar destination
  | kdst | ksrc                      -- mask codes (R40)
  | scalar | scalarOpt               -- R165
  | scalarImm                        -- scalar; 0xFB in the immediate form
  | scalarOrV | scalarOrPair
  | sdst | sdstOpt | spair           -- scalar destination; a pair (R39)
  | sreg | sregImm
  | sn | snw | pn | pnw              -- special and privileged register numbers, read and written
  | low8                             -- 8-bit immediate, or 0xFB in the immediate form
  | offset                           -- "off" of R217
  | secondS | secondV | secondSV     -- B under the second-operand rule (R180, R190)
  | secondC                          -- C under that rule
  | size | crewA | crewC | zeroInImm
  | band | packC
  | gatherC                          -- C of `obgath`: the template handle of a memory source, else absent (R244)
  | addrMode | addr32 | addrReg      -- address operands (R214)
  deriving DecidableEq, Repr

/-- The type sets that the descriptions give (R157 and the family tables). -/
inductive TypeSet where
  | none | scalar64 | int | intBits | bytes | float | float32 | half | cvt | pack | perm | scan | reduce
  | all | atomic | cas | accum | remote
  deriving DecidableEq, Repr

/-- One row of the opcode map joined with its row of the operand table. -/
structure Row where
  forms : Forms
  slot : Slot
  cls : LatClass
  d : Kind := .absent
  a : Kind := .absent
  b : Kind := .absent
  c : Kind := .absent
  e : Kind := .absent
  f : Kind := .absent
  types : TypeSet := .none
  variants : List Nat := [0]
  whole : Bool := false
  bitExact : Bool := false
  noSr : Bool := false
  shaped : Bool := false
  mayCl : Bool := false
  noLast : Bool := false
  cvt : Bool := false
  /-- The description applies the rounding mode (R135). -/
  rounds : Bool := false
  deriving DecidableEq, Repr

/-- The element type of an instruction (R132). -/
def tyOf (f : Fields) : Ty := Ty.ofCodeD f.type.toNat

/-- The type has 64 bits. -/
def wideType (f : Fields) : Bool := (tyOf f).is64

/-- The source type of `cvt`, in variant bits [62:59] (R158). -/
def srcTyOf (f : Fields) : Ty := Ty.ofCodeD (f.variant.toNat % 16)

/-- Variant bit [63], `.sat` (R161). -/
def satBit (f : Fields) : Bool := f.variant.getLsbD 4

/-- R158 with R64: the opcode of a conversion pair, `none` for a pair that R64 refuses. -/
def cvtOpcode (dst src : Nat) : Option Nat :=
  match Ty.ofCode dst, Ty.ofCode src with
  | some d, some s =>
    if d == s then none
    else if d == .b32 || s == .b32 then none
    else if d.isFp8 then (if s == .f16 || s == .bf16 || s == .f32 then some 0xA5 else none)
    else if s.isFp8 then (if d == .f16 || d == .bf16 || d == .f32 then some 0xA5 else none)
    else if d.isInt && s.isInt then some 0xA0
    else if s.isInt then some 0xA1
    else if d.isInt then some 0xA2
    else if d.width > s.width then some 0xA4 else some 0xA3
  | _, _ => none

/-- The type set admits the type code under the variant. -/
def TypeSet.ok (ts : TypeSet) (t v : Nat) : Bool :=
  match ts with
  | .none => t == 0
  | .scalar64 => t == 3 || t == 7
  | .int => t < 8
  | .intBits => t < 8 || t == 14
  | .bytes => t == 0 || t == 4
  | .float => 8 ≤ t && t ≤ 11
  | .float32 => 8 ≤ t && t ≤ 10
  | .half => t == 8 || t == 9
  | .cvt => t < 15
  | .pack => t == 0 || t == 1 || t == 4 || t == 5
  | .perm => t == 14 || t == 3 || t == 7
  | .scan => t == 2 || t == 6 || t == 3 || t == 7 || (8 ≤ t && t ≤ 11)
  | .reduce =>
    if v < 3 then t == 2 || t == 6 || t == 3 || t == 7 || (8 ≤ t && t ≤ 11)
    else t == 2 || t == 6 || t == 3 || t == 7 || t == 14
  | .all => t < 15
  | .atomic =>
    if v < 3 then t == 2 || t == 6 || t == 3 || t == 7
    else if v == 7 then t == 10 || t == 11
    else t == 2 || t == 6 || t == 3 || t == 7 || t == 14
  | .cas => t == 2 || t == 6 || t == 3 || t == 7 || t == 14
  | .accum => t < 15
  | .remote => t == 2 || t == 6 || t == 3 || t == 7 || t == 14 || t == 10 || t == 11

/-! ### Operand codes (R41) -/

def isV (c : Nat) : Bool := c < 0xC0
def isS (c : Nat) : Bool := 0xC0 ≤ c && c < 0xF0
def isLatch (c : Nat) : Bool := 0xF4 ≤ c && c ≤ 0xF6
def isConst (c : Nat) : Bool := (0xF0 ≤ c && c ≤ 0xF3) || (0xF7 ≤ c && c ≤ 0xFA) || c == 0xFC

/-- The operand is a pair of registers in this instruction (R39). -/
def Width.isPair (w : Width) (f : Fields) : Bool :=
  match w with
  | .ty => wideType f
  | .single => false
  | .pair => true
  | .srcTy => (srcTyOf f).is64

/-- A vector register of the width; a pair names the even register (R39). -/
def vOk (w : Width) (f : Fields) (c : Nat) : Bool := isV c && (!w.isPair f || c % 2 == 0)

def isImmForm (f : Fields) : Bool :=
  match f.ext with
  | .imm _ => true
  | _ => false

def is64Form (f : Fields) : Bool :=
  match f.ext with
  | .w64 => true
  | _ => false

def isLongForm (f : Fields) : Bool :=
  match f.ext with
  | .long _ _ _ _ _ _ _ _ => true
  | _ => false

/-- R165: a scalar source code. -/
def scalarOk (f : Fields) (c : Nat) : Bool := isS c || isConst c || (c == 0xFB && isImmForm f)

/-- A code that the kind accepts in this instruction (R41, R217). A required band operand is one that is not absent (DESIGN
CHOICE, log 121). -/
def Kind.ok (k : Kind) (f : Fields) (c : Nat) : Bool :=
  let imm := isImmForm f
  let a := f.a.toNat
  let b := f.b.toNat
  match k with
  | .absent => c == 0xF0
  | .vsrc w => vOk w f c || isS c || isConst c || isLatch c || (c == 0xFB && imm)
  | .vreg w => vOk w f c || isLatch c
  | .vregOrS => vOk .single f c || isLatch c || isS c
  | .vindex => isV c && (f.shape != 3 || c % 2 == 0)
  | .vdst w => vOk w f c
  | .vdstOpt w => vOk w f c || c == 0xF0
  | .vinout => isV c
  | .vsdst => isV c || isS c
  | .vsdstOpt => vOk .ty f c || isS c || c == 0xF0
  | .kdst => 1 ≤ c && c ≤ 7
  | .ksrc => c ≤ 7
  | .scalar => scalarOk f c
  | .scalarOpt => scalarOk f c
  | .scalarImm => if imm then c == 0xFB else scalarOk f c
  | .scalarOrV => isV c || scalarOk f c
  | .scalarOrPair => (isV c && c % 2 == 0) || scalarOk f c
  | .sdst => isS c
  | .sdstOpt => isS c || c == 0xF0
  | .spair => isS c && c % 2 == 0
  | .sreg => isS c
  | .sregImm => isS c || (c == 0xFB && imm)
  | .sn => c ≤ 0x0B
  | .snw => c == 6 || c == 7 || c == 9 || c == 10
  | .pn => c ≤ 0x0B
  | .pnw => c == 1 || c == 2 || c == 8 || c == 9
  | .low8 => !imm || c == 0xFB
  | .offset => !imm || (if b == 0xFB then c == 0 else c == 0xFB)
  | .secondS => if imm then c == 0xFB else scalarOk f c
  | .secondV => if imm then c == 0xFB else vOk .ty f c || isS c || isConst c || isLatch c
  | .secondSV => if imm then c == 0xFB else isV c || scalarOk f c
  | .secondC => (is64Form f && b == 0xF0) || c == 0
  | .size => if imm then c == 0xFB else isS c || c == 0xF0
  | .crewA => isS c || c == 0xF0
  | .crewC => a == 0xF0 || c == 0
  | .zeroInImm => if imm then c == 0 else c == 0xF0
  | .band =>
    let v := f.variant.toNat
    if v == 22 || (24 ≤ v && v ≤ 27) then c != 0xF0 && (isV c || isS c || isConst c || isLatch c)
    else c == 0xF0
  | .packC =>
    if (tyOf f).width == 8 then isLongForm f && (isV c || isS c || isConst c || isLatch c)
    else c == 0xF0
  | .gatherC => if f.variant.getLsbD 0 then c != 0xF0 && scalarOk f c else c == 0xF0
  | .addrMode =>
    if f.variant.toNat % 4 == 2 then (isV c && c % 2 == 0) || isLatch c else isS c
  | .addr32 => if f.variant.toNat % 4 == 2 then isV c || isLatch c else isS c
  | .addrReg => isS c || (isV c && c % 2 == 0) || isLatch c

/-- The kind reads a register through a source field, so that it can be held or modified. -/
def Kind.reads (k : Kind) : Bool :=
  match k with
  | .vsrc _ | .vreg _ | .vregOrS | .vindex | .scalar | .scalarOpt | .scalarImm | .scalarOrV
  | .scalarOrPair | .spair | .sreg | .sregImm | .secondS | .secondV | .secondSV | .size | .crewA
  | .band | .packC | .gatherC | .addrMode | .addr32 | .addrReg => true
  | _ => false

/-- The kind is read, as `reads`, or read and written. -/
def Kind.readsAny (k : Kind) : Bool := k.reads || k == .vinout

/-- The operand of this kind is a pair of registers (R39). -/
def Kind.isPair (k : Kind) (f : Fields) : Bool :=
  match k with
  | .vsrc w | .vreg w | .vdst w | .vdstOpt w => w.isPair f
  | .secondV => wideType f
  | .vsdstOpt => wideType f
  | .vindex => f.shape == 3
  | .scalarOrPair => true
  | .spair => true
  | .addrMode => true
  | .addrReg => true
  | _ => false

/-- The kind takes a source modifier: the sources of the vector group (R136, R213, R237). The k field of `sel` and the unused C of
a second-operand form do not, which R136's cases do not name (DESIGN CHOICE, log 120). -/
def Kind.modifies (k : Kind) : Bool :=
  match k with
  | .vsrc _ | .secondV | .packC | .band => true
  | _ => false

/-- The description marks the field absent in this instruction (R130): the third and fourth source of a 16-bit `pack`
(R206), the band scale of a format that has none (R210). -/
def Kind.absentIn (k : Kind) (f : Fields) : Bool :=
  match k with
  | .absent => true
  | .packC => (tyOf f).width != 8
  | .band =>
    let v := f.variant.toNat
    !(v == 22 || (24 ≤ v && v ≤ 27))
  | _ => false

/-- R136, for the modifier m on a field of kind k that holds c. -/
def modOk (r : Row) (f : Fields) (k : Kind) (c : Nat) (m : SrcMod) : Bool :=
  m == SrcMod.none ||
  (k.modifies && !k.absentIn f &&
   (if m.cls == 0#2 then m.lgs == 0#3 && m.dist == 0#5
    else 1 ≤ m.lgs.toNat && m.lgs.toNat ≤ 5 && m.dist.toNat < 2 ^ m.lgs.toNat && (isV c || isLatch c)) &&
   (!(m.neg || m.abs) || (tyOf f != .b32 && !r.bitExact)))

/-- Source field number k (0 A, 1 B, 2 C) of the row and of the fields. -/
def Row.srcKind (r : Row) (k : Nat) : Kind := if k == 0 then r.a else if k == 1 then r.b else r.c
def srcCode (f : Fields) (k : Nat) : Nat :=
  if k == 0 then f.a.toNat else if k == 1 then f.b.toNat else f.c.toNat

/-- The form is one that the row lists (R154); the extension's modifiers and operands are in order
(R133, R134). -/
def extOk (r : Row) (op : Nat) (f : Fields) : Bool :=
  match f.ext with
  | .w64 => r.forms != .only128
  | .imm _ => (r.forms == .imm || r.forms == .all) &&
      (f.a == 0xFB#8 || f.b == 0xFB#8 || f.c == 0xFB#8) &&
      -- R217: exactly one field of a memory instruction holds 0xFB
      (op < 0xC0 || 0xD7 < op ||
        ((if f.a == 0xFB#8 then 1 else 0) + (if f.b == 0xFB#8 then 1 else 0) +
          (if f.c == 0xFB#8 then 1 else 0) : Nat) == 1)
  | .mod m t rnd => (r.forms == .all || r.forms == .mod64) && t != 3#2 &&
      f.a != 0xFB#8 && f.b != 0xFB#8 && f.c != 0xFB#8 &&
      !(r.srcKind t.toNat).absentIn f && modOk r f (r.srcKind t.toNat) (srcCode f t.toNat) m &&
      rnd.toNat ≤ 5
  | .long ma mb mc rnd cl shape e x => (r.forms == .all || r.forms == .only128) &&
      modOk r f r.a f.a.toNat ma && modOk r f r.b f.b.toNat mb && modOk r f r.c f.c.toNat mc &&
      rnd.toNat ≤ 5 && r.e.ok f e.toNat && r.f.ok f x.toNat &&
      (r.shaped == (shape != 0#2)) && (!cl || (r.mayCl && 2 ≤ shape.toNat)) &&
      (op < 0xF0 || rnd == 0#3)

/-- R50, R163, R237: the hold field names a source register of a group that may hold. -/
def holdOk (r : Row) (op : Nat) (f : Fields) : Bool :=
  f.hold == 0#2 ||
  (0x20 ≤ op && op ≤ 0xD7 &&
    (let k := f.hold.toNat - 1
     (r.srcKind k).reads && (isV (srcCode f k) || isS (srcCode f k) || isLatch (srcCode f k))))

/-- R130, R157, R206, R209: the type and the variant are ones that the description gives. -/
def typeOk (r : Row) (op : Nat) (f : Fields) : Bool :=
  let t := f.type.toNat
  let v := f.variant.toNat
  t < 15 && r.types.ok t v && r.variants.contains v &&
  (!r.cvt || cvtOpcode t (v % 16) == some op) &&
  (op != 0xA7 || v < 2 || (tyOf f).width == 8)

/-- Check 7 of R162 for the fields of a row. -/
def Row.legal (r : Row) (op : Nat) (f : Fields) : Bool :=
  extOk r op f && typeOk r op f && holdOk r op f &&
  r.d.ok f f.d.toNat && r.a.ok f f.a.toNat && r.b.ok f f.b.toNat && r.c.ok f f.c.toNat &&
  (!r.whole || (f.mask == 0#3 && !f.msense)) &&
  (!r.noLast || !f.lastRead 0) &&
  -- R208, R209, R240: mode sr is refused
  (!(r.noSr || (0xE0 ≤ op && op ≤ 0xEE)) || f.rnd != 5) &&
  -- R211: the mode is rne or sr, and D, E and F are three registers
  (op != 0xAD || ((f.rnd == 0 || f.rnd == 5) && f.d != f.e && f.d != f.f && f.e != f.f))

/-! ### Prefixes -/

/-- The fields of a prefix that an opcode honours (R159): order, scope, aspace, policy, spec. -/
structure Honours where
  order : Bool
  scope : Bool
  aspace : Bool
  policy : Bool
  spec : Bool
  deriving DecidableEq, Repr

/-- The opcodes marked Y in the Pfx column, with their row of R159. -/
def honours (op : Nat) : Option Honours :=
  if op == 0xC0 || op == 0xC2 then some ⟨true, true, true, true, true⟩
  else if op == 0xC1 || op == 0xC3 then some ⟨true, true, true, true, false⟩
  else if 0xCA ≤ op && op ≤ 0xCE then some ⟨true, true, true, false, false⟩
  else if op == 0xD1 then some ⟨false, false, true, true, false⟩
  else if op == 0xD7 then some ⟨true, true, false, false, false⟩
  else none

/-- Check 4 of R162: the opcode takes a prefix, no field is reserved, and every nonzero field is one
that the opcode honours (R127, R138, R159). -/
def prefixOk (op : Nat) (p : Prefix) : Bool :=
  match honours op with
  | none => false
  | some h =>
    p.spec.toNat ≤ 2 && p.policy.toNat ≤ 5 && p.aspace.toNat ≤ 3 && p.scope.toNat ≤ 4 &&
    p.order.toNat ≤ 5 &&
    (h.order || p.order == 0#3) && (h.scope || p.scope == 0#3) && (h.aspace || p.aspace == 0#3) &&
    (h.policy || p.policy == 0#3) && (h.spec || p.spec == 0#2)

/-! ### The map -/

/-- The opcode-map row and operand table of each instruction (R153 to R161, R167, R189 to R212, R217,
R240, R266, R310). A device step is no instruction and has no row. -/
def rowOf : Instr → Option Row
  | .brNz _ => some { forms := .imm, slot := .x, cls := .c, a := .scalar, c := .low8, whole := true }
  | .brZ _ => some { forms := .imm, slot := .x, cls := .c, a := .scalar, c := .low8, variants := [1], whole := true }
  | .brAny _ => some { forms := .imm, slot := .x, cls := .c, c := .low8, variants := [2] }
  | .brAll _ => some { forms := .imm, slot := .x, cls := .c, c := .low8, variants := [3] }
  | .brsNz _ => some { forms := .imm, slot := .x, cls := .c, d := .spair, a := .scalarOrV, c := .low8 }
  | .brsZ _ => some { forms := .imm, slot := .x, cls := .c, d := .spair, a := .scalarOrV, c := .low8, variants := [1] }
  | .resume _ => some { forms := .only64, slot := .x, cls := .c, a := .spair, whole := true, noLast := true }
  | .plysync _ => some { forms := .only64, slot := .x, cls := .c, whole := true }
  | .jmp _ => some { forms := .imm, slot := .x, cls := .c, a := .scalar, c := .low8, whole := true }
  | .call _ => some { forms := .imm, slot := .x, cls := .c, d := .sdstOpt, c := .low8, whole := true }
  | .callReg _ => some { forms := .imm, slot := .x, cls := .c, d := .sdstOpt, a := .scalar, c := .low8, variants := [1], whole := true }
  | .ret _ => some { forms := .only64, slot := .x, cls := .c, a := .scalar, whole := true }
  | .yield _ => some { forms := .only64, slot := .x, cls := .c, whole := true }
  | .sleepUntil _ => some { forms := .only64, slot := .x, cls := .c, a := .scalar, b := .scalarOpt, whole := true }
  | .sleepEv _ => some { forms := .only64, slot := .x, cls := .c, d := .sdstOpt, a := .scalar, b := .scalarOpt, c := .scalar, whole := true }
  | .rgn _ => some { forms := .only64, slot := .x, cls := .c, whole := true }
  | .rgnEnd _ => some { forms := .only64, slot := .x, cls := .c, variants := [1], whole := true }
  | .trap _ => some { forms := .only64, slot := .x, cls := .c, c := .low8 }
  | .exit _ => some { forms := .only64, slot := .x, cls := .c }
  | .sadd _ => some { forms := .imm, slot := .x, cls := .a, d := .sdst, a := .scalar, b := .secondS, c := .secondC }
  | .ssub _ => some { forms := .imm, slot := .x, cls := .a, d := .sdst, a := .scalar, b := .secondS, c := .secondC }
  | .smul _ => some { forms := .imm, slot := .x, cls := .w, d := .sdst, a := .scalar, b := .secondS, c := .secondC }
  | .smad _ => some { forms := .imm, slot := .x, cls := .w, d := .sdst, a := .scalar, b := .scalarImm, c := .scalar }
  | .sand _ => some { forms := .imm, slot := .x, cls := .a, d := .sdst, a := .scalar, b := .secondS, c := .secondC }
  | .sor _ => some { forms := .imm, slot := .x, cls := .a, d := .sdst, a := .scalar, b := .secondS, c := .secondC }
  | .sxor _ => some { forms := .imm, slot := .x, cls := .a, d := .sdst, a := .scalar, b := .secondS, c := .secondC }
  | .sshl _ => some { forms := .imm, slot := .x, cls := .a, d := .sdst, a := .scalar, b := .secondS, c := .secondC }
  | .sshr _ => some { forms := .imm, slot := .x, cls := .a, d := .sdst, a := .scalar, b := .secondS, c := .secondC }
  | .ssra _ => some { forms := .imm, slot := .x, cls := .a, d := .sdst, a := .scalar, b := .secondS, c := .secondC }
  | .smin _ => some { forms := .imm, slot := .x, cls := .a, d := .sdst, a := .scalar, b := .secondS, c := .secondC, types := .scalar64 }
  | .smax _ => some { forms := .imm, slot := .x, cls := .a, d := .sdst, a := .scalar, b := .secondS, c := .secondC, types := .scalar64, variants := [1] }
  | .scmp _ => some { forms := .imm, slot := .x, cls := .a, d := .sdst, a := .scalar, b := .secondS, c := .secondC, types := .scalar64, variants := (List.range 6) }
  | .ssel _ => some { forms := .only64, slot := .x, cls := .a, d := .sdst, a := .scalar, b := .scalar, c := .scalar }
  | .smov _ => some { forms := .imm, slot := .x, cls := .a, d := .sdst, b := .secondSV, c := .secondC }
  | .rdsp _ => some { forms := .only64, slot := .x, cls := .a, d := .vsdst, a := .sn }
  | .wrsp _ => some { forms := .only64, slot := .x, cls := .a, d := .snw, a := .scalar }
  | .kand _ => some { forms := .only64, slot := .x, cls := .a, d := .kdst, a := .ksrc, b := .ksrc }
  | .kor _ => some { forms := .only64, slot := .x, cls := .a, d := .kdst, a := .ksrc, b := .ksrc, variants := [1] }
  | .kxor _ => some { forms := .only64, slot := .x, cls := .a, d := .kdst, a := .ksrc, b := .ksrc, variants := [2] }
  | .knot _ => some { forms := .only64, slot := .x, cls := .a, d := .kdst, a := .ksrc, variants := [3] }
  | .kmov _ => some { forms := .only64, slot := .x, cls := .a, d := .kdst, a := .ksrc, variants := [4] }
  | .voteAny _ => some { forms := .only64, slot := .x, cls := .a, d := .sdstOpt, a := .scalarOrV }
  | .voteAll _ => some { forms := .only64, slot := .x, cls := .a, d := .sdstOpt, a := .scalarOrV, variants := [1] }
  | .voteCnt _ => some { forms := .only64, slot := .x, cls := .a, d := .sdstOpt, a := .scalarOrV, variants := [2] }
  | .add _ => some { forms := .all, slot := .v, cls := .aOrW, d := .vdstOpt .ty, a := .vsrc .ty, b := .secondV, c := .secondC, types := .int, variants := [0, 16] }
  | .sub _ => some { forms := .all, slot := .v, cls := .aOrW, d := .vdstOpt .ty, a := .vsrc .ty, b := .secondV, c := .secondC, types := .int, variants := [0, 16] }
  | .mulLo _ => some { forms := .all, slot := .v, cls := .aOrW, d := .vdstOpt .ty, a := .vsrc .ty, b := .secondV, c := .secondC, types := .int, variants := [0, 16] }
  | .mulHi _ => some { forms := .all, slot := .v, cls := .aOrW, d := .vdstOpt .ty, a := .vsrc .ty, b := .secondV, c := .secondC, types := .int }
  | .mad _ => some { forms := .all, slot := .v, cls := .aOrW, d := .vdstOpt .ty, a := .vsrc .ty, b := .vsrc .ty, c := .vsrc .ty, types := .int, variants := [0, 16] }
  | .abs _ => some { forms := .all, slot := .v, cls := .aOrW, d := .vdstOpt .ty, a := .vsrc .ty, types := .int, variants := [0, 16] }
  | .neg _ => some { forms := .all, slot := .v, cls := .aOrW, d := .vdstOpt .ty, a := .vsrc .ty, types := .int, variants := [0, 16] }
  | .min _ => some { forms := .all, slot := .v, cls := .aOrW, d := .vdstOpt .ty, a := .vsrc .ty, b := .secondV, c := .secondC, types := .int }
  | .max _ => some { forms := .all, slot := .v, cls := .aOrW, d := .vdstOpt .ty, a := .vsrc .ty, b := .secondV, c := .secondC, types := .int }
  | .and _ => some { forms := .all, slot := .v, cls := .aOrW, d := .vdstOpt .ty, a := .vsrc .ty, b := .secondV, c := .secondC, types := .intBits, bitExact := true }
  | .or _ => some { forms := .all, slot := .v, cls := .aOrW, d := .vdstOpt .ty, a := .vsrc .ty, b := .secondV, c := .secondC, types := .intBits, bitExact := true }
  | .xor _ => some { forms := .all, slot := .v, cls := .aOrW, d := .vdstOpt .ty, a := .vsrc .ty, b := .secondV, c := .secondC, types := .intBits, bitExact := true }
  | .not _ => some { forms := .all, slot := .v, cls := .aOrW, d := .vdstOpt .ty, a := .vsrc .ty, types := .intBits, bitExact := true }
  | .shl _ => some { forms := .all, slot := .v, cls := .aOrW, d := .vdstOpt .ty, a := .vsrc .ty, b := .secondV, c := .secondC, types := .intBits, bitExact := true }
  | .shr _ => some { forms := .all, slot := .v, cls := .aOrW, d := .vdstOpt .ty, a := .vsrc .ty, b := .secondV, c := .secondC, types := .intBits, bitExact := true }
  | .sra _ => some { forms := .all, slot := .v, cls := .aOrW, d := .vdstOpt .ty, a := .vsrc .ty, b := .secondV, c := .secondC, types := .int, bitExact := true }
  | .rot _ => some { forms := .all, slot := .v, cls := .aOrW, d := .vdstOpt .ty, a := .vsrc .ty, b := .secondV, c := .secondC, types := .intBits, bitExact := true }
  | .popc _ => some { forms := .all, slot := .v, cls := .aOrW, d := .vdstOpt .ty, a := .vsrc .ty, types := .intBits, bitExact := true }
  | .clz _ => some { forms := .all, slot := .v, cls := .aOrW, d := .vdstOpt .ty, a := .vsrc .ty, types := .intBits, bitExact := true }
  | .brev _ => some { forms := .all, slot := .v, cls := .aOrW, d := .vdstOpt .ty, a := .vsrc .ty, types := .intBits, bitExact := true }
  | .bfx _ => some { forms := .all, slot := .v, cls := .aOrW, d := .vdstOpt .ty, a := .vsrc .ty, b := .vsrc .single, types := .intBits, bitExact := true }
  | .bfi _ => some { forms := .all, slot := .v, cls := .aOrW, d := .vdstOpt .ty, a := .vsrc .ty, b := .vsrc .ty, c := .vsrc .single, types := .intBits, bitExact := true }
  | .cmp _ => some { forms := .all, slot := .v, cls := .aOrW, d := .kdst, a := .vsrc .ty, b := .secondV, c := .secondC, types := .int, variants := (List.range 6) }
  | .sel _ => some { forms := .all, slot := .v, cls := .aOrW, d := .vdstOpt .ty, a := .vsrc .ty, b := .vsrc .ty, c := .ksrc, types := .intBits, bitExact := true }
  | .dp4 _ => some { forms := .all, slot := .v, cls := .aOrW, d := .vdstOpt .ty, a := .vsrc .ty, b := .vsrc .ty, c := .vsrc .ty, types := .bytes, variants := [0, 16] }
  | .fadd _ => some { forms := .all, slot := .v, cls := .aOrW, d := .vdstOpt .ty, a := .vsrc .ty, b := .vsrc .ty, types := .float, rounds := true }
  | .fsub _ => some { forms := .all, slot := .v, cls := .aOrW, d := .vdstOpt .ty, a := .vsrc .ty, b := .vsrc .ty, types := .float, rounds := true }
  | .fmul _ => some { forms := .all, slot := .v, cls := .aOrW, d := .vdstOpt .ty, a := .vsrc .ty, b := .vsrc .ty, types := .float, rounds := true }
  | .fma _ => some { forms := .all, slot := .v, cls := .aOrW, d := .vdstOpt .ty, a := .vsrc .ty, b := .vsrc .ty, c := .vsrc .ty, types := .float, rounds := true }
  | .fmin _ => some { forms := .all, slot := .v, cls := .aOrW, d := .vdstOpt .ty, a := .vsrc .ty, b := .vsrc .ty, types := .float }
  | .fmax _ => some { forms := .all, slot := .v, cls := .aOrW, d := .vdstOpt .ty, a := .vsrc .ty, b := .vsrc .ty, types := .float }
  | .fcmp _ => some { forms := .all, slot := .v, cls := .aOrW, d := .kdst, a := .vsrc .ty, b := .vsrc .ty, types := .float, variants := (List.range 8) }
  | .frcp _ => some { forms := .all, slot := .x, cls := .t, d := .vdstOpt .ty, a := .vsrc .ty, types := .float, rounds := true }
  | .frsq _ => some { forms := .all, slot := .x, cls := .t, d := .vdstOpt .ty, a := .vsrc .ty, types := .float }
  | .fsqrt _ => some { forms := .all, slot := .x, cls := .t, d := .vdstOpt .ty, a := .vsrc .ty, types := .float, rounds := true }
  | .fdiv _ => some { forms := .all, slot := .x, cls := .t, d := .vdstOpt .ty, a := .vsrc .ty, b := .vsrc .ty, types := .float, rounds := true }
  | .fexp2 _ => some { forms := .all, slot := .x, cls := .t, d := .vdstOpt .ty, a := .vsrc .ty, types := .float32 }
  | .flog2 _ => some { forms := .all, slot := .x, cls := .t, d := .vdstOpt .ty, a := .vsrc .ty, types := .float32 }
  | .fsin _ => some { forms := .all, slot := .x, cls := .t, d := .vdstOpt .ty, a := .vsrc .ty, types := .float32 }
  | .fcos _ => some { forms := .all, slot := .x, cls := .t, d := .vdstOpt .ty, a := .vsrc .ty, types := .float32 }
  | .frnd _ => some { forms := .all, slot := .v, cls := .aOrW, d := .vdstOpt .ty, a := .vsrc .ty, types := .float, rounds := true }
  | .fclass _ => some { forms := .all, slot := .v, cls := .aOrW, d := .vdstOpt .single, a := .vsrc .ty, types := .float }
  | .fscale _ => some { forms := .all, slot := .v, cls := .aOrW, d := .vdstOpt .ty, a := .vsrc .ty, b := .vsrc .single, types := .float, rounds := true }
  | .fdot2 _ => some { forms := .all, slot := .v, cls := .aOrW, d := .vdstOpt .ty, a := .vsrc .ty, b := .vsrc .ty, c := .vsrc .ty, types := .half, rounds := true }
  | .cvtIntInt _ => some { forms := .mod64, slot := .v, cls := .aOrW, d := .vdstOpt .ty, a := .vsrc .srcTy, types := .cvt, variants := (List.range 32), cvt := true }
  | .cvtIntFloat _ => some { forms := .mod64, slot := .v, cls := .aOrW, d := .vdstOpt .ty, a := .vsrc .srcTy, types := .cvt, variants := (List.range 32), cvt := true, rounds := true }
  | .cvtFloatInt _ => some { forms := .mod64, slot := .v, cls := .aOrW, d := .vdstOpt .ty, a := .vsrc .srcTy, types := .cvt, variants := (List.range 32), cvt := true, rounds := true }
  | .cvtFloatNarrow _ => some { forms := .mod64, slot := .v, cls := .aOrW, d := .vdstOpt .ty, a := .vsrc .srcTy, types := .cvt, variants := (List.range 32), cvt := true, rounds := true }
  | .cvtFloatWiden _ => some { forms := .mod64, slot := .v, cls := .aOrW, d := .vdstOpt .ty, a := .vsrc .srcTy, types := .cvt, variants := (List.range 32), cvt := true }
  | .cvtFp8 _ => some { forms := .mod64, slot := .v, cls := .aOrW, d := .vdstOpt .ty, a := .vsrc .srcTy, types := .cvt, variants := (List.range 32), cvt := true, rounds := true }
  | .pack _ => some { forms := .all, slot := .x, cls := .p, d := .vdstOpt .ty, a := .vsrc .ty, b := .vsrc .ty, c := .packC, e := .packC, types := .pack, variants := [0, 16], bitExact := true }
  | .unpack _ => some { forms := .all, slot := .x, cls := .p, d := .vdstOpt .ty, a := .vsrc .ty, types := .pack, variants := (List.range 4), bitExact := true }
  | .perm _ => some { forms := .all, slot := .x, cls := .p, d := .vdstOpt .ty, a := .vsrc .ty, b := .vsrc .single, types := .perm, bitExact := true }
  | .lscanAdd _ => some { forms := .mod64, slot := .x, cls := .p, d := .vdstOpt .ty, a := .vsrc .ty, types := .scan, variants := [0, 1], noSr := true }
  | .lred _ => some { forms := .mod64, slot := .x, cls := .p, d := .vsdstOpt, a := .vsrc .ty, types := .reduce, variants := (List.range 6), noSr := true }
  | .qblk _ => some { forms := .only128, slot := .v, cls := .p, d := .vdst .single, a := .vsrc .ty, b := .band, e := .vdst .single, f := .vinout, types := .float32, variants := ((List.range 12).map (· + 16)), rounds := true }
  | .dqblk _ => some { forms := .only128, slot := .v, cls := .p, d := .vdstOpt .ty, a := .vsrc .ty, b := .band, e := .vsrc .single, types := .float32, variants := ((List.range 12).map (· + 16)), rounds := true }
  | .ld _ => some { forms := .imm, slot := .m, cls := .g, d := .vdst .ty, a := .addrMode, c := .offset, types := .all, variants := (List.range 3) }
  | .st _ => some { forms := .imm, slot := .m, cls := .g, a := .addrMode, b := .vsrc .ty, c := .offset, types := .all, variants := (List.range 3) }
  | .ldx _ => some { forms := .imm, slot := .m, cls := .g, d := .vdst .ty, a := .sreg, b := .vreg .single, c := .offset, types := .all, variants := (List.range 10) }
  | .stx _ => some { forms := .imm, slot := .m, cls := .g, a := .sreg, b := .vreg .single, c := .vsrc .ty, types := .all, variants := (List.range 10) }
  | .lds _ => some { forms := .imm, slot := .m, cls := .g, d := .vdst .ty, a := .addr32, c := .offset, types := .all, variants := (List.range 3) }
  | .sts _ => some { forms := .imm, slot := .m, cls := .g, a := .addr32, b := .vsrc .ty, c := .offset, types := .all, variants := (List.range 3) }
  | .tlook _ => some { forms := .only64, slot := .m, cls := .g, d := .vdst .single, a := .addrReg }
  | .tset _ => some { forms := .only64, slot := .m, cls := .g, d := .vdstOpt .pair, a := .addrReg, b := .vregOrS, variants := [0, 1] }
  | .tinv _ => some { forms := .only64, slot := .m, cls := .g, d := .vdstOpt .pair, a := .vregOrS }
  | .spmove _ => some { forms := .imm, slot := .m, cls := .g, a := .sreg, b := .sreg, c := .sregImm }
  | .atom _ => some { forms := .imm, slot := .m, cls := .g, d := .vdstOpt .ty, a := .addrReg, b := .vsrc .ty, c := .offset, types := .atomic, variants := (List.range 8) }
  | .atomCas _ => some { forms := .only64, slot := .m, cls := .g, d := .vdstOpt .ty, a := .addrReg, b := .vsrc .ty, c := .vsrc .ty, types := .cas }
  | .red _ => some { forms := .imm, slot := .m, cls := .g, a := .addrReg, b := .vsrc .ty, c := .offset, types := .atomic, variants := [0, 1, 2, 3, 4, 5, 7] }
  | .lr _ => some { forms := .only64, slot := .m, cls := .g, d := .vdst .ty, a := .addrReg, c := .offset, types := .cas }
  | .sc _ => some { forms := .only64, slot := .m, cls := .g, d := .vdstOpt .single, a := .addrReg, b := .vsrc .ty, c := .offset, types := .cas }
  | .fence _ => some { forms := .only64, slot := .m, cls := .g, variants := (List.range 4), whole := true }
  | .fenceSpec _ => some { forms := .only64, slot := .m, cls := .g, variants := (List.range 4), whole := true }
  | .pref _ => some { forms := .imm, slot := .m, cls := .g, a := .addrReg, c := .offset }
  | .salloc _ => some { forms := .imm, slot := .m, cls := .a, d := .sdstOpt, b := .size, c := .secondC }
  | .sfree _ => some { forms := .imm, slot := .m, cls := .a, d := .sdstOpt, b := .size, c := .secondC }
  | .barTeam _ => some { forms := .only64, slot := .m, cls := .g, whole := true }
  | .arriveCrew _ => some { forms := .only64, slot := .m, cls := .g, d := .sdstOpt, a := .crewA, c := .crewC, whole := true }
  | .waitCrew _ => some { forms := .only64, slot := .m, cls := .g, a := .crewA, b := .sreg, c := .crewC, whole := true }
  | .mst _ => some { forms := .imm, slot := .m, cls := .g, a := .sreg, b := .sregImm, c := .vsrc .ty, types := .all }
  | .obres _ => some { forms := .only128, slot := .m, cls := .e, d := .sdstOpt, a := .scalar, b := .scalar, f := .scalarOpt, variants := (List.range 16) }
  | .obrel _ => some { forms := .only64, slot := .m, cls := .e, d := .sdstOpt, variants := (List.range 16) }
  | .obload _ => some { forms := .imm, slot := .m, cls := .e, a := .scalar, b := .scalar, c := .scalar, variants := (List.range 32) }
  | .obgath _ => some { forms := .only128, slot := .m, cls := .e, a := .scalar, b := .vindex, c := .gatherC, variants := (List.range 32), shaped := true }
  | .gangSet _ => some { forms := .only64, slot := .m, cls := .a, d := .sdstOpt, a := .scalar }
  | .mm _ => some { forms := .only128, slot := .m, cls := .e, d := .scalar, a := .scalar, b := .scalar, c := .scalar, e := .scalar, f := .scalar, whole := true, shaped := true, mayCl := true }
  | .mtr _ => some { forms := .only128, slot := .m, cls := .e, d := .scalar, a := .scalar, c := .scalar, e := .scalar, whole := true, shaped := true }
  | .mperm _ => some { forms := .only128, slot := .m, cls := .e, d := .scalar, a := .scalar, b := .vindex, c := .scalar, e := .scalar, whole := true, shaped := true }
  | .mrsum _ => some { forms := .only128, slot := .m, cls := .e, d := .scalar, a := .scalar, c := .scalar, e := .scalar, f := .scalar, whole := true, shaped := true }
  | .accZero _ => some { forms := .only64, slot := .m, cls := .e, a := .scalar }
  | .accLd _ => some { forms := .only128, slot := .m, cls := .e, d := .scalar, a := .scalar, b := .scalar, c := .scalar, e := .scalar, types := .accum, variants := (List.range 32), shaped := true }
  | .accSt _ => some { forms := .only128, slot := .m, cls := .e, d := .scalar, a := .scalar, b := .scalar, c := .scalar, e := .scalar, types := .accum, variants := (List.range 32), shaped := true }
  | .mwait _ => some { forms := .only64, slot := .m, cls := .e, a := .scalar }
  | .mpoll _ => some { forms := .only64, slot := .m, cls := .e, d := .sdst, a := .scalar }
  | .mstat _ => some { forms := .only64, slot := .m, cls := .e, d := .vsdst, variants := [0, 1] }
  | .xcopy _ => some { forms := .only64, slot := .m, cls := .e, d := .spair, a := .scalar, variants := (List.range 32) }
  | .xwait _ => some { forms := .only64, slot := .m, cls := .e, a := .scalar, whole := true }
  | .xwaitRn _ => some { forms := .only64, slot := .m, cls := .e, d := .sdstOpt, a := .scalar, variants := [1] }
  | .xput _ => some { forms := .only128, slot := .m, cls := .e, d := .sdstOpt, a := .scalar, b := .scalar, c := .scalar, f := .scalar, variants := (List.range 32) }
  | .xget _ => some { forms := .only128, slot := .m, cls := .e, d := .sdstOpt, a := .scalar, b := .scalar, c := .scalar, f := .scalar, variants := (List.range 32) }
  | .xred _ => some { forms := .only128, slot := .m, cls := .e, d := .sdstOpt, a := .scalar, b := .scalar, c := .scalar, f := .scalar, types := .remote, variants := (List.range 32) }
  | .xatom _ => some { forms := .only128, slot := .m, cls := .e, d := .sdstOpt, a := .scalar, b := .scalar, c := .scalarOpt, e := .scalar, f := .scalar, types := .remote, variants := (List.range 32) }
  | .launchW _ => some { forms := .only64, slot := .m, cls := .e, d := .sdstOpt, a := .scalarOrPair, b := .scalarOrPair }
  | .launchL _ => some { forms := .only64, slot := .m, cls := .e, d := .vdst .pair, a := .scalarOrPair, b := .scalarOrPair, variants := [1] }
  | .gsig _ => some { forms := .imm, slot := .m, cls := .e, d := .sdstOpt, a := .scalar, b := .scalarImm, c := .zeroInImm }
  | .evrec _ => some { forms := .imm, slot := .m, cls := .e, a := .scalar, b := .scalarImm, c := .zeroInImm, variants := [1] }
  | .rdpv _ => some { forms := .only64, slot := .x, cls := .a, d := .sdst, a := .pn }
  | .wrpv _ => some { forms := .only64, slot := .x, cls := .a, d := .pnw, a := .scalar }
  | .eret _ => some { forms := .only64, slot := .x, cls := .c, whole := true }
  | .rwinRd _ => some { forms := .only64, slot := .x, cls := .a, d := .sdst, a := .scalar }
  | .rwinWr _ => some { forms := .imm, slot := .x, cls := .a, a := .scalar, b := .scalarImm, variants := [1] }
  | .ctxsv _ => some { forms := .only64, slot := .m, cls := .g, d := .sdstOpt, a := .scalar, b := .scalar }
  | .ctxld _ => some { forms := .only64, slot := .m, cls := .g, d := .sdstOpt, a := .scalar, variants := [1] }
  | .scanpassCore _ => some { forms := .only64, slot := .m, cls := .e, d := .sdst, a := .scalar }
  | .scanpassEngine _ => some { forms := .only64, slot := .m, cls := .e, d := .sdst, a := .scalar, variants := [1] }
  | .assayCtlRd _ => some { forms := .only64, slot := .m, cls := .e, d := .sdstOpt, a := .scalar, b := .scalarOpt }
  | .assayCtlWr _ => some { forms := .only64, slot := .m, cls := .e, d := .sdstOpt, a := .scalar, b := .scalarOpt, variants := [1] }
  | .assayCtlArm _ => some { forms := .only64, slot := .m, cls := .e, d := .sdstOpt, a := .scalar, b := .scalarOpt, variants := [2] }
  | .assayCtlDisarm _ => some { forms := .only64, slot := .m, cls := .e, d := .sdstOpt, a := .scalar, b := .scalarOpt, variants := [3] }
  | .haltCore _ => some { forms := .only64, slot := .x, cls := .c, whole := true }
  | _ => none

/-- The fields of an instruction that has a row. -/
def fieldsOf : Instr → Option Fields
  | .brNz f => some f
  | .brZ f => some f
  | .brAny f => some f
  | .brAll f => some f
  | .brsNz f => some f
  | .brsZ f => some f
  | .resume f => some f
  | .plysync f => some f
  | .jmp f => some f
  | .call f => some f
  | .callReg f => some f
  | .ret f => some f
  | .yield f => some f
  | .sleepUntil f => some f
  | .sleepEv f => some f
  | .rgn f => some f
  | .rgnEnd f => some f
  | .trap f => some f
  | .exit f => some f
  | .sadd f => some f
  | .ssub f => some f
  | .smul f => some f
  | .smad f => some f
  | .sand f => some f
  | .sor f => some f
  | .sxor f => some f
  | .sshl f => some f
  | .sshr f => some f
  | .ssra f => some f
  | .smin f => some f
  | .smax f => some f
  | .scmp f => some f
  | .ssel f => some f
  | .smov f => some f
  | .rdsp f => some f
  | .wrsp f => some f
  | .kand f => some f
  | .kor f => some f
  | .kxor f => some f
  | .knot f => some f
  | .kmov f => some f
  | .voteAny f => some f
  | .voteAll f => some f
  | .voteCnt f => some f
  | .add f => some f
  | .sub f => some f
  | .mulLo f => some f
  | .mulHi f => some f
  | .mad f => some f
  | .abs f => some f
  | .neg f => some f
  | .min f => some f
  | .max f => some f
  | .and f => some f
  | .or f => some f
  | .xor f => some f
  | .not f => some f
  | .shl f => some f
  | .shr f => some f
  | .sra f => some f
  | .rot f => some f
  | .popc f => some f
  | .clz f => some f
  | .brev f => some f
  | .bfx f => some f
  | .bfi f => some f
  | .cmp f => some f
  | .sel f => some f
  | .dp4 f => some f
  | .fadd f => some f
  | .fsub f => some f
  | .fmul f => some f
  | .fma f => some f
  | .fmin f => some f
  | .fmax f => some f
  | .fcmp f => some f
  | .frcp f => some f
  | .frsq f => some f
  | .fsqrt f => some f
  | .fdiv f => some f
  | .fexp2 f => some f
  | .flog2 f => some f
  | .fsin f => some f
  | .fcos f => some f
  | .frnd f => some f
  | .fclass f => some f
  | .fscale f => some f
  | .fdot2 f => some f
  | .cvtIntInt f => some f
  | .cvtIntFloat f => some f
  | .cvtFloatInt f => some f
  | .cvtFloatNarrow f => some f
  | .cvtFloatWiden f => some f
  | .cvtFp8 f => some f
  | .pack f => some f
  | .unpack f => some f
  | .perm f => some f
  | .lscanAdd f => some f
  | .lred f => some f
  | .qblk f => some f
  | .dqblk f => some f
  | .ld f => some f
  | .st f => some f
  | .ldx f => some f
  | .stx f => some f
  | .lds f => some f
  | .sts f => some f
  | .tlook f => some f
  | .tset f => some f
  | .tinv f => some f
  | .spmove f => some f
  | .atom f => some f
  | .atomCas f => some f
  | .red f => some f
  | .lr f => some f
  | .sc f => some f
  | .fence f => some f
  | .fenceSpec f => some f
  | .pref f => some f
  | .salloc f => some f
  | .sfree f => some f
  | .barTeam f => some f
  | .arriveCrew f => some f
  | .waitCrew f => some f
  | .mst f => some f
  | .obres f => some f
  | .obrel f => some f
  | .obload f => some f
  | .obgath f => some f
  | .gangSet f => some f
  | .mm f => some f
  | .mtr f => some f
  | .mperm f => some f
  | .mrsum f => some f
  | .accZero f => some f
  | .accLd f => some f
  | .accSt f => some f
  | .mwait f => some f
  | .mpoll f => some f
  | .mstat f => some f
  | .xcopy f => some f
  | .xwait f => some f
  | .xwaitRn f => some f
  | .xput f => some f
  | .xget f => some f
  | .xred f => some f
  | .xatom f => some f
  | .launchW f => some f
  | .launchL f => some f
  | .gsig f => some f
  | .evrec f => some f
  | .rdpv f => some f
  | .wrpv f => some f
  | .eret f => some f
  | .rwinRd f => some f
  | .rwinWr f => some f
  | .ctxsv f => some f
  | .ctxld f => some f
  | .scanpassCore f => some f
  | .scanpassEngine f => some f
  | .assayCtlRd f => some f
  | .assayCtlWr f => some f
  | .assayCtlArm f => some f
  | .assayCtlDisarm f => some f
  | .haltCore f => some f
  | _ => none

/-- The major opcode of an instruction that has a row; `wide` chooses the 64-bit opcode of R157. -/
def opcodeOf : Instr → Nat
  | .brNz _ => 0x01
  | .brZ _ => 0x01
  | .brAny _ => 0x01
  | .brAll _ => 0x01
  | .brsNz _ => 0x02
  | .brsZ _ => 0x02
  | .resume _ => 0x03
  | .plysync _ => 0x04
  | .jmp _ => 0x05
  | .call _ => 0x06
  | .callReg _ => 0x06
  | .ret _ => 0x07
  | .yield _ => 0x08
  | .sleepUntil _ => 0x09
  | .sleepEv _ => 0x0A
  | .rgn _ => 0x0B
  | .rgnEnd _ => 0x0B
  | .trap _ => 0x0C
  | .exit _ => 0x0D
  | .sadd _ => 0x0E
  | .ssub _ => 0x0F
  | .smul _ => 0x10
  | .smad _ => 0x11
  | .sand _ => 0x12
  | .sor _ => 0x13
  | .sxor _ => 0x14
  | .sshl _ => 0x15
  | .sshr _ => 0x16
  | .ssra _ => 0x17
  | .smin _ => 0x18
  | .smax _ => 0x18
  | .scmp _ => 0x19
  | .ssel _ => 0x1A
  | .smov _ => 0x1B
  | .rdsp _ => 0x1C
  | .wrsp _ => 0x1D
  | .kand _ => 0x1E
  | .kor _ => 0x1E
  | .kxor _ => 0x1E
  | .knot _ => 0x1E
  | .kmov _ => 0x1E
  | .voteAny _ => 0x1F
  | .voteAll _ => 0x1F
  | .voteCnt _ => 0x1F
  | .add f => if wideType f then 0x40 else 0x20
  | .sub f => if wideType f then 0x41 else 0x21
  | .mulLo f => if wideType f then 0x42 else 0x22
  | .mulHi f => if wideType f then 0x43 else 0x23
  | .mad f => if wideType f then 0x44 else 0x24
  | .abs f => if wideType f then 0x45 else 0x25
  | .neg f => if wideType f then 0x46 else 0x26
  | .min f => if wideType f then 0x47 else 0x27
  | .max f => if wideType f then 0x48 else 0x28
  | .and f => if wideType f then 0x49 else 0x29
  | .or f => if wideType f then 0x4A else 0x2A
  | .xor f => if wideType f then 0x4B else 0x2B
  | .not f => if wideType f then 0x4C else 0x2C
  | .shl f => if wideType f then 0x4D else 0x2D
  | .shr f => if wideType f then 0x4E else 0x2E
  | .sra f => if wideType f then 0x4F else 0x2F
  | .rot f => if wideType f then 0x50 else 0x30
  | .popc f => if wideType f then 0x51 else 0x31
  | .clz f => if wideType f then 0x52 else 0x32
  | .brev f => if wideType f then 0x53 else 0x33
  | .bfx f => if wideType f then 0x54 else 0x34
  | .bfi f => if wideType f then 0x55 else 0x35
  | .cmp f => if wideType f then 0x56 else 0x36
  | .sel f => if wideType f then 0x57 else 0x37
  | .dp4 _ => 0x38
  | .fadd f => if wideType f then 0x80 else 0x60
  | .fsub f => if wideType f then 0x81 else 0x61
  | .fmul f => if wideType f then 0x82 else 0x62
  | .fma f => if wideType f then 0x83 else 0x63
  | .fmin f => if wideType f then 0x84 else 0x64
  | .fmax f => if wideType f then 0x85 else 0x65
  | .fcmp f => if wideType f then 0x86 else 0x66
  | .frcp f => if wideType f then 0x87 else 0x67
  | .frsq f => if wideType f then 0x88 else 0x68
  | .fsqrt f => if wideType f then 0x89 else 0x69
  | .fdiv f => if wideType f then 0x8A else 0x6A
  | .fexp2 _ => 0x6B
  | .flog2 _ => 0x6C
  | .fsin _ => 0x6D
  | .fcos _ => 0x6E
  | .frnd f => if wideType f then 0x8B else 0x6F
  | .fclass f => if wideType f then 0x8C else 0x70
  | .fscale f => if wideType f then 0x8D else 0x71
  | .fdot2 _ => 0x72
  | .cvtIntInt _ => 0xA0
  | .cvtIntFloat _ => 0xA1
  | .cvtFloatInt _ => 0xA2
  | .cvtFloatNarrow _ => 0xA3
  | .cvtFloatWiden _ => 0xA4
  | .cvtFp8 _ => 0xA5
  | .pack _ => 0xA6
  | .unpack _ => 0xA7
  | .perm _ => 0xA8
  | .lscanAdd f => if wideType f then 0xAB else 0xA9
  | .lred f => if wideType f then 0xAC else 0xAA
  | .qblk _ => 0xAD
  | .dqblk _ => 0xAE
  | .ld _ => 0xC0
  | .st _ => 0xC1
  | .ldx _ => 0xC2
  | .stx _ => 0xC3
  | .lds _ => 0xC4
  | .sts _ => 0xC5
  | .tlook _ => 0xC6
  | .tset _ => 0xC7
  | .tinv _ => 0xC8
  | .spmove _ => 0xC9
  | .atom _ => 0xCA
  | .atomCas _ => 0xCB
  | .red _ => 0xCC
  | .lr _ => 0xCD
  | .sc _ => 0xCE
  | .fence _ => 0xCF
  | .fenceSpec _ => 0xD0
  | .pref _ => 0xD1
  | .salloc _ => 0xD2
  | .sfree _ => 0xD3
  | .barTeam _ => 0xD4
  | .arriveCrew _ => 0xD5
  | .waitCrew _ => 0xD6
  | .mst _ => 0xD7
  | .obres _ => 0xE0
  | .obrel _ => 0xE1
  | .obload _ => 0xE2
  | .obgath _ => 0xE3
  | .gangSet _ => 0xE4
  | .mm _ => 0xE5
  | .mtr _ => 0xE6
  | .mperm _ => 0xE7
  | .mrsum _ => 0xE8
  | .accZero _ => 0xE9
  | .accLd _ => 0xEA
  | .accSt _ => 0xEB
  | .mwait _ => 0xEC
  | .mpoll _ => 0xED
  | .mstat _ => 0xEE
  | .xcopy _ => 0xF0
  | .xwait _ => 0xF1
  | .xwaitRn _ => 0xF1
  | .xput _ => 0xF2
  | .xget _ => 0xF3
  | .xred _ => 0xF4
  | .xatom _ => 0xF5
  | .launchW _ => 0xF6
  | .launchL _ => 0xF6
  | .gsig _ => 0xF7
  | .evrec _ => 0xF7
  | .rdpv _ => 0xF8
  | .wrpv _ => 0xF9
  | .eret _ => 0xFA
  | .rwinRd _ => 0xFB
  | .rwinWr _ => 0xFB
  | .ctxsv _ => 0xFC
  | .ctxld _ => 0xFC
  | .scanpassCore _ => 0xFD
  | .scanpassEngine _ => 0xFD
  | .assayCtlRd _ => 0xFE
  | .assayCtlWr _ => 0xFE
  | .assayCtlArm _ => 0xFE
  | .assayCtlDisarm _ => 0xFE
  | .haltCore _ => 0xFF
  | _ => 0

/-- The instruction that an opcode and its variant select (R153, R161), its fields not yet checked;
`none` for a reserved variant of a shared opcode and for an opcode with no row. -/
def ofOpcode (op : Nat) (f : Fields) : Option Instr :=
  match op with
  | 0x01 =>
    match f.variant.toNat with
    | 0 => some (.brNz f)
    | 1 => some (.brZ f)
    | 2 => some (.brAny f)
    | 3 => some (.brAll f)
    | _ => none
  | 0x02 =>
    match f.variant.toNat with
    | 0 => some (.brsNz f)
    | 1 => some (.brsZ f)
    | _ => none
  | 0x03 => some (.resume f)
  | 0x04 => some (.plysync f)
  | 0x05 => some (.jmp f)
  | 0x06 =>
    match f.variant.toNat with
    | 0 => some (.call f)
    | 1 => some (.callReg f)
    | _ => none
  | 0x07 => some (.ret f)
  | 0x08 => some (.yield f)
  | 0x09 => some (.sleepUntil f)
  | 0x0A => some (.sleepEv f)
  | 0x0B =>
    match f.variant.toNat with
    | 0 => some (.rgn f)
    | 1 => some (.rgnEnd f)
    | _ => none
  | 0x0C => some (.trap f)
  | 0x0D => some (.exit f)
  | 0x0E => some (.sadd f)
  | 0x0F => some (.ssub f)
  | 0x10 => some (.smul f)
  | 0x11 => some (.smad f)
  | 0x12 => some (.sand f)
  | 0x13 => some (.sor f)
  | 0x14 => some (.sxor f)
  | 0x15 => some (.sshl f)
  | 0x16 => some (.sshr f)
  | 0x17 => some (.ssra f)
  | 0x18 =>
    match f.variant.toNat with
    | 0 => some (.smin f)
    | 1 => some (.smax f)
    | _ => none
  | 0x19 => some (.scmp f)
  | 0x1A => some (.ssel f)
  | 0x1B => some (.smov f)
  | 0x1C => some (.rdsp f)
  | 0x1D => some (.wrsp f)
  | 0x1E =>
    match f.variant.toNat with
    | 0 => some (.kand f)
    | 1 => some (.kor f)
    | 2 => some (.kxor f)
    | 3 => some (.knot f)
    | 4 => some (.kmov f)
    | _ => none
  | 0x1F =>
    match f.variant.toNat with
    | 0 => some (.voteAny f)
    | 1 => some (.voteAll f)
    | 2 => some (.voteCnt f)
    | _ => none
  | 0x20 => some (.add f)
  | 0x21 => some (.sub f)
  | 0x22 => some (.mulLo f)
  | 0x23 => some (.mulHi f)
  | 0x24 => some (.mad f)
  | 0x25 => some (.abs f)
  | 0x26 => some (.neg f)
  | 0x27 => some (.min f)
  | 0x28 => some (.max f)
  | 0x29 => some (.and f)
  | 0x2A => some (.or f)
  | 0x2B => some (.xor f)
  | 0x2C => some (.not f)
  | 0x2D => some (.shl f)
  | 0x2E => some (.shr f)
  | 0x2F => some (.sra f)
  | 0x30 => some (.rot f)
  | 0x31 => some (.popc f)
  | 0x32 => some (.clz f)
  | 0x33 => some (.brev f)
  | 0x34 => some (.bfx f)
  | 0x35 => some (.bfi f)
  | 0x36 => some (.cmp f)
  | 0x37 => some (.sel f)
  | 0x38 => some (.dp4 f)
  | 0x40 => some (.add f)
  | 0x41 => some (.sub f)
  | 0x42 => some (.mulLo f)
  | 0x43 => some (.mulHi f)
  | 0x44 => some (.mad f)
  | 0x45 => some (.abs f)
  | 0x46 => some (.neg f)
  | 0x47 => some (.min f)
  | 0x48 => some (.max f)
  | 0x49 => some (.and f)
  | 0x4A => some (.or f)
  | 0x4B => some (.xor f)
  | 0x4C => some (.not f)
  | 0x4D => some (.shl f)
  | 0x4E => some (.shr f)
  | 0x4F => some (.sra f)
  | 0x50 => some (.rot f)
  | 0x51 => some (.popc f)
  | 0x52 => some (.clz f)
  | 0x53 => some (.brev f)
  | 0x54 => some (.bfx f)
  | 0x55 => some (.bfi f)
  | 0x56 => some (.cmp f)
  | 0x57 => some (.sel f)
  | 0x60 => some (.fadd f)
  | 0x61 => some (.fsub f)
  | 0x62 => some (.fmul f)
  | 0x63 => some (.fma f)
  | 0x64 => some (.fmin f)
  | 0x65 => some (.fmax f)
  | 0x66 => some (.fcmp f)
  | 0x67 => some (.frcp f)
  | 0x68 => some (.frsq f)
  | 0x69 => some (.fsqrt f)
  | 0x6A => some (.fdiv f)
  | 0x6B => some (.fexp2 f)
  | 0x6C => some (.flog2 f)
  | 0x6D => some (.fsin f)
  | 0x6E => some (.fcos f)
  | 0x6F => some (.frnd f)
  | 0x70 => some (.fclass f)
  | 0x71 => some (.fscale f)
  | 0x72 => some (.fdot2 f)
  | 0x80 => some (.fadd f)
  | 0x81 => some (.fsub f)
  | 0x82 => some (.fmul f)
  | 0x83 => some (.fma f)
  | 0x84 => some (.fmin f)
  | 0x85 => some (.fmax f)
  | 0x86 => some (.fcmp f)
  | 0x87 => some (.frcp f)
  | 0x88 => some (.frsq f)
  | 0x89 => some (.fsqrt f)
  | 0x8A => some (.fdiv f)
  | 0x8B => some (.frnd f)
  | 0x8C => some (.fclass f)
  | 0x8D => some (.fscale f)
  | 0xA0 => some (.cvtIntInt f)
  | 0xA1 => some (.cvtIntFloat f)
  | 0xA2 => some (.cvtFloatInt f)
  | 0xA3 => some (.cvtFloatNarrow f)
  | 0xA4 => some (.cvtFloatWiden f)
  | 0xA5 => some (.cvtFp8 f)
  | 0xA6 => some (.pack f)
  | 0xA7 => some (.unpack f)
  | 0xA8 => some (.perm f)
  | 0xA9 => some (.lscanAdd f)
  | 0xAA => some (.lred f)
  | 0xAB => some (.lscanAdd f)
  | 0xAC => some (.lred f)
  | 0xAD => some (.qblk f)
  | 0xAE => some (.dqblk f)
  | 0xC0 => some (.ld f)
  | 0xC1 => some (.st f)
  | 0xC2 => some (.ldx f)
  | 0xC3 => some (.stx f)
  | 0xC4 => some (.lds f)
  | 0xC5 => some (.sts f)
  | 0xC6 => some (.tlook f)
  | 0xC7 => some (.tset f)
  | 0xC8 => some (.tinv f)
  | 0xC9 => some (.spmove f)
  | 0xCA => some (.atom f)
  | 0xCB => some (.atomCas f)
  | 0xCC => some (.red f)
  | 0xCD => some (.lr f)
  | 0xCE => some (.sc f)
  | 0xCF => some (.fence f)
  | 0xD0 => some (.fenceSpec f)
  | 0xD1 => some (.pref f)
  | 0xD2 => some (.salloc f)
  | 0xD3 => some (.sfree f)
  | 0xD4 => some (.barTeam f)
  | 0xD5 => some (.arriveCrew f)
  | 0xD6 => some (.waitCrew f)
  | 0xD7 => some (.mst f)
  | 0xE0 => some (.obres f)
  | 0xE1 => some (.obrel f)
  | 0xE2 => some (.obload f)
  | 0xE3 => some (.obgath f)
  | 0xE4 => some (.gangSet f)
  | 0xE5 => some (.mm f)
  | 0xE6 => some (.mtr f)
  | 0xE7 => some (.mperm f)
  | 0xE8 => some (.mrsum f)
  | 0xE9 => some (.accZero f)
  | 0xEA => some (.accLd f)
  | 0xEB => some (.accSt f)
  | 0xEC => some (.mwait f)
  | 0xED => some (.mpoll f)
  | 0xEE => some (.mstat f)
  | 0xF0 => some (.xcopy f)
  | 0xF1 =>
    match f.variant.toNat with
    | 0 => some (.xwait f)
    | 1 => some (.xwaitRn f)
    | _ => none
  | 0xF2 => some (.xput f)
  | 0xF3 => some (.xget f)
  | 0xF4 => some (.xred f)
  | 0xF5 => some (.xatom f)
  | 0xF6 =>
    match f.variant.toNat with
    | 0 => some (.launchW f)
    | 1 => some (.launchL f)
    | _ => none
  | 0xF7 =>
    match f.variant.toNat with
    | 0 => some (.gsig f)
    | 1 => some (.evrec f)
    | _ => none
  | 0xF8 => some (.rdpv f)
  | 0xF9 => some (.wrpv f)
  | 0xFA => some (.eret f)
  | 0xFB =>
    match f.variant.toNat with
    | 0 => some (.rwinRd f)
    | 1 => some (.rwinWr f)
    | _ => none
  | 0xFC =>
    match f.variant.toNat with
    | 0 => some (.ctxsv f)
    | 1 => some (.ctxld f)
    | _ => none
  | 0xFD =>
    match f.variant.toNat with
    | 0 => some (.scanpassCore f)
    | 1 => some (.scanpassEngine f)
    | _ => none
  | 0xFE =>
    match f.variant.toNat with
    | 0 => some (.assayCtlRd f)
    | 1 => some (.assayCtlWr f)
    | 2 => some (.assayCtlArm f)
    | 3 => some (.assayCtlDisarm f)
    | _ => none
  | 0xFF => some (.haltCore f)
  | _ => none

/-- The opcodes that the map defines (R153). -/
def definedOpcode (op : Nat) : Bool :=
  op ≤ 0x38 || (0x40 ≤ op && op ≤ 0x57) || (0x60 ≤ op && op ≤ 0x72) || (0x80 ≤ op && op ≤ 0x8D) ||
  (0xA0 ≤ op && op ≤ 0xAE) || (0xC0 ≤ op && op ≤ 0xD7) || (0xE0 ≤ op && op ≤ 0xEE) ||
  (0xF0 ≤ op && op ≤ 0xFF)

/-- Check 7 of R162 for a whole instruction, its opcode included. -/
def legalFields (i : Instr) : Bool :=
  match rowOf i, fieldsOf i with
  | some r, some f => r.legal (opcodeOf i) f
  | _, _ => false

/-- The latency class of an instruction (R156). -/
def latencyOf (r : Row) (f : Fields) : LatClass :=
  match r.cls with
  | .aOrW => if wideType f || (r.cvt && (srcTyOf f).is64) then .w else .a
  | k => k

end Sys2Proof.Machine
end

