-- ==== Sys2Proof/Config.lean ====
section
/-!
DEFINITION. What an implementation fixes, and the free values: quantities that the spec leaves open and
that no statement may rely on. A free value is an opaque constant: it has no body that Lean can see.
-/

namespace Sys2Proof.Config

/-- How far the core clock of R8 moves in step n: time is an input of the machine. Free value, log 2. -/
opaque clkGap : Nat → Nat

/-- How far `cyc` moves in step n (R8). Free value, log 2. -/
opaque cycGap : Nat → Nat

/-- The skew of a site's `cyc`, taken modulo 3 (R8: at most 2). Free value, log 2. -/
opaque skew : Nat → Nat

/-- Whether a home has a free watch entry at choice n (R175 gives no count). Free value, log 2. -/
opaque watchFree : Nat → Bool

/-- The failing pattern of a scan of a unit with a pattern set; 0 for a pass (R314). Free value, log 2. -/
opaque scanResult : Nat → Nat → Nat → Nat

/-- The core-cycles of a drained unit that the scan of a pattern set takes (R335, R362). Free value, log 2. -/
opaque scanCycles : Nat → Nat → Nat

/-- Which scan pattern sets the module stores, by the bytes of the scan record that applies (R314, R399). Free value, log 2. -/
opaque scanSets : List Byte → Nat → Bool

/-- Which of the stored sets that record marks required for a unit (R362, R402). Free value, log 2. -/
opaque scanRequired : List Byte → Nat → Nat → Bool

/-- The record by which the controller reports a boot that stops, by the step: its kind, x and y (R400, R372: R373 lists no
kind for it). Free value, log 36. -/
opaque bootReport : Nat → Nat × Nat × Nat

/-- The identity key's signature of bytes (R401). Free value, log 2. -/
opaque identitySignature : List Byte → List Byte

/-- The management controller's signature of a record of kind 8 (R404). Free value, log 34. -/
opaque controllerSignature : List Byte → List Byte

/-- Whether a record's signature verifies under a key that a record of kind 1, named by its bytes, certifies, or under the
root key where none is named (R399). Free value, log 34. -/
opaque signatureOk : Option (List Byte) → List Byte → Bool

/-- Whether a loss of light is declared by the port as the receiver, else by its laser monitor (R389). Free value,
log 104. -/
opaque lossSeenByPeer : Nat → Bool

/-- Which image a record of kind 5 holds: 0 for the controller's (R399). Free value, log 34. -/
opaque imageOf : List Byte → Nat

/-- A field that a record's body gives, by the record's bytes and the field (R399 gives no layout of a body).
Free value, log 34. -/
opaque recordField : List Byte → Nat → Nat

/-- The bytes that came with the module: records by kind, the mask ROM under 0, site firmware under 256 and above.
Free value, log 34. -/
opaque factory : Nat → List Byte

/-- The device identity certificate chain in a record of kind 1 (R399). Free value, log 34. -/
opaque certChain : List Byte → List Byte

/-- Which version of a table entry a walk uses, by step and entry address, while a home slice may hold an
older one (R343). Free value, log 2. -/
opaque walkVersion : Nat → Nat → Nat

/-- Whether clocks in which neither programs nor a capped class request a resource suffice for an activity beyond its
cap, by step, class and resource (R337). Free value, log 2. -/
opaque idleClocks : Nat → Nat → Bool

/-- The word of record 0x15 when no site has an up port, by site (R392 gives it no value). Free value, log 13. -/
opaque noProxy : Nat → Nat

/-- Which of the live links of a seam a packet takes, by step (R374, R380: any). Free value, log 2. -/
opaque linkPick : Nat → Nat

/-- Whether a packet of the external plane still comes in by the proxy while it hands the address back, by step (R383).
Free value, log 2. -/
opaque lateProxy : Nat → Bool

/-- Dwords 3 to 7 of a packet's header, the class's own command fields, by packet and dword: R374 gives them no layout. Free
value, log 115. -/
opaque cmdDword : Nat → Nat → BitVec 64

/-- What those dwords of a packet of another module ask for: 0 put, 1 get, 2 reduction, 3 atomic; the length in bytes; the op
code; the type. Free value, log 115. -/
opaque peerOp : List (BitVec 64) → Nat × Nat × Nat × Nat

/-- AES-256-GCM, which another standard defines: of a key, the bytes that are authenticated only, and those that are encrypted
too, the ciphertext with its tag (R391). Free value, log 115. -/
opaque gcmSeal : List Byte → List Byte → List Byte → List Byte

/-- Elements of those handed over that a copy performs at the end of a step, by step and copy: the way to the homes takes a time
that the rules do not give (R419, R421). Free value, log 2. -/
opaque copyPerformed : Nat → Nat → Nat

/-- Lines that a copy engine hands over beyond its pace at the end of a step, in clocks that nobody else requests, by step, site
and cluster (R419). Free value, log 2. -/
opaque copyAhead : Nat → Nat → Nat → Nat

/-- Whether an element of a copy that overlaps itself in global memory takes the value before the copy, by
element number (R104). Free value, log 2. -/
opaque overlapOld : Nat → Nat → Bool

end Sys2Proof.Config
end

