-- ==== Sys2Proof/Machine/State.lean ====
section
/-!
DEFINITION. The state of the module as plain data: plies, weaves, teams, cores, clusters, homes, the
scheduler, the fabric, the host ports and the controller (INVENTORY.md lists every piece with its
rule). The issuing ply, its weave and its team stand in fields of their own (log 4).
-/

namespace Sys2Proof.Machine

open Sys2Proof

/-! ### Registers and plies -/

/-- A mapped vector name: its physical register, the 32 lanes, and the poison of R359. -/
structure VReg where
  id : Nat
  lanes : LaneVec
  poison : Bool := false
  deriving DecidableEq, Repr

/-- A mapped scalar name. -/
structure SReg where
  id : Nat
  val : DWord
  poison : Bool := false
  deriving DecidableEq, Repr

/-- The rename maps of a weave: v0 to v191 and s0 to s47, `none` for an unmapped name (R44). -/
structure RegMap where
  v : List (Option VReg) := List.replicate 192 none
  s : List (Option SReg) := List.replicate 48 none
  deriving DecidableEq, Repr

/-- What stops a ply (R23). A `retry` ply stands at an instruction whose condition did not hold; it
issues that instruction again. -/
inductive Wait where
  | none
  | retry
  | yield (wake : Nat)                                   -- R173, core clock
  | sleepUntil (deadline : DWord) (handle : Option Nat)   -- R174
  | sleepEv (sel : Nat) (wake : Nat) (watch : Option Nat) (d : BitVec 8)   -- R175
  | woken (x : Nat)                                       -- R174: handle + 1 or 0; R175: the events
  | meet (rgn : Option DWord)                             -- R171; R177, with the base word
  | barTeam                                               -- R233
  | xwait (hs : List Nat)                                 -- R270: the handles outstanding at issue
  | evrec (a : Nat) (f : Fields)                          -- R283: dword 1 of the record at a is stored, not yet performed
  | launch                                                -- R277: the request is posted
  | saving                                                -- R313: the team that `ctxsv` names stops
  | rendezvous                                            -- R246
  | fetch                                                 -- its fetch waits in a pending entry (R348)
  deriving DecidableEq, Repr

/-- Where an access stands: on the mesh towards its home, at the home's seam gate, waiting for the host
to grant a line through a port, with the granted line on the way back from there, in a pending entry, waiting for one (with the cyc of its last try), behind an earlier access of its
ply or its log, or performed with its answer on the way back. -/
inductive Stage where
  | mesh | gate | host (port : Nat) | granted | fault | full (since : Nat) | held | reply
  deriving DecidableEq, Repr

/-- A lane access that is not yet complete (R105, R111, R221, R348). -/
structure Acc where
  id : Nat
  uid : Nat
  windex : Nat
  ply : Nat
  src : Nat                                               -- issuing site
  unit : Nat                                              -- requesting unit (R315)
  ctx : Nat
  tag : Nat                                               -- the load it belongs to
  lane : Nat
  kind : Nat                                              -- acc code of R349
  va : Nat
  ia : Nat
  n : Nat                                                 -- bytes, all in one line
  sh : Nat := 0                                           -- where they stand in the lane's element (R105)
  data : DWord
  cmp : DWord
  op : Nat                                                -- atomic op code; 8 cas, 9 lr, 10 sc
  type : Nat
  order : Nat
  scope : Nat
  policy : Nat
  spec : Bool
  space : Nat := 0                                        -- of a store in a fence's queue: 1 stack, 2 scratch, else global
  replica : Bool := false
  seq : Nat := 0                                          -- gate sequence number (R378)
  gply : Nat := 0                                         -- the ply whose sequence that is
  lanes : Nat := 0                                        -- lanes of the instruction on this page (R349)
  bad : Bool := false                                     -- its data met an uncorrectable error on the way (R359)
  ext : Bool := false                                     -- the plane chosen for it (R379)
  exit : Option Nat := none                               -- the port by which a distant access leaves (R115, R418)
  asked : Bool := false                                   -- its request for a host line has reached the port (R379)
  stage : Stage := .mesh
  since : Nat := 0                                        -- cyc at which a fault stopped it (R331)
  deriving DecidableEq, Repr

/-- A lane store in a side log (R355). -/
structure LaneStore where
  ia : Nat
  bytes : List Byte
  order : Nat
  op : Nat                -- R355: 0 store, 1-7 reduction, 8 remote put, 9 remote reduction
  type : Nat
  deriving DecidableEq, Repr

/-- The fence checkpoint of a ply (R54, R55, R117). -/
structure FenceCkpt where
  pc : DWord
  mask : LaneMask
  map : RegMap
  scope : Nat
  lines : List (Nat × Nat)        -- recorded lines with their wts
  queued : List Acc               -- stores that wait for the fence
  mark : Nat                      -- accesses with a lower name precede the fence
  tagMark : Nat                   -- loads with a lower tag precede it
  done : Bool := false            -- the fence is complete; stores that wait for earlier ones have still to leave
  own : List (Nat × LaneMask) := []   -- register codes that the ply wrote or unmapped since, with the lanes
  others : List Nat := []             -- register codes that other plies of the weave wrote or unmapped since
  deriving DecidableEq, Repr

/-- A ply (R18, R24 to R27). -/
structure Ply where
  n : Nat := 0
  pc : DWord := 0#64
  mask : LaneMask := 0#32
  wait : Wait := .none
  stopped : Bool := false              -- by a handler (R302)
  ready : Bool := true                 -- it is ready (R23), as found before the last choice of a ply
  passed : Nat := 0                    -- instructions of other plies since it became ready or last issued (R27)
  dueAt : Option Nat := none           -- the step at which it became due (R27)
  lastIssue : Nat := 0                 -- the step at which it last issued (R23)
  lastTry : Nat := 0                   -- the step at which it last stood still
  seqLeft : Nat := 0                   -- instructions left of an open constrained sequence (R27)
  pts : Nat := 0                       -- program timestamp (R109)
  ptsAt : Nat := 0                     -- cyc when it last rose (R110)
  fence : Option FenceCkpt := none
  rolled : Nat := 0                    -- roll-backs in succession of the fence at this pc (R117)
  gateSeq : List (Nat × Nat) := []     -- gate sequence numbers by home site (R378)
  trapDue : Option (Nat × DWord) := none   -- a trap raised at its next issue: code, tinfo0 (R247, R332)
  trapLater : List (Nat × DWord) := []     -- traps that became due behind it; raised after the return of its handler
  nextAt : Nat := 0                    -- the clock from which its next instruction issues (R23, R156)
  readyAt : Nat := 0                   -- the clock at which it became ready or last issued (R33)
  deriving DecidableEq, Repr

/-- The next instruction may be tried: the ply is not stopped and waits for no event. -/
def Ply.canTry (p : Ply) : Bool :=
  !p.stopped && (match p.wait with
    | .none | .retry | .woken _ | .xwait _ | .saving => true
    | _ => false)

/-- The ply is ready (R23). -/
def Ply.isReady (p : Ply) : Bool := p.ready && !p.stopped

/-- A result not yet written (R52, R156): the operand codes, whether the class is long, and how many
more instructions of the ply may issue meanwhile. -/
structure Pend where
  tag : Nat
  ply : Nat
  codes : List Nat
  long : Bool
  left : Nat
  timed : Bool                         -- written by LONG_LATENCY_RESULT_WRITE, at the clock `due` at the earliest
  due : Nat := 0
  at_ : Option Nat := none             -- the clock at which a result of class A or C is written
  fence : Option Nat := none           -- an incomplete `fence` (R230): the accesses with a lower name precede it
  deriving DecidableEq, Repr

/-- An open operand-latch window (R50, R51): the entry, the opening ply, the instructions left, the pinned
registers (of the scalar pool when `scalar`), and the value. The windows of a ply that runs a handler stand under its
number plus 4 until the return. -/
structure LatchWin where
  entry : Nat
  ply : Nat
  left : Nat
  ids : List Nat
  scalar : Bool := false
  val : WideVec
  snap : WideVec                       -- the pinned register as last seen
  poison : Bool := false               -- R359
  lost : Bool := false                 -- a hold of a handler took the entry of a window that waits for its return (R51)
  deriving DecidableEq, Repr

/-- The clock of the last write of privileged registers, and what they held before (R311). -/
structure PvOld where
  clk : Nat
  tvec : DWord
  epc : DWord
  tscr : List DWord
  deriving DecidableEq, Repr

/-- A load whose lanes are being gathered (R216, R218). -/
structure LoadReq where
  tag : Nat
  ply : Nat
  pc : DWord
  dst : Nat                            -- 0xF0: discarded
  type : Nat
  wide : Bool
  mask : LaneMask
  data : List (Option DWord)
  more : List Nat := []                -- lanes of which a second part is still to come (R105)
  acquire : Bool := false              -- its return performs an acquire (R107)
  bad : Option Nat := none             -- the address, divided by 4, of a poisoned word that an active lane received (R360)
  mem : Bool := false                  -- it reads global memory (R373)
  deriving DecidableEq, Repr

/-- The region checkpoint (R54, R177). -/
structure RegionCkpt where
  map : RegMap
  ply : Nat
  mask : LaneMask
  tagMark : Nat := 0                   -- loads with a lower tag precede it
  deriving DecidableEq, Repr

/-- A handle of an outstanding copy or remote operation (R265). -/
structure Handle where
  h : Nat
  copy : Bool
  promise : DWord
  deriving DecidableEq, Repr

/-- A reservation of `lr` by lane of its weave (R119). -/
structure Resv where
  lane : Nat
  line : Nat
  deriving DecidableEq, Repr

/-- An allocation that waits for its pools (R48): the ply that stands at it, and which pools are short. -/
structure Stall where
  ply : Nat
  vec : Bool
  scl : Bool
  deriving DecidableEq, Repr

/-- A deferred pre-emption (R53): instructions issued since the request and its cyc. -/
structure Deferral where
  issued : Nat
  since : Nat
  deriving DecidableEq, Repr

/-- A weave (R18, R19, R38 to R55, R300). While it is the issuing weave, `plies` holds its other
plies. -/
structure Weave where
  windex : Nat := 0
  handle : Nat := 0
  part : Nat := 0
  ended : Bool := false
  plies : List Ply := []
  map : RegMap := {}
  kregs : List LaneMask := List.replicate 8 0#32          -- entry 0 unused (R40)
  gang : DWord := 0#64
  memdef : DWord := 0x11#64                               -- scope 2, order 1 (R42)
  memdefOld : Option (Nat × DWord) := none                -- the clock of its last write and the value before (R139)
  stklim : DWord := 0#64
  rgnpc : DWord := 0#64
  fpflags : Flags := 0#7
  clkFlags : List (Nat × Nat × Flags) := []               -- flags set, by clock and ply, in the present clock (R43)
  srseed : DWord := 0#64
  srcnt : List Word := List.replicate 32 0#32             -- R63
  latches : List LatchWin := []                           -- the open windows, one for an entry and a ply
  pends : List Pend := []
  nextTag : Nat := 0
  loads : List LoadReq := []
  region : Option RegionCkpt := none
  restarts : Nat := 0                                     -- restarts of the region in succession (R361)
  stkTop : Nat := 0
  cursor : Nat := 0
  stack : List Host.Cell := []                            -- bytes held by the stack cache (log 17)
  stackBad : List Nat := []                               -- poisoned words of them, by address divided by 4 (R359)
  nextHandle : Nat := 1
  handles : List Handle := []
  crewCnt : List Word := List.replicate 4 0#32
  evEngine : Bool := false
  evSignal : Bool := false
  resv : List Resv := []
  evicted : Bool := false
  stalled : Option Stall := none                          -- waiting for an allocation (R48)
  admitted : Nat := 0                                     -- the step of its admission (R48)
  defer : Option Deferral := none
  pstat : DWord := 0#64
  tvec : DWord := 0#64
  epc : DWord := 0#64
  tcause : DWord := 0#64
  tinfo : List DWord := List.replicate 4 0#64
  tscr : List DWord := List.replicate 2 0#64
  pvOld : Option PvOld := none                            -- R311
  deriving DecidableEq, Repr

/-! ### Teams -/

/-- A live reservation of the operand buffer (R94, R95); `data` is its contents. -/
structure Resn where
  id : Nat := 0
  d0 : DWord
  d1 : DWord
  tscale : Word
  base : Nat                                              -- the buffer unit where it lies
  data : List Host.Cell
  poison : List Nat := []                                 -- poisoned words of the contents (R359)
  deriving DecidableEq, Repr

/-- A window of a context (R83). -/
structure Window where
  wva : DWord := 0#64
  wia : DWord := 0#64
  wset : DWord := 0#64
  deriving DecidableEq, Repr

/-- A gather list (R244): by row, the line index, or `none` for a masked row; the source reservation, or
the template of a memory source with its base address and the windows that translate it. -/
structure GatherList where
  rows : List (Option Nat)
  src : Nat                                               -- name of the reservation
  mem : Option Nat := none
  wins : List Window := []
  deriving DecidableEq, Repr

/-- The kernel header as the launch gave it (R148). -/
structure Kernel where
  addr : Nat := 0
  d0 : DWord := 0#64
  d1 : DWord := 0#64
  d2 : DWord := 0#64
  frozen : List (Nat × Nat) := []                         -- offset pairs (address, length)
  deriving DecidableEq, Repr

/-- Which run of a team this is (R366, R368). -/
inductive RunKind where
  | original | rerun | third
  deriving DecidableEq, Repr

/-- A core is named by site, physical cluster and core number (R315). -/
structure CoreId where
  site : Nat := 27
  cluster : Nat := 0
  core : Nat := 0
  deriving DecidableEq, Repr

/-- Amounts of the four resources that an activity uses. The spec gives capacities and caps and not what a single
activity uses (log 96). -/
structure Use where
  dram : Nat := 0
  mesh : Nat := 0
  llc : Nat := 0
  issue : Nat := 0
  deriving DecidableEq, Repr

/-- A resident team (R31). While it is the issuing team, `weaves` holds its other weaves. -/
structure Team where
  uid : Nat := 0
  launch : Nat := 0                                       -- key of its launch record
  ctx : Nat := 0
  at_ : CoreId := {}
  team : DWord := 0#64
  crews : DWord := 0#64
  lix : Nat := 0
  level : Bool := false                                   -- true: system level (R299)
  prio : Nat := 0
  run : RunKind := .original
  kernel : Kernel := {}
  weaves : List Weave := []
  scratch : List Host.Cell := []
  scratchPoison : List Nat := []                          -- poisoned words of the claim (R359)
  tags : List (Nat × DWord) := []                         -- tag entries not zero, by index
  tagAge : List Nat := []                                 -- indices, oldest hit or set first (R90)
  tagBad : List Nat := []                                 -- entries with an uncorrectable error (R359)
  resns : List (Option Resn) := List.replicate 16 none
  oldResns : List Resn := []                              -- released, still named by commands (R242)
  lists : List (Option GatherList) := List.replicate 4 none
  counts : List Word := List.replicate 64 0#32            -- R263
  slots : List Nat := []                                  -- stack slots (R278)
  wdogAt : Option Nat := none                             -- cyc at which the watchdog expires (R332)
  wdogFire : Bool := false
  digest : DWord := 0#64                                  -- R369
  eligible : Bool := true                                 -- R366
  sampled : Bool := false                                 -- R365
  engineUsed : Bool := false                              -- it posted a matrix command (R370)
  ranOn : List (Nat × Nat) := []                          -- clusters, site and physical, that it has left (R368)
  ending : Bool := false
  leaving : Option Nat := none                            -- 0 pre-emption, 1 swap-out, 2 migration, 3 `ctxsv`
  deriving DecidableEq, Repr

/-- An entry of a core's side log (R123, R355). `fid` is the pending entry's home and number. -/
structure LogEntry where
  uid : Nat
  windex : Nat
  ply : Nat
  store : LaneStore
  serial : Nat := 0                                       -- its place in program order: the name of its access or operation
  lanes : Nat := 0                                        -- lanes of the instruction on its page (R349)
  bad : Bool := false                                     -- its bytes hold poison (R359)
  fid : Option (Nat × Nat)
  rop : Option Nat := none                                -- the remote operation it belongs to (R276)
  port : Option Nat := none                               -- the host port through which it waits for a host line (R396)
  deriving DecidableEq, Repr

/-- A line copy in an L1 (R109). -/
structure L1Copy where
  line : Nat
  data : List Byte
  wts : Nat
  rts : Nat
  deriving DecidableEq, Repr

/-- The states of a split change (R309). -/
inductive SplitState where
  | serve | drain | flush | config
  deriving DecidableEq, Repr

/-- The scan states of a unit (R362). -/
inductive ScanState where
  | serve | drain | scan | quarantined | failed
  deriving DecidableEq, Repr

/-- A core that differs from its reset state. -/
structure Core where
  id : CoreId := {}
  split : Nat × Nat × Nat := (128, 256, 128)              -- S, L, T (R87); log 6
  splitState : SplitState := .serve
  wanted : Nat × Nat × Nat := (128, 256, 128)
  l1 : List L1Copy := []
  log : List LogEntry := []
  hook : Option Word := none                              -- R316
  hookRest : Option (Nat × Nat × Nat × Word) := none      -- of a store cut by a line: weave, tag, lane, mask of the hook (R316)
  halted : Bool := false                                  -- R317
  scan : ScanState := .serve
  passed : Nat := 0                                       -- last round passed (R363)
  scanAt : Nat := 0                                       -- cyc at which its drain began (R362)
  scanSet : Nat := 0                                      -- required sets that it has passed in this scan (R362)
  score : Nat := 0                                        -- R371
  latchOwner : List (Nat × Nat × Nat × Nat × Nat) := []   -- partition, entry, team, weave, ply
  configAt : Nat := 0
  deriving DecidableEq, Repr

/-! ### Clusters: matrix engine and copy engine -/

/-- What a matrix-group command does (R240). -/
inductive EngOp where
  | mm | mtr | mperm | mrsum | obload | obgath | accZero | accLd | accSt
  deriving DecidableEq, Repr

/-- A posted command (R248). Operand values are those read at issue; `perm` holds the indices of
`mperm` and of `obgath`; `rd`, `ra` and `rb` name the reservations of D, A and B. -/
structure EngCmd where
  id : Nat := 0
  uid : Nat := 0                                          -- the team whose handles it names
  owners : List (Nat × Nat) := []                         -- (team, windex) of every member (R246)
  op : EngOp
  reads : List Nat := []                                  -- wait-set bits it reads (R248, R249)
  writes : List Nat := []
  d : DWord := 0#64
  a : DWord := 0#64
  b : DWord := 0#64
  rows : DWord := 0#64
  cols : DWord := 0#64
  depth : DWord := 0#64
  rd : Nat := 0
  ra : Nat := 0
  rb : Nat := 0
  perm : List (Option Nat) := []
  shape : Nat := 16
  rnd : Nat := 0
  recomb : Bool := false
  type : Nat := 0
  sp : Bool := false
  wins : List Window := []
  ctx : Nat := 0
  prio : Nat := 0
  posted : Nat := 0                                       -- cyc
  promoted : Bool := false                                -- has waited 16,384 cycles
  started : Bool := false
  glist : Option GatherList := none                       -- the list that A names, as it stood at issue
  staged : List (Option (List Byte)) := []                -- rows gathered from memory (R244)
  stagedBad : Bool := false                               -- one of their words was poisoned
  source : Option Resn := none                            -- the source of a buffer list as it stood at the grant (R244)
  pos : Nat := 0                                          -- pieces of a transfer already moved
  counts : List Nat := List.replicate 64 0                -- R263
  dry : Bool := false                                     -- a re-run's `acc.st` (R368)
  fid : Option (Nat × Nat) := none
  deriving DecidableEq, Repr

/-- One arrival at the rendezvous latch (R246). -/
structure Arrival where
  uid : Nat
  windex : Nat
  ply : Nat
  handle : Nat
  gang : DWord
  pc : DWord
  fields : Fields
  op : EngOp
  vals : List DWord                                       -- every operand value read
  deriving DecidableEq, Repr

/-- A dimension of a copy (R267). -/
structure CopyDim where
  count : Nat
  sstr : Int
  dstr : Int
  deriving DecidableEq, Repr

/-- An accepted copy (R267 to R271): its descriptor, the windows in force at its issue, and the elements
already moved, in linear element order. `pre` keeps what the bytes of an overlapping global range held
before the copy wrote them, and `seqv` what a copy in element order would have left there (R104). -/
structure Copy where
  id : Nat := 0
  uid : Nat := 0
  windex : Nat := 0
  ply : Nat := 0
  h : Nat := 0
  ctx : Nat := 0
  wins : List Window := []
  dims : List CopyDim := []
  lgel : Nat := 0
  ssp : Bool := false
  dsp : Bool := false
  sbase : DWord := 0#64
  dbase : DWord := 0#64
  pos : Nat := 0                                          -- elements performed
  out : List (Nat × List Byte × Bool) := []               -- elements that have left by a port: number, bytes, poison (R418)
  handed : Nat := 0                                       -- elements handed to memory or to the port (R419)
  promise : DWord := 0#64
  acq : Bool := false
  rel : Bool := false
  scope : Nat := 0
  spol : Nat := 0
  dpol : Nat := 0
  dry : Bool := false                                     -- assay re-run: no memory is written (R284)
  overlap : Bool := false
  pre : List Host.Cell := []
  seqv : List Host.Cell := []                             -- what a sequential copy would have written so far (R104)
  fid : Option (Nat × Nat) := none
  deriving DecidableEq, Repr

/-- Where a line of a remote operation stands. -/
inductive RStage where
  | unsent | sent | reply | faulted | logged | done
  deriving DecidableEq, Repr

/-- The part of a remote operation in one line of its remote range (R414). -/
structure RLine where
  id : Nat
  va : Nat                                                -- remote address
  ia : Nat
  loc : Nat                                               -- local address
  len : Nat
  data : List Byte := []
  bad : Bool := false                                     -- the bytes hold poison (R359)
  stage : RStage := .unsent
  ext : Bool := false                                     -- the plane chosen for its pair (R414)
  exit : Option Nat := none                               -- the port by which a distant line leaves (R418)
  out : Bool := false                                     -- it has left the endpoint once
  deriving DecidableEq, Repr

/-- A remote operation at a site's endpoint (R273 to R276). -/
structure RemoteOp where
  id : Nat := 0
  uid : Nat := 0
  windex : Nat := 0
  ply : Nat := 0
  site : Nat := 0
  unit : Nat := 0
  ctx : Nat := 0
  h : Nat := 0
  kind : Nat := 0                                         -- 0 put, 1 get, 2 red, 3 atom
  wins : List Window := []
  sp : Bool := false
  lines : List RLine := []
  type : Nat := 0
  op : Nat := 0
  operand : DWord := 0#64
  compare : DWord := 0#64
  dm : Nat := 0
  acq : Bool := false
  rel : Bool := false
  scope : Nat := 0
  begun : Bool := false
  logged : Nat := 0                                       -- log entries not yet performed
  fid : Option (Nat × Nat) := none
  deriving DecidableEq, Repr

/-- A cluster, named by site and physical number. -/
structure Cluster where
  site : Nat := 27
  phys : Nat := 0
  cmds : List EngCmd := []                                -- the request table, oldest first
  waiting : List EngCmd := []                             -- saved or joint commands without an entry
  latch : List Arrival := []
  copies : List Copy := []                                -- oldest first
  pacedTo : Nat := 0                                      -- the copy engine has been paced up to this cyc (R419)
  scan : ScanState := .serve
  passed : Nat := 0
  scanAt : Nat := 0
  scanSet : Nat := 0
  score : Nat := 0
  deriving DecidableEq, Repr

/-! ### Memory, homes and faults -/

/-- What waits in a pending entry (R348). -/
inductive Waiter where
  | acc (id : Nat)
  | log (uid windex ply : Nat)
  | copy (id : Nat)
  | remote (id : Nat)
  | engine (id : Nat)
  | launch (key : Nat)
  | record (id : Nat)
  | fetch (uid windex ply : Nat)
  | image (uid : Nat)                                     -- the save or the restore of a team
  | host (id : Nat)                                       -- a host access
  | area (uid windex : Nat)                               -- the refill of an evicted weave (R93)
  | peer (id : Nat)                                       -- an access of another module (R390)
  deriving DecidableEq, Repr

/-- A pending entry of a home (R348, R349). An access of an agent that found the table full waits under a name above `maxFid`,
without a record, and tries again (R348). -/
structure Pending where
  home : Nat
  fid : Nat
  unit : Nat
  ctx : Nat
  page : Nat                                              -- IA / 64 KiB
  acc : Nat
  kind : Nat
  lvl : Nat
  ia : Nat
  lnum : Nat
  tix : Nat
  lanes : Nat
  at_ : Nat                                               -- cyc of the first failure
  tag : Nat := ctx                                        -- the context tag of the accesses, which `ctx` need not show (R348, R349)
  waiters : List Waiter
  deriving DecidableEq, Repr

/-- Timestamps of a line at its home (R109). -/
structure LineTs where
  line : Nat
  wts : Nat
  rts : Nat
  deriving DecidableEq, Repr

/-- A registered watch (R175). -/
structure Watch where
  line : Nat
  uid : Nat
  windex : Nat
  ply : Nat
  hit : Bool := false                                     -- a write to the line was performed (R175)
  deriving DecidableEq, Repr

/-- A replica of a line at a slice (R98). -/
structure Replica where
  site : Nat
  line : Nat
  launch : Nat
  data : List Byte
  deriving DecidableEq, Repr

/-- A window write under way (R312): the ply that wrote, its site, the window and its new value, the hosting sites that
have not acknowledged, and whether the write is complete. -/
structure WinWrite where
  id : Nat
  uid : Nat
  windex : Nat
  ply : Nat
  pc : DWord
  site : Nat
  n : Nat
  win : Window
  left : List Nat
  done : Bool := false
  deriving DecidableEq, Repr

/-- A context (R83, R312, R353). `bound` is the cluster of each granted bit: (site, logical). -/
structure Context where
  tag : Nat
  part : Nat
  windows : List Window := List.replicate 16 {}
  gen : Nat := 0
  granted : List Nat := []
  bound : List (Nat × Nat × Nat) := []                    -- affinity bit, site, physical cluster
  savePool : Nat := 0
  winWrite : Option WinWrite := none                      -- R312
  deriving DecidableEq, Repr

/-- Nothing in the manual leaves a case without an outcome (00 R15): no step of the model ends in a
fault. The type has no constructor, so no step can raise one; this is safe. -/
inductive Fault where
  deriving DecidableEq

/-- Why a step has no meaning. -/
inductive Refusal where
  /-- Raised by an arm of `exec` whose instruction has no meaning yet; safe. -/
  | notModelled (mnemonic : String)
  deriving DecidableEq, Repr

/-- A crew of a launch (R28, R29, R234): members by linear index; completed phases modulo 2^32. -/
structure Crew where
  members : List Nat
  resident : Bool
  broken : Bool := false
  done : Word := 0#32
  arrived : List (Nat × Word) := []                       -- a member's count, 0 when not listed
  ended : List Nat := []
  deriving DecidableEq, Repr

/-- A fault record not yet in its partition's ring (R349, R350). -/
structure FaultRec where
  part : Nat
  dwords : List DWord
  at_ : Nat
  deriving DecidableEq, Repr

/-! ### Launches, graphs and queues (12 R277 to R281, 17) -/

/-- What submitted a launch: an entry of a queue, a running team, or a node of a graph. -/
inductive Source where
  | queue (site q : Nat)
  | child (parent : Nat)
  | node (graph node : Nat)
  deriving DecidableEq, Repr

/-- A run of undispatched teams dealt to a site (R328); `since` is the cyc at which it became ready,
`offered` marks teams offered to another site (R334). -/
structure TeamRun where
  site : Nat
  first : Nat
  count : Nat
  since : Nat
  aged : Nat := 0                                         -- raises of its effective priority (R329)
  offered : Option Nat := none
  deriving DecidableEq, Repr

/-- A team that is swapped out (R305, R331): the pages of its context image, and beside the image what the
launch record holds of it. `kept` is the team as it stood, for what the image's layout does not carry
(log 22); `handles` are those still outstanding. -/
structure Suspended where
  uid : Nat
  lix : Nat
  site : Nat
  pages : List Nat                                        -- IA of each 4 KiB page
  pool : Bool                                             -- the pages belong to the save pool
  run : RunKind
  kept : Team
  held : Bool := false                                    -- by `ctxsv`: waits for `ctxld`
  faults : List (Nat × Nat) := []                         -- pending entries it waits for
  since : Nat                                             -- cyc at which it became ready
  aged : Nat := 0                                         -- raises of its effective priority (R329)
  evSignal : Bool := false                                -- a signal arrived meanwhile (R282)
  evEngine : List Nat := []                               -- weaves whose engine event came meanwhile
  wdog : Option Nat                                       -- watchdog ticks used
  offered : Option Nat := none
  handles : List (Nat × List Handle) := []
  cmds : List EngCmd := []                                -- unstarted matrix commands
  log : List LogEntry := []
  accs : List Acc := []                                   -- stores that wait for room in the side log (R356)
  gangUnit : List Nat := []                               -- the other teams of its gang unit (R30)
  gangs : List (Nat × List (Nat × Nat)) := []             -- by weave: the gang as (team, weave) names
  deriving DecidableEq, Repr

/-- A run of a sampled team: the core on which it ran, its digest, and whether it used the matrix engine. -/
structure TrialRun where
  core : CoreId
  digest : DWord
  engine : Bool
  odd : Bool := false                                     -- it met a reason that the original did not meet (R366)
  left : List (Nat × Nat) := []                           -- clusters, site and physical, that it ran on before its last (R368)
  deriving DecidableEq, Repr

/-- A sampled team whose original run ended and that is not yet decided (R368, R370): its runs, the original first. -/
structure Trial where
  lix : Nat
  runs : List TrialRun
  running : Bool := false                                 -- a re-run is admitted
  since : Nat := 0                                        -- cyc from which the next run waits (R330)
  deriving DecidableEq, Repr

/-- A launch record (R328). `runs` holds the teams not yet admitted. -/
structure Launch where
  key : Nat := 0
  num : Nat := 0                                          -- the number that records name: a child's own (R281)
  lnum : Nat := 0                                         -- the module's count of launches (log 26)
  site : Nat := 0
  ctx : Nat := 0
  source : Source := .queue 0 0
  nextChild : Nat := 0
  takenAt : Nat × Nat := (0, 0)                           -- clock and site of the last request taken (R37)
  level : Bool := false
  prio : Nat := 0
  pcap : Nat := 7
  tvec : DWord := 0#64
  args : DWord := 0#64
  kernel : Kernel := {}
  nx : Nat := 1
  ny : Nat := 1
  nz : Nat := 1
  stkbase : Nat := 0
  stksz : Nat := 0
  nslots : Nat := 0
  seed : DWord := 0#64
  crec : Option (Nat × Nat) := none                       -- IAs of dword 0 and dword 1
  wdog : Nat := 0
  aff : List Nat := []
  dealt : List (Nat × Nat × Nat) := []                    -- its clusters: affinity bit, site, physical cluster (R328, R353)
  crews : List Crew := []
  runs : List TeamRun := []
  suspended : List Suspended := []
  ended : List Nat := []                                  -- linear indices of ended teams
  usedSlots : List Nat := []
  heldSig : List Nat := []
  heldMst : List (Nat × Nat × List Byte) := []
  poisoned : Bool := false
  completed : Bool := false
  state : Nat := 0                                        -- R281: 1 provisional, 2 assured, 3 poisoned
  frozen : List (Nat × Nat × Nat) := []                   -- site, first IA, first IA not covered (R347)
  frozenSet : Bool := false                               -- the entries are installed
  units : List Nat := []                                  -- units on which it ran (R364)
  failedUnit : Bool := false
  lastRounds : List (Nat × Nat) := []                     -- by site: the last round (R363)
  skipped : Nat := 0                                      -- R365, R367
  matched : Nat := 0
  mismatched : Nat := 0
  sampled : Nat := 0
  trials : List Trial := []                               -- sampled teams not yet decided (R368, R370)
  windowOpen : Bool := false                              -- R367
  deriving DecidableEq, Repr

/-- A write of a graph processor: a dword or byte of a completion record, a node, a queue entry or a head dword, in the
order of its key (R281, R320, R322). -/
structure RecWrite where
  id : Nat
  key : Nat                                               -- writes of one key keep their order
  site : Nat
  ctx : Nat
  ia : Nat
  bytes : List Byte
  lnum : Nat
  note : Option Nat := none                               -- the new state whose record 0x0B follows the write (R410)
  fid : Option (Nat × Nat) := none
  deriving DecidableEq, Repr

/-- A launch request on its way to the owner of the parent launch (R37, R277). -/
structure LaunchReq where
  site : Nat                                              -- the requesting site
  uid : Nat
  windex : Nat
  ply : Nat
  tag : Nat
  parent : Nat                                            -- key of the parent launch
  perLane : Bool                                          -- `launch.l`
  items : List (Nat × DWord × DWord)                      -- lane, descriptor, argument block
  fields : Fields
  order : Option Nat := none                              -- its place among the requests that reached the owner
  stuck : Option Nat := none                              -- the lane whose read waits for service
  lost : List Nat := []                                   -- lanes whose reads met a cancelled fault (R280, code 7)
  deriving DecidableEq, Repr

/-- The owner's answer to a launch instruction (R277): by lane, the number and the status. -/
structure LaunchAns where
  req : LaunchReq
  limit : Bool
  results : List (Nat × Nat × Nat)
  deriving DecidableEq, Repr

/-- A node of a running graph (R322). -/
structure GNode where
  d : List DWord
  arr : Nat := 0
  state : Nat := 0
  aux : Nat := 0
  gotRun : Bool := false
  round : Bool := false                                   -- a loop node has begun a round since it runs
  launch : Option Nat := none                             -- the launch of a kernel node that runs
  copy : Option Nat := none                               -- the copy of a copy node that runs
  write : Option Nat := none                              -- the store of a host-signal node that runs
  deriving DecidableEq, Repr

/-- A running graph (R321 to R327). Tokens are (node, run); `starts` are nodes that run without a token. -/
structure Graph where
  id : Nat
  site : Nat
  q : Nat
  ctx : Nat
  level : Bool
  pcap : Nat
  tvec : DWord
  hdr : Nat
  prio : Nat
  crec : Option (Nat × Nat)
  nodes : List GNode
  tokens : List (Nat × Bool) := []
  starts : List Nat := []
  poisoned : Bool := false
  completed : Bool := false
  state : Nat := 0
  launches : List Nat := []                               -- every launch that a kernel node made
  deriving DecidableEq, Repr

/-- A submission queue in service (R318 to R320). -/
structure Queue where
  id : Nat
  site : Nat
  q : Nat
  ring : Nat
  tail : Nat
  head : Nat
  level : Bool
  pcap : Nat
  ctx : Nat
  lgn : Nat
  tvec : DWord
  headIdx : Nat := 0
  seenTail : Nat := 0
  overflow : Bool := false
  tailHeld : Bool := false                                -- the tail line is held and was read (R319)
  begun : Bool := false                                   -- the entry at the head index is in hand (R318)
  prevLaunch : Option Nat := none                         -- work of the previous entry
  prevGraph : Option Nat := none
  deriving DecidableEq, Repr

/-- A migration offer in flight (R333, R334). -/
structure Offer where
  id : Nat
  src : Nat
  dst : Nat
  launch : Nat
  kind : Nat
  first : Nat
  count : Nat
  image : Nat
  answer : Option Bool := none
  arrived : Bool := false                                 -- the message, or its answer, is there
  deriving DecidableEq, Repr

/-! ### Error records and time (R372, R373) -/

/-- An error record of the management controller (R373). -/
structure ErrRec where
  kind : Nat
  ctx : Nat
  unit : Nat
  seq : Nat
  sec : Nat
  ns : Nat
  lock : Bool
  cyc : Nat
  ia : Nat
  lnum : Nat
  tix : Nat
  x : Nat
  y : Nat
  sends : Nat := 1                                        -- messages sent
  acked : Bool := false
  deriving DecidableEq, Repr

/-- The PTP clock (R373): at the last sample, `cyc` and the PTP time in nanoseconds, and the lock. -/
structure Ptp where
  cyc : Nat := 0
  ns : Nat := 0
  offset : Nat := 0                                       -- magnitude, in nanoseconds
  lock : Bool := false
  deriving DecidableEq, Repr

/-! ### Sites and the fabric (18, 20, 21) -/

/-- Flits of a packet in the pool of a router input (R375): the input, a site and the one from which its link comes, the
channel, and how many. -/
structure Seg where
  input : Nat × Nat
  chan : Nat
  n : Nat
  deriving DecidableEq, Repr

/-- A packet (R374, R376): the request or the answer of an access, a line of a remote operation, or a message. Its flits stand
in router inputs, the one with the header first, or are still where it was injected, or the place that it heads for has
taken them. -/
structure Packet where
  id : Nat
  src : Nat
  dst : Nat
  cls : Nat
  pseq : Nat
  stomp : Bool := false
  ext : Bool := false
  acc : Nat
  ia : Nat := 0
  ctx : Nat := 0
  gseq : Nat := 0
  cmd : List Nat := []                                    -- what the model uses of dwords 3 to 7
  fails : Nat := 0                                        -- failed deliveries (R391)
  flits : Nat := 1                                        -- its header and data flits (R374)
  entry : Option Nat := none                              -- the site at which it has left the external plane (R383)
  segs : List Seg := []
  left : Nat := flits                                     -- flits that stand where it was injected
  got : Nat := 0                                          -- flits taken by the site that it heads for
  deriving DecidableEq, Repr

/-- An access of another module that came in by a port (R374, R390, R418): its packet's fields and data. -/
structure PeerReq where
  id : Nat
  port : Nat
  home : Nat
  src : Nat                                               -- the site of the other module
  node : Nat
  ctx : Nat
  ia : Nat
  cmd : List DWord                                        -- dwords 3 to 7
  data : List Byte
  fid : Option (Nat × Nat) := none
  deriving DecidableEq, Repr

/-- An Ultra Ethernet packet that a standard-mode port has put on the network (R384, R390, R391): the interface, the
destination's endpoint address as prefix and interface identifier, the header, and the payload. -/
structure Frame where
  iface : Nat
  pfx : DWord
  host : Nat
  header : List DWord
  payload : List Byte
  deriving DecidableEq, Repr

/-- A CXL.mem access of a host through a port: its IA and context tag, what it writes, and its answer: the bytes
read, or an error (R342, R352, R395). -/
structure HostReq where
  id : Nat
  port : Nat
  ctx : Nat
  ia : Nat
  n : Nat
  write : Bool
  bytes : List Byte
  fid : Option (Nat × Nat) := none
  done : Bool := false
  err : Bool := false
  deriving DecidableEq, Repr

/-- A flit that a striped port has sent (R385, R386): the kind, the seq field, the cumulative acknowledgement, the lane set,
the payload, and the wavelength. -/
structure LinkFlit where
  kind : Nat
  seq : Nat
  ack : Nat
  lset : BitVec 16 := 0#16
  payload : List Byte := []
  wave : Nat := 0
  deriving DecidableEq, Repr

/-- A striped link at one port (R385 to R387). Sending: the next new seq, the oldest one not acknowledged, the base, the
bytes in the flit being filled, the payloads of the flits not acknowledged by seq, the flits sent. Receiving: the next seq to
deliver, flits that wait for an earlier one, flits since the last acknowledgement and its cyc, the cyc of a gap, base and lane
set, and the delivered bytes that are no whole packet yet. -/
structure Stripe where
  txNext : Nat := 0
  txAck : Nat := 0
  txBase : Nat := 0
  txBuf : List Byte := []
  kept : List (Nat × List Byte) := []
  sent : List LinkFlit := []
  rxNext : Nat := 0
  rxHeld : List (Nat × List Byte) := []
  rxCount : Nat := 0
  rxAckAt : Nat := 0
  rxGap : Option Nat := none
  rxBase : Nat := 0
  rxLive : BitVec 16 := 0xFFFF#16
  rxBytes : List Byte := []
  deriving DecidableEq, Repr

/-- An MSI-X message: the port by which it leaves, the vector, and the address and the data of its table entry (R394). -/
structure MsiMessage where
  port : Nat
  vec : Nat
  addr : DWord
  data : Word
  deriving DecidableEq, Repr

/-- What a function answers over SPDM (R401). -/
inductive SpdmAnswer where
  | version (v : Nat)
  | capabilities (cert chal meas : Bool)
  | algorithms                                            -- ECDSA P-521 and SHA-512
  | digest (d : List Byte)
  | certificate (part : List Byte) (left : Nat)
  | challengeAuth (digest sig : List Byte)
  | measurements (count : Nat) (blocks : List (Nat × List Byte)) (sig : List Byte)
  | unsupportedRequest
  deriving DecidableEq, Repr

/-- A site that differs from its reset state: its control space (R397) and what the manual gives each
site besides. A register field with reset `cfg` holds what log 9 names. -/
structure Site where
  n : Nat := 27
  part : Nat := 0                                         -- `sitepart`
  sta : DWord := 0xC008000087653210#64                    -- `sitesta`
  sysbase : DWord := 0#64
  bgt : List DWord := [0x20202020#64, 0x20202020#64, 0x20202020#64, 0x20202020#64, 0x20202020#64,
    0x20202020#64, 0x20202020#64, 0x10101010#64]
  bgtNow : List DWord := [0x20202020#64, 0x20202020#64, 0x20202020#64, 0x20202020#64, 0x20202020#64,
    0x20202020#64, 0x20202020#64, 0x10101010#64]          -- the effective shares that fix this window (R419)
  bgtErr : Bool := false
  bgtW : Nat := 0                                         -- the window for which `bgtNow` is fixed (R335)
  advW : Nat := 0                                         -- advertisements of free slots sent (R333)
  lpW : Nat := 0                                          -- advertisements of the port queue sent (R379)
  bgtAct : BitVec 8 := 0#8                                -- what `bgtstat.act` holds of the window `actW`
  actW : Nat := 0                                         -- the window in which a class last used something
  rsw : DWord := 0x0000C81033000000#64
  opctl : DWord := 0xB500000000000000#64
  up : Bool := false                                      -- `opsta`
  opErr : Bool := false
  rtv : Option Nat := none
  dark : BitVec 16 := 0#16
  live : BitVec 16 := 0#16
  waitRetrain : List Nat := []                            -- wavelengths that retrain after `rtv` (R388, R389)
  lowAt : Nat := 0                                        -- cyc at which the live set last changed (R383)
  upAt : Nat := 0                                         -- cyc at which the port came up (R383)
  stripe : Stripe := {}
  trained : Bool := false                                 -- the port has trained in its mode since it was enabled (R383, R384)
  frames : List Frame := []                               -- what the port has put on the network in standard mode (R390)
  hdxia : List DWord := List.replicate 4 0#64
  hdxctx : List DWord := List.replicate 4 0#64
  fbbase : DWord := 0#64
  fbctl : DWord := 0#64
  fbidx : DWord := 0#64
  svbase : DWord := 0#64
  svtail : DWord := 0#64
  svctl : DWord := 0#64
  febase : DWord := 0#64
  fectl : DWord := 0#64
  feidx : DWord := 0#64
  svNext : Nat := 0                                       -- the service ring's next index (R351)
  svSeen : Nat := 0                                       -- the last tail that was observed
  svHeld : Bool := false                                  -- the tail line is held and was read (R351, R319)
  svBusy : Option (Nat × Nat × Nat) := none               -- an invalidate, or a flip to HB, that waits for leases: cyc, IA, length
  svPage : Nat := 0                                       -- bytes of a flip's range already flipped (R358)
  svHold : Option (Nat × Nat × Nat) := none               -- a page that is being flipped: context, IA, length
  gateTs : Nat := 0                                       -- timestamps of accesses from outside (R109)
  peer : Option Nat := none                               -- node that a striped peer reported (R418)
  downAt : Nat := 0                                       -- cyc at which the port went down (R383)
  proxied : Bool := false                                 -- the proxy has announced its address
  handover : Bool := false                                -- the proxy still forwards (R383)
  tries : Nat := 0                                        -- failed retraining attempts (R388)
  retrainAt : Nat := 0
  lp : Nat := 0                                           -- flits in the port's transmit queue (R379)
  heardLp : List (Nat × Nat) := []                        -- the latest advertisements held
  heardDown : List Nat := []                              -- sites whose advertised port is down
  pseqs : List (Nat × Nat × Nat) := []                    -- next pseq by destination and class (R374)
  seen : List (Nat × Nat × Nat) := []                     -- accepted: source, class, pseq (R381)
  round : Nat := 0                                        -- the scan round in progress (R363)
  turn : Nat := 0                                         -- the unit whose turn comes next (R362)
  deriving DecidableEq, Repr


/-- A page-table entry that a home slice holds (R343): its home, the context whose walk used it, its physical address,
the IAs that it covers, and its bytes. -/
structure WalkEntry where
  site : Nat
  ctx : Nat
  pa : Nat
  lo : Nat
  hi : Nat
  entry : DWord
  deriving DecidableEq, Repr

/-- The whole module, the host memory and the other wafers' memory. -/
structure State where
  cyc : Nat := 0
  clk : Nat := 0
  steps : Nat := 0
  freeCtr : Nat := 0
  slots : List (CoreId × Nat × Nat × Nat) := []           -- held issue slots: core, partition, slot (0 V, 1 M, 2 X), the clock that ends it (R23, R156)
  agenda : List (Instr × List Nat) := []                  -- steps of other agents that come next, with their subjects (log 1)
  subject : List Nat := []                                -- what the step under way concerns, when its name has no fields
  nextId : Nat := 1                                       -- names of the model: registers, teams, commands
  focused : Bool := false
  ply : Ply := {}
  weave : Weave := {}
  team : Team := {}
  teams : List Team := []
  cores : List Core := []                                 -- cores that differ from their reset state
  clusters : List Cluster := []                           -- likewise
  remotes : List RemoteOp := []
  accs : List Acc := []
  mem : List Host.Cell := []
  poisoned : List Nat := []                               -- poisoned words: memory key / 4 (R359)
  lineTs : List LineTs := []
  replicas : List Replica := []
  walkCache : List WalkEntry := []
  watches : List Watch := []
  pendings : List Pending := []
  contexts : List Context := []
  faultQ : List FaultRec := []
  launches : List Launch := []
  launchCount : Nat := 0
  launchReqs : List LaunchReq := []
  launchAns : List LaunchAns := []
  graphs : List Graph := []
  lostReads : List Nat := []                              -- graph processors' reads whose fault was cancelled (R280)
  hostReqs : List HostReq := []                           -- CXL.mem accesses of hosts (R342, R395)
  recWrites : List RecWrite := []                         -- graph processors' writes not yet performed
  decided : Nat := 0                                      -- decided teams (R371)
  queues : List Queue := []
  offers : List Offer := []
  adverts : List (Nat × Nat × (Nat × Nat × Nat) × Nat) := []   -- at, from, split, free slots (R333)
  spent : List (Nat × Nat × Nat) := []                    -- site, 4 × class + resource, used in the site's window `actW` (R337)
  payments : List ((Nat × Nat × Nat) × Use) := []         -- activities under way, by kind and names: what they have used (R337)
  errs : List ErrRec := []                                -- the most recent 4,096 (R372)
  errSeq : Nat := 0
  ptp : Ptp := {}
  corrected : List (Nat × Nat × Nat) := []                -- unit, count, cyc of its last record (R373)
  sites : List Site := []                                 -- sites that differ from their reset state
  packets : List Packet := []
  hbHeld : List (Nat × Nat) := []                         -- host lines held: caching site, line (R100, R357)
  hbShared : List (Nat × Nat) := []                       -- host lines held for reading only
  hostUp : List Bool := List.replicate 4 true             -- links of the four host ports (R396)
  msi : List MsiMessage := []                             -- MSI-X messages sent (R394)
  msiPending : List (Nat × Nat) := []                     -- vectors whose pending bit is set, with the message's site (R394)
  fabricQ : List FaultRec := []                           -- fabric records not yet in their ring (R392)
  linkFails : List (Nat × Nat × Nat × Nat) := []          -- seam, link, replays failed in a row (R380)
  retry : List ((Nat × Nat × Nat) × List Nat) := []       -- the packets of the last 32 flits of a link, by its ends and number (R380)
  deadLinks : List (Nat × Nat × Nat × Nat) := []          -- seam, link, cyc of its loss (R380)
  detours : List (Nat × Nat) := []                        -- seams whose detour tables are loaded (R380)
  msix : List (Nat × DWord) := []                         -- MSI-X table: offset, dword (R394)
  trained : Nat := 4                                      -- host ports that trained at the last reset (R393)
  wafer : Nat := 0x001                                    -- the module's own wafer identifier (R84), from the module record (R399; log 9)
  serial : Nat := 0                                       -- module serial (R393), from the module record (R399)
  spdm : List (Nat × SpdmAnswer) := []                    -- answers given, by port (R401)
  mgmt : List (Nat × Nat) := []                           -- management commands answered: code, completion (R406)
  powerLimit : Nat := 48000                               -- in watts (R406, R407)
  clkMhz : Nat := 1500                                    -- core clock (R8, R407)
  hookEnabled : Bool := false                             -- `pstat.hook` (R300, R316), from the module record (R399)
  peerReqs : List PeerReq := []                           -- accesses of other modules under way (R390)
  domainKeys : List (Nat × List Byte) := []               -- R391
  flash : List (List Byte) := []                          -- records written since manufacture (R399, log 34)
  applied : List (List Byte) := []                        -- those of them that applied at the last reset
  defects : List (Nat × Nat) := []                        -- defect map: site, failed position, in order of failure (R404)
  scanRec : List Byte := []                               -- the scan record that applies (R399); [] that of manufacture
  laserMap : Nat := 0                                     -- the laser-module map of the port settings (R399)
  liveMap : List Byte := []                               -- the live map of this boot (R401); [] that of a whole module
  bootStop : Nat := 0                                     -- the step of R400 at which the boot stopped; 0: complete
  deriving DecidableEq, Repr

/-- The module right after a cold reset (21 R400): bring-up done, nothing submitted. -/
def State.reset : State := {}

end Sys2Proof.Machine
end

