-- ==== Sys2Proof/Machine/Ops.lean ====
section
/-!
DEFINITION. The named operations on the state: focus, registers and rename maps (02), the physical pools,
masks, the program counter, the cores.
-/

namespace Sys2Proof.Machine

open Sys2Proof

/-! ### Focus (log 4) -/

/-- Every ply of the issuing weave while it is focused. -/
def allPlies (s : State) : List Ply := s.ply :: s.weave.plies

/-- The issuing weave with its issuing ply put back among its plies, in ply-number order. -/
def insertPly (p : Ply) : List Ply → List Ply
  | [] => [p]
  | q :: rest => if p.n ≤ q.n then p :: q :: rest else q :: insertPly p rest

def insertWeave (w : Weave) : List Weave → List Weave
  | [] => [w]
  | v :: rest => if w.windex ≤ v.windex then w :: v :: rest else v :: insertWeave w rest

def insertTeam (t : Team) : List Team → List Team
  | [] => [t]
  | u :: rest => if t.uid ≤ u.uid then t :: u :: rest else u :: insertTeam t rest

/-- The state with the issuing ply, weave and team back in the lists. A ply with an empty mask and a
weave without plies have ended (R18) and are dropped or marked; the latch windows of such a ply close (R50). -/
def park (s : State) : State :=
  if !s.focused then s
  else
    let ps := if s.ply.mask == 0#32 then s.weave.plies else insertPly s.ply s.weave.plies
    let w := { s.weave with plies := ps, ended := ps.isEmpty
                            latches := if s.ply.mask == 0#32 then s.weave.latches.filter (fun l => l.ply % 4 != s.ply.n) else s.weave.latches }
    let t := { s.team with weaves := insertWeave w s.team.weaves }
    { s with focused := false, ply := {}, weave := {}, team := {}, teams := insertTeam t s.teams }

/-- The parked state with ply p of weave w of team t issuing; unchanged when there is no such ply. -/
def focusOn (s0 : State) (uid windex ply : Nat) : State :=
  let s := park s0
  match s.teams.find? (·.uid == uid) with
  | none => s
  | some t =>
    match t.weaves.find? (·.windex == windex) with
    | none => s
    | some w =>
      match w.plies.find? (·.n == ply) with
      | none => s
      | some p =>
        { s with
          focused := true
          ply := p
          weave := { w with plies := w.plies.filter (·.n != ply) }
          team := { t with weaves := t.weaves.filter (·.windex != windex) }
          teams := s.teams.filter (·.uid != uid) }

/-- The state after f on the parked state, with the same ply issuing again if it still exists. -/
def whileParked (s : State) (f : State → State) : State :=
  if s.focused then focusOn (f (park s)) s.team.uid s.weave.windex s.ply.n else f s

/-- f on every team that satisfies p; the state is parked. -/
def onTeams (s : State) (p : Team → Bool) (f : Team → Team) : State :=
  { s with teams := s.teams.map (fun t => if p t then f t else t) }

/-- f on one weave; the state is parked. -/
def onWeave (s : State) (uid windex : Nat) (f : Weave → Weave) : State :=
  onTeams s (·.uid == uid) (fun t =>
    { t with weaves := t.weaves.map (fun w => if w.windex == windex then f w else w) })

/-- f on one ply; the state is parked. -/
def onPly (s : State) (uid windex n : Nat) (f : Ply → Ply) : State :=
  onWeave s uid windex (fun w => { w with plies := w.plies.map (fun p => if p.n == n then f p else p) })

def findTeam (s : State) (uid : Nat) : Option Team := s.teams.find? (·.uid == uid)

def findWeave (s : State) (uid windex : Nat) : Option Weave :=
  (findTeam s uid).bind (fun t => t.weaves.find? (·.windex == windex))

/-! ### Cores and clusters: a unit that is not listed is in its reset state -/

def findCore (s : State) (c : CoreId) : Core := (s.cores.find? (·.id == c)).getD { id := c }

def setCore (s : State) (c : Core) : State :=
  { s with cores := if s.cores.any (·.id == c.id) then replaceFirst (·.id == c.id) (fun _ => c) s.cores else s.cores ++ [c] }

def onCore (s : State) (c : CoreId) (f : Core → Core) : State := setCore s (f (findCore s c))

def findCluster (s : State) (site phys : Nat) : Cluster :=
  (s.clusters.find? (fun c => c.site == site && c.phys == phys)).getD { site := site, phys := phys }

def setCluster (s : State) (c : Cluster) : State :=
  let same (d : Cluster) : Bool := d.site == c.site && d.phys == c.phys
  { s with clusters := if s.clusters.any same then replaceFirst same (fun _ => c) s.clusters else s.clusters ++ [c] }

def onCluster (s : State) (site phys : Nat) (f : Cluster → Cluster) : State :=
  setCluster s (f (findCluster s site phys))

/-- `cyc` as a site sees it (R8: sites agree within 2 cycles). -/
def cycAt (s : State) (site : Nat) : Nat := s.cyc + Config.skew site % 3

/-- `cyc` at the issuing ply's site. -/
def cycHere (s : State) : Nat := cycAt s s.team.at_.site

/-- What the step of another agent concerns, by position (log 1). -/
def subject (s : State) (k : Nat) : Nat := s.subject.getD k 0

/-- A fresh free value number (log 2). -/
def tick (s : State) : State := { s with freeCtr := s.freeCtr + 1 }

/-! ### Addresses of instructions (R126) -/

/-- `next_pc` of R126. -/
def nextPc (a : DWord) (len : Nat) : DWord :=
  let n := a + BitVec.ofNat 64 len
  if n.toNat % 32 == 28 then n + 4#64 else n

/-- The address of the instruction after one with these fields, its prefix counted in. -/
def afterPc (a : DWord) (f : Fields) : DWord := nextPc a (f.prefixBytes + f.length)

/-! ### Lanes -/

/-- The mask register named by a mask field: k0 is the ply's lanes (R40). -/
def kread (s : State) (k : Nat) : LaneMask := if k == 0 then s.ply.mask else s.weave.kregs.getD k 0#32

/-- The lanes active for an instruction (R129). -/
def activeLanes (s : State) (f : Fields) : LaneMask :=
  let k := kread s f.mask.toNat
  s.ply.mask &&& (if f.msense then ~~~k else k)

/-! ### Rename maps (R44) -/

def vget (s : State) (n : Nat) : Option VReg := s.weave.map.v.getD n none
def sget (s : State) (n : Nat) : Option SReg := s.weave.map.s.getD n none

def RegMap.setV (m : RegMap) (n : Nat) (r : Option VReg) : RegMap := { m with v := setAt none m.v n r }
def RegMap.setS (m : RegMap) (n : Nat) (r : Option SReg) : RegMap := { m with s := setAt none m.s n r }

def setMap (s : State) (m : RegMap) : State := { s with weave := { s.weave with map := m } }

/-- The maps that checkpoints of the weave hold (R54). -/
def ckptMaps (s : State) : List RegMap :=
  (s.weave.region.map (·.map)).toList ++
  (allPlies s).filterMap (fun p => p.fence.map (·.map))

def RegMap.vIds (m : RegMap) : List Nat := m.v.filterMap (fun r => r.map (·.id))
def RegMap.sIds (m : RegMap) : List Nat := m.s.filterMap (fun r => r.map (·.id))

/-- A checkpoint of the weave pins the physical register (R54). -/
def vPinned (s : State) (id : Nat) : Bool := (ckptMaps s).any (fun m => m.vIds.contains id)
def sPinned (s : State) (id : Nat) : Bool := (ckptMaps s).any (fun m => m.sIds.contains id)

/-- The latch windows that pin a vector register keep its last value when its name leaves it (R50, R51): the second
register of a held pair is the upper half of the value. -/
def snapLatches (s : State) (id : Nat) (vals : LaneVec) : State :=
  { s with weave := { s.weave with latches := s.weave.latches.map (fun w =>
      if !w.scalar && w.ids.contains id then
        { w with snap := tabulate (fun i =>
            if w.ids[0]? == some id then (lane w.snap i).extractLsb' 32 32 ++ lane vals i
            else (lane vals i) ++ (lane w.snap i).extractLsb' 0 32) }
      else w) } }

/-- The same for a scalar register. -/
def snapScalar (s : State) (r : SReg) : State :=
  { s with weave := { s.weave with latches := s.weave.latches.map (fun w =>
      if w.scalar && w.ids.contains r.id then { w with snap := tabulate (fun _ => r.val) } else w) } }

/-- A name becomes unmapped (R44 step 2). -/
def unmapV (s : State) (n : Nat) : State :=
  match vget s n with
  | none => s
  | some r => setMap (snapLatches s r.id r.lanes) (s.weave.map.setV n none)

def unmapS (s : State) (n : Nat) : State :=
  match sget s n with
  | none => s
  | some r => setMap (snapScalar s r) (s.weave.map.setS n none)

/-- R44 step 3 for a vector name: in place, copied to a new register when a checkpoint pins the old
one, or into a newly allocated register whose unwritten lanes hold zero. -/
def writeV (s : State) (n : Nat) (m : LaneMask) (vals : LaneVec) : State :=
  match vget s n with
  | some r =>
    let new := mergeLanes m vals r.lanes
    let poison := r.poison && m != 0xFFFFFFFF#32
    if vPinned s r.id then
      let s1 := snapLatches s r.id r.lanes
      { setMap s1 (s1.weave.map.setV n (some ⟨s.nextId, new, poison⟩)) with nextId := s.nextId + 1 }
    else setMap s (s.weave.map.setV n (some ⟨r.id, new, poison⟩))
  | none =>
    { setMap s (s.weave.map.setV n (some ⟨s.nextId, mergeLanes m vals (tabulate (fun _ => 0#32)), false⟩))
      with nextId := s.nextId + 1 }

/-- The same for a scalar name; every write gives all 64 bits. -/
def writeS (s : State) (n : Nat) (x : DWord) : State :=
  match sget s n with
  | some r =>
    if sPinned s r.id then
      let s1 := snapScalar s r
      { setMap s1 (s1.weave.map.setS n (some ⟨s.nextId, x, false⟩)) with nextId := s.nextId + 1 }
    else setMap s (s.weave.map.setS n (some ⟨r.id, x, false⟩))
  | none => { setMap s (s.weave.map.setS n (some ⟨s.nextId, x, false⟩)) with nextId := s.nextId + 1 }

/-- The bits m of mask register k take those of x (R185). -/
def writeK (s : State) (k : Nat) (m x : LaneMask) : State :=
  let old := s.weave.kregs.getD k 0#32
  { s with weave := { s.weave with kregs := setAt 0#32 s.weave.kregs k ((old &&& ~~~m) ||| (x &&& m)) } }

/-! ### Floor, peak, volatile ranges (R46, R53) and the pools (R44, R48) -/

def Kernel.vfloor (k : Kernel) : Nat := (k.d1.extractLsb' 56 8).toNat
def Kernel.vpeak (k : Kernel) : Nat := (k.d1.extractLsb' 48 8).toNat
def Kernel.sfloor (k : Kernel) : Nat := (k.d1.extractLsb' 40 8).toNat
def Kernel.speak (k : Kernel) : Nat := (k.d1.extractLsb' 32 8).toNat
/-- A vector name is volatile (R53). -/
def Kernel.volV (k : Kernel) (n : Nat) : Bool :=
  k.d2.getLsbD 27 && (k.d1.extractLsb' 24 8).toNat ≤ n && n ≤ (k.d1.extractLsb' 16 8).toNat
def Kernel.volS (k : Kernel) (n : Nat) : Bool :=
  k.d2.getLsbD 26 && (k.d1.extractLsb' 8 8).toNat ≤ n && n ≤ (k.d1.extractLsb' 0 8).toNat
/-- S, L, T in KiB, the claim in bytes, the tag slot size and the number of tag entries (R87, R88). -/
def Kernel.split (k : Kernel) : Nat × Nat × Nat :=
  ((k.d2.extractLsb' 56 8).toNat * 32, (k.d2.extractLsb' 48 8).toNat * 32, (k.d2.extractLsb' 40 8).toNat * 32)
def Kernel.claim (k : Kernel) : Nat := (k.d2.extractLsb' 32 8).toNat * 4096
def Kernel.lgSlot (k : Kernel) : Nat := (k.d2.extractLsb' 29 3).toNat + 7
def Kernel.tagEntries (k : Kernel) : Nat := min 512 (k.claim / 2 ^ k.lgSlot)
def Kernel.recomb (k : Kernel) : Bool := k.d2.getLsbD 28
def Kernel.assayCode (k : Kernel) : Nat := (k.d2.extractLsb' 21 5).toNat
def Kernel.wcount (k : Kernel) : Nat := (k.d0.extractLsb' 32 5).toNat + 1
def Kernel.entry (k : Kernel) : Nat := (k.d0.extractLsb' 0 32).toNat

/-- The names mapped in the current map (R46). -/
def RegMap.vCount (m : RegMap) : Nat := (m.v.filter Option.isSome).length
def RegMap.sCount (m : RegMap) : Nat := (m.s.filter Option.isSome).length

/-- The registers of one pool that the open latch windows of a weave pin (R50). -/
def latchIds (w : Weave) (scalar : Bool) : List Nat :=
  w.latches.flatMap (fun l => if l.scalar == scalar then l.ids else [])

/-- Physical registers that a weave holds, checkpoint and latch pins counted (R44, R50, R54). -/
def vHeldIds (w : Weave) (plies : List Ply) : List Nat :=
  distinct (w.map.vIds ++ (w.region.map (·.map.vIds)).getD [] ++
    plies.flatMap (fun p => (p.fence.map (·.map.vIds)).getD []) ++ latchIds w false)
def sHeldIds (w : Weave) (plies : List Ply) : List Nat :=
  distinct (w.map.sIds ++ (w.region.map (·.map.sIds)).getD [] ++
    plies.flatMap (fun p => (p.fence.map (·.map.sIds)).getD []) ++ latchIds w true)
def vHeld (w : Weave) (plies : List Ply) : Nat := (vHeldIds w plies).length
def sHeld (w : Weave) (plies : List Ply) : Nat := (sHeldIds w plies).length

/-- A volatile name is mapped (R53). -/
def volMapped (k : Kernel) (w : Weave) : Bool :=
  ((List.range 192).zip w.map.v).any (fun (n, r) => r.isSome && k.volV n) ||
  ((List.range 48).zip w.map.s).any (fun (n, r) => r.isSome && k.volS n)

/-- What a weave takes from a pool: its floor, or what it holds if that is more (R46); an evicted
weave keeps its floor (R48). -/
def vTaken (k : Kernel) (w : Weave) (plies : List Ply) : Nat :=
  if w.evicted then k.vfloor else max k.vfloor (vHeld w plies)
def sTaken (k : Kernel) (w : Weave) (plies : List Ply) : Nat :=
  if w.evicted then k.sfloor else max k.sfloor (sHeld w plies)

/-- Vector registers taken on a partition of the issuing weave's core, the issuing weave's own with its map as it
stands in the state. -/
def vPoolUseOf (s : State) (part : Nat) : Nat :=
  let own := s.team.weaves.filter (fun w => !w.ended && w.part == part)
  let others := (s.teams.filter (·.at_ == s.team.at_)).flatMap (fun t =>
    (t.weaves.filter (fun w => !w.ended && w.part == part)).map (fun w => vTaken t.kernel w w.plies))
  (if s.weave.part == part then vTaken s.team.kernel s.weave (allPlies s) else 0) +
    ((own.map (fun w => vTaken s.team.kernel w w.plies)) ++ others).foldl (· + ·) 0

/-- Vector registers taken on the issuing weave's partition, and scalar registers on its core. -/
def vPoolUse (s : State) : Nat := vPoolUseOf s s.weave.part
def sPoolUse (s : State) : Nat :=
  let own := s.team.weaves.filter (fun w => !w.ended)
  let others := (s.teams.filter (·.at_ == s.team.at_)).flatMap (fun t =>
    (t.weaves.filter (fun w => !w.ended)).map (fun w => sTaken t.kernel w w.plies))
  sTaken s.team.kernel s.weave (allPlies s) +
    ((own.map (fun w => sTaken s.team.kernel w w.plies)) ++ others).foldl (· + ·) 0

def vPoolSize : Nat := 512
def sPoolSize : Nat := 2048

/-! ### Flags and privilege -/

/-- Sticky flags are set by OR (R43); who set them in this clock is noted. -/
def orFlags (s : State) (fl : Flags) : State :=
  { s with weave := { s.weave with
      fpflags := s.weave.fpflags ||| fl
      clkFlags := if fl == 0#7 then s.weave.clkFlags
                  else (s.weave.clkFlags.filter (fun x => x.1 == s.clk)) ++ [(s.clk, s.ply.n, fl)] } }

/-- The flags that other plies of the weave have set in this clock (R43). -/
def flagsOfOthers (s : State) : Flags :=
  s.weave.clkFlags.foldl (fun acc (c, n, fl) => if c == s.clk && n != s.ply.n then acc ||| fl else acc) 0#7

/-- `memdef` as accesses of this clock see it: a write takes effect in the next one (R139). -/
def memdefNow (s : State) : DWord :=
  match s.weave.memdefOld with
  | some (c, old) => if c == s.clk then old else s.weave.memdef
  | none => s.weave.memdef

/-- `tvec`, `epc` and the scratch registers as instructions of this clock see them: a `wrpv` takes effect in later
clocks (R311). -/
def tvecNow (s : State) : DWord :=
  match s.weave.pvOld with
  | some o => if o.clk == s.clk then o.tvec else s.weave.tvec
  | none => s.weave.tvec

def epcNow (s : State) : DWord :=
  match s.weave.pvOld with
  | some o => if o.clk == s.clk then o.epc else s.weave.epc
  | none => s.weave.epc

def tscrNow (s : State) (k : Nat) : DWord :=
  match s.weave.pvOld with
  | some o => if o.clk == s.clk then o.tscr.getD k 0#64 else s.weave.tscr.getD k 0#64
  | none => s.weave.tscr.getD k 0#64

/-- `pstat.lev`: the weave runs at system level (R300). -/
def atSystem (s : State) : Bool := s.weave.pstat.getLsbD 0
def inTrap (s : State) : Bool := s.weave.pstat.getLsbD 4

/-! ### Unit identifiers and homes -/

/-- The unit identifier of a core (R315). -/
def CoreId.unit (c : CoreId) : Nat := c.site * 1024 + c.cluster * 64 + c.core

/-- The unit identifier of a cluster's matrix engine (R315). -/
def engineUnit (site phys : Nat) : Nat := site * 1024 + phys * 64 + 32

def findLaunch (s : State) (key : Nat) : Option Launch := s.launches.find? (·.key == key)

def onLaunch (s : State) (key : Nat) (f : Launch → Launch) : State :=
  { s with launches := s.launches.map (fun l => if l.key == key then f l else l) }

/-! ### Error records (R372, R373) -/

/-- `cyc` as PTP nanoseconds: from the last sample on at 1.5 GHz (R8, R373). -/
def ptpNs (s : State) (c : Nat) : Nat := s.ptp.ns + (c - s.ptp.cyc) * 2 / 3

/-- A record enters the controller's log, which keeps the most recent 4,096. -/
def postErr (s : State) (kind ctx unit ia lnum tix x y : Nat) : State :=
  let t := ptpNs s s.cyc
  let r : ErrRec := { kind := kind, ctx := ctx, unit := unit, seq := s.errSeq % 65536,
                      sec := t / 1000000000, ns := t % 1000000000, lock := s.ptp.lock, cyc := s.cyc,
                      ia := ia, lnum := lnum, tix := tix, x := x, y := y }
  { s with errs := (if s.errs.length < 4096 then s.errs else s.errs.tail) ++ [r], errSeq := s.errSeq + 1 }

/-! ### Traps that are due at a ply's next issue -/

/-- A trap becomes due; behind one that is due already it waits until that one's handler has returned. -/
def Ply.raise (p : Ply) (code : Nat) (info : DWord) : Ply :=
  if p.trapDue.isNone then { p with trapDue := some (code, info) } else { p with trapLater := p.trapLater ++ [(code, info)] }

/-- Every trap that is due, the first one first. -/
def Ply.dueTraps (p : Ply) : List (Nat × DWord) := p.trapDue.toList ++ p.trapLater

/-- The ply with these traps due. -/
def Ply.withDue (p : Ply) (xs : List (Nat × DWord)) : Ply := { p with trapDue := xs.head?, trapLater := xs.tail }

/-! ### The end of a team by a fatal trap (R304) -/

/-- Every ply that waits in the latch of the cluster with a gang that names a weave of the team takes
gang-divergence at its next issue (R247), with the gang of its own weave (R301); those arrivals leave the latch. -/
def divergeLatch (s : State) (site phys : Nat) (hit : Arrival → Bool) : State :=
  let c := findCluster s site phys
  let out := c.latch.filter hit
  let s1 := setCluster s { c with latch := c.latch.filter (fun a => !hit a) }
  out.foldl (fun acc a => onPly acc a.uid a.windex a.ply (fun p =>
    Ply.raise { p with wait := .retry } 0x0C (((findWeave acc a.uid a.windex).map (·.gang)).getD a.gang))) s1

/-- The handles that a `gang` value lists (R20). -/
def gangMembers (g : DWord) : List Nat :=
  (List.range (g.extractLsb' 48 3).toNat).map (fun k => (g.extractLsb' (8 * k) 8).toNat)

/-- The record of a fatal trap in the fault buffer. The manual gives it no layout of its own; it uses
that of R349 with kind 0, the code in dword 3, and what R301 lists for the code in dwords 1 and 5 to 7 (log 10). -/
def fatalRecord (s : State) (t : Team) (code : Nat) (info : List DWord) : FaultRec :=
  let part := ((s.contexts.find? (·.tag == t.ctx)).map (·.part)).getD 0
  let lnum := ((findLaunch s t.launch).map (·.lnum)).getD 0xFFFFFFFF
  { part := part, at_ := s.cyc
    dwords := [BitVec.ofNat 64 (part * 2 ^ 48 + t.ctx * 2 ^ 32 + t.at_.unit), info.headD 0#64,
      BitVec.ofNat 64 (lnum * 2 ^ 32 + t.lix), BitVec.ofNat 64 (code * 2 ^ 8 + t.at_.site),
      BitVec.ofNat 64 s.cyc, info.getD 1 0#64, info.getD 2 0#64, info.getD 3 0#64] }

/-- What belongs to a team among the waiters of a pending entry. -/
def Waiter.ofTeam (w : Waiter) (uid : Nat) : Bool :=
  match w with
  | .acc _ => false
  | .log u _ _ => u == uid
  | .fetch u _ _ => u == uid
  | .area u _ => u == uid
  | _ => false

/-- R304 on the parked state: the weaves stop, the log entries are discarded, copies and remote
operations stop, waiting gang members diverge; unless the team is a re-run (R368), its crews break and the launch is
poisoned. -/
def fatalParked (s : State) (uid : Nat) : State :=
  match findTeam s uid with
  | none => s
  | some t =>
    let handles := t.weaves.map (·.handle)
    let s1 := onTeams s (·.uid == uid) (fun t =>
      { t with ending := true, weaves := t.weaves.map (fun w =>
          { w with plies := [], ended := true, handles := [], loads := [], pends := [] }) })
    let s2 := onCore s1 t.at_ (fun c => { c with log := c.log.filter (·.uid != uid) })
    let s3 := { s2 with
      clusters := s2.clusters.map (fun c => { c with
        copies := c.copies.filter (·.uid != uid)
        waiting := c.waiting.filter (·.uid != uid)
        cmds := c.cmds.filter (fun e => e.started || e.uid != uid) })
      remotes := s2.remotes.filter (·.uid != uid)
      accs := s2.accs.filter (·.uid != uid)
      pendings := s2.pendings.map (fun p => { p with waiters := p.waiters.filter (fun w => !w.ofTeam uid) }) }
    let s4 := if t.run != .original then s3
      else onLaunch s3 t.launch (fun l => { l with
        poisoned := true
        crews := l.crews.map (fun c => if c.members.contains t.lix then { c with broken := true } else c) })
    divergeLatch s4 t.at_.site t.at_.cluster (fun a =>
      (gangMembers a.gang).any (fun h => handles.contains h))

/-- R304 with the record posted to the fault buffer. -/
def fatalTeam (s0 : State) (uid code : Nat) (info : List DWord) : State :=
  let s := park s0
  let s1 := match findTeam s uid with
    | some t => { s with faultQ := s.faultQ ++ [fatalRecord s t code info] }
    | none => s
  fatalParked s1 uid

/-! ### Taking a trap and returning from one (R302, R303) -/

/-- The common trap record (R300). -/
def causeWord (code : Nat) (lev : Bool) (ply : Nat) (mask : LaneMask) : DWord :=
  BitVec.ofNat 64 (code * 2 ^ 56 + (if lev then 2 ^ 55 else 0) + ply % 4 * 2 ^ 48 + mask.toNat)

/-- The windows of ply n stand aside while it runs a handler, and come back at its return (R51). -/
def setAside (n : Nat) (ws : List LatchWin) : List LatchWin :=
  ws.map (fun w => if w.ply == n then { w with ply := n + 4 } else w)

def takeBack (n : Nat) (ws : List LatchWin) : List LatchWin :=
  (ws.filter (fun w => w.ply != n)).map (fun w => if w.ply == n + 4 then { w with ply := n } else w)

/-- R302: the issuing ply takes a recoverable trap. `epc` is the resume address of R301, `info` the
record, `mask` the lanes of the trapping instruction. -/
def takeTrap (s : State) (code : Nat) (epc : DWord) (info : List DWord) (mask : LaneMask) : State :=
  if inTrap s then fatalTeam s s.team.uid 0x23 [BitVec.ofNat 64 code, epc]
  else if !(tvecNow s).getLsbD 63 then fatalTeam s s.team.uid 0x24 [BitVec.ofNat 64 code, epc]
  else
    { s with
      weave := { s.weave with
        latches := setAside s.ply.n s.weave.latches
        plies := s.weave.plies.map (fun p => { p with stopped := true })
        resv := []
        tcause := causeWord code (atSystem s) s.ply.n (if mask == 0#32 then s.ply.mask else mask)
        tinfo := (List.range 4).map (fun k => info.getD k 0#64)
        epc := epc
        pstat := s.weave.pstat ||| 0x11#64
        pends := s.weave.pends.map (fun p => if p.ply == s.ply.n then { p with left := 0 } else p) }
      ply := { s.ply with
        pc := BitVec.setWidth 64 ((tvecNow s).extractLsb' 0 56), wait := .none, seqLeft := 0, trapDue := none
        nextAt := s.clk + 1 } }

/-- R303: the return, in a handler. The windows that stood aside are open again; a trap that became due behind the one
that was taken is due. -/
def returnFromTrap (s : State) : State :=
  let plev := s.weave.tcause.getLsbD 55
  { s with
    weave := { s.weave with
      latches := takeBack s.ply.n s.weave.latches
      pstat := (s.weave.pstat &&& ~~~0x11#64) ||| (if plev then 1#64 else 0#64)
      plies := s.weave.plies.map (fun p => { p with stopped := false }) }
    ply := Ply.withDue { s.ply with pc := epcNow s, wait := .none } s.ply.dueTraps }

/-! ### Crews (R29, R234) -/

/-- The crews of a team: slot and crew-table index of each valid slot (R20). -/
def crewSlots (crews : DWord) : List (Nat × Nat) :=
  (List.range 4).filterMap (fun k =>
    if crews.getLsbD (32 + k) then some (k, (crews.extractLsb' (8 * k) 8).toNat) else none)

/-- x is ahead of y by the signed 32-bit difference (R234). -/
def ahead (x y : Word) : Bool := 0 < (x - y).toInt

/-- A member has gone past the phases completed so far: it ended, or its count exceeds them. -/
def Crew.passed (c : Crew) (lix : Nat) : Bool :=
  c.ended.contains lix || ahead ((assoc? lix c.arrived).getD 0#32) c.done

/-- Phases complete while every member has arrived and no member broke the crew (R234). A member's count
is at most 256 ahead (R235). -/
def Crew.advance : Nat → Crew → Crew
  | 0, c => c
  | fuel + 1, c =>
    if !c.broken && !c.members.isEmpty && c.members.all c.passed && !(c.members.all c.ended.contains) then
      Crew.advance fuel { c with done := c.done + 1#32 }
    else c

/-- The least of the counts of a slot over the weaves that have not ended; `none` when all have. -/
def leastCount (ws : List Weave) (slot : Nat) : Option Word :=
  (ws.filter (fun w => !w.ended)).foldl (fun acc w =>
    let x := w.crewCnt.getD slot 0#32
    match acc with
    | none => some x
    | some y => some (if ahead y x then x else y)) none

/-- The launch record takes a team's counts after an arrival or the end of a weave (R234, R328); a re-run leaves them
alone (R368). -/
def crewReport (s : State) (t : Team) (ws : List Weave) : State :=
  if t.run != .original then s
  else onLaunch s t.launch (fun l =>
    let step (cs : List Crew) (p : Nat × Nat) : List Crew :=
      match cs[p.2]? with
      | none => cs
      | some c =>
        let c1 := match leastCount ws p.1 with
          | some x => { c with arrived := assocSet t.lix x c.arrived }
          | none => { c with ended := if c.ended.contains t.lix then c.ended else c.ended ++ [t.lix] }
        cs.set p.2 (Crew.advance 257 c1)
    { l with crews := (crewSlots t.crews).foldl step l.crews })

/-! ### Consuming an uncorrectable error (R55, R177, R360, R361) -/

/-- The open region restarts as one ply with the recorded number and mask and the checkpoint's map; every
fence checkpoint is discarded, and a stall on an allocation with them. A watchdog that has expired stays due (R332). Outside a region, on a poisoned live-in, or on the fourth restart in
succession the team ends with code 0x21. `info` is the address or register of the error, `ia` the IA of a word of memory
(R373). -/
def consumeError (s : State) (info : DWord) (ia : Nat := 0) : State :=
  let lnum := ((findLaunch s s.team.launch).map (·.lnum)).getD 0xFFFFFFFF
  let fatal (s : State) : State :=
    fatalTeam (postErr s 0x04 s.team.ctx s.team.at_.unit ia lnum s.team.lix 0x21 0) s.team.uid 0x21 [info]
  match s.weave.region with
  | none => fatal s
  | some g =>
    if !s.weave.rgnpc.getLsbD 63 || 3 ≤ s.weave.restarts ||
        g.map.v.any (fun r => (r.map (·.poison)).getD false) ||
        g.map.s.any (fun r => (r.map (·.poison)).getD false) then fatal s
    else
      let s1 := postErr s 0x03 s.team.ctx s.team.at_.unit ia lnum s.team.lix (s.weave.restarts + 1)
                  s.weave.rgnpc.toNat
      { s1 with
        weave := { s1.weave with
          plies := [], map := g.map, restarts := s1.weave.restarts + 1, stalled := none
          pends := s1.weave.pends.filter (fun p => p.tag < g.tagMark)
          loads := s1.weave.loads.filter (fun l => l.tag < g.tagMark), latches := [] }
        ply := Ply.withDue { s1.ply with
          n := g.ply, mask := g.mask, pc := BitVec.setWidth 64 (s1.weave.rgnpc.extractLsb' 0 56)
          wait := .none, fence := none, seqLeft := 0, stopped := false }
            (((allPlies s1).flatMap Ply.dueTraps).filter (·.1 == 0x12)) }

end Sys2Proof.Machine
end

