-- ==== Sys2Proof/Machine/Home.lean ====
section
/-!
DEFINITION. Sites and homes: the wafer's sites (00 R3), window translation (04 R82 to R86), the page walk
(18 R340 to R343), access tables (R344 to R347), the choice of a port (20 R377, R379; 24 R418; 21 R396),
and where an address is served.
-/

namespace Sys2Proof.Machine

open Sys2Proof

/-! ### Sites -/

/-- R3: site numbers 8y + x; rows 0 and 7 have no site at x = 0, 1, 6 and 7. -/
def isSite (n : Nat) : Bool := (2 ≤ n && n ≤ 5) || (8 ≤ n && n ≤ 55) || (58 ≤ n && n ≤ 61)

def allSites : List Nat := (List.range 62).filter isSite

/-- The sites next to a site. -/
def neighbours (n : Nat) : List Nat :=
  ((if n % 8 == 7 then [] else [n + 1]) ++ (if n % 8 == 0 then [] else [n - 1]) ++ [n + 8] ++ (if n < 8 then [] else [n - 8])).filter isSite

/-- R377. -/
def hops (a b : Nat) : Nat :=
  let d (x y : Nat) : Nat := if x ≤ y then y - x else x - y
  d (a % 8) (b % 8) + d (a / 8) (b / 8)

/-- The element of a list nearest to a site; ties go to the lower number, the first of an ascending list. -/
def nearest (src : Nat) : List Nat → Option Nat
  | [] => none
  | n :: rest =>
    match nearest src rest with
    | none => some n
    | some m => if hops src m < hops src n then some m else some n

def findSite (s : State) (n : Nat) : Site := (s.sites.find? (·.n == n)).getD { n := n }

def setSite (s : State) (x : Site) : State :=
  { s with sites := if s.sites.any (·.n == x.n) then replaceFirst (·.n == x.n) (fun _ => x) s.sites else s.sites ++ [x] }

def onSite (s : State) (n : Nat) (f : Site → Site) : State := setSite s (f (findSite s n))

def Site.memBearing (x : Site) : Bool := x.sta.getLsbD 63
def Site.joined (x : Site) : Bool := x.sta.getLsbD 62

/-- The partition number of a site (R346) and the sites of a partition. -/
def sitesOf (s : State) (part : Nat) : List Nat :=
  allSites.filter (fun n => (findSite s n).part == part && (findSite s n).joined)

/-- The lowest-numbered site of a partition: its dispatcher, its rings (R351, R353, R397). -/
def headSite (s : State) (part : Nat) : Nat := (allSites.filter (fun n => (findSite s n).part == part)).headD 27

/-! ### Windows (R82, R85, R86) -/

def Window.valid (w : Window) : Bool := w.wva.getLsbD 63
def Window.sz (w : Window) : Nat := (w.wva.extractLsb' 56 7).toNat
def Window.vbase (w : Window) : Nat := (w.wva.extractLsb' 16 40).toNat * 65536
def Window.striped (w : Window) : Bool := w.wva.getLsbD 15
def Window.granule (w : Window) : Nat := (w.wva.extractLsb' 10 5).toNat
def Window.node (w : Window) : Nat := (w.wia.extractLsb' 52 12).toNat
def Window.site (w : Window) : Nat := (w.wia.extractLsb' 46 6).toNat
def Window.obase (w : Window) : Nat := (w.wia.extractLsb' 0 46).toNat
/-- The ascending stripe set. -/
def Window.set (w : Window) : List Nat := (List.range 64).filter (fun n => w.wset.getLsbD n)

/-- The window covers the address. -/
def Window.covers (w : Window) (va : Nat) : Bool :=
  w.valid && va < 2 ^ 56 && va / 2 ^ w.sz == w.vbase / 2 ^ w.sz

/-- The intermediate address of a covered address (R85). -/
def Window.toIa (w : Window) (va : Nat) : Nat :=
  let off := va - w.vbase
  if !w.striped then w.node * 2 ^ 52 + w.site * 2 ^ 46 + (w.obase + off)
  else
    let c := w.set.length
    let q := off / 2 ^ w.granule
    let st := w.set.getD (q % c) 0
    w.node * 2 ^ 52 + st * 2 ^ 46 + (w.obase + (q / c * 2 ^ w.granule + off % 2 ^ w.granule))

def findCtx (s : State) (tag : Nat) : Context := (s.contexts.find? (·.tag == tag)).getD { tag := tag, part := 0 }

def onCtx (s : State) (tag : Nat) (f : Context → Context) : State :=
  { s with contexts := if s.contexts.any (·.tag == tag) then s.contexts.map (fun c => if c.tag == tag then f c else c)
                       else s.contexts ++ [f { tag := tag, part := 0 }] }

/-- A window takes its new value, and the context's window generation rises by one (R312). -/
def Context.setWindow (c : Context) (n : Nat) (w : Window) : Context := { c with windows := c.windows.set n w, gen := c.gen + 1 }

/-- A hosting site has acknowledged a window write; with the last one the write is complete (R312). -/
def Context.ackWindow (c : Context) (site : Nat) : Context :=
  match c.winWrite with
  | none => c
  | some w =>
    let left := w.left.filter (· != site)
    if w.done || !left.isEmpty then { c with winWrite := some { w with left := left } }
    else { c.setWindow w.n w.win with winWrite := some { w with left := [], done := true } }

/-- R82, R85: `none` is a window miss. -/
def translate (s : State) (ctx va : Nat) : Option Nat :=
  ((findCtx s ctx).windows.find? (·.covers va)).map (·.toIa va)

/-- R86: the three registers of a window that becomes valid break no limit. -/
def Window.legal (w : Window) : Bool :=
  let c := w.set.length
  let g := w.granule
  16 ≤ w.sz && w.sz ≤ 56 && w.vbase % 2 ^ w.sz == 0 && w.obase % 65536 == 0 &&
  (if !w.striped then w.obase + 2 ^ w.sz ≤ 2 ^ 46
   else
     16 ≤ g && g ≤ 30 && g ≤ w.sz && 0 < c &&
     !w.wset.getLsbD 6 && !w.wset.getLsbD 7 && !w.wset.getLsbD 56 && !w.wset.getLsbD 57 &&
     w.obase % 2 ^ g == 0 && w.obase + ceilDiv (2 ^ w.sz) (c * 2 ^ g) * 2 ^ g ≤ 2 ^ 46 &&
     w.site == 0) &&
  (w.node != 0xFFF || (!w.striped && w.site == 0))

/-! ### Addresses of memory (R84) -/

def iaNode (ia : Nat) : Nat := ia / 2 ^ 52
def iaSite (ia : Nat) : Nat := ia / 2 ^ 46 % 64
def iaOff (ia : Nat) : Nat := ia % 2 ^ 46
def iaPage (ia : Nat) : Nat := ia / 65536
def iaLine (ia : Nat) : Nat := ia / 128
/-- The home slice of a line within its site (log 12: the manual gives no mapping). -/
def iaSlice (ia : Nat) : Nat := ia / 128 % 16

/-- The memory key of a physical address of a site of this module. -/
def ownKey (s : State) (site pa : Nat) : Nat := s.wafer * 2 ^ 52 + site * 2 ^ 46 + pa

/-- `sysbase` as a physical address (R397). -/
def Site.sysPa (x : Site) : Nat := (x.sysbase.extractLsb' 30 6).toNat * 2 ^ 30

/-- The memory-bearing site whose system region serves a site (R398). -/
def regionSite (s : State) (n : Nat) : Nat :=
  if (findSite s n).memBearing then n
  else (nearest n (allSites.filter (fun m => (findSite s m).memBearing))).getD n

/-- The memory key of an offset in the system region that serves a site (R398). -/
def regionKey (s : State) (n off : Nat) : Nat :=
  let r := regionSite s n
  ownKey s r ((findSite s r).sysPa + off)

/-! ### The page walk (R340, R341, R343) -/

/-- The outcome of a walk: the physical address and the attribute, or the fault kind and the level. -/
inductive Walk where
  | leaf (pa attr : Nat)
  | fail (kind lvl : Nat)
  deriving DecidableEq, Repr

/-- Two held entries are the same version of one entry, for the same IAs of the same context. -/
def WalkEntry.same (a b : WalkEntry) : Bool :=
  a.pa == b.pa && a.site == b.site && a.ctx == b.ctx && a.lo == b.lo && a.entry == b.entry

/-- A table entry as the walk of a context sees it: its bytes, or an older version that the slice still holds. -/
def tableEntry (s : State) (site ctx pa : Nat) : DWord :=
  let now : DWord := BitVec.ofNat 64 (cellNat s.mem (ownKey s site pa) 8)
  match (s.walkCache.filter (fun e => e.pa == pa && e.site == site && e.ctx == ctx && e.entry != now)).map (·.entry) with
  | [] => now
  | old => (now :: old).getD (Config.walkVersion s.steps pa % (old.length + 1)) now

/-- One level: the offset bits that index it, the alignment of the next table, the page size of a leaf, and
whether the entry may be a pointer or a leaf (R341). -/
structure Level where
  n : Nat
  hi : Nat
  lo : Nat
  nextAlign : Nat
  page : Nat
  deriving DecidableEq, Repr

/-- R341; `nextAlign` 0: no pointer, `page` 0: no leaf. -/
def walkLevels : List Level :=
  [⟨1, 45, 39, 4096, 0⟩, ⟨2, 38, 30, 4096, 0⟩, ⟨3, 29, 21, 256, 2 ^ 21⟩, ⟨4, 20, 16, 0, 65536⟩]

/-- The walk from a table on; the entries that were used, nearest to the root first. -/
def walkFrom (s : State) (site ctx off : Nat) : List Level → Nat → Walk × List WalkEntry
  | [], _ => (.fail 2 4, [])
  | l :: rest, table =>
    let a := table + 8 * bits off l.hi l.lo
    let e := tableEntry s site ctx a
    let lo := ownKey s site (off / 2 ^ l.lo * 2 ^ l.lo)
    let mine : WalkEntry := { site := site, ctx := ctx, pa := a, lo := lo, hi := lo + 2 ^ l.lo, entry := e }
    let attr := (e.extractLsb' 59 3).toNat
    let pa := (e.extractLsb' 8 28).toNat * 256
    let isLeaf := e.getLsbD 62
    if !e.getLsbD 63 then (.fail 1 l.n, [])
    else if e.extractLsb' 36 23 != 0#23 || e.extractLsb' 0 8 != 0#8 || 5 ≤ attr ||
        (isLeaf && l.page == 0) || (!isLeaf && (l.nextAlign == 0 || attr != 0 || pa % l.nextAlign != 0)) ||
        (isLeaf && pa % l.page != 0) then (.fail 2 l.n, [])
    else if isLeaf then (.leaf (pa + off % l.page) attr, [mine])
    else
      let (r, used) := walkFrom s site ctx off rest pa
      (r, mine :: used)

/-- The home context-table entry of a context at a site (R340). -/
def ctxEntry (s : State) (site ctx : Nat) : DWord :=
  BitVec.ofNat 64 (cellNat s.mem (regionKey s site (16 * ctx)) 8)

/-- The walk of an offset under a context. -/
def walk (s : State) (site ctx off : Nat) : Walk × List WalkEntry :=
  walkFrom s site ctx off walkLevels (((ctxEntry s site ctx).extractLsb' 10 26).toNat * 1024)

/-- The slices keep the entries that a walk used (R343). -/
def cacheWalk (s : State) (used : List WalkEntry) : State :=
  { s with walkCache := s.walkCache ++ used.filter (fun e => !s.walkCache.any e.same) }

/-- The slices drop what they hold for a range of a context (R354). -/
def dropWalks (s : State) (ctx lo hi : Nat) : State :=
  { s with walkCache := s.walkCache.filter (fun e => !(e.ctx == ctx && e.lo < hi && lo < e.hi)) }

/-- The slices drop what they hold of the entry at a memory key (R358). -/
def dropEntry (s : State) (key : Nat) : State :=
  { s with walkCache := s.walkCache.filter (fun e => ownKey s e.site e.pa != key) }

/-! ### Access tables (R344 to R347) -/

/-- A valid entry of an access table. -/
structure AccEntry where
  frz : Bool
  mkind : Nat
  rights : Nat
  mval : Nat
  lnum : Nat
  base : Nat
  limit : Nat
  deriving DecidableEq, Repr

/-- The offset of the access table of target t in the system region (R398). -/
def accTableOff (t : Nat) : Nat := 0x200000 + 0x8000 * t

/-- The memory keys of the valid entries of a table: those whose first dword has bit 63 set. -/
def accKeys (s : State) (site t : Nat) : List Nat :=
  let base := regionKey s site (accTableOff t)
  s.mem.filterMap (fun c =>
    if base ≤ c.1 && c.1 < base + 0x8000 && (c.1 - base) % 32 == 7 && c.2.getLsbD 7 then some (c.1 - 7) else none)

def accEntryAt (s : State) (k : Nat) : AccEntry :=
  let d0 : DWord := BitVec.ofNat 64 (cellNat s.mem k 8)
  { frz := d0.getLsbD 62
    mkind := (d0.extractLsb' 58 4).toNat
    rights := (d0.extractLsb' 54 4).toNat
    mval := (d0.extractLsb' 32 16).toNat
    lnum := (d0.extractLsb' 0 32).toNat
    base := cellNat s.mem (k + 8) 8
    limit := cellNat s.mem (k + 16) 8 }

def accEntries (s : State) (site t : Nat) : List AccEntry := (accKeys s site t).map (accEntryAt s)

/-- The rights, as bits of R345. -/
def rightR : Nat := 1
def rightW : Nat := 2
def rightA : Nat := 4
def rightX : Nat := 8

/-- Who makes an access (R344): the kind, the value, and the context that translates it. -/
structure Master where
  kind : Nat
  val : Nat
  ctx : Nat
  deriving DecidableEq, Repr

/-- A ply, an engine command or a remote operation: its context (R344 kind 0). -/
def ctxMaster (ctx : Nat) : Master := ⟨0, ctx, ctx⟩
/-- A graph processor under the context that it serves (R344 kind 4). -/
def graphMaster (site ctx : Nat) : Master := ⟨4, site, ctx⟩

/-- The check of R345 and R347 at a target: `none` when the right is there, else the fault kind. A
graph processor is checked against the entries of its context, and frozen entries leave it its rights. -/
def checkRight (s : State) (m : Master) (site t right ia : Nat) : Option Nat :=
  if m.kind == 3 then none
  else
    let es := (accEntries s site t).filter (fun e => e.base ≤ ia && ia < e.limit)
    let held := es.any (fun e => !e.frz && bits e.rights 3 0 &&& right != 0 &&
      (if m.kind == 4 then e.mkind == 0 && e.mval == m.ctx else e.mkind == m.kind && e.mval == m.val))
    if m.kind != 4 && (right == rightW || right == rightA) && es.any (·.frz) then some 4
    else if held then none
    else some 3

/-- The target number of a cluster's engines (R398). -/
def engineTarget (phys : Nat) : Nat := 25 + phys

/-- The engines of a cluster take commands of the context: an entry of kind 0 names it; the IA fields are ignored
(R345). -/
def engineRight (s : State) (ctx site phys : Nat) : Bool :=
  (accEntries s site (engineTarget phys)).any (fun e => !e.frz && e.mkind == 0 && e.mval == ctx)

/-- The engines of the issuing team's cluster take commands of its context. -/
def mayPost (s : State) : Bool := engineRight s s.team.ctx s.team.at_.site s.team.at_.cluster

/-- The dispatcher binds a cluster to a bit of the context: it writes an entry of kind 0 into the table of its engines,
unless one is there (R345, R353). -/
def openEngine (s : State) (ctx site phys : Nat) : State :=
  if engineRight s ctx site phys then s
  else
    let base := regionKey s site (accTableOff (engineTarget phys))
    let used := accKeys s site (engineTarget phys)
    match (((List.range 1024).map (fun k => base + 32 * k)).filter (fun k => !used.contains k)).head? with
    | none => s
    | some k => { s with mem := cellWriteN s.mem k (toBytes 8 (2 ^ 63 + 15 * 2 ^ 54 + ctx * 2 ^ 32)) }

/-! ### Ports (R379, R383, R390, R396, R418) -/

/-- The sites of host ports 0 to 3 (R344). -/
def hostPortSites : List Nat := [24, 32, 31, 39]

/-- The nearest host port whose link is up (R357, R396). -/
def nearestHostPort (s : State) (src : Nat) : Option Nat :=
  nearest src ((([24, 31, 32, 39] : List Nat)).filter (fun n =>
    s.hostUp.getD (hostPortSites.findIdx (· == n)) false))

def Site.mode (x : Site) : Nat := (x.opctl.extractLsb' 61 2).toNat

/-- Entry N of a site's node table: dword 0 (R390). -/
def nodeEntry (s : State) (site node : Nat) : DWord :=
  BitVec.ofNat 64 (cellNat s.mem (regionKey s site (0x110000 + 16 * node)) 8)

/-- R418: the site's port carries the node. -/
def carries (s : State) (site node : Nat) : Bool :=
  let x := findSite s site
  let e := nodeEntry s site node
  x.up && e.getLsbD 63 &&
  (x.mode == 1 || (x.mode == 2 && x.peer == some node && e.extractLsb' 0 8 == 0#8))

/-- R418: the port by which a distant access of a site leaves. -/
def distantPort (s : State) (src node : Nat) : Option Nat :=
  if carries s src node then some src else nearest src (allSites.filter (fun n => carries s n node))

/-! ### Where an address is served -/

/-- A byte's place: a memory key with its attribute (0 WB, 1 UC, 2 DEV, 3 HB, 4 DB), a control-space offset,
or the fault kind and level with which its access fails (R348). `home` is the site that holds the fault. -/
inductive Place where
  | cell (key attr : Nat)
  | ctl (site off : Nat)
  | fail (home kind lvl : Nat)
  deriving DecidableEq, Repr

/-- The context of a master has an entry at a home, of the home's own partition (R346). -/
def ctxHere (s : State) (m : Master) (site : Nat) : Bool :=
  let e := ctxEntry s site m.ctx
  e.getLsbD 63 && (e.extractLsb' 59 4).toNat == (findSite s site).part

/-- The access of master m from site src to one address under a right, up to its performance: the checks
of R345 to R347, then the walk (R341). An own-node address whose site field names no site (R86 refuses no such window)
has no home: the issuer's site holds its entry and record, since no field names a number without a site (R3; log 87).
Memory of another module has attribute UC as this one sees it (log 87). -/
def place (s : State) (m : Master) (right src ia : Nat) : Place × List WalkEntry :=
  let node := iaNode ia
  let site := iaSite ia
  let off := iaOff ia
  if node == s.wafer then
    if isSite site && 0x3F0000000000 ≤ off && off < 0x3F0000010000 then
      match checkRight s m site (iaSlice ia) right ia with
      | some k => (.fail site k 0, [])
      | none => if ctxHere s m site then (.ctl site (off - 0x3F0000000000), []) else (.fail site 3 0, [])
    else if !isSite site then (.fail src 5 0, [])
    else if !(findSite s site).memBearing then (.fail site 5 0, [])
    else
      match checkRight s m site (iaSlice ia) right ia with
      | some k => (.fail site k 0, [])
      | none =>
        if !ctxHere s m site then (.fail site 3 0, [])
        else
          match walk s site m.ctx off with
          | (.leaf pa attr, used) =>
            if attr == 3 && m.kind != 2 && (nearestHostPort s site).isNone then (.fail site 6 0, used)
            else (.cell (ownKey s site pa) attr, used)
          | (.fail k l, used) => (.fail site k l, used)
  else if node == 0xFFF then
    match nearestHostPort s src with
    | none => (.fail src 6 0, [])
    | some p =>
      match checkRight s m p 35 right ia with
      | some k => (.fail p k 0, [])
      | none => (.cell ia 3, [])
  else
    match distantPort s src node with
    | none => (.fail src 5 0, [])
    | some p =>
      match checkRight s m p 24 right ia with
      | some k => (.fail p k 0, [])
      | none => (.cell ia 1, [])

/-- The part of an access that lies in one line. -/
structure Piece where
  ia : Nat
  len : Nat
  place : Place
  deriving DecidableEq, Repr

/-- The first failing byte of an access: where it failed. -/
structure Failure where
  home : Nat
  kind : Nat
  lvl : Nat
  ia : Nat
  deriving DecidableEq, Repr

/-- The pieces of an access of n bytes, at most 8: bytes in one line, or in two. -/
def linePieces (ia n : Nat) : List (Nat × Nat) :=
  let k := 128 - ia % 128
  if n ≤ k then [(ia, n)] else [(ia, k), (ia + k, n - k)]

/-- An access of n bytes as its home sees it: its pieces, or the first failure. -/
def locate (s : State) (m : Master) (right src ia n : Nat) : Except Failure (List Piece) :=
  (linePieces ia n).foldr (fun (a, len) rest =>
    match (place s m right src a).1 with
    | .fail h k l => .error ⟨h, k, l, a⟩
    | p => match rest with
      | .error e => .error e
      | .ok ps => .ok (⟨a, len, p⟩ :: ps)) (.ok [])

/-- The state after the walks of an access. -/
def afterWalks (s : State) (m : Master) (right src ia n : Nat) : State :=
  (linePieces ia n).foldl (fun acc (a, _) => cacheWalk acc (place s m right src a).2) s

/-- The attribute of a place; control space has DEV (R397). -/
def Place.attr : Place → Nat
  | .cell _ a => a
  | .ctl _ _ => 2
  | .fail _ _ _ => 0

/-- The tiers of R106. -/
def isNear (s : State) (src ia : Nat) : Bool := iaNode ia == s.wafer && iaSite ia == src
def isDistant (s : State) (ia : Nat) : Bool := iaNode ia != s.wafer
def isFar (s : State) (src ia : Nat) : Bool := iaNode ia == s.wafer && iaSite ia != src

/-! ### Physical memory as the device reads and writes it -/

/-- A poisoned word under the bytes (R359). -/
def poisonIn (s : State) (key n : Nat) : Option Nat :=
  s.poisoned.find? (fun w => key / 4 ≤ w && w ≤ (key + n - 1) / 4)

/-- Words under n bytes become poisoned (R359). -/
def poisonWords (s : State) (key n : Nat) : State :=
  { s with poisoned := distinct (s.poisoned ++ (List.range ((key + n - 1) / 4 + 1 - key / 4)).map (fun k => key / 4 + k)) }

/-- Words that n bytes at a key cover in full lose their poison (R359). -/
def clearPoison (s : State) (key n : Nat) : State :=
  { s with poisoned := s.poisoned.filter (fun w => !(key ≤ 4 * w && 4 * w + 4 ≤ key + n)) }

/-- The partitions in which a context has an entry (R340, R353). -/
def contextParts (s : State) (tag : Nat) : List Nat :=
  (allSites.filter (fun n => (findSite s n).memBearing)).filterMap (fun n =>
    let e := ctxEntry s n tag
    if e.getLsbD 63 then some (e.extractLsb' 59 4).toNat else none)

/-- The contents of a site's tables that only some masters may write (R346): a dword 0 of an access-table
entry that names a kind above 2 or a context of another partition, and a context entry of another
partition. `off` is an offset in the system region. -/
def tableWriteRefused (s : State) (site off : Nat) (d0 : DWord) : Bool :=
  let other (tag : Nat) : Bool :=
    let parts := contextParts s tag
    !parts.isEmpty && !parts.contains (findSite s site).part
  let part := (findSite s site).part
  if off < 0x100000 then
    off % 16 == 0 && d0.getLsbD 63 && (d0.extractLsb' 59 4).toNat != part
  else if 0x200000 ≤ off && off < 0x200000 + 0x8000 * 36 then
    off % 32 == 0 && d0.getLsbD 63 &&
    (3 ≤ (d0.extractLsb' 58 4).toNat ||
     ((d0.extractLsb' 58 4).toNat == 0 && other (d0.extractLsb' 32 16).toNat))
  else false

end Sys2Proof.Machine
end

