-- ==== Sys2Proof/Machine/Memory.lean ====
section
/-!
DEFINITION. Performing reads and writes at a home: line timestamps (05 R109, R118), what a store does to
reservations and watches (R119, 08 R175), poison (19 R359), and the updates of a weave that may or may not
be the issuing one.
-/

namespace Sys2Proof.Machine

open Sys2Proof

/-! ### Weaves and plies wherever they stand -/

def mapWeave (ws : List Weave) (windex : Nat) (f : Weave → Weave) : List Weave :=
  ws.map (fun w => if w.windex == windex then f w else w)

/-- f on one weave, focused or not. -/
def updWeave (s : State) (uid windex : Nat) (f : Weave → Weave) : State :=
  if s.focused && s.team.uid == uid then
    if s.weave.windex == windex then { s with weave := f s.weave }
    else { s with team := { s.team with weaves := mapWeave s.team.weaves windex f } }
  else onWeave s uid windex f

/-- f on every weave of every team. -/
def updAllWeaves (s : State) (f : Nat → Weave → Weave) : State :=
  { s with
    weave := f s.team.uid s.weave
    team := { s.team with weaves := s.team.weaves.map (f s.team.uid) }
    teams := s.teams.map (fun t => { t with weaves := t.weaves.map (f t.uid) }) }

/-- f on one ply, focused or not. -/
def updPly (s : State) (uid windex n : Nat) (f : Ply → Ply) : State :=
  if s.focused && s.team.uid == uid && s.weave.windex == windex && s.ply.n == n then { s with ply := f s.ply }
  else updWeave s uid windex (fun w => { w with plies := w.plies.map (fun p => if p.n == n then f p else p) })

def updTeam (s : State) (uid : Nat) (f : Team → Team) : State :=
  if s.focused && s.team.uid == uid then { s with team := f s.team } else onTeams s (·.uid == uid) f

def peekTeam (s : State) (uid : Nat) : Option Team :=
  if s.focused && s.team.uid == uid then some s.team else findTeam s uid

def peekWeave (s : State) (uid windex : Nat) : Option Weave :=
  if s.focused && s.team.uid == uid then
    if s.weave.windex == windex then some s.weave else s.team.weaves.find? (·.windex == windex)
  else findWeave s uid windex

def peekPly (s : State) (uid windex n : Nat) : Option Ply :=
  if s.focused && s.team.uid == uid && s.weave.windex == windex && s.ply.n == n then some s.ply
  else (peekWeave s uid windex).bind (fun w => w.plies.find? (·.n == n))

/-- Every resident team with all its weaves and plies: the parked state. -/
def allTeams (s : State) : List Team := (park s).teams

/-! ### Line timestamps (R109) -/

def tsOf (s : State) (line : Nat) : LineTs := (s.lineTs.find? (·.line == line)).getD ⟨line, 0, 0⟩

def setTs (s : State) (t : LineTs) : State :=
  { s with lineTs := if s.lineTs.any (·.line == t.line) then replaceFirst (·.line == t.line) (fun _ => t) s.lineTs
                     else s.lineTs ++ [t] }

/-- The lines of n bytes at an address. -/
def linesIn (ia n : Nat) : List Nat :=
  (List.range ((ia + n - 1) / 128 + 1 - ia / 128)).map (fun k => ia / 128 + k)

/-- The timestamp of a store, or of an atomic, by an agent at timestamp `at_` (R109, R118). -/
def storeTs (s : State) (at_ : Nat) (lines : List Nat) (atomic : Bool) : Nat :=
  lines.foldl (fun acc l =>
    let t := tsOf s l
    max acc (if atomic then max (t.rts + 1) (t.wts + 1) else t.rts + 1)) at_

def stampLines (s : State) (lines : List Nat) (ts : Nat) : State :=
  lines.foldl (fun acc l => setTs acc ⟨l, ts, ts⟩) s

/-! ### What a performed write does besides -/

/-- R119: reservations on the lines are cleared, but for those of the writing ply's own lanes. `by_` is the writing team,
weave and ply, or `none` for another agent. -/
def clearResv (s : State) (lines : List Nat) (by_ : Option (Nat × Nat × Nat)) : State :=
  let own : LaneMask := ((by_.bind (fun (u, w, p) => peekPly s u w p)).map (·.mask)).getD 0#32
  updAllWeaves s (fun uid w => { w with resv := w.resv.filter (fun r =>
    !lines.contains r.line || ((by_.map (fun (u, v, _) => (u, v))) == some (uid, w.windex) && inMask own r.lane)) })

/-- R175: a write to a watched line is seen. -/
def hitWatches (s : State) (lines : List Nat) : State :=
  { s with watches := s.watches.map (fun w => if lines.contains w.line then { w with hit := true } else w) }

/-- The bytes at a memory key change; the address lies in the lines of `ia`. -/
def performWrite (s : State) (key ia : Nat) (bytes : List Byte) (ts : Nat)
    (by_ : Option (Nat × Nat × Nat)) : State :=
  let n := bytes.length
  let lines := linesIn ia n
  let s1 := clearPoison { s with mem := cellWriteN s.mem key bytes } key n
  hitWatches (clearResv (stampLines s1 lines ts) lines by_) lines

/-- The site and the offset of a key in the tables of a system region (R398). -/
def regionOff (s : State) (key : Nat) : Option (Nat × Nat) :=
  let site := key / 2 ^ 46 % 64
  let pa := key % 2 ^ 46
  let x := findSite s site
  if key / 2 ^ 52 != s.wafer || !isSite site || !x.memBearing || pa < x.sysPa || 0x400000 ≤ pa - x.sysPa then none else some (site, pa - x.sysPa)

/-- R346: a write into a site's tables that names what the writer's partition may not name is ignored,
and the partition's `fbctl.err` is set. -/
def refusedWrite (s : State) (key : Nat) (bytes : List Byte) : Option Nat :=
  match regionOff s key with
  | none => none
  | some (site, off) =>
    let after := cellWriteN s.mem key bytes
    let dword (k : Nat) : DWord := BitVec.ofNat 64 (cellNat after (key / 8 * 8 + 8 * k) 8)
    if (List.range ((key + bytes.length + 7) / 8 - key / 8)).any (fun k => tableWriteRefused s site (off / 8 * 8 + 8 * k) (dword k)) then some site
    else none

/-- The bits of a byte of a site's tables that software does not write (R340, R345: RO). -/
def roBits (off : Nat) : Byte :=
  if off < 0x100000 then
    match off % 16 with
    | 0 => 0xFF#8 | 1 => 0x03#8 | 4 => 0xF0#8 | 5 => 0xFF#8 | 6 => 0xFF#8 | 7 => 0x07#8
    | 2 | 3 => 0x00#8
    | _ => 0xFF#8
  else if 0x200000 ≤ off && off < 0x200000 + 0x8000 * 36 then
    match off % 32 with
    | 6 => 0x3F#8
    | 7 => 0x40#8
    | k => if k < 4 || 24 ≤ k then 0xFF#8 else 0x00#8
  else 0x00#8

/-- Bytes as a site's tables take them: their RO bits stay. -/
def tableBytes (s : State) (key : Nat) (bytes : List Byte) : List Byte :=
  match regionOff s key with
  | none => bytes
  | some (_, off) => (List.range bytes.length).zipWith (fun k b =>
      let ro := roBits (off + k)
      (cellRead s.mem (key + k) &&& ro) ||| (b &&& ~~~ro)) bytes

/-- `fbctl.err` of a site's partition (R350). -/
def setFbErr (s : State) (part : Nat) : State :=
  onSite s (headSite s part) (fun x => { x with fbctl := x.fbctl ||| (1#64 <<< 60) })

/-- A write by any agent. -/
def storeBytes (s : State) (key ia : Nat) (bytes : List Byte) (ts : Nat)
    (by_ : Option (Nat × Nat × Nat)) : State :=
  match refusedWrite s key bytes with
  | some site => setFbErr s (findSite s site).part
  | none => performWrite s key ia (tableBytes s key bytes) ts by_

/-- The timestamp of an agent from outside a site moves with what it performs there (R109, R111). -/
def gateStamp (s : State) (site : Nat) (ts : Nat) : State :=
  onSite s site (fun x => { x with gateTs := max x.gateTs ts })

/-- A failed compare reads the line and takes the timestamp of its entry in the line's order (R118). -/
def stampOnly (s : State) (ia n ts : Nat) : State := stampLines s (linesIn ia n) ts

/-- A write by an agent that is no ply: engine, endpoint, graph processor, host. -/
def agentStore (s : State) (key ia : Nat) (bytes : List Byte) : State :=
  let site := if iaNode ia == s.wafer then iaSite ia else 0
  let ts := storeTs s (findSite s site).gateTs (linesIn ia bytes.length) false
  let s1 := storeBytes s key ia bytes ts none
  if iaNode ia == s.wafer then gateStamp s1 site ts else s1

/-- A read by such an agent orders it after the stores that it saw, and later stores after it. -/
def agentRead (s : State) (key ia n : Nat) : State × List Byte :=
  let bytes := cellReadN s.mem key n
  if iaNode ia == s.wafer then
    let site := iaSite ia
    let ts := (linesIn ia n).foldl (fun acc l => max acc (tsOf s l).wts) (findSite s site).gateTs
    let s1 := (linesIn ia n).foldl (fun acc l => let t := tsOf acc l; setTs acc { t with rts := max t.rts ts }) s
    (gateStamp s1 site ts, bytes)
  else (s, bytes)

/-- Host memory as the device's own processors write it: the rings and records of 17, 18 and 20. -/
def hostStore (s : State) (ia : Nat) (bytes : List Byte) : State := agentStore s ia ia bytes

/-! ### Timestamps of scratchpad and stack lines (R106, R109) -/

/-- The name under which a line of a team's claim (space 2) or of a weave's stack (space 1) has its timestamps. -/
def localTs (space uid windex line : Nat) : Nat :=
  2 ^ 80 * (uid + 1) + (if space == 1 then 2 ^ 70 * (windex + 1) else 0) + line

/-- The timestamp names of n bytes at a local address. -/
def localLines (space uid windex a n : Nat) : List Nat := (linesIn a n).map (localTs space uid windex)

/-- A load at timestamp `pts` of lines that no L1 holds: their read timestamps and the load's own rise (R109). -/
def loadTs (s : State) (pts : Nat) (lines : List Nat) : State × Nat :=
  (lines.foldl (fun acc l => let t := tsOf acc l; setTs acc { t with rts := max t.rts (pts + 16) }) s,
   lines.foldl (fun acc l => max acc (tsOf s l).wts) pts)

/-! ### Error records as bytes (R373) -/

/-- The eight dwords of an error record. -/
def ErrRec.dwords (r : ErrRec) : List DWord :=
  [BitVec.ofNat 64 (r.kind * 2 ^ 56 + r.ctx * 2 ^ 32 + r.unit * 2 ^ 16 + r.seq),
   BitVec.ofNat 64 (r.sec * 2 ^ 16 + (if r.lock then 2 ^ 15 else 0)),
   BitVec.ofNat 64 (r.ns * 2 ^ 32),
   BitVec.ofNat 64 r.cyc, BitVec.ofNat 64 r.ia, BitVec.ofNat 64 (r.lnum * 2 ^ 32 + r.tix),
   BitVec.ofNat 64 r.x, BitVec.ofNat 64 r.y]

/-- R392: a fabric event: a record of the controller, also written into the fabric event ring of the site's
partition. -/
def postFabric (s : State) (kind site x y : Nat) : State :=
  let s1 := postErr s kind 0 (site * 1024) 0 0xFFFFFFFF 0xFFFFFFFF x y
  { s1 with fabricQ := s1.fabricQ ++ [{ part := (findSite s site).part, at_ := s.cyc,
                                        dwords := ((s1.errs.getLast?).map ErrRec.dwords).getD [] }] }

/-! ### Rings in host memory (R350) -/

/-- A ring as its three registers give it. -/
structure Ring where
  base : DWord
  ctl : DWord
  idx : DWord
  deriving DecidableEq, Repr

def Ring.lgn (r : Ring) : Nat := (r.ctl.extractLsb' 16 5).toNat
def Ring.get (r : Ring) : Nat := (r.idx.extractLsb' 32 32).toNat
def Ring.put (r : Ring) : Nat := (r.idx.extractLsb' 0 32).toNat
def Ring.enabled (r : Ring) : Bool := r.ctl.getLsbD 63 && 6 ≤ r.lgn && r.lgn ≤ 16
/-- Free records: the ring holds at most 2^lgn - 1 unread ones. -/
def Ring.room (r : Ring) : Nat := 2 ^ r.lgn - 1 - (r.put + 2 ^ 32 - r.get) % 2 ^ 32

/-- A dword of the MSI-X table: entries of 16 bytes, the address in the first dword, the data in the low half of the second and
the mask in its bit 32, which is set after reset (R394; log 118). -/
def msixDword (s : State) (off : Nat) : DWord :=
  ((s.msix.find? (·.1 == off)).map (·.2)).getD (if off % 16 == 8 then 0x100000000#64 else 0#64)

def msixMasked (s : State) (vec : Nat) : Bool := (msixDword s (16 * vec + 8)).getLsbD 32

/-- R394: a message leaves by the nearest port that is up; that of a masked vector waits as its pending bit. -/
def sendMsi (s : State) (src vec : Nat) : State :=
  match nearestHostPort s src with
  | some p =>
    if msixMasked s vec then { s with msiPending := if s.msiPending.any (·.1 == vec) then s.msiPending else s.msiPending ++ [(vec, src)] }
    else { s with msi := s.msi ++ [⟨p, vec, msixDword s (16 * vec), (msixDword s (16 * vec + 8)).setWidth 32⟩] }
  | none => s

/-- A dword of the pending-bit array (R394). -/
def msixPba (s : State) (off : Nat) : DWord :=
  BitVec.ofNat 64 (((List.range 64).map (fun k => if s.msiPending.any (·.1 == 8 * off + k) then 2 ^ k else 0)).foldl (· + ·) 0)

/-- The records that fit are written in order and `put` advances; `full` says that some are held back. -/
def fillRing (s : State) (head : Nat) (r : Ring) (recs : List FaultRec) : State × Ring × List FaultRec :=
  let now := recs.take r.room
  let s1 := (now.zip (List.range now.length)).foldl (fun acc (rc, k) =>
    hostStore acc (r.base.toNat + 64 * ((r.put + k) % 2 ^ r.lgn))
      (rc.dwords.flatMap (fun d => toBytes 8 d.toNat))) s
  let held := recs.drop now.length
  let put := BitVec.ofNat 32 (r.put + now.length)
  let ctl := if held.isEmpty then r.ctl else r.ctl ||| (1#64 <<< 61)
  let s2 := if !now.isEmpty && r.ctl.getLsbD 62 then sendMsi s1 head (r.ctl.extractLsb' 0 16).toNat else s1
  (s2, { r with ctl := ctl, idx := r.idx.extractLsb' 32 32 ++ put }, held)

def faultRing (x : Site) : Ring := ⟨x.fbbase, x.fbctl, x.fbidx⟩
def fabricRing (x : Site) : Ring := ⟨x.febase, x.fectl, x.feidx⟩

/-- A batch of at most 32 fault records, or fabric records, of a partition is posted (R350). -/
def postBatch (s : State) (part : Nat) (fabric : Bool) : State :=
  let head := headSite s part
  let q := if fabric then s.fabricQ else s.faultQ
  let mine := q.filter (·.part == part)
  let r := if fabric then fabricRing (findSite s head) else faultRing (findSite s head)
  if !r.enabled || mine.isEmpty then s
  else
    let (s1, r1, held) := fillRing s head r (mine.take 32)
    let rest := q.filter (·.part != part) ++ held ++ mine.drop 32
    if fabric then onSite { s1 with fabricQ := rest } head (fun x => { x with fectl := r1.ctl, feidx := r1.idx })
    else onSite { s1 with faultQ := rest } head (fun x => { x with fbctl := r1.ctl, fbidx := r1.idx })

end Sys2Proof.Machine
end

