-- ==== Sys2Proof/Machine/Registers.lean ====
section
/-!
DEFINITION. The control space of a site (21 R397): what each register reads, and what a write does to it,
with the budget registers (17 R336), the ring registers (18 R350, R351; 20 R392), the route selector's
weights (20 R379) and the optical port's control (R383, R384).
-/

namespace Sys2Proof.Machine

open Sys2Proof

/-! ### Bound clusters (21 R405) -/

/-- The physical place of a logical cluster of a site, from `sitesta`: 4 bits each, 15 for none. -/
def physOf (s : State) (site logical : Nat) : Option Nat :=
  let p := ((findSite s site).sta.extractLsb' (4 * logical) 4).toNat
  if logical < 8 && p < 10 then some p else none

/-- The clusters in the live map of a site: logical and physical number. -/
def liveClusters (s : State) (site : Nat) : List (Nat × Nat) :=
  if !(findSite s site).joined then []
  else (List.range 8).filterMap (fun l => (physOf s site l).map (fun p => (l, p)))

/-- The four cores of a cluster. -/
def clusterCores (site phys : Nat) : List CoreId := (List.range 4).map (fun k => ⟨site, phys, k⟩)

/-- The cluster is out of binding: its engine, or two of its cores, are quarantined (R371). -/
def clusterRemoved (s : State) (site phys : Nat) : Bool :=
  (findCluster s site phys).scan == .quarantined ||
  2 ≤ ((clusterCores site phys).filter (fun c => (findCore s c).scan == .quarantined)).length

/-- The bound clusters of a site: those of the live map that are not removed (R371, R405). -/
def boundClusters (s : State) (site : Nat) : List (Nat × Nat) :=
  (liveClusters s site).filter (fun (_, p) => !clusterRemoved s site p)

/-- How many clusters a site has bound: those that it advertises, less the removed ones (R405). -/
def boundCount (s : State) (site : Nat) : Nat := (boundClusters s site).length

/-! ### The optical port (R383, R384) -/

/-- R383: the proxy of a site's port: the site with an up port at the fewest hops. -/
def proxyOf (s : State) (site : Nat) : Option Nat :=
  nearest site (allSites.filter (fun n => n != site && (findSite s n).up))

/-- The port goes down: record 0x15 with the proxy's number, a free value when no site has an up port (log 13). -/
def portGoesDown (s : State) (site : Nat) : State :=
  if !(findSite s site).up then s
  else
    let s1 := onSite s site (fun x => { x with up := false, downAt := s.cyc, proxied := false, handover := false })
    postFabric s1 0x15 site ((proxyOf s1 site).getD (Config.noProxy site)) 0

/-- The port comes up and takes back its address; the proxy goes on forwarding for a while. Record 0x16 with
the time down in microseconds of 1,500 ticks. -/
def portComesUp (s : State) (site : Nat) : State :=
  let x := findSite s site
  if x.up then s
  else
    postFabric (onSite s site (fun x => { x with up := true, handover := x.proxied, proxied := false, upAt := s.cyc }))
      0x16 site 0 ((s.cyc - x.downAt) / 1500)

/-- The interfaces of a standard-mode port: eight wavelengths each, up while all of them are live (R384). -/
def interfaceUp (live : BitVec 16) (k : Nat) : Bool := live.extractLsb' (8 * k) 8 == 0xFF#8

/-- The wavelengths keep the port up: at least 4 in striped mode, one whole interface in standard mode. -/
def lanesSuffice (x : Site) : Bool :=
  if x.mode == 2 then 4 ≤ ((List.range 16).filter (fun i => x.live.getLsbD i)).length
  else x.mode == 1 && (interfaceUp x.live 0 || interfaceUp x.live 1)

/-- `opctl` is written (R384). A port that it takes down carries no flits until it has trained again. -/
def writeOpctl (s : State) (site : Nat) (v : DWord) : State :=
  let x := findSite s site
  let mode := v.extractLsb' 61 2
  let berth := (v.extractLsb' 56 4).toNat
  if mode == 3#2 || berth < 3 || 9 < berth then onSite s site (fun x => { x with opErr := true })
  else
    let down := x.opctl.getLsbD 63 && (mode != x.opctl.extractLsb' 61 2 || !v.getLsbD 63)
    let s1 := if down then onSite (portGoesDown s site) site (fun x => { x with live := 0#16, trained := false }) else s
    onSite s1 site (fun x => { x with opctl := v &&& 0xFF00000000000000#64 })

/-! ### Budgets (R336, R337) -/

/-- The share of a resource (0 dram, 1 mesh, 2 llc, 3 issue) in a budget register. -/
def shareOf (b : DWord) (res : Nat) : Nat := (b.extractLsb' (8 * res) 8).toNat

/-- The sums over classes 0 to 6 stay within 256. -/
def sharesFit (bgt : List DWord) : Bool :=
  (List.range 4).all (fun r => (List.range 7).foldl (fun acc c => acc + shareOf (bgt.getD c 0#64) r) 0 ≤ 256)

/-- A wavelength of the site's port is withdrawn. -/
def Site.retraining (x : Site) : Bool := x.dark != 0#16 || x.rtv.isSome || !x.waitRetrain.isEmpty

/-- The effective share of a class (R337). -/
def effShare (x : Site) (cls res : Nat) : Nat :=
  let own := shareOf (x.bgt.getD cls 0#64) res
  if cls == 2 && x.retraining then own - shareOf (x.bgt.getD 7 0#64) res
  else if cls == 4 || cls == 5 then max own 1
  else own

/-- The effective shares, in the layout of the registers. -/
def effShares (x : Site) : List DWord :=
  (List.range 8).map (fun c => (List.range 4).foldl (fun acc r => acc + BitVec.ofNat 64 (effShare x c r * 2 ^ (8 * r))) 0#64)

/-- The number of the window of a site (R335). -/
def windowOf (s : State) (site : Nat) : Nat := cycAt s site / 16384

/-- The effective shares that fix the caps of this window: those in force at its first cycle (24 R419). -/
def sharesNow (s : State) (site : Nat) : List DWord :=
  let x := findSite s site
  if x.bgtW == windowOf s site then x.bgtNow else effShares x

/-- Before the effective shares change in a later cycle of a window, the window keeps those of its first cycle (R419). -/
def fixShares (s : State) (site : Nat) : State :=
  onSite s site (fun x =>
    if x.bgtW == windowOf s site || cycAt s site % 16384 == 0 then x
    else { x with bgtW := windowOf s site, bgtNow := effShares x })

/-- A change of effective share in a window's first cycle counts for that window (R419). -/
def settleShares (s : State) (site : Nat) : State :=
  onSite s site (fun x =>
    if cycAt s site % 16384 == 0 && x.bgtW == windowOf s site then { x with bgtNow := effShares x } else x)

/-- A change that may touch the effective shares of a site. -/
def changeShares (s : State) (site : Nat) (f : State → State) : State := settleShares (f (fixShares s site)) site

/-- A budget register is written, or the write is refused and `bgtstat.err` is set. -/
def writeBgt (s : State) (site k : Nat) (v : DWord) : State :=
  let x := findSite s site
  let new := x.bgt.set k (v &&& 0xFFFFFFFF#64)
  if k == 7 || sharesFit new then changeShares s site (fun s => onSite s site (fun x => { x with bgt := new }))
  else onSite s site (fun x => { x with bgtErr := true })

/-- The capacity of a resource of a site in a window (R335): 0 dram, 1 mesh, 2 llc, 3 issue. A seam has four mesh links
(R374), the port one. -/
def capacityOf (s : State) (site res : Nat) : Nat :=
  match res with
  | 0 => 174762666
  | 1 => 16384 * (4 * (neighbours site).length + 1)
  | 2 => 16384 * 16
  | _ => 16384 * (4 * boundCount s site)

/-- The cap of a class in the window (R337). -/
def classCap (s : State) (site cls res : Nat) : Nat :=
  capacityOf s site res * shareOf ((sharesNow s site).getD cls 0#64) res / 256

/-- What a class has used of a resource in the window; unspent amounts have lapsed with the one before. -/
def spentOf (s : State) (site cls res : Nat) : Nat :=
  if (findSite s site).actW != windowOf s site then 0
  else ((s.spent.find? (fun (n, k, _) => n == site && k == 4 * cls + res)).map (·.2.2)).getD 0

/-- A class uses some amount of a resource: its bit of `bgtstat` is set. -/
def useClass (s : State) (site cls res n : Nat) : State :=
  let now := spentOf s site cls res + n
  let fresh := (findSite s site).actW != windowOf s site
  onSite { s with spent := (site, 4 * cls + res, now) ::
      s.spent.filter (fun (m, k, _) => !(m == site && (fresh || k == 4 * cls + res))) }
    site (fun x => { x with bgtAct := (if fresh then 0#8 else x.bgtAct) ||| BitVec.ofNat 8 (2 ^ cls), actW := windowOf s site })

def Use.of (u : Use) (res : Nat) : Nat :=
  match res with
  | 0 => u.dram
  | 1 => u.mesh
  | 2 => u.llc
  | _ => u.issue

/-- Bytes that go between a unit and memory: their lines in the slices, and a data flit for each 64 of them (R374). -/
def bytesUse (n : Nat) : Use := { dram := n, mesh := ceilDiv n 64, llc := ceilDiv n 128 }

/-- A class uses amounts of several resources. -/
def spend (s : State) (site cls : Nat) (u : Use) : State :=
  (List.range 4).foldl (fun acc r => if u.of r == 0 then acc else useClass acc site cls r (u.of r)) s

/-- The class may use the amounts now: each stays within its cap, or the clocks that neither programs nor a capped class
request give it (R337); whether they do is a free value. -/
def mayUse (s : State) (site cls : Nat) (u : Use) : Bool :=
  (List.range 4).all (fun r =>
    u.of r == 0 || spentOf s site cls r + u.of r ≤ classCap s site cls r || Config.idleClocks s.steps (4 * cls + r))

/-- Amounts without others, and with them. -/
def Use.minus (u v : Use) : Use :=
  { dram := u.dram - v.dram, mesh := u.mesh - v.mesh, llc := u.llc - v.llc, issue := u.issue - v.issue }
def Use.plus (u v : Use) : Use :=
  { dram := u.dram + v.dram, mesh := u.mesh + v.mesh, llc := u.llc + v.llc, issue := u.issue + v.issue }

/-- Of some amounts what the class may use now: the rest of its caps, or, where idle clocks suffice, all. -/
def usable (s : State) (site cls : Nat) (u : Use) : Use :=
  let give (r : Nat) : Nat :=
    if Config.idleClocks s.steps (4 * cls + r) then u.of r else min (u.of r) (classCap s site cls r - spentOf s site cls r)
  { dram := give 0, mesh := give 1, llc := give 2, issue := give 3 }

/-- What an activity under way has used so far. -/
def paidFor (s : State) (key : Nat × Nat × Nat) : Use := ((s.payments.find? (·.1 == key)).map (·.2)).getD {}

/-- An activity that needs more than a window gives goes on from window to window: it uses what its class may use now,
and the answer tells whether it has all that it needs (R337). Keys: 0 the save of a team, 1 the eviction and 2 the refill of a
weave, 3 a pending entry's replay, 4 a unit's scan, 5 a trial. -/
def payOn (s : State) (key : Nat × Nat × Nat) (site cls : Nat) (need : Use) : State × Bool :=
  let give := usable s site cls (need.minus (paidFor s key))
  let now := (paidFor s key).plus give
  ({ spend s site cls give with payments := (key, now) :: s.payments.filter (·.1 != key) }, need.minus now == {})

/-- The activity is over. -/
def endPayment (s : State) (key : Nat × Nat × Nat) : State := { s with payments := s.payments.filter (·.1 != key) }

/-! ### Rings -/

/-- `fbctl` or `fectl` after a write: full and err clear where the value has 1; en stays 0 for an lgn outside
6 to 16. -/
def ringCtl (old v : DWord) : DWord :=
  let lgn := (v.extractLsb' 16 5).toNat
  let keep := old &&& 0x3000000000000000#64 &&& ~~~v
  let rw := v &&& 0xC0000000001FFFFF#64
  keep ||| (if lgn < 6 || 16 < lgn then rw &&& 0x7FFFFFFFFFFFFFFF#64 else rw)

/-- Software advances `get`, and held records are posted (R350). -/
def writeGet (s : State) (site : Nat) (fabric : Bool) (v : DWord) : State :=
  let part := (findSite s site).part
  if site != headSite s part then s
  else
    let s1 := onSite s site (fun x =>
      if fabric then { x with feidx := v.extractLsb' 32 32 ++ x.feidx.extractLsb' 0 32 }
      else { x with fbidx := v.extractLsb' 32 32 ++ x.fbidx.extractLsb' 0 32 })
    let held := if fabric then (findSite s site).fectl.getLsbD 61 else (findSite s site).fbctl.getLsbD 61
    if held then postBatch s1 part fabric else s1

/-! ### Reading and writing the control space -/

def boolBit (b : Bool) (n : Nat) : DWord := if b then 1#64 <<< n else 0#64

/-- `opsta` (R384). -/
def Site.opsta (x : Site) : DWord :=
  boolBit x.up 63 ||| boolBit x.opErr 62 ||| boolBit x.rtv.isSome 43 |||
  (BitVec.setWidth 64 (BitVec.ofNat 4 (x.rtv.getD 0)) <<< 39) |||
  (BitVec.setWidth 64 x.dark <<< 16) ||| BitVec.setWidth 64 x.live

/-- `bgtstat.act` (R336): the classes that used something in this window; a unit that is being scanned uses issue, and a
wavelength that retrains uses mesh, in every window. -/
def actBits (s : State) (site : Nat) : BitVec 8 :=
  let x := findSite s site
  (if x.actW == windowOf s site then x.bgtAct else 0#8) |||
  (if s.cores.any (fun c => c.id.site == site && c.scan == .scan) || s.clusters.any (fun c => c.site == site && c.scan == .scan)
   then 1#8 else 0#8) |||
  (if x.rtv.isSome then 0x80#8 else 0#8)

/-- `bgtstat` (R336). -/
def bgtstat (s : State) (site : Nat) : DWord := boolBit (findSite s site).bgtErr 63 ||| BitVec.setWidth 64 (actBits s site)

/-- An aligned 8-byte read of the control space; an offset that the table does not list reads zero, and so does a number that
names no site (R394). -/
def ctlRead (s : State) (site off : Nat) : DWord :=
  let x := findSite s site
  let head := site == headSite s x.part
  let port := hostPortSites.contains site
  if !isSite site then 0#64
  else if off == 0x0000 then BitVec.ofNat 64 x.part
  else if off == 0x0008 then x.sta
  else if off == 0x0010 then x.sysbase
  else if 0x0100 ≤ off && off < 0x0140 && off % 8 == 0 then x.bgt.getD ((off - 0x100) / 8) 0#64
  else if off == 0x0140 then bgtstat s site
  else if off == 0x0200 then x.rsw
  else if off == 0x0208 then x.opctl
  else if off == 0x0210 then x.opsta
  else if port && 0x0300 ≤ off && off < 0x0320 && off % 8 == 0 then x.hdxia.getD ((off - 0x300) / 8) 0#64
  else if port && 0x0320 ≤ off && off < 0x0340 && off % 8 == 0 then x.hdxctx.getD ((off - 0x320) / 8) 0#64
  else if !head then 0#64
  else if off == 0x1000 then x.fbbase
  else if off == 0x1008 then x.fbctl
  else if off == 0x1010 then x.fbidx
  else if off == 0x1018 then x.svbase
  else if off == 0x1020 then x.svtail
  else if off == 0x1028 then x.svctl
  else if off == 0x1030 then x.febase
  else if off == 0x1038 then x.fectl
  else if off == 0x1040 then x.feidx
  else 0#64

/-- A write to a register with no behaviour beyond its fields (R397). -/
def plainWrite (s : State) (site off : Nat) (v : DWord) : State :=
  let x := findSite s site
  let head := site == headSite s x.part
  let port := hostPortSites.contains site
  let upd (f : Site → Site) : State := onSite s site f
  if off == 0x0140 then upd (fun x => if v.getLsbD 63 then { x with bgtErr := false } else x)
  else if off == 0x0200 then upd (fun x => { x with rsw := v &&& 0x0000FFFFFF000000#64 })
  else if off == 0x0210 then upd (fun x => if v.getLsbD 62 then { x with opErr := false } else x)
  else if port && 0x0300 ≤ off && off < 0x0320 && off % 8 == 0 then
    upd (fun x => { x with hdxia := x.hdxia.set ((off - 0x300) / 8) v })
  else if port && 0x0320 ≤ off && off < 0x0340 && off % 8 == 0 then
    upd (fun x => { x with hdxctx := x.hdxctx.set ((off - 0x320) / 8) (v &&& 0xFFFF#64) })
  else if !head then s
  else if off == 0x1000 then upd (fun x => { x with fbbase := v })
  else if off == 0x1008 then upd (fun x => { x with fbctl := ringCtl x.fbctl v })
  else if off == 0x1018 then upd (fun x => { x with svbase := v })
  else if off == 0x1020 then upd (fun x => { x with svtail := v, svHeld := false })
  else if off == 0x1028 then
    let lgn := (v.extractLsb' 0 5).toNat
    let rw := v &&& 0x800000000000001F#64
    upd (fun x => { x with svctl := if lgn < 4 || 16 < lgn then rw &&& 0x1F#64 else rw })
  else if off == 0x1030 then upd (fun x => { x with febase := v })
  else if off == 0x1038 then upd (fun x => { x with fectl := ringCtl x.fectl v })
  else s

/-- An aligned 8-byte write of the control space; a number that names no site ignores it. -/
def ctlWrite (s : State) (site off : Nat) (v : DWord) : State :=
  if !isSite site then s
  else if 0x0100 ≤ off && off < 0x0140 && off % 8 == 0 then writeBgt s site ((off - 0x100) / 8) v
  else if off == 0x0208 then writeOpctl s site v
  else if off == 0x1010 then writeGet s site false v
  else if off == 0x1040 then writeGet s site true v
  else plainWrite s site off v

end Sys2Proof.Machine
end

