-- ==== Sys2Proof/Machine/Mesh.lean ====
section
/-!
DEFINITION. The packets of the mesh and of the ports (20 R374 to R380, R385, R386, R390, R391; 24 R418): seams and escape
routes, headers, sequence numbers, and what a port puts on its link.
-/

namespace Sys2Proof.Machine

open Sys2Proof

/-! ### Seams and routes (R4, R376, R380) -/

/-- A seam: two neighbouring sites, the lower number first. -/
def isSeam (a b : Nat) : Bool := isSite a && a < b && (neighbours a).contains b

def seamWord (a b : Nat) : Nat := a * 64 + b

/-- The links of a seam that are dead. -/
def deadOf (s : State) (a b : Nat) : List (Nat × Nat × Nat × Nat) := s.deadLinks.filter (fun (x, y, _, _) => x == a && y == b)

/-- The links between two neighbours that are left. -/
def liveLinks (s : State) (m n : Nat) : List Nat :=
  (List.range 4).filter (fun k => !(deadOf s (min m n) (max m n)).any (fun (_, _, l, _) => l == k))

/-- A link of the seam is left. -/
def seamLive (s : State) (m n : Nat) : Bool := !(liveLinks s m n).isEmpty

/-- The sites within k hops of a site over seams that no detour table avoids. -/
def within (s : State) (dst : Nat) : Nat → List Nat
  | 0 => [dst]
  | k + 1 =>
    let w := within s dst k
    distinct (w ++ w.flatMap (fun n => (neighbours n).filter (fun m => !s.detours.contains (min m n, max m n))))

/-- The next site by the detour tables: the first step of a shortest way around the seams that they avoid. -/
def detourNext (s : State) (cur dst : Nat) : Option Nat :=
  (List.range 56).findSome? (fun k => (neighbours cur).find? (fun m =>
    !s.detours.contains (min m cur, max m cur) && (within s dst k).contains m))

/-- The channels of a class: the first, and how many. -/
def classChannels : Nat → Nat × Nat
  | 0 => (0, 16)
  | 1 => (16, 16)
  | 2 => (32, 8)
  | 3 => (40, 12)
  | 4 => (52, 4)
  | 5 => (56, 4)
  | _ => (60, 4)

/-- The next site along a row or a column. -/
def stepX (cur dst : Nat) : Nat := if cur % 8 < dst % 8 then cur + 1 else cur - 1
def stepY (cur dst : Nat) : Nat := if cur / 8 < dst / 8 then cur + 8 else cur - 8

/-- Which of the two escape channels: the odd one, Y first, only where the X-first path would turn at a position without
a site. -/
def escapeOdd (cur dst : Nat) : Nat := if isSite (cur / 8 * 8 + dst % 8) then 0 else 1

/-- The next site on an escape channel: by dimension order, or by the detour tables once there are any. -/
def escapeNext (s : State) (cur dst chan : Nat) : Option Nat :=
  if !s.detours.isEmpty then detourNext s cur dst
  else if chan % 2 == 0 then some (if cur % 8 == dst % 8 then stepY cur dst else stepX cur dst)
  else some (if cur / 8 == dst / 8 then stepX cur dst else stepY cur dst)

/-! ### The external plane (R379, R383) -/

/-- The site by whose port the traffic of a site leaves on the external plane: its own, or its proxy while that is down. -/
def exitSite (s : State) (n : Nat) : Option Nat := if (findSite s n).up then some n else proxyOf s n

/-- The site at which the network delivers packets for a site's address: its own port, or the proxy that has announced the
address, and for a while after the handover still that. -/
def entrySite (s : State) (n : Nat) : Option Nat :=
  let x := findSite s n
  if x.up then (if x.handover && Config.lateProxy s.steps then proxyOf s n else some n)
  else if x.proxied then proxyOf s n else none

/-! ### Packets (R374, R376) -/

/-- The site that holds a packet's header: that of its router input, or where it was injected. -/
def Packet.at_ (p : Packet) : Nat := ((p.segs.head?).map (·.input.1)).getD (p.entry.getD p.src)

/-- The site for which the packet heads on the mesh: its destination, or the port by which it leaves. -/
def Packet.goal (s : State) (p : Packet) : Nat := if p.ext && p.entry.isNone then (exitSite s p.src).getD p.src else p.dst

/-- The class whose channels it takes: traffic to and from a port goes in class 3 (R376, R383). -/
def Packet.lane (p : Packet) : Nat := if p.ext then 3 else p.cls

/-- Its channel on the current link. -/
def Packet.chan (p : Packet) : Nat := ((p.segs.head?).map (·.chan)).getD 0

/-- Its flits: of an abandoned one the header alone goes on (R382). -/
def Packet.size (p : Packet) : Nat := if p.stomp then 1 else p.flits

/-- Its flits where the header stands. -/
def Packet.front (p : Packet) : Nat := ((p.segs.head?).map (·.n)).getD p.left

/-- The packet has moved to an escape channel, which it does not leave. -/
def Packet.onEscape (p : Packet) : Bool := !p.segs.isEmpty && p.chan < (classChannels p.lane).1 + 2

/-- Its escape channel. -/
def Packet.escape (s : State) (p : Packet) : Nat :=
  if p.onEscape then p.chan else (classChannels p.lane).1 + escapeOdd p.at_ (p.goal s)

/-- Dwords 0 to 2 of its header flit (R374). -/
def Packet.header (p : Packet) : List DWord :=
  [BitVec.ofNat 64 (p.dst * 2 ^ 58 + p.src * 2 ^ 52 + p.cls * 2 ^ 48 + p.chan * 2 ^ 42 + (p.flits - 1) * 2 ^ 38 +
     (if p.stomp then 2 ^ 37 else 0) + (if p.ext then 2 ^ 36 else 0) + p.pseq * 2 ^ 12),
   BitVec.ofNat 64 p.ia,
   BitVec.ofNat 64 (p.ctx * 2 ^ 48 + p.gseq * 2 ^ 32)]

/-- The next packet sequence number of a source towards a destination and class (R374). -/
def takePseq (s : State) (src dst cls : Nat) : State × Nat :=
  let x := findSite s src
  let n := ((x.pseqs.find? (fun (d, c, _) => d == dst && c == cls)).map (·.2.2)).getD 0
  (onSite s src (fun x => { x with pseqs :=
      (dst, cls, (n + 1) % 2 ^ 24) :: x.pseqs.filter (fun (d, c, _) => !(d == dst && c == cls)) }), n)

/-- The remote operation with a line. -/
def findLine (s : State) (id : Nat) : Option (RemoteOp × RLine) :=
  s.remotes.findSome? (fun o => (o.lines.find? (·.id == id)).map (fun l => (o, l)))

/-- What a packet carries behind its header: the bytes of a store, an atomic, an answer or a remote line (R374). -/
def packetData (s : State) (cls acc : Nat) : List Byte :=
  match s.accs.find? (·.id == acc), findLine s acc with
  | some a, _ => if cls == 1 then (if a.kind == 1 || a.kind == 3 then [] else toBytes 8 a.data.toNat)
                 else if cls == 0 || a.kind == 0 then [] else toBytes a.n a.data.toNat
  | none, some (o, l) =>
    if cls == 1 then (if o.kind == 0 || o.kind == 2 then [] else l.data)
    else if o.kind == 3 then toBytes 8 o.operand.toNat
    else if o.kind == 1 then [] else l.data
  | none, none => []

/-- The intermediate address, context and gate sequence number of its header (R374, R378). -/
def packetAddr (s : State) (cls acc : Nat) : Nat × Nat × Nat :=
  match s.accs.find? (·.id == acc), findLine s acc with
  | some a, _ => (a.ia, a.ctx, if cls == 2 then a.seq else 0)
  | none, some (o, l) => (l.ia, o.ctx, 0)
  | none, none => (0, 0, 0)

/-- A packet leaves a site; an offer of R333 has one data flit. -/
def sendPacket (s : State) (src dst cls acc : Nat) (ext : Bool) (cmd : List Nat := []) : State :=
  let (s1, n) := takePseq s src dst cls
  let (ia, ctx, gseq) := packetAddr s cls acc
  { s1 with nextId := s1.nextId + 1
            packets := s1.packets ++ [{ id := s1.nextId, src := src, dst := dst, cls := cls, pseq := n, ext := ext, acc := acc
                                        ia := ia, ctx := ctx, gseq := gseq, cmd := cmd
                                        flits := if cls == 5 then 2 else 1 + ceilDiv (packetData s cls acc).length 64 }] }

/-- The flits that stand at a site for its first escape hop toward another (R379: Lm). -/
def meshLoad (s : State) (src dst : Nat) : Nat :=
  let hop (p : Packet) (goal : Nat) : Option Nat := escapeNext s src goal ((classChannels p.lane).1 + escapeOdd src goal)
  let stands (p : Packet) : Nat :=
    (if p.entry.getD p.src == src then p.left else 0) +
      (p.segs.map (fun x => if x.input.1 == src then x.n else 0)).foldl (· + ·) 0
  (s.packets.map (fun p =>
    if p.goal s != src && hop p (p.goal s) == escapeNext s src dst (escapeOdd src dst) then stands p else 0)).foldl (· + ·) 0

/-! ### Flits of a port (R385, R386) -/

/-- One bit of the CRC-32 of IEEE 802.3, least significant first, on a number of 32 bits (log 116). -/
def crcBit (c : Nat) : Nat := (c >>> 1) ^^^ (c % 2 * 0xEDB88320)

def crcByte (c : Nat) (b : Byte) : Nat :=
  crcBit (crcBit (crcBit (crcBit (crcBit (crcBit (crcBit (crcBit (c ^^^ b.toNat))))))))

def crc32 (bs : List Byte) : Word := BitVec.ofNat 32 (bs.foldl crcByte 0xFFFFFFFF ^^^ 0xFFFFFFFF)

/-- The bytes of a link flit that its CRC covers: 0 to 247, then 252 to 255. -/
def LinkFlit.covered (f : LinkFlit) : List Byte :=
  toBytes 8 (f.seq % 2 ^ 24 * 2 ^ 40 + f.ack % 2 ^ 24 * 2 ^ 16 + f.kind % 16 * 2 ^ 12) ++ f.payload.take 240 ++
    List.replicate (240 - f.payload.length) 0#8 ++ toBytes 4 (f.lset.toNat * 2 ^ 16)

/-- The 256 bytes of a link flit (R385). -/
def LinkFlit.bytes (f : LinkFlit) : List Byte := f.covered.take 248 ++ toBytes 4 (crc32 f.covered).toNat ++ f.covered.drop 248

/-- The wavelengths of a set, ascending. -/
def waves (live : BitVec 16) : List Nat := (List.range 16).filter (fun i => live.getLsbD i)

/-- The wavelength of data flit `seq` under a base and a live set: the live one at position (seq - b) mod nlive (R386). -/
def waveOf (base : Nat) (live : BitVec 16) (seq : Nat) : Nat :=
  (waves live).getD ((seq + 2 ^ 24 - base) % 2 ^ 24 % max (waves live).length 1) 0

/-- A control flit goes on the lowest live wavelength (log 117). -/
def controlWave (live : BitVec 16) : Nat := (waves live).headD 0

/-- Flits that a striped port holds for its peer. -/
def Stripe.held (k : Stripe) : Nat := (k.txNext + 2 ^ 24 - k.txAck) % 2 ^ 24

/-- A filled data flit leaves, and is kept. -/
def Stripe.sendData (k : Stripe) (live : BitVec 16) (payload : List Byte) : Stripe :=
  { k with
    txNext := (k.txNext + 1) % 2 ^ 24
    kept := k.kept ++ [(k.txNext, payload)]
    sent := k.sent ++ [{ kind := 0, seq := k.txNext, ack := k.rxNext, payload := payload, wave := waveOf k.txBase live k.txNext }] }

/-- A port fills data flits with the bytes of mesh flits, packed back to back, 240 to each. -/
def Stripe.push (k : Stripe) (live : BitVec 16) (bytes : List Byte) : Stripe :=
  let all := k.txBuf ++ bytes
  let full := all.length / 240
  (List.range full).foldl (fun acc j => acc.sendData live ((all.drop (240 * j)).take 240)) { k with txBuf := all.drop (240 * full) }

/-! ### What leaves by a port (R374, R384, R385, R390, R391, R418) -/

/-- The bytes of data in whole flits. -/
def wholeFlits (data : List Byte) : List Byte := data ++ List.replicate (ceilDiv data.length 64 * 64 - data.length) 0#8

/-- The endpoint address of a node as a port's node table gives it: the prefix (R390). -/
def nodePrefix (s : State) (site node : Nat) : DWord :=
  BitVec.ofNat 64 (cellNat s.mem (regionKey s site (0x110000 + 16 * node + 8)) 8)

/-- The interface of a standard-mode port that a packet takes: the one that is up; of two, the one with fewer packets so far
(R384; log 117). -/
def ifaceOf (x : Site) : Nat :=
  let count (k : Nat) : Nat := (x.frames.filter (·.iface == k)).length
  if !interfaceUp x.live 0 then 1 else if !interfaceUp x.live 1 then 0 else if count 0 ≤ count 1 then 0 else 1

/-- What a secure domain makes of a payload: ciphertext under its key, with the headers authenticated (R391). -/
def sealed (s : State) (dom : Nat) (header : List DWord) (payload : List Byte) : List Byte :=
  if dom == 0 then payload
  else Config.gcmSeal ((assoc? dom s.domainKeys).getD (List.replicate 32 0#8)) (header.flatMap (fun d => toBytes 8 d.toNat)) payload

/-- A packet leaves the module by a port: in data flits of a striped link, or as a packet of the endpoint, to the node's
prefix and the interface identifier of the destination site. -/
def putOut (s : State) (port node : Nat) (p : Packet) (cmd : List DWord) (data : List Byte) : State :=
  onSite s port (fun x =>
    if x.mode == 2 then { x with stripe := x.stripe.push x.live ((p.header ++ cmd).flatMap (fun d => toBytes 8 d.toNat) ++ wholeFlits data) }
    else
      let head := p.header ++ cmd
      let dom := ((nodeEntry s port node).extractLsb' 0 8).toNat
      { x with frames := x.frames ++ [{ iface := ifaceOf x, pfx := nodePrefix s port node, host := p.dst
                                        header := head, payload := sealed s dom head (wholeFlits data) }] })

/-- The packet of a distant access leaves by its port, under the next number of its source, node and class. -/
def portOut (s : State) (port src ia ctx cls : Nat) (data : List Byte) : State :=
  let (s1, n) := takePseq s src (64 + iaNode ia) cls
  putOut s1 port (iaNode ia)
    { id := 0, src := src, dst := iaSite ia, cls := cls, pseq := n, acc := 0, ia := ia, ctx := ctx, flits := 1 + ceilDiv data.length 64 }
    ((List.range 5).map (Config.cmdDword s.nextId)) data

/-- A master's access to a distant address leaves by the port that R418 chooses. -/
def leaveDistant (s : State) (src ia ctx : Nat) (data : List Byte) : State :=
  if isDistant s ia && iaNode ia != 0xFFF then
    match distantPort s src (iaNode ia) with
    | some p => portOut s p src ia ctx 3 data
    | none => s
  else s

/-- A striped port that holds 4,096 flits sends nothing new (R386). -/
def portFull (s : State) (port : Nat) : Bool := (findSite s port).mode == 2 && 4096 ≤ (findSite s port).stripe.held

end Sys2Proof.Machine
end

