-- ==== Sys2Proof/Machine/Digest.lean ====
section
/-!
DEFINITION. What a run of a team under assay records as it goes (19 R365, R366, R369) and the test hook of
a core (16 R316).
-/

namespace Sys2Proof.Machine

open Sys2Proof

/-- R369: the item of one byte; k is 0 for a store, 1 + the op code for a reduction. -/
def digestItem (va k b : Nat) : DWord :=
  let h : DWord := BitVec.ofNat 64 va ^^^ (BitVec.ofNat 64 k * 0x9E3779B97F4A7C15#64) ^^^
    (BitVec.ofNat 64 b * 0xC2B2AE3D27D4EB4F#64)
  let h := (h ^^^ (h >>> 30)) * 0xBF58476D1CE4E5B9#64
  let h := (h ^^^ (h >>> 27)) * 0x94D049BB133111EB#64
  h ^^^ (h >>> 31)

/-- The items of the bytes of one covered write. -/
def digestBytes (va k : Nat) (bytes : List Byte) : DWord :=
  ((List.range bytes.length).zip bytes).foldl (fun acc (j, b) => acc + digestItem ((va + j) % 2 ^ 56) k b.toNat) 0#64

/-- A covered write enters the digest of a sampled team. -/
def Team.cover (t : Team) (va k : Nat) (bytes : List Byte) : Team :=
  if t.sampled then { t with digest := t.digest + digestBytes va k bytes } else t

/-- The run meets a reason of R366. -/
def Team.spoil (t : Team) : Team := { t with eligible := false }

def spoil (s : State) : State := { s with team := s.team.spoil }

/-- f on a team, resident or swapped out: what goes on for it meanwhile counts for its run (R369). -/
def onAnyTeam (s : State) (uid : Nat) (f : Team → Team) : State :=
  if (peekTeam s uid).isSome then updTeam s uid f
  else { s with launches := s.launches.map (fun l => { l with suspended := l.suspended.map (fun x =>
    if x.uid == uid then { x with kept := f x.kept } else x) }) }

/-- Ranges hold every byte from a to e: one after another, each used at most once. -/
def coverFrom (rs : List (Nat × Nat)) : Nat → Nat → Nat → Bool
  | 0, a, e => e ≤ a
  | n + 1, a, e =>
    if e ≤ a then true
    else match rs.find? (fun (b, len) => b ≤ a && a < b + len) with
      | none => false
      | some (b, len) => coverFrom rs n (b + len) e

/-- The frozen ranges of a kernel hold every byte of a read, together (R366). -/
def Kernel.frozenRead (k : Kernel) (va n : Nat) : Bool := coverFrom k.frozen k.frozen.length va (va + n)

/-- The kernel has a nonzero assay fraction (R365). -/
def Kernel.assayed (k : Kernel) : Bool := k.assayCode != 0x1F

/-- R316: the next counted lane store of an armed core is altered, in data bits [31:0] of the lane's whole element, and the hook
disarms; the second part of a store that crosses a line takes the rest of the mask. Answers the data of the part. -/
def hookStore (s : State) (t : Team) (a : Acc) : State × DWord :=
  let c := findCore s t.at_
  if a.sh != 0 then
    match c.hookRest with
    | some (w, tag, lane, mask) =>
      if w == a.windex && tag == a.tag && lane == a.lane then
        (onCore s t.at_ (fun c => { c with hookRest := none }), a.data ^^^ (BitVec.setWidth 64 mask >>> (8 * a.sh)))
      else (s, a.data)
    | none => (s, a.data)
  else match c.hook with
    | none => (s, a.data)
    | some mask =>
      if t.run == .original && t.kernel.assayed && 4 ≤ (Ty.ofCodeD a.type).width / 8 then
        (onCore s t.at_ (fun c => { c with hook := none, hookRest := if a.n < 4 then some (a.windex, a.tag, a.lane, mask) else none }),
          a.data ^^^ BitVec.setWidth 64 mask)
      else (s, a.data)

end Sys2Proof.Machine
end

