-- ==== Sys2Proof/Machine/Elementary.lean ====
section
/-!
DEFINITION. Quotients, roots and the elementary functions of 09 R203 as exact numbers that carry a
sticky low bit: rounding such a number once gives the correctly rounded function value. Quotients
and roots keep at least 128 bits below the leading one; exp2, log2, sin and cos are computed to
more than 250 fraction bits (log 21 says why that is enough, and that it is UNVERIFIED by proof).
-/

namespace Sys2Proof.Machine

open Sys2Proof

/-- m1 / m2 for nonzero m2, scaled so that the quotient has at least k bits; bit 0 is sticky. -/
def quotSticky (k m1 m2 : Nat) : Nat × Int :=
  let sh := k + bitLen m2
  let n := m1 * 2 ^ sh
  let q := n / m2
  ((2 * q) + (if n % m2 == 0 then 0 else 1), -(sh : Int) - 1)

/-- The exact quotient of two finite nonzero numbers, with a sticky bit (R204). -/
def Num.quot (x y : Num) : Num :=
  match x, y with
  | .fin a m e, .fin b n g =>
    let (q, s) := quotSticky 200 m n
    .fin (a != b) q (e - g + s)
  | _, _ => .nan

/-- The square root of a positive finite number, with a sticky bit. -/
def Num.sqrtPos (m : Nat) (e : Int) : Num :=
  let odd : Nat := (e % 2).toNat
  let k : Nat := 200 + odd
  -- (m * 2^(odd + 2k')) has an even exponent e - odd - 2k'
  let n := m * 2 ^ (odd + 2 * k)
  let r := isqrt n
  .fin false (2 * r + (if r * r == n then 0 else 1)) ((e - odd) / 2 - (k : Int) - 1)

/-- The reciprocal square root of a positive finite number, with a sticky bit. -/
def Num.rsqrtPos (m : Nat) (e : Int) : Num :=
  let odd : Nat := (e % 2).toNat
  let k : Nat := 300 + bitLen m
  -- 1/sqrt(m 2^e) = sqrt(2^(2k) / (m 2^odd)) * 2^(-k) * 2^(-(e - odd)/2)
  let d := m * 2 ^ odd
  let n := 2 ^ (2 * k)
  let q := n / d
  let r := isqrt q
  .fin false (2 * r + (if r * r == q && n % d == 0 then 0 else 1)) (-((e - odd) / 2) - (k : Int) - 1)

/-- Fraction bits of the fixed-point computations below. -/
def fxBits : Nat := 512

/-- ln 2 in units of 2^-512. -/
def ln2Fx : Nat := 0xb17217f7d1cf79abc9e3b39803f2f6af40f343267298b62d8a0d175b8baafa2be7b876206debac98559552fb4afa1b10ed2eae35c138214427573b291169b825

/-- pi in units of 2^-768. -/
def piFx768 : Nat := 0x3243f6a8885a308d313198a2e03707344a4093822299f31d0082efa98ec4e6c89452821e638d01377be5466cf34e90c6cc0ac29b7c97c50dd3f84d5b5b54709179216d5d98979fb1bd1310ba698dfb5ac2ffd72dbd01adfb7b8e1afed6a267e96

/-- pi in units of 2^-512. -/
def piFx : Nat := piFx768 / 2 ^ 256

/-- Product of two fixed-point numbers. -/
def fxMul (a b : Nat) : Nat := a * b / 2 ^ fxBits

/-- Sum of x^k/k! from the term `t` of index k on. -/
def expLoop : Nat → Nat → Nat → Nat → Nat → Nat
  | 0, _, _, _, acc => acc
  | fuel + 1, x, k, t, acc =>
    let t' := fxMul t x / k
    expLoop fuel x (k + 1) t' (acc + t')

/-- e^x for 0 ≤ x < 1 in fixed point. -/
def fxExp (x : Nat) : Nat := expLoop 110 x 1 (2 ^ fxBits) (2 ^ fxBits)

/-- 2^x for a finite nonzero non-integer x with |x| below 2^15: 2^n * e^(f ln 2). -/
def exp2Num (neg : Bool) (m : Nat) (e : Int) : Num :=
  let fx : Nat := if 0 ≤ e + fxBits then m * 2 ^ (e + fxBits).toNat
    else m / 2 ^ (-(e + fxBits)).toNat
  let n : Nat := fx / 2 ^ fxBits
  let f : Nat := fx % 2 ^ fxBits
  let (n', f') : Int × Nat := if neg then (-(n : Int) - 1, 2 ^ fxBits - f) else (n, f)
  let v := fxExp (fxMul f' ln2Fx)
  .fin false (v ||| 1) (n' - fxBits)

/-- Sum of y^(2k+1)/(2k+1) for the odd powers `p`. -/
def atanhLoop : Nat → Nat → Nat → Nat → Nat → Nat
  | 0, _, _, _, acc => acc
  | fuel + 1, y2, k, p, acc =>
    let p' := fxMul p y2
    atanhLoop fuel y2 (k + 2) p' (acc + p' / k)

/-- ln t for 1 ≤ t < 2 in fixed point: 2 atanh((t-1)/(t+1)). -/
def fxLn (t : Nat) : Nat :=
  let one := 2 ^ fxBits
  let y := (t - one) * one / (t + one)
  2 * atanhLoop 170 (fxMul y y) 3 y y

/-- log2 of a positive finite number that is no power of two. -/
def log2Num (m : Nat) (e : Int) : Num :=
  let l := bitLen m
  let t := m * 2 ^ (fxBits + 1 - l)                        -- significand in [1, 2), l below 513
  let ex : Int := e + (l : Int) - 1
  let frac : Int := ((fxLn t * 2 ^ fxBits / ln2Fx : Nat) : Int)
  let v : Int := ex * (2 ^ fxBits : Nat) + frac
  .fin (v < 0) (v.natAbs ||| 1) (-(fxBits : Int))

/-- Alternating Taylor sum of sine or cosine: terms are multiplied by r^2/((k)(k+1)). -/
def trigLoop : Nat → Nat → Nat → Nat → Bool → Int → Int
  | 0, _, _, _, _, acc => acc
  | fuel + 1, r2, k, t, minus, acc =>
    let t' := fxMul t r2 / (k * (k + 1))
    trigLoop fuel r2 (k + 2) t' (!minus) (if minus then acc - (t' : Int) else acc + (t' : Int))

def fxSin (r : Nat) : Int := trigLoop 60 (fxMul r r) 2 r true r
def fxCos (r : Nat) : Int := trigLoop 60 (fxMul r r) 1 (2 ^ fxBits) true (2 ^ fxBits : Nat)

/-- |x| modulo pi/2 in units of 2^-512 and the quadrant, for |x| = m * 2^e with e ≤ 128. -/
def reduceHalfPi (m : Nat) (e : Int) : Nat × Nat :=
  let x768 : Nat := if 0 ≤ e + 768 then m * 2 ^ (e + 768).toNat else m / 2 ^ (-(e + 768)).toNat
  let half := piFx768 / 2
  (x768 / half % 4, x768 % half / 2 ^ 256)

/-- sin x (or cos x when `cosine`) of a finite nonzero x. -/
def trigNum (cosine : Bool) (neg : Bool) (m : Nat) (e : Int) : Num :=
  if e + (bitLen m : Int) < -60 then
    -- |x| below 2^-60: sin x lies just below x, cos x just below 1
    if cosine then .fin false (2 ^ 200 - 1) (-200) else .fin neg (m * 2 ^ 200 - 1) (e - 200)
  else
    let (q, r) := reduceHalfPi m e
    let q := if cosine then (q + 1) % 4 else q
    let v := if q % 2 == 0 then fxSin r else fxCos r
    let s := (q ≥ 2) != (neg && !cosine)
    .fin (s != decide (v < 0)) (v.natAbs ||| 1) (-(fxBits : Int))

end Sys2Proof.Machine
end

