-- ==== Sys2Proof/Machine/Flags.lean ====
section
/-!
DEFINITION. Every element computation that sets a flag of `fpflags`: integer results with their
saturation (03 R57), floating-point arithmetic, comparison and elementary functions (03 R60, R61;
09 R198 to R204), and every conversion (03 R64 to R67). Operands and results are the w-bit
encodings as naturals; a result carries the flags it sets, which the caller ORs into `fpflags`
(02 R43).
-/

namespace Sys2Proof.Machine

open Sys2Proof

/-- What one lane of a rounding instruction needs: the effective mode (R135) and the low word of
the stochastic hash (R63). -/
structure RndCtx where
  mode : Mode
  h    : Nat
  deriving DecidableEq, Repr

/-! ### Integers -/

/-- `sat(t, x)` of R151: clamp, and set sat when the clamp changes the value (R57). -/
def satInt (t : Ty) (x : Int) : Rounded :=
  if x < t.minInt then ⟨wrapNat t.width t.minInt, flSat⟩
  else if x > t.maxInt then ⟨wrapNat t.width t.maxInt, flSat⟩
  else ⟨wrapNat t.width x, 0#7⟩

/-- The exact result x delivered in type t, wrapped (R56) or saturated (R57). -/
def deliverInt (t : Ty) (sat : Bool) (x : Int) : Rounded :=
  if sat then satInt t x else ⟨wrapNat t.width x, 0#7⟩

/-! ### Floating point -/

/-- nv when an operand of an arithmetic operation is a signalling NaN (R60). -/
def snanFlag (f : FloatFmt) (xs : List Nat) : Flags := if xs.any f.isSnan then flNv else 0#7

/-- An invalid operation: the canonical NaN with nv. -/
def invalid (f : FloatFmt) : Rounded := ⟨f.nanCode, flNv⟩

def Rounded.orFlags (r : Rounded) (fl : Flags) : Rounded := ⟨r.code, r.flags ||| fl⟩

/-- x + y in one rounding (R198); opposite infinities are invalid. -/
def fAdd (f : FloatFmt) (r : RndCtx) (x y : Nat) : Rounded :=
  let a := f.val x
  let b := f.val y
  let s := snanFlag f [x, y]
  if a.isNan || b.isNan then ⟨f.nanCode, s⟩
  else if a.isInf && b.isInf && a.isNeg != b.isNeg then invalid f
  else roundNum f r.mode false r.h (Num.add754 (r.mode == .rdn) a b)

/-- The encoding of -x (R60: only the sign bit moves). -/
def fNegate (f : FloatFmt) (x : Nat) : Nat :=
  if f.signBit x then x - 2 ^ (f.width - 1) else x + 2 ^ (f.width - 1)

/-- x - y in one rounding (R198). A NaN keeps its signalling bit under the negation. -/
def fSub (f : FloatFmt) (r : RndCtx) (x y : Nat) : Rounded := fAdd f r x (fNegate f y)

/-- x * y in one rounding (R198); zero times an infinity is invalid. -/
def fMul (f : FloatFmt) (r : RndCtx) (x y : Nat) : Rounded :=
  let a := f.val x
  let b := f.val y
  let s := snanFlag f [x, y]
  if a.isNan || b.isNan then ⟨f.nanCode, s⟩
  else match a.mul b with
    | .nan => invalid f
    | p => roundNum f r.mode false r.h p

/-- x * y + z in one rounding (R198); zero times an infinity sets nv even when z is a quiet NaN. -/
def fFma (f : FloatFmt) (r : RndCtx) (x y z : Nat) : Rounded :=
  let a := f.val x
  let b := f.val y
  let c := f.val z
  let s := snanFlag f [x, y, z]
  let zeroInf := (a.isZero && b.isInf) || (a.isInf && b.isZero)
  if zeroInf then invalid f
  else if a.isNan || b.isNan || c.isNan then ⟨f.nanCode, s⟩
  else
    let p := a.mul b
    if p.isInf && c.isInf && p.isNeg != c.isNeg then invalid f
    else roundNum f r.mode false r.h (Num.add754 (r.mode == .rdn) p c)

/-- R199: the order of fmin and fmax, with -0 below +0. -/
def fBelow (a b : Num) : Bool := a.lt b || (a.isZero && b.isZero && a.isNeg && !b.isNeg)

/-- R199. -/
def fMinMax (f : FloatFmt) (isMax : Bool) (x y : Nat) : Rounded :=
  let a := f.val x
  let b := f.val y
  let s := snanFlag f [x, y]
  if a.isNan && b.isNan then ⟨f.nanCode, s⟩
  else if a.isNan then ⟨y, s⟩
  else if b.isNan then ⟨x, s⟩
  else if isMax then ⟨if fBelow a b then y else x, s⟩
  else ⟨if fBelow b a then y else x, s⟩

/-- R200: the truth of condition cc and whether nv is set. -/
def fCmp (f : FloatFmt) (cc : Nat) (x y : Nat) : Bool × Flags :=
  let a := f.val x
  let b := f.val y
  let un := a.isNan || b.isNan
  let s := snanFlag f [x, y]
  match cc with
  | 0 => (!un && a.eq b, s)
  | 1 => (un || !a.eq b, s)
  | 2 => (!un && a.lt b, if un then flNv else 0#7)
  | 3 => (!un && !b.lt a, if un then flNv else 0#7)
  | 4 => (!un && b.lt a, if un then flNv else 0#7)
  | 5 => (!un && !a.lt b, if un then flNv else 0#7)
  | 6 => (un, s)
  | _ => (!un, s)

/-- R204: division. -/
def fDiv (f : FloatFmt) (r : RndCtx) (x y : Nat) : Rounded :=
  let a := f.val x
  let b := f.val y
  let s := snanFlag f [x, y]
  if a.isNan || b.isNan then ⟨f.nanCode, s⟩
  else if (a.isInf && b.isInf) || (a.isZero && b.isZero) then invalid f
  else
    let sg := a.isNeg != b.isNeg
    if a.isInf then ⟨f.signed sg f.infCode, 0#7⟩
    else if b.isInf then ⟨f.signed sg 0, 0#7⟩
    else if b.isZero then ⟨f.signed sg f.infCode, flDz⟩
    else if a.isZero then ⟨f.signed sg 0, 0#7⟩
    else roundNum f r.mode false r.h (a.quot b)

/-- The encoding of one. -/
def fOne (f : FloatFmt) : Nat := f.bias * 2 ^ f.mbits

/-- R203, R204: the reciprocal is the quotient of one. -/
def fRcp (f : FloatFmt) (r : RndCtx) (x : Nat) : Rounded := fDiv f r (fOne f) x

/-- R203, R204: square root. -/
def fSqrt (f : FloatFmt) (r : RndCtx) (x : Nat) : Rounded :=
  match f.val x with
  | .nan => ⟨f.nanCode, snanFlag f [x]⟩
  | .inf false => ⟨f.infCode, 0#7⟩
  | .inf true => invalid f
  | .fin n m e =>
    if m == 0 then ⟨x, 0#7⟩
    else if n then invalid f
    else roundNum f r.mode false r.h (Num.sqrtPos m e)

/-- R203, R204: reciprocal square root, rounded to nearest even. -/
def fRsqrt (f : FloatFmt) (x : Nat) : Rounded :=
  match f.val x with
  | .nan => ⟨f.nanCode, snanFlag f [x]⟩
  | .inf false => ⟨0, 0#7⟩
  | .inf true => invalid f
  | .fin n m e =>
    if m == 0 then ⟨f.signed n f.infCode, flDz⟩
    else if n then invalid f
    else roundRne f (Num.rsqrtPos m e)

/-- A finite number that is an integer, as that integer. -/
def intOf (m : Nat) (e : Int) : Option Nat :=
  if 0 ≤ e then (if e ≤ 200 then some (m * 2 ^ e.toNat) else none)
  else
    let d := 2 ^ (-e).toNat
    if m % d == 0 then some (m / d) else none

/-- R203, R204: 2^x, rounded to nearest even. -/
def fExp2 (f : FloatFmt) (x : Nat) : Rounded :=
  match f.val x with
  | .nan => ⟨f.nanCode, snanFlag f [x]⟩
  | .inf false => ⟨f.infCode, 0#7⟩
  | .inf true => ⟨0, 0#7⟩
  | .fin n m e =>
    if m == 0 then ⟨fOne f, 0#7⟩
    else if e + (bitLen m : Int) > 14 then
      -- beyond every exponent of the type
      roundRne f (.fin false 1 (if n then -20000 else 20000))
    else match intOf m e with
      | some k => roundRne f (.fin false 1 (if n then -(k : Int) else k))
      | none => roundRne f (exp2Num n m e)

/-- R203, R204: log2 x, rounded to nearest even. -/
def fLog2 (f : FloatFmt) (x : Nat) : Rounded :=
  match f.val x with
  | .nan => ⟨f.nanCode, snanFlag f [x]⟩
  | .inf false => ⟨f.infCode, 0#7⟩
  | .inf true => invalid f
  | .fin n m e =>
    if m == 0 then ⟨f.signed true f.infCode, flDz⟩
    else if n then invalid f
    else if m == 2 ^ (bitLen m - 1) then roundRne f (Num.ofInt (e + (bitLen m : Int) - 1))
    else roundRne f (log2Num m e)

/-- R203, R204: sine or cosine in radians, rounded to nearest even. -/
def fTrig (f : FloatFmt) (cosine : Bool) (x : Nat) : Rounded :=
  match f.val x with
  | .nan => ⟨f.nanCode, snanFlag f [x]⟩
  | .inf _ => invalid f
  | .fin n m e =>
    if m == 0 then ⟨if cosine then fOne f else x, 0#7⟩
    else roundRne f (trigNum cosine n m e)

/-- R201: round to an integral value; only nv of a signalling NaN is set. -/
def fRnd (f : FloatFmt) (r : RndCtx) (x : Nat) : Rounded :=
  match f.val x with
  | .nan => ⟨f.nanCode, snanFlag f [x]⟩
  | .inf _ => ⟨x, 0#7⟩
  | .fin n m e =>
    if m == 0 then ⟨x, 0#7⟩
    else
      let (v, _) := roundInt r.mode r.h n m e
      if v == 0 then ⟨f.signed n 0, 0#7⟩
      else ⟨(roundNum f .rne false 0 (Num.ofInt v)).code, 0#7⟩

/-- R201: the class bit. -/
def fClass (f : FloatFmt) (x : Nat) : Nat :=
  let s := f.signBit x
  if f.isNan x then (if f.isSnan x then 1 else 2)
  else if f.isInf x then (if s then 4 else 512)
  else if f.expField x != 0 then (if s then 8 else 256)
  else if f.fracField x != 0 then (if s then 16 else 128)
  else (if s then 32 else 64)

/-- R201: x * 2^n. -/
def fScale (f : FloatFmt) (r : RndCtx) (x : Nat) (n : Int) : Rounded :=
  match f.val x with
  | .nan => ⟨f.nanCode, snanFlag f [x]⟩
  | v => roundNum f r.mode false r.h (v.scale n)

/-- R202: c + a0*b0 + a1*b1 in f32, with the sum rules of R76. -/
def fDot2 (t : FloatFmt) (r : RndCtx) (a0 b0 a1 b1 c : Nat) : Rounded :=
  let sn := snanFlag t [a0, b0, a1, b1] ||| snanFlag fF32 [c]
  let p0 := (t.val a0).mul (t.val b0)
  let p1 := (t.val a1).mul (t.val b1)
  let v := fF32.val c
  let zeroInf := [(t.val a0, t.val b0), (t.val a1, t.val b1)].any
    (fun (x, y) => (x.isZero && y.isInf) || (x.isInf && y.isZero))
  let sum := Num.sum76 (r.mode == .rdn) [v, p0, p1]
  let opp := [v, p0, p1].contains (.inf false) && [v, p0, p1].contains (.inf true)
  (roundNum fF32 r.mode false r.h sum).orFlags
    (sn ||| (if zeroInf || opp then flNv else 0#7))

/-! ### Conversions (R64 to R67) -/

/-- R67: integer to integer. -/
def cvtIntInt (dst src : Ty) (sat : Bool) (x : Nat) : Rounded := deliverInt dst sat (src.intVal x)

/-- R65, R67: integer to floating point. -/
def cvtIntFloat (dst src : Ty) (sat : Bool) (r : RndCtx) (x : Nat) : Rounded :=
  roundNum dst.fmt r.mode sat r.h (Num.ofInt (src.intVal x))

/-- R66: floating point to integer; `.sat` adds nothing. -/
def cvtFloatInt (dst src : Ty) (r : RndCtx) (x : Nat) : Rounded :=
  match src.fmt.val x with
  | .nan => ⟨0, flNv ||| flSat⟩
  | .inf n => ⟨wrapNat dst.width (if n then dst.minInt else dst.maxInt), flNv ||| flSat⟩
  | .fin n m e =>
    let (v, inexact) := roundInt r.mode r.h n m e
    if v < dst.minInt then ⟨wrapNat dst.width dst.minInt, flNv ||| flSat⟩
    else if v > dst.maxInt then ⟨wrapNat dst.width dst.maxInt, flNv ||| flSat⟩
    else ⟨wrapNat dst.width v, if inexact then flNx else 0#7⟩

/-- R65: floating point to floating point, e4m3 and e5m2 included. -/
def cvtFloatFloat (dst src : Ty) (sat : Bool) (r : RndCtx) (x : Nat) : Rounded :=
  (roundNum dst.fmt r.mode sat r.h (src.fmt.val x)).orFlags (snanFlag src.fmt [x])

end Sys2Proof.Machine
end

