-- ==== Sys2Proof/Machine/Access.lean ====
section
/-!
DEFINITION. One lane access from its issue to its performance (05 R105 to R123): pending entries and fault
records (18 R348, R349), the side log (R123, R355), loads through an L1 under leases (R109), stores,
atomics, reservations (R118, R119; 10 R226 to R229), and the way over the mesh (20 R374, R378, R379).
-/

namespace Sys2Proof.Machine

open Sys2Proof

/-! ### Ordering codes (R107) -/

/-- An acq on a store and a rel on a load count as acq-rel. -/
def hasAcq (store : Bool) (order : Nat) : Bool := order == 2 || order == 4 || (!store && order == 3)
def hasRel (store : Bool) (order : Nat) : Bool := order == 3 || order == 4 || (store && order == 2)
def isRlx (order : Nat) : Bool := order == 5

/-- Kinds of `Acc`: 0 load, 1 store, 2 atomic, `lr` or `sc`, 3 reduction (R349). -/
def Acc.writes (a : Acc) : Bool := a.kind == 1 || a.kind == 3
/-- The right that an access needs (R345). -/
def Acc.right (a : Acc) : Nat := if a.kind == 0 then rightR else if a.kind == 1 then rightW else rightA

def Acc.ofPly (a : Acc) (uid windex ply : Nat) : Bool := a.uid == uid && a.windex == windex && a.ply == ply

/-- The access is not yet performed. -/
def Acc.open_ (a : Acc) : Bool := match a.stage with | .reply => false | _ => true

/-- The access waits for the host to grant a line. -/
def Acc.atHost (a : Acc) : Bool := match a.stage with | .host _ => true | _ => false

/-! ### Atomic operations (R226) -/

/-- The operation's new value on the low bits of the type; floating addition rounds to nearest even and
delivers the canonical NaN. -/
def amo (op : Nat) (t : Ty) (old v : Nat) : Nat :=
  let lt (a b : Nat) : Bool := t.intVal a < t.intVal b
  match op with
  | 0 => low t.width (old + v)
  | 1 => if lt v old then v else old
  | 2 => if lt old v then v else old
  | 3 => old &&& v
  | 4 => old ||| v
  | 5 => old ^^^ v
  | 6 => v
  | 7 => (fAdd t.fmt ⟨.rne, 0⟩ old v).code
  | _ => old

/-- The op code of an atomic whose new value is computed from the old one (R226). -/
def amoMixes (op : Nat) : Bool := op < 6 || op == 7

/-! ### Pending entries (R348, R349) -/

def maxPending : Nat := 1024

/-- The lowest pending-entry number that a home does not use. -/
def freeFid (s : State) (home : Nat) : Option Nat :=
  (List.range maxPending).find? (fun k => !s.pendings.any (fun p => p.home == home && p.fid == k))

/-- The record of a new pending entry (R349); `unit`, `ctx`, `lnum` and `tix` as its table gives them. -/
def faultRecord (s : State) (p : Pending) : FaultRec :=
  let part := (findSite s p.home).part
  { part := part, at_ := p.at_
    dwords := [
      BitVec.ofNat 64 (p.kind * 2 ^ 60 + p.acc * 2 ^ 56 + part * 2 ^ 48 + p.ctx * 2 ^ 32 + p.fid * 2 ^ 16 + p.unit),
      BitVec.ofNat 64 p.ia,
      BitVec.ofNat 64 (p.lnum * 2 ^ 32 + p.tix),
      BitVec.ofNat 64 (p.lanes * 2 ^ 32 + p.lvl * 2 ^ 8 + p.home),
      BitVec.ofNat 64 p.at_, 0#64, 0#64, 0#64] }

/-- Who makes a failing access, as a fault record shows it. -/
structure Requester where
  unit : Nat
  ctx : Nat
  acc : Nat
  lnum : Nat
  tix : Nat
  lanes : Nat
  tag : Nat := ctx                                        -- the context tag, where `ctx` shows a master's value
  deriving DecidableEq, Repr

/-- A failing access joins the entry of its unit, context, page, access kind and fault kind, or makes one and
posts its record; `none` when the home's table is full (R348). -/
def joinPending (s : State) (e : Failure) (r : Requester) (w : Waiter) : State × Option (Nat × Nat) :=
  let same (p : Pending) : Bool :=
    p.home == e.home && p.unit == r.unit && p.ctx == r.ctx && p.tag == r.tag && p.fid < maxPending && p.page == iaPage e.ia && p.acc == r.acc && p.kind == e.kind
  match s.pendings.find? same with
  | some p =>
    ({ s with pendings := s.pendings.map (fun q => if same q then { q with waiters := if q.waiters.contains w then q.waiters else q.waiters ++ [w] } else q) },
      some (p.home, p.fid))
  | none =>
    match freeFid s e.home with
    | none => (s, none)
    | some fid =>
      let p : Pending := { home := e.home, fid := fid, unit := r.unit, ctx := r.ctx, page := iaPage e.ia, acc := r.acc,
                           kind := e.kind, lvl := e.lvl, ia := e.ia, lnum := r.lnum, tix := r.tix, lanes := r.lanes,
                           at_ := s.cyc, tag := r.tag, waiters := [w] }
      ({ s with pendings := s.pendings ++ [p], faultQ := s.faultQ ++ [faultRecord s p] }, some (e.home, fid))

/-- The same for an agent that has no place of its own to wait: where the table is full it waits at the home, without a record,
under a name above those of entries, from which it tries again after 1,024 cycles (R348). -/
def holdPending (s : State) (e : Failure) (r : Requester) (w : Waiter) : State × (Nat × Nat) :=
  match joinPending s e r w with
  | (s1, some k) => (s1, k)
  | (s1, none) =>
    let fid := 2 ^ 40 + s1.nextId
    let p : Pending := { home := e.home, fid := fid, unit := r.unit, ctx := r.ctx, page := iaPage e.ia, acc := r.acc,
                         kind := e.kind, lvl := e.lvl, ia := e.ia, lnum := r.lnum, tix := r.tix, lanes := r.lanes,
                         at_ := s.cyc, tag := r.tag, waiters := [w] }
    ({ s1 with nextId := s1.nextId + 1, pendings := s1.pendings ++ [p] }, (e.home, fid))

/-- The launch number and linear index of a team, as records show them. -/
def teamIds (s : State) (uid : Nat) : Nat × Nat :=
  match peekTeam s uid with
  | none => (0xFFFFFFFF, 0xFFFFFFFF)
  | some t => (((findLaunch s t.launch).map (·.lnum)).getD 0xFFFFFFFF, t.lix)

def Acc.requester (s : State) (a : Acc) : Requester :=
  let (l, t) := teamIds s a.uid
  { unit := a.unit, ctx := a.ctx, acc := a.kind, lnum := l, tix := t, lanes := a.lanes }

/-! ### The side log (R123, R355, R356) -/

/-- The bytes of an entry: its header and its data in multiples of 8. -/
def LogEntry.size (e : LogEntry) : Nat := 16 + ceilDiv e.store.bytes.length 8 * 8

def logBytes (es : List LogEntry) : Nat := es.foldl (fun acc e => acc + e.size) 0

def coreOf (s : State) (uid : Nat) : CoreId := ((peekTeam s uid).map (·.at_)).getD {}

def plyLog (s : State) (uid windex ply : Nat) : List LogEntry :=
  (findCore s (coreOf s uid)).log.filter (fun e => e.uid == uid && e.windex == windex && e.ply == ply)

/-- There is room for `n` more bytes of a team (R355, R356). -/
def logRoom (s : State) (uid n : Nat) : Bool :=
  let log := (findCore s (coreOf s uid)).log
  logBytes (log.filter (·.uid == uid)) + n ≤ 4080 && logBytes log + n ≤ 16384

/-- The entry of a lane store. -/
def logEntryOf (a : Acc) (fid : Option (Nat × Nat)) : LogEntry :=
  { uid := a.uid, windex := a.windex, ply := a.ply, fid := fid, serial := a.id, lanes := a.lanes, bad := a.bad
    store := { ia := a.ia, bytes := toBytes a.n a.data.toNat, order := a.order
               op := if a.kind == 3 then a.op + 1 else 0, type := a.type } }

/-- Program order in a side log (R123): the entry goes before the ply's entries of later instructions. -/
def insertLog (e : LogEntry) : List LogEntry → List LogEntry
  | [] => [e]
  | x :: rest =>
    if x.uid == e.uid && x.windex == e.windex && x.ply == e.ply && e.serial < x.serial then e :: x :: rest
    else x :: insertLog e rest

def pushLog (s : State) (e : LogEntry) : State :=
  onCore s (coreOf s e.uid) (fun c => { c with log := insertLog e c.log })

def dropAcc (s : State) (id : Nat) : State := { s with accs := s.accs.filter (·.id != id) }

def setAcc (s : State) (a : Acc) : State :=
  { s with accs := if s.accs.any (·.id == a.id) then replaceFirst (·.id == a.id) (fun _ => a) s.accs else s.accs ++ [a] }

/-- A failure at the home (R221): a store or reduction retires into the log, or stays where it is while the log
has no room; every other access waits in a pending entry, or for one. -/
def faultAccess (s : State) (a : Acc) (e : Failure) : State :=
  if a.writes then
    if !logRoom s a.uid (logEntryOf a none).size then setAcc s { a with stage := .full s.cyc, since := s.cyc }
    else
      let (s1, fid) := joinPending s e (a.requester s) (.log a.uid a.windex a.ply)
      match fid with
      | none => setAcc s1 { a with stage := .full s.cyc, since := s.cyc }
      | some f => pushLog (dropAcc s1 a.id) (logEntryOf a (some f))
  else
    let (s1, fid) := joinPending s e (a.requester s) (.acc a.id)
    setAcc s1 { a with stage := if fid.isSome then .fault else .full s.cyc, since := s.cyc }

/-! ### Answers -/

/-- A part of a lane's value, at byte `sh` of the element: the value so far, and the lanes that still miss a part. -/
def LoadReq.take (l : LoadReq) (ln sh : Nat) (x : DWord) (bad : Option Nat) : LoadReq :=
  { l with
    data := l.data.set ln (some (((l.data.getD ln none).getD 0#64) ||| (x <<< (8 * sh))))
    more := l.more.erase ln
    bad := if l.bad.isSome then l.bad else bad }

/-- A lane's value, or one of its two parts, reaches its load (R105, R216); a load that is gone takes nothing. -/
def deliver (s : State) (uid windex tag ln : Nat) (x : DWord) (bad : Option Nat) (sh : Nat := 0) : State :=
  updWeave s uid windex (fun w => { w with loads := w.loads.map (fun l => if l.tag == tag then l.take ln sh x bad else l) })

/-- R107: after an acquire the core's copies are older than what the ply must see; they are dropped. -/
def acquireAt (s : State) (core : CoreId) : State := onCore s core (fun c => { c with l1 := [] })

/-- A program timestamp rises by one for every 256 cycles in which no access raised it (R110). -/
def Ply.aged (p : Ply) (cyc : Nat) : Ply :=
  let n := (cyc - p.ptsAt) / 256
  { p with pts := p.pts + n, ptsAt := p.ptsAt + 256 * n }

/-- A program timestamp rises to a later one (R109); only then does the time of its last rise move (R110). -/
def Ply.raisePts (p : Ply) (ts cyc : Nat) : Ply :=
  let q := p.aged cyc
  if q.pts < ts then { q with pts := ts, ptsAt := cyc } else q

/-- The program timestamp under which an access is performed now. -/
def ptsNow (s : State) (a : Acc) : Nat := ((peekPly s a.uid a.windex a.ply).map (fun p => (p.aged s.cyc).pts)).getD 0

/-- The ply's program timestamp rises with an access (R109). -/
def raisePts (s : State) (a : Acc) (ts : Nat) : State :=
  updPly s a.uid a.windex a.ply (fun p => p.raisePts ts s.cyc)

/-- A speculative load is recorded with the timestamp that its line carried (R117). -/
def recordSpec (s : State) (a : Acc) (lines : List (Nat × Nat)) : State :=
  if !a.spec then s
  else updPly s a.uid a.windex a.ply (fun p =>
    { p with fence := p.fence.map (fun c => { c with lines := c.lines ++ lines }) })

/-! ### Loads (R97 to R101, R109) -/

/-- An L1 may hold a line of the attribute under the policy (R97, R100). -/
def l1May (attr policy : Nat) : Bool := (attr == 0 || attr == 3 || attr == 4) && policy != 2

/-- The lines that an L1 holds: L KiB of the split (R87). -/
def Core.l1Lines (c : Core) : Nat := c.split.2.1 * 8

/-- A copy enters an L1, before the others or, under `stream`, as the next victim; the last one goes when there is no more
room (R97; log 93). -/
def Core.l1Put (c : Core) (x : L1Copy) (policy : Nat) : Core :=
  let others := (c.l1.filter (·.line != x.line)).take (c.l1Lines - 1)
  { c with l1 := if policy == 1 then others ++ [x] else x :: others }

/-- The line as its home holds it enters the core's L1, if the page and the policy allow it (R97, R100). -/
def l1Fill (s : State) (core : CoreId) (key ia attr policy : Nat) : State :=
  if !l1May attr policy then s
  else
    let t := tsOf s (iaLine ia)
    onCore s core (fun c => c.l1Put ⟨iaLine ia, cellReadN s.mem (key - ia % 128) 128, t.wts, t.rts⟩ policy)

/-- A piece of a near load: from the copy in the core's L1 while its lease lasts for the ply, else from
the home, which renews the copy. Answers the bytes, the timestamp of the load and the write timestamp that
the value carried. -/
def l1Read (s : State) (core : CoreId) (pts key ia n attr policy : Nat) : State × List Byte × Nat × Nat :=
  let line := iaLine ia
  let hit := (findCore s core).l1.find? (fun c => c.line == line && pts ≤ c.rts)
  match (if l1May attr policy then hit else none) with
  | some c => (s, (c.data.drop (ia % 128)).take n, max pts c.wts, c.wts)
  | none =>
    let t := tsOf s line
    let s1 := setTs s { t with rts := max t.rts (pts + 16) }
    (l1Fill s1 core key ia attr policy, cellReadN s.mem key n, max pts t.wts, t.wts)

/-- A poisoned word under a piece of an access: its virtual address divided by 4 (R360). -/
def poisonAt (s : State) (a : Acc) (p : Piece) (key : Nat) : Option Nat :=
  (poisonIn s key p.len).map (fun w => (a.va + (p.ia - a.ia) + 4 * w - key) / 4)

/-- One piece of a load at its home. An L1 may hold far lines under leases; in the model none does, which every outcome of
the rules allows (R111; log 89). -/
def loadPiece (s : State) (a : Acc) (p : Piece) : State × List Byte × Option Nat :=
  match p.place with
  | .cell key attr =>
    let bad := poisonAt s a p key
    if isNear s a.src a.ia then
      let pts := ptsNow s a
      let (s1, bytes, ts, w) := l1Read s (coreOf s a.uid) pts key p.ia p.len attr a.policy
      (recordSpec (raisePts s1 a ts) a [(iaLine p.ia, w)], bytes, bad)
    else
      let (s1, bytes) := agentRead s key p.ia p.len
      (recordSpec s1 a [(iaLine p.ia, (tsOf s (iaLine p.ia)).wts)], bytes, bad)
  | .ctl site off => (s, toBytes p.len (if p.len == 8 && off % 8 == 0 then (ctlRead s site off).toNat else 0), none)
  | .fail _ _ _ => (s, toBytes p.len 0, none)

def loadPieces (s : State) (a : Acc) : List Piece → State × List Byte × Option Nat
  | [] => (s, [], none)
  | p :: rest =>
    let (s1, b1, x1) := loadPiece s a p
    let (s2, b2, x2) := loadPieces s1 a rest
    (s2, b1 ++ b2, if x1.isSome then x1 else x2)

/-! ### Stores -/

/-- Bytes that hold an error leave their words poisoned (R359). -/
def spoilWords (s : State) (key n : Nat) (bad : Bool) : State := if bad then poisonWords s key n else s

/-- One piece of a store at its home; a near store leaves its line in the issuer's L1 (R97). What the home slice holds is the
memory itself (log 90). -/
def storePiece (s : State) (a : Acc) (p : Piece) (bytes : List Byte) (atomic : Bool) : State :=
  match p.place with
  | .cell key attr =>
    if isNear s a.src a.ia then
      let pts := ptsNow s a
      let ts := storeTs s pts (linesIn p.ia p.len) atomic
      let s1 := spoilWords (storeBytes s key p.ia bytes ts (some (a.uid, a.windex, a.ply))) key p.len a.bad
      raisePts (l1Fill s1 (coreOf s a.uid) key p.ia attr a.policy) a ts
    else
      let site := if iaNode p.ia == s.wafer then iaSite p.ia else 0
      let ts := storeTs s (findSite s site).gateTs (linesIn p.ia p.len) atomic
      let s1 := spoilWords (storeBytes s key p.ia bytes ts (some (a.uid, a.windex, a.ply))) key p.len a.bad
      if iaNode p.ia == s.wafer then gateStamp s1 site ts else s1
  | .ctl site off => if p.len == 8 && off % 8 == 0 then ctlWrite s site off (BitVec.ofNat 64 (ofBytes bytes)) else s
  | .fail _ _ _ => s

def storePieces (s : State) (a : Acc) (atomic : Bool) : List Piece → List Byte → State
  | [], _ => s
  | p :: rest, bytes => storePieces (storePiece s a p (bytes.take p.len) atomic) a atomic rest (bytes.drop p.len)

/-- The control space answers an atomic with zero and ignores it (R397). -/
def inCtl (ps : List Piece) : Bool := ps.any (fun p => match p.place with | .ctl _ _ => true | _ => false)

/-! ### Atomics, `lr` and `sc` (R118, R119) -/

/-- The bytes at an atomic's place. -/
def atomicOld (s : State) (ps : List Piece) : Nat :=
  ofBytes (ps.flatMap (fun p => match p.place with | .cell key _ => cellReadN s.mem key p.len | _ => toBytes p.len 0))

/-- The reservation of a lane of the weave is held and covers the line (R119). -/
def holdsResv (s : State) (a : Acc) : Bool :=
  ((peekWeave s a.uid a.windex).map (fun w => w.resv.contains ⟨a.lane, iaLine a.ia⟩)).getD false

def dropResv (s : State) (a : Acc) : State :=
  updWeave s a.uid a.windex (fun w => { w with resv := w.resv.filter (fun r => r.lane != a.lane) })

/-- A `cas` that fails takes its place in the line's order (R118, R228; 05, the deque's table, step 6): the line and the
ply, or the gate of a far access, move to its timestamp, and nothing is written. It is an atomic to the line all the same:
reservations of others are cleared (R119). -/
def stampFailed (s0 : State) (a : Acc) (p : Piece) : State :=
  let lines := linesIn p.ia p.len
  let s := clearResv s0 lines (some (a.uid, a.windex, a.ply))
  match p.place with
  | .cell _ _ =>
    if isNear s a.src a.ia then
      let ts := storeTs s (ptsNow s a) lines true
      raisePts (stampOnly s p.ia p.len ts) a ts
    else
      let site := if iaNode p.ia == s.wafer then iaSite p.ia else 0
      let ts := storeTs s (findSite s site).gateTs lines true
      let s1 := stampOnly s p.ia p.len ts
      if iaNode p.ia == s.wafer then gateStamp s1 site ts else s1
  | _ => s

/-- An atomic at its home: the new state and the lane's result. Op codes 0 to 7 as R161, 8 `cas`, 9 `lr`,
10 `sc`. A failed `cas` orders like a load (R228). -/
def performAtomic (s : State) (a : Acc) (ps : List Piece) : State × DWord × Option Nat :=
  let t := Ty.ofCodeD a.type
  let bad := ps.findSome? (fun p => match p.place with | .cell key _ => poisonAt s a p key | _ => none)
  if inCtl ps then (s, 0#64, none)
  else if a.op == 10 then
    if holdsResv s a then
      (dropResv (storePieces s a true ps (toBytes a.n a.data.toNat)) a, 1#64, none)
    else (dropResv s a, 0#64, none)
  else
    let old := atomicOld s ps
    if a.op == 9 then
      let (s1, bytes, b) := loadPieces s { a with policy := 2 } ps
      (updWeave (dropResv s1 a) a.uid a.windex (fun w => { w with resv := w.resv ++ [⟨a.lane, iaLine a.ia⟩] }),
        BitVec.ofNat 64 (ofBytes bytes), b)
    else if a.op == 8 && old != a.cmp.toNat then
      (ps.foldl (fun acc p => stampFailed acc a p) s, BitVec.ofNat 64 old, bad)
    else
      let new := if a.op == 8 then a.data.toNat else amo a.op t old a.data.toNat
      (storePieces s { a with bad := a.bad || (bad.isSome && amoMixes a.op) } true ps (toBytes a.n new), BitVec.ofNat 64 old, bad)

/-! ### Performance at the home -/

/-- A host line that the access needs and that its caching agent, the issuer's site, does not hold (R100, R357); `only`
for one that only reads. -/
def hostLineWanted (s : State) (src : Nat) (only : Bool) (ps : List Piece) : Option (Nat × Nat) :=
  ps.findSome? (fun p =>
    match p.place with
    | .cell _ attr =>
      if attr == 3 && !s.hbHeld.contains (src, iaLine p.ia) && !(only && s.hbShared.contains (src, iaLine p.ia)) then some (src, iaLine p.ia) else none
    | _ => none)

/-- A read that meets a UC or DEV page makes the run ineligible, whatever the page was at its issue (R366). -/
def spoilUc (s : State) (uid : Nat) (ps : List Place) : State :=
  if ps.any (fun p => p.attr == 1 || p.attr == 2) then onAnyTeam s uid Team.spoil else s

/-- The access is performed: the state, the lane's value and the poison met. -/
def performAccess (s : State) (a : Acc) (ps : List Piece) : State × DWord × Option Nat :=
  if a.kind == 0 then
    let (s1, bytes, bad) := loadPieces (spoilUc s a.uid (ps.map (·.place))) a ps
    (if hasAcq false a.order then acquireAt s1 (coreOf s a.uid) else s1, BitVec.ofNat 64 (ofBytes bytes), bad)
  else if a.kind == 1 then
    let s1 := storePieces s a false ps (toBytes a.n a.data.toNat)
    (if hasAcq true a.order then acquireAt s1 (coreOf s a.uid) else s1, 0#64, none)
  else
    let (s1, x, bad) := performAtomic s a ps
    (if hasAcq false a.order then acquireAt s1 (coreOf s a.uid) else s1, x, bad)

/-- The answer of an access is back at its ply: an acknowledgement, or the lane's value. -/
def answered (s : State) (a : Acc) (x : DWord) (bad : Option Nat) : State :=
  if a.writes then dropAcc s a.id else deliver (dropAcc s a.id) a.uid a.windex a.tag a.lane x bad a.sh

/-- A performed access answers, or is acknowledged: at once on its own site, else by a packet of class 1 (R376). -/
def answerAccess (s : State) (a : Acc) (x : DWord) (bad : Option Nat) (from_ : Nat) : State :=
  if from_ == a.src then answered s a x bad
  else sendPacket (setAcc s { a with stage := .reply, data := x, cmp := BitVec.ofNat 64 ((bad.map (· + 1)).getD 0) }) from_ a.src 1 a.id a.ext

/-- The site at which an access is performed: its home, the site whose port it leaves by, or for host
memory the issuing site, whose slice is the caching agent. -/
def servedAt (s : State) (a : Acc) : Nat :=
  if iaNode a.ia == s.wafer then iaSite a.ia
  else if iaNode a.ia == 0xFFF then a.src
  else a.exit.getD ((distantPort s a.src (iaNode a.ia)).getD a.src)

/-! ### What must be performed first (R101, R105, R108, R111, R123, R226) -/

/-- Two accesses share a byte. -/
def Acc.meets (a b : Acc) : Bool := a.ia < b.ia + b.n && b.ia < a.ia + a.n

/-- The access is to a DEV page. -/
def Acc.dev (s : State) (a : Acc) : Bool := (place s (ctxMaster a.ctx) a.right a.src a.ia).1.attr == 2

/-- A replica load: R98 applies to it where the page's attribute lets it (R100), and it is in no order (R106). -/
def Acc.free (s : State) (a : Acc) : Bool :=
  a.replica && (let attr := (place s (ctxMaster a.ctx) a.right a.src a.ia).1.attr; attr == 0 || attr == 4)

/-- The earlier access b of the ply, not yet performed, comes first: they share bytes (R108 case 5, R114), which also
keeps the lanes of one store and of one uniform atomic in ascending order (R105, R226); neither is rlx and both are far
at one home site (case 2, R111) or both near (case 1), lanes of one instruction apart; or both go to one DEV page, which is no larger than 2 MiB (R101, R341). -/
def Acc.behind (s : State) (a b : Acc) : Bool :=
  a.meets b ||
  (!isRlx a.order && !isRlx b.order && a.tag != b.tag &&
    ((isFar s a.src a.ia && isFar s b.src b.ia && iaSite a.ia == iaSite b.ia) || (isNear s a.src a.ia && isNear s b.src b.ia))) ||
  (a.ia / 2 ^ 21 == b.ia / 2 ^ 21 && a.tag != b.tag && a.dev s && b.dev s)

/-- An earlier access of its ply holds the access back at its home. -/
def orderWaits (s : State) (a : Acc) : Bool :=
  !a.free s && s.accs.any (fun b => b.ofPly a.uid a.windex a.ply && b.id < a.id && b.open_ && !b.free s && a.behind s b)

/-- A byte as the youngest of the given stores writes it: the byte, and whether a plain store wrote it. -/
def youngest (stores : List (Nat × List Byte × Bool)) (ia : Nat) : Option (Byte × Bool) :=
  stores.foldl (fun acc (b, bytes, plain) =>
    if b ≤ ia && ia < b + bytes.length then (bytes[ia - b]?).map (fun x => (x, plain)) else acc) none

/-- All bytes of a read, when plain stores supply every one (R123). -/
def forwardAll (stores : List (Nat × List Byte × Bool)) (ia n : Nat) : Option (List Byte) :=
  (List.range n).foldr (fun k acc =>
    match youngest stores (ia + k), acc with
    | some (b, true), some bs => some (b :: bs)
    | _, _ => none) (some [])

def overlaps (stores : List (Nat × List Byte × Bool)) (ia n : Nat) : Bool :=
  stores.any (fun (b, bytes, _) => b < ia + n && ia < b + bytes.length)

/-- Logged stores as bytes; a logged reduction or remote operation supplies no value. -/
def storesOf (log : List LogEntry) : List (Nat × List Byte × Bool) :=
  log.map (fun e => (e.store.ia, e.store.bytes, e.store.op == 0))

/-- The ply's logged stores and remote operations before the access: of earlier instructions, and of earlier lanes of its
own, so that on one byte the higher lane's value stays (R105, R123). -/
def logBefore (s : State) (a : Acc) : List LogEntry := (plyLog s a.uid a.windex a.ply).filter (·.serial < a.id)

/-- R123 at the home, for an access that left its ply before an earlier store of it faulted: a load proceeds when it is
rlx and meets no logged byte; an atomic waits. -/
def logWaits (s : State) (a : Acc) : Bool :=
  let log := logBefore s a
  !log.isEmpty && !(a.kind == 0 && isRlx a.order && !overlaps (storesOf log) a.ia a.n)

/-- It waits at its home. -/
def holdAcc (s : State) (a : Acc) : State := setAcc s { a with stage := .held }

/-- The issuer's site asks the host for a line: the request travels the mesh to the host port and waits there (R357, R379). -/
def askHost (s : State) (a : Acc) : State :=
  match nearestHostPort s a.src with
  | none => setAcc s { a with stage := .host a.src, asked := true }
  | some p =>
    if p == a.src then setAcc s { a with stage := .host p, asked := true }
    else sendPacket (setAcc s { a with stage := .host p, asked := false }) a.src p 0 a.id false

/-- A distant access leaves by its port, with the data of a store or the operand of an atomic (R374, R418). -/
def leavePort (s : State) (a : Acc) : State :=
  if isDistant s a.ia && iaNode a.ia != 0xFFF then
    portOut s (servedAt s a) a.src a.ia a.ctx 3 (if a.kind == 0 then [] else toBytes a.n a.data.toNat)
  else s

/-- The access is performed where it stands, or fails there (R348), or waits for a host line (R357). -/
def tryHome (s : State) (a : Acc) : State :=
  match locate s (ctxMaster a.ctx) a.right a.src a.ia a.n with
  | .error e => faultAccess s a e
  | .ok ps =>
    let s1 := afterWalks s (ctxMaster a.ctx) a.right a.src a.ia a.n
    match hostLineWanted s a.src (a.kind == 0) ps with
    | some _ => askHost s1 a
    | none =>
      let (s2, x, bad) := performAccess (leavePort s1 a) a ps
      answerAccess s2 a x bad (servedAt s a)

/-- The page of an address is being flipped: new accesses wait at the home (R124, R358). -/
def flipping (s : State) (ctx ia : Nat) : Bool :=
  s.sites.any (fun x => (x.svHold.map (fun (c, lo, n) => c == ctx && lo ≤ ia && ia < lo + n)).getD false)

/-- The access stands at its home. A write goes into the log behind the earlier stores that stand there
(R123); a load that they supply in full is answered by them; other accesses wait for them, and for the earlier accesses
of the ply that come first. -/
def arriveHome (s : State) (a : Acc) : State :=
  if orderWaits s a || flipping s a.ctx a.ia then holdAcc s a
  else if a.writes then
    if (logBefore s a).isEmpty then tryHome s a
    else if logRoom s a.uid (logEntryOf a none).size then pushLog (dropAcc s a.id) (logEntryOf a none)
    else setAcc s { a with stage := .full s.cyc, since := s.cyc }
  else match (if a.kind == 0 then forwardAll (storesOf (logBefore s a)) a.ia a.n else none) with
    | some bytes => answerAccess s a (BitVec.ofNat 64 (ofBytes bytes)) none (servedAt s a)
    | none => if logWaits s a then holdAcc s a else tryHome s a

/-! ### The route (R379, R378) -/

/-- R379: the plane of a pair of source and line: that of an outstanding access of the pair, else by the
weights. An access is outstanding until its answer is back, a remote line from when it leaves the endpoint. `true` is the
external plane. -/
def choosePlane (s : State) (src ia : Nat) : Bool :=
  let h := iaSite ia
  let line := iaLine ia
  let remote := (s.remotes.filter (·.site == src)).findSome? (fun o =>
    (o.lines.find? (fun l => l.out && l.stage != .done && iaLine l.ia == line)).map (·.ext))
  match s.accs.find? (fun b => b.src == src && iaLine b.ia == line), remote with
  | some b, _ => b.ext
  | none, some e => e
  | none, none =>
    let x := findSite s src
    let y := findSite s h
    let we := (x.rsw.extractLsb' 40 8).toNat
    let wh := (x.rsw.extractLsb' 32 8).toNat
    let hmin := (x.rsw.extractLsb' 28 4).toNat
    let lsh := (x.rsw.extractLsb' 24 4).toNat
    let lm := min 1023 (meshLoad s src h)
    let lpH := (assoc? h x.heardLp).getD 0
    let cm := wh * hops src h + lm / 2 ^ lsh
    let ce := we + (x.lp + lpH) / 2 ^ lsh
    x.opctl.getLsbD 60 && y.opctl.getLsbD 60 && x.up && y.up && !x.heardDown.contains h &&
      x.mode == 1 && y.mode == 1 && hmin < hops src h && ce < cm

/-- The port by which a distant access leaves: that of an outstanding access of its pair, else the one that R418 chooses
(R115). -/
def exitPort (s : State) (src ia : Nat) : Option Nat :=
  let remote := (s.remotes.filter (·.site == src)).findSome? (fun o =>
    (o.lines.find? (fun l => l.out && l.stage != .done && iaLine l.ia == iaLine ia)).bind (·.exit))
  ((s.accs.findSome? (fun b => if b.src == src && iaLine b.ia == iaLine ia then b.exit else none)).orElse (fun _ => remote)).orElse
    (fun _ => distantPort s src (iaNode ia))

/-- The next gate sequence number of a ply towards a home site (R378); an rlx request carries 0. -/
def takeGseq (s : State) (a : Acc) : State × Nat :=
  if isRlx a.order then (s, 0)
  else
    let h := iaSite a.ia
    let n := ((peekPly s a.uid a.windex a.ply).bind (fun p => assoc? h p.gateSeq)).getD 0
    (updPly s a.uid a.windex a.ply (fun p => { p with gateSeq := assocSet h ((n + 1) % 65536) p.gateSeq }), n)

/-- The access leaves its ply: performed at once when near or in host memory, sent to the gate of its home
when far (class 2), or towards the port of its node (class 3). -/
def submitAccess (s : State) (a0 : Acc) : State :=
  let a := { a0 with id := s.nextId }
  let s := { s with nextId := s.nextId + 1 }
  if isFar s a.src a.ia && isSite (iaSite a.ia) then
    let ext := choosePlane s a.src a.ia
    let (s1, g) := takeGseq s a
    let b := { a with ext := ext, seq := g, gply := a.ply, stage := .mesh }
    sendPacket (setAcc s1 b) a.src (iaSite a.ia) 2 a.id ext
  else match (if isDistant s a.ia && iaNode a.ia != 0xFFF then exitPort s a.src a.ia else none) with
    | some p =>
      let b := { a with exit := some p, stage := .mesh }
      sendPacket (setAcc s b) a.src p 3 a.id false
    | none => arriveHome s a

end Sys2Proof.Machine
end

