-- ==== Sys2Proof/Machine/Agents.lean ====
section
/-!
DEFINITION. What the agents beside the cores share: the matrix engine, the copy engine and the network
endpoint (05 R106, R120; 12 R268, R274). Their addresses are translated under the windows in force at
issue, their accesses are checked as those of their team's context, and poison travels with data (19 R359).
-/

namespace Sys2Proof.Machine

open Sys2Proof

/-! ### Addresses -/

/-- R85 under windows that were in force at an issue. -/
def viaWindows (wins : List Window) (va : Nat) : Option Nat := (wins.find? (·.covers va)).map (·.toIa va)

/-- A byte range cut at line boundaries: first address and length of each piece. -/
def linePiecesOf (a n : Nat) : List (Nat × Nat) :=
  if n == 0 then []
  else (List.range ((a + n - 1) / 128 - a / 128 + 1)).map (fun k =>
    let lo := max a ((a / 128 + k) * 128)
    let hi := min (a + n) ((a / 128 + k + 1) * 128)
    (lo, hi - lo))

/-- The first byte of a range that fails to translate, or that lies above 2^56. -/
def windowMiss (wins : List Window) (a n : Nat) : Option Nat :=
  (linePiecesOf a n).findSome? (fun (x, _) => if (viaWindows wins x).isNone then some x else none)

/-- The cluster of the issuing team. -/
def clusterHere (s : State) : Cluster := findCluster s s.team.at_.site s.team.at_.cluster

/-- The windows of the issuing team's context. -/
def winsHere (s : State) : List Window := (findCtx s s.team.ctx).windows

/-! ### Memory -/

/-- A caching site gives up a host line: its cores keep no copy, and a queue or service ring whose tail is there reads it
again (R319, R351). -/
def giveUpLine (s : State) (site line : Nat) : State :=
  { s with
    sites := s.sites.map (fun x => if x.n == site && iaLine x.svtail.toNat == line then { x with svHeld := false } else x)
    hbHeld := s.hbHeld.filter (· != (site, line))
    hbShared := s.hbShared.filter (· != (site, line))
    queues := s.queues.map (fun q => if q.site == site && iaLine q.tail == line then { q with tailHeld := false } else q)
    cores := s.cores.map (fun c => if c.id.site == site then { c with l1 := c.l1.filter (·.line != line) } else c) }

/-- Every caching site but one gives up a host line. -/
def othersGiveUp (s : State) (site line : Nat) : State :=
  (distinct (((s.hbHeld ++ s.hbShared).filter (fun (n, l) => n != site && l == line)).map (·.1))).foldl
    (fun acc n => giveUpLine acc n line) s

/-- A caching site takes a host line, for reading only or alone. -/
def holdLine (s : State) (site line : Nat) (shared : Bool) : State :=
  let x := (site, line)
  if s.hbHeld.contains x then s
  else if shared then { s with hbShared := if s.hbShared.contains x then s.hbShared else s.hbShared ++ [x] }
  else
    let s1 := othersGiveUp s site line
    { s1 with hbHeld := s1.hbHeld ++ [x], hbShared := s1.hbShared.filter (· != x) }

/-- An agent beside the plies needs a host line that its site does not hold: its request and the host's grant fall into
its own step (R100, R357; log 94). A host's access to device memory needs none. -/
def takeHostLine (s : State) (m : Master) (src attr ia : Nat) (only : Bool) : State :=
  if attr != 3 || m.kind == 2 then s else holdLine s src (iaLine ia) only

/-- A master reads bytes of one line: the state, the bytes, and whether poison is among them. -/
def masterGet (s : State) (m : Master) (src ia n : Nat) : Except Failure (State × List Byte × Bool) :=
  match place s m rightR src ia with
  | (.fail h k l, _) => .error ⟨h, k, l, ia⟩
  | (.ctl site off, _) => .ok (s, toBytes n (if n == 8 && off % 8 == 0 then (ctlRead s site off).toNat else 0), false)
  | (.cell key attr, used) =>
    let (s1, bytes) := agentRead (takeHostLine (leaveDistant (cacheWalk s used) src ia m.ctx []) m src attr ia true) key ia n
    .ok (s1, bytes, (poisonIn s key n).isSome)

/-- A master writes bytes of one line; poisoned bytes poison their words. `sent`: they have left by their port already. -/
def masterPut (s : State) (m : Master) (src ia : Nat) (bytes : List Byte) (bad : Bool) (sent : Bool := false) : Except Failure State :=
  let n := bytes.length
  match place s m rightW src ia with
  | (.fail h k l, _) => .error ⟨h, k, l, ia⟩
  | (.ctl site off, _) => .ok (if n == 8 && off % 8 == 0 then ctlWrite s site off (BitVec.ofNat 64 (ofBytes bytes)) else s)
  | (.cell key attr, used) =>
    let s0 := if sent then cacheWalk s used else leaveDistant (cacheWalk s used) src ia m.ctx bytes
    let s1 := agentStore (takeHostLine s0 m src attr ia false) key ia bytes
    .ok (if bad then poisonWords s1 key n else s1)

/-- An agent reads or writes bytes of one line for a context. -/
def agentGet (s : State) (ctx src ia n : Nat) : Except Failure (State × List Byte × Bool) :=
  masterGet s (ctxMaster ctx) src ia n
def agentPut (s : State) (ctx src ia : Nat) (bytes : List Byte) (bad : Bool) (sent : Bool := false) : Except Failure State :=
  masterPut s (ctxMaster ctx) src ia bytes bad sent

/-- A read-modify-write of one element at its home by a master: the old value, and whether it holds poison (R226). An error
in the operand (`bad`), or in the old value where the new one is computed from it (`mixes`), stays in the word (R359). The
operand's bytes go with the packet to a distant address. -/
def masterRmw (s : State) (m : Master) (src ia n : Nat) (operand : Nat) (bad mixes : Bool) (f : Nat → Option Nat) : Except Failure (State × Nat × Bool) :=
  match place s m rightA src ia with
  | (.fail h k l, _) => .error ⟨h, k, l, ia⟩
  | (.ctl _ _, _) => .ok (s, 0, false)
  | (.cell key attr, used) =>
    let old := cellNat s.mem key n
    let was := (poisonIn s key n).isSome
    let s1 := takeHostLine (leaveDistant (cacheWalk s used) src ia m.ctx (toBytes n operand)) m src attr ia false
    match f old with
    | some x =>
      let s2 := agentStore s1 key ia (toBytes n x)
      .ok (if bad || (was && mixes) then poisonWords s2 key n else s2, old, was)
    | none => .ok ((agentRead (clearResv s1 (linesIn ia n) none) key ia n).1, old, was)

def agentRmw (s : State) (ctx src ia n : Nat) (operand : Nat) (bad mixes : Bool) (f : Nat → Option Nat) : Except Failure (State × Nat × Bool) :=
  masterRmw s (ctxMaster ctx) src ia n operand bad mixes f

/-- The pieces of a virtual range that an agent reads, one after another. -/
def agentGetAll (s : State) (ctx src : Nat) (wins : List Window) (va n : Nat) :
    Except Failure (State × List Byte × Bool) :=
  (linePiecesOf va n).foldl (fun acc (a, len) =>
    match acc with
    | .error e => .error e
    | .ok (s1, bs, bad) =>
      match agentGet s1 ctx src ((viaWindows wins a).getD 0) len with
      | .error e => .error e
      | .ok (s2, b2, bad2) => .ok (s2, bs ++ b2, bad || bad2)) (.ok (s, [], false))

/-- The same for a team's run, which a UC or DEV page makes ineligible (R366). -/
def teamGetAll (s : State) (uid ctx src : Nat) (wins : List Window) (va n : Nat) : Except Failure (State × List Byte × Bool) :=
  let ps := (linePiecesOf va n).map (fun (a, _) => (place s (ctxMaster ctx) rightR src ((viaWindows wins a).getD 0)).1)
  (agentGetAll s ctx src wins va n).map (fun (s1, bs, bad) => (spoilUc s1 uid ps, bs, bad))

/-- The pieces of a virtual range that an agent writes. A failure leaves all of them unwritten (R269: a copy that stops
does so at the boundary of an element). -/
def agentPutAll (s : State) (ctx src : Nat) (wins : List Window) (va : Nat) (bytes : List Byte) (bad : Bool)
    (sent : Bool := false) : State × Option Failure :=
  (linePiecesOf va bytes.length).foldl (fun (s1, e) (a, len) =>
    match e with
    | some _ => (s1, e)
    | none =>
      match agentPut s1 ctx src ((viaWindows wins a).getD 0) ((bytes.drop (a - va)).take len) bad sent with
      | .error e => (s, some e)
      | .ok s2 => (s2, none)) (s, none)

/-! ### A team's scratchpad claim -/

def teamScratch (s : State) (uid a n : Nat) : List Byte :=
  cellReadN (((peekTeam s uid).map (·.scratch)).getD []) a n

def teamScratchBad (s : State) (uid a n : Nat) : Bool :=
  (((peekTeam s uid).map (·.scratchPoison)).getD []).any (fun w => a / 4 ≤ w && w ≤ (a + n - 1) / 4)

/-- An agent's read of a claim takes its place in the order of the team's site (R109). -/
def readScratch (s : State) (uid a n : Nat) : State :=
  let site := (coreOf s uid).site
  let (s1, ts) := loadTs s (findSite s site).gateTs (localLines 2 uid 0 a n)
  gateStamp s1 site ts

/-- An agent writes bytes of a claim, in the order of the team's site; reservations on their lines are lost. -/
def putScratch (s0 : State) (uid a : Nat) (bytes : List Byte) (bad : Bool) : State :=
  let n := bytes.length
  let site := (coreOf s0 uid).site
  let names := localLines 2 uid 0 a n
  let ts := storeTs s0 (findSite s0 site).gateTs names false
  let s := gateStamp (stampLines s0 names ts) site ts
  let words := (List.range ((a + n - 1) / 4 + 1 - a / 4)).map (fun k => a / 4 + k)
  let lines := (linesIn a n).map (fun l => 2 ^ 64 + 2 * 2 ^ 57 + l)
  let clear (w : Weave) : Weave := { w with resv := w.resv.filter (fun r => !lines.contains r.line) }
  let s1 := updTeam s uid (fun t => { t with
    scratch := cellWriteN t.scratch a bytes
    scratchPoison :=
      let kept := t.scratchPoison.filter (fun w => !(a ≤ 4 * w && 4 * w + 4 ≤ a + n))
      if bad then distinct (kept ++ words) else kept
    weaves := t.weaves.map clear })
  if s1.focused && s1.team.uid == uid then { s1 with weave := clear s1.weave } else s1

/-! ### Faults of agents (R348, R349) -/

/-- How a fault record shows an agent that works for a team. -/
def agentRequester (s : State) (uid unit ctx acc : Nat) : Requester :=
  let (l, t) := teamIds s uid
  { unit := unit, ctx := ctx, acc := acc, lnum := l, tix := t, lanes := 0 }

/-! ### Events of a weave (R175, R176) -/

/-- The engine event of a weave: its latch is set; a team that is swapped out keeps it (R265). -/
def engineEvent (s : State) (uid windex : Nat) : State :=
  if (peekTeam s uid).isSome then updWeave s uid windex (fun w => { w with evEngine := true })
  else
    { s with launches := s.launches.map (fun l => { l with suspended := l.suspended.map (fun x =>
        if x.uid == uid then { x with evEngine := distinct (x.evEngine ++ [windex]) } else x) }) }

/-- A handle of a weave is no longer outstanding (R265). -/
def dropHandle (s : State) (uid windex h : Nat) : State :=
  if (peekTeam s uid).isSome then
    updWeave s uid windex (fun w => { w with handles := w.handles.filter (·.h != h) })
  else
    { s with launches := s.launches.map (fun l => { l with suspended := l.suspended.map (fun x =>
        if x.uid == uid then
          { x with handles := x.handles.map (fun (w, hs) => if w == windex then (w, hs.filter (·.h != h)) else (w, hs)) }
        else x) }) }

/-! ### What the commands of 0xE0 to 0xF7 wait for (R116, R120, R121) -/

/-- A `fence` of the ply is not yet complete: it holds back accesses, commands, launches and `mst` (R230). -/
def fenceOpen (s : State) : Bool := s.weave.pends.any (fun p => p.ply == s.ply.n && p.fence.isSome)

/-- No speculation is open, every access of the ply is performed and its log is empty: the accesses before the
command are then performed at every scope. -/
def commandReady (s : State) : Bool :=
  s.ply.fence.isNone && !fenceOpen s && (s.accs.filter (fun a => a.ofPly s.team.uid s.weave.windex s.ply.n && a.open_)).isEmpty &&
  (plyLog s s.team.uid s.weave.windex s.ply.n).isEmpty

/-- R366: a global read of an agent by a team under assay leaves the frozen ranges, or meets a UC or DEV
page. -/
def spoilRange (s : State) (va n : Nat) : State :=
  let plain := (linePiecesOf va n).all (fun (a, _) =>
    match viaWindows (winsHere s) a with
    | none => true
    | some ia =>
      let at_ := (place s (ctxMaster s.team.ctx) rightR s.team.at_.site ia).1.attr
      at_ != 1 && at_ != 2)
  if s.team.kernel.frozenRead va n && plain then s else spoil s

end Sys2Proof.Machine
end

