-- ==== Sys2Proof/Machine/Records.lean ====
section
/-!
DEFINITION. What graph processors write (12 R281; 17 R320, R322, R327; 18 R344 kind 4), and the states of a
launch's completion (19 R363, R364).
-/

namespace Sys2Proof.Machine

open Sys2Proof

/-! ### Writes that keep their order and wait at a home fault -/

/-- R410: the record of a launch's new state follows the write of that state. -/
def noteState (s : State) (w : RecWrite) : State :=
  match w.note, s.launches.find? (fun l => 2 * l.key == w.key) with
  | some new, some l => postErr s 0x0B l.ctx 0 0 l.lnum 0xFFFFFFFF new 0
  | _, _ => s

/-- The first write of its key that is outstanding and stands at no fault is performed; a failing home holds it. -/
def tryRecord (s : State) (w : RecWrite) : State :=
  match s.recWrites.find? (·.key == w.key) with
  | none => s
  | some h =>
    if h.id != w.id || w.fid.isSome then s
    else match masterPut s (graphMaster w.site w.ctx) w.site w.ia w.bytes false with
      | .ok s1 => noteState { s1 with recWrites := s1.recWrites.filter (·.id != w.id) } w
      | .error e =>
        let r : Requester := { unit := w.site * 1024, ctx := w.ctx, acc := 1, lnum := w.lnum, tix := 0xFFFFFFFF, lanes := 0 }
        let (s1, fid) := holdPending s e r (.record w.id)
        { s1 with recWrites := s1.recWrites.map (fun x => if x.id == w.id then { x with fid := some fid } else x) }

/-- Every outstanding write that may go on. -/
def pumpRecords (s : State) : State := s.recWrites.foldl tryRecord s

/-- Writes of one key in order. -/
def postRecord (s : State) (key site ctx lnum : Nat) (ws : List (Nat × List Byte)) (note : Option Nat := none) : State :=
  let new := ((List.range ws.length).zip ws).map (fun (k, ia, bytes) =>
    ({ id := s.nextId + k, key := key, site := site, ctx := ctx, ia := ia, bytes := bytes, lnum := lnum, note := note } : RecWrite))
  pumpRecords { s with nextId := s.nextId + ws.length, recWrites := s.recWrites ++ new }

/-- A cancelled write takes the later ones of its key with it; a completion record so lost has no later write (R281). -/
def dropRecord (s : State) (id : Nat) : State :=
  match s.recWrites.find? (·.id == id) with
  | none => s
  | some w => (s.recWrites.filter (fun x => x.key == w.key && w.id ≤ x.id)).foldl noteState { s with
      recWrites := s.recWrites.filter (fun x => x.key != w.key || x.id < w.id)
      launches := s.launches.map (fun l => if 2 * l.key == w.key then { l with crec := none } else l)
      graphs := s.graphs.map (fun g => if 2 * g.id == w.key then { g with crec := none } else g) }

/-! ### Completion states (R281, R364) -/

/-- The unit did work for a launch: its unit set and its last round (R363). -/
def noteWork (s : State) (launch unit : Nat) : State :=
  let site := unit / 1024
  onLaunch s launch (fun l => { l with
    units := if l.units.contains unit then l.units else l.units ++ [unit]
    lastRounds := assocSet site (findSite s site).round l.lastRounds })

/-- R364: both conditions of an assured completion. -/
def Launch.assured (s : State) (l : Launch) : Bool :=
  l.completed && !l.poisoned && !l.windowOpen && l.trials.isEmpty &&
  l.lastRounds.all (fun (site, r) => r + 2 ≤ (findSite s site).round)

/-- A provisional completion takes its final state: byte 0 of dword 1 of its record, and then record 0x0B (R364, R410). -/
def rewriteState (s : State) (l : Launch) (new : Nat) : State :=
  let s1 := onLaunch s l.key (fun l => { l with state := new })
  match l.crec with
  | none => postErr s1 0x0B l.ctx 0 0 l.lnum 0xFFFFFFFF new 0
  | some (_, d1) => postRecord s1 (2 * l.key) l.site l.ctx l.lnum [(d1, toBytes 1 new)] (some new)

/-- A launch whose completion is provisional becomes poisoned or assured when its time has come. -/
def settleLaunch (s : State) (key : Nat) : State :=
  match findLaunch s key with
  | none => s
  | some l =>
    if l.state != 1 then s
    else if l.poisoned then rewriteState s l 3
    else if Launch.assured s l then rewriteState s l 2
    else s

def poisonLaunch (s : State) (key : Nat) : State :=
  settleLaunch (onLaunch s key (fun l => if l.state == 2 then l else { l with poisoned := true })) key

def settleAll (s : State) : State := s.launches.foldl (fun acc l => settleLaunch acc l.key) s

end Sys2Proof.Machine
end

