-- ==== Sys2Proof/Machine/Operands.lean ====
section
/-!
DEFINITION. Operand forms: constants, registers, latch entries and immediates as sources (02 R41, R50,
R51; 06 R131, R133; 08 R165, R180; 09 R188, R190), source modifiers (06 R136, R137), and which
registers an instruction reads.
-/

namespace Sys2Proof.Machine

open Sys2Proof

/-! ### Constants and immediates -/

/-- All ones in w bits. -/
def onesW (w : Nat) : DWord := BitVec.ofNat 64 (2 ^ w - 1)

/-- 1.0 in a floating-point type, integer one elsewhere (R41, code 0xF8). -/
def oneOf (t : Ty) : DWord :=
  if t.isFloat || t.isFp8 then BitVec.ofNat 64 (fOne t.fmt) else 1#64

/-- The 32-bit immediate as an element of the type (R190). In the memory group an f64 immediate is the
sign-extended word (R218). -/
def immElem (t : Ty) (i : Word) (memory : Bool) : DWord :=
  match t with
  | .f64 => if memory then sext64 32 i.toNat
            else if i.extractLsb' 23 8 == 0xFF#8 then
              -- infinities and NaNs keep their bits: a signalling NaN stays one, as operand of the instruction (R60)
              i.extractLsb' 31 1 ++ 0x7FF#11 ++ i.extractLsb' 0 23 ++ 0#29
            else BitVec.ofNat 64 (roundRne fF64 (fF32.val i.toNat)).code
  | .b32 => BitVec.setWidth 64 i
  | .f32 => BitVec.setWidth 64 i
  | .f16 => zext64 16 i.toNat
  | .bf16 => zext64 16 i.toNat
  | .e4m3 => zext64 8 i.toNat
  | .e5m2 => zext64 8 i.toNat
  | _ => sext64 32 i.toNat &&& onesW t.width

/-- A constant code as a source of lane i (R41); 0xFB is the immediate. -/
def constLane (s : State) (f : Fields) (t : Ty) (memory : Bool) (c i : Nat) : DWord :=
  match c with
  | 0xF1 => 1#64
  | 0xF2 => BitVec.ofNat 64 i
  | 0xF3 => BitVec.setWidth 64 s.ply.mask
  | 0xF7 => onesW t.width
  | 0xF8 => oneOf t
  | 0xF9 => BitVec.ofNat 64 s.weave.windex
  | 0xFA => zext64 32 s.team.lix
  | 0xFB => immElem t f.imm32 memory
  | 0xFC => zext64 32 (cycHere s)
  | _ => 0#64

/-- R165: a scalar source. `m` is the active mask. -/
def scalarVal (s : State) (f : Fields) (m : LaneMask) (c : Nat) : DWord :=
  if isS c then ((sget s (c - 0xC0)).map (·.val)).getD 0#64
  else
    match c with
    | 0xF1 => 1#64
    | 0xF2 => BitVec.ofNat 64 (lowestLane m)
    | 0xF3 => BitVec.setWidth 64 s.ply.mask
    | 0xF7 => 0xFFFFFFFFFFFFFFFF#64
    | 0xF8 => 1#64
    | 0xF9 => BitVec.ofNat 64 s.weave.windex
    | 0xFA => zext64 32 s.team.lix
    | 0xFB => sext64 32 f.imm32.toNat
    | 0xFC => zext64 32 (cycHere s)
    | _ => 0#64

/-! ### Latch entries (R50, R51) -/

def latchNo (c : Nat) : Nat := c - 0xF4

/-- The window on entry N that the issuing ply opened, if it is open. -/
def latchWin (s : State) (c : Nat) : Option LatchWin :=
  s.weave.latches.find? (fun w => w.entry == latchNo c && w.ply == s.ply.n && 0 < w.left)

/-- The entry still holds the issuing ply's value. -/
def latchOwned (s : State) (c : Nat) : Bool :=
  !((latchWin s c).map (·.lost)).getD false &&
  match (findCore s s.team.at_).latchOwner.find? (fun (p, e, _) => p == s.weave.part && e == latchNo c) with
  | some (_, _, u, w, p) => u == s.team.uid && w == s.weave.windex && p == s.ply.n
  | none => false

/-- The present value of a pinned register: in the map under its physical number, else as last seen. -/
def pinnedLane (s : State) (w : LatchWin) (i : Nat) : DWord :=
  let half (k : Nat) (old : Word) : Word :=
    match w.ids[k]? with
    | none => 0#32
    | some id =>
      match s.weave.map.v.find? (fun r => (r.map (·.id)) == some id) with
      | some (some r) => lane r.lanes i
      | _ => old
  if w.scalar then
    match s.weave.map.s.find? (fun r => (r.map (·.id)) == w.ids[0]?) with
    | some (some r) => r.val
    | _ => lane w.snap i
  else half 1 ((lane w.snap i).extractLsb' 32 32) ++ half 0 ((lane w.snap i).extractLsb' 0 32)

/-! ### Vector sources -/

/-- Lane j of a register, latch, scalar or constant source, before any modifier; a pair when `wide`. -/
def rawLane (s : State) (f : Fields) (t : Ty) (memory wide : Bool) (c j : Nat) : DWord :=
  if isV c then
    let lo := ((vget s c).map (fun r => lane r.lanes j)).getD 0#32
    if wide then ((vget s (c + 1)).map (fun r => lane r.lanes j)).getD 0#32 ++ lo
    else BitVec.setWidth 64 lo
  else if isS c then ((sget s (c - 0xC0)).map (·.val)).getD 0#64
  else if isLatch c then
    match latchWin s c with
    | some w => if latchOwned s c then lane w.val j else pinnedLane s w j
    | none => 0#64
  else constLane s f t memory c j

/-- R137: the lane that lane i reads under a modifier. -/
def modLane (m : SrcMod) (i : Nat) : Nat :=
  let seg := 2 ^ m.lgs.toNat
  let base := i - i % seg
  match m.cls.toNat with
  | 0 => i
  | 1 => base + (i - base + m.dist.toNat) % seg
  | 2 => i ^^^ m.dist.toNat
  | _ => base + m.dist.toNat

/-- R137: absolute value and negation in an element type. In a floating-point type they touch the sign bit alone. -/
def modAbs (t : Ty) (x : DWord) : DWord :=
  let w := t.width
  let v := low w x.toNat
  if t.isFloat || t.isFp8 then x &&& ~~~(1#64 <<< (w - 1))
  else if t.isSigned then BitVec.ofNat 64 (wrapNat w (signed w v).natAbs)
  else BitVec.ofNat 64 v

def modNeg (t : Ty) (x : DWord) : DWord :=
  let w := t.width
  let v := low w x.toNat
  if t.isFloat || t.isFp8 then x ^^^ (1#64 <<< (w - 1))
  else BitVec.ofNat 64 (wrapNat w (-(signed w v)))

/-- `src(f, i)` of R151 for source field k (0 A, 1 B, 2 C) read as elements of t: the value after the
lane move, absolute value and negation, its low width bits. -/
def srcLane (s : State) (f : Fields) (t : Ty) (memory wide : Bool) (k i : Nat) : DWord :=
  let m := f.srcMod k
  let x := rawLane s f t memory wide (srcCode f k) (modLane m i)
  let y := if m.abs then modAbs t x else x
  if m.neg then modNeg t y else y

/-- Source field k as a lane vector of elements of type t. -/
def srcVec (s : State) (f : Fields) (t : Ty) (k : Nat) : WideVec :=
  tabulate (fun i => srcLane s f t false t.is64 k i)

/-- The type in which a single operand read as t delivers code c: all ones and 1.0 come in the instruction's type
(R41, R188), everything else, the immediate included, as an element of t (log 11). -/
def singleTy (f : Fields) (t : Ty) (c : Nat) : Ty := if c == 0xF7 || c == 0xF8 then tyOf f else t

/-- Source field k as a single register: bits [31:0] of each lane or of a scalar (R188). -/
def srcSingle (s : State) (f : Fields) (t : Ty) (k : Nat) : WideVec :=
  tabulate (fun i =>
    let m := f.srcMod k
    let c := srcCode f k
    let x := rawLane s f (singleTy f t c) false false c (modLane m i)
    let y := if m.abs then modAbs t x else x
    (if m.neg then modNeg t y else y) &&& 0xFFFFFFFF#64)

/-- Lane i of operand E read as a single register (R189, R206). -/
def extSingle (s : State) (f : Fields) (t : Ty) (i : Nat) : Nat :=
  low 32 (rawLane s f (singleTy f t f.e.toNat) false false f.e.toNat i).toNat

/-- Source field k as a register of packed elements of type t (R197, R202): the lane move moves whole lanes;
absolute value and negation act on each element (log 11). A constant is delivered in every lane as R41
gives it. -/
def packedVec (s : State) (f : Fields) (t : Ty) (k : Nat) : WideVec :=
  let md := f.srcMod k
  let w := t.width
  tabulate (fun i =>
    let x := rawLane s f t false false (srcCode f k) (modLane md i)
    let one (e : Nat) : Nat :=
      let v : DWord := BitVec.ofNat 64 (bits x.toNat (w * e + w - 1) (w * e))
      let y := if md.abs then modAbs t v else v
      (if md.neg then modNeg t y else y).toNat
    BitVec.ofNat 64 ((List.range (32 / w)).foldl (fun acc e => acc + one e * 2 ^ (w * e)) 0))

/-- The second operand y of the vector group (R190), as elements of type t. -/
def secondVec (s : State) (f : Fields) (t : Ty) : WideVec :=
  if is64Form f && f.b == 0xF0#8 then tabulate (fun _ => sext64 8 f.c.toNat &&& onesW t.width)
  else srcVec s f t 1

/-- The second operand y of the scalar group (R180). -/
def secondScalar (s : State) (f : Fields) (m : LaneMask) : DWord :=
  if is64Form f && f.b == 0xF0#8 then sext64 8 f.c.toNat else scalarVal s f m f.b.toNat

/-- A field that takes a vector register or a scalar source (R167): bits [31:0] of lane i. -/
def scalarOrLane (s : State) (f : Fields) (m : LaneMask) (c i : Nat) : Word :=
  if isV c then ((vget s c).map (fun r => lane r.lanes i)).getD 0#32
  else (scalarVal s f m c).setWidth 32

/-- The data that lane i of a memory instruction stores (R217, R218): field k, low 8n bits. -/
def dataLane (s : State) (f : Fields) (k i : Nat) : DWord :=
  rawLane s f (tyOf f) true (wideType f) (srcCode f k) i &&& onesW (tyOf f).width

/-! ### Which names an instruction reads -/

/-- The register codes that a field of kind k reads: a pair names both registers (R39). -/
def fieldNames (f : Fields) (k : Kind) (c : Nat) : List Nat :=
  if !k.readsAny then []
  else if isV c then (if k.isPair f then [c, c + 1] else [c])
  else if isS c then (if k == .spair then [c, c + 1] else [c])
  else []

/-- The codes read, in the order A, B, C, D, E, F. -/
def readNames (r : Row) (f : Fields) : List Nat :=
  fieldNames f r.a f.a.toNat ++ fieldNames f r.b f.b.toNat ++ fieldNames f r.c f.c.toNat ++
  (if r.d == .scalar then fieldNames f r.d f.d.toNat else []) ++
  fieldNames f r.e f.e.toNat ++ fieldNames f r.f f.f.toNat

/-- The codes that the destination D (and E, F of `qblk`) may write; mask register n is code 256 + n. -/
def writeNames (r : Row) (f : Fields) : List Nat :=
  let one (k : Kind) (c : Nat) : List Nat :=
    match k with
    | .vdst w | .vdstOpt w => if isV c then (if w.isPair f then [c, c + 1] else [c]) else []
    | .vsdst | .vinout => if isV c || isS c then [c] else []
    | .vsdstOpt => if isV c then (if wideType f then [c, c + 1] else [c]) else if isS c then [c] else []
    | .sdst | .sdstOpt => if isS c then [c] else []
    | .spair => [c, c + 1]
    | .kdst => [256 + c]
    | _ => []
  one r.d f.d.toNat ++ one r.e f.e.toNat ++ one r.f f.f.toNat

/-- The mask registers that an instruction reads, as codes 256 + n; k0 is not held by any result. -/
def maskNames (r : Row) (f : Fields) : List Nat :=
  let one (k : Kind) (c : Nat) : List Nat := if k == .ksrc then [256 + c] else []
  (256 + f.mask.toNat) :: (one r.a f.a.toNat ++ one r.b f.b.toNat ++ one r.c f.c.toNat)

/-- The registers that a latch source reads in place of its entry (R51): the names that hold them now. -/
def pinnedNames (s : State) (c : Nat) : List Nat :=
  match latchWin s c with
  | none => []
  | some w =>
    if latchOwned s c then []
    else if w.scalar then
      (List.range 48).filterMap (fun n => if ((sget s n).map (fun r => w.ids.contains r.id)).getD false then some (0xC0 + n) else none)
    else (List.range 192).filter (fun n => ((vget s n).map (fun r => w.ids.contains r.id)).getD false)

/-- The latch codes among the sources. -/
def latchNames (r : Row) (f : Fields) : List Nat :=
  (List.range 3).filterMap (fun k =>
    if (r.srcKind k).reads && isLatch (srcCode f k) then some (srcCode f k) else none) ++
  (if r.e.reads && isLatch f.e.toNat then [f.e.toNat] else [])

/-- A latch code whose value holds an uncorrectable error: the entry's, or that of the register read in its place (R359,
R360). -/
def latchPoisoned (s : State) (c : Nat) : Bool :=
  match latchWin s c with
  | none => false
  | some w =>
    if latchOwned s c then w.poison
    else (pinnedNames s c).isEmpty && w.poison

/-- A name is unmapped. -/
def isUnmapped (s : State) (c : Nat) : Bool :=
  if isV c then (vget s c).isNone else (sget s (c - 0xC0)).isNone

/-- A name holds an uncorrectable error (R359). -/
def isPoisoned (s : State) (c : Nat) : Bool :=
  if isV c then ((vget s c).map (·.poison)).getD false else ((sget s (c - 0xC0)).map (·.poison)).getD false

/-- The codes that an instruction reads through its latch sources and its names, of those that hold an error (R360). -/
def poisonedSources (s : State) (r : Row) (f : Fields) : List Nat :=
  (readNames r f ++ (latchNames r f).flatMap (pinnedNames s)).filter (isPoisoned s) ++ (latchNames r f).filter (latchPoisoned s)

end Sys2Proof.Machine
end

