-- ==== Sys2Proof/Machine/Issue.lean ====
section
/-!
DEFINITION. Issuing one instruction: the checks in the order of R162, the wait for pending results
(R23, R52), then the instruction's own effect, then R44's order: reads, unmapping by last-read bits,
writes; at last the program counter and the counts of R27, R50, R52 and R53. Every meaning of an
instruction is `issue` applied to its effect.
-/

namespace Sys2Proof.Machine

open Sys2Proof

/-- One register write of an instruction. -/
inductive Write where
  | v (n : Nat) (m : LaneMask) (vals : LaneVec)
  | pair (n : Nat) (m : LaneMask) (vals : WideVec)
  | s (n : Nat) (x : DWord)
  | k (n : Nat) (m x : LaneMask)
  deriving DecidableEq, Repr

/-- What the effect of an instruction answers: a precise trap with its record (nothing happens); a wait
at the instruction, in a state that may record an arrival; or its completion with the register writes,
the flags, and the address where the ply goes on when that is not the next instruction; or its
completion after which the ply is not ready (R173); or an uncorrectable error that it consumed (R360), with the IA of its word,
0 where it lies in no global memory. -/
inductive Result where
  | poison (info : DWord) (ia : Nat)
  | trap (code : Nat) (info : List DWord)
  | wait (w : Wait) (s : State)
  | done (s : State) (ws : List Write) (fl : Flags) (next : Option DWord)
  | doneWait (s : State) (after : Wait)
  deriving DecidableEq

/-! ### Writes and last-read bits (R44) -/

def applyWrite (s : State) (w : Write) : State :=
  match w with
  | .v n m vals => writeV s n m vals
  | .pair n m vals =>
    writeV (writeV s n m (tabulate (fun i => (lane vals i).setWidth 32))) (n + 1) m
      (tabulate (fun i => (lane vals i).extractLsb' 32 32))
  | .s n x => writeS s n x
  | .k n m x => writeK s n m x

def applyWrites (s : State) (ws : List Write) : State := ws.foldl applyWrite s

/-- The write with no value: what it allocates depends on the names alone. -/
def Write.blank : Write → Write
  | .v n m _ => .v n m []
  | .pair n m _ => .pair n m []
  | .s n _ => .s n 0#64
  | .k n m _ => .k n m 0#32

/-- R46: the writes would bring a map that grows above the kernel's peak. -/
def overPeak (s : State) (ws : List Write) : Bool :=
  let t := applyWrites s (ws.map Write.blank)
  (s.weave.map.vCount < t.weave.map.vCount && t.team.kernel.vpeak < t.weave.map.vCount) ||
  (s.weave.map.sCount < t.weave.map.sCount && t.team.kernel.speak < t.weave.map.sCount)

/-- The pools that the writes find empty, vector and scalar (R48): they need a new physical register of that kind,
and its pool has none left. -/
def poolsShort (s : State) (ws : List Write) : Bool × Bool :=
  let t := applyWrites s (ws.map Write.blank)
  (vPoolUse s < vPoolUse t && vPoolSize < vPoolUse t, sPoolUse s < sPoolUse t && sPoolSize < sPoolUse t)

/-- An evicted weave, admitted before the issuing one, draws on a pool from which the writes allocate, and the pools
can supply its whole need: it is refilled first (R48). -/
def refillFirst (s : State) (ws : List Write) : Bool :=
  let t := applyWrites s (ws.map Write.blank)
  let vec := vPoolUse s < vPoolUse t
  let scl := sPoolUse s < sPoolUse t
  let waits (k : Kernel) (w : Weave) : Bool :=
    w.evicted && !w.ended && w.admitted < s.weave.admitted && ((vec && w.part == s.weave.part) || scl) &&
    vPoolUseOf s w.part + (max k.vfloor (vHeld w w.plies) - k.vfloor) ≤ vPoolSize &&
    sPoolUse s + (max k.sfloor (sHeld w w.plies) - k.sfloor) ≤ sPoolSize
  (vec || scl) &&
    (s.team.weaves.any (waits s.team.kernel) ||
      s.teams.any (fun u => u.at_ == s.team.at_ && u.weaves.any (waits u.kernel)))

/-- R48: the writes wait for a pool: one has nothing left, or an evicted weave comes first. -/
def overPool (s : State) (ws : List Write) : Bool :=
  (poolsShort s ws).1 || (poolsShort s ws).2 || refillFirst s ws

/-- The codes that a write names. -/
def Write.codes : Write → List Nat
  | .v n _ _ => [n]
  | .pair n _ _ => [n, n + 1]
  | .s n _ => [0xC0 + n]
  | .k n _ _ => [256 + n]

/-- Source field k of the row as the register names its last-read bit unmaps (R44). -/
def lastReadNames (r : Row) (f : Fields) : List Nat :=
  (List.range 3).flatMap (fun k =>
    if f.lastRead k then fieldNames f (r.srcKind k) (srcCode f k) else [])

def unmapName (s : State) (c : Nat) : State := if isV c then unmapV s c else unmapS s (c - 0xC0)

/-- A last-read bit on a latch source closes that window (R51). -/
def closeLatches (s : State) (r : Row) (f : Fields) : State :=
  (List.range 3).foldl (fun acc k =>
    if f.lastRead k && (r.srcKind k).reads && isLatch (srcCode f k) then
      let left := acc.weave.latches.filter (fun w => !(w.entry == latchNo (srcCode f k) && w.ply == acc.ply.n))
      { acc with weave := { acc.weave with latches := left } }
    else acc) s

/-- The latch entry of a slot (R50). -/
def Slot.latch : Slot → Nat
  | .v => 0 | .m => 1 | .x => 2

/-- R50: the instruction holds a source into the entry of its slot; the value is that before any
modifier. Computed on the state in which the sources are read. -/
def holdWindow (s : State) (r : Row) (f : Fields) (entry : Nat) : Option LatchWin :=
  if f.hold == 0#2 then none
  else
    let k := f.hold.toNat - 1
    let c := srcCode f k
    let wide := (r.srcKind k).isPair f
    let val := tabulate (fun i => rawLane s f (tyOf f) false wide c i)
    let ids :=
      if isV c then ((vget s c).map (·.id)).toList ++ (if wide then ((vget s (c + 1)).map (·.id)).toList else [])
      else if isS c then ((sget s (c - 0xC0)).map (·.id)).toList
      else (latchWin s c).elim [] (·.ids)
    let from_ := if isLatch c then latchWin s c else none
    some { entry := entry, ply := s.ply.n, left := 2, ids := ids
           scalar := if isLatch c then (from_.map (·.scalar)).getD false else isS c
           val := val, snap := (from_.map (·.snap)).getD val
           poison := if isLatch c then (from_.map (·.poison)).getD false else isPoisoned s c }

/-- The windows of the ply count this instruction (R50). -/
def countLatches (s : State) : State :=
  { s with weave := { s.weave with latches := s.weave.latches.filterMap (fun w =>
      if w.ply == s.ply.n then (if w.left ≤ 1 then none else some { w with left := w.left - 1 }) else some w) } }

/-- The new window takes the place of an earlier one of the same ply on the entry, and the entry (R50, R51). -/
def openLatch (s : State) (slot : Slot) (w : Option LatchWin) : State :=
  match w with
  | none => s
  | some win =>
    let e := slot.latch
    let others := (s.weave.latches.filter (fun x => !(x.entry == e && x.ply == win.ply))).map (fun x =>
      if x.entry == e && 4 ≤ x.ply then { x with lost := true } else x)
    let s1 := { s with weave := { s.weave with latches := others ++ [win] } }
    let me := (s1.weave.part, e, s1.team.uid, s1.weave.windex, s1.ply.n)
    onCore s1 s1.team.at_ (fun c =>
      { c with latchOwner := me :: c.latchOwner.filter (fun x => !(x.1 == s1.weave.part && x.2.1 == e)) })

/-! ### After an issue -/

/-- A ply that has seen 32 instructions of other plies becomes due (R27). -/
def Ply.markDue (p : Ply) (step : Nat) : Ply :=
  if p.isReady && 32 ≤ p.passed && p.dueAt.isNone then { p with dueAt := some step } else p

/-- An instruction of another ply of the weave has issued: a ready ply counts it (R27). -/
def Ply.sawIssue (p : Ply) (step : Nat) : Ply :=
  if p.isReady then Ply.markDue { p with passed := p.passed + 1 } step else p

/-- The result is not written yet: one of class A or C has its clock (R156), every other one its step. -/
def Pend.live (p : Pend) (clk : Nat) : Bool := p.at_.all (clk < ·)

/-- The counts that an issued instruction moves: fairness and due order (R27), the issue time (R23), the
constrained sequence (R27), lookahead windows (R52), the volatile deferral (R53). `before` are the other plies at
issue: one that this instruction has created starts as if it had just issued (R169). A ply issues once in a clock. -/
def countIssue (before : List Ply) (s : State) : State :=
  { s with
    ply := { s.ply with wait := .none, lastIssue := s.steps, ready := true, passed := 0, dueAt := none
                        seqLeft := s.ply.seqLeft - 1, nextAt := s.clk + 1, readyAt := s.clk }
    weave := { s.weave with
      stalled := none
      plies := s.weave.plies.map (fun p => if before.any (·.n == p.n) then p.sawIssue s.steps else p)
      pends := (s.weave.pends.filter (·.live s.clk)).map (fun p =>
        if p.ply == s.ply.n && p.long then { p with left := p.left - 1 } else p)
      defer := s.weave.defer.map (fun d => { d with issued := d.issued + 1 }) } }

/-- The cycle at which a class writes its result, counted from the issue clock (R156); for an access of class G that is
no load, the earliest one. -/
def resultCycle (r : Row) (f : Fields) : Nat :=
  match latencyOf r f with
  | .w => 8
  | .p => 12
  | .t => if wideType f then 32 else 16
  | .e => 16
  | .g => 24
  | _ => 4

/-- The clocks for which a class holds its slot (R156). -/
def slotClocks (r : Row) (f : Fields) : Nat :=
  match latencyOf r f with
  | .w => 2
  | .p => 2
  | .t => if wideType f then 8 else 4
  | _ => 1

/-- A result is pending from its issue on, until its class writes it (R52, R156); a load's is already, until its data is
there. -/
def markPending (s : State) (r : Row) (f : Fields) (ws : List Write) : State :=
  let codes := ws.flatMap Write.codes
  let cls := latencyOf r f
  if codes.isEmpty || s.weave.pends.any (fun p => p.codes == codes) then s
  else
    let clocked := cls == .a || cls == .c
    { s with weave := { s.weave with
        pends := s.weave.pends ++ [{ tag := s.weave.nextTag, ply := s.ply.n, codes := codes,
                                     long := cls == .t || cls == .e || cls == .g, left := f.la.toNat, timed := !clocked
                                     due := s.clk + resultCycle r f, at_ := if clocked then some (s.clk + resultCycle r f) else none }]
        nextTag := s.weave.nextTag + 1 } }

/-- The rounding mode applies to the instruction (R135): not where the description ignores it, nor in a conversion pair
that R64 marks "none", which among the pairs of 0xA5 are those from an 8-bit type. -/
def modeApplies (r : Row) (f : Fields) : Bool := r.rounds && !(r.cvt && (srcTyOf f).isFp8)

/-- R63: after an instruction executed in mode sr each active lane's stochastic count rises by one. -/
def countSr (s : State) (r : Row) (f : Fields) (m : LaneMask) : State :=
  if modeApplies r f && f.rnd == 5 then
    { s with weave := { s.weave with srcnt := tabulate (fun i =>
        if inMask m i then s.weave.srcnt.getD i 0#32 + 1#32 else s.weave.srcnt.getD i 0#32) } }
  else s

/-- The ply stands at its instruction and is not ready; its count of R27 starts anew when it becomes ready. -/
def stand (s : State) (w : Wait) : State :=
  { s with ply := { s.ply with wait := w, lastTry := s.steps, ready := false, passed := 0, dueAt := none } }

/-- The ply stands at an allocation, and its weave with it (R48). -/
def stallAt (s : State) (short : Bool × Bool) : State :=
  let s1 := stand s .retry
  { s1 with weave := { s1.weave with stalled := some ⟨s.ply.n, short.1, short.2⟩ } }

/-- R366: the instruction reads `cyc` by operand 0xFC, which a run under assay may not. -/
def readsCyc (r : Row) (f : Fields) : Bool :=
  (List.range 3).any (fun k => (r.srcKind k).reads && srcCode f k == 0xFC) || (r.e.reads && f.e == 0xFC#8) ||
  (r.f.reads && f.f == 0xFC#8) || (r.d == .scalar && f.d == 0xFC#8)

def spoilCyc (s : State) (r : Row) (f : Fields) : State :=
  if readsCyc r f then { s with team := { s.team with eligible := false } } else s

/-- The state after step 2 of R44: names that a last-read bit gives are unmapped, latch windows closed. -/
def afterReads (s : State) (r : Row) (f : Fields) : State :=
  closeLatches ((distinct (lastReadNames r f)).foldl unmapName s) r f

/-! ### What fence checkpoints note (R55) -/

/-- The register codes that a write changes, with the lanes; mask registers are not renamed. -/
def Write.lanes : Write → List (Nat × LaneMask)
  | .v n m _ => [(n, m)]
  | .pair n m _ => [(n, m), (n + 1, m)]
  | .s n _ => [(0xC0 + n, 0xFFFFFFFF#32)]
  | .k _ _ _ => []

/-- The ply wrote or unmapped these names itself. -/
def FenceCkpt.noteOwn (c : FenceCkpt) (names : List (Nat × LaneMask)) : FenceCkpt :=
  { c with own := names.foldl (fun acc (k, m) => assocSet k ((assoc? k acc).getD 0#32 ||| m) acc) c.own }

/-- Another ply did; a scalar name then holds that ply's value (R19). -/
def FenceCkpt.noteOther (c : FenceCkpt) (names : List (Nat × LaneMask)) : FenceCkpt :=
  { c with others := distinct (c.others ++ names.map (·.1))
           own := c.own.filter (fun (k, _) => !(isS k && (names.map (·.1)).contains k)) }

/-- What the issuing ply wrote and unmapped is noted in the open checkpoints of the weave. -/
def noteNames (s : State) (names : List (Nat × LaneMask)) : State :=
  { s with
    ply := { s.ply with fence := s.ply.fence.map (·.noteOwn names) }
    weave := { s.weave with plies := s.weave.plies.map (fun p => { p with fence := p.fence.map (·.noteOther names) }) } }

/-- The names that an instruction writes or unmaps. -/
def notedNames (r : Row) (f : Fields) (ws : List Write) : List (Nat × LaneMask) :=
  (lastReadNames r f).map (fun c => (c, 0xFFFFFFFF#32)) ++ ws.flatMap Write.lanes

/-- An instruction that completes: the writes (R44 step 3), the flags, the counts, the latch window that it opens, and
the address where the ply goes on. `s0` is the state at issue. -/
def complete (s0 : State) (r : Row) (f : Fields) (a : DWord) (m : LaneMask)
    (s : State) (ws : List Write) (fl : Flags) (next : Option DWord) : State :=
  let s2 := noteNames (applyWrites (afterReads s r f) ws) (notedNames r f ws)
  let s3 := openLatch (countLatches (markPending (countSr (countIssue s0.weave.plies (spoilCyc (orFlags s2 fl) r f)) r f m) r f ws)) r.slot
    (holdWindow s0 r f r.slot.latch)
  -- the target of a taken transfer issues at cycle 6 at the earliest (R156)
  { s3 with ply := { s3.ply with pc := next.getD (afterPc a f), nextAt := s0.clk + (if r.cls == .c && next.isSome then 6 else 1) } }

/-- The state of the pools when the instruction writes: a register that it holds into the latch is pinned already, so
that a last-read bit on it frees nothing (R50). -/
def afterHold (s0 s : State) (r : Row) (f : Fields) : State :=
  openLatch (afterReads s r f) r.slot (holdWindow s0 r f r.slot.latch)

/-- Completion of an effect with the peak and pool checks (R46, R48), at which a trap or a stall returns to the state
at issue. Of several traps of R162's check 9 the peak comes last, for R162 leaves its place open (DESIGN CHOICE, log
106). -/
def finish (s0 : State) (r : Row) (f : Fields) (a : DWord) (m : LaneMask)
    (s : State) (ws : List Write) (fl : Flags) (next : Option DWord) : State :=
  if overPeak (afterReads s r f) ws then takeTrap s0 0x05 a [BitVec.setWidth 64 f.d] m
  else if overPool (afterHold s0 s r f) ws then stallAt s0 (poolsShort (afterHold s0 s r f) ws)
  else complete s0 r f a m s ws fl next

/-! ### Before an issue -/

/-- Pending results that the instruction reads or writes (R52), through a latch source too that reads its register
(R51). -/
def hazards (s : State) (r : Row) (f : Fields) : List Pend :=
  let names := readNames r f ++ writeNames r f ++ maskNames r f ++ (latchNames r f).flatMap (pinnedNames s)
  s.weave.pends.filter (fun p => p.live s.clk && p.codes.any names.contains)

/-- A lookahead window of the ply is used up (R52). -/
def windowClosed (s : State) : Bool := s.weave.pends.any (fun p => p.long && p.ply == s.ply.n && p.left == 0)

/-- Check 7 of R162 finds no fault: the fields are legal, and every latch source has an open window of
this ply (R51). Check 4 covers the prefix. -/
def prefixFine (op : Nat) (f : Fields) : Bool :=
  match f.pfx with
  | none => true
  | some p => prefixOk op p

def latchesFine (s : State) (r : Row) (f : Fields) : Bool :=
  (latchNames r f).all (fun c => (latchWin s c).isSome)

/-- The base word that a trap record shows (R301). -/
def baseWord (op : Nat) (f : Fields) : DWord :=
  f.variant ++ f.type ++ f.c ++ f.b ++ f.a ++ f.d ++ BitVec.ofBool f.msense ++ f.mask ++ f.lastrd ++
  f.hold ++ f.la ++ BitVec.ofNat 8 op ++
  (match f.ext with
   | .w64 => 0#2
   | .imm _ => 1#2
   | .mod _ _ _ => 1#2
   | .long _ _ _ _ _ _ _ _ => 2#2)

/-- Nothing holds the instruction back: it passes checks 4, 6 and 7, no pending result concerns it, its
sources are mapped and free of errors, and no trap is due at its issue. -/
def clearToIssue (s : State) (r : Row) (op : Nat) (f : Fields) : Bool :=
  s.ply.trapDue.isNone && prefixFine op f && (op < 0xF8 || atSystem s) && r.legal op f &&
  latchesFine s r f && !windowClosed s && (hazards s r f).isEmpty &&
  !(readNames r f).any (isUnmapped s) && (poisonedSources s r f).isEmpty

/-- A ply that takes a trap while it waits in the rendezvous latch arrives again when it re-executes its joint
instruction; the arrivals of the others stay (R247, log 97). -/
def withdrawArrival (s : State) : State :=
  { s with clusters := s.clusters.map (fun c =>
      if c.site == s.team.at_.site && c.phys == s.team.at_.cluster then
        { c with latch := c.latch.filter (fun a => !(a.uid == s.team.uid && a.windex == s.weave.windex && a.ply == s.ply.n)) }
      else c) }

/-- What happens at an instruction that is not clear to issue: the first of a due trap, checks 4, 6 and 7,
the wait for pending results, check 8, a consumed error. -/
def issueBlocked (s : State) (r : Row) (op : Nat) (f : Fields) (a : DWord) (m : LaneMask) : State :=
  match s.ply.trapDue with
  | some (code, info) => takeTrap (withdrawArrival s) code a [info] m
  | none =>
    if !prefixFine op f then takeTrap s 0x01 a [baseWord op f] m
    else if !(op < 0xF8 || atSystem s) then takeTrap s 0x02 a [baseWord op f] m
    else if !(r.legal op f && latchesFine s r f) then takeTrap s 0x01 a [baseWord op f] m
    else if windowClosed s then stand s .retry
    else if !(hazards s r f).isEmpty then
      -- R52: inside an open window of this ply the broken promise is recorded
      stand (if (hazards s r f).any (fun p => p.long && p.ply == s.ply.n) then orFlags s flLabr else s) .retry
    else match (readNames r f).find? (isUnmapped s) with
      | some c => takeTrap s 0x04 a [BitVec.ofNat 64 c] m
      | none =>
        match (poisonedSources s r f).head? with
        | some c => consumeError s (BitVec.ofNat 64 c)
        | none => stand s .retry

/-- What the answer of an effect at address a makes of the state at issue. -/
def settle (s : State) (r : Row) (f : Fields) (a : DWord) (m : LaneMask) (res : Result) : State :=
  match res with
  | .trap code info =>
    -- `trap n` is an instruction that issues: the windows and the counts see it (R50, R178)
    if code == 0x11 then takeTrap (countLatches (countIssue s.weave.plies s)) code (afterPc a f) info m
    else takeTrap s code a info m
  | .wait w s1 => stand s1 w
  | .poison info ia => consumeError s info ia
  | .done s1 ws fl next => finish s r f a m s1 ws fl next
  | .doneWait s1 w => stand (finish s r f a m s1 [] 0#7 none) w

/-- Issue of an instruction with the effect `body`, which gets the address, the active mask and the
state. -/
def issueRow (s : State) (r : Row) (op : Nat) (f : Fields)
    (body : DWord → LaneMask → State → Result) : State :=
  let a := s.ply.pc
  let m := activeLanes s f
  if clearToIssue s r op f then settle s r f a m (body a m s) else issueBlocked s r op f a m

/-- An instruction that has issued and has stood since then goes on with an answer; no check of its issue is made again. -/
def resume (i : Instr) (f : Fields) (m : LaneMask) (s : State) (res : Result) : State :=
  match rowOf i with
  | some r => settle s r f s.ply.pc m res
  | none => s

/-- Issue of an instruction that has a row; every meaning is this with its own effect. -/
def issue (i : Instr) (s : State) (body : Fields → DWord → LaneMask → State → Result) :
    Host.Outcome State Fault Refusal :=
  match rowOf i, fieldsOf i with
  | some r, some f => .next (issueRow s r (opcodeOf i) f (body f))
  | _, _ => .next s

/-! ### Shapes of effects -/

/-- Completion that only writes registers. -/
def Result.regs (s : State) (ws : List Write) (fl : Flags := 0#7) : Result := .done s ws fl none

/-- With no active lane nothing is performed and nothing is written (R129). -/
def whenActive (m : LaneMask) (s : State) (r : Result) : Result := if m == 0#32 then Result.regs s [] else r

/-- The write of a vector destination field d: a pair for a 64-bit type, discarded for 0xF0. -/
def vecWrite (d : BitVec 8) (wide : Bool) (m : LaneMask) (vals : WideVec) : List Write :=
  if !isV d.toNat then []
  else if wide then [.pair d.toNat m vals]
  else [.v d.toNat m (tabulate (fun i => (lane vals i).setWidth 32))]

/-- The write of a scalar destination field d, discarded for 0xF0. -/
def sclWrite (d : BitVec 8) (x : DWord) : List Write :=
  if isS d.toNat then [.s (d.toNat - 0xC0) x] else []

/-- The write of a mask destination field. -/
def maskWrite (d : BitVec 8) (m x : LaneMask) : List Write := [.k d.toNat m x]

end Sys2Proof.Machine
end

