-- ==== Sys2Proof/Machine/Lanes.lean ====
section
/-!
DEFINITION. What the memory instructions share (10 R213 to R218): resolved access fields (06 R139), address
modes (R214), the lane checks (R215), the waits that ordering and the side log ask for (05 R107, R108, R117,
R123), stack and scratch bytes (04 R88, R91, R92), and the start of a load (R216).
-/

namespace Sys2Proof.Machine

open Sys2Proof

/-! ### Resolved fields (R139) -/

structure Resolved where
  order : Nat
  scope : Nat
  space : Nat
  policy : Nat
  spec : Bool
  deriving DecidableEq, Repr

def memdefFields (s : State) : Resolved :=
  let d := memdefNow s
  { order := (d.extractLsb' 0 3).toNat, scope := (d.extractLsb' 3 2).toNat, space := (d.extractLsb' 5 2).toNat
    policy := (d.extractLsb' 7 3).toNat, spec := d.getLsbD 10 }

/-- R139: a prefix field that is not 0 overrides `memdef`; R159: a field that the opcode does not honour is
ignored and stands at its plain value. -/
def resolve (s : State) (op : Nat) (f : Fields) : Resolved :=
  let d := memdefFields s
  let p := f.pfx.getD ⟨0#2, 0#3, 0#3, 0#3, 0#3⟩
  let h := (honours op).getD ⟨false, false, false, false, false⟩
  let pick (on : Bool) (x def_ plain : Nat) : Nat := if !on then plain else if x != 0 then x - 1 else def_
  { order := if !h.order then 1 else if p.order != 0#3 then p.order.toNat else d.order
    scope := pick h.scope p.scope.toNat d.scope 0
    space := pick h.aspace p.aspace.toNat d.space 2
    policy := pick h.policy p.policy.toNat d.policy 0
    spec := h.spec && (if p.spec != 0#2 then p.spec == 2#2 else d.spec) }

/-! ### Addresses (R214, R219) -/

/-- The offset of R214. -/
def memOffset (f : Fields) : DWord :=
  match f.ext with
  | .imm i => if f.c == 0xFB#8 then sext64 32 i.toNat else 0#64
  | _ => sext64 8 f.c.toNat

/-- Field A names vector registers or a latch: lane mode (R214). -/
def laneMode (f : Fields) : Bool := !isS f.a.toNat

/-- Lane i of the address operand without its offset. -/
def addrBase (s : State) (f : Fields) (i : Nat) : DWord :=
  rawLane s f .i64 true (laneMode f) f.a.toNat i

/-- Bits [31:0] of lane i of a source field. -/
def low32 (s : State) (f : Fields) (c i : Nat) : Nat := (rawLane s f .n32 true false c i).toNat % 2 ^ 32

/-- The address of lane i in the modes of `ld` and `st`. -/
def addrMode (s : State) (f : Fields) (n i : Nat) : DWord :=
  addrBase s f i + memOffset f + (if f.variant.toNat % 4 == 0 then BitVec.ofNat 64 (i * n) else 0#64)

/-- The scratch offset of lane i in `lds` and `sts`. -/
def addrScratch (s : State) (f : Fields) (n i : Nat) : DWord :=
  if laneMode f then BitVec.ofNat 64 (low32 s f f.a.toNat i) + memOffset f else addrMode s f n i

/-- The address of the other instructions: lane or uniform by the kind of register. -/
def addrPlain (s : State) (f : Fields) (i : Nat) : DWord := addrBase s f i + memOffset f

/-- R219: base plus a scaled index plus the offset. -/
def addrIndexed (s : State) (f : Fields) (off : DWord) (i : Nat) : DWord :=
  let x := low32 s f f.b.toNat i
  let idx := if bit f.variant.toNat 0 then sext64 32 x else BitVec.ofNat 64 x
  addrBase s f i + idx * BitVec.ofNat 64 (2 ^ (f.variant.toNat / 2 % 8)) + off

/-- The active lanes with their addresses, ascending. -/
def laneAddrs (m : LaneMask) (addr : Nat → DWord) : List (Nat × DWord) := (lanesOf m).map (fun i => (i, addr i))

/-! ### The checks of R215 -/

/-- The trap of one lane, in the order of R215. -/
def laneTrap (s : State) (space n : Nat) (aligned : Bool) (i : Nat) (va : DWord) : Option (Nat × List DWord) :=
  let a := va.toNat
  let info := [va, BitVec.ofNat 64 i]
  if space != 2 && (2 ^ 56 ≤ a + n - 1 || (translate s s.team.ctx a).isNone ||
      (translate s s.team.ctx (a + n - 1)).isNone) then some (0x06, info)
  else if space == 1 && !(s.weave.stklim.toNat ≤ a && a + n ≤ s.weave.stkTop) then some (0x07, info)
  else if space == 2 && (2 ^ 32 ≤ a || s.team.kernel.claim < a + n) then some (0x08, info)
  else if aligned && a % n != 0 then some (0x09, info)
  else none

/-- The precise trap of the lowest-numbered failing lane. -/
def lanesTrap (s : State) (space n : Nat) (aligned : Bool) (lanes : List (Nat × DWord)) : Option (Nat × List DWord) :=
  lanes.findSome? (fun (i, va) => laneTrap s space n aligned i va)

/-! ### Accesses of the issuing ply -/

/-- The parts of a lane's access: bytes in one line, or in two (R105). Byte offset in the element, address and length. -/
def laneParts (va n : Nat) : List (Nat × Nat × Nat) := (linePieces va n).map (fun (a, len) => (a - va, a, len))

/-- The global addresses of the parts of every lane; each part is translated for itself (R85). -/
def partsOf (s : State) (n : Nat) (lanes : List (Nat × DWord)) : List (Nat × Nat) :=
  lanes.flatMap (fun (_, va) => (laneParts va.toNat n).map (fun (_, a, len) => ((translate s s.team.ctx a).getD 0, len)))

/-- A part of an access of the issuing ply; `lanes` are the instruction's lanes on its page (R349). -/
def mkAccess (s : State) (r : Resolved) (kind op type n tag i : Nat) (va data cmp : DWord)
    (all : List (Nat × DWord)) : Acc :=
  let ia := (translate s s.team.ctx va.toNat).getD 0
  { id := 0, uid := s.team.uid, windex := s.weave.windex, ply := s.ply.n, src := s.team.at_.site,
    unit := s.team.at_.unit, ctx := s.team.ctx, tag := tag, lane := i, kind := kind, va := va.toNat, ia := ia, n := n,
    data := data, cmp := cmp, op := op, type := type, order := r.order, scope := r.scope, policy := r.policy,
    spec := r.spec && s.ply.fence.isSome, replica := r.policy == 3 && kind == 0
    lanes := (all.filter (fun (_, v) => v.toNat / 65536 == va.toNat / 65536)).foldl (fun acc (j, _) => acc + 2 ^ j) 0 }

/-- The access of one lane as its parts. -/
def mkParts (s : State) (r : Resolved) (kind op type n tag i : Nat) (va data cmp : DWord)
    (all : List (Nat × DWord)) : List Acc :=
  (laneParts va.toNat n).map (fun (sh, a, len) =>
    { mkAccess s r kind op type len tag i (BitVec.ofNat 64 a) (data >>> (8 * sh)) cmp all with sh := sh })

def myAccs (s : State) : List Acc :=
  s.accs.filter (fun a => a.ofPly s.team.uid s.weave.windex s.ply.n && a.open_)

def myLog (s : State) : List LogEntry := plyLog s s.team.uid s.weave.windex s.ply.n

/-- R378: a ply holds at most 4,096 far requests outstanding to one home site. -/
def farFull (s : State) (ias : List Nat) : Bool :=
  let src := s.team.at_.site
  let far (h : Nat) (ia : Nat) : Bool := isFar s src ia && iaSite ia == h
  ias.any (fun ia => isFar s src ia &&
    4096 < (s.accs.filter (fun a => a.ofPly s.team.uid s.weave.windex s.ply.n && far (iaSite ia) a.ia)).length +
      (ias.filter (far (iaSite ia))).length)

/-- R107, R108: the ply's earlier accesses hold this one back: an open acquire, a release with anything open, two near
accesses. What else comes first waits at the home (`orderWaits`). `ias` are the global addresses, empty for a stack or
scratch access, which is near. Every ordering code orders as at the widest scope, which the rules allow at each scope (log
88). -/
def accessHold (s : State) (store : Bool) (order : Nat) (ias : List Nat) : Bool :=
  let opens := myAccs s
  let src := s.team.at_.site
  let near := ias.isEmpty || ias.any (isNear s src)
  opens.any (fun a => hasAcq a.writes a.order) ||
  (hasRel store order && (!opens.isEmpty || !(myLog s).isEmpty)) ||
  (!isRlx order && near && opens.any (fun a => isNear s src a.ia && !isRlx a.order)) ||
  farFull s ias

/-- What holds an access back at its issue: the ply's earlier accesses, or an open fence (R116). -/
def orderHold (s : State) (store : Bool) (order : Nat) (ias : List Nat) : Bool :=
  accessHold s store order ias || fenceOpen s

/-- Every earlier access of the ply is performed and its log is empty (R116, R121). -/
def allPerformed (s : State) : Bool := (myAccs s).isEmpty && (myLog s).isEmpty

/-- No speculation is open behind a `fence.spec` of the ply (R117). -/
def fenceClear (s : State) : Bool := s.ply.fence.isNone

/-! ### Queued stores (R117) -/

/-- The stores that wait behind the ply's `fence.spec`, in one space, as bytes at their addresses: an IA, or a local
address. -/
def queuedStores (s : State) (space : Nat) : List (Nat × List Byte × Bool) :=
  (((s.ply.fence.map (·.queued)).getD []).filter (·.space == space)).map (fun a =>
    (if space == 0 then a.ia else a.va, toBytes a.n a.data.toNat, true))

/-! ### Stack and scratch bytes (R88, R91, R92) -/

/-- The lines of the stack cache that a weave holds. -/
def Weave.stackLines (w : Weave) : List Nat := distinct (w.stack.map (·.1 / 128))

/-- The lines that stay: the topmost T × 16 bytes of the weave's stack, T in KiB (R92). -/
def Weave.guaranteed (w : Weave) (t line : Nat) : Bool := w.stkTop < 128 * line + 128 + t * 16 && 128 * line < w.stkTop

/-- The line that a weave spills next: the lowest one that is not guaranteed. -/
def Weave.spillLine (w : Weave) (t : Nat) : Option Nat :=
  ((w.stackLines.filter (fun l => !w.guaranteed t l)).foldl (fun acc l => match acc with
    | none => some l
    | some x => some (min x l)) none)

/-- Cells as runs of bytes, ascending: of one line each, and all poisoned or none (R359). -/
def cellRuns (bad : List Nat) (cells : List Host.Cell) : List (Nat × List Byte) :=
  let sorted := (distinct (cells.map (·.1 / 128))).flatMap (fun l =>
    (List.range 128).filterMap (fun k => (assoc? (128 * l + k) cells).map (fun b => (128 * l + k, b))))
  sorted.foldl (fun acc (va, b) =>
    match acc.getLast? with
    | some (a, bs) =>
      if va == a + bs.length && va / 128 == a / 128 && bad.contains (va / 4) == bad.contains (a / 4) then acc.dropLast ++ [(a, bs ++ [b])]
      else acc ++ [(va, [b])]
    | none => [(va, [b])]) []

/-- The cells of a run. -/
def runCells (va : Nat) (bytes : List Byte) : List Host.Cell := (List.range bytes.length).zipWith (fun k b => (va + k, b)) bytes

/-- Cells of a virtual address range go to memory, poisoned words as such (R359); those whose page fails are answered. -/
def putCells (s : State) (ctx src : Nat) (bad : List Nat) (cells : List Host.Cell) : State × List Host.Cell :=
  (cellRuns bad cells).foldl (fun (acc, left) (va, bytes) =>
    match (translate acc ctx va).map (fun ia => masterPut acc (ctxMaster ctx) src ia bytes (bad.contains (va / 4))) with
    | some (.ok s1) => (s1, left)
    | _ => (acc, left ++ runCells va bytes)) (s, [])

/-- One line of a weave goes to memory under the save budget, if its page takes it (R92, R337). -/
def spillOne (s : State) (t : Team) (w : Weave) (line : Nat) : Option State :=
  let cells := w.stack.filter (fun c => c.1 / 128 == line)
  if !mayUse s t.at_.site 5 (bytesUse 128) then none
  else match putCells s t.ctx t.at_.site w.stackBad cells with
  | (s1, []) => some (updWeave (spend s1 t.at_.site 5 (bytesUse 128)) t.uid w.windex (fun x =>
      { x with stack := x.stack.filter (fun c => c.1 / 128 != line), stackBad := x.stackBad.filter (fun k => k / 32 != line) }))
  | _ => none

/-- The weaves of a core, the issuing one first. -/
def coreStacks (s : State) (core : CoreId) : List (Team × Weave) :=
  (if s.focused && s.team.at_ == core then
    (s.team, s.weave) :: (s.team.weaves.filter (fun w => !w.ended)).map (fun w => (s.team, w)) else []) ++
  (s.teams.filter (·.at_ == core)).flatMap (fun t => (t.weaves.filter (fun w => !w.ended)).map (fun w => (t, w)))

/-- The lines in a core's stack cache. -/
def stackUse (s : State) (core : CoreId) : Nat :=
  ((coreStacks s core).map (fun (_, w) => w.stackLines.length)).foldl (· + ·) 0

/-- While the stack cache of a core, T KiB, holds more lines than it has room for, lines that are not
guaranteed spill (R92); a line whose page fails stays, and one for which the save budget has nothing left (log 17). -/
def trimLoop (core : CoreId) : Nat → State → State
  | 0, s => s
  | n + 1, s =>
    let t := (findCore s core).split.2.2
    if stackUse s core ≤ t * 8 then s
    else
      match (coreStacks s core).findSome? (fun (u, w) => (w.spillLine t).bind (spillOne s u w)) with
      | some s1 => trimLoop core n s1
      | none => s

def trimStacks (s : State) : State := trimLoop s.team.at_ (stackUse s s.team.at_) s

/-- The lines with bytes that the stack cache lacks, of n bytes at some addresses. -/
def missingLines (s : State) (vas : List Nat) (n : Nat) : List Nat :=
  distinct (vas.flatMap (fun va => ((List.range n).filter (fun k => (assoc? (va + k) s.weave.stack).isNone)).map (fun k => (va + k) / 128)))

/-- What the fill of those lines uses of the save class (R92). -/
def fillUse (s : State) (vas : List Nat) (n : Nat) : Use := bytesUse (128 * (missingLines s vas n).length)

/-- The save budget lets the lines fill now (R92, R337). -/
def mayFill (s : State) (vas : List Nat) (n : Nat) : Bool := mayUse s s.team.at_.site 5 (fillUse s vas n)

/-- The stack bytes that the cache lacks come from memory at their virtual addresses; the first failure at
a home is answered instead. -/
def fillStack (s : State) (va n : Nat) : Except (Failure × Nat) State :=
  (List.range n).foldl (fun acc k =>
    match acc with
    | .error e => .error e
    | .ok s1 =>
      if (assoc? (va + k) s1.weave.stack).isSome then .ok s1
      else
        let ia := (translate s1 s1.team.ctx (va + k)).getD 0
        match place s1 (ctxMaster s1.team.ctx) rightR s1.team.at_.site ia with
        | (.cell key attr, used) =>
          let s2 := takeHostLine (cacheWalk s1 used) (ctxMaster s1.team.ctx) s1.team.at_.site attr ia true
          let bad := if (poisonIn s2 key 1).isSome then distinct (s2.weave.stackBad ++ [(va + k) / 4]) else s2.weave.stackBad
          .ok { s2 with weave := { s2.weave with stack := s2.weave.stack ++ [(va + k, cellRead s2.mem key)], stackBad := bad } }
        | (.fail h kd l, _) => .error (⟨h, kd, l, ia⟩, va + k)
        | (.ctl _ _, _) => .ok { s1 with weave := { s1.weave with stack := s1.weave.stack ++ [(va + k, 0#8)] } })
    (.ok s)

def stackRead (s : State) (va n : Nat) : Nat :=
  ofBytes ((List.range n).map (fun k => (assoc? (va + k) s.weave.stack).getD 0#8))

/-- A poisoned word of the stack cache under n bytes (R359). -/
def stackBadIn (s : State) (va n : Nat) : Option Nat := s.weave.stackBad.find? (fun w => va / 4 ≤ w && w ≤ (va + n - 1) / 4)

/-- The line that a reservation on stack (1) or scratch (2) bytes names. -/
def localLine (space a : Nat) : Nat := 2 ^ 64 + space * 2 ^ 57 + a / 128

/-- A stack or scratch store clears the reservations on its lines, but for those of the ply's own lanes (R119). -/
def clearLocal (s : State) (space a n : Nat) : State :=
  let lines := (linesIn a n).map (fun l => localLine space (128 * l))
  { s with
    weave := { s.weave with resv := s.weave.resv.filter (fun r => !(lines.contains r.line && !inMask s.ply.mask r.lane)) }
    team := { s.team with weaves := s.team.weaves.map (fun w =>
      { w with resv := w.resv.filter (fun r => !lines.contains r.line) }) } }

/-- Local loads and stores of the issuing ply take their place among its site's near accesses (R106, R109). -/
def stampLoad (s : State) (space a n : Nat) : State :=
  let (s1, ts) := loadTs s (s.ply.aged s.cyc).pts (localLines space s.team.uid s.weave.windex a n)
  { s1 with ply := s1.ply.raisePts ts s1.cyc }

def stampStore (s : State) (space a n : Nat) (atomic : Bool) : State :=
  let names := localLines space s.team.uid s.weave.windex a n
  let ts := storeTs s (s.ply.aged s.cyc).pts names atomic
  let s1 := stampLines s names ts
  { s1 with ply := s1.ply.raisePts ts s1.cyc }

/-- A stack store clears the poison of the words that it covers in full (R359). -/
def stackWrite (s0 : State) (va : Nat) (bytes : List Byte) : State :=
  let n := bytes.length
  let s := clearLocal s0 1 va n
  trimStacks { s with weave := { s.weave with
    stack := ((List.range n).zip bytes).foldl (fun acc (k, b) => assocSet (va + k) b acc) s.weave.stack
    stackBad := s.weave.stackBad.filter (fun w => !(va ≤ 4 * w && 4 * w + 4 ≤ va + n)) } }

def scratchRead (s : State) (a n : Nat) : Nat := cellNat s.team.scratch a n

/-- A scratch store clears the poison of the words that it covers in full (R359). -/
def scratchWrite (s0 : State) (a : Nat) (bytes : List Byte) : State :=
  let n := bytes.length
  let s := clearLocal s0 2 a n
  { s with team := { s.team with
      scratch := cellWriteN s.team.scratch a bytes
      scratchPoison := s.team.scratchPoison.filter (fun w => !(a ≤ 4 * w && 4 * w + 4 ≤ a + n)) } }

def scratchBad (s : State) (a n : Nat) : Option Nat :=
  s.team.scratchPoison.find? (fun w => a / 4 ≤ w && w ≤ (a + n - 1) / 4)

/-- A poisoned word under n stack (1) or scratch (2) bytes. -/
def localBad (s : State) (space a n : Nat) : Option Nat := if space == 1 then stackBadIn s a n else scratchBad s a n

/-- A word of local bytes that was computed from an error holds it still (R359). -/
def poisonLocal (s : State) (space w : Nat) : State :=
  if space == 1 then { s with weave := { s.weave with stackBad := distinct (s.weave.stackBad ++ [w]) } }
  else { s with team := { s.team with scratchPoison := distinct (s.team.scratchPoison ++ [w]) } }

/-! ### Starting a load (R52, R216) -/

/-- The codes of a vector destination. -/
def dstCodes (d : BitVec 8) (wide : Bool) : List Nat :=
  if !isV d.toNat then [] else if wide then [d.toNat, d.toNat + 1] else [d.toNat]

/-- The load waits for its lanes; its destination is pending and is mapped now, its lanes written later. -/
def startLoad (s : State) (f : Fields) (a : DWord) (m : LaneMask) (type : Nat) (wide acq : Bool) (more : List Nat := [])
    (mem : Bool := false) : State × Nat :=
  let tag := s.weave.nextTag
  let codes := dstCodes f.d wide
  ({ s with weave := { s.weave with
      nextTag := tag + 1
      loads := s.weave.loads ++ [{ tag := tag, ply := s.ply.n, pc := a, dst := f.d.toNat, type := type, wide := wide,
                                   mask := m, data := List.replicate 32 none, more := more, acquire := acq, mem := mem }]
      pends := if codes.isEmpty then s.weave.pends
               else s.weave.pends ++ [{ tag := tag, ply := s.ply.n, codes := codes, long := true,
                                        left := f.la.toNat + 1, timed := false }] } }, tag)

/-- The destination of a started load keeps its lanes until the data is there (R216). -/
def mapOnly (f : Fields) (wide : Bool) : List Write := vecWrite f.d wide 0#32 (tabulate (fun _ => 0#64))

/-- Lanes' values, or parts of them, that are known at once. -/
def deliverHere (s : State) (tag i : Nat) (x : DWord) (bad : Option Nat) (sh : Nat := 0) : State :=
  deliver s s.team.uid s.weave.windex tag i x bad sh

end Sys2Proof.Machine
end

