-- ==== Sys2Proof/Machine/MemInstr.lean ====
section
/-!
DEFINITION. Loads, stores, atomics, reservations, fences and prefetch: opcodes 0xC0 to 0xC5, 0xCA to 0xD1
(10 R213 to R221, R226 to R231; 05 R105 to R123).
-/

namespace Sys2Proof.Machine

open Sys2Proof

/-- The element size in bytes. -/
def elemBytes (f : Fields) : Nat := (tyOf f).width / 8

/-! ### Loads -/

/-- A global load under assay that leaves the frozen ranges, or meets a UC or DEV page (R366). -/
def spoilRead (s : State) (va ia n : Nat) : State :=
  let plain := match locate s (ctxMaster s.team.ctx) rightR s.team.at_.site ia n with
    | .ok ps => ps.all (fun p => p.place.attr != 1 && p.place.attr != 2)
    | .error _ => true
  if s.team.kernel.frozenRead va n && plain then s else spoil s

/-- A replica that serves the load (R98). -/
def replicaValue (s : State) (a : Acc) : Option DWord :=
  if !a.free s then none
  else (s.replicas.find? (fun r => r.site == a.src && r.line == iaLine a.ia && r.launch == s.team.launch)).bind
    (fun r => if a.ia % 128 + a.n ≤ 128 then some (BitVec.ofNat 64 (ofBytes ((r.data.drop (a.ia % 128)).take a.n)))
              else none)

/-- Stores of the ply under way that would fail now: to its later loads they are faulting stores (R108 case 6, R123). -/
def failingStores (s : State) : List (Nat × List Byte × Bool) :=
  ((myAccs s).filter (fun a => a.writes && (match locate s (ctxMaster a.ctx) a.right a.src a.ia a.n with
    | .error _ => true
    | .ok _ => false))).map (fun a => (a.ia, toBytes a.n a.data.toNat, false))

/-- A store of the ply under way shares bytes with a range. -/
def storeUnderWay (s : State) (ia n : Nat) : Bool :=
  (myAccs s).any (fun a => a.writes && a.ia < ia + n && ia < a.ia + a.n)

/-- What the ply's own stores supply of a load in full (R117, R123): the queue of its `fence.spec`, or its log when no
store under way is younger. -/
def forwarded (s : State) (ia n : Nat) : Option (List Byte) :=
  match forwardAll (queuedStores s 0) ia n with
  | some bs => some bs
  | none => if storeUnderWay s ia n then none else forwardAll (storesOf (myLog s) ++ queuedStores s 0) ia n

/-- One part of a global lane of a load: forwarded, from a replica, or from its home. A replica load makes no copy
itself, as the rule leaves to the home; only `pref` makes one (R98; log 86). -/
def loadLane (s : State) (a : Acc) : State :=
  match forwarded s a.ia a.n with
  | some bytes => deliverHere s a.tag a.lane (BitVec.ofNat 64 (ofBytes bytes)) none a.sh
  | none =>
    match replicaValue s a with
    | some x => deliverHere s a.tag a.lane x none a.sh
    | none => submitAccess s a

/-- R123: the ply's log, or a store under way that fails, holds a load back; not one that it supplies in full, and not
an rlx load that meets none of its bytes. `parts` are the load's global parts, none for a local load. -/
def logHolds (s : State) (order : Nat) (parts : List (Nat × Nat)) : Bool :=
  let st := storesOf (myLog s) ++ failingStores s
  !st.isEmpty &&
  !(!parts.isEmpty && parts.all (fun (ia, n) => (forwarded s ia n).isSome)) &&
  !(isRlx order && parts.all (fun (ia, n) => !overlaps st ia n))

/-- R117: a load behind an incomplete `fence.spec` goes ahead only with its permit, never to a DEV page, and
not over part of a queued store. -/
def specHolds (s : State) (r : Resolved) (parts : List (Nat × Nat)) : Bool :=
  s.ply.fence.isSome &&
  (!r.spec || (s.ply.fence.map (·.done)).getD false ||
    parts.any (fun (ia, n) =>
      (match locate s (ctxMaster s.team.ctx) rightR s.team.at_.site ia n with
       | .ok ps => ps.any (fun p => p.place.attr == 2)
       | .error _ => false) ||
      (overlaps (queuedStores s 0) ia n && (forwardAll (queuedStores s 0) ia n).isNone)))

/-- The lanes whose bytes lie in two lines. -/
def splitLanes (n : Nat) (lanes : List (Nat × DWord)) : List Nat :=
  (lanes.filter (fun (_, va) => 1 < (laneParts va.toNat n).length)).map (·.1)

/-- The load's lanes leave the ply in ascending order (R218). -/
def issueLoads (f : Fields) (r : Resolved) (a : DWord) (m : LaneMask) (lanes : List (Nat × DWord)) (s : State) : State :=
  let n := elemBytes f
  let (s1, tag) := startLoad s f a m f.type.toNat (wideType f) (hasAcq false r.order) (splitLanes n lanes) true
  lanes.foldl (fun acc (i, va) =>
    let acc1 := spoilRead acc va.toNat ((translate acc acc.team.ctx va.toNat).getD 0) n
    (mkParts acc1 r 0 0 f.type.toNat n tag i va 0#64 0#64 lanes).foldl loadLane acc1) s1

/-- The load of every active lane from global memory (R218). -/
def globalLoad (f : Fields) (r : Resolved) (a : DWord) (m : LaneMask) (lanes : List (Nat × DWord)) (s : State) : Result :=
  let parts := partsOf s (elemBytes f) lanes
  if specHolds s r parts || logHolds s r.order parts || orderHold s false r.order (parts.map (·.1)) then .wait .retry s
  else Result.regs (issueLoads f r a m lanes s) (mapOnly f (wideType f))

/-- A read at issue that fails at its home waits in a pending entry, and the ply with it (R221). The record shows the
instruction's lanes on the page; a read that is of no lane, as that of R175, shows 0 (R349 does not say; DESIGN CHOICE, log 114). -/
def readFault (s : State) (e : Failure) (va : Nat) (all : List (Nat × DWord) := []) : State :=
  let a : Acc := mkAccess s { order := 1, scope := 0, space := 1, policy := 0, spec := false } 0 0 4 1
    s.weave.nextTag 0 (BitVec.ofNat 64 va) 0#64 0#64 all
  faultAccess { s with nextId := s.nextId + 1, weave := { s.weave with nextTag := s.weave.nextTag + 1 } }
    { a with id := s.nextId } e

/-- The stack bytes of every lane are in the weave's stack cache; else the first failure and its address (R92). -/
def fillLanes (lanes : List (Nat × DWord)) (n : Nat) (s : State) : Except (Failure × Nat) State :=
  lanes.foldl (fun acc (_, va) =>
    match acc with
    | .error e => .error e
    | .ok s1 => fillStack s1 va.toNat n) (.ok (spend s s.team.at_.site 5 (fillUse s (lanes.map (·.2.toNat)) n)))

/-- A local load behind a `fence.spec` goes ahead with its permit, and not over part of a queued store (R117). -/
def localSpecHolds (s : State) (r : Resolved) (space n : Nat) (lanes : List (Nat × DWord)) : Bool :=
  s.ply.fence.isSome &&
  (!r.spec || (s.ply.fence.map (·.done)).getD false || lanes.any (fun (_, va) =>
    overlaps (queuedStores s space) va.toNat n && (forwardAll (queuedStores s space) va.toNat n).isNone))

/-- A speculative local load is recorded with the timestamp that its lines carried (R117). -/
def recordLocal (s : State) (space a n : Nat) : State :=
  let seen := (localLines space s.team.uid s.weave.windex a n).map (fun l => (l, (tsOf s l).wts))
  { s with ply := { s.ply with fence := s.ply.fence.map (fun c => { c with lines := c.lines ++ seen }) } }

/-- A load whose lanes' bytes are at hand: its entry, with the value of each lane. With acq, the core's copies are older
than what the ply's next accesses must see (R107). -/
def localLoad (space : Nat) (f : Fields) (r : Resolved) (a : DWord) (m : LaneMask) (lanes : List (Nat × DWord))
    (value : State → Nat → Nat × Option Nat) (s : State) : State :=
  let n := elemBytes f
  let (s1, tag) := startLoad s f a m f.type.toNat (wideType f) (hasAcq false r.order)
  let s2 := if hasAcq false r.order then acquireAt s1 s1.team.at_ else s1
  lanes.foldl (fun acc (i, va) =>
    match forwardAll (queuedStores s space) va.toNat n with
    | some bytes => deliverHere acc tag i (BitVec.ofNat 64 (ofBytes bytes)) none
    | none =>
      let acc1 := stampLoad (recordLocal acc space va.toNat n) space va.toNat n
      deliverHere acc1 tag i (BitVec.ofNat 64 (value acc va.toNat).1) (value acc va.toNat).2) s2

/-- What holds a local load back. -/
def localHolds (s : State) (r : Resolved) (space n : Nat) (lanes : List (Nat × DWord)) : Bool :=
  localSpecHolds s r space n lanes || logHolds s r.order [] || orderHold s false r.order []

/-- The load from the weave's stack (R91, R92). -/
def stackLoad (f : Fields) (r : Resolved) (a : DWord) (m : LaneMask) (lanes : List (Nat × DWord)) (s : State) : Result :=
  let n := elemBytes f
  if localHolds s r 1 n lanes || !mayFill s (lanes.map (·.2.toNat)) n then .wait .retry s
  else
    match fillLanes lanes n s with
    | .error (e, va) => .wait .retry (readFault s e va lanes)
    | .ok s1 =>
      Result.regs (trimStacks (localLoad 1 f r a m lanes (fun s va => (stackRead s va n, stackBadIn s va n)) s1)) (mapOnly f (wideType f))

/-- The load from the team's scratchpad (R88). -/
def scratchLoad (f : Fields) (r : Resolved) (a : DWord) (m : LaneMask) (lanes : List (Nat × DWord)) (s : State) : Result :=
  let n := elemBytes f
  if localHolds s r 2 n lanes then .wait .retry s
  else
    Result.regs (localLoad 2 f r a m lanes (fun s va => (scratchRead s va n, scratchBad s va n)) s) (mapOnly f (wideType f))

/-- R218 for loads: checks, then the space's own load. -/
def loadBody (f : Fields) (r : Resolved) (addr : Nat → DWord) (a : DWord) (m : LaneMask) (s : State) : Result :=
  let lanes := laneAddrs m addr
  if m == 0#32 then Result.regs s []
  else match lanesTrap s r.space (elemBytes f) false lanes with
    | some (c, info) => .trap c info
    | none =>
      if r.space == 0 then globalLoad f r a m lanes s
      else if r.space == 1 then stackLoad f r a m lanes s
      else scratchLoad f r a m lanes s

def execLd (f : Fields) (s : State) : Host.Outcome State Fault Refusal :=
  issue (.ld f) s (fun f a m s => loadBody f (resolve s 0xC0 f) (addrMode s f (elemBytes f)) a m s)

def execLdx (f : Fields) (s : State) : Host.Outcome State Fault Refusal :=
  issue (.ldx f) s (fun f a m s => loadBody f (resolve s 0xC2 f) (addrIndexed s f (memOffset f)) a m s)

/-- R220: scratch space, order sc, scope team. -/
def scratchPlain : Resolved := { order := 1, scope := 0, space := 2, policy := 0, spec := false }

def execLds (f : Fields) (s : State) : Host.Outcome State Fault Refusal :=
  issue (.lds f) s (fun f a m s => loadBody f scratchPlain (addrScratch s f (elemBytes f)) a m s)

/-! ### Stores -/

/-- A lane's store to stack (1) or scratch (2) bytes. -/
def localStore (s : State) (space va : Nat) (bytes : List Byte) : State :=
  let s1 := if space == 1 then stackWrite s va bytes else scratchWrite s va bytes
  stampStore s1 space va bytes.length false

/-- A lane store of the issuing ply leaves it: to its local bytes, or, past the hook of an armed core (R316) and the
digest (R369), for an original run on its way to the home; a re-run performs nothing (R368). With acq the core's copies
are older than what the ply's next accesses must see (R107). -/
def releaseStore (s : State) (a : Acc) (hooked : Bool) : State :=
  if a.space != 0 then
    let s1 := localStore s a.space a.va (toBytes a.n a.data.toNat)
    if hasAcq true a.order then acquireAt s1 s1.team.at_ else s1
  else
    let (s1, data) := if hooked then hookStore s s.team a else (s, a.data)
    let s2 := { s1 with team := s1.team.cover a.va (if a.kind == 3 then 1 + a.op else 0) (toBytes a.n data.toNat) }
    if s2.team.run != .original then s2 else submitAccess s2 { a with data := data }

/-- Bytes that an instruction may add to the log: one entry for each part of a lane (R356). -/
def logNeed (parts : List (Nat × Nat)) : Nat := parts.foldl (fun acc (_, n) => acc + (16 + ceilDiv n 8 * 8)) 0

/-- Some lane of the instruction would enter the log now. -/
def logsNow (s : State) (right : Nat) (parts : List (Nat × Nat)) : Bool :=
  !(myLog s).isEmpty ||
  parts.any (fun (ia, n) => isNear s s.team.at_.site ia &&
    (match locate s (ctxMaster s.team.ctx) right s.team.at_.site ia n with
     | .error _ => true
     | .ok _ => false))

/-- The lanes of a store or reduction as accesses, ascending; they share the serial number of their instruction. -/
def laneStores (s : State) (r : Resolved) (kind op type n : Nat) (lanes : List (Nat × DWord)) (data : Nat → DWord) : List Acc :=
  lanes.flatMap (fun (i, va) => mkParts s r kind op type n s.weave.nextTag i va (data i) 0#64 lanes)

/-- The serial number of a store instruction is taken. -/
def takeSerial (s : State) : State := { s with weave := { s.weave with nextTag := s.weave.nextTag + 1 } }

/-- The lanes' stores leave the ply in ascending order. -/
def issueStores (accs : List Acc) (hooked : Bool) (s : State) : State :=
  accs.foldl (fun acc x => releaseStore acc x hooked) (takeSerial s)

/-- The stores wait behind the checkpoint of a `fence.spec` (R117). -/
def queueStores (accs : List Acc) (c : FenceCkpt) (s : State) : State :=
  let s1 := takeSerial s
  { s1 with ply := { s1.ply with fence := some { c with queued := c.queued ++ accs } } }

/-- Stores and reductions to global memory (R218, R228). -/
def globalStore (r : Resolved) (kind op type n : Nat) (hooked : Bool) (lanes : List (Nat × DWord))
    (data : Nat → DWord) (s : State) : Result :=
  let parts := partsOf s n lanes
  let accs := laneStores s r kind op type n lanes data
  match s.ply.fence with
  | some c => if kind == 1 && !fenceOpen s then Result.regs (queueStores accs c s) [] else .wait .retry s
  | none =>
    if orderHold s true r.order (parts.map (·.1)) then .wait .retry s
    else if logsNow s (if kind == 1 then rightW else rightA) parts && !logRoom s s.team.uid (logNeed parts) then
      .wait .retry s
    else Result.regs (issueStores accs hooked s) []

/-- The lanes' stores to stack or scratch bytes, ascending, so that the highest lane's byte stays (R105). -/
def localStores (space n : Nat) (lanes : List (Nat × DWord)) (data : Nat → DWord) (s : State) : State :=
  lanes.foldl (fun acc (i, va) => localStore acc space va.toNat (toBytes n (data i).toNat)) s

/-- The same stores as they wait behind a `fence.spec`. -/
def localQueue (s : State) (r : Resolved) (space n : Nat) (lanes : List (Nat × DWord)) (data : Nat → DWord) : List Acc :=
  lanes.map (fun (i, va) => { mkAccess s r 1 0 4 n s.weave.nextTag i va (data i) 0#64 [] with space := space })

/-- Stores to stack or scratch bytes. With acq (performed as acq-rel), the core's copies are older than what the ply's
next accesses must see (R107). -/
def localStoreBody (r : Resolved) (n : Nat) (lanes : List (Nat × DWord)) (data : Nat → DWord) (s : State) : Result :=
  match s.ply.fence with
  | some c => if fenceOpen s then .wait .retry s else Result.regs (queueStores (localQueue s r r.space n lanes data) c s) []
  | none =>
    if !(myLog s).isEmpty || orderHold s true r.order [] then .wait .retry s
    else
      let s1 := localStores r.space n lanes data s
      Result.regs (if hasAcq true r.order then acquireAt s1 s1.team.at_ else s1) []

/-- R218 for stores; on one byte the highest lane's data stays (R105). -/
def storeBody (f : Fields) (r : Resolved) (hooked : Bool) (addr data : Nat → DWord) (m : LaneMask) (s : State) : Result :=
  let lanes := laneAddrs m addr
  let n := elemBytes f
  if m == 0#32 then Result.regs s []
  else match lanesTrap s r.space n false lanes with
    | some (c, info) => .trap c info
    | none =>
      if r.space == 0 then globalStore r 1 0 f.type.toNat n hooked lanes data s else localStoreBody r n lanes data s

def execSt (f : Fields) (s : State) : Host.Outcome State Fault Refusal :=
  issue (.st f) s (fun f _ m s =>
    storeBody f (resolve s 0xC1 f) true (addrMode s f (elemBytes f)) (dataLane s f 1) m s)

def execStx (f : Fields) (s : State) : Host.Outcome State Fault Refusal :=
  issue (.stx f) s (fun f _ m s =>
    storeBody f (resolve s 0xC3 f) true (addrIndexed s f 0#64) (dataLane s f 2) m s)

def execSts (f : Fields) (s : State) : Host.Outcome State Fault Refusal :=
  issue (.sts f) s (fun f _ m s =>
    storeBody f scratchPlain false (addrScratch s f (elemBytes f)) (dataLane s f 1) m s)

/-! ### Atomics, `lr`, `sc` (R226 to R229) -/

/-- One lane of an atomic on stack or scratch bytes: the new state and the lane's result. It takes its place in the
site's order as an atomic (R118), a failed compare and `lr` as well; a failed `sc` performs nothing. -/
def localAtomic (s0 : State) (space op n : Nat) (t : Ty) (i : Nat) (va data cmp : DWord) : State × DWord :=
  let a := va.toNat
  let old := if space == 1 then stackRead s0 a n else scratchRead s0 a n
  let s := if op == 10 then s0 else if op == 9 then stampLoad s0 space a n else stampStore s0 space a n true
  let put (s : State) (x : Nat) : State := if space == 1 then stackWrite s a (toBytes n x) else scratchWrite s a (toBytes n x)
  let resv : Resv := ⟨i, localLine space a⟩
  let clear (s : State) : State := { s with weave := { s.weave with resv := s.weave.resv.filter (·.lane != i) } }
  if op == 10 then
    if s.weave.resv.contains resv then (clear (stampStore (put s data.toNat) space a n true), 1#64) else (clear s, 0#64)
  else if op == 9 then
    let s1 := clear s
    ({ s1 with weave := { s1.weave with resv := s1.weave.resv ++ [resv] } }, BitVec.ofNat 64 old)
  else if op == 8 then (if old == cmp.toNat then put s data.toNat else clearLocal s space a n, BitVec.ofNat 64 old)
  else
    let s1 := put s (amo op t old data.toNat)
    -- what is computed from an error holds it (R359)
    ((if amoMixes op then (localBad s0 space a n).map (poisonLocal s1 space) else none).getD s1, BitVec.ofNat 64 old)

/-- An atomic on stack bytes waits for the fills that it needs, which the save budget holds (R92). -/
def withStack (s : State) (space n : Nat) (lanes : List (Nat × DWord)) (go : State → Result) : Result :=
  if space != 1 then go s
  else if !mayFill s (lanes.map (·.2.toNat)) n then .wait .retry s
  else match fillLanes lanes n s with
    | .error (e, va) => .wait .retry (readFault s e va lanes)
    | .ok s1 => go s1

/-- The lanes of an atomic with a result are performed, or leave the ply, in ascending order. -/
def issueAtomics (f : Fields) (r : Resolved) (op resType : Nat) (resWide : Bool) (data cmp : Nat → DWord)
    (a : DWord) (m : LaneMask) (lanes : List (Nat × DWord)) (s : State) : State :=
  let n := elemBytes f
  let (s0, tag) := startLoad (spoil s) f a m resType resWide (hasAcq false r.order) [] (r.space == 0)
  let s1 := if r.space != 0 && hasAcq false r.order then acquireAt s0 s0.team.at_ else s0
  lanes.foldl (fun acc (i, va) =>
    if r.space == 0 then
      submitAccess acc (mkAccess acc r 2 op f.type.toNat n tag i va (data i) (cmp i) lanes)
    else
      let (acc1, x) := localAtomic acc r.space op n (tyOf f) i va (data i) (cmp i)
      deliverHere acc1 tag i x (if op == 10 then none else localBad acc r.space va.toNat n)) s1

/-- The access fields of an atomic: the policy and the permit do not count (R159). -/
def atomicFields (s : State) (opc : Nat) (f : Fields) : Resolved := { resolve s opc f with policy := 2, spec := false }

/-- Atomics with a result: one entry for each active lane, in ascending order; every lane takes what its own
entry read. -/
def atomicBody (f : Fields) (addr : Nat → DWord) (op opc : Nat) (resType : Nat) (resWide : Bool) (data cmp : Nat → DWord)
    (a : DWord) (m : LaneMask) (s : State) : Result :=
  let r := atomicFields s opc f
  let lanes := laneAddrs m addr
  let ias := if r.space == 0 then lanes.map (fun (_, va) => (translate s s.team.ctx va.toNat).getD 0) else []
  if m == 0#32 then Result.regs s []
  else match lanesTrap s r.space (elemBytes f) true lanes with
    | some (c, info) => .trap c info
    | none =>
      if !fenceClear s || !(myLog s).isEmpty || orderHold s false r.order ias || orderHold s true r.order ias then
        .wait .retry s
      else withStack s r.space (elemBytes f) lanes (fun s1 =>
        Result.regs (issueAtomics f r op resType resWide data cmp a m lanes s1) (mapOnly f resWide))

def execAtom (f : Fields) (s : State) : Host.Outcome State Fault Refusal :=
  issue (.atom f) s (fun f a m s =>
    atomicBody f (addrPlain s f) f.variant.toNat 0xCA f.type.toNat (wideType f) (dataLane s f 1) (fun _ => 0#64) a m s)

/-- `atom.cas` has no offset (R214, R217). -/
def execAtomCas (f : Fields) (s : State) : Host.Outcome State Fault Refusal :=
  issue (.atomCas f) s (fun f a m s =>
    atomicBody f (addrBase s f) 8 0xCB f.type.toNat (wideType f) (dataLane s f 2) (dataLane s f 1) a m s)

/-- `lr` opens a constrained sequence (R27, R119). -/
def execLr (f : Fields) (s : State) : Host.Outcome State Fault Refusal :=
  issue (.lr f) s (fun f a m s =>
    match atomicBody f (addrPlain s f) 9 0xCD f.type.toNat (wideType f) (fun _ => 0#64) (fun _ => 0#64) a m s with
    | .done s1 ws fl next => .done { s1 with ply := { s1.ply with seqLeft := 17 } } ws fl next
    | r => r)

/-- `sc` closes it; every lane's result is one 32-bit register, 1 for success (R229). -/
def execSc (f : Fields) (s : State) : Host.Outcome State Fault Refusal :=
  issue (.sc f) s (fun f a m s =>
    match atomicBody f (addrPlain s f) 10 0xCE 6 false (dataLane s f 1) (fun _ => 0#64) a m s with
    | .done s1 ws fl next => .done { s1 with ply := { s1.ply with seqLeft := 0 } } ws fl next
    | r => r)

/-- The lanes of a reduction on stack or scratch bytes; their operands are read in `s0`. -/
def localReductions (f : Fields) (r : Resolved) (lanes : List (Nat × DWord)) (s0 s : State) : State :=
  lanes.foldl (fun acc (i, va) =>
    (localAtomic acc r.space f.variant.toNat (elemBytes f) (tyOf f) i va (dataLane s0 f 1 i) 0#64).1) s

/-- R228: the operation without a result; it orders like a store and enters the log when it faults. -/
def execRed (f : Fields) (s : State) : Host.Outcome State Fault Refusal :=
  issue (.red f) s (fun f _ m s =>
    let r := atomicFields s 0xCC f
    let lanes := laneAddrs m (addrPlain s f)
    let n := elemBytes f
    if m == 0#32 then Result.regs s []
    else match lanesTrap s r.space n true lanes with
      | some (c, info) => .trap c info
      | none =>
        if r.space == 0 then globalStore r 3 f.variant.toNat f.type.toNat n false lanes (dataLane s f 1) s
        else if !fenceClear s || !(myLog s).isEmpty || orderHold s true r.order [] then .wait .retry s
        else withStack s r.space n lanes (fun s1 => Result.regs (localReductions f r lanes s s1) []))

/-! ### Fences (R116, R117, R230) -/

/-- A plain fence. When every earlier access is performed, the log is empty and no speculation is open, it is complete:
what the ply reads afterwards is no older. Otherwise it stays open, and while it does the ply's instructions that touch
no memory go on under the lookahead count (R230, R52); `LONG_LATENCY_RESULT_WRITE` completes it. -/
def plainFence (f : Fields) (s : State) : Result :=
  let s1 := { s with ply := { s.ply with rolled := 0 } }
  if fenceClear s && allPerformed s && !fenceOpen s then Result.regs (acquireAt s1 s1.team.at_) []
  else
    Result.regs { s1 with weave := { s1.weave with
      nextTag := s1.weave.nextTag + 1
      pends := s1.weave.pends ++ [{ tag := s1.weave.nextTag, ply := s1.ply.n, codes := [], long := true, left := f.la.toNat + 1,
                                    timed := false, fence := some s1.nextId }] } } []

def execFence (f : Fields) (s : State) : Host.Outcome State Fault Refusal :=
  issue (.fence f) s (fun f _ _ s => plainFence f s)

/-- `fence.spec` takes a checkpoint of the ply and goes on (R54, R117); behind an unreleased checkpoint of
its own, and after two roll-backs in succession, it is a plain `fence` (R55). -/
def execFenceSpec (f : Fields) (s : State) : Host.Outcome State Fault Refusal :=
  issue (.fenceSpec f) s (fun f a _ s =>
    if s.ply.fence.isSome || 2 ≤ s.ply.rolled then plainFence f s
    else
      let s1 := acquireAt s s.team.at_
      let c : FenceCkpt := { pc := a, mask := s.ply.mask, map := s.weave.map, scope := f.variant.toNat % 4
                             lines := [], queued := [], mark := s.nextId, tagMark := s.weave.nextTag }
      Result.regs { s1 with ply := { s1.ply with fence := some c } } [])

/-! ### Prefetch (R231) -/

/-- A line is brought into the core's L1 with a lease, as a load of the ply would (R109), under `stream` as the next
victim, or copied as a replica, which on an HB page acts as keep (R98, R100). A host line that the site does not hold is
left where it is: the prefetch asks the host for nothing. -/
def prefetchLine (s : State) (ia policy : Nat) : State :=
  let src := s.team.at_.site
  match place s (ctxMaster s.team.ctx) rightR src ia with
  | (.cell key attr, used) =>
    let s1 := cacheWalk s used
    if attr == 1 || attr == 2 || flipping s s.team.ctx ia then s
    else if attr == 3 && !s.hbHeld.contains (src, iaLine ia) && !s.hbShared.contains (src, iaLine ia) then s
    else if policy == 3 && attr != 3 then
      if s.replicas.any (fun r => r.site == src && r.line == iaLine ia && r.launch == s.team.launch) then s1
      else { s1 with replicas := s.replicas ++
        [{ site := src, line := iaLine ia, launch := s.team.launch, data := cellReadN s.mem (key - ia % 128) 128 }] }
    else if isNear s src ia && policy != 2 then
      (l1Read s1 s.team.at_ (s.ply.aged s.cyc).pts key ia 1 attr policy).1
    else s1
  | _ => s

/-- `pref` raises nothing: a lane that misses, leaves the stack region or faults is dropped. -/
def prefetchLane (s : State) (r : Resolved) (va : DWord) : State :=
  if r.space == 2 || (laneTrap s r.space 1 false 0 va).isSome then s
  else if r.space == 1 then
    let base := va.toNat / 128 * 128
    let lo := max base s.weave.stklim.toNat
    let hi := min (base + 128) s.weave.stkTop
    if !mayFill s [lo] (hi - lo) then s
    else match fillStack (spend s s.team.at_.site 5 (fillUse s [lo] (hi - lo))) lo (hi - lo) with
    | .ok s1 => trimStacks s1
    | .error _ => s
  else prefetchLine s ((translate s s.team.ctx va.toNat).getD 0) r.policy

def execPref (f : Fields) (s : State) : Host.Outcome State Fault Refusal :=
  issue (.pref f) s (fun f _ m s =>
    let r := resolve s 0xD1 f
    Result.regs ((laneAddrs m (addrPlain s f)).foldl (fun acc (_, va) => prefetchLane acc r va) s) [])

end Sys2Proof.Machine
end

