-- ==== Sys2Proof/Machine/Formats.lean ====
section
/-!
DEFINITION. The 32 operand formats of the matrix engine and of block quantisation (03 R68 to R74), the
selection of a block scale and the quantisation of an element (R78 to R80).
-/

namespace Sys2Proof.Machine

open Sys2Proof

/-! ### Elements and scales -/

/-- How an element's code is read: a floating-point layout, or an integer of a width times 2^unit. -/
inductive Elem where
  | fl (f : FloatFmt)
  | int (w : Nat) (sgn : Bool) (unit : Int)
  deriving DecidableEq, Repr

inductive BlockScale where
  | none | e8m0 | e3m5
  deriving DecidableEq, Repr

/-- A row of the table of R68. -/
structure MFmt where
  elem : Elem
  L : Nat := 0
  blk : BlockScale := .none
  band : Bool := false
  tensor : Bool := false
  deriving DecidableEq, Repr

def mfmt (code : Nat) : MFmt :=
  match code with
  | 0 => { elem := .fl fF64 }
  | 1 => { elem := .fl fF32 }
  | 2 => { elem := .fl fF32 }
  | 3 => { elem := .fl fF32 }
  | 4 => { elem := .fl fBF16 }
  | 5 => { elem := .fl fF16 }
  | 6 => { elem := .fl fE4M3 }
  | 7 => { elem := .fl fE5M2 }
  | 8 => { elem := .fl fE3M2 }
  | 9 => { elem := .fl fE2M3 }
  | 10 => { elem := .fl fE2M1 }
  | 11 => { elem := .int 16 true 0 }
  | 12 => { elem := .int 8 true 0 }
  | 13 => { elem := .int 8 false 0 }
  | 14 => { elem := .int 4 true 0 }
  | 15 => { elem := .int 4 false 0 }
  | 16 => { elem := .fl fE4M3, L := 32, blk := .e8m0 }
  | 17 => { elem := .fl fE5M2, L := 32, blk := .e8m0 }
  | 18 => { elem := .fl fE3M2, L := 32, blk := .e8m0 }
  | 19 => { elem := .fl fE2M3, L := 32, blk := .e8m0 }
  | 20 => { elem := .fl fE2M1, L := 32, blk := .e8m0 }
  | 21 => { elem := .int 8 true (-6), L := 32, blk := .e8m0 }
  | 22 => { elem := .fl fE2M1, L := 8, blk := .e3m5, band := true }
  | 23 => { elem := .fl fE2M1, L := 8, blk := .e3m5 }
  | 24 => { elem := .fl fE3M2, L := 16, blk := .e3m5, band := true }
  | 25 => { elem := .fl fE4M3, L := 16, blk := .e3m5, band := true }
  | 26 => { elem := .int 4 true 0, L := 8, blk := .e3m5, band := true }
  | 27 => { elem := .int 8 true 0, L := 16, blk := .e3m5, band := true }
  | 28 => { elem := .int 32 true 0 }
  | 29 => { elem := .fl fE4M3, tensor := true }
  | 30 => { elem := .fl fE5M2, tensor := true }
  | _ => { elem := .fl fE2M1, tensor := true }

def Elem.width : Elem → Nat
  | .fl f => f.width
  | .int w _ _ => w

/-- The number that an element code denotes. -/
def Elem.val (e : Elem) (b : Nat) : Num :=
  match e with
  | .fl f => f.val b
  | .int w sgn unit => (Num.ofInt (if sgn then signed w b else (low w b : Int))).scale unit

/-- R71: an E8M0 or E3M5 scale byte; without a block scale it is 1. -/
def BlockScale.val (k : BlockScale) (b : Nat) : Num :=
  match k with
  | .none => Num.one
  | .e8m0 => if b == 0xFF then .nan else .fin false 1 ((b : Int) - 127)
  | .e3m5 =>
    if b == 0xFF then .nan
    else if b / 32 == 0 then .fin false (b % 32) (-7)
    else .fin false (32 + b % 32) ((b / 32 : Nat) - 8 : Int)

/-- R72: the exact value of a scaled element. The sign of a zero is that of IEEE multiplication: under a negative band or
tensor scale it is the opposite of the element's (log 92). -/
def scaled (x scale other : Num) : Num := (x.mul scale).mul other

/-! ### Choosing a scale (R79) -/

/-- The largest magnitude of the elements, emax of R79. -/
def Elem.emax (e : Elem) : Num :=
  match e with
  | .fl f => f.val f.maxCode
  | .int w sgn unit => (Num.ofInt (if sgn then (2 ^ (w - 1) : Nat) - 1 else (2 ^ w : Nat) - 1)).scale unit

/-- p of R79: the exponent of the element's largest binade. -/
def Elem.p (e : Elem) : Int :=
  match e with
  | .fl f => f.emax
  | .int _ _ _ => 0

/-- floor(log2 x) of a positive number. -/
def floorLog2 : Num → Int
  | .fin _ m e => e + (bitLen m : Int) - 1
  | _ => 0

/-- The least E3M5 code whose value is not below q = amax / d; 0xFE above 31. -/
def e3m5Up (amax d : Num) : Nat :=
  ((List.range 255).find? (fun c => !((BlockScale.e3m5.val c).mul d).lt amax)).getD 0xFE

/-- The E3M5 code nearest to q, ties to the even code. -/
def e3m5Near (amax d : Num) : Nat :=
  let hi := e3m5Up amax d
  if hi == 0 then 0
  else
    let top := (BlockScale.e3m5.val hi).mul d
    let mid := Num.sumWith false [(BlockScale.e3m5.val (hi - 1)).mul d, top]
    let two := amax.scale 1
    if top.lt amax then hi
    else if two.lt mid then hi - 1
    else if mid.lt two then hi
    else if hi % 2 == 0 then hi else hi - 1

/-- The exponent of the smallest power of two that is not below q. -/
def ceilLog2Quot (amax d : Num) : Int :=
  let k := floorLog2 amax - floorLog2 d
  if (d.scale (k - 1)).lt amax then (if (d.scale k).lt amax then k + 1 else k) else k - 1

/-- R79: the scale byte of a block with largest magnitude amax > 0 and previous count u under band B. -/
def chooseScale (m : MFmt) (amax band : Num) (u : Nat) : Nat :=
  let d := m.elem.emax.mul band
  match m.blk with
  | .e8m0 =>
    let k := if u == 0 then floorLog2 amax - m.elem.p else ceilLog2Quot amax d
    (max (-127) (min 127 k) + 127).toNat
  | _ => if u == 0 then e3m5Near amax d else e3m5Up amax d

/-! ### Quantising an element (R80, R211) -/

/-- The quotient of a value by scale and band, rounded and clamped: the element's code and the flags nx and
sat of R211. `x`, `sc` and `band` are finite, x and sc not zero. -/
def quantElem (e : Elem) (r : RndCtx) (x sc band : Num) : Rounded :=
  let d := sc.mul band
  let q := x.quot d
  match e with
  | .fl f =>
    let out := roundNum f r.mode true r.h q
    ⟨out.code, (out.flags &&& flNx) ||| (if (e.emax.mul d).lt x.abs then flSat else 0#7)⟩
  | .int w _ unit =>
    match q with
    | .fin neg m k =>
      let (n, nx) := roundInt r.mode r.h neg m (k - unit)
      let lo : Int := -(2 ^ (w - 1) : Nat)
      let hi : Int := (2 ^ (w - 1) : Nat) - 1
      let past := (((Num.ofInt hi).scale unit).mul d).lt x || x.lt (((Num.ofInt lo).scale unit).mul d)
      ⟨wrapNat w (max lo (min hi n)), (if nx then flNx else 0#7) ||| (if past then flSat else 0#7)⟩
    | _ => ⟨0, 0#7⟩

/-- The delivered element is a zero (R78). -/
def Elem.isZero (e : Elem) (b : Nat) : Bool := (e.val b).isZero

/-- A zero of the element with a sign. -/
def Elem.zero (e : Elem) (neg : Bool) : Nat :=
  match e with
  | .fl f => f.signed neg 0
  | .int _ _ _ => 0

/-- A quantised block: the packed stream, the scale byte, the count and the flags. -/
structure QBlock where
  stream : Nat
  scale : Nat
  count : Nat
  flags : Flags
  deriving DecidableEq, Repr

/-- R80, R211: a block of values, `none` for an inactive lane, which counts as +0 and is not counted. -/
def quantBlock (m : MFmt) (band : Num) (u : Nat) (xs : List (Option Num)) (r : Nat → RndCtx) : QBlock :=
  let vs := xs.map (fun x => x.getD Num.zero)
  if band.isNan || band.isInf || band.isNeg || band.isZero then ⟨0, 0xFF, 0, flNv⟩
  else if vs.any (fun x => x.isNan || x.isInf) then ⟨0, 0xFF, 0, 0#7⟩
  else if vs.all Num.isZero then ⟨0, 0, 0, 0#7⟩
  else
    let amax := vs.foldl (fun acc x => if acc.lt x.abs then x.abs else acc) Num.zero
    let code := chooseScale m amax band u
    let sc := m.blk.val code
    let w := m.elem.width
    let one (k : Nat) (o : Option Num) : Nat × Flags × Nat :=
      match o with
      | none => (0, 0#7, 0)
      | some x =>
        if x.isZero then (m.elem.zero x.isNeg, 0#7, 0)
        else if sc.isZero then (m.elem.zero x.isNeg, 0#7, 1)
        else
          let y := quantElem m.elem (r k) x sc band
          (y.code, y.flags, if m.elem.isZero y.code then 1 else 0)
    let out := ((List.range xs.length).zip xs).map (fun (k, o) => one k o)
    { stream := ((List.range out.length).zip out).foldl (fun acc (k, (c, _, _)) => acc + c * 2 ^ (w * k)) 0
      scale := code
      count := min 255 (out.foldl (fun acc (_, _, n) => acc + n) 0)
      flags := out.foldl (fun acc (_, fl, _) => acc ||| fl) 0#7 }

end Sys2Proof.Machine
end

