-- ==== Sys2Proof/Machine/Matrix.lean ====
section
/-!
DEFINITION. What the matrix engine computes (11 R238, R251 to R263; 03 R70 to R77): tiles of reservations,
products in classical and in recombined order, structured operations, and the conversions and counts of
`acc.st`.
-/

namespace Sys2Proof.Machine

open Sys2Proof

/-! ### Reservation records and tile references (R95, R238) -/

def Resn.fmt (r : Resn) : Nat := (r.d0.extractLsb' 59 5).toNat
def Resn.blk (r : Resn) : Nat := (r.d0.extractLsb' 56 3).toNat
/-- The pitch in bytes. -/
def Resn.pitch (r : Resn) : Nat := (r.d0.extractLsb' 43 13).toNat * 16
/-- The size in units of 4 KiB. -/
def Resn.units (r : Resn) : Nat := (r.d0.extractLsb' 31 12).toNat
def Resn.bytes (r : Resn) : Nat := r.units * 4096
def Resn.nlines (r : Resn) : Nat := (r.d1.extractLsb' 48 16).toNat
def Resn.kdim (r : Resn) : Nat := (r.d1.extractLsb' 32 16).toNat
def Resn.soff (r : Resn) : Nat := (r.d1.extractLsb' 16 16).toNat * 128
def Resn.boff (r : Resn) : Nat := (r.d1.extractLsb' 0 16).toNat * 128

/-- A tile reference. -/
structure TileRef where
  kor : Nat
  lor : Nat
  gl : Bool
  h : Nat
  deriving DecidableEq, Repr

def tileRef (x : DWord) : TileRef :=
  { kor := (x.extractLsb' 48 16).toNat, lor := (x.extractLsb' 32 16).toNat, gl := x.getLsbD 5, h := (x.extractLsb' 0 4).toNat }

/-- The reserved bits of a tile reference are zero; bit gl only where it may be set. -/
def tileOk (x : DWord) (gather : Bool) : Bool :=
  x.extractLsb' 6 26 == 0#26 && !x.getLsbD 4 && (gather || !x.getLsbD 5)

/-- Accumulator formats (R239). -/
def isAccFmt (c : Nat) : Bool := c == 0 || c == 1 || c == 4 || c == 5 || c == 28

/-- The row of the table of R74 that holds an operand code: its number and its chunk length. -/
def pairRow (c : Nat) : Nat × Nat :=
  if c == 0 then (0, 4)
  else if c ≤ 3 then (1, 4)
  else if c ≤ 5 then (2, 8)
  else if c == 11 then (3, 8)
  else if 12 ≤ c && c ≤ 15 then (5, 16)
  else if c == 28 then (6, 4)
  else (4, 16)

/-- R74: both operands come from one row, and the accumulator is one that the row lists. -/
def pairOk (a b acc : Nat) : Bool :=
  let (r, _) := pairRow a
  r == (pairRow b).1 &&
  (match r with
   | 0 => acc == 0
   | 1 => acc == 1
   | 2 => acc == 1 || acc == 4 || acc == 5
   | 4 => acc == 1 || acc == 4 || acc == 5
   | _ => acc == 28)

/-! ### Elements of a reservation -/

/-- The w bits at a bit offset of stored bytes. -/
def cellBits (m : List Host.Cell) (bitOff w : Nat) : Nat :=
  cellNat m (bitOff / 8) ((bitOff % 8 + w + 7) / 8) / 2 ^ (bitOff % 8) % 2 ^ w

/-- Bytes of a list as stored bytes from address 0. -/
def asCells (bs : List Byte) : List Host.Cell := cellWriteN [] 0 bs

/-- The scales of element k of line i of a reservation: block, and band or tensor (R72, R73). -/
def Resn.scales (r : Resn) (i k : Nat) : Num × Num :=
  let mf := mfmt r.fmt
  let per := ceilDiv r.kdim (max mf.L 1)
  let blk := match mf.blk with
    | .none => Num.one
    | b => b.val (cellNat r.data (r.soff + i * per + k / max mf.L 1) 1)
  let other :=
    if mf.band then fBF16.val (cellNat r.data (r.boff + i / 64 * 2) 2)
    else if mf.tensor then fF32.val r.tscale.toNat
    else Num.one
  (blk, other)

/-- The scaled value of element k of line i. -/
def Resn.value (r : Resn) (i k : Nat) : Num :=
  let e := (mfmt r.fmt).elem
  let (blk, other) := r.scales i k
  scaled (e.val (cellBits r.data (8 * i * r.pitch + e.width * k) e.width)) blk other

/-- The scaled value of element k of a line gathered from memory under a template, which has no block or
band scale (R244). -/
def Resn.gathered (r : Resn) (line : List Byte) (k : Nat) : Num :=
  let e := (mfmt r.fmt).elem
  scaled (e.val (cellBits (asCells line) (e.width * k) e.width)) Num.one
    (if (mfmt r.fmt).tensor then fF32.val r.tscale.toNat else Num.one)

/-! ### Split formats (R70) -/

/-- Truncation toward zero to 8 significant bits, in multiples of 2^-133. -/
def truncBf (x : Num) : Num :=
  match x with
  | .fin n m e =>
    let q := max (e + (bitLen m : Int) - 8) (-133)
    if q ≤ e then x else .fin n (m / 2 ^ (q - e).toNat) q
  | y => y

/-- The first n terms of a finite number. -/
def splitTerms : Nat → Num → List Num
  | 0, _ => []
  | n + 1, x =>
    let t := truncBf x
    t :: splitTerms n (Num.sumWith x.isNeg [x, t.neg])

/-- Terms into which the operands of a pair of codes are split: 0 unsplit (R70). -/
def splitOf (a b : Nat) : Nat := if a == 3 || b == 3 then 2 else if a == 2 || b == 2 then 3 else 0

/-- One product: exact, or the sum of its term products. Where that sum is zero, R70 gives the zero terms no sign; the
zero takes the sign of the operands' product (log 95). -/
def product (n : Nat) (x y : Num) : Num :=
  if n == 0 || x.isNan || x.isInf || y.isNan || y.isInf then x.mul y
  else
    let tx := splitTerms n x
    let ty := splitTerms n y
    Num.sumWith (x.isNeg != y.isNeg)
      (((List.range n).zip tx).flatMap (fun (i, t) =>
        ((List.range n).zip ty).filterMap (fun (j, u) => if i + j < n then some (t.mul u) else none)))

/-! ### Accumulation (R75 to R77) -/

/-- The layout of a floating-point accumulator. -/
def accFmt (c : Nat) : FloatFmt := if c == 0 then fF64 else if c == 1 then fF32 else if c == 4 then fBF16 else fF16

/-- A list cut into chunks of lk elements. -/
def chunks {α : Type} (lk : Nat) : Nat → List α → List (List α)
  | 0, _ => []
  | fuel + 1, xs => if xs.isEmpty then [] else xs.take lk :: chunks lk fuel (xs.drop lk)

/-- The signed integer of an exact number with no fraction. -/
def Num.toInt (x : Num) : Int := Num.mantAt 0 x

/-- The loop of R75 for one element: the accumulator's code after chunks of products. -/
def accumulateChunks (acc : Nat) (mode : Mode) (c : Nat) (cs : List (List Num)) : Nat :=
  if acc == 28 then wrapNat 32 (signed 32 c + (cs.flatten.map Num.toInt).foldl (· + ·) 0)
  else
    let f := accFmt acc
    cs.foldl (fun c ps => (roundNum f mode false 0 (Num.sum76 (mode == .rdn) (f.val c :: ps))).code) c

def accumulate (acc : Nat) (mode : Mode) (lk : Nat) (c : Nat) (ps : List Num) : Nat :=
  accumulateChunks acc mode c (chunks lk ps.length ps)

/-! ### Operand windows (R251) -/

/-- A window: s lines of s elements. -/
abbrev Win := List (List Num)

def winAt (w : Win) (i k : Nat) : Num := (w.getD i []).getD k Num.zero

/-- The window of a reservation with masked and outside positions +0. -/
def Resn.window (r : Resn) (t : TileRef) (s : Nat) (lines depth : Nat → Bool) : Win :=
  (List.range s).map (fun i => (List.range s).map (fun k =>
    if lines i && depth k && t.lor + i < r.nlines && t.kor + k < r.kdim then r.value (t.lor + i) (t.kor + k)
    else Num.zero))

/-! ### Recombination (R255 to R258) -/

/-- Block (x, y) of a window cut in four. -/
def block (w : Win) (h x y : Nat) : Win :=
  (List.range h).map (fun i => (List.range h).map (fun k => winAt w (x * h + i) (y * h + k)))

/-- p of R256. -/
def preP (c : Nat) : Nat :=
  match c with
  | 0 => 53 | 1 => 24 | 2 => 24 | 3 => 24 | 4 => 8 | 5 => 11
  | 6 => 4 | 7 => 3 | 8 => 3 | 9 => 4 | 10 => 2
  | 16 => 4 | 17 => 3 | 18 => 3 | 19 => 4 | 20 => 2 | 21 => 7
  | 22 => 16 | 23 => 8 | 24 => 17 | 25 => 18 | 26 => 17 | 27 => 21
  | 29 => 28 | 30 => 27 | 31 => 26
  | _ => 64

/-- Round to nearest even into a significand of p bits, with no limit on the exponent. -/
def roundSig (p : Nat) (x : Num) : Num :=
  match x with
  | .fin n m e =>
    let q := e + (bitLen m : Int) - p
    if q ≤ e then x
    else
      let (k, r, d) := splitAt m e q
      .fin n (if roundsUp .rne n k r d 0 1 then k + 1 else k) q
  | y => y

/-- The pre-addition x1 + x2, or x1 - x2. -/
def preAdd (p : Nat) (sub : Bool) (x y : Num) : Num :=
  roundSig (p + 4) (Num.sum76 false [x, if sub then y.neg else y])

def winZip (f : Num → Num → Num) (a b : Win) : Win :=
  (a.zip b).map (fun (r, t) => (r.zip t).map (fun (x, y) => f x y))

/-- A side of a product: one block, or two blocks with the sign of the second. Blocks are numbered 0 to 3 as
11, 12, 21, 22. -/
abbrev Side := Nat × Option (Bool × Nat)

/-- R255: the sides of M1 to M7. -/
def aSides : List Side :=
  [(0, some (false, 3)), (2, some (false, 3)), (0, none), (3, none), (0, some (false, 1)), (2, some (true, 0)), (1, some (true, 3))]
def bSides : List Side :=
  [(0, some (false, 3)), (0, none), (1, some (true, 3)), (2, some (true, 0)), (3, none), (0, some (false, 1)), (2, some (false, 3))]

/-- R255: the terms of the updates of C11, C12, C21 and C22: product and sign. -/
def updates : List (List (Nat × Bool)) :=
  [[(0, false), (3, false), (4, true), (6, false)], [(2, false), (4, false)], [(1, false), (3, false)],
   [(0, false), (1, true), (2, false), (5, false)]]

def sideHas (b : Nat) (s : Side) : Bool := s.1 == b || (match s.2 with | some (_, y) => y == b | none => false)

/-- Products that carry block b of an operand into block c of the result (R258). -/
def carriers (sides : List Side) (b c : Nat) : Nat :=
  ((updates.getD c []).filter (fun (q, _) => sideHas b (sides.getD q (9, none)))).length

/-- R258: a line of one operand's blocks makes an element of block c NaN. `line` is the local row or
column. -/
def forcedNan (sides : List Side) (blocks : List Win) (c line : Nat) : Bool :=
  (List.range 4).any (fun b =>
    let n := carriers sides b c
    let xs := (blocks.getD b []).getD line []
    (2 ≤ n && xs.any Num.isInf) || (1 ≤ n && xs.any Num.isNan))

/-- One side of M_q. -/
def sideOf (blocks : List Win) (p : Nat) (s : Side) : Win :=
  match s.2 with
  | none => blocks.getD s.1 []
  | some (sub, y) => winZip (preAdd p sub) (blocks.getD s.1 []) (blocks.getD y [])

/-- The products along depth of line i of a and line j of b. -/
def lineProducts (n : Nat) (a b : Win) (i j : Nat) : List Num :=
  ((a.getD i []).zip (b.getD j [])).map (fun (x, y) => product n x y)

/-- The recombined element (i, j): `a` has rows of depth, `b` columns of depth. -/
def recombined (fa fb acc : Nat) (mode : Mode) (s : Nat) (a b : Win) (i j c0 : Nat) : Nat :=
  let h := s / 2
  let f := accFmt acc
  let n := splitOf fa fb
  let lk := (pairRow fa).2
  let ab := [block a h 0 0, block a h 0 1, block a h 1 0, block a h 1 1]
  -- b's lines are columns: block (depth x, column y) is block y, x of the window
  let bb := [block b h 0 0, block b h 1 0, block b h 0 1, block b h 1 1]
  let m (q : Nat) : Nat :=
    let x := sideOf ab (preP fa) (aSides.getD q (0, none))
    let y := sideOf bb (preP fb) (bSides.getD q (0, none))
    accumulate acc mode lk 0 (lineProducts n x y (i % h) (j % h))
  let blk := 2 * (i / h) + j / h
  if forcedNan aSides ab blk (i % h) || forcedNan bSides bb blk (j % h) then f.nanCode
  else
    (updates.getD blk []).foldl (fun c (q, neg) =>
      let t := f.val (m q)
      (roundRne f (Num.sum76 false [f.val c, if neg then t.neg else t])).code) c0

/-! ### Writing the accumulator -/

/-- Bytes of an accumulator element. -/
def accBytes (c : Nat) : Nat := if c == 0 then 8 else if c == 1 || c == 28 then 4 else 2

/-- The byte offset of element (i, j) of an accumulator window. -/
def accOff (r : Resn) (t : TileRef) (i j : Nat) : Nat := (t.lor + i) * r.pitch + (t.kor + j) * accBytes r.fmt

def accCode (r : Resn) (t : TileRef) (i j : Nat) : Nat := cellNat r.data (accOff r t i j) (accBytes r.fmt)

/-- Elements of a window that both masks and the window admit, row by row. -/
def admitted (r : Resn) (t : TileRef) (s : Nat) (rows cols : DWord) : List (Nat × Nat) :=
  (List.range s).flatMap (fun i =>
    if rows.getLsbD i && t.lor + i < r.nlines then
      (List.range s).filterMap (fun j => if cols.getLsbD j && t.kor + j < r.kdim then some (i, j) else none)
    else [])

/-- The reservation with new codes in elements of a window. -/
def writeAcc (r : Resn) (t : TileRef) (new : List ((Nat × Nat) × Nat)) : Resn :=
  { r with data := new.foldl (fun m ((i, j), x) => cellWriteN m (accOff r t i j) (toBytes (accBytes r.fmt) x)) r.data }

/-- The operand A of a multiplication: lines of a reservation, or rows of a gather list, from a buffer or
staged from memory. -/
def operandA (ra : Resn) (t : TileRef) (gl : Option GatherList) (staged : List (Option (List Byte))) (s : Nat)
    (lines depth : Nat → Bool) : Win :=
  match gl with
  | none => ra.window t s lines depth
  | some g =>
    (List.range s).map (fun i => (List.range s).map (fun k =>
      if lines i && depth k && t.kor + k < ra.kdim then
        match g.mem with
        | some _ => ((staged.getD i none).map (fun bs => ra.gathered bs (t.kor + k))).getD Num.zero
        | none => match g.rows.getD i none with
          | some l => if l < ra.nlines then ra.value l (t.kor + k) else Num.zero
          | none => Num.zero
      else Num.zero))

/-- Row i of a gathered operand is there. -/
def gatheredRow (ra : Resn) (g : GatherList) (i : Nat) : Bool :=
  match g.rows.getD i none with
  | some l => g.mem.isSome || l < ra.nlines
  | none => false

/-- `mm` (R251 to R258): the accumulator after the operation. -/
def mmResult (rd ra rb : Resn) (gl : Option GatherList) (staged : List (Option (List Byte))) (td ta tb : TileRef)
    (s : Nat) (rows cols depth : DWord) (mode : Mode) (recomb : Bool) : Resn :=
  let dep (k : Nat) : Bool := depth.getLsbD k && ta.kor + k < ra.kdim && tb.kor + k < rb.kdim
  let rowIn (i : Nat) : Bool := rows.getLsbD i &&
    (match gl with
     | none => ta.lor + i < ra.nlines
     | some g => gatheredRow ra g i)
  let colIn (j : Nat) : Bool := cols.getLsbD j && tb.lor + j < rb.nlines
  let a := operandA ra ta gl staged s rowIn dep
  let b := rb.window tb s colIn dep
  let els := (admitted rd td s rows cols).filter (fun (i, j) => rowIn i && colIn j)
  let one (i j : Nat) : Nat :=
    let c := accCode rd td i j
    if recomb && 32 ≤ s && rd.fmt != 28 then recombined ra.fmt rb.fmt rd.fmt mode s a b i j c
    else accumulate rd.fmt mode (pairRow ra.fmt).2 c (lineProducts (splitOf ra.fmt rb.fmt) a b i j)
  writeAcc rd td (els.map (fun (i, j) => ((i, j), one i j)))

/-! ### Structured operations (R260) -/

/-- The product of an element of a reservation and an entry one of G: both are in the source's row of R74, so the split
formats form it from terms (R70, R260). -/
def Resn.times1 (r : Resn) (i k : Nat) : Num := product (splitOf r.fmt r.fmt) (r.value i k) Num.one

/-- One value rounded once into an accumulator element. -/
def addOnce (acc : Nat) (mode : Mode) (c : Nat) (x : Num) : Nat := accumulate acc mode 1 c [x]

/-- An element beyond the source's depth or lines is not written (DESIGN CHOICE, log 124). -/
def mtrResult (rd ra : Resn) (td ta : TileRef) (s : Nat) (rows cols : DWord) (mode : Mode) : Resn :=
  let els := (admitted rd td s rows cols).filter (fun (i, j) => ta.lor + j < ra.nlines && ta.kor + i < ra.kdim)
  writeAcc rd td (els.map (fun (i, j) =>
    ((i, j), addOnce rd.fmt mode (accCode rd td i j) (ra.times1 (ta.lor + j) (ta.kor + i)))))

def mpermResult (rd ra : Resn) (td ta : TileRef) (perm : List (Option Nat)) (s : Nat) (rows cols : DWord) (mode : Mode) : Resn :=
  let line (i : Nat) : Nat := ta.lor + ((perm.getD i none).getD 0)
  let els := (admitted rd td s rows cols).filter (fun (i, j) => line i < ra.nlines && ta.kor + j < ra.kdim)
  writeAcc rd td (els.map (fun (i, j) =>
    ((i, j), addOnce rd.fmt mode (accCode rd td i j) (ra.times1 (line i) (ta.kor + j)))))

def mrsumResult (rd ra : Resn) (td ta : TileRef) (s : Nat) (rows cols depth : DWord) (mode : Mode) : Resn :=
  let els := (admitted rd td s rows cols).filter (fun (i, _) => ta.lor + i < ra.nlines)
  -- the chunks keep their places; a masked position adds nothing
  let xs (i : Nat) : List (List Num) := (chunks (pairRow ra.fmt).2 s (List.range s)).map (fun ks =>
    ks.filterMap (fun k =>
      if depth.getLsbD k && ta.kor + k < ra.kdim then some (ra.times1 (ta.lor + i) (ta.kor + k)) else none))
  writeAcc rd td (els.map (fun (i, j) =>
    ((i, j), accumulateChunks rd.fmt mode (accCode rd td i j) (xs i))))

/-! ### `acc.st` (R262, R263) -/

/-- The types that an accumulator may be stored as. -/
def accStTypes (acc : Nat) : List Ty :=
  match acc with
  | 0 => [.f64, .f32]
  | 1 => [.f32, .f16, .bf16, .e4m3, .e5m2]
  | 28 => [.i32, .i16, .i8]
  | _ => [.f16, .bf16, .f32]

/-- The accumulator's own type, which `acc.ld` takes. -/
def accTy (acc : Nat) : Ty :=
  match acc with
  | 0 => .f64
  | 1 => .f32
  | 4 => .bf16
  | 5 => .f16
  | _ => .i32

/-- One element converted to a type (R65, R67); a NaN is stored as the canonical NaN, whatever the type. -/
def accConvert (acc : Nat) (t : Ty) (mode : Mode) (c : Nat) : Nat :=
  if acc == 28 then (cvtIntInt t .i32 true c).code
  else (cvtFloatFloat t (accTy acc) false ⟨mode, 0⟩ c).code

/-- A stored element counts as an underflow (R78). -/
def underflows (acc : Nat) (t : Ty) (c x : Nat) : Bool :=
  (match (accFmt acc).val c with
   | .fin _ m _ => m != 0
   | _ => false) && (t.fmt.val x).isZero

/-- The types whose store replaces the count table. -/
def countsTy (t : Ty) : Bool := t == .f16 || t == .bf16 || t == .e4m3 || t == .e5m2

end Sys2Proof.Machine
end

