-- ==== Sys2Proof/Machine/Engine.lean ====
section
/-!
DEFINITION. The matrix engine of a cluster (11 R237 to R263): its request table, the arbiter, passes and
transfers.
-/

namespace Sys2Proof.Machine

open Sys2Proof

/-! ### Reservations -/

/-- The live reservation of a handle. -/
def liveRes (t : Team) (h : Nat) : Option Resn := t.resns.getD h none

/-- A reservation by name, live or released. -/
def findRes (s : State) (uid id : Nat) : Option Resn :=
  (peekTeam s uid).bind (fun t => (t.resns.filterMap (fun r => r) ++ t.oldResns).find? (·.id == id))

/-- A reservation takes new contents. -/
def setRes (s : State) (uid : Nat) (r : Resn) : State :=
  updTeam s uid (fun t => { t with
    resns := t.resns.map (fun o => o.map (fun x => if x.id == r.id then r else x))
    oldResns := t.oldResns.map (fun x => if x.id == r.id then r else x) })

/-- Bytes of a reservation are written; poisoned bytes poison their words, words covered in full lose
theirs. -/
def Resn.put (r : Resn) (a : Nat) (bytes : List Byte) (bad : Bool) : Resn :=
  let n := bytes.length
  let words := (List.range ((a + n - 1) / 4 + 1 - a / 4)).map (fun k => a / 4 + k)
  let kept := r.poison.filter (fun w => !(a ≤ 4 * w && 4 * w + 4 ≤ a + n))
  { r with data := cellWriteN r.data a bytes, poison := if bad then distinct (kept ++ words) else kept }

def Resn.badIn (r : Resn) (a n : Nat) : Bool := r.poison.any (fun w => a / 4 ≤ w && w ≤ (a + n - 1) / 4)

/-- R96: the record keeps the limits of a reservation. -/
def Resn.recordOk (r : Resn) : Bool :=
  let mf := mfmt r.fmt
  let wantBlk := match mf.L with | 0 => 0 | 8 => 1 | 16 => 2 | _ => 3
  let lineEnd := r.nlines * r.pitch
  let scaleEnd := r.soff + r.nlines * ceilDiv r.kdim (max mf.L 1)
  let bandEnd := r.boff + 2 * ceilDiv r.nlines 64
  r.blk == wantBlk && 1 ≤ r.nlines && 1 ≤ r.kdim && 1 ≤ r.units &&
  (r.d0.extractLsb' 20 11).toNat + r.units ≤ 2048 &&
  ceilDiv (r.kdim * mf.elem.width) 8 ≤ r.pitch && lineEnd ≤ r.bytes &&
  (if mf.blk != .none then scaleEnd ≤ r.bytes && lineEnd ≤ r.soff else r.soff == 0) &&
  (if mf.band then bandEnd ≤ r.bytes && lineEnd ≤ r.boff && (bandEnd ≤ r.soff || scaleEnd ≤ r.boff) else r.boff == 0)

/-- The range of a reservation is taken in the cluster's buffer, by a live one or by one whose commands have not
completed (R241, R242). -/
def rangeBusy (s : State) (core : CoreId) (base units : Nat) : Bool :=
  let hits (r : Resn) : Bool := base < r.base + r.units && r.base < base + units
  let of (t : Team) : Bool := (t.resns.filterMap (fun r => r) ++ t.oldResns).any hits
  ((if s.focused then [s.team] else []) ++ s.teams).any (fun t =>
    t.at_.site == core.site && t.at_.cluster == core.cluster && of t)

/-! ### Outstanding commands (R248, R249) -/

def EngCmd.names (e : EngCmd) : List Nat := e.reads ++ e.writes

/-- Every command of a cluster that has not completed. -/
def Cluster.outstanding (c : Cluster) : List EngCmd := c.cmds ++ c.waiting

/-- The members of a wait set (R249). -/
def waitSet (x : DWord) : List Nat := (List.range 20).filter (fun k => x.getLsbD k)

/-- The command counts in a weave's waits on a name. -/
def EngCmd.covers (e : EngCmd) (uid windex k : Nat) : Bool :=
  (e.uid == uid || e.owners.contains (uid, windex)) && e.names.contains k

/-- The members of a set that still have covered commands outstanding. -/
def stillOut (s : State) (set : List Nat) : List Nat :=
  set.filter (fun k => (clusterHere s).outstanding.any (fun e => e.covers s.team.uid s.weave.windex k))

def maxCmds : Nat := 32

/-- A command enters the request table; `none` when the table is full, or the engine is not in service (R362, R371), or
commands of its team that a restore posts again come first (R248, R308). -/
def postCmd (s : State) (e : EngCmd) : Option State :=
  let c := clusterHere s
  if maxCmds ≤ c.cmds.length || c.scan != .serve || c.waiting.any (·.uid == e.uid) then none
  else
    let e1 := { e with id := s.nextId, posted := s.cyc, ctx := s.team.ctx, prio := s.team.prio, wins := winsHere s }
    let s1 := setCluster { s with nextId := s.nextId + 1 } { c with cmds := c.cmds ++ [e1] }
    some (e.owners.foldl (fun acc (u, _) => updTeam acc u (fun t => { t with engineUsed := true })) s1)

/-- The reservations that a command names. -/
def EngCmd.resns (e : EngCmd) : List Nat := [e.rd, e.ra, e.rb] ++ (e.glist.map (·.src)).toList

/-- Released reservations that no outstanding command names are gone (R242). -/
def freeReleased (s : State) (uid site phys : Nat) : State :=
  let named := (findCluster s site phys).outstanding.flatMap EngCmd.resns
  updTeam s uid (fun t => { t with oldResns := t.oldResns.filter (fun r => named.contains r.id) })

/-- The engine works for the launches of a command's weaves (R363). -/
def noteEngine (s : State) (site phys : Nat) (e : EngCmd) : State :=
  e.owners.foldl (fun acc (u, _) => match peekTeam acc u with
    | some t => noteWork acc t.launch (engineUnit site phys)
    | none => acc) s

/-- A command completes: its entry is free and every issuing weave gets the engine event (R249). -/
def completeCmd (s : State) (site phys : Nat) (e : EngCmd) : State :=
  let s1 := onCluster (noteEngine s site phys e) site phys (fun c => { c with cmds := c.cmds.filter (·.id != e.id) })
  let s2 := freeReleased s1 e.uid site phys
  e.owners.foldl (fun acc (u, w) => engineEvent acc u w) s2

/-! ### The arbiter (R248) -/

def EngOp.isPass : EngOp → Bool
  | .mm | .mtr | .mperm | .mrsum => true
  | _ => false

/-- Two commands of one team may not run in any order: one writes what the other names. -/
def EngCmd.conflicts (later earlier : EngCmd) : Bool :=
  later.uid == earlier.uid &&
  (later.writes.any earlier.names.contains || later.reads.any earlier.writes.contains)

/-- The entry at a place in the table may be granted. -/
def grantable (cmds : List EngCmd) (k : Nat) (e : EngCmd) : Bool :=
  !e.started && e.fid.isNone && !(cmds.take k).any e.conflicts &&
  !cmds.any (fun x => x.started && x.op.isPass == e.op.isPass)

/-- Highest launch priority first, a promoted command at the highest, then the oldest. -/
def EngCmd.rank (e : EngCmd) : Nat := if e.promoted then 7 else e.prio

def chooseGrant (cmds : List EngCmd) : Option EngCmd :=
  (((List.range cmds.length).zip cmds).filter (fun (k, e) => grantable cmds k e)).foldl (fun acc (_, e) =>
    match acc with
    | none => some e
    | some b => if b.rank < e.rank then some e else some b) none

def setCmd (s : State) (site phys : Nat) (e : EngCmd) : State :=
  onCluster s site phys (fun c => { c with cmds := c.cmds.map (fun x => if x.id == e.id then e else x) })

/-- A command waits in a pending entry of the home that failed it (R348). -/
def faultCmd (s : State) (site phys : Nat) (e : EngCmd) (f : Failure) (acc : Nat) : State :=
  let (s1, fid) := holdPending s f (agentRequester s e.uid (engineUnit site phys) e.ctx acc) (.engine e.id)
  setCmd s1 site phys { e with fid := some fid }

/-! ### Passes -/

/-- Rows that a memory gather list brings to the engine before the pass (R244): the lines' bytes up to the last
element that the window reads. -/
def stageRows (s : State) (site : Nat) (e : EngCmd) (g : GatherList) (base : Nat) (ra : Resn) :
    Except Failure (State × List (Option (List Byte)) × Bool) :=
  let ta := tileRef e.a
  let w := (mfmt ra.fmt).elem.width
  let n := ceilDiv (min ra.kdim (ta.kor + e.shape) * w) 8
  (List.range e.shape).foldl (fun acc i =>
    match acc with
    | .error f => .error f
    | .ok (s1, rows, bad) =>
      match (if e.rows.getLsbD i then g.rows.getD i none else none) with
      | none => .ok (s1, rows ++ [none], bad)
      | some l =>
        match teamGetAll s1 e.uid e.ctx site g.wins (base + l * ra.pitch) n with
        | .error f => .error f
        | .ok (s2, bs, b) => .ok (s2, rows ++ [some bs], bad || b)) (.ok (s, [], false))

/-- A grant: a multiplication that reads gathered rows takes the lines as they are now (R244): those of a reservation, or
those in memory, where a row that faults makes it wait (R253); a list of indices is complete at once; every other command
starts. -/
def grantCmd (s : State) (site phys : Nat) (e : EngCmd) : State :=
  if e.op == .obgath then completeCmd s site phys e
  else match e.glist, findRes s e.uid e.ra with
    | some g, some ra =>
      match g.mem with
      | none => setCmd s site phys { e with started := true, source := some ra }
      | some base =>
        match stageRows s site e g base ra with
        | .error f => faultCmd s site phys e f 5
        | .ok (s1, rows, bad) => setCmd s1 site phys { e with started := true, staged := rows, stagedBad := bad }
    | _, _ => setCmd s site phys { e with started := true }

/-- The bytes of an element, its block scale and its band scale hold poison (R360). -/
def Resn.elemBad (r : Resn) (i k : Nat) : Bool :=
  let mf := mfmt r.fmt
  let w := mf.elem.width
  let o := 8 * i * r.pitch + w * k
  r.badIn (o / 8) ((o % 8 + w + 7) / 8) ||
  (mf.blk != .none && r.badIn (r.soff + i * ceilDiv r.kdim (max mf.L 1) + k / max mf.L 1) 1) ||
  (mf.band && r.badIn (r.boff + i / 64 * 2) 2)

/-- An element that the pass reads is poisoned. -/
def passBad (e : EngCmd) (rd ra rb : Resn) : Bool :=
  let td := tileRef e.d
  let ta := tileRef e.a
  let tb := tileRef e.b
  let s := e.shape
  let win (r : Resn) (t : TileRef) (lines depth : DWord) : Bool :=
    !r.poison.isEmpty && (List.range s).any (fun i => lines.getLsbD i && t.lor + i < r.nlines &&
      (List.range s).any (fun k => depth.getLsbD k && t.kor + k < r.kdim && r.elemBad (t.lor + i) (t.kor + k)))
  let all : DWord := 0xFFFFFFFFFFFFFFFF#64
  e.stagedBad ||
  (!rd.poison.isEmpty && (admitted rd td s e.rows e.cols).any (fun (i, j) => rd.badIn (accOff rd td i j) (accBytes rd.fmt))) ||
  (match e.op with
   | .mm => win rb tb e.cols e.depth || (match e.glist with
     | none => win ra ta e.rows e.depth
     | some g => g.mem.isNone && !ra.poison.isEmpty && (List.range s).any (fun i => e.rows.getLsbD i &&
         (match g.rows.getD i none with
          | some l => l < ra.nlines && (List.range s).any (fun k => e.depth.getLsbD k && ta.kor + k < ra.kdim && ra.elemBad l (ta.kor + k))
          | none => false)))
   | .mtr => win ra ta e.cols e.rows
   | .mperm => !ra.poison.isEmpty && (List.range s).any (fun i => e.rows.getLsbD i &&
       (let l := ta.lor + (e.perm.getD i none).getD 0
        l < ra.nlines && (List.range s).any (fun k => e.cols.getLsbD k && ta.kor + k < ra.kdim && ra.elemBad l (ta.kor + k))))
   | .mrsum => win ra ta e.rows e.depth
   | _ => win ra ta all all)

/-- The accumulator after a pass. -/
def passResult (e : EngCmd) (rd ra rb : Resn) : Resn :=
  let mode := (Mode.ofCode e.rnd).getD .rne
  let td := tileRef e.d
  let ta := tileRef e.a
  match e.op with
  | .mm => mmResult rd ra rb e.glist e.staged td ta (tileRef e.b) e.shape e.rows e.cols e.depth mode e.recomb
  | .mtr => mtrResult rd ra td ta e.shape e.rows e.cols mode
  | .mperm => mpermResult rd ra td ta e.perm e.shape e.rows e.cols mode
  | .mrsum => mrsumResult rd ra td ta e.shape e.rows e.cols e.depth mode
  | _ => rd

/-- A weave consumes an error that an engine found; the state is parked. -/
def consumeAt (s : State) (uid windex : Nat) (info : DWord) : State :=
  match (findWeave s uid windex).bind (fun w => w.plies.head?) with
  | none => s
  | some p => park (consumeError (focusOn s uid windex p.n) info)

/-- The end of a started pass (R253, R360). -/
def endPass (s : State) (site phys : Nat) (e : EngCmd) : State :=
  match findRes s e.uid e.rd, e.source.orElse (fun _ => findRes s e.uid e.ra) with
  | some rd, some ra =>
    let rb := (findRes s e.uid e.rb).getD ra
    if passBad e rd ra rb then
      e.owners.foldl (fun acc (u, w) => consumeAt acc u w e.d) (completeCmd s site phys e)
    else completeCmd (setRes s e.uid (passResult e rd ra rb)) site phys e
  | _, _ => completeCmd s site phys e

/-! ### Transfers (R250, R243, R262) -/

/-- The address of element (i, j) of an `acc.ld` or `acc.st`. -/
def accAddr (e : EngCmd) (n i j : Nat) : Nat := (e.a + BitVec.ofNat 64 i * e.b + BitVec.ofNat 64 (j * n)).toNat

/-- Pieces of a transfer: byte ranges of an `obload`, elements of an `acc.ld` or `acc.st`. -/
def transferPieces (e : EngCmd) (rd : Resn) : List (Nat × Nat) :=
  match e.op with
  | .obload => if e.depth == 0#64 then [] else if e.sp then [(e.a.toNat, e.depth.toNat)] else linePiecesOf e.a.toNat e.depth.toNat
  | .accLd => admitted rd (tileRef e.d) e.shape e.rows e.cols
  | .accSt => admitted rd (tileRef e.d) e.shape e.rows e.cols
  | _ => []

/-- One piece of an `obload`: `depth` holds the length, `b` the buffer reference. -/
def obloadPiece (s : State) (site : Nat) (e : EngCmd) (a n : Nat) : Except Failure State :=
  let off := (e.b.extractLsb' 32 32).toNat + (a - e.a.toNat)
  let put (s : State) (bs : List Byte) (bad : Bool) : State :=
    match findRes s e.uid e.rd with
    | some r => setRes s e.uid (r.put off bs bad)
    | none => s
  if e.sp then .ok (put (readScratch s e.uid a n) (teamScratch s e.uid a n) (teamScratchBad s e.uid a n))
  else match teamGetAll s e.uid e.ctx site e.wins a n with
    | .error f => .error f
    | .ok (s1, bs, bad) => .ok (put s1 bs bad)

/-- One element of an `acc.ld`. -/
def accLdPiece (s : State) (site : Nat) (e : EngCmd) (r : Resn) (i j : Nat) : Except Failure State :=
  let n := accBytes r.fmt
  let a := accAddr e n i j
  let put (s : State) (bs : List Byte) (bad : Bool) : State :=
    match findRes s e.uid e.rd with
    | some r => setRes s e.uid (r.put (accOff r (tileRef e.d) i j) bs bad)
    | none => s
  if e.sp then .ok (put (readScratch s e.uid a n) (teamScratch s e.uid a n) (teamScratchBad s e.uid a n))
  else match teamGetAll s e.uid e.ctx site e.wins a n with
    | .error f => .error f
    | .ok (s1, bs, bad) => .ok (put s1 bs bad)

/-- One element of an `acc.st`: converted, digested, and written unless a re-run stores it to memory (R368). The
failure of a home stands beside the state. -/
def accStPiece (s : State) (site : Nat) (e : EngCmd) (r : Resn) (i j : Nat) : State × Option Failure :=
  let t := Ty.ofCodeD e.type
  let n := t.width / 8
  let a := accAddr e n i j
  let c := accCode r (tileRef e.d) i j
  let x := accConvert r.fmt t ((Mode.ofCode e.rnd).getD .rne) c
  let bytes := toBytes n x
  let bad := r.badIn (accOff r (tileRef e.d) i j) (accBytes r.fmt)
  if e.sp then (putScratch s e.uid a bytes bad, none)
  else
    let cover (s : State) : State := onAnyTeam s e.uid (fun t => t.cover a 0 bytes)
    if e.dry then (cover s, none)
    else
      let (s1, f) := agentPutAll s e.ctx site e.wins a bytes bad
      (if f.isSome then s1 else cover s1, f)

/-- The counts after an element (R78, R263): row entry, block 0 in the low byte and block 1 above it. -/
def countElement (e : EngCmd) (r : Resn) (i j : Nat) : List Nat :=
  let t := Ty.ofCodeD e.type
  let c := accCode r (tileRef e.d) i j
  let sh := if j < 32 then 1 else 256
  let old := e.counts.getD i 0
  if countsTy t && underflows r.fmt t c (accConvert r.fmt t ((Mode.ofCode e.rnd).getD .rne) c) && old / sh % 256 < 255 then
    e.counts.set i (old + sh)
  else e.counts

/-- The pieces of a transfer one after another, until one fails at its home. -/
def runPieces (s : State) (site phys : Nat) (e : EngCmd) : List (Nat × Nat) → State × EngCmd × Option Failure
  | [] => (s, e, none)
  | (x, y) :: rest =>
    match findRes s e.uid e.rd with
    | none => (s, e, none)
    | some r =>
      match e.op with
      | .obload =>
        match obloadPiece s site e x y with
        | .error f => (s, e, some f)
        | .ok s1 => runPieces s1 site phys { e with pos := e.pos + 1 } rest
      | .accLd =>
        match accLdPiece s site e r x y with
        | .error f => (s, e, some f)
        | .ok s1 => runPieces s1 site phys { e with pos := e.pos + 1 } rest
      | _ =>
        match accStPiece s site e r x y with
        | (s1, some f) => (s1, e, some f)
        | (s1, none) => runPieces s1 site phys { e with pos := e.pos + 1, counts := countElement e r x y } rest

/-- Every element of an accumulator reservation is zero; no other byte changes (R261). -/
def zeroAcc (r : Resn) : Resn :=
  let n := ceilDiv (r.kdim * (mfmt r.fmt).elem.width) 8
  (List.range r.nlines).foldl (fun acc i => acc.put (i * r.pitch) (List.replicate n 0#8) false) r

/-- The end of a started transfer: the pieces not yet moved, then completion; a home fault makes it wait. -/
def endTransfer (s : State) (site phys : Nat) (e : EngCmd) : State :=
  match findRes s e.uid e.rd with
  | none => completeCmd s site phys e
  | some r =>
    if e.op == .accZero then completeCmd (setRes s e.uid (zeroAcc r)) site phys e
    else
      let (s1, e1, f) := runPieces s site phys e ((transferPieces e r).drop e.pos)
      match f with
      | some f => faultCmd s1 site phys e1 f (if e.op == .accSt then 6 else 5)
      | none =>
        let s2 := if e.op == .accSt && countsTy (Ty.ofCodeD e.type) then
            updTeam s1 e.uid (fun t => { t with counts := e1.counts.map (BitVec.ofNat 32) })
          else s1
        completeCmd s2 site phys e1

end Sys2Proof.Machine
end

