-- ==== Sys2Proof/Machine/Place.lean ====
section
/-!
DEFINITION. Where a team can be resident: the capacity of a core (00 R6; 02 R46; 04 R87, R88; 16 R309;
01 R22, R31) and the names that residency gives (01 R20).
-/

namespace Sys2Proof.Machine

open Sys2Proof

/-- The teams resident on a core, of a parked state. -/
def residents (s : State) (c : CoreId) : List Team := s.teams.filter (·.at_ == c)

/-- The weaves of a team that have not ended. -/
def Team.live (t : Team) : List Weave := t.weaves.filter (fun w => !w.ended)

/-- Resident weaves of a core, with the kernel of their team. -/
def coreWeaves (s : State) (c : CoreId) : List (Kernel × Weave) :=
  (residents s c).flatMap (fun t => t.live.map (fun w => (t.kernel, w)))

/-- x before the first element that it may not follow. -/
def insertBy {α : Type} (le : α → α → Bool) (x : α) : List α → List α
  | [] => [x]
  | y :: rest => if le x y then x :: y :: rest else y :: insertBy le x rest

/-- A stable sort. -/
def sortBy {α : Type} (le : α → α → Bool) : List α → List α
  | [] => []
  | x :: rest => insertBy le x (sortBy le rest)

def sumOf (xs : List Nat) : Nat := xs.foldl (· + ·) 0

/-- Weaves of a partition, and the vector registers that their floors reserve. -/
def partLoad (s : State) (c : CoreId) (p : Nat) : Nat × Nat :=
  let ws := (coreWeaves s c).filter (fun (_, w) => w.part == p)
  (ws.length, sumOf (ws.map (fun (k, _) => k.vfloor)))

/-- The partitions that n weaves of a kernel take, one after another the least loaded with room; `none` without
room (log 23). -/
def takeParts (vfloor : Nat) : Nat → List (Nat × Nat) → Option (List Nat)
  | 0, _ => some []
  | n + 1, loads =>
    let open_ := (List.range loads.length).filter (fun p =>
      let (k, v) := loads.getD p (16, 512)
      k < 16 && v + vfloor ≤ vPoolSize)
    let best := open_.foldl (fun acc p => match acc with
      | none => some p
      | some q => if (loads.getD p (0, 0)).1 < (loads.getD q (0, 0)).1 then some p else some q) none
    best.bind (fun p =>
      let (k, v) := loads.getD p (0, 0)
      (takeParts vfloor n (loads.set p (k + 1, v + vfloor))).map (fun rest => p :: rest))

/-- The core is in service: no scan, no quarantine, not halted, its split serves. -/
def coreServes (s : State) (c : CoreId) : Bool :=
  let k := findCore s c
  !k.halted && k.scan == .serve && k.splitState == .serve

/-- The core's free resources hold n live weaves of a kernel (R31, R88): the partitions they take. -/
def coreHolds (s : State) (c : CoreId) (k : Kernel) (n : Nat) : Option (List Nat) :=
  let here := residents s c
  if sumOf (here.map (fun t => t.kernel.claim)) + k.claim ≤ (findCore s c).split.1 * 1024 &&
     sumOf (here.map (fun t => t.kernel.tagEntries)) + k.tagEntries ≤ 512 &&
     sumOf ((coreWeaves s c).map (fun (q, _) => q.sfloor)) + n * k.sfloor ≤ sPoolSize then
    takeParts k.vfloor n ((List.range 4).map (partLoad s c))
  else none

/-- The core may take the team: in service with the kernel's split and room. -/
def coreTakes (s : State) (c : CoreId) (k : Kernel) (n : Nat) : Option (List Nat) :=
  if coreServes s c && (findCore s c).split == k.split then coreHolds s c k n else none

/-- The lowest n cluster handles that no resident weave of the cluster has (R20). -/
def freeHandles (s : State) (site phys n : Nat) : List Nat :=
  let used := (s.teams.filter (fun t => t.at_.site == site && t.at_.cluster == phys)).flatMap (fun t =>
    t.live.map (·.handle))
  ((List.range 256).filter (fun h => !used.contains h)).take n

/-- The clusters of a site that an affinity mask names under a context. -/
def maskClusters (s : State) (ctx site : Nat) (aff : List Nat) : List Nat :=
  distinct ((findCtx s ctx).bound.filterMap (fun (a, n, p) => if n == site && aff.contains a then some p else none))

/-- The sites with a bound cluster of the mask, ascending. -/
def maskSites (s : State) (ctx : Nat) (aff : List Nat) : List Nat :=
  allSites.filter (fun n => !(maskClusters s ctx n aff).isEmpty)

/-- The clusters of a site that a launch was dealt (R328, R353). -/
def Launch.clustersAt (l : Launch) (site : Nat) : List Nat :=
  distinct (l.dealt.filterMap (fun (_, n, p) => if n == site then some p else none))

/-- The sites that hold them, ascending. -/
def Launch.sitesDealt (l : Launch) : List Nat := allSites.filter (fun n => !(l.clustersAt n).isEmpty)

/-- The core for n weaves of a kernel among some clusters of a site, of those that satisfy a condition: the fewest
resident weaves, then the lowest unit identifier (R329). -/
def chooseCore (s : State) (ok : CoreId → Bool) (site : Nat) (clusters : List Nat) (k : Kernel) (n : Nat) :
    Option (CoreId × List Nat) :=
  let cands := ((clusters.flatMap (clusterCores site)).filter ok).filterMap (fun c => (coreTakes s c k n).map (fun ps => (c, ps)))
  cands.foldl (fun acc (c, ps) => match acc with
    | none => some (c, ps)
    | some (b, qs) =>
      let x := (coreWeaves s c).length
      let y := (coreWeaves s b).length
      if x < y || (x == y && c.unit < b.unit) then some (c, ps) else some (b, qs)) none

end Sys2Proof.Machine
end

