-- ==== Sys2Proof/Machine/Image.lean ====
section
/-!
DEFINITION. The context image of a team (16 R305, R306, R308) as bytes, and a team rebuilt from them.
-/

namespace Sys2Proof.Machine

open Sys2Proof

/-! ### Helpers -/

def imgD (x : DWord) : List Byte := toBytes 8 x.toNat
def imgN (n x : Nat) : List Byte := toBytes n x

/-- Filled with zeros to n bytes. -/
def padTo (n : Nat) (bs : List Byte) : List Byte := (bs ++ List.replicate (n - bs.length) 0#8).take n

/-- Filled with zeros to a multiple of 128 bytes. -/
def pad128 (bs : List Byte) : List Byte := padTo (ceilDiv bs.length 128 * 128) bs

/-- Little-endian fields of an image. -/
def imgAt (img : List Byte) (off n : Nat) : Nat := ofBytes ((img.drop off).take n)
def imgDAt (img : List Byte) (off : Nat) : DWord := BitVec.ofNat 64 (imgAt img off 8)

/-! ### Register data (R305: slots and maps) -/

/-- The physical registers of a weave in slot order: current map, region checkpoint, fence checkpoints (none in an
image, R306), latch windows. -/
def Weave.vSlots (w : Weave) : List Nat := vHeldIds w w.plies
def Weave.sSlots (w : Weave) : List Nat := sHeldIds w w.plies

/-- Every map of a weave. -/
def Weave.maps (w : Weave) : List RegMap :=
  w.map :: (w.region.map (·.map)).toList ++ w.plies.filterMap (fun p => p.fence.map (·.map))

/-- The contents of a physical vector register of a weave. -/
def Weave.vData (w : Weave) (id : Nat) : LaneVec :=
  let at_ (m : RegMap) : Option LaneVec :=
    m.v.findSome? (fun r => r.bind (fun x => if x.id == id then some x.lanes else none))
  (w.maps.findSome? at_).getD
    ((w.latches.findSome? (fun l =>
      if l.scalar then none
      else if l.ids[0]? == some id then some (tabulate (fun i => (lane l.snap i).extractLsb' 0 32))
      else if l.ids[1]? == some id then some (tabulate (fun i => (lane l.snap i).extractLsb' 32 32))
      else none)).getD (List.replicate 32 0#32))

def Weave.sData (w : Weave) (id : Nat) : DWord :=
  let at_ (m : RegMap) : Option DWord :=
    m.s.findSome? (fun r => r.bind (fun x => if x.id == id then some x.val else none))
  (w.maps.findSome? at_).getD
    ((w.latches.findSome? (fun l => if l.scalar && l.ids.contains id then some (lane l.snap 0) else none)).getD 0#64)

/-- A rename-map half. -/
def mapHalf (pin poison : Bool) (slot : Nat) : Nat :=
  2 ^ 15 + (if pin then 2 ^ 14 else 0) + (if poison then 2 ^ 13 else 0) + slot % 1024

/-- 240 halves and 32 zero bytes. -/
def mapBytes (w : Weave) (m : RegMap) : List Byte :=
  let pv := (w.region.map (·.map.vIds)).getD []
  let ps := (w.region.map (·.map.sIds)).getD []
  padTo 512
    (m.v.flatMap (fun r => imgN 2 (match r with
      | none => 0
      | some x => mapHalf (pv.contains x.id) x.poison (w.vSlots.findIdx (· == x.id)))) ++
     m.s.flatMap (fun r => imgN 2 (match r with
      | none => 0
      | some x => mapHalf (ps.contains x.id) x.poison (w.sSlots.findIdx (· == x.id)))))

/-! ### The weave part -/

def plyBytes (w : Weave) (n : Nat) : List Byte :=
  match w.plies.find? (·.n == n) with
  | none => List.replicate 16 0#8
  | some p =>
    let sync := match p.wait with | .meet _ => 1 | _ => 0
    imgD (p.pc &&& 0x00FFFFFFFFFFFFFF#64) ++
      imgN 8 (p.mask.toNat + 2 ^ 32 + sync * 2 ^ 33 + min p.passed 63 * 2 ^ 40)

/-- The first sleeping ply's deadline and handle (R174). -/
def sleepPair (w : Weave) : Nat × Nat :=
  (w.plies.findSome? (fun p => match p.wait with
    | .sleepUntil d h => some (d.toNat, h.getD 0)
    | _ => none)).getD (0, 0)

/-- The latch windows: five bytes for each entry and ply, entry by entry: open, scalar, owner of the entry, poisoned and
the remaining count in the first, then the pinned slots, 0xFFFF for none (log 22). `own` says which windows own their
entry. -/
def latchBytes (w : Weave) (own : Nat → Nat → Bool) : List Byte :=
  (List.range 12).flatMap (fun k =>
    match w.latches.find? (fun l => l.entry == k / 4 && l.ply == k % 4) with
    | none => List.replicate 5 0#8
    | some l =>
      let slot (i : Nat) : Nat :=
        match l.ids[i]? with
        | none => 0xFFFF
        | some id => (if l.scalar then w.sSlots else w.vSlots).findIdx (· == id)
      imgN 1 (l.left % 4 + 128 + (if l.scalar then 64 else 0) + (if own l.entry l.ply then 32 else 0) +
        (if l.poison then 16 else 0)) ++ imgN 2 (slot 0) ++ imgN 2 (slot 1))

/-- The windows that stand aside while a handler runs (R51). -/
def Weave.asideWins (w : Weave) : List LatchWin := w.latches.filter (fun l => 4 ≤ l.ply)

/-- The values that the entries hold: those of their owners. -/
def latchValues (w : Weave) (own : Nat → Nat → Bool) : List Byte :=
  (List.range 3).flatMap (fun e =>
    match w.latches.find? (fun l => l.entry == e && own e l.ply) with
    | none => List.replicate 256 0#8
    | some l => padTo 256 (l.val.flatMap imgD))

/-- The slots of a register data section. -/
def slotBytes (w : Weave) : List Byte × List Byte :=
  (w.vSlots.flatMap (fun id => padTo 128 ((w.vData id).flatMap (fun x => imgN 4 x.toNat))),
   w.sSlots.flatMap (fun id => imgD (w.sData id)))

/-- The weave part; `own` as for the latch windows, `hook` the bit of `pstat` that the module fixes (R300). -/
def weavePart (own : Nat → Nat → Bool) (hook : Bool) (w : Weave) : List Byte :=
  let (sd, sh) := sleepPair w
  let ev := (if w.evEngine then 1 else 0) + (if w.evSignal then 2 else 0)
  pad128
   ((([w.pstat ||| boolBit hook 7, w.tvec, w.epc, w.tcause] ++ (List.range 4).map (fun k => w.tinfo.getD k 0#64)).flatMap imgD) ++
    (List.range 4).flatMap (plyBytes w) ++
    padTo 128 (imgD w.memdef ++ imgD w.stklim ++ imgD w.rgnpc ++ imgN 8 w.fpflags.toNat ++ imgD w.srseed ++ imgD w.gang ++
      imgN 8 w.cursor ++ imgN 8 w.nextHandle ++ (List.range 4).flatMap (fun k => imgN 4 (w.crewCnt.getD k 0#32).toNat) ++
      imgN 8 ev ++ imgN 8 sd ++ imgN 8 sh ++ imgD (w.tscr.getD 0 0#64) ++ imgD (w.tscr.getD 1 0#64)) ++
    (List.range 32).flatMap (fun i => imgN 4 (w.srcnt.getD i 0#32).toNat) ++
    padTo 32 ((List.range 7).flatMap (fun k => imgN 4 (w.kregs.getD (k + 1) 0#32).toNat)) ++
    padTo 32 (imgN 8 w.vSlots.length ++ imgN 8 w.sSlots.length) ++
    mapBytes w w.map ++
    (match w.region with
     | some g => if w.rgnpc.getLsbD 63 then mapBytes w g.map else List.replicate 512 0#8
     | none => List.replicate 512 0#8) ++
    padTo 64 (latchBytes w own) ++
    padTo 512 (w.handles.flatMap (fun h => imgN 8 h.h ++ imgD h.promise)) ++
    latchValues w own ++ (slotBytes w).1 ++ (slotBytes w).2)

/-! ### The team part -/

/-- A side-log entry (R355). -/
def logBytesOf (e : LogEntry) (fol : Bool) : List Byte :=
  let (home, fid) := if fol then (0, 0) else e.fid.getD (0, 0)
  let n := e.store.bytes.length
  imgN 8 e.store.ia ++
  imgN 8 (e.store.op * 2 ^ 60 + e.store.type * 2 ^ 56 + n * 2 ^ 48 + e.store.order * 2 ^ 45 + e.windex * 2 ^ 40 +
    e.ply * 2 ^ 38 + fid * 2 ^ 28 + home * 2 ^ 22 + (if fol then 2 ^ 21 else 0)) ++
  padTo (ceilDiv n 8 * 8) e.store.bytes

def logSection (es : List LogEntry) : List Byte := padTo 4096 (es.flatMap (fun e => logBytesOf e (!(e.fid.map (fun (_, k) => k < maxPending)).getD false)))

/-- A reservation record: dwords 0 and 1, the tensor scale in dword 2, the live bit in dword 3 (log 22). -/
def resnBytes (o : Option Resn) : List Byte :=
  match o with
  | none => List.replicate 32 0#8
  | some r => imgD r.d0 ++ imgD r.d1 ++ imgN 8 r.tscale.toNat ++ imgN 8 1

/-- A gather list: 64 indices, the filled bit at bit 31 of index 63. -/
def listBytes (o : Option GatherList) : List Byte :=
  match o with
  | none => List.replicate 256 0#8
  | some g => (List.range 64).flatMap (fun i =>
      imgN 4 (((g.rows.getD i none).getD 0) % 2 ^ 31 + (if i == 63 then 2 ^ 31 else 0)))

/-- An unstarted matrix command: the operation with its shape, mode and type, then its operand values (log 22). -/
def cmdBytes (e : EngCmd) : List Byte :=
  let op := match e.op with
    | .mm => 0 | .mtr => 1 | .mperm => 2 | .mrsum => 3 | .obload => 4 | .obgath => 5 | .accZero => 6 | .accLd => 7 | .accSt => 8
  padTo 64 (imgN 8 (op + e.shape * 2 ^ 8 + e.rnd * 2 ^ 16 + e.type * 2 ^ 24 + (if e.sp then 2 ^ 32 else 0) +
    (if e.recomb then 2 ^ 33 else 0)) ++ [e.d, e.a, e.b, e.rows, e.cols, e.depth].flatMap imgD)

/-- A kept command with what the image holds of it. -/
def readCmd (img : List Byte) (off : Nat) (e : EngCmd) : EngCmd :=
  let h := imgAt img off 8
  let x (k : Nat) : DWord := imgDAt img (off + 8 + 8 * k)
  { e with
    shape := bits h 15 8, rnd := bits h 23 16, type := bits h 31 24, sp := bit h 32, recomb := bit h 33
    d := x 0, a := x 1, b := x 2, rows := x 3, cols := x 4, depth := x 5 }

/-- The unstarted commands of an image, in issue order (R305, R308). -/
def readCmds (img : List Byte) (kept : List EngCmd) : List EngCmd :=
  ((List.range kept.length).zip kept).map (fun (k, e) => readCmd img (0x840 + 64 * k) e)

/-- The split fields of header dword 2. -/
def splitDword (d2 : DWord) : DWord := d2 &&& 0xFFFFFFFFE0000000#64

/-- The image of a team with its weaves all in the list (`own`: whether weave, entry and ply name the owner of a latch
entry), its log entries, its unstarted commands and the window
generation. -/
def imageOf (own : Nat → Nat → Nat → Bool) (hook : Bool) (t : Team) (log : List LogEntry) (cmds : List EngCmd) (gen : Nat) : List Byte :=
  let tags := pad128 ((List.range t.kernel.tagEntries).flatMap (fun i => imgD ((assoc? i t.tags).getD 0#64)))
  let claim := cellReadN t.scratch 0 t.kernel.claim
  let resv := pad128 (t.resns.flatMap (fun o => match o with
    | none => []
    | some r => cellReadN r.data 0 r.bytes))
  let weaves := t.weaves.flatMap (fun w => weavePart (own w.windex) hook w)
  let o1 := 0x2080
  let o2 := o1 + tags.length
  let o3 := o2 + ceilDiv claim.length 128 * 128
  let o4 := o3 + resv.length
  let total := o4 + weaves.length
  padTo 0x40 (imgN 8 (0x5443 * 2 ^ 48 + 1 * 2 ^ 40 + (t.kernel.wcount - 1) * 2 ^ 32) ++ imgN 8 total ++ imgD t.team ++
    imgD t.crews ++ imgN 8 t.kernel.addr ++ imgD (splitDword t.kernel.d2) ++ imgN 8 gen ++
    imgN 8 (o1 / 128 + o2 / 128 * 2 ^ 16 + o3 / 128 * 2 ^ 32 + o4 / 128 * 2 ^ 48)) ++
  padTo 512 (t.resns.flatMap resnBytes) ++
  padTo 1024 (t.lists.flatMap listBytes) ++
  padTo 512 (t.counts.flatMap (fun x => imgN 4 x.toNat)) ++
  padTo 2048 (cmds.flatMap cmdBytes) ++
  padTo 4160 (logSection log) ++ tags ++ pad128 claim ++ resv ++ weaves

/-- The poisoned words of the reservations of an image, from an offset on. -/
def resnBad : Nat → List (Option Resn) → List Nat
  | _, [] => []
  | off, none :: rest => resnBad off rest
  | off, some r :: rest => r.poison.map (fun w => off / 4 + w) ++ resnBad (off + r.bytes) rest

/-- The words of the poisoned entries of a log section, from an offset on. -/
def logBad : Nat → List LogEntry → List Nat
  | _, [] => []
  | off, e :: rest =>
    let n := ceilDiv e.store.bytes.length 8 * 8
    (if e.bad then (List.range (n / 4)).map (fun k => off / 4 + 4 + k) else []) ++ logBad (off + 16 + n) rest

/-- The words of an image that carry an uncorrectable error of the tag table, the claim, a reservation or a log entry
(R359); that of a register is a bit of its map (R305). -/
def imageBad (t : Team) (log : List LogEntry) : List Nat :=
  let o1 := 0x2080
  let o2 := o1 + ceilDiv (8 * t.kernel.tagEntries) 128 * 128
  let o3 := o2 + ceilDiv t.kernel.claim 128 * 128
  t.tagBad.flatMap (fun i => [o1 / 4 + 2 * i, o1 / 4 + 2 * i + 1]) ++ t.scratchPoison.map (o2 / 4 + ·) ++
    resnBad o3 t.resns ++ logBad 0x1040 log

/-! ### Rebuilding a team (R308) -/

/-- The maps of a weave part; a slot keeps the number that it had, or takes a new one. -/
def readMap (kv ks : List Nat) (fresh : Nat) (img : List Byte) (off vdata sdata : Nat) : RegMap :=
  let half (k : Nat) : Nat := imgAt img (off + 2 * k) 2
  { v := (List.range 192).map (fun n =>
      let h := half n
      let slot := h % 1024
      if bit h 15 then
        some ⟨kv.getD slot (fresh + slot), tabulate (fun i => BitVec.ofNat 32 (imgAt img (vdata + 128 * slot + 4 * i) 4)), bit h 13⟩
      else none)
    s := (List.range 48).map (fun n =>
      let h := half (192 + n)
      let slot := h % 1024
      if bit h 15 then some ⟨ks.getD slot (fresh + 1024 + slot), imgDAt img (sdata + 8 * slot), bit h 13⟩ else none) }

/-- The latch windows of a weave part or a spill area. -/
def readLatches (kv ks : List Nat) (fresh : Nat) (img : List Byte) (off values vdata sdata : Nat) : List LatchWin :=
  (List.range 12).filterMap (fun k =>
    let o := off + 5 * k
    let b := imgAt img o 1
    if !bit b 7 then none
    else
      let slots := [imgAt img (o + 1) 2, imgAt img (o + 3) 2].filter (· != 0xFFFF)
      let sc := bit b 6
      let vec (j i : Nat) : Word := match slots[j]? with
        | some x => BitVec.ofNat 32 (imgAt img (vdata + 128 * x + 4 * i) 4)
        | none => 0#32
      let snap : WideVec := tabulate (fun i =>
        if sc then ((slots[0]?).map (fun x => imgDAt img (sdata + 8 * x))).getD 0#64 else vec 1 i ++ vec 0 i)
      some {
        entry := k / 4, ply := k % 4, left := b % 4, scalar := sc, poison := bit b 4, snap := snap
        ids := slots.map (fun x => if sc then ks.getD x (fresh + 1024 + x) else kv.getD x (fresh + x))
        val := if bit b 5 then tabulate (fun i => imgDAt img (values + 256 * (k / 4) + 8 * i)) else snap })

/-- The windows that own their entries, as entry and ply. -/
def readOwners (img : List Byte) (off : Nat) : List (Nat × Nat) :=
  (List.range 12).filterMap (fun k => if imgAt img (off + 5 * k) 1 / 32 % 2 == 1 && bit (imgAt img (off + 5 * k) 1) 7 then some (k / 4, k % 4) else none)

/-- The sleeping ply whose deadline and handle an image holds: the first one (R305, log 22). -/
def sleeper (w : Weave) : Option Ply :=
  w.plies.find? (fun p => match p.wait with
    | .sleepUntil _ _ => true
    | _ => false)

/-- A ply of a weave part; what its saved wait does after a restore: a sleep for events returns 0, a sleep for a time
and a wait for handles go on, every other wait is met again at its instruction (R174, R175, R270). -/
def readPly (k : Weave) (img : List Byte) (off n : Nat) : Option Ply :=
  let d1 := imgAt img (off + 16 * n + 8) 8
  let old := (k.plies.find? (·.n == n)).getD {}
  if !bit d1 32 then none
  else
    let w := match old.wait with
      | .none => Wait.none
      | .sleepEv _ _ _ _ => .woken 0
      | .sleepUntil d h =>
        if (sleeper k).map (·.n) == some n then
          .sleepUntil (imgDAt img (off + 0x98)) (h.map (fun _ => imgAt img (off + 0xA0) 8))
        else .sleepUntil d h
      | .xwait hs => .xwait hs
      | .woken x => .woken x
      | .evrec a f => .evrec a f
      | .launch => .launch
      | _ => .retry
    some { old with
      n := n, pc := BitVec.ofNat 64 (imgAt img (off + 16 * n) 8 % 2 ^ 56), mask := BitVec.ofNat 32 d1
      passed := d1 / 2 ^ 40 % 64, wait := w, dueAt := none, fence := none, gateSeq := [], seqLeft := 0 }

/-- The length of a weave part. -/
def weaveLen (img : List Byte) (off : Nat) : Nat :=
  ceilDiv (0xB00 + 128 * imgAt img (off + 0x1A0) 8 + 8 * imgAt img (off + 0x1A8) 8) 128 * 128

/-- A register of an image; a reserved field reads as zero whatever the image holds there (00 R13). -/
def imgReg (img : List Byte) (off : Nat) (fields : DWord) : DWord := imgDAt img off &&& fields

/-- A weave from its part at an offset; `outs` are the handles still outstanding. The windows that stand aside for a
handler are kept beside the image, whose area holds those of the four plies (log 22). -/
def readWeave (k : Weave) (outs : List Handle) (fresh : Nat) (img : List Byte) (off : Nat) : Weave :=
  let nv := imgAt img (off + 0x1A0) 8
  let d (x : Nat) : DWord := imgDAt img (off + x)
  let vdata := off + 0xB00
  let sdata := vdata + 128 * nv
  let map (o : Nat) : RegMap := readMap k.vSlots k.sSlots fresh img (off + o) vdata sdata
  let rgnpc := imgReg img (off + 0x90) 0x80FFFFFFFFFFFFFF#64
  let ev := imgAt img (off + 0xD0) 8
  let plies := if k.ended then [] else (List.range 4).filterMap (readPly k img (off + 0x40))
  { k with
    plies := plies, map := map 0x1C0
    kregs := 0#32 :: (List.range 7).map (fun i => BitVec.ofNat 32 (imgAt img (off + 0x180 + 4 * i) 4))
    gang := imgReg img (off + 0xA8) 0x0007FFFFFFFFFFFF#64, memdef := imgReg img (off + 0x80) 0x7FF#64
    stklim := imgReg img (off + 0x88) 0x00FFFFFFFFFFFFF0#64, rgnpc := rgnpc
    fpflags := BitVec.ofNat 7 (imgAt img (off + 0x98) 8), srseed := d 0xA0
    srcnt := tabulate (fun i => BitVec.ofNat 32 (imgAt img (off + 0x100 + 4 * i) 4))
    latches := readLatches k.vSlots k.sSlots fresh img (off + 0x5C0) (off + 0x800) vdata sdata ++ k.asideWins
    resv := []
    region := if rgnpc.getLsbD 63 then
        some { map := map 0x3C0, ply := (k.region.map (·.ply)).getD ((plies.map (·.n)).headD 0)
               mask := (k.region.map (·.mask)).getD ((plies.map (·.mask)).headD 0#32), tagMark := k.nextTag }
      else none
    cursor := imgAt img (off + 0xB0) 8, nextHandle := imgAt img (off + 0xB8) 8
    crewCnt := (List.range 4).map (fun i => BitVec.ofNat 32 (imgAt img (off + 0xC0 + 4 * i) 4))
    evEngine := bit ev 0, evSignal := bit ev 1
    handles := (List.range 32).filterMap (fun i =>
      let h := imgAt img (off + 0x600 + 16 * i) 8
      (outs.find? (·.h == h)).map (fun x => { x with promise := imgDAt img (off + 0x608 + 16 * i) }))
    evicted := false, stalled := none, defer := none
    pstat := imgReg img off 0x11#64, tvec := imgReg img (off + 8) 0x80FFFFFFFFFFFFFF#64, epc := d 16
    tcause := imgReg img (off + 24) 0xFF830000FFFFFFFF#64
    tinfo := (List.range 4).map (fun i => d (32 + 8 * i))
    tscr := [d 0xE8, d 0xF0] }

/-- The weaves of an image. -/
def readWeaves (outs : List (Nat × List Handle)) (fresh : Nat) (img : List Byte) : List Weave → Nat → List Weave
  | [], _ => []
  | k :: rest, off =>
    readWeave k ((assoc? k.windex outs).getD []) fresh img off ::
      readWeaves outs (fresh + 2048) img rest (off + weaveLen img off)

/-- The owners of latch entries in the parts of an image: windex, entry and ply. -/
def imageOwners (img : List Byte) : List Weave → Nat → List (Nat × Nat × Nat)
  | [], _ => []
  | k :: rest, off => (readOwners img (off + 0x5C0)).map (fun (e, p) => (k.windex, e, p)) ++ imageOwners img rest (off + weaveLen img off)

/-- The contents of the live reservations, in handle order. -/
def readResns (kept : List (Option Resn)) (img : List Byte) : Nat → Nat → List Nat → List (Option Resn)
  | _, _, [] => []
  | fresh, off, h :: rest =>
    let o := 0x40 + 32 * h
    if imgAt img (o + 24) 8 % 2 == 0 then none :: readResns kept img fresh off rest
    else
      let d0 := imgDAt img o
      let old := (kept.getD h none).getD
        { id := fresh + h, d0 := d0, d1 := imgDAt img (o + 8), tscale := 0#32, base := 0, data := [] }
      let r : Resn := { old with d0 := d0, d1 := imgDAt img (o + 8), tscale := BitVec.ofNat 32 (imgAt img (o + 16) 8) }
      some { r with data := cellWriteN [] 0 ((img.drop off).take r.bytes), poison := [] } ::
        readResns kept img fresh (off + r.bytes) rest

/-- The team that an image holds, over what was kept of it: beside the live reservations, which the image holds, the
released ones that an unstarted command still names (R242). `fresh` is a range of unused names. -/
def readTeam (kept : Team) (outs : List (Nat × List Handle)) (named : List Nat) (fresh : Nat) (img : List Byte) : Team :=
  let offs := imgAt img 0x38 8
  let o (k : Nat) : Nat := offs / 2 ^ (16 * k) % 65536 * 128
  { kept with
    team := imgDAt img 0x10, crews := imgReg img 0x18 0x0000000FFFFFFFFF#64
    resns := readResns kept.resns img fresh (o 2) (List.range 16)
    oldResns := kept.oldResns.filter (fun r => named.contains r.id)
    lists := (List.range 4).map (fun k =>
      let base := 0x240 + 256 * k
      if !bit (imgAt img (base + 252) 4) 31 then none
      else (kept.lists.getD k none).map (fun g =>
        { g with rows := ((List.range g.rows.length).zip g.rows).map (fun (i, r) =>
            r.map (fun _ => imgAt img (base + 4 * i) 4 % 2 ^ 31)) }))
    counts := (List.range 64).map (fun k => BitVec.ofNat 32 (imgAt img (0x640 + 4 * k) 4))
    tags := (List.range kept.kernel.tagEntries).filterMap (fun i =>
      let e := imgReg img (o 0 + 8 * i) 0xC0FFFFFFFFFFFFFF#64
      if e == 0#64 then none else some (i, e))
    tagBad := [], scratchPoison := []
    scratch := cellWriteN [] 0 ((img.drop (o 1)).take kept.kernel.claim)
    weaves := readWeaves outs (fresh + 16) img kept.weaves (o 3) }

/-- A side-log entry of an image at an offset, with its length; `none` at the zero dword. -/
def readLogEntry (uid serial : Nat) (img : List Byte) (off : Nat) : Option (LogEntry × Nat) :=
  let d1 := imgAt img (off + 8) 8
  let n := bits d1 55 48
  if n == 0 then none
  else
    some ({ uid := uid, windex := bits d1 44 40, ply := bits d1 39 38, serial := serial
            fid := if bit d1 21 then none else some (bits d1 27 22, bits d1 37 28)
            store := { ia := imgAt img off 8, bytes := (img.drop (off + 16)).take n, order := bits d1 47 45
                       op := bits d1 63 60, type := bits d1 59 56 } }, 16 + ceilDiv n 8 * 8)

/-- The side-log entries of an image; `kept` gives the instruction and the remote operation of each. -/
def readLog (uid : Nat) (img : List Byte) : Nat → List LogEntry → Nat → List LogEntry
  | 0, _, _ => []
  | fuel + 1, kept, off =>
    match readLogEntry uid off img off with
    | none => []
    | some (e, n) =>
      let k := kept.headD e
      { e with serial := k.serial, rop := k.rop, lanes := k.lanes } :: readLog uid img fuel (kept.drop 1) (off + n)

/-- The magic, the version and the split of an image fit the team (R308). -/
def imageFits (kept : Team) (img : List Byte) : Bool :=
  imgAt img 0 8 / 2 ^ 40 == 0x544301 && imgDAt img 0x28 == splitDword kept.kernel.d2 &&
  imgAt img 4 4 % 32 == kept.kernel.wcount - 1

end Sys2Proof.Machine
end

