-- ==== Sys2Proof/Machine/Spill.lean ====
section
/-!
DEFINITION. Eviction of a weave's registers into its register spill area, and their refill (02 R48, 04 R93).
-/

namespace Sys2Proof.Machine

open Sys2Proof

/-! ### The area: 96 KiB above the stack's top (R93) -/

/-- Offsets in the area: the maps (current, region, four fence checkpoints), the latch windows and values, then at most
512 vector slots and 288 scalar slots, 71,744 bytes in all (log 25). -/
def areaLatches : Nat := 3072
def areaValues : Nat := 3136
def areaVectors : Nat := 3904
def areaScalars : Nat := 69440

/-- The map of ply n's fence checkpoint. -/
def fenceMap (w : Weave) (n : Nat) : Option RegMap := ((w.plies.find? (·.n == n)).bind (·.fence)).map (·.map)

/-- What an eviction writes, as bytes at virtual addresses: each part with its offset. -/
def areaParts (own : Nat → Nat → Bool) (w : Weave) : List (Nat × List Byte) :=
  let map (o : Option RegMap) : List Byte := (o.map (mapBytes w)).getD (List.replicate 512 0#8)
  [(0, map (some w.map)), (512, map (w.region.map (·.map)))] ++
  (List.range 4).map (fun n => (1024 + 512 * n, map (fenceMap w n))) ++
  [(areaLatches, padTo 64 (latchBytes w own)), (areaValues, latchValues w own),
   (areaVectors, (slotBytes w).1), (areaScalars, (slotBytes w).2)]

/-- The bytes of the area that an eviction of the weave writes: offset and length. -/
def areaSpans (w : Weave) : List (Nat × Nat) :=
  [(0, areaVectors), (areaVectors, 128 * w.vSlots.length), (areaScalars, 8 * w.sSlots.length)]

/-- The windows of the weave that own their latch entries. -/
def ownsEntry (s : State) (t : Team) (w : Weave) (e p : Nat) : Bool :=
  (findCore s t.at_).latchOwner.contains (w.part, e, t.uid, w.windex, p)

/-- Bytes go to memory, line by line; a line whose page fails is answered as cells. -/
def putLines (s : State) (t : Team) (va : Nat) (bytes : List Byte) : State × List Host.Cell :=
  (linePiecesOf va bytes.length).foldl (fun (acc, left) (a, len) =>
    let bs := (bytes.drop (a - va)).take len
    match (translate acc t.ctx a).map (fun ia => masterPut acc (ctxMaster t.ctx) t.at_.site ia bs false) with
    | some (.ok s1) => (s1, left)
    | _ => (acc, left ++ (List.range len).zipWith (fun k b => (a + k, b)) bs)) (s, [])

/-- The weave is evicted: its registers, maps and windows go into its area. The stack cache holds the area like stack lines
and spills it at once; a line whose page fails stays there. The weave keeps its floor of the pools (R46, R48). -/
def evictWeave (s : State) (uid windex : Nat) : State :=
  match findTeam s uid, findWeave s uid windex with
  | some t, some w =>
    let (s1, left) := (areaParts (ownsEntry s t w) w).foldl (fun (acc, left) (off, bytes) =>
      let (acc1, l1) := putLines acc t (w.stkTop + off) bytes
      (acc1, left ++ l1)) (s, [])
    onWeave s1 uid windex (fun x => { x with stack := x.stack.filter (fun c => c.1 < x.stkTop) ++ left, evicted := true })
  | _, _ => s

/-! ### Refill -/

/-- Bytes of the area as it stands: from the stack cache, else from memory. -/
def getLines (s : State) (t : Team) (w : Weave) (va n : Nat) : Except Failure (State × List Byte) :=
  (linePiecesOf va n).foldl (fun acc (a, len) =>
    match acc with
    | .error e => .error e
    | .ok (s1, bs) =>
      if (assoc? a w.stack).isSome then .ok (s1, bs ++ (List.range len).map (fun k => (assoc? (a + k) w.stack).getD 0#8))
      else match masterGet s1 (ctxMaster t.ctx) t.at_.site ((translate s1 t.ctx a).getD 0) len with
        | .error e => .error e
        | .ok (s2, b2, _) => .ok (s2, bs ++ b2)) (.ok (s, []))

/-- The area as one byte list. -/
def readArea (s : State) (t : Team) (w : Weave) : Except Failure (State × List Byte) :=
  (areaSpans w).foldl (fun acc (off, n) =>
    match acc with
    | .error e => .error e
    | .ok (s1, bs) =>
      match getLines s1 t w (w.stkTop + off) n with
      | .error e => .error e
      | .ok (s2, b2) => .ok (s2, padTo off bs ++ b2)) (.ok (s, []))

/-- The weave with what its area holds (R93). -/
def fromArea (w : Weave) (fresh : Nat) (img : List Byte) : Weave :=
  let map (off : Nat) : RegMap := readMap w.vSlots w.sSlots fresh img off areaVectors areaScalars
  { w with
    map := map 0
    region := w.region.map (fun g => { g with map := map 512 })
    plies := w.plies.map (fun p => { p with fence := p.fence.map (fun c => { c with map := map (1024 + 512 * p.n) }) })
    latches := readLatches w.vSlots w.sSlots fresh img areaLatches areaValues areaVectors areaScalars ++ w.asideWins
    stack := w.stack.filter (fun c => c.1 < w.stkTop), evicted := false }

/-- An evicted weave takes its registers back. A page of the area that fails keeps it evicted, behind a pending entry. -/
def refillWeave (s : State) (uid windex : Nat) : State :=
  match findTeam s uid, findWeave s uid windex with
  | some t, some w =>
    match readArea s t w with
    | .error e => (holdPending s e { agentRequester s uid t.at_.unit t.ctx 0 with lanes := 0 } (.area uid windex)).1
    | .ok (s1, img) =>
      let s2 := onWeave s1 uid windex (fun x => fromArea x s1.nextId img)
      let mine (x : Nat × Nat × Nat × Nat × Nat) : Bool := x.1 == w.part && x.2.2.1 == uid && x.2.2.2.1 == windex
      let aside := (w.asideWins.filter (fun l => ownsEntry s t w l.entry (l.ply - 4))).map (fun l => (w.part, l.entry, uid, windex, l.ply - 4))
      let back := (readOwners img areaLatches).map (fun (e, p) => (w.part, e, uid, windex, p)) ++ aside
      onCore { s2 with nextId := s2.nextId + 2048 } t.at_ (fun c =>
        { c with latchOwner := (back.filter (fun x => !c.latchOwner.any (fun y => y.1 == x.1 && y.2.1 == x.2.1 && !mine y))) ++
            c.latchOwner.filter (fun x => !mine x) })
  | _, _ => s

end Sys2Proof.Machine
end

