-- ==== Sys2Proof/Machine/Save.lean ====
section
/-!
DEFINITION. Taking a team off its core and putting it back (01 R30, R34; 16 R305 to R308; 17 R331).
-/

namespace Sys2Proof.Machine

open Sys2Proof

/-! ### Image memory -/

/-- An activity engine of a core as a master (R344 kind 1). -/
def activityMaster (unit ctx : Nat) : Master := ⟨1, unit, ctx⟩

/-- Bytes to a run of pages, with poison in the words `bad`; the first failing line stops it. -/
def writePages (s : State) (m : Master) (src : Nat) (pages : List Nat) (bytes : List Byte) (bad : List Nat) : Except Failure State :=
  (List.range (ceilDiv bytes.length 128)).foldl (fun acc k =>
    match acc with
    | .error e => .error e
    | .ok s1 =>
      let at_ := pages.getD (k / 32) 0 + 128 * (k % 32)
      match masterPut s1 m src at_ ((bytes.drop (128 * k)).take 128) false with
      | .error e => .error e
      | .ok s2 => (bad.filter (fun w => w / 32 == k)).foldl (fun acc w =>
          match acc with
          | .error e => .error e
          | .ok s3 => masterPut s3 m src (at_ + 4 * (w % 32)) ((bytes.drop (4 * w)).take 4) true) (.ok s2)) (.ok s)

/-- The bytes of a run of pages, and whether poison is among them. -/
def readPages (s : State) (m : Master) (src : Nat) (pages : List Nat) : Except Failure (State × List Byte × Bool) :=
  (List.range (32 * pages.length)).foldl (fun acc k =>
    match acc with
    | .error e => .error e
    | .ok (s1, bs, bad) =>
      match masterGet s1 m src (pages.getD (k / 32) 0 + 128 * (k % 32)) 128 with
      | .error e => .error e
      | .ok (s2, b2, bad2) => .ok (s2, bs ++ b2, bad || bad2)) (.ok (s, [], false))

/-- Every suspended team of every launch. -/
def allSuspended (s : State) : List Suspended := s.launches.flatMap (·.suspended)

/-- How a fault record shows a save (6) or a restore (5): the unit is also the master value (R349). -/
def imageRequester (s : State) (uid unit acc : Nat) : Requester :=
  let ctx := ((findTeam s uid).map (·.ctx)).orElse (fun _ => ((allSuspended s).find? (·.uid == uid)).map (·.kept.ctx))
  { unit := unit, ctx := unit, acc := acc, lnum := 0xFFFFFFFF, tix := 0xFFFFFFFF, lanes := 0, tag := ctx.getD 0 }

/-- The next pages of a context's save pool, above every image that lies in it (log 23). -/
def poolPages (s : State) (ctx n : Nat) : List Nat :=
  let base := (findCtx s ctx).savePool
  let top := ((allSuspended s).filter (fun x => x.pool && x.kept.ctx == ctx)).foldl (fun acc x =>
    x.pages.foldl (fun a p => max a (p + 4096)) acc) base
  (List.range n).map (fun k => top + 4096 * k)

/-! ### Rolling back a fence (R55, R117) -/

/-- A vector name after a roll-back: where the ply alone wrote or unmapped it, the checkpoint's register; where other
plies did as well, the ply's lanes from there; every other name stays (R55, R117). -/
def FenceCkpt.rollV (c : FenceCkpt) (n : Nat) (cur : Option VReg) : Option VReg :=
  match assoc? n c.own with
  | none => cur
  | some m =>
    let old := c.map.v.getD n none
    if !c.others.contains n then old
    else match old, cur with
      | none, none => none
      | none, some r => some { r with lanes := mergeLanes m (tabulate (fun _ => 0#32)) r.lanes }
      | some r0, none => some r0
      | some r0, some r => some { r with lanes := mergeLanes m r0.lanes r.lanes }

/-- A scalar name after a roll-back; a name that another ply wrote later is none of the ply's own (R19). -/
def FenceCkpt.rollS (c : FenceCkpt) (n : Nat) (cur : Option SReg) : Option SReg :=
  if (assoc? (0xC0 + n) c.own).isSome then c.map.s.getD n none else cur

/-- The map of the weave after a roll-back. -/
def FenceCkpt.rollMap (c : FenceCkpt) (m : RegMap) : RegMap :=
  { v := ((List.range 192).zip m.v).map (fun (n, r) => c.rollV n r)
    s := ((List.range 48).zip m.s).map (fun (n, r) => c.rollS n r) }

/-- A ply rolls back to its `fence.spec`: the names that it wrote, its pc and its mask return, queued stores and later
loads are discarded. `again` counts a failed validation. Latch windows that the ply opened after the fence stay open: the
rules do not speak of them (DESIGN CHOICE, log 125). A fence that is complete does not roll back. -/
def rollFence (s : State) (uid windex n : Nat) (again : Bool) : State :=
  match (findWeave s uid windex).bind (fun w => w.plies.find? (·.n == n)) with
  | none => s
  | some p =>
    match p.fence with
    | none => s
    | some c =>
      if c.done then s else
      let later (l : Nat) : Bool := c.tagMark ≤ l
      let s1 := onWeave s uid windex (fun w => { w with
        map := c.rollMap w.map
        loads := w.loads.filter (fun l => !(l.ply == n && later l.tag))
        pends := w.pends.filter (fun x => !(x.ply == n && later x.tag))
        plies := w.plies.map (fun q => if q.n == n then
          { q with pc := c.pc, mask := c.mask, fence := none, wait := .none, rolled := if again then q.rolled + 1 else q.rolled }
          else q) })
      { s1 with accs := s1.accs.filter (fun a => !(a.ofPly uid windex n && c.mark ≤ a.id && !a.writes)) }

/-- Every fence checkpoint of a team rolls back (R306). -/
def rollTeam (s : State) (t : Team) : State :=
  t.weaves.foldl (fun acc w => w.plies.foldl (fun acc p => rollFence acc t.uid w.windex p.n false) acc) s

/-! ### When a team can be saved (R307) -/

/-- An access that waits on a home fault and is abandoned by a save (R306). -/
def Acc.abandoned (a : Acc) : Bool :=
  !a.writes && (match a.stage with
    | .fault => true
    | .full _ => true
    | .held => true
    | _ => false)

/-- An access that goes along with its team: a store that waits for room in the side log, for a pending entry or behind
another access (R331, R356), and a lane of an atomic that waits on a home fault, for its performed lanes are not
performed again (R221). -/
def Acc.heldBack (a : Acc) : Bool :=
  (a.writes && (match a.stage with
    | .full _ => true
    | .held => true
    | _ => false)) || (a.kind == 2 && a.abandoned)

/-- The access as it is tried again after a restore. -/
def Acc.again (a : Acc) (core : CoreId) : Acc := { a with src := core.site, unit := core.unit, stage := .held }

/-- Steps 2 to 5 of R307 are over for a team: no deferral runs, no stores leave a completed fence, no started command of it
and none that waits for a gathered row (R253), no copy or remote operation on its claim, and every issued instruction
complete. -/
def teamQuiet (s : State) (t : Team) : Bool :=
  let c := findCluster s t.at_.site t.at_.cluster
  t.weaves.all (fun w => w.defer.isNone && w.plies.all (fun p => !(p.fence.map (·.done)).getD false)) &&
  !c.cmds.any (fun e => (e.started || e.fid.isSome) && (e.uid == t.uid || e.owners.any (·.1 == t.uid))) &&
  !c.copies.any (fun k => k.uid == t.uid && (k.ssp || k.dsp)) &&
  !s.remotes.any (fun o => o.uid == t.uid && o.sp) &&
  !s.accs.any (fun a => a.uid == t.uid && !a.abandoned && !a.heldBack) &&
  t.weaves.all (fun w => w.loads.all (fun l => s.accs.any (fun a => a.uid == t.uid && a.windex == w.windex && a.tag == l.tag)))

/-- The teams that go with a team: its gang unit and its resident crews, all resident (R30, R32). -/
def unitStep (s : State) (uids : List Nat) : List Nat :=
  let linked (t u : Team) : Bool :=
    (t.launch == u.launch && t.at_.site == u.at_.site && t.at_.cluster == u.at_.cluster &&
      t.live.any (fun w => u.live.any (fun v => (gangMembers w.gang).contains v.handle))) ||
    (t.launch == u.launch && t.run == .original && u.run == .original &&
      ((findLaunch s t.launch).map (fun l => l.crews.any (fun c =>
        c.resident && c.members.contains t.lix && c.members.contains u.lix))).getD false)
  distinct (uids ++ (s.teams.filter (fun u => s.teams.any (fun t => uids.contains t.uid && linked t u))).map (·.uid))

def unitClose (s : State) : Nat → List Nat → List Nat
  | 0, us => us
  | n + 1, us => unitClose s n (unitStep s us)

def unitOf (s : State) (uid : Nat) : List Nat := unitClose s s.teams.length [uid]

/-! ### Saving -/

/-- Stack bytes go to memory; those whose page fails stay with the weave. -/
def flushStack (s : State) (t : Team) (w : Weave) : State × List Host.Cell := putCells s t.ctx t.at_.site w.stackBad w.stack

/-- What a save leaves of a weave: abandoned loads put their ply back at the load, while the entries of atomics (`keep`)
and incomplete fences stay; a volatile name is unmapped when `vol` is set, in the current map alone, for R53 does not speak of
the region checkpoint's map (DESIGN CHOICE, log 110); results are written (R306, R221, R230). A trap
that is due stays due (R332). -/
def saveWeave (k : Kernel) (vol : Bool) (keep : List Nat) (stack : List Host.Cell) (w : Weave) : Weave :=
  let back (p : Ply) : Ply :=
    match (w.loads.filter (fun l => l.ply == p.n && !keep.contains l.tag)).head? with
    | some l => { p with pc := l.pc, wait := .none }
    | none => { p with wait := if p.wait == .fetch then .none else p.wait }
  let map : RegMap :=
    if !vol then w.map
    else { v := ((List.range 192).zip w.map.v).map (fun (n, r) => if k.volV n then none else r)
           s := ((List.range 48).zip w.map.s).map (fun (n, r) => if k.volS n then none else r) }
  { w with
    plies := w.plies.map back, map := map
    loads := w.loads.filter (fun l => keep.contains l.tag)
    pends := w.pends.filter (fun p => keep.contains p.tag || p.fence.isSome || w.plies.any (fun q => q.n == p.ply && q.wait == .launch))
    resv := []
    stack := stack, stackBad := w.stackBad.filter (fun k => stack.any (fun c => c.1 / 4 == k))
    evicted := false, stalled := none, defer := none }

/-- The gangs of a team as team and weave names, in member order (R30). -/
def gangNames (s : State) (t : Team) : List (Nat × List (Nat × Nat)) :=
  t.weaves.filterMap (fun w =>
    let ms := gangMembers w.gang
    if ms.isEmpty then none
    else
      let name (h : Nat) : Nat × Nat :=
        ((s.teams.filter (fun u => u.at_.site == t.at_.site && u.at_.cluster == t.at_.cluster)).findSome? (fun u =>
          (u.live.find? (·.handle == h)).map (fun v => (u.uid, v.windex)))).getD (0, 0)
      some (w.windex, ms.map name))

/-- The state before the image is written: fences rolled back, arrivals withdrawn, loads abandoned, stacks in memory.
Answers the team as it is saved. -/
def readySave (s0 : State) (uid : Nat) (vol : Bool) : State × Option Team :=
  match findTeam s0 uid with
  | none => (s0, none)
  | some t0 =>
    -- the registers of an evicted weave are those of its spill area (R93)
    let back := t0.weaves.foldl (fun acc w => match (if w.evicted then some (readArea acc t0 w) else none) with
      | some (.ok _) => refillWeave acc uid w.windex
      | _ => acc) s0
    let s1 := rollTeam back t0
    let s2 := onCluster s1 t0.at_.site t0.at_.cluster (fun c => { c with latch := c.latch.filter (·.uid != uid) })
    match findTeam s2 uid with
    | none => (s2, none)
    | some t =>
      let (s3, ws) := t.weaves.foldl (fun (acc, out) w =>
        let (acc1, left) := flushStack acc t w
        let keep := (s2.accs.filter (fun a => a.uid == uid && a.windex == w.windex && a.kind == 2 && a.abandoned)).map (·.tag)
        (acc1, out ++ [saveWeave t.kernel vol keep left w])) (s2, [])
      (s3, some { t with weaves := ws })

/-- The pending entries that a team waits for (R331). -/
def teamFaults (s : State) (t : Team) : List (Nat × Nat) :=
  let ids := (s.accs.filter (·.uid == t.uid)).map (·.id)
  (s.pendings.filter (fun p => p.waiters.any (fun w => w.ofTeam t.uid || (match w with
    | .acc id => ids.contains id
    | _ => false)))).map (fun p => (p.home, p.fid))

/-- What a save writes: the state and the team as they are saved, the log entries and the unstarted commands that go along,
and the image. -/
structure SaveImage where
  s : State
  t : Team
  log : List LogEntry
  cmds : List EngCmd
  img : List Byte
  bad : List Nat

/-- `vol` discards volatile names (R306). -/
def saveImage (s0 : State) (uid : Nat) (vol : Bool) : Option SaveImage :=
  let (s, saved) := readySave s0 uid vol
  saved.map (fun t =>
    let core := findCore s t.at_
    let log := core.log.filter (·.uid == uid)
    let cl := findCluster s t.at_.site t.at_.cluster
    let cmds := (cl.outstanding.filter (fun e => e.uid == uid && !e.started)).map (fun e => { e with fid := none, staged := [] })
    let own (w e p : Nat) : Bool := core.latchOwner.contains (((t.weaves.find? (·.windex == w)).map (·.part)).getD 0, e, uid, w, p)
    -- a window that stands aside keeps with it whether it still owns its entry
    let aside (w : Weave) : Weave := { w with latches := w.latches.map (fun l =>
      if 4 ≤ l.ply then { l with lost := l.lost || !own w.windex l.entry (l.ply - 4) } else l) }
    { s := s, t := { t with weaves := t.weaves.map aside }, log := log, cmds := cmds, img := imageOf own s.hookEnabled t log cmds (findCtx s t.ctx).gen, bad := imageBad t log })

/-- The save of a team goes on under the save budget, from window to window where one does not suffice; the answer tells
whether its image has all that it needs (R305, R337). -/
def paySave (s : State) (uid : Nat) (vol : Bool) : State × Bool :=
  match saveImage s uid vol with
  | none => (s, true)
  | some x => payOn s (0, uid, 0) x.t.at_.site 5 (bytesUse x.img.length)

/-- The image can be written now. -/
def saveBudget (s : State) (uid : Nat) (vol : Bool) : Bool := (paySave s uid vol).2

/-- The team leaves its core with an image in the given pages, all of them written; a failing line leaves everything as
it was, but for the fault that it posts. `rs` as `Team.leaving`; `unit` and `gangs` as they were before any team of
the unit left. -/
def saveTo (s0 : State) (uid rs : Nat) (unit : List Nat) (gangs : List (Nat × List (Nat × Nat))) (pool : Bool)
    (pagesOf : State → Nat → Option (List Nat)) : State × Bool :=
  match saveImage s0 uid (rs == 0) with
  | none => (s0, false)
  | some ⟨s, t, log, cmds, img, bad⟩ =>
    match pagesOf s (ceilDiv img.length 4096) with
    | none => (s0, false)
    | some pages =>
      match writePages s (activityMaster t.at_.unit t.ctx) t.at_.site pages img bad with
      | .error e => ((holdPending s0 e (imageRequester s0 uid t.at_.unit 6) (.image uid)).1, false)
      | .ok s0' =>
        let s1 := noteWork (endPayment s0' (0, uid, 0)) t.launch t.at_.unit
        let x : Suspended := {
          uid := uid, lix := t.lix, site := t.at_.site, pages := pages, pool := pool, run := t.run, kept := t
          held := rs == 3, faults := teamFaults s t, since := s.cyc
          wdog := t.wdogAt.map (fun e => e - s.cyc)
          handles := t.weaves.map (fun w => (w.windex, w.handles))
          cmds := cmds, log := log, accs := s.accs.filter (fun a => a.uid == uid && a.heldBack), gangUnit := unit.filter (· != uid), gangs := gangs }
        let gone := (s1.accs.filter (·.uid == uid)).map (·.id)
        let s2 := onCore s1 t.at_ (fun c => { c with log := c.log.filter (·.uid != uid) })
        let s3 := onCluster s2 t.at_.site t.at_.cluster (fun c => { c with
          cmds := c.cmds.filter (fun e => !(e.uid == uid && !e.started)), waiting := c.waiting.filter (·.uid != uid) })
        let s4 := { s3 with
          teams := s3.teams.filter (·.uid != uid)
          accs := s3.accs.filter (·.uid != uid)
          watches := s3.watches.filter (·.uid != uid)
          pendings := s3.pendings.map (fun p => { p with waiters := p.waiters.filter (fun w => match w with
            | .acc id => !gone.contains id
            | .fetch u _ _ => u != uid
            | .area u _ => u != uid
            | .engine id => !cmds.any (·.id == id)
            | _ => true) }) }
        (onLaunch s4 t.launch (fun l => { l with suspended := l.suspended ++ [x] }), true)

/-- Every team of a unit leaves into the save pool; while one image meets a failing line all of them stay. -/
def saveUnit (s : State) (uids : List Nat) (rs : Nat) : State :=
  let gangs (u : Nat) : List (Nat × List (Nat × Nat)) := ((findTeam s u).map (gangNames s)).getD []
  let (s1, ok) := uids.foldl (fun (acc, ok) u =>
    if !ok then (acc, ok)
    else saveTo acc u rs uids (gangs u) true (fun s2 n => (findTeam s2 u).map (fun t => poolPages s2 t.ctx n))) (s, true)
  if ok then s1 else { s with pendings := s1.pendings, faultQ := s1.faultQ }

/-! ### The end of a team that is swapped out (R304, R308, R331) -/

/-- The end of a sampled original run is a skip (R366; log 30); an error in an image is consumed, record 0x04 (R360, R373). -/
def endSuspended (s : State) (launch uid code : Nat) (info : List DWord) : State :=
  match (findLaunch s launch).bind (fun l => l.suspended.find? (·.uid == uid)) with
  | none => s
  | some x =>
    let lnum := ((findLaunch s launch).map (·.lnum)).getD 0xFFFFFFFF
    let s0 := if code == 0x22 then postErr s 0x04 x.kept.ctx x.kept.at_.unit (info.headD 0#64).toNat lnum x.lix code 0 else s
    let s1 := { s0 with faultQ := s.faultQ ++ [fatalRecord s x.kept code info] }
    let s2 := { s1 with
      clusters := s1.clusters.map (fun c => { c with copies := c.copies.filter (·.uid != uid) })
      remotes := s1.remotes.filter (·.uid != uid)
      pendings := s1.pendings.map (fun p => { p with waiters := p.waiters.filter (fun w => !w.ofTeam uid) }) }
    onLaunch s2 launch (fun l => { l with
      poisoned := l.poisoned || x.run == .original
      suspended := l.suspended.filter (·.uid != uid)
      usedSlots := l.usedSlots.filter (fun g => !x.kept.slots.contains g)
      skipped := if x.run == .original && x.kept.sampled then l.skipped + 1 else l.skipped
      ended := if x.run == .original then l.ended ++ [x.lix] else l.ended
      crews := if x.run == .original then
          l.crews.map (fun c => if c.members.contains x.lix then { c with broken := true } else c)
        else l.crews })

/-! ### Restoring (R308) -/

/-- The lowest free buffer range of some units in a cluster; the state is parked. -/
def freeBuffer (s : State) (core : CoreId) (taken : List (Nat × Nat)) (units : Nat) : Option Nat :=
  (List.range 2048).find? (fun b => b + units ≤ 2048 && !rangeBusy s core b units &&
    taken.all (fun (x, n) => x + n ≤ b || b + units ≤ x))

/-- New buffer bases for a team's reservations (R94). -/
def rebase (s : State) (core : CoreId) : List (Option Resn) → List (Nat × Nat) → Option (List (Option Resn))
  | [], _ => some []
  | none :: rest, taken => (rebase s core rest taken).map (fun r => none :: r)
  | some r :: rest, taken =>
    (freeBuffer s core taken r.units).bind (fun b =>
      (rebase s core rest ((b, r.units) :: taken)).map (fun q => some { r with base := b } :: q))

/-- What a restore comes to. -/
inductive Restored where
  | done (s : State)
  | refused
  | lost
  | full
  | held (e : Failure)
  deriving DecidableEq

/-- A claim with the copies that `mst` sent to an original team before its admission or while it was away (R236, R334). -/
def Launch.claimOf (l : Launch) (run : RunKind) (lix : Nat) (claim : List Host.Cell) : List Host.Cell :=
  if run == .original then (l.heldMst.filter (·.1 == lix)).foldl (fun m (_, a, bs) => cellWriteN m a bs) claim else claim

/-- A suspended team, as its image gave it, on a core: its live weaves in partitions, with new handles. -/
def backTeam (s : State) (l : Launch) (x : Suspended) (t : Team) (core : CoreId) (parts : List Nat) (based : List (Option Resn)) : Team :=
  let live := t.weaves.filter (fun w => !w.ended)
  let hs := freeHandles s core.site core.cluster live.length
  let place (w : Weave) : Weave :=
    let k := live.findIdx (·.windex == w.windex)
    if w.ended then w
    else { w with
      handle := hs.getD k 0, part := parts.getD k 0, admitted := s.steps
      evSignal := w.evSignal || x.evSignal, evEngine := w.evEngine || x.evEngine.contains w.windex }
  { t with scratch := l.claimOf x.run x.lix t.scratch
           at_ := core, ranOn := t.ranOn ++ [(t.at_.site, t.at_.cluster)]
           resns := based.take 16, oldResns := (based.drop 16).filterMap id, weaves := t.weaves.map place, leaving := none
           wdogAt := x.wdog.map (fun n => s.cyc + n) }

/-- A suspended team on a core, its weaves in partitions, with new handles. -/
def restoreTeam (s : State) (l : Launch) (x : Suspended) (core : CoreId) (parts : List Nat) : Restored :=
  match readPages s (activityMaster core.unit x.kept.ctx) core.site x.pages with
  | .error e => .held e
  | .ok (s1, img, bad) =>
    if bad then .lost
    else if !imageFits x.kept img then .refused
    else
      let cmds := readCmds img x.cmds
      let t0 := readTeam x.kept x.handles (cmds.flatMap EngCmd.resns) s1.nextId img
      match rebase s1 core (t0.resns ++ t0.oldResns.map some) [] with
      | none => .full
      | some based =>
        let t := backTeam s1 l x t0 core parts based
        let log := readLog x.uid img 256 x.log 0x1040
        let back := x.accs.map (·.again core)
        let s2 := { s1 with nextId := s1.nextId + 100000, teams := insertTeam t s1.teams, accs := s1.accs ++ back }
        let partOf (w : Nat) : Nat := ((t.weaves.find? (·.windex == w)).map (·.part)).getD 0
        let aside := t.weaves.flatMap (fun w => (w.asideWins.filter (!·.lost)).map (fun l => (w.windex, l.entry, l.ply - 4)))
        let owners := (imageOwners img x.kept.weaves (imgAt img 0x3E 2 * 128) ++ aside).map (fun (w, e, p) => (partOf w, e, x.uid, w, p))
        let taken (c : Core) (o : Nat × Nat × Nat × Nat × Nat) : Bool := c.latchOwner.any (fun y => y.1 == o.1 && y.2.1 == o.2.1)
        let s3 := onCore s2 core (fun c => { c with log := log ++ c.log
                                                    latchOwner := owners.filter (fun o => !taken c o) ++ c.latchOwner })
        let s4 := onCluster s3 core.site core.cluster (fun c => { c with waiting := c.waiting ++ cmds.map (fun e =>
          { e with wins := (findCtx s3 x.kept.ctx).windows }) })
        -- a weave that holds more than its floor comes back evicted, and is refilled when the pools can supply it (R48)
        let above (w : Weave) : Bool := !w.ended && (t0.kernel.vfloor < vHeld w w.plies || t0.kernel.sfloor < sHeld w w.plies)
        let s5 := (t.weaves.filter above).foldl (fun acc w => evictWeave acc x.uid w.windex) s4
        .done (onLaunch s5 l.key (fun l => { l with
          suspended := l.suspended.filter (·.uid != x.uid)
          heldMst := if x.run == .original then l.heldMst.filter (·.1 != x.lix) else l.heldMst }))

/-- The gangs of restored teams name the new handles, the members in order (R30). -/
def regang (s : State) (x : Suspended) : State :=
  x.gangs.foldl (fun acc (windex, names) =>
    let handle (n : Nat × Nat) : Nat := ((findWeave acc n.1 n.2).map (·.handle)).getD 0
    let g := ((List.range names.length).zip names).foldl (fun v (k, n) => v + handle n * 2 ^ (8 * k)) (names.length * 2 ^ 48)
    onWeave acc x.uid windex (fun w => { w with gang := BitVec.ofNat 64 g })) s

end Sys2Proof.Machine
end

