-- ==== Sys2Proof/Machine/CopyEngine.lean ====
section
/-!
DEFINITION. The copy engine of a cluster and the network endpoint of a site (04 R102 to R104; 12 R265 to R276;
17 R337, R338; 23 R414).
-/

namespace Sys2Proof.Machine

open Sys2Proof

/-! ### Budgets (R337, R338) -/

/-- The allowance that copy shares give (R338): 0 dram, 1 mesh, 2 llc. -/
def allowanceOf (shares : List DWord) : Nat :=
  let share (res : Nat) : Nat := shareOf (shares.getD 2 0#64) res
  4096 * min (share 2) (min (share 1) (share 0))

/-- The allowance A of R338 in this window. -/
def copyAllowance (s : State) (site : Nat) : Nat := allowanceOf (sharesNow s site)

/-! ### Handles (R265) -/

def nextHandleOf (h : Nat) : Nat := if h == 0xFFFFFFFE then 1 else h + 1

/-- The issuing weave takes a handle. -/
def takeHandle (s : State) (copy : Bool) (promise : DWord) : State × Nat :=
  let h := s.weave.nextHandle
  ({ s with weave := { s.weave with
      nextHandle := nextHandleOf h, handles := s.weave.handles ++ [{ h := h, copy := copy, promise := promise }] } }, h)

/-! ### Copies (R267 to R271) -/

/-- The number of elements. -/
def Copy.total (c : Copy) : Nat := (c.dims.map (·.count)).foldl (· * ·) 1

def Copy.bytes (c : Copy) : Nat := c.total * 2 ^ c.lgel

/-- Bytes not yet performed. -/
def Copy.remain (c : Copy) : Nat := (c.total - c.pos) * 2 ^ c.lgel

/-- The displacement of element k in a linear order with dimension 0 innermost. -/
def strided : List (Nat × Int) → Nat → Int
  | [], _ => 0
  | (n, st) :: rest, k => ((k % n : Nat) : Int) * st + strided rest (k / n)

def Copy.src (c : Copy) (k : Nat) : Nat :=
  (c.sbase + BitVec.ofInt 64 (strided (c.dims.map (fun d => (d.count, d.sstr))) k)).toNat
def Copy.dst (c : Copy) (k : Nat) : Nat :=
  (c.dbase + BitVec.ofInt 64 (strided (c.dims.map (fun d => (d.count, d.dstr))) k)).toNat

/-- A copy engine as a requesting unit: its cluster's number (log 15). -/
def copyUnit (site phys : Nat) : Nat := engineUnit site phys

/-- What a global range held, byte by byte, for the bytes not yet noted (R104). -/
def notePre (s : State) (c : Copy) (va n : Nat) : Copy :=
  if !c.overlap then c
  else (List.range n).foldl (fun acc k =>
    match viaWindows c.wins (va + k) with
    | none => acc
    | some ia =>
      match (place s (ctxMaster c.ctx) rightR 0 ia).1 with
      | .cell key _ => if (assoc? ia acc.pre).isSome then acc else { acc with pre := acc.pre ++ [(ia, cellRead s.mem key)] }
      | _ => acc) c

/-- The bytes of a global range with those that a table of IAs names. -/
def Copy.over (c : Copy) (table : List Host.Cell) (va : Nat) (bytes : List Byte) : List Byte :=
  ((List.range bytes.length).zip bytes).map (fun (k, b) => ((viaWindows c.wins (va + k)).bind (fun ia => assoc? ia table)).getD b)

/-- The source bytes that a sequential copy would read for the element in hand. -/
def seqBytes (c : Copy) (va : Nat) (bytes : List Byte) : List Byte :=
  if c.overlap && !c.ssp then c.over c.seqv va bytes else bytes

/-- The source bytes of the element in hand: of an overlapping copy the values before the copy or those of a sequential
one, as the free choice says for this element (R104). -/
def chosenBytes (c : Copy) (va : Nat) (bytes : List Byte) : List Byte :=
  if c.overlap && !c.ssp then c.over (if Config.overlapOld c.id c.pos then c.pre else c.seqv) va bytes else bytes

/-- What a sequential copy would have written with the element in hand. -/
def noteSeq (c : Copy) (va : Nat) (bytes : List Byte) : Copy :=
  if !c.overlap then c
  else ((List.range bytes.length).zip bytes).foldl (fun acc (k, b) =>
    match viaWindows c.wins (va + k) with
    | none => acc
    | some ia => { acc with seqv := assocSet ia b acc.seqv }) c

/-- The source bytes of an element as the engine reads them now. -/
def readElem (s : State) (site : Nat) (c : Copy) (k : Nat) : Except Failure (State × List Byte × Bool) :=
  let n := 2 ^ c.lgel
  if c.ssp then .ok (readScratch s c.uid (c.src k) n, teamScratch s c.uid (c.src k) n, teamScratchBad s c.uid (c.src k) n)
  else teamGetAll s c.uid c.ctx site c.wins (c.src k) n

/-- One element moves; what has left by a port is what was read then. -/
def copyElem (s : State) (site : Nat) (c : Copy) : State × Copy × Option (Failure × Nat) :=
  let n := 2 ^ c.lgel
  let sa := c.src c.pos
  let da := c.dst c.pos
  let done (s : State) (c : Copy) : State × Copy × Option (Failure × Nat) := (s, { c with pos := c.pos + 1, out := c.out.filter (·.1 != c.pos) }, none)
  let put (s1 : State) (read : List Byte) (bad sent : Bool) : State × Copy × Option (Failure × Nat) :=
    let bytes := chosenBytes c sa read
    let cover (s : State) : State := onAnyTeam s c.uid (fun t => t.cover da 0 bytes)
    if c.dsp then done (putScratch s1 c.uid da bytes bad) c
    else
      let c1 := noteSeq (notePre s1 c da n) da (seqBytes c sa read)
      if c.dry then done (cover s1) c1
      else match agentPutAll s1 c.ctx site c.wins da bytes bad sent with
        | (s2, some f) => (s2, c, some (f, 6))
        | (s2, none) => done (cover s2) c1
  match assoc? c.pos c.out with
  | some (bytes, bad) => put s bytes bad true
  | none => match readElem s site c c.pos with
    | .error f => (s, c, some (f, 5))
    | .ok (s1, bytes, bad) => put s1 bytes bad false

/-- At most n elements move, until one fails at a home. -/
def copyElems (site : Nat) : Nat → State → Copy → State × Copy × Option (Failure × Nat)
  | 0, s, c => (s, c, none)
  | n + 1, s, c =>
    if c.total ≤ c.pos then (s, c, none)
    else match copyElem s site c with
      | (s1, c1, some f) => (s1, c1, some f)
      | (s1, c1, none) => copyElems site n s1 c1

def setCopy (s : State) (site phys : Nat) (c : Copy) : State :=
  onCluster s site phys (fun k => { k with copies := k.copies.map (fun x => if x.id == c.id then c else x) })

/-- A copy performs at most n elements; at a home fault it waits at its element (R269). -/
def advanceCopy (s : State) (site phys n : Nat) (c : Copy) : State × Copy :=
  if c.fid.isSome then (s, c)
  else
    match copyElems site n s c with
    | (s1, c1, none) => (setCopy s1 site phys c1, c1)
    | (s1, c1, some (f, acc)) =>
      let (s2, fid) := holdPending s1 f (agentRequester s1 c.uid (copyUnit site phys) c.ctx acc) (.copy c.id)
      let c2 := { c1 with fid := some fid }
      (setCopy s2 site phys c2, c2)

/-! ### The pace of an engine (R419) -/

/-- Lines that an engine with allowance a hands over up to offset d of a window: one every 16,384 × 128 / a cycles from the
window's start. -/
def linesTo (a d : Nat) : Nat := if a == 0 then 0 else min (a / 128) (d * a / 2097152 + 1)

/-- Those between two offsets of one window, both included. -/
def linesIn2 (a x y : Nat) : Nat := linesTo a y - (if x == 0 then 0 else linesTo a (x - 1))

/-- Lines that an engine of a site hands over between two values of `cyc`, both included, in or after the present window. -/
def linesDue (s : State) (site p n : Nat) : Nat :=
  let a (w : Nat) : Nat := if w == windowOf s site then copyAllowance s site else allowanceOf (effShares (findSite s site))
  let u := p / 16384
  let v := n / 16384
  if n < p then 0
  else if u == v then linesIn2 (a u) (p % 16384) (n % 16384)
  else linesIn2 (a u) (p % 16384) 16383 + (v - u - 1) * linesTo (a (u + 1)) 16383 + linesTo (a v) (n % 16384)

/-- The destination of an element is distant. -/
def Copy.goesOut (s : State) (c : Copy) (k : Nat) : Bool :=
  !c.dsp && !c.dry && (((viaWindows c.wins (c.dst k)).map (fun ia => isDistant s ia && iaNode ia != 0xFFF)).getD false)

/-- An element for a distant home is read when it is handed over, and leaves by its port (R418); one whose read fails does so
when it is performed. -/
def handElem (site : Nat) (x : State × Copy) (k : Nat) : State × Copy :=
  let (s, c) := x
  if !c.goesOut s k then x
  else match readElem s site c k with
    | .error _ => x
    | .ok (s1, bytes, bad) =>
      (leaveDistant s1 site ((viaWindows c.wins (c.dst k)).getD 0) c.ctx bytes, { c with out := c.out ++ [(k, bytes, bad)] })

/-- Elements of a copy are handed over. -/
def handElems (s : State) (site phys n : Nat) (c : Copy) : State :=
  let (s1, c1) := (List.range n).foldl (fun acc k => handElem site acc (c.handed + k)) (s, c)
  setCopy (spend s1 site 2 (bytesUse (n * 2 ^ c.lgel))) site phys { c1 with handed := c.handed + n }

/-- The next element of a copy would leave by a port that takes nothing now (R386). -/
def outBlocked (s : State) (site : Nat) (c : Copy) : Bool :=
  c.goesOut s c.handed &&
    (((distantPort s site (iaNode ((viaWindows c.wins (c.dst c.handed)).getD 0))).map (portFull s)).getD false)

/-- An engine hands over some bytes, the oldest copy first; one that waits for a fault, or for a port, hands over nothing. -/
def handBytes (site phys : Nat) : List Copy → Nat → State → State
  | [], _, s => s
  | c :: rest, left, s =>
    let n := if c.fid.isSome || outBlocked s site c then 0 else min (c.total - c.handed) (left / 2 ^ c.lgel)
    handBytes site phys rest (left - n * 2 ^ c.lgel) (if n == 0 then s else handElems s site phys n c)

/-- Elements that were handed over reach their homes. -/
def performSome (s : State) (site phys id : Nat) : State :=
  match (findCluster s site phys).copies.find? (·.id == id) with
  | none => s
  | some c =>
    let n := min (c.handed - c.pos) (Config.copyPerformed s.steps id)
    if n == 0 then s else (advanceCopy s site phys n c).1

/-- An engine goes on up to a value of its site's `cyc`: its pace, and what idle clocks give it, at most one line every 2 cycles
(R419). -/
def paceEngine (s : State) (now : Nat) (k : Cluster) : State :=
  let more := min (Config.copyAhead s.steps k.site k.phys) ((now + 1 - k.pacedTo) / 2)
  let s1 := handBytes k.site k.phys k.copies (128 * max (linesDue s k.site k.pacedTo now) more) s
  let s2 := onCluster s1 k.site k.phys (fun c => { c with pacedTo := now + 1 })
  k.copies.foldl (fun acc c => performSome acc k.site k.phys c.id) s2

/-- Every engine with copies goes on while `cyc` moves by a gap. -/
def paceEngines (s : State) (gap : Nat) : State :=
  (s.clusters.filter (fun k => !k.copies.isEmpty)).foldl (fun acc k => paceEngine acc (cycAt s k.site + gap) k) s

/-- A copy joins the queue of its engine, which begins where it was idle with the lines of this cycle. -/
def Cluster.enqueue (k : Cluster) (now : Nat) (c : Copy) : Cluster :=
  { k with copies := k.copies ++ [c], pacedTo := if k.copies.isEmpty then now else k.pacedTo }

/-- The promise of R102 for n bytes behind q bytes. -/
def promiseOf (s : State) (site : Nat) (distant : Bool) (q n : Nat) : DWord :=
  let a := copyAllowance s site
  if a == 0 then 0xFFFFFFFFFFFFFFFF#64
  else BitVec.ofNat 64 (cycAt s site + (if distant then 4096 else 512) + ceilDiv ((q + n) * 16384) a)

/-- An endpoint of the copy is distant (R102, R106): some byte of an element. Windows are no smaller than an element, so the
first and the last byte tell. -/
def Copy.distant (s : State) (c : Copy) : Bool :=
  let at_ (va : Nat) : Bool := ((viaWindows c.wins va).map (isDistant s)).getD false
  let far (va : Nat) : Bool := at_ va || at_ (va + 2 ^ c.lgel - 1)
  (List.range c.total).any (fun k => (!c.ssp && far (c.src k)) || (!c.dsp && far (c.dst k)))

/-- Every cluster's copies with their engine. -/
def allCopies (s : State) : List (Cluster × Copy) := s.clusters.flatMap (fun c => c.copies.map (fun k => (c, k)))

/-- The outstanding copy of a weave with a handle. -/
def findCopy (s : State) (uid windex h : Nat) : Option (Cluster × Copy) :=
  (allCopies s).find? (fun (_, c) => c.uid == uid && c.windex == windex && c.h == h)

/-! ### Remote operations (R273 to R276) -/

def setRemote (s : State) (o : RemoteOp) : State :=
  { s with remotes := s.remotes.map (fun x => if x.id == o.id then o else x) }

def RemoteOp.setLine (o : RemoteOp) (l : RLine) : RemoteOp :=
  { o with lines := o.lines.map (fun x => if x.id == l.id then l else x) }

/-- The destination of a line: its home site, or 64 and its node. -/
def destOf (s : State) (ia : Nat) : Nat := if iaNode ia == s.wafer then iaSite ia else 64 + iaNode ia

def RemoteOp.dests (s : State) (o : RemoteOp) : List Nat := o.lines.map (fun l => destOf s l.ia)

/-- The operation may begin (R275): with the acquire flag, after every earlier copy and remote operation of the
weave; under ROD, after every earlier ROD operation of the weave to a common destination. -/
def canBegin (s : State) (o : RemoteOp) : Bool :=
  let earlier := s.remotes.filter (fun x => x.uid == o.uid && x.windex == o.windex && x.id < o.id)
  (!o.acq || (earlier.isEmpty && !(allCopies s).any (fun (_, c) => c.uid == o.uid && c.windex == o.windex && c.id < o.id))) &&
  (o.dm != 0 || !earlier.any (fun x => x.dm == 0 && (x.dests s).any (o.dests s).contains))

/-- The element size of the operation's type. -/
def RemoteOp.elem (o : RemoteOp) : Nat := (Ty.ofCodeD o.type).width / 8

/-- A read or atomic that fails at its home waits as a load waits (R276). At the remote home the record shows an inbound remote
access (7), at the local side an engine's (5, 6) (R349; log 113). -/
def holdRemote (s : State) (o : RemoteOp) (l : RLine) (f : Failure) (acc : Nat) : State :=
  let (s1, fid) := holdPending s f (agentRequester s o.uid o.unit o.ctx acc) (.remote o.id)
  setRemote s1 { o.setLine { l with stage := .faulted } with fid := some fid }

/-- A put or reduction that fails at its home enters the issuing core's side log, in entries of at most 64
bytes, or holds its bytes while the log has no room (R276, R355, R356). -/
def logRemote (s : State) (o : RemoteOp) (l : RLine) (f : Failure) : State :=
  let entry (fid : Option (Nat × Nat)) (a n : Nat) : LogEntry :=
    { uid := o.uid, windex := o.windex, ply := o.ply, fid := fid, serial := o.id, rop := some o.id, bad := l.bad
      store := { ia := l.ia + a, bytes := (l.data.drop a).take n, order := 5, op := if o.kind == 0 then 8 else 9, type := o.type } }
  let cuts := (List.range (ceilDiv l.len 64)).map (fun k => (64 * k, min 64 (l.len - 64 * k)))
  let need := (cuts.map (fun (_, n) => 16 + ceilDiv n 8 * 8)).foldl (· + ·) 0
  let (s1, fid) := joinPending s f (agentRequester s o.uid o.unit o.ctx 7) (.log o.uid o.windex o.ply)
  if !logRoom s o.uid need then setRemote s (o.setLine { l with stage := .faulted })
  else if fid.isNone then holdRemote s o l f 7
  else
    let s2 := cuts.foldl (fun acc (a, n) => pushLog acc (entry fid a n)) s1
    setRemote s2 { o.setLine { l with stage := .logged } with logged := o.logged + cuts.length }

/-- The elements of a reduction in one line (R274, R228). -/
def reduceLine (s : State) (o : RemoteOp) (l : RLine) : Except Failure State :=
  let n := o.elem
  (List.range (l.len / n)).foldl (fun acc k =>
    match acc with
    | .error e => .error e
    | .ok s1 =>
      let v := ofBytes ((l.data.drop (n * k)).take n)
      match agentRmw s1 o.ctx o.site (l.ia + n * k) n v l.bad (amoMixes o.op) (fun old => some (amo o.op (Ty.ofCodeD o.type) old v)) with
      | .error e => .error e
      | .ok (s2, _) => .ok s2) (.ok s)

/-- An answer has come back: a put or reduction is acknowledged; else the local bytes are written (R274), and a local fault
makes the operation wait. -/
def finishLine (s : State) (o : RemoteOp) (l : RLine) : State :=
  let done (s : State) : State := setRemote s (o.setLine { l with stage := .done })
  if o.kind == 0 || o.kind == 2 then done s
  else if o.sp then done (putScratch s o.uid l.loc l.data l.bad)
  else match agentPutAll s o.ctx o.site o.wins l.loc l.data l.bad with
    | (s1, none) => done s1
    | (s1, some f) => holdRemote s1 o l f 6

/-- The answer of a line leaves its home: at once on one site, else as a packet of class 1. -/
def answerLine (s : State) (o : RemoteOp) (l : RLine) (from_ : Nat) : State :=
  if from_ == o.site then finishLine s o l
  else sendPacket (setRemote s (o.setLine { l with stage := .reply })) from_ o.site 1 l.id l.ext

/-- The site at which a line is performed: its home, or the site by whose port it leaves. -/
def lineSite (s : State) (o : RemoteOp) (l : RLine) : Nat :=
  if iaNode l.ia == s.wafer then (if isSite (iaSite l.ia) then iaSite l.ia else o.site)
  else if iaNode l.ia == 0xFFF then o.site
  else l.exit.getD ((distantPort s o.site (iaNode l.ia)).getD o.site)

/-- A line is performed at its home. -/
def performLine (s : State) (o : RemoteOp) (l : RLine) : State :=
  let at_ := lineSite s o l
  match o.kind with
  | 0 =>
    match agentPut s o.ctx o.site l.ia l.data l.bad with
    | .error f => logRemote s o l f
    | .ok s1 => answerLine s1 o l at_
  | 1 =>
    match agentGet s o.ctx o.site l.ia l.len with
    | .error f => holdRemote s o l f 7
    | .ok (s1, bytes, bad) => answerLine s1 o { l with data := bytes, bad := bad } at_
  | 2 =>
    match reduceLine s o l with
    | .error f => logRemote s o l f
    | .ok s1 => answerLine s1 o l at_
  | _ =>
    let t := Ty.ofCodeD o.type
    let new (old : Nat) : Option Nat :=
      if o.op == 8 then (if old == low t.width o.compare.toNat then some (low t.width o.operand.toNat) else none)
      else some (amo o.op t old (low t.width o.operand.toNat))
    match agentRmw s o.ctx o.site l.ia o.elem o.operand.toNat l.bad (amoMixes o.op) new with
    | .error f => holdRemote s o l f 7
    | .ok (s1, old, bad) => answerLine s1 o { l with data := toBytes 8 old, bad := bad } at_

/-- A line leaves the endpoint: performed on the spot, or sent in class 3 on the plane that its pair takes
(R414). -/
def sendLine (s : State) (o : RemoteOp) (l0 : RLine) : State :=
  let exit := if isDistant s l0.ia && iaNode l0.ia != 0xFFF then exitPort s o.site l0.ia else none
  let l := { l0 with exit := exit }
  let at_ := lineSite s o l
  if at_ == o.site && exit.isNone then performLine s o l
  else
    let ext := iaNode l.ia == s.wafer && choosePlane s o.site l.ia
    sendPacket (setRemote s (o.setLine { l with stage := .sent, ext := ext, out := true })) o.site at_ 3 l.id ext

/-- The local bytes of a put or reduction. -/
def readLocal (s : State) (o : RemoteOp) (l : RLine) : Except Failure (State × List Byte × Bool) :=
  if o.sp then .ok (readScratch s o.uid l.loc l.len, teamScratch s o.uid l.loc l.len, teamScratchBad s o.uid l.loc l.len)
  else agentGetAll s o.ctx o.site o.wins l.loc l.len

/-- One line of an operation that has begun. -/
def startLine (s : State) (id line : Nat) : State :=
  match s.remotes.find? (·.id == id) with
  | none => s
  | some o =>
    match o.lines.find? (·.id == line) with
    | none => s
    | some l =>
      if l.stage != .unsent && l.stage != .faulted then s
      else if o.kind == 0 || o.kind == 2 then
        if !l.data.isEmpty then sendLine s o l
        else match readLocal s o l with
          | .error f => holdRemote s o l f 5
          | .ok (s1, bytes, bad) => sendLine s1 o { l with data := bytes, bad := bad }
      else if !l.data.isEmpty then finishLine s o l
      else sendLine s o l

/-- The lines of an operation that stand at the endpoint go on. -/
def driveRemote (s : State) (o : RemoteOp) : State := o.lines.foldl (fun acc l => startLine acc o.id l.id) s

/-- Every operation that may begin begins. -/
def pumpRemotes (s : State) : State :=
  s.remotes.foldl (fun acc o =>
    match acc.remotes.find? (·.id == o.id) with
    | some x =>
      if !x.begun && canBegin acc x then driveRemote (setRemote acc { x with begun := true }) x else acc
    | none => acc) s

/-- Every write of the operation is performed. -/
def RemoteOp.complete (o : RemoteOp) : Bool :=
  o.begun && o.logged == 0 && o.lines.all (fun l => l.stage == .done || l.stage == .logged)

/-- The operation completes: its handle is free, the engine event is set, and held operations may begin. -/
def completeRemote (s : State) (o : RemoteOp) : State :=
  let s1 := { s with remotes := s.remotes.filter (·.id != o.id) }
  pumpRemotes (engineEvent (dropHandle s1 o.uid o.windex o.h) o.uid o.windex)

/-- A copy completes (R103). -/
def completeCopy (s : State) (site phys : Nat) (c : Copy) : State :=
  let s1 := onCluster s site phys (fun k => { k with copies := k.copies.filter (·.id != c.id) })
  pumpRemotes (engineEvent (dropHandle s1 c.uid c.windex c.h) c.uid c.windex)

end Sys2Proof.Machine
end

