-- ==== Sys2Proof/Machine/Control.lean ====
section
/-!
DEFINITION. `nop`, branches, plies, jumps, yielding, regions, traps and lane exit: opcodes 0x00 to 0x0D
(01 R24 to R27; 06 R145; 08 R163 to R179), and the reserved opcodes (07 R153). The sleeps are in
Sleep.lean.
-/

namespace Sys2Proof.Machine

open Sys2Proof

/-- R145: counts as an instruction and does nothing else. -/
def execNop (wide : Bool) (s : State) : Host.Outcome State Fault Refusal :=
  match s.ply.trapDue with
  | some (code, info) => .next (takeTrap s code s.ply.pc [info] s.ply.mask)
  | none =>
    if windowClosed s then .next (stand s .retry)
    else
      let s1 := countLatches (countIssue s.weave.plies s)
      .next { s1 with ply := { s1.ply with pc := nextPc s.ply.pc (if wide then 12 else 8) } }

/-- R153: a reserved opcode raises the illegal-instruction trap at any level. -/
def execReservedOpcodeInstruction (base _ext : DWord) (s : State) : Host.Outcome State Fault Refusal :=
  .next (takeTrap s 0x01 s.ply.pc [base] s.ply.mask)

/-! ### Branches (R166, R168) -/

/-- The displacement of C in bytes: 8 bits, or the immediate (R166, R172). -/
def dispBytes (f : Fields) : DWord :=
  match f.ext with
  | .imm i => sext64 32 i.toNat
  | _ => sext64 8 f.c.toNat

/-- R166. -/
def relTarget (a : DWord) (f : Fields) : DWord := a + 4#64 * dispBytes f

/-- A branch that is taken or not, with the whole ply (R168). -/
def branch (taken : Bool) (f : Fields) (a : DWord) (s : State) : Result :=
  .done s [] 0#7 (if taken then some (relTarget a f) else none)

def execBrNz (f : Fields) (s : State) : Host.Outcome State Fault Refusal :=
  issue (.brNz f) s (fun f a m s => branch (scalarVal s f m f.a.toNat != 0#64) f a s)

def execBrZ (f : Fields) (s : State) : Host.Outcome State Fault Refusal :=
  issue (.brZ f) s (fun f a m s => branch (scalarVal s f m f.a.toNat == 0#64) f a s)

def execBrAny (f : Fields) (s : State) : Host.Outcome State Fault Refusal :=
  issue (.brAny f) s (fun f a m s => branch (m != 0#32) f a s)

def execBrAll (f : Fields) (s : State) : Host.Outcome State Fault Refusal :=
  issue (.brAll f) s (fun f a m s => branch (m != 0#32 && m == s.ply.mask) f a s)

/-! ### Plies (R24, R25, R169, R170) -/

/-- The lowest ply number that no ply of the weave has. -/
def freePly (s : State) : Nat :=
  ((List.range 4).find? (fun n => !(allPlies s).any (·.n == n))).getD 0

/-- A ply created by `brs` or `resume`: it starts as if it had just issued (R169). It takes the program
timestamp of the ply that makes it (log 5). -/
def newPly (s : State) (pc : DWord) (mask : LaneMask) : Ply :=
  { n := freePly s, pc := pc, mask := mask, lastIssue := s.steps, pts := s.ply.pts, ptsAt := s.ply.ptsAt
    nextAt := s.clk + 1, readyAt := s.clk }

def addPly (s : State) (p : Ply) : State :=
  { s with weave := { s.weave with plies := insertPly p s.weave.plies } }

/-- R24, R169, on the truth of each lane. A ply that would give lanes to a new ply waits for its own open `fence.spec`
first: a roll-back restores its whole mask (log 91). The mask that the odd register holds is in its bits [31:0]. -/
def splitPly (f : Fields) (a : DWord) (m : LaneMask) (s : State) (cond : Nat → Bool) : Result :=
  let t := maskOf (fun i => inMask m i && cond i)
  let fl := m &&& ~~~t
  let even := f.d.toNat - 0xC0
  if m == 0#32 then .done s [] 0#7 none
  else if fl == 0#32 then .done s [.s (even + 1) 0#64] 0#7 (some (relTarget a f))
  else if t == 0#32 then .done s [.s (even + 1) 0#64] 0#7 none
  else
    let stay := { s with ply := { s.ply with mask := s.ply.mask &&& ~~~fl } }
    if (allPlies s).length < 4 then
      if s.ply.fence.isSome then .wait .retry s
      else .done (addPly stay (newPly s (afterPc a f) fl)) [.s (even + 1) 0#64] 0#7 (some (relTarget a f))
    else if (((sget s (even + 1)).map (·.val)).getD 0#64).setWidth 32 != 0#32 then
      .trap 0x01 [baseWord 0x02 f]
    else
      .done stay [.s even (afterPc a f), .s (even + 1) (BitVec.setWidth 64 fl)] 0#7 (some (relTarget a f))

def execBrsNz (f : Fields) (s : State) : Host.Outcome State Fault Refusal :=
  issue (.brsNz f) s (fun f a m s => splitPly f a m s (fun i => scalarOrLane s f m f.a.toNat i != 0#32))

def execBrsZ (f : Fields) (s : State) : Host.Outcome State Fault Refusal :=
  issue (.brsZ f) s (fun f a m s => splitPly f a m s (fun i => scalarOrLane s f m f.a.toNat i == 0#32))

/-- R25. As for `brs`, lanes go to a new ply only when the ply has no `fence.spec` open (log 91). -/
def resumeLanes (f : Fields) (a : DWord) (s : State) : Result :=
  let n := f.a.toNat - 0xC0
  let pcS := ((sget s n).map (·.val)).getD 0#64
  let mS := (((sget s (n + 1)).map (·.val)).getD 0#64).setWidth 32
  let npc := afterPc a f
  if mS == 0#32 then .done s [] 0#7 none
  else if (allPlies s).any (fun p => p.mask &&& mS != 0#32) then .trap 0x01 [baseWord 0x03 f]
  else if pcS == npc then
    .done { s with ply := { s.ply with mask := s.ply.mask ||| mS } } [.s (n + 1) 0#64] 0#7 none
  else if (allPlies s).length < 4 then
    if s.ply.fence.isSome then .wait .retry s else .done (addPly s (newPly s pcS mS)) [.s (n + 1) 0#64] 0#7 none
  else
    .done { s with ply := { s.ply with mask := mS } }
      [.s n npc, .s (n + 1) (BitVec.setWidth 64 s.ply.mask)] 0#7 (some pcS)

def execResume (f : Fields) (s : State) : Host.Outcome State Fault Refusal :=
  issue (.resume f) s (fun f a _ s => resumeLanes f a s)

/-- Plies at one address become the lowest-numbered one with the union of their masks (R26, R171). -/
def mergeInto (p q : Ply) : Ply :=
  -- one that has issued in this clock does not issue again (R23)
  Ply.withDue { (if p.n ≤ q.n then p else q) with
    mask := p.mask ||| q.mask, pts := max p.pts q.pts, ptsAt := max p.ptsAt q.ptsAt
    nextAt := max p.nextAt q.nextAt } (p.dueTraps ++ q.dueTraps)

def mergeByPc (ps : List Ply) : List Ply :=
  ps.foldl (fun acc p =>
    if acc.any (·.pc == p.pc) then replaceFirst (·.pc == p.pc) (fun q => mergeInto q p) acc
    else insertPly p acc) []

/-- What plies of a weave left outstanding belongs to the ply n into which they merged. -/
def Weave.renamePlies (w : Weave) (old : List Nat) (n : Nat) : Weave :=
  let re (k : Nat) : Nat := if old.contains k then n else k
  { w with
    pends := w.pends.map (fun p => { p with ply := re p.ply })
    loads := w.loads.map (fun l => { l with ply := re l.ply })
    latches := w.latches.filter (fun l => !(old.contains l.ply && l.ply != n)) }

/-- The same for a waiter of a pending entry. The fetch that a vanished ply waited for is made anew. -/
def Waiter.renamePlies (u w : Nat) (old : List Nat) (n : Nat) : Waiter → List Waiter
  | .log a b p => [if a == u && b == w && old.contains p then .log a b n else .log a b p]
  | .fetch a b p => if a == u && b == w && old.contains p then [] else [.fetch a b p]
  | x => [x]

/-- Plies `old` of a weave have become ply n: their accesses under way, logged stores, copies and remote operations are
its own from then on, so that its later fences cover them (R26, R116). -/
def renamePlies (s : State) (u w : Nat) (old : List Nat) (n : Nat) : State :=
  let re (k : Nat) : Nat := if old.contains k then n else k
  let s1 := { s with
    accs := s.accs.map (fun a => if a.uid == u && a.windex == w then { a with ply := re a.ply } else a)
    remotes := s.remotes.map (fun o => if o.uid == u && o.windex == w then { o with ply := re o.ply } else o)
    pendings := s.pendings.map (fun p => { p with waiters := p.waiters.flatMap (Waiter.renamePlies u w old n) }) }
  onCore s1 s1.team.at_ (fun c => { c with log := c.log.map (fun e =>
    if e.uid == u && e.windex == w then { e with ply := re e.ply } else e) })

/-- The groups of two or more in which plies merge by address: the numbers of each, and the ply that each becomes. -/
def mergeGroups (ps : List Ply) : List (List Nat × Nat) :=
  ((mergeByPc ps).map (fun r => ((ps.filter (·.pc == r.pc)).map (·.n), r.n))).filter (fun g => 1 < g.1.length)

/-- R171: when every other live ply of the weave is stopped at a `plysync` or waits at a region
instruction, the plies of one address merge; those at a `plysync` go on behind it, and those at a region
instruction take its trap, for more than one ply is left. `none` while some ply has not arrived, or while plies would
merge of which one has a `fence.spec` open (log 91). -/
def meetPlies (s : State) : Option State :=
  let stopped (p : Ply) : Bool := match p.wait with | .meet _ => true | _ => false
  let all := allPlies s
  let clear : Bool := all.all (fun p => p.fence.isNone || all.all (fun q => q.n == p.n || q.pc != p.pc))
  if s.weave.plies.all stopped && clear then
    let same := s.weave.plies.filter (·.pc == s.ply.pc)
    let rest := mergeByPc (s.weave.plies.filter (·.pc != s.ply.pc))
    let groups := mergeGroups all
    let go (p : Ply) : Ply :=
      match p.wait with
      | .meet (some w) => Ply.raise { p with wait := .retry } 0x01 w
      | _ => { p with wait := .none, pc := nextPc p.pc 8 }
    let s1 := groups.foldl (fun acc (old, n) => renamePlies acc s.team.uid s.weave.windex old n) s
    some { s1 with
      ply := same.foldl mergeInto s.ply
      weave := { groups.foldl (fun w (old, n) => w.renamePlies old n) s.weave with plies := rest.map go } }
  else none

def execPlysync (f : Fields) (s : State) : Host.Outcome State Fault Refusal :=
  issue (.plysync f) s (fun _ _ _ s =>
    match meetPlies s with
    | none => .wait (.meet none) s
    | some s1 => .done s1 [] 0#7 none)

/-! ### Jumps, calls and returns (R172) -/

def execJmp (f : Fields) (s : State) : Host.Outcome State Fault Refusal :=
  issue (.jmp f) s (fun f _ m s => .done s [] 0#7 (some (scalarVal s f m f.a.toNat + dispBytes f)))

def execCall (f : Fields) (s : State) : Host.Outcome State Fault Refusal :=
  issue (.call f) s (fun f a _ s => .done s (sclWrite f.d (afterPc a f)) 0#7 (some (relTarget a f)))

def execCallReg (f : Fields) (s : State) : Host.Outcome State Fault Refusal :=
  issue (.callReg f) s (fun f a m s =>
    .done s (sclWrite f.d (afterPc a f)) 0#7 (some (scalarVal s f m f.a.toNat + dispBytes f)))

def execRet (f : Fields) (s : State) : Host.Outcome State Fault Refusal :=
  issue (.ret f) s (fun f _ m s => .done s [] 0#7 (some (scalarVal s f m f.a.toNat)))

/-! ### Yield (R173) -/

/-- Some other ply of the issuing ply's partition is ready (R23). -/
def partitionBusy (s : State) : Bool :=
  let busy (w : Weave) : Bool := w.part == s.weave.part && !w.evicted && w.plies.any Ply.isReady
  s.weave.plies.any Ply.isReady || s.team.weaves.any busy ||
  s.teams.any (fun t => t.at_ == s.team.at_ && t.weaves.any busy)

def execYield (f : Fields) (s : State) : Host.Outcome State Fault Refusal :=
  issue (.yield f) s (fun _ _ _ s =>
    .doneWait { s with ply := { s.ply with seqLeft := 0 } }
      (.yield (s.clk + (if partitionBusy s then 16 else 1))))

/-! ### Regions (R54, R55, R177) -/

/-- A region instruction of which more than one ply is left, or whose region state is wrong, raises the
illegal-instruction trap; after the meeting the merged plies stay merged. -/
def regionTrap (s : State) (w : DWord) : Result :=
  .wait .retry { s with ply := s.ply.raise 0x01 w }

def execRgn (f : Fields) (s : State) : Host.Outcome State Fault Refusal :=
  issue (.rgn f) s (fun f a _ s =>
    let w := baseWord 0x0B f
    match meetPlies s with
    | none => .wait (.meet (some w)) s
    | some s1 =>
      if !s1.weave.plies.isEmpty then regionTrap s1 w
      else if s.weave.rgnpc.getLsbD 63 then (if s.weave.plies.isEmpty then .trap 0x01 [w] else regionTrap s1 w)
      else if s1.ply.fence.isSome then .wait .retry s1
      else
        .done { s1 with weave := { s1.weave with
          region := some { map := s1.weave.map, ply := s1.ply.n, mask := s1.ply.mask, tagMark := s1.weave.nextTag }
          restarts := 0
          rgnpc := 0x8000000000000000#64 ||| (nextPc a 8 &&& 0x00FFFFFFFFFFFFFF#64) } } [] 0#7 none)

def execRgnEnd (f : Fields) (s : State) : Host.Outcome State Fault Refusal :=
  issue (.rgnEnd f) s (fun f _ _ s =>
    let w := baseWord 0x0B f
    match meetPlies s with
    | none => .wait (.meet (some w)) s
    | some s1 =>
      if !s1.weave.plies.isEmpty then regionTrap s1 w
      else if !s.weave.rgnpc.getLsbD 63 then (if s.weave.plies.isEmpty then .trap 0x01 [w] else regionTrap s1 w)
      else
        let pc := s1.weave.rgnpc &&& 0x7FFFFFFFFFFFFFFF#64
        .done { s1 with weave := { s1.weave with region := none, restarts := 0, rgnpc := pc } } [] 0#7 none)

/-! ### Traps and lane exit (R178, R179) -/

def execTrap (f : Fields) (s : State) : Host.Outcome State Fault Refusal :=
  issue (.trap f) s (fun f _ m s =>
    if m == 0#32 then .done s [] 0#7 none else .trap 0x11 [BitVec.setWidth 64 f.c])

/-- What the end of a weave brings with it: its team's crew counts go on without it (R234), and waiting
gang members that list it take gang-divergence (R247). -/
def weaveEnded (s : State) : State :=
  let w := { s.weave with ended := true }
  let s1 := crewReport s s.team (w :: s.team.weaves)
  whileParked s1 (fun t => divergeLatch t s.team.at_.site s.team.at_.cluster (fun a =>
    (gangMembers a.gang).contains s.weave.handle))

/-- The active lanes leave the ply; a ply without lanes ends, and a weave without plies ends (R18). -/
def endLanes (m : LaneMask) (s : State) : State :=
  let s1 := { s with ply := { s.ply with mask := s.ply.mask &&& ~~~m } }
  if s1.ply.mask == 0#32 && s1.weave.plies.isEmpty then
    { s1 with weave := { s1.weave with region := none, rgnpc := 0#64, ended := true } }
  else s1

/-- Lanes end only when no roll-back can bring them back: behind an open `fence.spec` of the ply, `exit` waits for its
release, at which the stores that it queued leave the ply (log 91). -/
def execExit (f : Fields) (s : State) : Host.Outcome State Fault Refusal :=
  match issue (.exit f) s (fun _ _ m s =>
    if m != 0#32 && s.ply.fence.isSome then .wait .retry s else .done (endLanes m s) [] 0#7 none) with
  | .next s1 => .next (if s1.weave.ended && s1.focused == s.focused && !s.weave.ended then weaveEnded s1 else s1)
  | r => r

end Sys2Proof.Machine
end

