-- ==== Sys2Proof/Machine/Sync.lean ====
section
/-!
DEFINITION. The tag table, `spmove`, stack allocation, team and crew barriers and multicast stores: opcodes
0xC6 to 0xC9 and 0xD2 to 0xD7 (10 R222 to R225, R232 to R236); and the right to post a command (18 R345).
-/

namespace Sys2Proof.Machine

open Sys2Proof

/-! ### The tag table (R89, R90, R222 to R224) -/

/-- Entry i of the issuing team's table. -/
def tagAt (t : Team) (i : Nat) : DWord := (assoc? i t.tags).getD 0#64

def tagValid (e : DWord) : Bool := e.getLsbD 63

/-- The key of an address: bits [55:0] with the low log2 Z bits cleared (R90). -/
def tagKey (t : Team) (va : DWord) : Nat := va.toNat % 2 ^ 56 / 2 ^ t.kernel.lgSlot * 2 ^ t.kernel.lgSlot

/-- The valid entry with a key. -/
def tagFind (t : Team) (key : Nat) : Option Nat :=
  (t.tags.find? (fun (_, e) => tagValid e && (e.extractLsb' 0 56).toNat == key)).map (·.1)

/-- Entry i holds e; an entry of zero is not listed. -/
def tagPut (t : Team) (i : Nat) (e : DWord) : Team :=
  { t with tags := if e == 0#64 then t.tags.filter (·.1 != i) else assocSet i e t.tags }

/-- Entry i is the youngest. -/
def tagRenew (t : Team) (i : Nat) : Team := { t with tagAge := t.tagAge.filter (· != i) ++ [i] }

/-- The suggested victim: the lowest invalid entry, else the one whose last hit or set is the oldest. -/
def tagVictim (t : Team) : Nat :=
  match (List.range t.kernel.tagEntries).find? (fun i => !tagValid (tagAt t i)) with
  | some i => i
  | none => (t.tagAge.find? (fun i => tagValid (tagAt t i))).getD 0

/-- The `tlook` result of one address (R222). -/
def tagLookup (t : Team) (va : DWord) : Nat :=
  match tagFind t (tagKey t va) with
  | some i => i
  | none =>
    let v := tagVictim t
    let e := tagAt t v
    2 ^ 31 + (if tagValid e then 2 ^ 30 else 0) + (if e.getLsbD 62 then 2 ^ 29 else 0) + v

/-- A step on the table keeps its place among the ply's scratch accesses: it waits for what they would wait for (R224). -/
def tagHolds (s : State) : Bool := !fenceClear s || !(myLog s).isEmpty || orderHold s true 1 []

/-- A team without a claim has no table (R222). R301 gives the record of a scratch-range trap an address and a lane; the model
gives the address 0, for there is no entry to name (DESIGN CHOICE, log 108). -/
def noTable (s : State) (m : LaneMask) : Option (Nat × List DWord) :=
  if s.team.kernel.tagEntries == 0 then some (0x08, [0#64, BitVec.ofNat 64 (lowestLane m)]) else none

/-- An active lane receives an entry with an uncorrectable error (R360): its offset in the table, 8 bytes an entry. -/
def tagPoison (t : Team) (m : LaneMask) (entry : Nat → Nat) : Option DWord :=
  ((lanesOf m).find? (fun i => t.tagBad.contains (entry i))).map (fun i => BitVec.ofNat 64 (8 * entry i))

def execTlook (f : Fields) (s : State) : Host.Outcome State Fault Refusal :=
  issue (.tlook f) s (fun f _ m s =>
    if m == 0#32 then Result.regs s []
    else match noTable s m with
      | some (c, info) => .trap c info
      | none =>
        if tagHolds s then .wait .retry s else
        let t := s.team
        match tagPoison t m (fun i => tagLookup t (addrBase s f i) % 2 ^ 29) with
        | some info => .poison info 0
        | none =>
        let t1 := (lanesOf m).foldl (fun acc i =>
          match tagFind t (tagKey t (addrBase s f i)) with
          | some e => tagRenew acc e
          | none => acc) t
        Result.regs { s with team := t1 }
          (vecWrite f.d false m (tabulate (fun i => BitVec.ofNat 64 (tagLookup t (addrBase s f i))))))

/-- One lane of `tset`: the table after it and the entry's previous value. Another valid entry with the key is invalidated: v
and d are cleared, as `tinv` does (R223 names no bit; DESIGN CHOICE, log 109). -/
def tagSetLane (t : Team) (i : Nat) (va : DWord) (dirty : Bool) : Team × DWord :=
  let old := tagAt t i
  let key := tagKey t va
  let t1 := match tagFind t key with
    | some j => if j == i then t else tagPut t j (tagAt t j &&& 0x3FFFFFFFFFFFFFFF#64)
    | none => t
  let e : DWord := BitVec.ofNat 64 (2 ^ 63 + (if dirty then 2 ^ 62 else 0) + key)
  (tagRenew (tagPut t1 i e) i, old)

/-- The table entries that the active lanes name, with an index out of range as a trap. -/
def tagIndexTrap (s : State) (m : LaneMask) (idx : Nat → Nat) : Option (Nat × List DWord) :=
  match noTable s m with
  | some r => some r
  | none => ((lanesOf m).find? (fun i => s.team.kernel.tagEntries ≤ idx i)).map
      (fun i => (0x08, [BitVec.ofNat 64 (idx i), BitVec.ofNat 64 i]))

/-- Lanes one after another on the team's table; each lane's previous entry. -/
def tagLanes (m : LaneMask) (t : Team) (step : Team → Nat → Team × DWord) : Team × List (Nat × DWord) :=
  (lanesOf m).foldl (fun (acc, out) i =>
    let (t1, x) := step acc i
    (t1, out ++ [(i, x)])) (t, [])

def execTset (f : Fields) (s : State) : Host.Outcome State Fault Refusal :=
  issue (.tset f) s (fun f _ m s =>
    let idx (i : Nat) : Nat := low32 s f f.b.toNat i
    if m == 0#32 then Result.regs s []
    else match tagIndexTrap s m idx with
      | some (c, info) => .trap c info
      | none =>
        if tagHolds s then .wait .retry s else
        match tagPoison s.team m idx with
        | some info => .poison info 0
        | none =>
        let (t, out) := tagLanes m s.team (fun t i => tagSetLane t (idx i) (addrBase s f i) (bit f.variant.toNat 0))
        Result.regs { s with team := t } (vecWrite f.d true m (tabulate (fun i => (assoc? i out).getD 0#64))))

def execTinv (f : Fields) (s : State) : Host.Outcome State Fault Refusal :=
  issue (.tinv f) s (fun f _ m s =>
    let idx (i : Nat) : Nat := low32 s f f.a.toNat i
    if m == 0#32 then Result.regs s []
    else match tagIndexTrap s m idx with
      | some (c, info) => .trap c info
      | none =>
        if tagHolds s then .wait .retry s else
        match tagPoison s.team m idx with
        | some info => .poison info 0
        | none =>
        let (t, out) := tagLanes m s.team (fun t i =>
          (tagPut t (idx i) (tagAt t (idx i) &&& 0x3FFFFFFFFFFFFFFF#64), tagAt t (idx i)))
        Result.regs { s with team := t } (vecWrite f.d true m (tabulate (fun i => (assoc? i out).getD 0#64))))

/-! ### `spmove` (R225) -/

/-- Words of the claim that hold a byte moved from a poisoned word (R359). -/
def movedPoison (t : Team) (dst src n : Nat) : List Nat :=
  (List.range n).filterMap (fun k => if t.scratchPoison.contains ((src + k) / 4) then some ((dst + k) / 4) else none)

def execSpmove (f : Fields) (s : State) : Host.Outcome State Fault Refusal :=
  issue (.spmove f) s (fun f _ m s =>
    let dst := (scalarVal s f m f.a.toNat).toNat
    let src := (scalarVal s f m f.b.toNat).toNat
    let n := (scalarVal s f m f.c.toNat).toNat
    let claim := s.team.kernel.claim
    if m == 0#32 || n == 0 then Result.regs s []
    else if claim < dst + n then .trap 0x08 [BitVec.ofNat 64 dst, BitVec.ofNat 64 (lowestLane m)]
    else if claim < src + n then .trap 0x08 [BitVec.ofNat 64 src, BitVec.ofNat 64 (lowestLane m)]
    else if !fenceClear s || !(myLog s).isEmpty || orderHold s true 1 [] then .wait .retry s
    else
      let bad := movedPoison s.team dst src n
      let s1 := stampStore (scratchWrite (stampLoad s 2 src n) dst (cellReadN s.team.scratch src n)) 2 dst n false
      Result.regs { s1 with team := { s1.team with scratchPoison := distinct (s1.team.scratchPoison ++ bad) } } [])

/-! ### Stack allocation (R232) -/

/-- The size operand, rounded up to 16 bytes. -/
def stackSize (f : Fields) (m : LaneMask) (s : State) : Nat :=
  let y := match f.ext with
    | .imm i => i.toNat
    | _ => if f.b == 0xF0#8 then f.c.toNat * 16 else (scalarVal s f m f.b.toNat).toNat
  ceilDiv y 16 * 16

/-- The cursor moves to c, or, where c leaves the region at the end that it moves towards, the stack-limit trap. -/
def moveCursor (f : Fields) (m : LaneMask) (s : State) (c : Int) (out : Bool) : Result :=
  if out then .trap 0x07 [BitVec.ofInt 64 c, BitVec.ofNat 64 (lowestLane m)]
  else Result.regs { s with weave := { s.weave with cursor := c.toNat } } (sclWrite f.d (BitVec.ofInt 64 c))

def execSalloc (f : Fields) (s : State) : Host.Outcome State Fault Refusal :=
  issue (.salloc f) s (fun f _ m s =>
    let c : Int := (s.weave.cursor : Int) - stackSize f m s
    whenActive m s (moveCursor f m s c (c < (s.weave.stklim.toNat : Int))))

def execSfree (f : Fields) (s : State) : Host.Outcome State Fault Refusal :=
  issue (.sfree f) s (fun f _ m s =>
    let c : Int := (s.weave.cursor : Int) + stackSize f m s
    whenActive m s (moveCursor f m s c ((s.weave.stkTop : Int) < c)))

/-! ### The team barrier (R233) -/

/-- A ply that the barrier lets go. -/
def passBarrier (p : Ply) : Ply := { p with wait := .none, pc := nextPc p.pc 8 }

/-- Every other live ply of the team is stopped at a `bar.team`: the plies of each weave merge by address and
all go on behind it. `none` while some ply has not arrived. -/
def meetTeam (s : State) : Option State :=
  let stopped (p : Ply) : Bool := p.wait == .barTeam
  if s.weave.plies.all stopped && s.team.weaves.all (fun w => w.ended || w.plies.all stopped) then
    let same := s.weave.plies.filter (·.pc == s.ply.pc)
    let rest := mergeByPc (s.weave.plies.filter (·.pc != s.ply.pc))
    let named (w : Weave) (ps : List Ply) : Weave := (mergeGroups ps).foldl (fun acc (old, n) => acc.renamePlies old n) w
    let all : List (Nat × List Ply) := (s.weave.windex, allPlies s) :: s.team.weaves.map (fun w => (w.windex, w.plies))
    let s1 := all.foldl (fun acc (w, ps) =>
      (mergeGroups ps).foldl (fun acc (old, n) => renamePlies acc s.team.uid w old n) acc) s
    some { s1 with
      ply := same.foldl mergeInto s.ply
      weave := { named s.weave (allPlies s) with plies := rest.map passBarrier }
      team := { s.team with weaves := s.team.weaves.map (fun w =>
        { named w w.plies with plies := (mergeByPc w.plies).map passBarrier }) } }
  else none

def execBarTeam (f : Fields) (s : State) : Host.Outcome State Fault Refusal :=
  issue (.barTeam f) s (fun _ _ _ s =>
    if !fenceClear s || !allPerformed s || fenceOpen s then .wait .retry s
    else match meetTeam s with
      | none => .wait .barTeam s
      | some s1 => Result.regs (acquireAt s1 s1.team.at_) [])

/-! ### Crews (R234, R235) -/

/-- The crew operand: a scalar register, or C. -/
def crewOperand (f : Fields) (m : LaneMask) (s : State) : Nat :=
  if f.a == 0xF0#8 then f.c.toNat else (scalarVal s f m f.a.toNat).toNat

/-- The slot of `crews` that lists a crew (R20). -/
def crewSlot (s : State) (c : Nat) : Option Nat := ((crewSlots s.team.crews).find? (·.2 == c)).map (·.1)

/-- The crew in the launch record. -/
def crewOf (s : State) (c : Nat) : Option Crew := (findLaunch s s.team.launch).bind (·.crews[c]?)

/-- What `arrive.crew` and `wait.crew` check first. -/
def crewChecked (f : Fields) (op : Nat) (m : LaneMask) (s : State) (go : Nat → Nat → Crew → Result) : Result :=
  let c := crewOperand f m s
  if !s.weave.plies.isEmpty then .trap 0x01 [baseWord op f]
  else match crewSlot s c, crewOf s c with
    | some k, some crew => if 255 < c then .trap 0x0D [BitVec.ofNat 64 c] else go c k crew
    | _, _ => .trap 0x0D [BitVec.ofNat 64 c]

def execArriveCrew (f : Fields) (s : State) : Host.Outcome State Fault Refusal :=
  issue (.arriveCrew f) s (fun f _ m s =>
    crewChecked f 0xD5 m s (fun _ k crew =>
      let cnt := s.weave.crewCnt.getD k 0#32
      if !fenceClear s || !allPerformed s || fenceOpen s then .wait .retry s
      else if 255 < (cnt + 1#32 - crew.done).toInt then .wait .retry s
      else
        let w := { s.weave with crewCnt := s.weave.crewCnt.set k (cnt + 1#32) }
        let s1 := crewReport { spoil s with weave := w } s.team (w :: s.team.weaves)
        Result.regs s1 (sclWrite f.d (BitVec.setWidth 64 cnt))))

def execWaitCrew (f : Fields) (s : State) : Host.Outcome State Fault Refusal :=
  issue (.waitCrew f) s (fun f _ m s =>
    crewChecked f 0xD6 m s (fun c _ crew =>
      let phase := (scalarVal s f m f.b.toNat).setWidth 32
      if crew.broken then .trap 0x0E [BitVec.ofNat 64 c]
      else if ahead crew.done phase then Result.regs (acquireAt (spoil s) s.team.at_) []
      else .wait .retry s))

/-! ### Multicast stores (R122, R236) -/

/-- One team takes the bytes of one lane. -/
def Team.mst (t : Team) (off : Nat) (bytes : List Byte) : Team :=
  let n := bytes.length
  let lines := (linesIn off n).map (fun l => localLine 2 (128 * l))
  { t with
    scratch := cellWriteN t.scratch off bytes
    scratchPoison := t.scratchPoison.filter (fun w => !(off ≤ 4 * w && 4 * w + 4 ≤ off + n))
    weaves := t.weaves.map (fun w => { w with resv := w.resv.filter (fun r => !lines.contains r.line) }) }

/-- A multicast copy is a near store at the member's core (R122): it takes its place in the order of that core's site, the
issuer's own timestamp with it on the issuer's site (R109). -/
def stampMst (s : State) (t : Team) (off n : Nat) : State :=
  let names := localLines 2 t.uid 0 off n
  if t.at_.site == s.team.at_.site then
    let ts := storeTs s (s.ply.aged s.cyc).pts names false
    let s1 := stampLines s names ts
    { s1 with ply := s1.ply.raisePts ts s1.cyc }
  else
    let ts := storeTs s (findSite s t.at_.site).gateTs names false
    gateStamp (stampLines s names ts) t.at_.site ts

/-- One lane of `mst` at every member: the issuer's own claim, a resident member's, and for members that are
not resident and have not ended the launch record's held list, which a member's claim takes when it is admitted or comes
back (R236). -/
def mstLane (s : State) (crew : Crew) (off : Nat) (bytes : List Byte) : State :=
  let s1 := stampStore (scratchWrite s off bytes) 2 off bytes.length false
  if s.team.run != .original then s1
  else
    let mine (t : Team) : Bool := t.launch == s.team.launch && t.run == .original && crew.members.contains t.lix
    let here := s.teams.filter mine
    let s2 := here.foldl (fun acc t => stampMst acc t off bytes.length)
      { s1 with teams := s1.teams.map (fun t => if mine t then t.mst off bytes else t) }
    onLaunch s2 s.team.launch (fun l => { l with heldMst := l.heldMst ++
      ((crew.members.filter (fun x => x != s.team.lix && !here.any (·.lix == x) && !l.ended.contains x)).map
        (fun x => (x, off, bytes))) })

def execMst (f : Fields) (s : State) : Host.Outcome State Fault Refusal :=
  issue (.mst f) s (fun f _ m s =>
    let r := resolve s 0xD7 f
    let n := elemBytes f
    let c := (scalarVal s f m f.a.toNat).toNat
    let base := if f.b == 0xFB#8 then f.imm32.toNat else (scalarVal s f m f.b.toNat).toNat
    let off (i : Nat) : Nat := base + i * n
    let data (i : Nat) : DWord := if f.c == 0xFB#8 then immElem (tyOf f) f.imm32 true else dataLane s f 2 i
    if m == 0#32 then Result.regs s []
    else match crewSlot s c, crewOf s c with
      | some _, some crew =>
        if 255 < c then .trap 0x0D [BitVec.ofNat 64 c]
        else match (lanesOf m).find? (fun i => s.team.kernel.claim < off i + n) with
          | some i => .trap 0x08 [BitVec.ofNat 64 (off i), BitVec.ofNat 64 i]
          | none =>
            if !fenceClear s || !(myLog s).isEmpty || orderHold s true r.order [] then .wait .retry s
            else
              let s1 := (lanesOf m).foldl (fun acc i => mstLane acc crew (off i) (toBytes n (data i).toNat)) (spoil s)
              Result.regs (if hasAcq true r.order then acquireAt s1 s1.team.at_ else s1) []
      | _, _ => .trap 0x0D [BitVec.ofNat 64 c])

/-! ### Engines (R345) -/

/-- A command is offered to the engines of the issuing team's cluster, which take it where their access table lets the
context post (R345). Without that right it fails with the kind protection and waits in a pending entry of the site: the
ply stands at the instruction and tries again after a replay (R348; log 101). -/
def offerCommand (s : State) (r : Result) : Result :=
  let at_ := s.team.at_
  if mayPost s then r
  else .wait .fetch (holdPending s ⟨at_.site, 3, 0, 0⟩ (agentRequester s s.team.uid at_.unit s.team.ctx 6)
      (.fetch s.team.uid s.weave.windex s.ply.n)).1

end Sys2Proof.Machine
end

