-- ==== Sys2Proof/Machine/RemoteInstr.lean ====
section
/-!
DEFINITION. Copies, waits on handles, remote operations, launches, signals and event records: opcodes 0xF0
to 0xF7 (12 R264 to R284).
-/

namespace Sys2Proof.Machine

open Sys2Proof

/-- The address and lane that a trap of these instructions shows; the lane is the lowest active one. -/
def addrInfo (a : Nat) (m : LaneMask) : List DWord := [BitVec.ofNat 64 a, BitVec.ofNat 64 (lowestLane m)]

/-- R265: a weave holds at most 32 outstanding handles. -/
def handlesFull (s : State) : Bool := 32 ≤ s.weave.handles.length

/-! ### Copy descriptors (R267) -/

/-- The dwords of a descriptor in scratch, or with a global address; `none` for a scratch range that leaves the
claim. -/
def scratchDwords (s : State) (a n : Nat) : Option (List DWord) :=
  if s.team.kernel.claim < a + 8 * n then none
  else some ((List.range n).map (fun k => BitVec.ofNat 64 (scratchRead s (a + 8 * k) 8)))

/-- What reading a descriptor comes to. -/
inductive DescRead where
  | ok (s : State) (d : List DWord)
  | stop (r : Result)
  deriving DecidableEq

/-- Plain loads of the issuing ply take their place among its site's near accesses (R109): lines are global, those of
another site have their place at its gate. -/
def stampPlain (s : State) (a n : Nat) : State :=
  (linePiecesOf a n).foldl (fun acc (x, len) =>
    let ia := (viaWindows (winsHere acc) x).getD 0
    if !isNear acc acc.team.at_.site ia then acc
    else
      let (s1, ts) := loadTs acc (acc.ply.aged acc.cyc).pts (linesIn ia len)
      { s1 with ply := s1.ply.raisePts ts s1.cyc }) s

/-- n dwords by plain loads of the issuing ply. -/
def readDwords (s : State) (sp : Bool) (m : LaneMask) (a n : Nat) : DescRead :=
  if sp then
    match scratchDwords s a n with
    | none => .stop (.trap 0x08 (addrInfo a m))
    | some ds =>
      match scratchBad s a (8 * n) with
      | some w => .stop (.poison (BitVec.ofNat 64 (4 * w)) 0)
      | none => .ok (stampLoad s 2 a (8 * n)) ds
  else
    match windowMiss (winsHere s) a (8 * n) with
    | some x => .stop (.trap 0x06 (addrInfo x m))
    | none =>
      match agentGetAll s s.team.ctx s.team.at_.site (winsHere s) a (8 * n) with
      | .error e => .stop (.wait .retry (readFault s e a))
      | .ok (s1, bs, bad) =>
        if bad then .stop (.poison (BitVec.ofNat 64 a) ((viaWindows (winsHere s) a).getD 0))
        else .ok (spoilRange (stampPlain s1 a (8 * n)) a (8 * n)) ((List.range n).map (fun k => BitVec.ofNat 64 (ofBytes ((bs.drop (8 * k)).take 8))))

/-- The fields of a descriptor. -/
def copyOf (d : List DWord) : Copy :=
  let d0 := d.getD 0 0#64
  let nd := (d0.extractLsb' 60 4).toNat + 1
  { dims := (List.range nd).map (fun k =>
      { count := ((d.getD (3 + 2 * k) 0#64).extractLsb' 40 24).toNat
        sstr := signed 40 ((d.getD (3 + 2 * k) 0#64).extractLsb' 0 40).toNat
        dstr := signed 40 ((d.getD (4 + 2 * k) 0#64).extractLsb' 0 40).toNat })
    ssp := d0.getLsbD 59, dsp := d0.getLsbD 58, lgel := (d0.extractLsb' 55 3).toNat
    spol := (d0.extractLsb' 52 3).toNat, dpol := (d0.extractLsb' 49 3).toNat
    sbase := d.getD 1 0#64, dbase := d.getD 2 0#64 }

/-- The engine-operand checks of R268 on a descriptor. -/
def Copy.legal (c : Copy) (d : List DWord) : Bool :=
  (d.getD 0 0#64).extractLsb' 0 49 == 0#49 && c.spol < 5 && c.dpol < 5 && c.dpol != 3 &&
  (List.range c.dims.length).all (fun k => (d.getD (4 + 2 * k) 0#64).extractLsb' 40 24 == 0#24) &&
  c.dims.all (fun x => 0 < x.count) && c.bytes < 2 ^ 48

/-- The first global byte of the copy that no window translates, in element order, the source first. -/
def Copy.missing (c : Copy) (wins : List Window) : Option Nat :=
  (List.range c.total).findSome? (fun k =>
    let one (sp : Bool) (a : Nat) : Option Nat := if sp then none else windowMiss wins a (2 ^ c.lgel)
    match one c.ssp (c.src k) with
    | some x => some x
    | none => one c.dsp (c.dst k))

/-- The first scratch byte range of the copy that leaves the claim. -/
def Copy.outside (c : Copy) (claim : Nat) : Option Nat :=
  (List.range c.total).findSome? (fun k =>
    let one (sp : Bool) (a : Nat) : Option Nat := if sp && claim < a + 2 ^ c.lgel then some a else none
    match one c.ssp (c.src k) with
    | some x => some x
    | none => one c.dsp (c.dst k))

/-- The trap of an accepted descriptor's copy, if any, in the order of R268. -/
def copyTrap (s : State) (m : LaneMask) (a : DWord) (d : List DWord) (c : Copy) : Option (Nat × List DWord) :=
  if !c.legal d then some (0x0B, [a])
  else match c.missing (winsHere s) with
    | some x => some (0x06, addrInfo x m)
    | none => (c.outside s.team.kernel.claim).map (fun x => (0x08, addrInfo x m))

/-- The copies of an engine before one with a name. -/
def queuedBytes (k : Cluster) (id : Nat) : Nat :=
  ((k.copies.filter (·.id < id)).map Copy.remain).foldl (· + ·) 0

/-- The copy is accepted (R102, R268): its promise and handle, and the engine's new entry. -/
def acceptCopy (s : State) (f : Fields) (c : Copy) : State × DWord × Nat :=
  let k := clusterHere s
  let v := f.variant.toNat
  let (s1, h) := takeHandle { s with nextId := s.nextId + 1 } true 0#64
  let c1 : Copy := { c with
    id := s.nextId, uid := s.team.uid, windex := s.weave.windex, ply := s.ply.n, h := h, ctx := s.team.ctx
    wins := winsHere s, acq := bit v 1, rel := bit v 2, scope := v / 8 % 4, dry := s.team.run != .original
    overlap := !c.ssp && !c.dsp }
  let p := promiseOf s s.team.at_.site (c1.distant s) (queuedBytes k s.nextId) c.bytes
  let s2 := { s1 with weave := { s1.weave with handles := s1.weave.handles.map (fun x =>
    if x.h == h then { x with promise := p } else x) } }
  (setCluster s2 (k.enqueue (cycHere s) { c1 with promise := p }), p, h)

/-- R366: the source bytes of a copy are read ranges. -/
def spoilCopy (s : State) (c : Copy) : State :=
  if c.ssp then s
  else (List.range c.total).foldl (fun acc k => spoilRange acc (c.src k) (2 ^ c.lgel)) s

def execXcopy (f : Fields) (s : State) : Host.Outcome State Fault Refusal :=
  issue (.xcopy f) s (fun f _ m s =>
    let a := scalarVal s f m f.a.toNat
    let sp := bit f.variant.toNat 0
    if m == 0#32 then Result.regs s []
    else if handlesFull s || 64 ≤ (clusterHere s).copies.length || !commandReady s then .wait .retry s
    else if a.toNat % 8 != 0 then .trap 0x0B [a]
    else match readDwords s sp m a.toNat 1 with
      | .stop r => r
      | .ok s0 d0 =>
        match readDwords s0 sp m a.toNat (3 + 2 * (((d0.getD 0 0#64).extractLsb' 60 4).toNat + 1)) with
        | .stop r => r
        | .ok s1 d =>
          let c := copyOf d
          match copyTrap s1 m a d c with
          | some (code, info) => .trap code info
          | none =>
            let (s2, p, h) := acceptCopy (spoilCopy s1 c) f c
            offerCommand s (Result.regs s2 [.s (f.d.toNat - 0xC0) p, .s (f.d.toNat - 0xC0 + 1) (BitVec.ofNat 64 h)]))

/-! ### Waiting on handles (R270 to R272) -/

/-- A handle is outstanding in the issuing weave. -/
def outstandingHandle (s : State) (h : Nat) : Option Handle := s.weave.handles.find? (·.h == h)

/-- The record of a missed promise (R272). -/
def missedRecord (s : State) (x : Handle) : List DWord :=
  let remain := ((findCopy s s.team.uid s.weave.windex x.h).map (fun (_, c) => c.remain)).getD 0
  [BitVec.ofNat 64 x.h, x.promise, BitVec.ofNat 64 (cycHere s), BitVec.ofNat 64 remain]

/-- The copy is behind its promise. -/
def Handle.missed (s : State) (x : Handle) : Bool := x.copy && x.promise.toNat ≤ cycHere s

/-- The handle with the lowest number. -/
def lowestHandle (hs : List Handle) : Option Handle :=
  hs.foldl (fun acc x => match acc with
    | none => some x
    | some y => if x.h < y.h then some x else some y) none

/-- R270: the set of an `xwait` stays what it was at its issue. -/
def xwaitSet (s : State) (f : Fields) (m : LaneMask) : List Nat :=
  match s.ply.wait with
  | .xwait hs => hs
  | _ =>
    let x := (scalarVal s f m f.a.toNat).toNat % 2 ^ 32
    if x == 0xFFFFFFFF then s.weave.handles.map (·.h) else [x]

def execXwait (f : Fields) (s : State) : Host.Outcome State Fault Refusal :=
  issue (.xwait f) s (fun f _ m s =>
    let set := xwaitSet s f m
    let out := s.weave.handles.filter (fun x => set.contains x.h)
    if out.isEmpty then Result.regs (acquireAt s s.team.at_) []
    else match lowestHandle (out.filter (Handle.missed s)) with
      | some x => .trap 0x10 (missedRecord s x)
      | none => .wait (.xwait set) s)

/-- R271: a fresh promise from the bytes that are left, under the allowance of the copy's engine. -/
def renewCopy (s : State) (k : Cluster) (c : Copy) : State × DWord :=
  let p := promiseOf s k.site (c.distant s) (queuedBytes k c.id) c.remain
  let s1 := setCopy s k.site k.phys { c with promise := p }
  ({ s1 with weave := { s1.weave with handles := s1.weave.handles.map (fun x =>
      if x.h == c.h then { x with promise := p } else x) } }, p)

def execXwaitRn (f : Fields) (s : State) : Host.Outcome State Fault Refusal :=
  issue (.xwaitRn f) s (fun f _ m s =>
    let h := (scalarVal s f m f.a.toNat).toNat % 2 ^ 32
    if m == 0#32 then Result.regs s []
    else match findCopy s s.team.uid s.weave.windex h with
      | none => Result.regs s (sclWrite f.d 0xFFFFFFFFFFFFFFFF#64)
      | some (k, c) =>
        let (s1, p) := renewCopy s k c
        Result.regs s1 (sclWrite f.d p))

/-! ### Remote operations (R273 to R276) -/

/-- The operand values of a remote operation: remote and local address, remote and local length in bytes. -/
structure RemoteArgs where
  kind : Nat
  remote : Nat
  loc : Nat
  n : Nat
  locN : Nat
  ctl : DWord
  operand : DWord := 0#64
  compare : DWord := 0#64
  deriving DecidableEq, Repr

def RemoteArgs.op (x : RemoteArgs) : Nat := (x.ctl.extractLsb' 0 4).toNat
def RemoteArgs.dm (x : RemoteArgs) : Nat := (x.ctl.extractLsb' 4 2).toNat

/-- The value of the first engine-operand check of R273 that fails; `count` is src(C). -/
def remoteOperandBad (x : RemoteArgs) (f : Fields) (count : DWord) : Option DWord :=
  let op := x.op
  let t := f.type.toNat
  if x.ctl.extractLsb' 6 58 != 0#58 || x.dm == 3 || 8 < op then some x.ctl
  else if x.kind < 2 && op != 0 then some x.ctl
  else if x.kind == 2 && (op == 6 || op == 8) then some x.ctl
  else if x.dm == 2 && x.kind != 0 then some x.ctl
  else if x.kind < 2 && 1048576 < count.toNat then some count
  else if x.kind == 2 && (count == 0#64 || 65536 < count.toNat) then some count
  else if 2 ≤ x.kind && !(if op == 8 then TypeSet.cas.ok t 0 else TypeSet.atomic.ok t op) then some x.ctl
  else none

/-- The traps of R273 in its order. -/
def remoteTrap (s : State) (f : Fields) (m : LaneMask) (x : RemoteArgs) (count : DWord) : Option (Nat × List DWord) :=
  let sp := bit f.variant.toNat 0
  match remoteOperandBad x f count with
  | some v => some (0x0B, [v])
  | none =>
    if 2 ≤ x.kind && x.remote % ((tyOf f).width / 8) != 0 then some (0x09, addrInfo x.remote m)
    else if x.kind == 3 && x.loc % 8 != 0 then some (0x09, addrInfo x.loc m)
    else match windowMiss (winsHere s) x.remote x.n with
      | some a => some (0x06, addrInfo a m)
      | none =>
        if sp then (if s.team.kernel.claim < x.loc + x.locN && 0 < x.locN then some (0x08, addrInfo x.loc m) else none)
        else (windowMiss (winsHere s) x.loc x.locN).map (fun a => (0x06, addrInfo a m))

/-- The operation as the endpoint takes it: its range cut at line boundaries. -/
def remoteOf (s : State) (f : Fields) (x : RemoteArgs) (h : Nat) : RemoteOp :=
  let v := f.variant.toNat
  let cuts := linePiecesOf x.remote x.n
  { id := s.nextId, uid := s.team.uid, windex := s.weave.windex, ply := s.ply.n, site := s.team.at_.site
    unit := s.team.at_.unit, ctx := s.team.ctx, h := h, kind := x.kind, wins := winsHere s, sp := bit v 0
    lines := ((List.range cuts.length).zip cuts).map (fun (k, a, n) =>
      { id := s.nextId + 1 + k, va := a, ia := (viaWindows (winsHere s) a).getD 0, loc := x.loc + (a - x.remote), len := n })
    type := f.type.toNat, op := x.op, operand := x.operand, compare := x.compare, dm := x.dm
    acq := bit v 1, rel := bit v 2, scope := v / 8 % 4 }

/-- The operation is posted with a handle of the weave, and begins if it may; an `xget` of no bytes completes at once
(R274, R275). -/
def postRemote (s0 : State) (f : Fields) (x : RemoteArgs) : State × Nat :=
  let (s1, h) := takeHandle s0 false 0#64
  if x.kind == 1 && x.n == 0 then
    (engineEvent (dropHandle s1 s0.team.uid s0.weave.windex h) s0.team.uid s0.weave.windex, h)
  else
    let o := remoteOf s0 f x h
    (pumpRemotes { s1 with nextId := s1.nextId + 1 + o.lines.length, remotes := s1.remotes ++ [o] }, h)

/-- R273. -/
def remoteBody (f : Fields) (m : LaneMask) (s : State) (x : RemoteArgs) (count : DWord) : Result :=
  if m == 0#32 then Result.regs s []
  else if handlesFull s || 256 ≤ (s.remotes.filter (·.site == s.team.at_.site)).length || !commandReady s then .wait .retry s
  else match remoteTrap s f m x count with
    | some (c, info) => .trap c info
    | none =>
      let (s1, h) := postRemote (spoil s) f x
      Result.regs s1 (sclWrite f.d (BitVec.ofNat 64 h))

def execXput (f : Fields) (s : State) : Host.Outcome State Fault Refusal :=
  issue (.xput f) s (fun f _ m s =>
    let v (c : BitVec 8) : DWord := scalarVal s f m c.toNat
    let n := (v f.c).toNat
    remoteBody f m s { kind := 0, remote := (v f.a).toNat, loc := (v f.b).toNat, n := n, locN := n, ctl := v f.f } (v f.c))

def execXget (f : Fields) (s : State) : Host.Outcome State Fault Refusal :=
  issue (.xget f) s (fun f _ m s =>
    let v (c : BitVec 8) : DWord := scalarVal s f m c.toNat
    let n := (v f.c).toNat
    remoteBody f m s { kind := 1, remote := (v f.b).toNat, loc := (v f.a).toNat, n := n, locN := n, ctl := v f.f } (v f.c))

def execXred (f : Fields) (s : State) : Host.Outcome State Fault Refusal :=
  issue (.xred f) s (fun f _ m s =>
    let v (c : BitVec 8) : DWord := scalarVal s f m c.toNat
    let n := (v f.c).toNat * ((tyOf f).width / 8)
    remoteBody f m s { kind := 2, remote := (v f.a).toNat, loc := (v f.b).toNat, n := n, locN := n, ctl := v f.f } (v f.c))

def execXatom (f : Fields) (s : State) : Host.Outcome State Fault Refusal :=
  issue (.xatom f) s (fun f _ m s =>
    let v (c : BitVec 8) : DWord := if c == 0xF0#8 then 0#64 else scalarVal s f m c.toNat
    let n := (tyOf f).width / 8
    remoteBody f m s { kind := 3, remote := (v f.a).toNat, loc := (v f.e).toNat, n := n, locN := 8, ctl := v f.f
                       operand := v f.b, compare := v f.c } 0#64)

/-! ### Launches (R277) -/

/-- The 64-bit value of a launch operand in lane i. -/
def launchVal (s : State) (f : Fields) (m : LaneMask) (c : BitVec 8) (i : Nat) : DWord :=
  if isV c.toNat then rawLane s f .i64 false true c.toNat i else scalarVal s f m c.toNat

/-- The issuing ply's request, or its answer. -/
def LaunchReq.mine (s : State) (r : LaunchReq) : Bool :=
  r.uid == s.team.uid && r.windex == s.weave.windex && r.ply == s.ply.n

/-- Requests that a site's cores have outstanding. -/
def requestsOf (s : State) (site : Nat) : Nat :=
  let items (r : LaunchReq) : Nat := if r.site == site then r.items.length else 0
  ((s.launchReqs.map items) ++ (s.launchAns.map (fun a => items a.req))).foldl (· + ·) 0

/-- The lanes that send a request (R35, R36). -/
def launchLanes (perLane : Bool) (m : LaneMask) : List Nat := if perLane then lanesOf m else [lowestLane m]

/-- The destination of a launch with no value yet: what it allocates (R46, R48). A scalar name that is mapped needs
nothing. -/
def launchDst (f : Fields) (perLane : Bool) : List Write :=
  if perLane then [.pair f.d.toNat 0#32 (tabulate (fun _ => 0#64))] else sclWrite f.d 0#64

/-- The register codes of the destination. -/
def launchCodes (f : Fields) (perLane : Bool) : List Nat := (launchDst f perLane).flatMap Write.codes

/-- From the request on the destination is mapped and pending, until the answer is there (R52, R216 as for a load; log
107). A scalar that is mapped keeps its register. -/
def reserveDst (f : Fields) (perLane : Bool) (s : State) : State :=
  let s1 := applyWrites s (if perLane || isUnmapped s f.d.toNat then launchDst f perLane else [])
  { s1 with weave := { s1.weave with
      nextTag := s1.weave.nextTag + 1
      pends := if (launchCodes f perLane).isEmpty then s1.weave.pends
               else s1.weave.pends ++ [{ tag := s1.weave.nextTag, ply := s1.ply.n, codes := launchCodes f perLane, long := true,
                                         left := f.la.toNat + 1, timed := false }] } }

/-- The destination is no longer pending. -/
def releaseDst (f : Fields) (perLane : Bool) (s : State) : State :=
  { s with weave := { s.weave with pends := s.weave.pends.filter (fun p =>
      !(p.ply == s.ply.n && !p.timed && p.codes == launchCodes f perLane)) } }

/-- The requests leave for the owner of the parent launch, after the release of R121, when the graph processor has room
for all of them (R277: it holds 64 from a site's cores; log 98). -/
def postLaunch (f : Fields) (m : LaneMask) (perLane : Bool) (s : State) : Result :=
  let lanes := launchLanes perLane m
  if !commandReady s || 64 < requestsOf s s.team.at_.site + lanes.length then .wait .retry s
  else if overPeak s (launchDst f perLane) then .trap 0x05 [BitVec.setWidth 64 f.d]
  else if overPool s (launchDst f perLane) then .wait .retry (stallAt s (poolsShort s (launchDst f perLane)))
  else
    let r : LaunchReq := { site := s.team.at_.site, uid := s.team.uid, windex := s.weave.windex, ply := s.ply.n
                           tag := s.nextId, parent := s.team.launch, perLane := perLane
                           items := lanes.map (fun i => (i, launchVal s f m f.a i, launchVal s f m f.b i))
                           fields := f }
    .wait .launch (reserveDst f perLane { spoil s with nextId := s.nextId + 1, launchReqs := s.launchReqs ++ [r] })

/-- The destination writes of an answer. -/
def launchWrites (f : Fields) (m : LaneMask) (ans : LaunchAns) : List Write :=
  let of (i : Nat) : Nat × Nat := (assoc? i (ans.results.map (fun (l, n, st) => (l, (n, st))))).getD (0xFFFFFFFF, 0)
  if ans.req.perLane then
    [.pair f.d.toNat m (tabulate (fun i => BitVec.ofNat 64 ((of i).2 * 2 ^ 32 + (of i).1)))]
  else
    let (n, st) := of (lowestLane m)
    sclWrite f.d (if st == 0 then BitVec.ofNat 64 n else BitVec.ofNat 64 (2 ^ 63 + st))

/-- The lanes whose requests the answer is for. -/
def LaunchAns.lanes (ans : LaunchAns) : LaneMask :=
  BitVec.ofNat 32 ((ans.req.items.map (fun x => 2 ^ x.1)).foldl (· + ·) 0)

/-- The answer is taken from the list. -/
def dropAnswer (ans : LaunchAns) (s : State) : State :=
  { s with launchAns := s.launchAns.filter (fun x => x.req.tag != ans.req.tag) }

/-- The answer takes effect: the results are written, or the launch-limit trap is due (R37, R277). -/
def takeAnswer (f : Fields) (m : LaneMask) (ans : LaunchAns) (s : State) : Result :=
  let s1 := dropAnswer ans s
  if ans.limit then .wait .retry { s1 with ply := s1.ply.raise 0x0F 0#64 } else Result.regs s1 (launchWrites f m ans)

/-- A launch instruction: posted once, then it stands until the owner's answer is there (`execLaunchAnswer`); what it writes is
pending meanwhile (log 107). -/
def launchBody (perLane : Bool) (f : Fields) (m : LaneMask) (s : State) : Result :=
  if m == 0#32 then Result.regs s (if perLane then [] else sclWrite f.d 0xFFFFFFFFFFFFFFFF#64)
  else match s.launchAns.find? (fun x => x.req.mine s) with
    | some ans => takeAnswer f m ans s
    | none =>
      if s.launchReqs.any (fun r => r.mine s) then .wait .launch s else postLaunch f m perLane s

def execLaunchW (f : Fields) (s : State) : Host.Outcome State Fault Refusal :=
  issue (.launchW f) s (fun f _ m s => launchBody false f m s)

def execLaunchL (f : Fields) (s : State) : Host.Outcome State Fault Refusal :=
  issue (.launchL f) s (fun f _ m s => launchBody true f m s)

/-! ### Signals and event records (R282, R283) -/

/-- The teams of a launch. -/
def Launch.teams (l : Launch) : Nat := l.nx * l.ny * l.nz

/-- A signal to a team of the issuer's launch, and its status. -/
def signalTeam (s : State) (lix : Nat) : State × Nat :=
  let set (w : Weave) : Weave := { w with evSignal := true }
  match findLaunch s s.team.launch with
  | none => (s, 1)
  | some l =>
    if l.teams ≤ lix then (s, 1)
    else if l.ended.contains lix then (s, 2)
    else if lix == s.team.lix && s.team.run == .original then
      ({ s with weave := set s.weave, team := { s.team with weaves := s.team.weaves.map set } }, 0)
    else if s.teams.any (fun t => t.launch == l.key && t.lix == lix && t.run == .original) then
      ({ s with teams := s.teams.map (fun t =>
          if t.launch == l.key && t.lix == lix && t.run == .original then { t with weaves := t.weaves.map set } else t) }, 0)
    else if l.suspended.any (fun x => x.lix == lix && x.run == .original) then
      (onLaunch s l.key (fun l => { l with suspended := l.suspended.map (fun x =>
        if x.lix == lix && x.run == .original then { x with evSignal := true } else x) }), 0)
    else (onLaunch s l.key (fun l => { l with heldSig := distinct (l.heldSig ++ [lix]) }), 0)

/-- A signal to a wait node: one atomic add at the signal count, dword 6 of the node (17 R322). -/
def signalNode (s : State) (m : LaneMask) (a : Nat) (v : DWord) : State :=
  let acc := mkAccess s { order := 1, scope := 2, space := 0, policy := 2, spec := false } 2 0 6 4 s.weave.nextTag
    (lowestLane m) (BitVec.ofNat 64 (a + 48)) (v &&& 0xFFFFFFFF#64) 0#64 []
  submitAccess { s with weave := { s.weave with nextTag := s.weave.nextTag + 1 } } acc

def execGsig (f : Fields) (s : State) : Host.Outcome State Fault Refusal :=
  issue (.gsig f) s (fun f _ m s =>
    let x := scalarVal s f m f.a.toNat
    let a := (x.extractLsb' 0 56).toNat
    if m == 0#32 then Result.regs s []
    else if x.extractLsb' 62 2 == 0#2 then
      if x.extractLsb' 32 30 != 0#30 then .trap 0x0B [x]
      else if !commandReady s then .wait .retry s
      else
        let (s1, st) := signalTeam (spoil s) (x.extractLsb' 0 32).toNat
        Result.regs s1 (sclWrite f.d (BitVec.ofNat 64 st))
    else if x.extractLsb' 62 2 != 1#2 || x.extractLsb' 56 6 != 0#6 then .trap 0x0B [x]
    else if a % 8 != 0 then .trap 0x09 (addrInfo a m)
    else match windowMiss (winsHere s) a 52 with
      | some y => .trap 0x06 (addrInfo y m)
      | none =>
        if !commandReady s then .wait .retry s
        else Result.regs (signalNode (spoil s) m a (scalarVal s f m f.b.toNat)) (sclWrite f.d 0#64))

/-- A dword store of the issuing ply. -/
def storeDword (s : State) (m : LaneMask) (a : Nat) (x : DWord) (order : Nat) : State :=
  let acc := mkAccess s { order := order, scope := 3, space := 0, policy := 0, spec := false } 1 0 7 8 s.weave.nextTag
    (lowestLane m) (BitVec.ofNat 64 a) x 0#64 []
  releaseStore { s with weave := { s.weave with nextTag := s.weave.nextTag + 1 } } acc false

/-- Dword 1 of the ply's event record is performed: nothing of the ply is open, and its log is empty. -/
def evPerformed (s : State) (uid windex n : Nat) : Bool :=
  !s.accs.any (fun a => a.ofPly uid windex n && a.open_) && (plyLog s uid windex n).isEmpty

/-- `evrec` with dword 1 performed in this step: `cyc` is taken and dword 0 stored as a release (R283). -/
def finishEv (m : LaneMask) (a : Nat) (s : State) : Result :=
  Result.regs (storeDword s m a (BitVec.ofNat 64 (cycHere s)) 3) []

/-- The plies that stand at an `evrec` whose dword 1 was performed. -/
def evDue (s : State) : List (Nat × Nat × Nat) :=
  s.teams.flatMap (fun t => t.weaves.flatMap (fun w => w.plies.filterMap (fun p =>
    match p.wait with
    | .evrec _ _ => if evPerformed s t.uid w.windex p.n then some (t.uid, w.windex, p.n) else none
    | _ => none)))

/-- At the end of each step: an `evrec` whose first store was performed in it goes on. -/
def sampleEvs (s : State) : State :=
  match evDue (park s) with
  | [] => s
  | due => due.foldl (fun acc (uid, windex, n) =>
      let f := focusOn acc uid windex n
      match f.ply.wait with
      | .evrec a fl => park (resume (.evrec fl) fl (activeLanes f fl) f (finishEv (activeLanes f fl) a f))
      | _ => acc) (park s)

/-- Dword 1 is stored once; where it is performed at once the instruction is over, else it stands until it is. -/
def execEvrec (f : Fields) (s : State) : Host.Outcome State Fault Refusal :=
  issue (.evrec f) s (fun f _ m s =>
    let a := (scalarVal s f m f.a.toNat).toNat
    if m == 0#32 then Result.regs s []
    else if a % 16 != 0 then .trap 0x09 (addrInfo a m)
    else match windowMiss (winsHere s) a 16 with
      | some y => .trap 0x06 (addrInfo y m)
      | none =>
        if !commandReady s then .wait .retry s
        else
          let tag := (scalarVal s f m f.b.toNat).toNat % 2 ^ 32
          let s1 := storeDword (spoil s) m (a + 8) (BitVec.ofNat 64 (tag * 2 ^ 32 + s.team.at_.site * 2 ^ 24)) 1
          if evPerformed s1 s.team.uid s.weave.windex s.ply.n then finishEv m a s1 else .wait (.evrec a f) s1)

end Sys2Proof.Machine
end

