-- ==== Sys2Proof/Machine/Sleep.lean ====
section
/-!
DEFINITION. The sleeps: opcodes 0x09 and 0x0A (08 R174 to R176).
-/

namespace Sys2Proof.Machine

open Sys2Proof

/-! ### `sleep.until` (R174) -/

/-- The copy that a handle names is still outstanding. -/
def copyOut (s : State) (h : Nat) : Option Handle := (outstandingHandle s h).bind (fun x => if x.copy then some x else none)

/-- What the ply does on waking: a copy's completion is acquired, a missed promise traps. -/
def wakeUntil (s : State) (h : Option Nat) : Result :=
  match h with
  | none => Result.regs s []
  | some h =>
    match copyOut s h with
    | none => Result.regs (acquireAt s s.team.at_) []
    | some x => if Handle.missed s x then .trap 0x10 (missedRecord s x) else Result.regs s []

/-- The condition that ends the sleep. -/
def untilOver (s : State) (deadline : DWord) (h : Option Nat) : Bool :=
  deadline.toNat ≤ cycHere s || (match h with
    | none => false
    | some h => (copyOut s h).isNone)

def execSleepUntil (f : Fields) (s : State) : Host.Outcome State Fault Refusal :=
  issue (.sleepUntil f) s (fun f _ m s =>
    match s.ply.wait with
    | .woken x => wakeUntil s (if x == 0 then none else some (x - 1))
    | _ =>
      let deadline := scalarVal s f m f.a.toNat
      let h := if f.b == 0xF0#8 then none else some ((scalarVal s f m f.b.toNat).toNat % 2 ^ 32)
      if untilOver s deadline h then wakeUntil s h else .wait (.sleepUntil deadline h) s)

/-! ### `sleep.ev` (R175, R176) -/

/-- The latches that a selection names and that are set, as event bits. -/
def latchBits (w : Weave) (sel : Nat) : Nat :=
  (if bit sel 0 && w.evEngine then 1 else 0) + (if bit sel 1 && w.evSignal then 2 else 0)

/-- Exactly those latches are cleared. -/
def Weave.clearEvents (w : Weave) (ev : Nat) : Weave :=
  { w with evEngine := w.evEngine && !bit ev 0, evSignal := w.evSignal && !bit ev 1 }

/-- The return of a `sleep.ev` with its events; bit 1 acts as an acquire (R282). -/
def wakeEvents (f : Fields) (s : State) (ev : Nat) : Result :=
  Result.regs (if bit ev 1 then acquireAt s s.team.at_ else s) (sclWrite f.d (BitVec.ofNat 64 ev))

/-- The dword that arms a watch, loaded with acq: what the ply's own log supplies in full, else the home's (R123); `none`
while the load waits. -/
def armLoad (s : State) (ia : Nat) : Option (Except Failure (State × List Byte × Bool)) :=
  if !fenceClear s || orderHold s false 2 [ia] || logHolds s 2 [(ia, 8)] then none
  else match forwarded s ia 8 with
    | some bs => some (.ok (s, bs, false))
    | none => if storeUnderWay s ia 8 then none else some (agentGet s s.team.ctx s.team.at_.site ia 8)

/-- Step 3: the watch is armed by a load of the dword, and registered in the same step. -/
def armWatch (f : Fields) (m : LaneMask) (s : State) (sel : Nat) : Result :=
  let va := (scalarVal s f m f.b.toNat).toNat / 8 * 8
  match windowMiss (winsHere s) va 8 with
  | some y => .trap 0x06 (addrInfo y m)
  | none =>
    let ia := (viaWindows (winsHere s) va).getD 0
    match armLoad s ia with
      | none => .wait .retry s
      | some (.error e) => .wait .retry (readFault s e va)
      | some (.ok (s1, bs, bad)) =>
        let s2 := acquireAt (spoil s1) s1.team.at_
        if bad then .poison (BitVec.ofNat 64 va) ia
        else if BitVec.ofNat 64 (ofBytes bs) != scalarVal s f m f.c.toNat then wakeEvents f s2 4
        else if !Config.watchFree s2.freeCtr then wakeEvents f (tick s2) 0
        else
          .wait (.sleepEv sel (cycHere s + 65536) (some (iaLine ia)) f.d)
            { tick s2 with watches := s2.watches ++
              [{ line := iaLine ia, uid := s.team.uid, windex := s.weave.windex, ply := s.ply.n }] }

def execSleepEv (f : Fields) (s : State) : Host.Outcome State Fault Refusal :=
  issue (.sleepEv f) s (fun f _ m s =>
    match s.ply.wait with
    | .woken ev => wakeEvents f s ev
    | _ =>
      let sel := (scalarVal s f m f.a.toNat).toNat % 8
      let hit := latchBits s.weave sel
      if bit sel 2 && f.b == 0xF0#8 then .trap 0x01 [baseWord 0x0A f]
      else if hit != 0 then wakeEvents f { s with weave := s.weave.clearEvents hit } hit
      else if bit sel 2 then armWatch f m s sel
      else .wait (.sleepEv sel (cycHere s + 65536) none f.d) s)

end Sys2Proof.Machine
end

