-- ==== Sys2Proof/Machine/Sched.lean ====
section
/-!
DEFINITION. Steps that plies, weaves and engines take between instructions: due plies, expiring waits, results, fences,
spills (01 R27; 02 R48, R52, R53; 05 R110, R117; 08 R173 to R176; 10 R216), the matrix engine (11 R248 to R250),
copies and remote operations (04 R103; 12 R270, R275). A step whose condition does not hold changes nothing.
-/

namespace Sys2Proof.Machine

open Sys2Proof

/-- A step of another agent on the parked state. -/
def event (s : State) (f : State → State) : Host.Outcome State Fault Refusal := .next (f (park s))

/-- f on a ply that satisfies the condition. -/
def whenPly (s : State) (uid windex n : Nat) (f : Team → Weave → Ply → State) : State :=
  match findTeam s uid with
  | none => s
  | some t =>
    match t.weaves.find? (·.windex == windex) with
    | none => s
    | some w =>
      match w.plies.find? (·.n == n) with
      | none => s
      | some p => f t w p

/-! ### Turns and waits (R27, R173 to R176) -/

def execPlyDue (uid windex n : Nat) (s : State) : Host.Outcome State Fault Refusal :=
  event s (fun s => whenPly s uid windex n (fun _ _ p =>
    if (p.markDue s.steps) == p then s else onPly s uid windex n (fun p => p.markDue s.steps)))

def execYieldExpiry (uid windex n : Nat) (s : State) : Host.Outcome State Fault Refusal :=
  event s (fun s => whenPly s uid windex n (fun _ _ p =>
    match p.wait with
    | .yield wake => if wake ≤ s.clk then onPly s uid windex n (fun p => { p with wait := .none }) else s
    | _ => s))

/-- A copy of a weave is no longer outstanding. -/
def Weave.copyDone (w : Weave) (h : Nat) : Bool := !w.handles.any (fun x => x.h == h && x.copy)

def execSleepUntilWake (uid windex n : Nat) (s : State) : Host.Outcome State Fault Refusal :=
  event s (fun s => whenPly s uid windex n (fun t w p =>
    match p.wait with
    | .sleepUntil d h =>
      if d.toNat ≤ cycAt s t.at_.site || ((h.map w.copyDone).getD false) then
        onPly s uid windex n (fun p => { p with wait := .woken ((h.map (· + 1)).getD 0) })
      else s
    | _ => s))

/-- The watch of a ply is dropped. -/
def dropWatch (s : State) (uid windex n : Nat) : State :=
  { s with watches := s.watches.filter (fun x => !(x.uid == uid && x.windex == windex && x.ply == n)) }

/-- The ply's watched line was written. -/
def watchHit (s : State) (uid windex n : Nat) : Bool :=
  s.watches.any (fun x => x.uid == uid && x.windex == windex && x.ply == n && x.hit)

def execSleepEvWake (uid windex n : Nat) (s : State) : Host.Outcome State Fault Refusal :=
  event s (fun s => whenPly s uid windex n (fun _ w p =>
    match p.wait with
    | .sleepEv sel _ watch _ =>
      let ev := latchBits w sel + (if watch.isSome && watchHit s uid windex n then 4 else 0)
      if ev == 0 then s
      else
        let s1 := onWeave (dropWatch s uid windex n) uid windex (fun w => w.clearEvents ev)
        onPly s1 uid windex n (fun p => { p with wait := .woken ev })
    | _ => s))

def execSleepEvTimeout (uid windex n : Nat) (s : State) : Host.Outcome State Fault Refusal :=
  event s (fun s => whenPly s uid windex n (fun t _ p =>
    match p.wait with
    | .sleepEv _ wake _ _ =>
      if wake ≤ cycAt s t.at_.site then
        onPly (dropWatch s uid windex n) uid windex n (fun p => { p with wait := .woken 0 })
      else s
    | _ => s))

/-! ### Register pools (R48, R53) -/

/-- Registers taken in a partition's vector pool and a core's scalar pool by every weave but one. -/
def otherTaken (s : State) (t : Team) (w : Weave) : Nat × Nat :=
  let ws := (residents s t.at_).flatMap (fun u => (u.live.filter (fun v => !(u.uid == t.uid && v.windex == w.windex))).map (fun v => (u.kernel, v)))
  (sumOf ((ws.filter (fun (_, v) => v.part == w.part)).map (fun (k, v) => vTaken k v v.plies)),
   sumOf (ws.map (fun (k, v) => sTaken k v v.plies)))

/-- A weave that may be spilled for another: no ready ply (a weave that stalls on an allocation has none), and registers
beyond its floor in a pool that the other finds empty and that both use. -/
def isVictim (t u : Team) (w v : Weave) (st : Stall) : Bool :=
  !v.ended && !v.evicted && !(u.uid == t.uid && v.windex == w.windex) &&
  (v.stalled.isSome || !v.plies.any Ply.isReady) &&
  ((st.vec && v.part == w.part && u.kernel.vfloor < vHeld v v.plies) || (st.scl && u.kernel.sfloor < sHeld v v.plies))

/-- The victim: the weave admitted most recently. Weaves of one team are admitted in one step; of these the model takes
the last in list order (log 84). -/
def chooseVictim (s : State) (t : Team) (w : Weave) (st : Stall) : Option (Nat × Nat) :=
  ((residents s t.at_).flatMap (fun u => (u.live.filter (fun v => isVictim t u w v st)).map (fun v => (u.uid, v.windex, v.admitted)))).foldl
    (fun acc (x : Nat × Nat × Nat) => match acc with
      | none => some x
      | some y => if y.2.2 ≤ x.2.2 then some x else some y) none |>.map (fun x => (x.1, x.2.1))

def execRegisterAllocationStall (uid windex : Nat) (s : State) : Host.Outcome State Fault Refusal :=
  event s (fun s =>
    match findTeam s uid, findWeave s uid windex with
    | some t, some w =>
      match w.stalled with
      | none => s
      | some st => match chooseVictim s t w st with
        | some (u, v) =>
          -- its registers go out under the save budget (R337)
          let need := (((findWeave s u v).map areaSpans).getD []).foldl (fun acc x => acc + x.2) 0
          let (s1, ok) := payOn s (1, u, v) t.at_.site 5 (bytesUse need)
          if ok then evictWeave (endPayment s1 (1, u, v)) u v else s1
        | none => s
    | _, _ => s)

def execRefillWeave (uid windex : Nat) (s : State) : Host.Outcome State Fault Refusal :=
  event s (fun s =>
    match findTeam s uid, findWeave s uid windex with
    | some t, some w =>
      let (v, sc) := otherTaken s t w
      if w.evicted && v + max t.kernel.vfloor (vHeld w w.plies) ≤ vPoolSize &&
          sc + max t.kernel.sfloor (sHeld w w.plies) ≤ sPoolSize then
        let need := (areaSpans w).foldl (fun acc x => acc + x.2) 0
        let (s1, ok) := payOn s (2, uid, windex) t.at_.site 5 (bytesUse need)
        if ok then refillWeave (endPayment s1 (2, uid, windex)) uid windex else s1
      else s
    | _, _ => s)

def execVolatileDeferralEnd (uid windex : Nat) (s : State) : Host.Outcome State Fault Refusal :=
  event s (fun s =>
    match findTeam s uid, findWeave s uid windex with
    | some t, some w =>
      match w.defer with
      | none => s
      | some d =>
        if !volMapped t.kernel w || 256 ≤ d.issued || d.since + 16384 ≤ s.cyc then
          onWeave s uid windex (fun x => { x with defer := none })
        else s
    | _, _ => s)

/-! ### Results (R52, R156, R216) -/

/-- A pending `fence` is complete (R116): every access before it is performed, the ply's log is empty, and no
speculation that it follows is open. -/
def pendingFenceDone (s : State) (uid windex : Nat) (p : Pend) : Bool :=
  match p.fence with
  | none => false
  | some mark =>
    !s.accs.any (fun a => a.ofPly uid windex p.ply && a.open_ && a.id < mark) && (plyLog s uid windex p.ply).isEmpty &&
    !((findWeave s uid windex).map (fun w => w.plies.any (fun q => q.n == p.ply && q.fence.isSome))).getD false

/-- A pending result is written, at the cycle of its class at the earliest (R156), or a pending `fence` completes; what its ply reads afterwards is no older. -/
def execLongLatencyResultWrite (uid windex tag : Nat) (s : State) : Host.Outcome State Fault Refusal :=
  event s (fun s =>
    let ready (p : Pend) : Bool := p.tag == tag && ((p.timed && p.due ≤ s.clk) || pendingFenceDone s uid windex p)
    let pends := ((findWeave s uid windex).map (·.pends)).getD []
    let s1 := onWeave s uid windex (fun w => { w with pends := w.pends.filter (fun p => !ready p) })
    if pends.any (fun p => ready p && p.fence.isSome) then acquireAt s1 (coreOf s uid) else s1)

/-- Every active lane's data is there. -/
def LoadReq.full (l : LoadReq) : Bool := l.more.isEmpty && (lanesOf l.mask).all (fun i => (l.data.getD i none).isSome)

/-- The destination write of a load (R188, R216). -/
def LoadReq.writes (l : LoadReq) : List Write :=
  vecWrite (BitVec.ofNat 8 l.dst) l.wide l.mask (tabulate (fun i =>
    let x := (l.data.getD i none).getD 0#64
    if l.wide then x else (Ty.ofCodeD l.type).extend x.toNat))

/-- The map of a checkpoint taken after a load takes the registers of its destination as the load leaves them (R54). -/
def RegMap.takeNames (m new : RegMap) (codes : List Nat) : RegMap :=
  { m with v := ((List.range 192).zip m.v).map (fun (n, r) => if codes.contains n then new.v.getD n none else r) }

/-- The return of a load to the issuing weave. A checkpoint that was taken after the load issued does not pin its
destination: the load fills the register that the checkpoint names. Earlier ones see the write of a ply (R54, R55). -/
def returnLoad (s : State) (l : LoadReq) : State :=
  let codes := (l.writes.flatMap Write.lanes).map (·.1)
  let youngF (c : FenceCkpt) : Bool := l.tag < c.tagMark
  let keepF (p : Ply) : Ply := { p with fence := p.fence.filter (fun c => !youngF c) }
  let s1 := { s with
    ply := keepF s.ply
    weave := { s.weave with plies := s.weave.plies.map keepF, region := s.weave.region.filter (fun g => !(l.tag < g.tagMark)) } }
  let s2 := applyWrites s1 l.writes
  let note (p : Ply) (c : FenceCkpt) : FenceCkpt :=
    if youngF c then { c with map := c.map.takeNames s2.weave.map codes }
    else if p.n == l.ply then c.noteOwn (l.writes.flatMap Write.lanes) else c.noteOther (l.writes.flatMap Write.lanes)
  let back (p : Ply) : Ply := { p with fence := p.fence.map (note p) }
  { s2 with
    ply := back s.ply
    weave := { s2.weave with
      plies := s.weave.plies.map back
      region := s.weave.region.map (fun g =>
        if l.tag < g.tagMark then { g with map := g.map.takeNames s2.weave.map codes } else g) } }

def execLoadDataReturn (uid windex tag : Nat) (s : State) : Host.Outcome State Fault Refusal :=
  event s (fun s =>
    match findWeave s uid windex with
    | none => s
    | some w =>
      match w.loads.find? (·.tag == tag) with
      | none => s
      | some l =>
        -- an evicted weave takes its results after its refill
        if !l.full || w.evicted then s
        else
          let s1 := onWeave s uid windex (fun w => { w with
            loads := w.loads.filter (·.tag != tag), pends := w.pends.filter (·.tag != tag) })
          let n := ((w.plies.find? (·.n == l.ply)).map (·.n)).getD ((w.plies.head?.map (·.n)).getD 0)
          let s2 := focusOn s1 uid windex n
          if !s2.focused then s1
          else match l.bad with
            | some word => park (consumeError s2 (BitVec.ofNat 64 (4 * word)) (if l.mem then (translate s2 s2.team.ctx (4 * word)).getD 0 else 0))
            | none =>
              let s3 := returnLoad s2 l
              park (if l.acquire then acquireAt s3 s3.team.at_ else s3))

/-! ### Fences and timestamps (R110, R117) -/

/-- Everything before the fence is performed. -/
def fenceDone (s : State) (uid windex n : Nat) (c : FenceCkpt) : Bool :=
  !s.accs.any (fun a => a.ofPly uid windex n && a.open_ && a.id < c.mark) && (plyLog s uid windex n).isEmpty

/-- The recorded lines carry their write timestamps still. -/
def fenceValid (s : State) (c : FenceCkpt) : Bool := c.lines.all (fun (l, w) => (tsOf s l).wts == w)

/-- A queued store may leave: nothing before it holds it back, as at the issue of a store (R107, R108, R123), and the log
has room for it (R356). -/
def queuedGoes (s : State) (a : Acc) : Bool :=
  if a.space != 0 then (myLog s).isEmpty && !accessHold s true a.order []
  else !accessHold s true a.order [a.ia] && (!logsNow s rightW [(a.ia, a.n)] || logRoom s s.team.uid (logNeed [(a.ia, a.n)]))

/-- Queued stores leave in order, up to the first that has to wait. -/
def releaseQueued : List Acc → State → State × List Acc
  | [], s => (s, [])
  | a :: rest, s => if queuedGoes s a then releaseQueued rest (releaseStore s a true) else (s, a :: rest)

/-- The fence completes: the checkpoint is released and the queued stores leave in order. Those that have to wait for
earlier ones stay in the queue, and with them the ply's later accesses. -/
def releaseFence (s : State) (uid windex n : Nat) (c : FenceCkpt) : State :=
  let s0 := focusOn s uid windex n
  let (f, left) := releaseQueued c.queued { s0 with ply := { s0.ply with fence := none, rolled := 0 } }
  let s2 := park (if left.isEmpty then f
    else
      let rest : FenceCkpt := { c with queued := left, done := true, map := {}, lines := [], own := [], others := [] }
      { f with ply := { f.ply with fence := some rest } })
  -- a plain `fence` behind this one follows the stores that now leave the ply
  onWeave s2 uid windex (fun w => { w with pends := w.pends.map (fun p =>
    if p.ply == n && p.fence.isSome then { p with fence := some s2.nextId } else p) })

def execFenceSpecValidate (uid windex n : Nat) (s : State) : Host.Outcome State Fault Refusal :=
  event s (fun s => whenPly s uid windex n (fun _ w p =>
    match p.fence with
    | none => s
    | some c =>
      if c.done then releaseFence s uid windex n c
      else if !fenceDone s uid windex n c || w.loads.any (fun l => l.ply == n && c.tagMark ≤ l.tag && !l.full) then s
      else if fenceValid s c then releaseFence s uid windex n c
      else rollFence s uid windex n true))

def execPtsAgeTick (uid windex n : Nat) (s : State) : Host.Outcome State Fault Refusal :=
  event s (fun s => whenPly s uid windex n (fun _ _ p =>
    if p.ptsAt + 256 ≤ s.cyc then onPly s uid windex n (fun p => { p with pts := p.pts + 1, ptsAt := p.ptsAt + 256 })
    else s))

/-! ### The matrix engine (R248 to R250) -/

/-- Waiting commands take free entries, in order; those of an engine that drains or is scanned wait as for a full table
(R362). -/
def fillTable (s : State) (site phys : Nat) : State :=
  onCluster s site phys (fun c =>
    let n := maxCmds - c.cmds.length
    if c.scan != .serve then c else { c with cmds := c.cmds ++ c.waiting.take n, waiting := c.waiting.drop n })

def execEngineGrant (site phys : Nat) (s : State) : Host.Outcome State Fault Refusal :=
  event s (fun s =>
    let s1 := fillTable s site phys
    let c := findCluster s1 site phys
    let leaves (e : EngCmd) : Bool := s1.teams.any (fun t => t.leaving.isSome && (t.uid == e.uid || e.owners.any (·.1 == t.uid)))
    if c.scan == .quarantined then s1
    else match chooseGrant (c.cmds.filter (fun e => e.started || !leaves e)) with
      | none => s1
      | some e =>
        noteEngine (grantCmd s1 site phys e) site phys e)

def execCommandAgePromotion (site phys id : Nat) (s : State) : Host.Outcome State Fault Refusal :=
  event s (fun s => onCluster s site phys (fun c => { c with cmds := c.cmds.map (fun e =>
    if e.id == id && !e.started && e.posted + 16384 ≤ s.cyc then { e with promoted := true } else e) }))

def execMatrixPassEnd (site phys : Nat) (s : State) : Host.Outcome State Fault Refusal :=
  event s (fun s =>
    match (findCluster s site phys).cmds.find? (fun e => e.started && e.op.isPass) with
    | some e => endPass s site phys e
    | none => s)

def execTransferEnd (site phys : Nat) (s : State) : Host.Outcome State Fault Refusal :=
  event s (fun s =>
    match (findCluster s site phys).cmds.find? (fun e => e.started && !e.op.isPass && e.fid.isNone) with
    | some e => endTransfer s site phys e
    | none => s)

/-! ### Copies and remote operations (R103, R270, R275) -/

def execCopyComplete (site phys id : Nat) (s : State) : Host.Outcome State Fault Refusal :=
  event s (fun s =>
    match (findCluster s site phys).copies.find? (·.id == id) with
    | none => s
    | some c =>
      -- every element has been handed over; the last of them are performed and acknowledged
      if c.handed < c.total then s else
      let (s1, c1) := advanceCopy s site phys (c.total - c.pos) c
      if c1.pos < c1.total || c1.fid.isSome then s1 else completeCopy s1 site phys c1)

def execPromiseMissed (uid windex n : Nat) (s : State) : Host.Outcome State Fault Refusal :=
  event s (fun s => whenPly s uid windex n (fun _ w p =>
    match p.wait with
    | .xwait hs =>
      let f := focusOn s uid windex n
      match lowestHandle ((w.handles.filter (fun x => hs.contains x.h)).filter (Handle.missed f)) with
      | some x => if p.stopped then s else park (takeTrap f 0x10 p.pc (missedRecord f x) p.mask)
      | none => s
    | _ => s))

def execRemoteOpComplete (id : Nat) (s : State) : Host.Outcome State Fault Refusal :=
  event s (fun s =>
    let s1 := pumpRemotes s
    match s1.remotes.find? (·.id == id) with
    | none => s1
    | some o =>
      if o.complete then completeRemote s1 o
      else if o.begun && o.fid.isNone then driveRemote s1 o
      else s1)

end Sys2Proof.Machine
end

