-- ==== Sys2Proof/Machine/Faults.lean ====
section
/-!
DEFINITION. What a replay and a cancel of a pending entry do (18 R348, R352, R356), retries, and errors that are found
(19 R359).
-/

namespace Sys2Proof.Machine

open Sys2Proof

/-! ### The side log performs its entries (R123, R356) -/

/-- A logged lane store or reduction as an access of its ply. -/
def entryAcc (s : State) (core : CoreId) (e : LogEntry) : Acc :=
  { id := 0, uid := e.uid, windex := e.windex, ply := e.ply, src := core.site, unit := core.unit
    ctx := ((peekTeam s e.uid).map (·.ctx)).getD 0, tag := 0, lane := 0, lanes := e.lanes
    kind := if e.store.op == 0 then 1 else 3, va := 0, ia := e.store.ia, n := e.store.bytes.length
    data := BitVec.ofNat 64 (ofBytes e.store.bytes), cmp := 0#64, op := e.store.op - 1, type := e.store.type
    order := e.store.order, scope := 0, policy := 0, spec := false, bad := e.bad }

/-- What the oldest entry of a log comes to. -/
inductive LogStep where
  | done (s : State)
  | hold
  | fault (e : Failure)
  deriving DecidableEq

def performEntry (s : State) (core : CoreId) (e : LogEntry) : LogStep :=
  let a := entryAcc s core e
  match (e.rop.bind (fun id => s.remotes.find? (·.id == id))) with
  | some o =>
    if e.store.op == 8 then
      match agentPut s o.ctx core.site e.store.ia e.store.bytes e.bad with
      | .ok s1 => .done (setRemote s1 { o with logged := o.logged - 1 })
      | .error f => .fault f
    else
      match reduceLine s o { id := 0, va := 0, ia := e.store.ia, loc := 0, len := e.store.bytes.length, data := e.store.bytes, bad := e.bad } with
      | .ok s1 => .done (setRemote s1 { o with logged := o.logged - 1 })
      | .error f => .fault f
  | none =>
    match locate s (ctxMaster a.ctx) a.right a.src a.ia a.n with
    | .error f => .fault f
    | .ok ps =>
      let s1 := afterWalks s (ctxMaster a.ctx) a.right a.src a.ia a.n
      if (hostLineWanted s a.src false ps).isSome then .hold else .done (performAccess s1 a ps).1

/-- The entry still waits in a pending entry. -/
def LogEntry.waits (s : State) (e : LogEntry) : Bool :=
  (e.fid.map (fun (h, k) => s.pendings.any (fun p => p.home == h && p.fid == k && !p.waiters.isEmpty))).getD false

/-- The log of a core goes on from its oldest entry, strictly in its order. -/
def replayLog (core : CoreId) : Nat → State → State
  | 0, s => s
  | n + 1, s =>
    match (findCore s core).log with
    | [] => s
    | e :: rest =>
      if e.waits s then s
      else match performEntry s core e with
        | .hold =>
          if e.port.isSome then s
          else onCore s core (fun c => { c with log := { e with port := some ((nearestHostPort s core.site).getD 0) } :: rest })
        | .done s1 => replayLog core n (onCore s1 core (fun c => { c with log := c.log.drop 1 }))
        | .fault f =>
          let kind := if 8 ≤ e.store.op then 7 else if e.store.op == 0 then 1 else 3
          let (s1, fid) := holdPending s f { (entryAcc s core e).requester s with acc := kind } (.log e.uid e.windex e.ply)
          onCore s1 core (fun c => { c with log := { e with fid := some fid, port := none } :: rest })

def pumpLog (s : State) (core : CoreId) : State := replayLog core (findCore s core).log.length s

def pumpLogs (s : State) : State := s.cores.foldl (fun acc c => pumpLog acc c.id) s

/-! ### Host accesses (R342, R357, R395) -/

/-- A host port as a master that acts under a context tag (R344 kind 2). -/
def hostMaster (port ctx : Nat) : Master := ⟨2, port, ctx⟩

def setHostReq (s : State) (r : HostReq) : State :=
  { s with hostReqs := s.hostReqs.map (fun x => if x.id == r.id then r else x) }

/-- A host access waits in a pending entry; the record's unit is 0 and its context field the port (R349). -/
def hostFails (s : State) (r : HostReq) (e : Failure) : State :=
  let (s1, fid) := holdPending s e { unit := 0, ctx := r.port, acc := if r.write then 1 else 0, lnum := 0xFFFFFFFF, tix := 0xFFFFFFFF
                                     lanes := 0, tag := r.ctx } (.host r.id)
  setHostReq s1 { r with fid := some fid }

/-- A host access at its home: performed, or waiting in a pending entry. A decoder whose node is not the module's own fails
every access as no home (R395); one to a page that is being flipped waits (R358). -/
def serveHost (s : State) (r : HostReq) : State :=
  let src := hostPortSites.getD r.port 24
  let m := hostMaster r.port r.ctx
  if r.done then s
  else if iaNode r.ia != s.wafer then hostFails s r ⟨src, 5, 0, r.ia⟩
  else if flipping s r.ctx r.ia then setHostReq s { r with fid := none }
  else if r.write then
    match masterPut s m src r.ia r.bytes false with
    | .ok s1 => setHostReq s1 { r with done := true, fid := none }
    | .error e => hostFails s r e
  else
    match masterGet s m src r.ia r.n with
    | .ok (s1, bytes, bad) => setHostReq s1 { r with done := true, fid := none, bytes := bytes, err := bad }
    | .error e => hostFails s r e

/-! ### Accesses of other modules (R349, R390, R418) -/

/-- The answer to another module leaves by the port at which the access came in, and the access is over. -/
def answerPeer (s : State) (r : PeerReq) : State :=
  let s1 := { s with peerReqs := s.peerReqs.filter (·.id != r.id) }
  let (s2, n) := takePseq s1 r.home (64 * (r.node + 1) + r.src) 1
  putOut s2 r.port r.node
    { id := 0, src := r.home, dst := r.src, cls := 1, pseq := n, acc := 0, ia := r.ia, ctx := r.ctx, flits := 1 + ceilDiv r.data.length 64 }
    ((List.range 5).map (Config.cmdDword s.nextId)) r.data

/-- The access waits at its home for the service of a fault; its record shows an inbound remote access of the port. -/
def holdPeer (s : State) (r : PeerReq) (f : Failure) : State :=
  let (s1, fid) := holdPending s f { unit := r.port * 1024, ctx := r.ctx, acc := 7, lnum := 0xFFFFFFFF, tix := 0xFFFFFFFF, lanes := 0 } (.peer r.id)
  { s1 with peerReqs := s1.peerReqs.map (fun x => if x.id == r.id then { x with fid := some fid } else x) }

/-- The access is performed at its home, and its answer goes to the port. -/
def performPeer (s : State) (r : PeerReq) : State :=
  let (kind, n, op, type) := Config.peerOp r.cmd
  let done (s : State) (data : List Byte) : State :=
    let s1 := { s with peerReqs := s.peerReqs.map (fun x => if x.id == r.id then { x with data := data, fid := none } else x) }
    if r.home == r.port then answerPeer s1 { r with data := data } else sendPacket s1 r.home r.port 1 r.id false
  let size := min n (128 - r.ia % 128)
  let word := (Ty.ofCodeD type).width / 8
  let rmw (s : State) : Except Failure (State × Nat × Bool) :=
    agentRmw s r.ctx r.port r.ia word (ofBytes (r.data.take word)) false (amoMixes op)
      (fun old => some (amo op (Ty.ofCodeD type) old (ofBytes (r.data.take word))))
  match kind with
  | 0 => match agentPut s r.ctx r.port r.ia (r.data.take size) false with
    | .error f => holdPeer s r f
    | .ok s1 => done s1 []
  | 1 => match agentGet s r.ctx r.port r.ia size with
    | .error f => holdPeer s r f
    | .ok (s1, bytes, _) => done s1 bytes
  | k => match rmw s with
    | .error f => holdPeer s r f
    | .ok (s1, old, _) => done s1 (if k == 2 then [] else toBytes 8 old)

/-! ### Replay (R352) -/

/-- The right that an access code of R349 needs. -/
def accRight (acc : Nat) : Nat :=
  if acc == 1 || acc == 6 then rightW else if acc == 2 || acc == 3 then rightA else if acc == 4 then rightX else rightR

/-- The first failing access of an entry is walked and checked again: it fails still. -/
def Pending.fails (s : State) (p : Pending) (m : Master) : Option Failure :=
  match (place s m (accRight p.acc) (p.unit / 1024) p.ia).1 with
  | .fail h k l => some ⟨h, k, l, p.ia⟩
  | _ => none

/-- A waiter whose access goes on in a step of its own: that access waits in a new entry where it fails again. -/
def recheck (s : State) (p : Pending) (w : Waiter) (fails : Option Failure) (go : State → State) : State :=
  match fails with
  | none => go s
  | some e => (holdPending s e { unit := p.unit, ctx := p.ctx, acc := p.acc, lnum := p.lnum, tix := p.tix, lanes := p.lanes, tag := p.tag } w).1

/-- A waiter of a replayed entry goes on. -/
def replayWaiter (s : State) (p : Pending) (w : Waiter) : State :=
  let key := (p.home, p.fid)
  match w with
  | .acc id => match s.accs.find? (·.id == id) with
    | some a => arriveHome s a
    | none => s
  | .log uid _ _ => if (findTeam s uid).isSome then pumpLog s (coreOf s uid) else s
  | .fetch uid windex n =>
    -- a command that the engines did not take waits here as well (R345; log 101)
    let posts := (findTeam s uid).map (fun t => engineRight s t.ctx t.at_.site t.at_.cluster)
    let fails := if p.acc == 6 then (if posts == some false then some ⟨p.home, 3, 0, 0⟩ else none) else p.fails s (ctxMaster p.tag)
    recheck s p w fails (fun s => onPly s uid windex n (fun p => { p with wait := if p.wait == .fetch then .none else p.wait }))
  | .copy id => match (allCopies s).find? (fun (_, c) => c.id == id && c.fid == some key) with
    | some (k, c) => (advanceCopy s k.site k.phys 1 { c with fid := none }).1
    | none => s
  | .remote id => match s.remotes.find? (·.id == id) with
    | some o =>
      let o1 := { o with fid := none }
      driveRemote (setRemote s o1) o1
    | none => s
  | .engine id =>
    match s.clusters.find? (fun c => c.cmds.any (fun e => e.id == id && e.fid == some key)) with
    | none => s
    | some c =>
      let s1 := onCluster s c.site c.phys (fun c => { c with cmds := c.cmds.map (fun e => if e.id == id then { e with fid := none } else e) })
      let c1 := findCluster s1 c.site c.phys
      match c1.cmds.find? (·.id == id) with
      | none => s1
      | some e =>
        if e.started then endTransfer s1 c.site c.phys e
        else if (chooseGrant c1.cmds).map (·.id) == some id then grantCmd s1 c.site c.phys e
        else s1
  | .record id =>
    let s1 := { s with recWrites := s.recWrites.map (fun x => if x.id == id then { x with fid := none } else x) }
    pumpRecords s1
  | .host id => match s.hostReqs.find? (·.id == id) with
    | some r => serveHost s { r with fid := none }
    | none => s
  | .peer id => match s.peerReqs.find? (·.id == id) with
    | some r => performPeer s { r with fid := none }
    | none => s
  | .launch _ => recheck s p w (p.fails s (graphMaster (p.unit / 1024) p.tag)) id
  | .image _ => recheck s p w (p.fails s (activityMaster p.unit p.tag)) id
  | .area _ _ => recheck s p w (p.fails s (ctxMaster p.tag)) id

/-- A suspended team no longer waits for a fault; without any it is ready (R331). -/
def serviceSuspended (s : State) (key : Nat × Nat) : State :=
  { s with launches := s.launches.map (fun l => { l with suspended := l.suspended.map (fun x =>
      if x.faults.contains key then
        let rest := x.faults.filter (· != key)
        { x with faults := rest, since := if rest.isEmpty then s.cyc else x.since, aged := if rest.isEmpty then 0 else x.aged
                 log := x.log.map (fun e => if e.fid == some key then { e with fid := none } else e) }
      else x) }) }

def findPending (s : State) (home fid : Nat) : Option Pending := s.pendings.find? (fun p => p.home == home && p.fid == fid)

def dropPending (s : State) (home fid : Nat) : State :=
  { s with pendings := s.pendings.filter (fun p => !(p.home == home && p.fid == fid)) }

/-- What the accesses of an entry use of a home's resources. -/
def Pending.replayUse (p : Pending) : Use := bytesUse (128 * p.waiters.length)

/-- The replays of some entries go on under the replay budgets of their homes, from window to window where one does not
suffice; the answer tells whether they have all that they need (R337). -/
def payReplay (s : State) (ps : List Pending) : State × Bool :=
  ps.foldl (fun (acc, ok) p =>
    let (acc1, o) := payOn acc (3, p.home, p.fid) p.home 4 p.replayUse
    (acc1, ok && o)) (s, true)

/-- An entry that is replayed: its number stays in use meanwhile, so that an access that fails still waits under another one
(R354). -/
def openReplay (s : State) (p : Pending) : State :=
  let s0 := { s with pendings := s.pendings.map (fun q => if q.home == p.home && q.fid == p.fid then { q with waiters := [], unit := 2 ^ 32 } else q) }
  endPayment (serviceSuspended s0 (p.home, p.fid)) (3, p.home, p.fid)

/-- Each access of the entry is walked and checked again. -/
def replayEntry (s : State) (p : Pending) : State :=
  dropPending (p.waiters.foldl (fun acc w => replayWaiter acc p w) (openReplay s p)) p.home p.fid

def replayAll (s : State) (hit : Pending → Bool) : State := (s.pendings.filter hit).foldl replayEntry s

/-! ### Cancel (R276, R304, R331, R352) -/

/-- The teams that have an access in an entry. -/
def waiterTeams (s : State) (w : Waiter) : List Nat :=
  match w with
  | .acc id => (s.accs.filter (·.id == id)).map (·.uid)
  | .log uid _ _ => [uid]
  | .fetch uid _ _ => [uid]
  | .copy id => ((allCopies s).filter (fun (_, c) => c.id == id)).map (fun (_, c) => c.uid)
  | .remote id => (s.remotes.filter (·.id == id)).map (·.uid)
  | .engine id => (s.clusters.flatMap (·.cmds)).flatMap (fun e => if e.id == id then e.uid :: e.owners.map (·.1) else [])
  | .area uid _ => [uid]
  | _ => []

/-- A team ends by a cancelled fault, resident or swapped out; `info` is the record of that fault (R304, R352). -/
def cancelTeam (s : State) (uid : Nat) (info : List DWord) : State :=
  if (findTeam s uid).isSome then fatalTeam s uid 0x20 info
  else match s.launches.find? (fun l => l.suspended.any (·.uid == uid)) with
    | some l => endSuspended s l.key uid 0x20 info
    | none => s

def cancelWaiter (s : State) (w : Waiter) : State :=
  match w with
  | .record id => { dropRecord s id with lostReads := distinct (s.lostReads ++ [id]) }
  | .launch id => { s with lostReads := distinct (s.lostReads ++ [id]) }
  | .copy id =>
    -- a copy of a graph node has no team: it stops, and its node fails
    if (allCopies s).any (fun (_, c) => c.id == id && c.uid == 0) then
      { s with lostReads := distinct (s.lostReads ++ [id])
               clusters := s.clusters.map (fun k => { k with copies := k.copies.filter (·.id != id) }) }
    else s
  | .engine id =>
    -- the command completes as failed, with no effect beyond the pieces already moved (R243, R253, R262)
    match s.clusters.find? (fun c => c.cmds.any (·.id == id)) with
    | some c => ((c.cmds.find? (·.id == id)).map (completeCmd s c.site c.phys)).getD s
    | none => s
  -- the access is answered as failed: without data (log 115)
  | .peer id => match s.peerReqs.find? (·.id == id) with
    | some r => answerPeer s { r with data := [] }
    | none => s
  | .host id => { s with hostReqs := s.hostReqs.map (fun r => if r.id == id then { r with done := true, err := true, fid := none } else r) }
  | _ => s

def cancelEntry (s : State) (p : Pending) : State :=
  let info := ((faultRecord s p).dwords).take 4
  let swapped := (s.launches.flatMap (·.suspended)).filterMap (fun x =>
    if x.faults.contains (p.home, p.fid) then some x.uid else none)
  let uids := distinct (p.waiters.flatMap (waiterTeams s) ++ swapped)
  let s1 := dropPending s p.home p.fid
  let s2 := p.waiters.foldl cancelWaiter s1
  let s3 := pumpRemotes (pumpRecords (uids.foldl (fun acc u => cancelTeam acc u info) s2))
  pumpLogs s3

/-! ### Retries and errors -/

/-- R348: an access that found the table full tries again after 1,024 cycles, an agent's under its name above those of entries; one that stands behind an earlier access of
its ply, or behind its log, is looked at again. -/
def execPendingTableRetry (id : Nat) (s : State) : Host.Outcome State Fault Refusal :=
  event s (fun s =>
    match s.accs.find? (·.id == id) with
    | none => match s.pendings.find? (·.fid == id) with
      | some p => if maxPending ≤ p.fid && p.at_ + 1024 ≤ s.cyc then replayEntry s p else s
      | none => s
    | some a =>
      match a.stage with
      | .full since => if since + 1024 ≤ s.cyc then arriveHome s a else s
      | .held => arriveHome s a
      | _ => s)

/-- A physical register of a weave holds an error: every map that names it shows it (R361: those of the checkpoints as well), and
every latch window that reads it in place of its entry (R51). -/
def poisonReg (s : State) (uid : Nat) (scalar : Bool) (id : Nat) (w : Weave) : Weave :=
  let map (m : RegMap) : RegMap :=
    if scalar then { m with s := m.s.map (fun r => r.map (fun x => if x.id == id then { x with poison := true } else x)) }
    else { m with v := m.v.map (fun r => r.map (fun x => if x.id == id then { x with poison := true } else x)) }
  let owned (l : LatchWin) : Bool := (findCore s (coreOf s uid)).latchOwner.contains (w.part, l.entry, uid, w.windex, l.ply)
  { w with
    map := map w.map
    region := w.region.map (fun g => { g with map := map g.map })
    plies := w.plies.map (fun p => { p with fence := p.fence.map (fun c => { c with map := map c.map }) })
    latches := w.latches.map (fun l => if l.scalar == scalar && l.ids.contains id && !owned l then { l with poison := true } else l) }

/-- The physical register that n names: below `names` that of a name of the current map, else register n - `names`. -/
def regOf (s : State) (uid windex names n : Nat) (at_ : RegMap → Nat → Option Nat) : Nat :=
  if n < names then ((findWeave s uid windex).bind (fun w => at_ w.map n)).getD (2 ^ 64) else n - names

/-- A line of the stack cache holds what memory holds: it is clean (R359). -/
def cleanStackLine (s : State) (t : Team) (w : Weave) (line : Nat) : Bool :=
  (w.stack.filter (fun c => c.1 / 128 == line)).all (fun (va, b) =>
    match (translate s t.ctx va).map (fun ia => (place s (ctxMaster t.ctx) rightR t.at_.site ia).1) with
    | some (.cell key _) => cellRead s.mem key == b && (poisonIn s key 1).isNone
    | _ => false)

/-- A word of the stack cache holds an error: a clean line is dropped, and its next use fetches it again. -/
def poisonStack (s : State) (uid windex n : Nat) : State :=
  match findTeam s uid, findWeave s uid windex with
  | some t, some w =>
    if !w.stack.any (fun c => c.1 / 4 == n) then s
    else if cleanStackLine s t w (n / 32) then
      onWeave s uid windex (fun w => { w with stack := w.stack.filter (fun c => c.1 / 128 != n / 32), stackBad := w.stackBad.filter (fun k => k / 32 != n / 32) })
    else onWeave s uid windex (fun w => { w with stackBad := distinct (w.stackBad ++ [n]) })
  | _, _ => s

/-- What a packet carries holds an error: the data of a request or an answer, or the bytes of a remote line. -/
def poisonPacket (s : State) (acc : Nat) : State :=
  { s with
    accs := s.accs.map (fun a => if a.id != acc then a
      else if a.open_ then { a with bad := true } else { a with cmp := BitVec.ofNat 64 (a.va / 4 + 1) })
    remotes := s.remotes.map (fun o => { o with lines := o.lines.map (fun l => if l.id == acc then { l with bad := true } else l) }) }

/-- Where an error lies. -/
def markPoison (s : State) (place uid windex n : Nat) : State :=
  match place with
  | 0 => { s with poisoned := distinct (s.poisoned ++ [n]) }
  | 1 => onWeave s uid windex (poisonReg s uid false (regOf s uid windex 192 n (fun m k => (m.v.getD k none).map (·.id))))
  | 2 => onWeave s uid windex (poisonReg s uid true (regOf s uid windex 48 n (fun m k => (m.s.getD k none).map (·.id))))
  | 3 => onTeams s (·.uid == uid) (fun t => { t with scratchPoison := distinct (t.scratchPoison ++ [n]) })
  | 4 => onTeams s (·.uid == uid) (fun t => { t with resns := t.resns.map (fun o => o.map (fun r =>
      if r.id == windex then { r with poison := distinct (r.poison ++ [n]) } else r)) })
  | 5 => onWeave s uid windex (fun w => { w with latches := w.latches.map (fun x => if x.entry == n then { x with poison := true } else x) })
  | 6 => poisonStack s uid windex n
  | 7 => onTeams s (·.uid == uid) (fun t => { t with tagBad := if n < t.kernel.tagEntries then distinct (t.tagBad ++ [n]) else t.tagBad })
  | 8 => onCore s (coreOf s uid) (fun c => { c with log := c.log.map (fun e => if e.uid == uid && e.serial == n then { e with bad := true } else e) })
  | 9 => poisonPacket s n
  | _ => { s with cores := s.cores.map (fun c => if c.id.unit == uid then { c with l1 := c.l1.filter (·.line != n) } else c) }

/-- R359: an uncorrectable error is found in one of the protected arrays, and what it hits becomes poisoned: a memory word
(place 0, n its key divided by 4), a vector or scalar register (1, 2), a word of a claim (3) or of reservation `windex` (4), a
latch entry (5), a word of the stack cache (6, n its address divided by 4), entry n of a tag table (7), the entry of a side log with serial n (8), a
mesh or port buffer (9, n the access that its packet carries). A clean L1 line (10) of unit `uid` is dropped. No IA is concerned: the
arrays hold their words by physical place (R373). -/
def execUncorrectableErrorFound (place uid windex n : Nat) (s : State) : Host.Outcome State Fault Refusal :=
  event s (fun s =>
    let mine := !(place == 0 || 9 ≤ place)
    let (lnum, tix) := if mine then teamIds s uid else (0xFFFFFFFF, 0xFFFFFFFF)
    let unit := if place == 0 then n * 4 / 2 ^ 46 % 64 * 1024 else if mine then (coreOf s uid).unit else uid
    let ctx := if mine then ((findTeam s uid).map (·.ctx)).getD 0 else 0
    let s1 := markPoison s place uid windex n
    let clean := place == 6 && (findWeave s1 uid windex).map (·.stackBad) == (findWeave s uid windex).map (·.stackBad)
    if clean || 10 ≤ place then s1 else postErr s1 0x02 ctx unit 0 lnum tix 0 0)

/-- R359, R373: a corrected error of a unit is counted, and reported at most once in 2^24 cycles. -/
def execCorrectedError (unit : Nat) (s : State) : Host.Outcome State Fault Refusal :=
  event s (fun s =>
    let (n, last) := ((s.corrected.find? (fun (u, _, _) => u == unit)).map (fun (_, n, at_) => (n, some at_))).getD (0, none)
    let others := s.corrected.filter (fun (u, _, _) => u != unit)
    let due := match last with
      | none => true
      | some t => t + 2 ^ 24 ≤ s.cyc
    if due then
      postErr { s with corrected := others ++ [(unit, 0, s.cyc)] } 0x01 0 unit 0 0xFFFFFFFF 0xFFFFFFFF (n + 1) 0
    else { s with corrected := others ++ [(unit, n + 1, last.getD 0)] })

end Sys2Proof.Machine
end

