-- ==== Sys2Proof/Machine/Scan.lean ====
section
/-!
DEFINITION. Units, their suspicion scores, scan and quarantine (16 R314 to R316; 19 R362 to R364, R371).
-/

namespace Sys2Proof.Machine

open Sys2Proof

/-! ### Units (R315) -/

/-- A unit identifier, taken apart. -/
structure UnitId where
  site : Nat
  phys : Nat
  engine : Bool
  core : Nat
  deriving DecidableEq, Repr

def unitIdOf (u : Nat) : UnitId := ⟨bits u 15 10, bits u 9 6, bit u 5, bits u 1 0⟩

def UnitId.unit (u : UnitId) : Nat := u.site * 1024 + u.phys * 64 + (if u.engine then 32 else u.core)

def UnitId.coreId (u : UnitId) : CoreId := ⟨u.site, u.phys, u.core⟩

/-- The unit exists: a site of the wafer, and one of its ten cluster sites, the spare ones and those out of service as well
(R315). -/
def unitExists (u : UnitId) : Bool := isSite u.site && u.phys < 10

def unitScan (s : State) (u : UnitId) : ScanState :=
  if u.engine then (findCluster s u.site u.phys).scan else (findCore s u.coreId).scan

def unitScore (s : State) (u : UnitId) : Nat :=
  if u.engine then (findCluster s u.site u.phys).score else (findCore s u.coreId).score

def setUnitScore (s : State) (u : UnitId) (x : Nat) : State :=
  if u.engine then onCluster s u.site u.phys (fun c => { c with score := x })
  else onCore s u.coreId (fun c => { c with score := x })

def setUnitScan (s : State) (u : UnitId) (x : ScanState) : State :=
  if u.engine then onCluster s u.site u.phys (fun c => { c with scan := x, scanAt := s.cyc, scanSet := 0 })
  else onCore s u.coreId (fun c => { c with scan := x, scanAt := s.cyc, scanSet := 0 })

/-- The required sets that a unit has passed in its present scan. -/
def unitScanSet (s : State) (u : UnitId) : Nat :=
  if u.engine then (findCluster s u.site u.phys).scanSet else (findCore s u.coreId).scanSet

def setScanSet (s : State) (u : UnitId) (k : Nat) : State :=
  if u.engine then onCluster s u.site u.phys (fun c => { c with scanSet := k })
  else onCore s u.coreId (fun c => { c with scanSet := k })

/-- The live units of a site in ascending identifier (R362). -/
def siteUnits (s : State) (site : Nat) : List UnitId :=
  let ps := (List.range 10).filter (fun p => (liveClusters s site).any (·.2 == p))
  ps.flatMap (fun p => ((List.range 4).map (fun k => ⟨site, p, false, k⟩)) ++ [⟨site, p, true, 0⟩])

/-- A unit that takes part in the rotation. -/
def unitLive (s : State) (u : UnitId) : Bool :=
  unitScan s u != .quarantined && unitScan s u != .failed && (u.engine || !(findCore s u.coreId).halted)

/-! ### Rounds (R363) -/

def unitPassed (s : State) (u : UnitId) : Nat :=
  if u.engine then (findCluster s u.site u.phys).passed else (findCore s u.coreId).passed

/-- The round of a site ends once every live unit has passed in it (R363). -/
def endRound (s : State) (site : Nat) : State :=
  let r := (findSite s site).round
  let us := (siteUnits s site).filter (unitLive s)
  if us.all (fun u => unitPassed s u == r + 1) then settleAll (onSite s site (fun x => { x with round := r + 1 })) else s

/-! ### Quarantine (R371, R21) -/

/-- The bound clusters of a partition that no bit of a context holds, in ascending site and logical number (R353). -/
def freeBound (s : State) (part : Nat) (held : List (Nat × Nat × Nat)) : List (Nat × Nat) :=
  (sitesOf s part).flatMap (fun n => (boundClusters s n).filterMap (fun (_, p) =>
    if held.any (fun (_, m, q) => m == n && q == p) then none else some (n, p)))

/-- A removed cluster's bits take another cluster of the partition, whose engines then take the context's commands (R345),
or stay unbound. -/
def rebindCluster (s : State) (site phys : Nat) : State :=
  let part := (findSite s site).part
  let one (c : Context) : Context :=
    c.bound.foldl (fun acc (b : Nat × Nat × Nat) =>
      if b.2.1 == site && b.2.2 == phys then
        let rest := acc.bound.filter (· != b)
        match (freeBound s part rest).head? with
        | some (n, p) => { acc with bound := rest ++ [(b.1, n, p)] }
        | none => { acc with bound := rest }
      else acc) c
  -- a launch follows the bits that it was dealt
  let moved (l : Launch) : Launch := { l with dealt := l.dealt.filterMap (fun b =>
    if b.2.1 == site && b.2.2 == phys then (one (findCtx s l.ctx)).bound.find? (·.1 == b.1) else some b) }
  let s1 := { s with contexts := s.contexts.map one, launches := s.launches.map moved }
  s1.contexts.foldl (fun acc c => c.bound.foldl (fun acc (_, n, p) => openEngine acc c.tag n p) acc) s1

/-- Teams are asked to leave (R307). -/
def askLeave (s : State) (p : Team → Bool) (rs : Nat) : State :=
  let vol (t : Team) (w : Weave) : Bool :=
    rs == 0 && (((List.range 192).zip w.map.v).any (fun (n, r) => r.isSome && t.kernel.volV n) ||
      ((List.range 48).zip w.map.s).any (fun (n, r) => r.isSome && t.kernel.volS n))
  onTeams s (fun t => p t && t.leaving.isNone) (fun t => { t with
    leaving := some rs
    weaves := t.weaves.map (fun w => { w with defer := if !w.ended && vol t w then some ⟨0, s.cyc⟩ else none }) })

/-- Bit p of `sitesta.dead`: physical cluster site p is out of service (R397; log 78). -/
def markDead (s : State) (u : UnitId) (dead : Bool) : State :=
  let bit : DWord := BitVec.ofNat 64 (2 ^ (52 + u.phys))
  onSite s u.site (fun x => { x with sta := if dead then x.sta ||| bit else x.sta &&& ~~~bit })

/-- A unit is quarantined, by scan or by score: record 0x09, its teams leave, its cluster may leave binding. -/
def quarantine (s : State) (u : UnitId) (byScan : Bool) : State :=
  if unitScan s u == .quarantined then s
  else
    let was := clusterRemoved s u.site u.phys
    let s1 := postErr (setUnitScan s u .quarantined) 0x09 0 u.unit 0 0xFFFFFFFF 0xFFFFFFFF (unitScore s u) (if byScan then 1 else 2)
    let held := (findCluster s1 u.site u.phys).outstanding
    let s2 := askLeave s1 (fun t =>
      if u.engine then held.any (fun e => e.uid == t.uid || e.owners.any (·.1 == t.uid)) else t.at_ == u.coreId) 0
    if !was && clusterRemoved s2 u.site u.phys then markDead (rebindCluster s2 u.site u.phys) u true else s2

/-- A score changes: record 0x08, and at 64 or more the quarantine. -/
def changeScore (s : State) (u : UnitId) (new : Nat) : State :=
  let x := min new 255
  let s1 := postErr (setUnitScore s u x) 0x08 0 u.unit 0 0xFFFFFFFF 0xFFFFFFFF (unitScore s u) x
  if 64 ≤ x then endRound (quarantine s1 u false) u.site else s1

/-! ### Scan (R314, R362, R364) -/

/-- The stored pattern sets. -/
def storedSets (s : State) : List Nat := (List.range 256).filter (Config.scanSets s.scanRec)

/-- The sets that a unit has to pass (R362). -/
def requiredSets (s : State) (u : UnitId) : List Nat := (storedSets s).filter (Config.scanRequired s.scanRec u.unit)

/-- A scan pattern set runs: 0 passed, else the first failing pattern plus one. -/
def scanRun (s : State) (u : UnitId) (set : Nat) : Nat := Config.scanResult s.freeCtr u.unit set % 65537

/-- The unit passes every one of these sets, run one after another. -/
def passesAll (u : UnitId) : List Nat → State → State × Bool
  | [], s => (s, true)
  | set :: rest, s => if scanRun s u set != 0 then (tick s, false) else passesAll u rest (tick s)

/-- R364: a failed scan poisons what the unit may have spoiled. -/
def poisonByUnit (s : State) (u : UnitId) (lastPass : Nat) : State :=
  s.launches.foldl (fun acc l =>
    if l.state != 2 && l.units.contains u.unit && lastPass ≤ (assoc? u.site l.lastRounds).getD 0 + 1 then
      poisonLaunch acc l.key
    else acc) s

/-- A unit failed a set: record 0x05, quarantine, poisoned launches. -/
def scanFailed (s : State) (u : UnitId) (set pattern : Nat) : State :=
  let s1 := postErr s 0x05 0 u.unit 0 0xFFFFFFFF 0xFFFFFFFF (set * 2 ^ 24 + pattern * 2 ^ 8 + 1) 0
  endRound (poisonByUnit (quarantine s1 u true) u (unitPassed s u)) u.site

/-- A unit passed in the round in progress; round r is noted as r + 1, 0 meaning never. -/
def scanPassed (s : State) (u : UnitId) : State :=
  let r := (findSite s u.site).round
  let s1 := setUnitScan s u .serve
  let s2 := if u.engine then onCluster s1 u.site u.phys (fun c => { c with passed := r + 1 })
            else onCore s1 u.coreId (fun c => { c with passed := r + 1 })
  endRound s2 u.site

end Sys2Proof.Machine
end

