-- ==== Sys2Proof/Machine/Launch.lean ====
section
/-!
DEFINITION. Accepting a launch (06 R148, R149; 12 R278 to R280; 17 R328; 18 R347): the descriptor, its kernel header and
its crew table as the graph processor reads them, the checks in their order, the dealing of teams to sites.
-/

namespace Sys2Proof.Machine

open Sys2Proof

/-! ### What a graph processor reads (R280, R344) -/

/-- Why an acceptance stops: a rejection, or a home fault that is waited for. -/
inductive Stop where
  | reject (code : Nat)
  | fault (e : Failure)
  deriving DecidableEq, Repr

/-- Who reads: the processor's site and the context that it serves. -/
structure Gp where
  site : Nat
  ctx : Nat
  deriving DecidableEq, Repr

/-- Bytes at an IA as a master sees them now. -/
def peekBytes (s : State) (m : Master) (src ia n : Nat) : Except Failure (List Byte) :=
  (linePiecesOf ia n).foldl (fun acc (a, len) =>
    match acc with
    | .error e => .error e
    | .ok bs =>
      match (place s m rightR src a).1 with
      | .fail h k l => .error ⟨h, k, l, a⟩
      | .ctl _ _ => .ok (bs ++ List.replicate len 0#8)
      | .cell key _ => .ok (bs ++ cellReadN s.mem key len)) (.ok [])

/-- Bytes at a virtual address; an address that no window translates rejects with code 7 (log 27). -/
def gpBytes (s : State) (g : Gp) (va n : Nat) : Except Stop (List Byte) :=
  (linePiecesOf va n).foldl (fun acc (a, len) =>
    match acc with
    | .error e => .error e
    | .ok bs =>
      match translate s g.ctx a with
      | none => .error (.reject 7)
      | some ia =>
        match peekBytes s (graphMaster g.site g.ctx) g.site ia len with
        | .error e => .error (.fault e)
        | .ok b2 => .ok (bs ++ b2)) (.ok [])

def dwordsOf (bs : List Byte) : List DWord :=
  (List.range (bs.length / 8)).map (fun k => BitVec.ofNat 64 (ofBytes ((bs.drop (8 * k)).take 8)))

/-- What a graph processor reads of an HB page its site takes from the host, for reading (R100, R357; log 94). -/
def gpHold (s : State) (g : Gp) (va n : Nat) : State :=
  (linePiecesOf va n).foldl (fun acc (a, _) =>
    match translate s g.ctx a with
    | none => acc
    | some ia => takeHostLine acc (graphMaster g.site g.ctx) g.site (place s (graphMaster g.site g.ctx) rightR g.site ia).1.attr ia true) s

def gpDwords (s : State) (g : Gp) (va n : Nat) : Except Stop (List DWord) := (gpBytes s g va (8 * n)).map dwordsOf

/-- A check of R280. -/
def require (ok : Bool) (code : Nat) : Except Stop Unit := if ok then .ok () else .error (.reject code)

/-! ### Kernel headers (R148, R149) -/

/-- The frozen entries in use: offsets of base and length. -/
def frozenPairs (d : List DWord) : List (Nat × Nat) :=
  let n := ((d.getD 2 0#64).extractLsb' 17 4).toNat
  (List.range n).map (fun j =>
    let x := ((d.getD (3 + j / 2) 0#64).extractLsb' (32 * (j % 2)) 32).toNat
    (x / 65536, x % 65536))

def headerOk (addr : Nat) (d : List DWord) : Bool :=
  let d0 := d.getD 0 0#64
  let d1 := d.getD 1 0#64
  let d2 := d.getD 2 0#64
  let k : Kernel := { addr := addr, d0 := d0, d1 := d1, d2 := d2 }
  let (ks, kl, kt) := k.split
  let c := (d2.extractLsb' 32 8).toNat * 4
  let vlo := (d1.extractLsb' 24 8).toNat
  let vhi := (d1.extractLsb' 16 8).toNat
  let slo := (d1.extractLsb' 8 8).toNat
  let shi := (d1.extractLsb' 0 8).toNat
  let nf := (d2.extractLsb' 17 4).toNat
  d0.extractLsb' 48 16 == 0x5A4B#16 && d0.extractLsb' 40 8 == 1#8 && d0.extractLsb' 37 3 == 0#3 &&
  k.vfloor ≤ k.vpeak && k.vpeak ≤ 192 && k.sfloor ≤ k.speak && k.speak ≤ 48 &&
  (if d2.getLsbD 27 then vlo ≤ vhi && vhi ≤ 191 else vlo == 0 && vhi == 0) &&
  (if d2.getLsbD 26 then 1 ≤ slo && slo ≤ shi && shi ≤ 47 else slo == 0 && shi == 0) &&
  ks ≤ 448 && ks + kl + kt == 512 && 32 ≤ kl && 32 ≤ kt && (if ks == 0 then c == 0 else 4 ≤ c && c ≤ ks) &&
  (d2.extractLsb' 29 3).toNat ≤ 5 && (k.assayCode ≤ 16 || k.assayCode == 31) && nf ≤ 8 &&
  d2.extractLsb' 0 17 == 0#17 && d.getD 7 0#64 == 0#64 &&
  (List.range 8).all (fun j => j < nf || (d.getD (3 + j / 2) 0#64).extractLsb' (32 * (j % 2)) 32 == 0#32) &&
  (frozenPairs d).all (fun (a, b) => a % 8 == 0 && b % 8 == 0) &&
  64 ≤ k.entry && k.entry % 4 == 0 && (addr + k.entry) % 32 != 28

/-! ### Crew tables (R279) -/

def ascending : List Nat → Bool
  | x :: y :: rest => x < y && ascending (y :: rest)
  | _ => true

/-- One crew-table entry. -/
def readCrew (s : State) (g : Gp) (total : Nat) (a b : DWord) : Except Stop Crew := do
  let kind := (a.extractLsb' 61 2).toNat
  let list := (a.extractLsb' 0 56).toNat
  let first := (b.extractLsb' 32 32).toNat
  let count := (b.extractLsb' 0 32).toNat
  require (kind != 3 && a.extractLsb' 56 5 == 0#5) 4
  if kind == 0 then
    require (list % 4 == 0 && count == 0) 4
    let bs ← gpBytes s g list (4 * first)
    let ms := (List.range first).map (fun k => ofBytes ((bs.drop (4 * k)).take 4))
    require (ascending ms && ms.all (· < total)) 4
    pure { members := ms, resident := a.getLsbD 63 }
  else if kind == 1 then
    require (list == 0 && first + count ≤ total) 4
    pure { members := (List.range count).map (first + ·), resident := a.getLsbD 63 }
  else
    require (list == 0 && b == 0#64) 4
    pure { members := List.range total, resident := a.getLsbD 63 }

def readCrews (s : State) (g : Gp) (total tab : Nat) : Nat → Nat → Except Stop (List Crew)
  | 0, _ => .ok []
  | n + 1, i => do
    let d ← gpDwords s g (tab + 16 * i) 2
    let c ← readCrew s g total (d.getD 0 0#64) (d.getD 1 0#64)
    let rest ← readCrews s g total tab n (i + 1)
    pure (c :: rest)

/-- No team is in more than four entries (R28). -/
def crewDepthOk (cs : List Crew) : Bool :=
  (distinct (cs.flatMap (·.members))).all (fun m => (cs.filter (fun c => c.members.contains m)).length ≤ 4)

/-! ### Dealing (R32, R328) -/

/-- Teams of a kernel that an empty core with its split holds. -/
def emptyHold (k : Kernel) : Nat :=
  let ok (j : Nat) : Bool :=
    j * k.claim ≤ k.split.1 * 1024 && j * k.tagEntries ≤ 512 && j * k.wcount * k.sfloor ≤ sPoolSize &&
    (takeParts k.vfloor (j * k.wcount) (List.replicate 4 (0, 0))).isSome
  ((List.range 65).filter ok).getLastD 0

/-- A site's bound clusters of the mask hold n teams at once, with stack slots for them. -/
def siteHolds (s : State) (l : Launch) (site n : Nat) : Bool :=
  let cores := ((l.clustersAt site).flatMap (clusterCores site)).filter (fun c =>
    !(findCore s c).halted && (findCore s c).scan != .quarantined && (findCore s c).scan != .failed)
  n * l.kernel.wcount ≤ l.nslots && n ≤ cores.length * emptyHold l.kernel

/-- The unions of resident crews that share a team. -/
def mergeCrew (units : List (List Nat)) (c : List Nat) : List (List Nat) :=
  let (hit, rest) := units.partition (fun u => u.any c.contains)
  rest ++ [distinct (hit.flatMap (fun u => u) ++ c)]

def crewUnits (cs : List Crew) : List (List Nat) :=
  ((cs.filter (fun c => c.resident && !c.members.isEmpty)).map (·.members)).foldl mergeCrew []

/-- Proportional contiguous ranges: first index and count of each site. -/
def proportional (sites : List (Nat × Nat)) (total : Nat) : List (Nat × Nat × Nat) :=
  let all := sumOf (sites.map (·.2))
  let base := sites.map (fun (n, c) => (n, total * c / max all 1))
  let left := total - sumOf (base.map (·.2))
  let counts := ((List.range base.length).zip base).map (fun (k, n, c) => (n, c + (if k < left then 1 else 0)))
  (counts.foldl (fun (acc, first) (n, c) => (acc ++ [(n, first, c)], first + c)) ([], 0)).1

/-- Runs of consecutive numbers of an ascending list. -/
def runsOf : List Nat → List (Nat × Nat)
  | [] => []
  | x :: rest => match runsOf rest with
    | (y, n) :: more => if x + 1 == y then (x, n + 1) :: more else (x, 1) :: (y, n) :: more
    | [] => [(x, 1)]

/-- The site of a unit of resident crews (R328). -/
def unitSite (s : State) (l : Launch) (sites : List Nat) (ranges : List (Nat × Nat × Nat)) (u : List Nat) : Option Nat :=
  let low := u.foldl min (u.headD 0)
  let fits (n : Nat) : Bool := siteHolds s l n u.length
  let home := (ranges.find? (fun (_, f, c) => f ≤ low && low < f + c)).map (·.1)
  match home with
  | some n => if fits n then some n else sites.find? fits
  | none => sites.find? fits

/-- The runs of undispatched teams; `none` when a resident crew fits no site. -/
def dealTeams (s : State) (l : Launch) (now : Nat) : Option (List TeamRun) :=
  let sites := l.sitesDealt
  let ranges := proportional (sites.map (fun n => (n, (l.clustersAt n).length))) (l.nx * l.ny * l.nz)
  let units := crewUnits l.crews
  let homes := units.map (unitSite s l sites ranges)
  if homes.any (·.isNone) then none
  else if units.isEmpty then
    some ((ranges.filter (fun (_, _, c) => c != 0)).map (fun (n, f, c) => { site := n, first := f, count := c, since := now }))
  else
    let taken := units.flatMap (fun u => u)
    some (ranges.flatMap (fun (n, f, c) =>
      let mine := (List.range c).map (f + ·)
      let kept := mine.filter (fun x => !taken.contains x)
      let added := (units.zip homes).flatMap (fun (u, h) => if h == some n then u else [])
      (runsOf (sortBy (fun x y => decide (x ≤ y)) (kept ++ added))).map (fun (x, k) => { site := n, first := x, count := k, since := now })))

/-! ### Frozen ranges (R347) -/

/-- The frozen entries of a virtual range: for each site that it reaches, the covered IAs rounded outward. -/
def frozenCover (s : State) (ctx va len : Nat) : Option (List (Nat × Nat × Nat)) :=
  let pages := if len == 0 then [] else (List.range ((va + len - 1) / 65536 - va / 65536 + 1)).map (fun k => (va / 65536 + k) * 65536)
  let ias := pages.map (translate s ctx)
  if ias.any (·.isNone) then none
  else
    some (ias.foldl (fun acc o =>
      let ia := o.getD 0
      if iaNode ia != s.wafer || !isSite (iaSite ia) then acc
      else match acc.find? (fun (n, _, _) => n == iaSite ia) with
        | some _ => acc.map (fun (n, lo, hi) => if n == iaSite ia then (n, min lo ia, max hi (ia + 65536)) else (n, lo, hi))
        | none => acc ++ [(iaSite ia, ia, ia + 65536)]) [])

/-- The ranges of a header, read from the argument block. -/
def readFrozen (s : State) (g : Gp) (args : Nat) : List (Nat × Nat) → Except Stop (List (Nat × Nat) × List (Nat × Nat × Nat))
  | [] => .ok ([], [])
  | (bo, lo) :: rest => do
    let b ← gpDwords s g (args + bo) 1
    let n ← gpDwords s g (args + lo) 1
    match frozenCover s g.ctx (b.getD 0 0#64).toNat (n.getD 0 0#64).toNat with
    | none => .error (.reject 12)
    | some cover =>
      let (rs, cs) ← readFrozen s g args rest
      pure (((b.getD 0 0#64).toNat, (n.getD 0 0#64).toNat) :: rs, cover ++ cs)

/-- Free places of a target's table. -/
def freeSlots (s : State) (site t : Nat) : List Nat :=
  let base := regionKey s site (accTableOff t)
  ((List.range 1024).map (fun k => base + 32 * k)).filter (fun k => !(accKeys s site t).contains k)

/-- Every slice of the sites that the ranges reach has 64 free entries. -/
def frozenRoom (s : State) (l : Launch) : Bool :=
  l.frozen.all (fun (n, _, _) => (List.range 16).all (fun t => 64 ≤ (freeSlots s n t).length))

def frozenD0 (l : Launch) : Nat := 2 ^ 63 + 2 ^ 62 + l.ctx * 2 ^ 32 + l.lnum

/-- The entries are installed at the slices. -/
def installFrozen (s : State) (l : Launch) : State :=
  let s1 := l.frozen.foldl (fun acc (n, lo, hi) =>
    (List.range 16).foldl (fun acc t =>
      match (freeSlots acc n t).head? with
      | none => acc
      | some k => { acc with mem := cellWriteN acc.mem k (toBytes 8 (frozenD0 l) ++ toBytes 8 lo ++ toBytes 8 hi ++ toBytes 8 0) }) acc) s
  onLaunch s1 l.key (fun l => { l with frozenSet := true })

/-- The memory keys of the entries of a table that a graph processor installed. -/
def frozenKeys (s : State) (site t : Nat) : List Nat :=
  let base := regionKey s site (accTableOff t)
  s.mem.filterMap (fun c =>
    if base ≤ c.1 && c.1 < base + 0x8000 && (c.1 - base) % 32 == 7 && c.2.getLsbD 6 then some (c.1 - 7) else none)

/-- They are removed when the assay window closes. -/
def removeFrozen (s : State) (l : Launch) : State :=
  let s1 := l.frozen.foldl (fun acc (n, _, _) =>
    (List.range 16).foldl (fun acc t =>
      ((frozenKeys acc n t).filter (fun k => cellNat acc.mem k 4 == frozenD0 l % 2 ^ 32)).foldl (fun acc k =>
        { acc with mem := cellWriteN acc.mem k (List.replicate 32 0#8) }) acc) acc) s
  onLaunch s1 l.key (fun l => { l with frozen := [], frozenSet := false })

/-! ### Descriptors (R278, R280) -/

/-- What a launch takes from where it was submitted. -/
structure Submit where
  source : Source
  site : Nat
  ctx : Nat
  level : Bool
  pcap : Nat                                              -- the queue's limit; prio above it is code 8
  clamp : Option Nat                                      -- the parent's priority (R278)
  floor : Nat := 0                                        -- the graph header's priority (R322)
  tvec : DWord
  args : DWord
  parentAff : Option (List Nat)                           -- for an all-zero mask
  deriving DecidableEq, Repr

/-- The descriptor's own checks of code 3. -/
def descriptorOk (d : List DWord) : Bool :=
  let w (k : Nat) : DWord := d.getD k 0#64
  (w 0).extractLsb' 56 8 == 0#8 && (w 0).extractLsb' 0 6 == 0#6 && (w 2).extractLsb' 56 5 == 0#5 &&
  (w 2).extractLsb' 0 16 == 0#16 && 32 ≤ ((w 3).extractLsb' 32 32).toNat && (w 3).extractLsb' 0 32 != 0#32 &&
  (w 5).extractLsb' 56 8 == 0#8 && (w 5).extractLsb' 0 4 == 0#4 && ((w 6).extractLsb' 55 9).toNat ≤ 256 &&
  (w 6).extractLsb' 0 55 == 0#55 && (w 14).extractLsb' 56 8 == 0#8 && (w 14).extractLsb' 0 4 == 0#4 &&
  (w 15).extractLsb' 0 32 == 0#32

/-- The affinity bits of a descriptor. -/
def affinityOf (d : List DWord) : List Nat :=
  (List.range 448).filter (fun k => (d.getD (7 + k / 64) 0#64).getLsbD (k % 64))

/-- The launch priority (R278, R322). -/
def launchPrio (sub : Submit) (own : Nat) : Nat :=
  let p := min (max own sub.floor) sub.pcap
  match sub.clamp with
  | some c => min p c
  | none => p

/-- The checks of R280 on a descriptor, in the order 3, 1, 2, 4, 12, 5, 6: the launch that it gives, not yet
numbered. -/
def checkLaunch (s : State) (sub : Submit) (va : Nat) : Except Stop Launch := do
  let g : Gp := ⟨sub.site, sub.ctx⟩
  require (va % 128 == 0) 3
  let d ← gpDwords s g va 16
  let w (k : Nat) : DWord := d.getD k 0#64
  require (descriptorOk d) 3
  let crec := ((w 14).extractLsb' 0 56).toNat
  require (crec == 0 || ((translate s sub.ctx crec).isSome && (translate s sub.ctx (crec + 8)).isSome)) 3
  let kaddr := ((w 0).extractLsb' 0 56).toNat
  let h ← gpDwords s g kaddr 8
  require (headerOk kaddr h) 1
  let k : Kernel := { addr := kaddr, d0 := h.getD 0 0#64, d1 := h.getD 1 0#64, d2 := h.getD 2 0#64 }
  let nslots := ((w 3).extractLsb' 0 32).toNat
  require (k.wcount ≤ nslots) 3
  let nx := ((w 1).extractLsb' 32 32).toNat + 1
  let ny := ((w 1).extractLsb' 16 16).toNat + 1
  let nz := ((w 1).extractLsb' 0 16).toNat + 1
  require (nx * ny * nz ≤ 2 ^ 32) 2
  let tab := ((w 5).extractLsb' 0 56).toNat
  let ncrew := ((w 6).extractLsb' 55 9).toNat
  require (ncrew == 0 || tab != 0) 4
  let crews ← readCrews s g (nx * ny * nz) tab ncrew 0
  require (crewDepthOk crews) 4
  let (ranges, cover) ← readFrozen s g sub.args.toNat (frozenPairs h)
  let c := findCtx s sub.ctx
  let own := affinityOf d
  let aff := if own.isEmpty then sub.parentAff.getD [] else own
  require (aff.all c.granted.contains && !(maskSites s sub.ctx aff).isEmpty) 5
  let l : Launch := {
    site := sub.site, ctx := sub.ctx, source := sub.source, level := sub.level
    prio := launchPrio sub ((w 2).extractLsb' 61 3).toNat, pcap := sub.pcap, tvec := sub.tvec, args := sub.args
    kernel := { k with frozen := ranges }, nx := nx, ny := ny, nz := nz
    stkbase := ((w 2).extractLsb' 0 56).toNat, stksz := ((w 3).extractLsb' 32 32).toNat, nslots := nslots, seed := w 4
    crec := if crec == 0 then none
      else some ((translate s sub.ctx crec).getD 0, (translate s sub.ctx (crec + 8)).getD 0)
    wdog := ((w 15).extractLsb' 32 32).toNat, aff := aff, dealt := c.bound.filter (fun b => aff.contains b.1), crews := crews, frozen := cover
    windowOpen := k.assayed || !cover.isEmpty }
  match dealTeams s l s.cyc with
  | none => .error (.reject 6)
  | some runs => pure { l with runs := runs }

/-- The ranges that the checks of a descriptor read: descriptor, kernel header, crew table, its lists, and the dwords of the
argument block that name frozen ranges. -/
def launchReads (s : State) (sub : Submit) (va : Nat) : List (Nat × Nat) :=
  let g : Gp := ⟨sub.site, sub.ctx⟩
  let dwords (a n : Nat) : List DWord := match gpDwords s g a n with
    | .ok d => d
    | .error _ => []
  let d := dwords va 16
  let kaddr := ((d.getD 0 0#64).extractLsb' 0 56).toNat
  let tab := ((d.getD 5 0#64).extractLsb' 0 56).toNat
  let n := ((d.getD 6 0#64).extractLsb' 55 9).toNat
  let args := (frozenPairs (dwords kaddr 8)).flatMap (fun (a, b) => [(sub.args.toNat + a, 8), (sub.args.toNat + b, 8)])
  let lists := (List.range n).filterMap (fun k =>
    let e := dwords (tab + 16 * k) 2
    if (e.getD 0 0#64).extractLsb' 61 2 != 0#2 then none
    else some (((e.getD 0 0#64).extractLsb' 0 56).toNat, 4 * ((e.getD 1 0#64).extractLsb' 32 32).toNat))
  if va % 128 != 0 || !descriptorOk d then [(va, 128)] else [(va, 128), (kaddr, 64), (tab, 16 * n)] ++ args ++ lists

/-- The reads of an acceptance take their host lines. -/
def holdReads (s : State) (sub : Submit) (va : Nat) : State :=
  (launchReads s sub va).foldl (fun acc (a, n) => gpHold acc ⟨sub.site, sub.ctx⟩ a n) s

/-- The accepted launch enters the module under a key, with its number; a launch without a parent has the module's
count for its number (log 26). -/
def enterLaunch (s : State) (l : Launch) (num : Option Nat) : State :=
  let l1 : Launch := { l with key := s.nextId, num := num.getD s.launchCount, lnum := s.launchCount }
  { s with nextId := s.nextId + 1, launchCount := s.launchCount + 1, launches := s.launches ++ [l1] }

/-- A read, or another access of the type `acc`, that faults at its home waits in a pending entry; software sees the
processor's site as the unit. -/
def waitGp (s : State) (site ctx : Nat) (e : Failure) (w : Waiter) (acc : Nat := 0) : State × Option (Nat × Nat) :=
  (fun (s1, k) => (s1, some k)) <| holdPending s e { unit := site * 1024, ctx := ctx, acc := acc, lnum := 0xFFFFFFFF, tix := 0xFFFFFFFF, lanes := 0 } w

end Sys2Proof.Machine
end

