-- ==== Sys2Proof/Machine/Admit.lean ====
section
/-!
DEFINITION. The distributor of a site: admission and its order (01 R31, R32; 12 R278; 16 R308; 17 R329, R330; 19 R365)
and the change of a core's split (16 R309).
-/

namespace Sys2Proof.Machine

open Sys2Proof

/-! ### A team at its admission (R18, R20, R38, R42, R236, R278, R299, R300) -/

/-- The lowest n free stack slots of a launch. -/
def freeStack (l : Launch) (n : Nat) : Option (List Nat) :=
  let found := ((List.range (l.usedSlots.length + n)).filter (fun g => g < l.nslots && !l.usedSlots.contains g)).take n
  if found.length == n then some found else none

/-- The first byte of a stack slot. -/
def slotStart (l : Launch) (g : Nat) : Nat := l.stkbase + g * (l.stksz * 16 + 98304)

/-- `team` of a linear index (R17, R20). -/
def teamValue (l : Launch) (lix : Nat) : DWord :=
  let x := lix % l.nx
  let y := lix / l.nx % l.ny
  let z := lix / (l.nx * l.ny)
  BitVec.ofNat 64 (z * 2 ^ 48 + y * 2 ^ 32 + x)

/-- `crews` of a linear index: its crews in ascending order from slot 0. -/
def crewsValue (l : Launch) (lix : Nat) : DWord :=
  let mine := ((List.range l.crews.length).filter (fun i => ((l.crews[i]?).map (fun c => c.members.contains lix)).getD false)).take 4
  BitVec.ofNat 64 (((List.range mine.length).zip mine).foldl (fun acc (k, i) => acc + i * 2 ^ (8 * k) + 2 ^ (32 + k)) 0)

/-- Weave w of a new team. -/
def newWeave (s : State) (l : Launch) (lix w handle part slot : Nat) (signal : Bool) : Weave :=
  let top := slotStart l slot + l.stksz * 16
  { windex := w, handle := handle, part := part
    plies := [{ pc := BitVec.ofNat 64 (l.kernel.addr + l.kernel.entry), mask := 0xFFFFFFFF#32, lastIssue := s.steps, ptsAt := s.cyc }]
    map := { s := (List.replicate 48 none).set 0 (some ⟨s.nextId + w, l.args, false⟩) }
    stklim := BitVec.ofNat 64 (slotStart l slot), stkTop := top, cursor := top
    srseed := l.seed ^^^ BitVec.ofNat 64 (lix * 32 + w)
    evSignal := signal, admitted := s.steps, pstat := if l.level then 1#64 else 0#64, tvec := l.tvec }

/-- Team lix is selected by the header's assay field (R365). -/
def sampledBy (l : Launch) (lix : Nat) : Bool := l.kernel.assayCode ≤ 16 && (lix + l.lnum) % 2 ^ l.kernel.assayCode == 0

/-- A team starts on a core. A re-run takes neither signals nor `mst` copies of the original, and priority 0 (R368). -/
def startTeam (s : State) (l : Launch) (lix : Nat) (run : RunKind) (core : CoreId) (parts slots : List Nat) : State :=
  let first := run == .original
  let handles := freeHandles s core.site core.cluster l.kernel.wcount
  let t : Team := {
    uid := s.nextId + 32, launch := l.key, ctx := l.ctx, at_ := core, team := teamValue l lix, crews := crewsValue l lix
    lix := lix, level := l.level, prio := if first then l.prio else 0, run := run, kernel := l.kernel
    weaves := (List.range l.kernel.wcount).map (fun w =>
      newWeave s l lix w (handles.getD w 0) (parts.getD w 0) (slots.getD w 0) (first && l.heldSig.contains lix))
    scratch := l.claimOf run lix []
    slots := slots, wdogAt := if l.wdog == 0 then none else some (s.cyc + l.wdog * 1024)
    sampled := sampledBy l lix }
  let s1 := acquireAt { s with nextId := s.nextId + 33, teams := insertTeam t s.teams } core
  noteWork (onLaunch s1 l.key (fun l => { l with
    usedSlots := l.usedSlots ++ slots
    sampled := if first && sampledBy l lix then l.sampled + 1 else l.sampled
    heldSig := if first then l.heldSig.filter (· != lix) else l.heldSig
    heldMst := if first then l.heldMst.filter (·.1 != lix) else l.heldMst })) l.key core.unit

/-! ### What waits for admission (R32, R329, R331, R334) -/

/-- Teams that are admitted together: undispatched ones by linear index, or suspended ones. -/
structure Group where
  launch : Nat
  lixs : List Nat
  uids : List Nat
  prio : Nat                                              -- the effective priority
  own : Nat                                               -- the launch priority
  since : Nat
  deriving DecidableEq, Repr

def effPrio (base aged : Nat) : Nat := min 7 (base + aged)

/-- The undispatched runs of a site that are not offered elsewhere. -/
def Launch.runsAt (l : Launch) (site : Nat) : List TeamRun :=
  l.runs.filter (fun r => r.site == site && r.count != 0 && r.offered.isNone)

/-- The union of resident crews that a team belongs to, or the team alone. -/
def crewUnit (l : Launch) (lix : Nat) : List Nat := ((crewUnits l.crews).find? (·.contains lix)).getD [lix]

/-- The launch may start teams: its frozen entries are installed, or there is room for them (R347). -/
def Launch.open_ (s : State) (l : Launch) : Bool := l.frozen.isEmpty || l.frozenSet || frozenRoom s l

/-- The groups of undispatched teams of a launch at a site, ascending: of a run whose teams are in no resident crew, its
first team. -/
def freshGroups (s : State) (l : Launch) (site : Nat) : List Group :=
  if !l.open_ s then []
  else (sortBy (fun a b => decide (a.first ≤ b.first)) (l.runsAt site)).flatMap (fun r =>
    let group (lix : Nat) : Group :=
      { launch := l.key, lixs := crewUnit l lix, uids := [], prio := effPrio l.prio r.aged, own := l.prio, since := r.since }
    if l.crews.any (·.resident) then
      ((List.range r.count).map (fun k => r.first + k)).filterMap (fun x =>
        let u := crewUnit l x
        if u.all (fun y => x ≤ y && (l.runsAt site).any (fun q => q.first ≤ y && y < q.first + q.count)) then
          some { group x with lixs := sortBy (fun a b => decide (a ≤ b)) u } else none)
    else [group r.first])

/-- A suspended team that may return. -/
def Suspended.ready (x : Suspended) (site : Nat) : Bool := x.site == site && !x.held && x.faults.isEmpty && x.offered.isNone

/-- The groups of suspended teams of a launch at a site: a gang unit or resident crew is ready as a whole. -/
def backGroups (l : Launch) (site : Nat) : List Group :=
  (sortBy (fun a b => decide (a.lix ≤ b.lix)) l.suspended).filterMap (fun x =>
    let others := l.suspended.filter (fun y => y.uid != x.uid && x.gangUnit.contains y.uid)
    if x.ready site && others.all (fun y => y.ready site && (x.lix < y.lix || (x.lix == y.lix && x.uid < y.uid))) then
      some { launch := l.key, lixs := [], uids := x.uid :: others.map (·.uid), prio := effPrio x.kept.prio x.aged
             own := x.kept.prio, since := x.since }
    else none)

/-- Every group that waits at a site, in the order of R329. -/
def waitingGroups (s : State) (site : Nat) : List Group :=
  let back := s.launches.flatMap (fun l => backGroups l site)
  let fresh := s.launches.flatMap (fun l => freshGroups s l site)
  sortBy (fun a b => decide (b.prio ≤ a.prio)) (back ++ fresh)

/-! ### Which core (R329, R330) -/

/-- A core could hold a team of the group when it is free. -/
def couldHold (s : State) (g : Group) (c : CoreId) : Bool :=
  match findLaunch s g.launch with
  | none => false
  | some l =>
    (l.clustersAt c.site).contains c.cluster && coreServes s c && (findCore s c).split == l.kernel.split &&
      1 ≤ emptyHold l.kernel

/-- Waiting for 2,048 cycles. -/
def Group.starves (s : State) (g : Group) : Bool := g.since + 2048 ≤ s.cyc

/-- The cores that R329 keeps free for starving groups. A group that starves itself gives way only to those before
it (log 28). -/
def keptFree (s : State) (all : List Group) (g : Group) (c : CoreId) : Bool :=
  let rivals := if g.starves s then all.takeWhile (· != g) else all
  rivals.any (fun w => w != g && w.starves s && g.prio ≤ w.prio && couldHold s w c)

/-! ### Placing a group -/

/-- One undispatched team is taken out of its run. -/
def takeLix (runs : List TeamRun) (site lix : Nat) : List TeamRun :=
  runs.flatMap (fun r =>
    if r.site == site && r.offered.isNone && r.first ≤ lix && lix < r.first + r.count then
      [{ r with count := lix - r.first }, { r with first := lix + 1, count := r.first + r.count - (lix + 1) }].filter
        (fun q => q.count != 0)
    else [r])

/-- Undispatched teams start one after another, all or none. -/
def placeFresh (s : State) (ok : CoreId → Bool) (site key : Nat) : List Nat → Option State
  | [] => some s
  | lix :: rest =>
    match findLaunch s key with
    | none => none
    | some l =>
      match chooseCore s ok site (l.clustersAt site) l.kernel l.kernel.wcount, freeStack l l.kernel.wcount with
      | some (core, parts), some slots =>
        let s1 := startTeam (onLaunch s key (fun l => { l with runs := takeLix l.runs site lix })) l lix .original core parts slots
        placeFresh s1 ok site key rest
      | _, _ => none

/-- Why a suspended team does not come back although there is room: an uncorrectable error in its image (R308), an image
that does not fit it, or a fault on a page of it. -/
inductive Mishap where
  | lost
  | misfit
  | held (unit : Nat) (e : Failure)
  deriving DecidableEq

/-- What an attempt to restore comes to: every team placed, no room, or a mishap of one of them. -/
inductive Attempt where
  | placed (s : State)
  | full
  | instead (uid : Nat) (m : Mishap)
  deriving DecidableEq

/-- A mishap of a suspended team leaves every team of its unit suspended (R30, R32). -/
def Mishap.apply (s : State) (key uid : Nat) : Mishap → State
  | .lost =>
    let pages := (((findLaunch s key).bind (fun l => l.suspended.find? (·.uid == uid))).map (·.pages)).getD []
    endSuspended s key uid 0x22 [BitVec.ofNat 64 (pages.headD 0)]
  | .misfit => onLaunch s key (fun l => { l with suspended := l.suspended.map (fun y =>
      if y.uid == uid then { y with held := true } else y) })
  | .held unit e => (holdPending s e (imageRequester s uid unit 5) (.image uid)).1

/-- One suspended team goes to a core of some clusters. -/
def placeOne (s : State) (ok : CoreId → Bool) (site key : Nat) (clusters : List Nat) (uid : Nat) : Attempt :=
  match findLaunch s key with
  | none => .full
  | some l =>
    match l.suspended.find? (·.uid == uid) with
    | none => .placed s
    | some x =>
      let n := (x.kept.weaves.filter (fun w => !w.ended)).length
      match chooseCore s ok site clusters x.kept.kernel n with
      | none => .full
      | some (core, parts) =>
        match restoreTeam s l x core parts with
        | .done s1 => .placed (pumpLog (noteWork (acquireAt s1 core) key core.unit) core)
        | .full => .full
        | .lost => .instead uid .lost
        | .refused => .instead uid .misfit
        | .held e => .instead uid (.held core.unit e)

def placeSome (s : State) (ok : CoreId → Bool) (site key : Nat) (clusters : List Nat) : List Nat → Attempt
  | [] => .placed s
  | u :: rest =>
    match placeOne s ok site key clusters u with
    | .placed s1 => placeSome s1 ok site key clusters rest
    | r => r

/-- A gang unit goes to one cluster (R30): the first that holds it. -/
def placeUnit (s : State) (ok : CoreId → Bool) (site key : Nat) (clusters : List Nat) (uids : List Nat) : Attempt :=
  if uids.length ≤ 1 then placeSome s ok site key clusters uids
  else clusters.foldl (fun acc c => match acc with
    | .full => placeSome s ok site key [c] uids
    | r => r) .full

def placeUnits (s : State) (ok : CoreId → Bool) (site key : Nat) (clusters : List Nat) : List (List Nat) → Attempt
  | [] => .placed s
  | u :: rest =>
    match placeUnit s ok site key clusters u with
    | .placed s1 => placeUnits s1 ok site key clusters rest
    | r => r

/-- The gang units among some suspended teams. -/
def gangUnits (l : Launch) (uids : List Nat) : List (List Nat) :=
  let sets := uids.map (fun u => distinct (u :: ((l.suspended.find? (·.uid == u)).map (fun x =>
    (x.gangs.flatMap (fun (_, ns) => ns.map (·.1))).filter uids.contains)).getD []))
  sets.foldl mergeCrew []

/-- The clusters that may take teams back: those of the mask; a re-run's are the partition's other clusters. -/
def backClusters (s : State) (l : Launch) (site : Nat) (uids : List Nat) : List Nat :=
  if l.suspended.any (fun x => uids.contains x.uid && x.run != .original) then
    ((boundClusters s site).map (·.2)).filter (fun p =>
      !(l.trials.any (fun t => l.suspended.any (fun x => uids.contains x.uid && x.lix == t.lix) &&
        t.runs.any (fun r => (r.core.site == site && r.core.cluster == p) || r.left.contains (site, p)))))
  else l.clustersAt site

/-- Suspended teams are restored, all or none (R30, R32, R308). -/
def placeBack (s : State) (ok : CoreId → Bool) (site key : Nat) (uids : List Nat) : Attempt :=
  match findLaunch s key with
  | none => .full
  | some l =>
    match placeUnits s ok site key (backClusters s l site uids) (gangUnits l uids) with
    | .placed s1 => .placed ((l.suspended.filter (fun x => uids.contains x.uid)).foldl regang s1)
    | r => r

/-- A group is placed on the cores that R329 leaves it. -/
def placeGroup (s : State) (site : Nat) (all : List Group) (g : Group) : Attempt :=
  let ok (c : CoreId) : Bool := !keptFree s all g c
  if g.uids.isEmpty then
    let s1 := match findLaunch s g.launch with
      | some l => if l.frozen.isEmpty || l.frozenSet then s else installFrozen s l
      | none => s
    match placeFresh s1 ok site g.launch g.lixs with
    | some s2 => .placed s2
    | none => .full
  else placeBack s ok site g.launch g.uids

/-- The first group of the order that fits, and what its placing comes to. -/
def firstFit (s : State) (site : Nat) (all : List Group) : List Group → Option (Group × State)
  | [] => none
  | g :: rest =>
    match placeGroup s site all g with
    | .placed s1 => some (g, s1)
    | .instead uid m => some (g, m.apply s g.launch uid)
    | .full => firstFit s site all rest

def teamAdmissionAt (site : Nat) (s : State) : Host.Outcome State Fault Refusal :=
  event s (fun s =>
    let all := waitingGroups s site
    match firstFit s site all all with
    | some (_, s1) => s1
    | none => s)

def execTeamAdmission (s : State) : Host.Outcome State Fault Refusal := teamAdmissionAt (subject s 0) s

/-- R308: the suspended team, if it is the next that its site admits. -/
def execContextRestore (site uid : Nat) (s : State) : Host.Outcome State Fault Refusal :=
  event s (fun s =>
    let all := waitingGroups s site
    match firstFit s site all all with
    | some (g, s1) => if g.uids.contains uid then s1 else s
    | none => s)

/-! ### Clusters for re-runs (R368) -/

/-- A cluster without an earlier run of a team. -/
def freshCluster (t : Trial) (site phys : Nat) : Bool :=
  !t.runs.any (fun r => (r.core.site == site && r.core.cluster == phys) || r.left.contains (site, phys))

/-- The bound clusters of a partition that may take the next run. -/
def trialClusters (s : State) (t : Trial) (part : Nat) : List (Nat × Nat) :=
  (sitesOf s part).flatMap (fun n => (boundClusters s n).filterMap (fun (_, p) =>
    if freshCluster t n p then some (n, p) else none))

/-! ### Aging and starvation (R329, R330) -/

/-- The run of a launch at a site, or the suspended teams of a linear index, are raised once for each 2^20 ticks. -/
def execPriorityAging (launch lix : Nat) (s : State) : Host.Outcome State Fault Refusal :=
  event s (fun s => onLaunch s launch (fun l => { l with
    runs := l.runs.map (fun r =>
      if r.first ≤ lix && lix < r.first + r.count && r.since + (r.aged + 1) * 2 ^ 20 ≤ s.cyc then { r with aged := r.aged + 1 } else r)
    suspended := l.suspended.map (fun x =>
      if x.lix == lix && x.faults.isEmpty && x.since + (x.aged + 1) * 2 ^ 20 ≤ s.cyc then { x with aged := x.aged + 1 } else x) }))

/-- The teams of a core below a launch priority: the lowest first, of equals the last admitted. -/
def victims (s : State) (c : CoreId) (p : Nat) : List Team :=
  let age (t : Team) : Nat := (t.weaves.map (·.admitted)).foldl max 0
  sortBy (fun a b => decide (a.prio < b.prio) || (a.prio == b.prio && decide (age b ≤ age a)))
    ((residents s c).filter (fun t => t.prio < p))

/-- The shortest run of victims of a core, each with its gang unit or resident crew, without which the group is admitted. -/
def enoughVictims (s : State) (site : Nat) (all : List Group) (g : Group) (c : CoreId) : Option (List Nat) :=
  let vs := victims s c g.own
  ((List.range vs.length).map (fun j => distinct ((vs.take (j + 1)).flatMap (fun t => unitOf s t.uid)))).find? (fun us =>
    match placeGroup { s with teams := s.teams.filter (fun t => !us.contains t.uid) } site all g with
    | .placed _ => true
    | _ => false)

/-- The launch of a group, and the clusters that may take its teams. -/
def groupNeeds (s : State) (site : Nat) (g : Group) : Option (Launch × List Nat) :=
  (findLaunch s g.launch).map (fun l =>
    (l, if g.uids.isEmpty then l.clustersAt site else backClusters s l site g.uids))

/-- Teams of lower priority are asked to leave the first eligible core that their going frees. -/
def preemptFor (s : State) (site : Nat) (all : List Group) (g : Group) : Option State :=
  (groupNeeds s site g).bind (fun (l, clusters) =>
    let cores := (clusters.flatMap (clusterCores site)).filter (fun c => coreServes s c && (findCore s c).split == l.kernel.split)
    (cores.findSome? (enoughVictims s site all g)).map (fun us => askLeave s (fun t => us.contains t.uid) 0))

/-- A split change is requested on the eligible core of some clusters with the fewest resident weaves, one at a time in a
cluster. -/
def splitOn (s : State) (l : Launch) (clusters : List (Nat × Nat)) : Option State :=
  let busy (c : CoreId) : Bool := (clusterCores c.site c.cluster).any (fun c => (findCore s c).splitState != .serve)
  let cores := clusters.flatMap (fun (n, p) => clusterCores n p)
  let fits (c : CoreId) : Bool :=
    let k := findCore s c
    k.split == l.kernel.split && !k.halted && k.scan != .quarantined && k.scan != .failed && k.splitState == .serve
  let wanted (c : CoreId) : Bool := (findCore s c).splitState != .serve && (findCore s c).wanted == l.kernel.split
  if cores.any fits || cores.any wanted then none
  else
    let open_ := cores.filter (fun c => coreServes s c && !busy c)
    let best := open_.foldl (fun acc c => match acc with
      | none => some c
      | some b => if (coreWeaves s c).length < (coreWeaves s b).length ||
          ((coreWeaves s c).length == (coreWeaves s b).length && c.unit < b.unit) then some c else some b) none
    best.map (fun c => onCore s c (fun k => { k with splitState := .drain, wanted := l.kernel.split }))

/-- For a group that waits at a site. -/
def requestSplit (s : State) (site : Nat) (g : Group) : Option State :=
  (groupNeeds s site g).bind (fun (l, clusters) => splitOn s l (clusters.map (fun p => (site, p))))

/-- The re-runs of a site's launches that have waited for 2,048 cycles, with the clusters of the partition that may take
them (R368). -/
def waitingTrials (s : State) (site : Nat) : List (Launch × List (Nat × Nat)) :=
  (s.launches.filter (·.site == site)).flatMap (fun l =>
    (l.trials.filter (fun t => !t.running && t.since + 2048 ≤ s.cyc)).map (fun t => (l, trialClusters s t (findSite s site).part)))

/-- A re-run that waits has its split change too (R330, R413). -/
def trialSplit (s : State) (site : Nat) : Option State := (waitingTrials s site).findSome? (fun (l, cs) => splitOn s l cs)

/-- A group that starves and fits nowhere (R330). -/
def starving (s : State) (site : Nat) : List Group :=
  let all := waitingGroups s site
  all.filter (fun g => g.starves s && (match placeGroup s site all g with
    | .full => true
    | _ => false))

def admissionStarvationAt (site : Nat) (s : State) : Host.Outcome State Fault Refusal :=
  event s (fun s =>
    let gs := starving s site
    match gs.findSome? (preemptFor s site (waitingGroups s site)) with
    | some s1 => s1
    | none => ((gs.findSome? (requestSplit s site)).orElse (fun _ => trialSplit s site)).getD s)

def execAdmissionStarvation (s : State) : Host.Outcome State Fault Refusal := admissionStarvationAt (subject s 0) s

/-! ### The change of a split (R309) -/

def splitChangeRequestAt (site : Nat) (s : State) : Host.Outcome State Fault Refusal :=
  event s (fun s => (((starving s site).findSome? (requestSplit s site)).orElse (fun _ => trialSplit s site)).getD s)

def execSplitChangeRequest (s : State) : Host.Outcome State Fault Refusal := splitChangeRequestAt (subject s 0) s

/-- Some group that waits still wants the split on the cluster. -/
def splitWanted (s : State) (c : CoreId) : Bool :=
  (waitingGroups s c.site).any (fun g =>
    ((findLaunch s g.launch).map (fun l =>
      l.kernel.split == (findCore s c).wanted && (l.clustersAt c.site).contains c.cluster)).getD false) ||
  s.launches.any (fun l => l.kernel.split == (findCore s c).wanted && l.trials.any (fun t =>
    !t.running && (trialClusters s t (findSite s l.site).part).contains (c.site, c.cluster)))

def splitChangeCancelAt (site phys core : Nat) (s : State) : Host.Outcome State Fault Refusal :=
  event s (fun s =>
    let c : CoreId := ⟨site, phys, core⟩
    if (findCore s c).splitState == .drain && !splitWanted s c then onCore s c (fun k => { k with splitState := .serve }) else s)

def execSplitChangeCancel (s : State) : Host.Outcome State Fault Refusal := splitChangeCancelAt (subject s 0) (subject s 1) (subject s 2) s

/-- L1 lines are never dirty in this model, and no weave is left whose stack lines could spill. -/
def splitFlushAt (site phys core : Nat) (s : State) : Host.Outcome State Fault Refusal :=
  event s (fun s =>
    let c : CoreId := ⟨site, phys, core⟩
    if (findCore s c).splitState == .drain && (residents s c).isEmpty then
      onCore s c (fun k => { k with splitState := .flush, l1 := [] }) else s)

def execSplitFlush (s : State) : Host.Outcome State Fault Refusal := splitFlushAt (subject s 0) (subject s 1) (subject s 2) s

def splitConfigAt (site phys core : Nat) (s : State) : Host.Outcome State Fault Refusal :=
  event s (fun s =>
    let c : CoreId := ⟨site, phys, core⟩
    if (findCore s c).splitState == .flush then
      onCore s c (fun k => { k with splitState := .config, split := k.wanted, l1 := [], configAt := s.cyc }) else s)

def execSplitConfig (s : State) : Host.Outcome State Fault Refusal := splitConfigAt (subject s 0) (subject s 1) (subject s 2) s

def splitServeAt (site phys core : Nat) (s : State) : Host.Outcome State Fault Refusal :=
  event s (fun s =>
    let c : CoreId := ⟨site, phys, core⟩
    if (findCore s c).splitState == .config && (findCore s c).configAt + 64 ≤ s.cyc then
      onCore s c (fun k => { k with splitState := .serve }) else s)

def execSplitServe (s : State) : Host.Outcome State Fault Refusal := splitServeAt (subject s 0) (subject s 1) (subject s 2) s

end Sys2Proof.Machine
end

