-- ==== Sys2Proof/Machine/Service.lean ====
section
/-!
DEFINITION. Fault batches and the service ring of a partition (18 R350 to R354, R358), and writes of control-space
registers by the host (17 R336; 18 R350; 20 R384; 21 R397).
-/

namespace Sys2Proof.Machine

open Sys2Proof

/-! ### Batches (R350, R392) -/

/-- A batch is due: 32 records, or 3,000 cycles after the oldest. -/
def batchDue (s : State) (part : Nat) (q : List FaultRec) : Bool :=
  let mine := q.filter (·.part == part)
  32 ≤ mine.length || mine.any (fun r => r.at_ + 3000 ≤ s.cyc)

/-- The batches of a partition's fault buffer and fabric ring that are due are posted. -/
def faultBatchPostAt (part : Nat) (s : State) : Host.Outcome State Fault Refusal :=
  event s (fun s =>
    if (nearestHostPort s (headSite s part)).isNone then s
    else
      let s1 := if batchDue s part s.faultQ then postBatch s part false else s
      if batchDue s1 part s1.fabricQ then postBatch s1 part true else s1)

def execFaultBatchPost (s : State) : Host.Outcome State Fault Refusal := faultBatchPostAt (subject s 0) s

/-- The host writes `fbidx`, or `feidx`. -/
def execFbidxWrite (site : Nat) (fabric : Bool) (v : DWord) (s : State) : Host.Outcome State Fault Refusal :=
  event s (fun s => writeGet s site fabric v)

/-- The host writes a budget register. -/
def execBgtWrite (site k : Nat) (v : DWord) (s : State) : Host.Outcome State Fault Refusal :=
  event s (fun s => if k < 8 then ctlWrite s site (0x100 + 8 * k) v else s)

/-- The host writes `opctl`. -/
def execOpctlWrite (site : Nat) (v : DWord) (s : State) : Host.Outcome State Fault Refusal :=
  event s (fun s => ctlWrite s site 0x208 v)

/-- The host writes a dword of the MSI-X table, which lies at BAR0 + 0x40_0000 (R394). A pending vector that is unmasked sends
its message (log 118). -/
def msixWrite (s : State) (off : Nat) (v : DWord) : State :=
  let s1 := { s with msix := (s.msix.filter (·.1 != off)) ++ [(off, v)] }
  match s1.msiPending.find? (·.1 == off / 16) with
  | some (vec, src) =>
    if msixMasked s1 vec then s1 else sendMsi { s1 with msiPending := s1.msiPending.filter (·.1 != vec) } src vec
  | none => s1

/-- What a host reads through BAR0 (R394): the control spaces of the sites, the MSI-X table and its pending-bit array. -/
def barRead (s : State) (off : Nat) : DWord :=
  if off < 0x400000 then ctlRead s (off / 0x10000) (off % 0x10000)
  else if off < 0x401000 then msixDword s (off - 0x400000)
  else if off < 0x401020 then msixPba s (off - 0x401000)
  else 0#64

/-- The host writes a register whose only effect is its new contents: one of a site's control
space, or a dword of the MSI-X table (256 vectors of 16 bytes), given as site 64. -/
def execRegisterWrite (site off : Nat) (v : DWord) (s : State) : Host.Outcome State Fault Refusal :=
  event s (fun s =>
    if isSite site then plainWrite s site off v
    else if site == 64 && off < 4096 && off % 8 == 0 then msixWrite s off v else s)

/-! ### The service ring (R351) -/

/-- The dwords of an entry as the ring holds it. -/
def svEntry (s : State) (x : Site) : List DWord :=
  let n := (x.svctl.extractLsb' 0 5).toNat
  (List.range 4).map (fun k => BitVec.ofNat 64 (cellNat s.mem (x.svbase.toNat + 32 * (x.svNext % 2 ^ n) + 8 * k) 8))

/-- The ring is in service and reachable. -/
def svOpen (s : State) (x : Site) : Bool := x.svctl.getLsbD 63 && (nearestHostPort s x.n).isSome

/-- The next entry of a partition's ring, when there is one and nothing before it is under way. -/
def nextService (s : State) (part : Nat) : Option (Site × List DWord) :=
  let x := findSite s (headSite s part)
  let new := (x.svSeen + 2 ^ 32 - x.svNext) % 2 ^ 32
  if svOpen s x && new != 0 && new ≤ 2 ^ (x.svctl.extractLsb' 0 5).toNat && x.svBusy.isNone then some (x, svEntry s x) else none

/-- The tail is read while its line is not held, which a line of host memory then is, until the site loses it (R319,
R351). -/
def serviceTailObservedAt (part : Nat) (s : State) : Host.Outcome State Fault Refusal :=
  event s (fun s =>
    let x := findSite s (headSite s part)
    if !svOpen s x || x.svHeld then s
    else
      let host := iaNode x.svtail.toNat == 0xFFF
      onSite (if host then holdLine s x.n (iaLine x.svtail.toNat) true else s) x.n (fun x =>
        { x with svSeen := cellNat s.mem x.svtail.toNat 4, svHeld := host }))

def execServiceTailObserved (s : State) : Host.Outcome State Fault Refusal := serviceTailObservedAt (subject s 0) s

/-- The entry completes with a status. -/
def endService (s : State) (x : Site) (status : Nat) : State :=
  let n := (x.svctl.extractLsb' 0 5).toNat
  let s1 := hostStore s (x.svbase.toNat + 32 * (x.svNext % 2 ^ n) + 24) (toBytes 8 (2 ^ 63 + status))
  onSite s1 x.n (fun x => { x with svNext := (x.svNext + 1) % 2 ^ 32, svBusy := none })

/-- A refused entry: status 2, no effect, `fbctl.err` (R351). -/
def refuseService (s : State) (x : Site) : State := endService (setFbErr s x.part) x 2

/-- The context is of the partition: its home entry there says so. -/
def ctxInPart (s : State) (part ctx : Nat) : Bool :=
  let e := ctxEntry s (headSite s part) ctx
  e.getLsbD 63 && (e.extractLsb' 59 4).toNat == part

/-- The fields of an entry. -/
structure SvArgs where
  op : Nat
  drop : Bool
  toBias : Bool
  ctx : Nat
  fid : Nat
  site : Nat
  ia : Nat
  len : Nat
  deriving DecidableEq, Repr

def svArgs (d : List DWord) : SvArgs :=
  let w := d.getD 0 0#64
  { op := (w.extractLsb' 60 4).toNat, drop := w.getLsbD 59, toBias := w.getLsbD 58, ctx := (w.extractLsb' 32 16).toNat
    fid := (w.extractLsb' 16 16).toNat, site := (w.extractLsb' 0 6).toNat
    ia := (d.getD 1 0#64).toNat, len := (d.getD 2 0#64).toNat }

/-- The reserved fields of an entry are zero, and its addresses and lengths are aligned. -/
def svFieldsOk (d : List DWord) : Bool :=
  let w := d.getD 0 0#64
  let a := svArgs d
  w.extractLsb' 48 10 == 0#10 && w.extractLsb' 6 10 == 0#10 &&
  (a.op == 4 || !a.drop) && (a.op == 5 || !a.toBias) &&
  (match a.op with
    | 3 | 4 => a.ia % 65536 == 0 && a.len % 65536 == 0 && a.len != 0
    | 6 => a.ia % 8 == 0
    | 7 => a.ia % 1024 == 0 && a.len == 0
    | _ => true)

/-- The next entry, when its op is n, taken by f; a refused one is answered here. `local_` says whether its site or
context lies in the partition. -/
def serve (s : State) (part op : Nat) (local_ : SvArgs → Bool) (f : Site → SvArgs → State) : State :=
  match nextService s part with
  | none => s
  | some (x, d) =>
    let a := svArgs d
    if a.op != op then s else if svFieldsOk d && local_ a then f x a else refuseService s x

/-- A nop entry, or one with a reserved op. -/
def serviceNopAt (part : Nat) (s : State) : Host.Outcome State Fault Refusal :=
  event s (fun s =>
    match nextService s part with
    | none => s
    | some (x, d) =>
      let a := svArgs d
      if 8 ≤ a.op then refuseService s x
      else if a.op == 0 then (if svFieldsOk d then endService s x 0 else refuseService s x)
      else s)

def execServiceNop (s : State) : Host.Outcome State Fault Refusal := serviceNopAt (subject s 0) s

/-! ### Faults (R352) -/

/-- The named home is a site of the partition. -/
def homeInPart (s : State) (part : Nat) (a : SvArgs) : Bool := (sitesOf s part).contains a.site

def replayFaultAt (part : Nat) (s : State) : Host.Outcome State Fault Refusal :=
  event s (fun s => serve s part 1 (homeInPart s part) (fun x a =>
    match findPending s a.site a.fid with
    | none => endService s x 1
    | some p =>
      let (s1, ok) := payReplay s [p]
      if ok then endService (replayEntry s1 p) x 0 else s1))

def execReplayFault (s : State) : Host.Outcome State Fault Refusal := replayFaultAt (subject s 0) s

def cancelFaultAt (part : Nat) (s : State) : Host.Outcome State Fault Refusal :=
  event s (fun s => serve s part 2 (homeInPart s part) (fun x a =>
    match findPending s a.site a.fid with
    | none => endService s x 1
    | some p => endService (cancelEntry s p) x 0))

def execCancelFault (s : State) : Host.Outcome State Fault Refusal := cancelFaultAt (subject s 0) s

def replayRangeAt (part : Nat) (s : State) : Host.Outcome State Fault Refusal :=
  event s (fun s => serve s part 3 (fun a => ctxInPart s part a.ctx) (fun x a =>
    let hit (p : Pending) : Bool := p.fid < maxPending && p.tag == a.ctx && a.ia ≤ p.page * 65536 && p.page * 65536 < a.ia + a.len
    let (s1, ok) := payReplay s (s.pendings.filter hit)
    if ok then endService (replayAll s1 hit) x 0 else s1))

def execReplayRange (s : State) : Host.Outcome State Fault Refusal := replayRangeAt (subject s 0) s

def markerAt (part : Nat) (s : State) : Host.Outcome State Fault Refusal :=
  event s (fun s => serve s part 6 (fun _ => true) (fun x a =>
    -- A marker address outside host memory is written as physical memory of its home (log 29).
    endService (agentStore s a.ia a.ia (toBytes 8 a.len)) x 0))

def execMarker (s : State) : Host.Outcome State Fault Refusal := markerAt (subject s 0) s

/-! ### Invalidate (R343, R354) -/

/-- Memory as the slices that still hold changed table entries of a context see it. -/
def withOldTables (s : State) (ctx : Nat) : State :=
  { s with mem := (s.walkCache.filter (·.ctx == ctx)).foldl (fun m e =>
      cellWriteN m (ownKey s e.site e.pa) (toBytes 8 e.entry.toNat)) s.mem }

/-- The memory key of an IA under a context, through the entries that slices hold if the tables no longer map it. -/
def frameOf (s : State) (ctx ia : Nat) : Option Nat :=
  let at_ (t : State) : Option Nat := match (place t (ctxMaster ctx) rightR 0 ia).1 with
    | .cell key _ => some key
    | _ => none
  (at_ (withOldTables s ctx)).orElse (fun _ => at_ s)

/-- The stack-cache bytes of a context's weaves in an IA range go to their frames. -/
def spillStacks (s : State) (ctx lo hi : Nat) : State :=
  s.teams.foldl (fun acc t =>
    if t.ctx != ctx then acc
    else t.weaves.foldl (fun acc w =>
      (cellRuns w.stackBad w.stack).foldl (fun acc (va, bytes) =>
        match translate acc ctx va with
        | none => acc
        | some ia =>
          if lo ≤ ia && ia < hi then
            match frameOf acc ctx ia with
            | some key =>
              onWeave (spoilWords (agentStore acc key ia bytes) key bytes.length (w.stackBad.contains (va / 4))) t.uid w.windex (fun w =>
                { w with stack := w.stack.filter (fun c => c.1 < va || va + bytes.length ≤ c.1)
                         stackBad := w.stackBad.filter (fun k => 4 * k + 4 ≤ va || va + bytes.length ≤ 4 * k) })
            | none => acc
          else acc) acc) acc) s

/-- The lines of an IA range leave every L1 and every replica. -/
def dropLines (s : State) (lo hi : Nat) : State :=
  let inside (line : Nat) : Bool := lo ≤ line * 128 && line * 128 < hi
  { s with
    cores := s.cores.map (fun c => { c with l1 := c.l1.filter (fun l => !inside l.line) })
    replicas := s.replicas.filter (fun r => !inside r.line) }

def invalidateAt (part : Nat) (s : State) : Host.Outcome State Fault Refusal :=
  event s (fun s => serve s part 4 (fun a => ctxInPart s part a.ctx) (fun x a =>
    if a.drop then
      let s1 := dropLines (spillStacks s a.ctx a.ia (a.ia + a.len)) a.ia (a.ia + a.len)
      onSite (dropWalks s1 a.ctx a.ia (a.ia + a.len)) x.n (fun x => { x with svBusy := some (s.cyc, a.ia, a.len) })
    else endService (dropWalks s a.ctx a.ia (a.ia + a.len)) x 0))

def execInvalidate (s : State) : Host.Outcome State Fault Refusal := invalidateAt (subject s 0) s

/-- Every lease on the lines of a range has lapsed: no ply of the module still stands below a read timestamp, or 4,096
cycles have passed (R110). -/
def leasesLapsed (s : State) (at_ lo len : Nat) : Bool :=
  let top := (s.lineTs.filter (fun t => lo ≤ t.line * 128 && t.line * 128 < lo + len)).foldl (fun acc t => max acc t.rts) 0
  at_ + 4096 ≤ s.cyc || s.teams.all (fun t => t.weaves.all (fun w => w.plies.all (fun p => top < p.pts)))

def invalidateLeaseLapseAt (part : Nat) (s : State) : Host.Outcome State Fault Refusal :=
  event s (fun s =>
    let x := findSite s (headSite s part)
    match x.svBusy with
    | none => s
    | some (at_, lo, len) => if x.svHold.isNone && leasesLapsed s at_ lo len then endService s x 0 else s)

def execInvalidateLeaseLapse (s : State) : Host.Outcome State Fault Refusal := invalidateLeaseLapseAt (subject s 0) s

/-! ### Flip (R357, R358) -/

/-- The valid leaf that maps an IA under a context: the memory key of its entry, the entry, and its page's size. -/
def leafFrom (s : State) (site off : Nat) : List Level → Nat → Option (Nat × DWord × Nat)
  | [], _ => none
  | l :: rest, table =>
    let key := ownKey s site (table + 8 * bits off l.hi l.lo)
    let e : DWord := BitVec.ofNat 64 (cellNat s.mem key 8)
    if !e.getLsbD 63 then none
    else if e.getLsbD 62 then (if l.page == 0 then none else some (key, e, l.page))
    else leafFrom s site off rest ((e.extractLsb' 8 28).toNat * 256)

def leafOf (s : State) (ctx ia : Nat) : Option (Nat × DWord × Nat) :=
  let site := iaSite ia
  if iaNode ia != s.wafer || !isSite site || !(findSite s site).memBearing then none
  else
    let e := ctxEntry s site ctx
    if !e.getLsbD 63 then none else leafFrom s site (iaOff ia) walkLevels ((e.extractLsb' 10 26).toNat * 1024)

/-- The leaves of a range, each page whole; `none` when one is missing or cut. -/
def leavesOf (s : State) (ctx : Nat) : Nat → Nat → Nat → Option (List (Nat × DWord))
  | 0, _, _ => some []
  | n + 1, ia, stop =>
    if stop ≤ ia then some []
    else match leafOf s ctx ia with
      | none => none
      | some (key, e, page) =>
        if iaOff ia % page != 0 || stop < ia + page then none
        else (leavesOf s ctx n (ia + page) stop).map (fun r => (key, e) :: r)

/-- The attribute of a leaf changes. -/
def setAttr (s : State) (key : Nat) (e : DWord) (attr : Nat) : State :=
  agentStore s key key (toBytes 8 ((e &&& ~~~(7#64 <<< 59)) ||| BitVec.ofNat 64 (attr * 2 ^ 59)).toNat)

/-- What waited for the page goes on under the new attribute (R358 step 5). -/
def releaseWaits (s : State) (ctx lo hi : Nat) : State :=
  let s1 := (s.accs.filter (fun a => (a.atHost || a.stage == .held) && a.ctx == ctx && lo ≤ a.ia && a.ia < hi)).foldl arriveHome s
  (s1.hostReqs.filter (fun r => !r.done && r.fid.isNone && r.ctx == ctx && lo ≤ r.ia && r.ia < hi)).foldl serveHost s1

/-- The leaf takes the attribute, cached entries for the page are removed, and what waited goes on (R358 steps 4 and 5). -/
def endPage (s : State) (x : Site) (ctx lo page key : Nat) (e : DWord) (attr : Nat) : State :=
  let s1 := setAttr (dropEntry s key) key e attr
  releaseWaits (onSite s1 x.n (fun x => { x with svPage := x.svPage + page, svBusy := none, svHold := none })) ctx lo (lo + page)

/-- One page of a flip. To DB, every host line of the page is given up, and the leaf becomes DB; the host's own dirty lines are
the host's to write back, by its accesses. To HB, new accesses wait while the page's lines are dropped and their leases lapse
(R354), and then the leaf becomes HB. An access is performed at its home in one step, so none is under way (R358). -/
def flipPage (s : State) (x : Site) (a : SvArgs) (lo key page : Nat) (e : DWord) : State :=
  if a.toBias then
    let inside (line : Nat) : Bool := lo ≤ line * 128 && line * 128 < lo + page
    let s1 := ((s.hbHeld ++ s.hbShared).filter (fun x => inside x.2)).foldl (fun acc x => giveUpLine acc x.1 x.2) s
    endPage s1 x a.ctx lo page key e 4
  else
    let s1 := dropLines (spillStacks s a.ctx lo (lo + page)) lo (lo + page)
    onSite s1 x.n (fun x => { x with svBusy := some (s.cyc, lo, page), svHold := some (a.ctx, lo, page) })

/-- A flip of a range with status 3: it does not cover whole pages, or names one without a valid leaf. -/
def flipBad (s : State) (a : SvArgs) : Bool :=
  a.ia % 65536 != 0 || a.len % 65536 != 0 || a.len == 0 || (leavesOf s a.ctx (a.len / 65536) a.ia (a.ia + a.len)).isNone

/-- The pages of a flip, one at a time in ascending order; a page to HB ends when its leases have lapsed (R358). -/
def flipAt (part : Nat) (s : State) : Host.Outcome State Fault Refusal :=
  event s (fun s =>
    let x := findSite s (headSite s part)
    let d := svArgs (svEntry s x)
    match x.svBusy, x.svHold with
    | some (at_, lo, len), some (ctx, _, _) =>
      if !leasesLapsed s at_ lo len then s
      else match leafOf s ctx lo with
        | some (key, e, page) => endPage s x ctx lo page key e 3
        | none => onSite s x.n (fun x => { x with svPage := x.svPage + len, svBusy := none, svHold := none })
    | _, _ =>
      if x.svPage != 0 && d.len ≤ x.svPage then endService (onSite s x.n (fun x => { x with svPage := 0 })) { x with svPage := 0 } 0
      else serve s part 5 (fun a => ctxInPart s part a.ctx) (fun x a =>
        if x.svPage == 0 && flipBad s a then endService s x 3
        else match leafOf s a.ctx (a.ia + x.svPage) with
          | some (key, e, page) => flipPage s x a (a.ia + x.svPage) key page e
          | none => endService (onSite s x.n (fun x => { x with svPage := 0 })) { x with svPage := 0 } 0))

def execFlip (s : State) : Host.Outcome State Fault Refusal := flipAt (subject s 0) s

/-! ### Grant (R21, R345, R353, R405) -/

/-- The dispatcher's reads and writes of a grant block: host memory, or module memory as the context sees it (log 29). -/
def grantMaster (ctx : Nat) : Master := ⟨3, 0, ctx⟩

/-- The bindings after a grant: kept, then those of the newly granted bits in ascending order; a bit granted before and unbound
stays so. -/
def bindBits (s : State) (part : Nat) (old : List (Nat × Nat × Nat)) (had bits_ : List Nat) : List (Nat × Nat × Nat) :=
  let kept := old.filter (fun (b, _, _) => bits_.contains b)
  bits_.foldl (fun acc b =>
    if had.contains b then acc
    else match (freeBound s part acc).head? with
      | some (n, p) => acc ++ [(b, n, p)]
      | none => acc) kept

/-- The logical number of a physical cluster. -/
def logicalOf (s : State) (site phys : Nat) : Nat := (((boundClusters s site).find? (·.2 == phys)).map (·.1)).getD 0

/-- The halves of the result of a grant: bit n's cluster. -/
def grantHalf (s : State) (bound : List (Nat × Nat × Nat)) (n : Nat) : Nat :=
  match bound.find? (fun (b, _, _) => b == n) with
  | some (_, site, p) => 2 ^ 15 + logicalOf s site p * 2 ^ 12 + site * 64
  | none => 0

/-- The dispatcher reads the granted bits of a block. -/
def readGrant (s : State) (m : Master) (src ia : Nat) : Option (List Nat) :=
  match masterGet s m src ia 56 with
  | .error _ => none
  | .ok (_, bs, _) => some ((List.range 448).filter (fun k => (bs.getD (k / 8) 0#8).getLsbD (k % 8)))

/-- The bytes from 0x80 of a grant block, line by line. -/
def writeGrant (s : State) (m : Master) (src ia : Nat) (bound : List (Nat × Nat × Nat)) : State :=
  let put (s : State) (a : Nat) (bs : List Byte) : State := match masterPut s m src a bs false with
    | .ok s1 => s1
    | .error _ => s
  let s1 := put s (ia + 0x38) (toBytes 8 bound.length)
  (List.range 7).foldl (fun acc k =>
    put acc (ia + 0x80 + 128 * k) ((List.range 64).flatMap (fun j => toBytes 2 (grantHalf s bound (64 * k + j))))) s1

def grantAt (part : Nat) (s : State) : Host.Outcome State Fault Refusal :=
  event s (fun s =>
    match nextService s part with
    | none => s
    | some (x, d) =>
      let a := svArgs d
      if a.op != 7 then s
      else if !svFieldsOk d then refuseService s x
      else if !ctxInPart s part a.ctx then refuseService s x
      else match readGrant s (grantMaster a.ctx) x.n a.ia with
        | none => refuseService s x
        | some granted =>
          let bound := bindBits s part (findCtx s a.ctx).bound (findCtx s a.ctx).granted granted
          let s1 := onCtx s a.ctx (fun c => { c with part := part, granted := granted, bound := bound })
          let s2 := bound.foldl (fun acc (_, n, p) => openEngine acc a.ctx n p) s1
          endService (writeGrant s2 (grantMaster a.ctx) x.n a.ia bound) x 0)

def execGrant (s : State) : Host.Outcome State Fault Refusal := grantAt (subject s 0) s

end Sys2Proof.Machine
end

