-- ==== Sys2Proof/Machine/Assay.lean ====
section
/-!
DEFINITION. The end of teams and launches (10 R423; 12 R281; 01 R18; 05 R121) and assay (19 R364 to R371; 22 R410).
-/

namespace Sys2Proof.Machine

open Sys2Proof

/-! ### The assay window (R347, R365, R367) -/

/-- How many teams the header's assay field selects. -/
def sampledTotal (l : Launch) : Nat :=
  if 16 < l.kernel.assayCode then 0
  else
    let m := 2 ^ l.kernel.assayCode
    let r := (m - l.lnum % m) % m
    if r < l.teams then (l.teams - 1 - r) / m + 1 else 0

/-- A rewrite of the launch's state byte is not performed yet: record 0x0A follows record 0x0B (R410). -/
def stateHeld (s : State) (key : Nat) : Bool := s.recWrites.any (fun w => w.key == 2 * key && w.note.isSome)

/-- The window closes when every sampled team is skipped or decided: the frozen entries go, the accesses that they
held are replayed under the replay budget, record 0x0A. A launch with frozen entries whose header samples no team has a
window too, with no record (R347, R367; log 112). -/
def closeWindow (s : State) (key : Nat) : State :=
  match findLaunch s key with
  | none => s
  | some l =>
    if !l.windowOpen || l.skipped + l.matched + l.mismatched != sampledTotal l || stateHeld s key then s
    else
      let held (p : Pending) : Bool := p.kind == 4 && l.frozen.any (fun (_, lo, hi) => lo ≤ p.ia && p.ia < hi)
      let (s0, ok) := payReplay s (s.pendings.filter held)
      if !ok then s0
      else
        let s1 := replayAll (onLaunch (removeFrozen s0 l) key (fun l => { l with windowOpen := false })) held
        let s2 := if !l.kernel.assayed then s1
          else postErr s1 0x0A l.ctx 0 0 l.lnum 0xFFFFFFFF
            (sampledTotal l * 2 ^ 32 + l.skipped) (l.matched * 2 ^ 32 + l.mismatched)
        settleLaunch s2 key

/-! ### The end of a team (R94, R179, R423) -/

/-- Every weave has ended, and every access, engine command, copy, remote operation and log entry is performed. -/
def teamDone (s : State) (t : Team) : Bool :=
  t.weaves.all (·.ended) && !s.accs.any (·.uid == t.uid) &&
  !s.clusters.any (fun c => c.outstanding.any (fun e => e.uid == t.uid || e.owners.any (·.1 == t.uid)) || c.copies.any (·.uid == t.uid)) &&
  !s.remotes.any (·.uid == t.uid) && !(findCore s t.at_).log.any (·.uid == t.uid)

/-- The team leaves its core; its reservations, lists, counts, claim and slots are free. -/
def releaseTeam (s : State) (t : Team) : State :=
  onLaunch (noteWork { s with
      teams := s.teams.filter (·.uid != t.uid)
      watches := s.watches.filter (·.uid != t.uid) } t.launch t.at_.unit) t.launch (fun l => { l with
    usedSlots := l.usedSlots.filter (fun g => !t.slots.contains g) })

/-- What a run leaves for a comparison. -/
def Team.trialRun (t : Team) : TrialRun := { core := t.at_, digest := t.digest, engine := t.engineUsed, left := t.ranOn }

/-- An original run ends: a sampled team is skipped, when it met a reason of R366 or ended fatally (log 30), or waits
for its re-run. -/
def endOriginal (s : State) (t : Team) : State :=
  let s1 := onLaunch (releaseTeam s t) t.launch (fun l => { l with
    ended := if l.ended.contains t.lix then l.ended else l.ended ++ [t.lix]
    heldSig := l.heldSig.filter (· != t.lix)
    heldMst := l.heldMst.filter (·.1 != t.lix)
    skipped := if t.sampled && (t.ending || !t.eligible) then l.skipped + 1 else l.skipped
    trials := if t.sampled && !t.ending && t.eligible then l.trials ++ [{ lix := t.lix, runs := [t.trialRun], since := s.cyc }] else l.trials })
  closeWindow s1 t.launch

def execTeamEnd (uid : Nat) (s : State) : Host.Outcome State Fault Refusal :=
  event s (fun s =>
    match findTeam s uid with
    | none => s
    | some t => if t.run == .original && teamDone s t then endOriginal s t else s)

/-! ### The completion of a launch (R98, R121, R281, R364) -/

/-- Every team has ended: replicas go, then the record is written, dword 1 before dword 0. Of a completed launch the assay
window closes when it can. -/
def execLaunchCompletion (key : Nat) (s : State) : Host.Outcome State Fault Refusal :=
  event s (fun s =>
    match findLaunch s key with
    | none => s
    | some l =>
      if l.completed || l.ended.length != l.teams then closeWindow s key
      else
        let state := if l.poisoned then 3 else 1
        let s1 := onLaunch { s with replicas := s.replicas.filter (·.launch != key) } key (fun l =>
          { l with completed := true, state := state })
        let s2 := match l.crec with
          | none => s1
          | some (d0, d1) => postRecord s1 (2 * key) l.site l.ctx l.lnum
              [(d1, toBytes 8 (l.num * 2 ^ 32 + state)), (d0, toBytes 8 (cycAt s1 l.site))]
        settleLaunch (closeWindow s2 key) key)

/-! ### Re-runs (R366, R368) -/

def onTrial (l : Launch) (lix : Nat) (f : Trial → Trial) : Launch :=
  { l with trials := l.trials.map (fun t => if t.lix == lix then f t else t) }

def dropTrial (l : Launch) (lix : Nat) : Launch := { l with trials := l.trials.filter (·.lix != lix) }

/-- A core on which no program team asks for an issue now. -/
def coreIdle (s : State) (c : CoreId) : Bool :=
  (residents s c).all (fun t => t.run != .original || t.weaves.all (fun w => w.plies.all (fun p => !p.isReady)))

/-- A core for a re-run: the assay class has issue budget left, or no program team requests the core's clocks (R337,
R368). -/
def trialCore (s : State) (l : Launch) (t : Trial) (part : Nat) : Option (CoreId × List Nat) :=
  (trialClusters s t part).findSome? (fun (n, p) =>
    chooseCore s (fun c => coreIdle s c || mayUse s n 1 { issue := 1 }) n [p] l.kernel l.kernel.wcount)

/-! ### Arbitration (R370, R371, R410) -/

/-- The units of a run that are scored. -/
def TrialRun.units (r : TrialRun) : List UnitId :=
  ⟨r.core.site, r.core.cluster, false, r.core.core⟩ :: (if r.engine then [⟨r.core.site, r.core.cluster, true, 0⟩] else [])

def scoreRun (s : State) (n : Nat) (r : TrialRun) : State :=
  r.units.foldl (fun acc u => changeScore acc u (unitScore acc u + n)) s

/-- Every nonzero score falls by one. -/
def decayScores (s : State) : State :=
  let cores := s.cores.filter (·.score != 0)
  let engines := s.clusters.filter (·.score != 0)
  let fall (acc : State) (u : UnitId) : State :=
    postErr (setUnitScore acc u (unitScore acc u - 1)) 0x08 0 u.unit 0 0xFFFFFFFF 0xFFFFFFFF (unitScore acc u) (unitScore acc u - 1)
  let s1 := cores.foldl (fun acc c => fall acc ⟨c.id.site, c.id.cluster, false, c.id.core⟩) s
  engines.foldl (fun acc c => fall acc ⟨c.site, c.phys, true, 0⟩) s1

/-- A team is decided; every 2^20 of them let the scores fall. -/
def countDecided (s : State) : State :=
  let s1 := { s with decided := s.decided + 1 }
  if s1.decided % 2 ^ 20 == 0 then decayScores s1 else s1

/-- The outcome of a third run by the table of R370: row, the runs scored with their points, and whether the launch is
poisoned. -/
def arbitrate (a b c : TrialRun) : Nat × List (TrialRun × Nat) × Bool :=
  if c.odd then (4, [], true)
  else if c.digest == a.digest then (1, [(b, 16)], false)
  else if c.digest == b.digest then (2, [(a, 16)], true)
  else (3, [(a, 8), (b, 8), (c, 8)], true)

/-- A row takes effect: record 0x07, scores, the launch's state, then the window. A team whose third run is skipped or
impossible is undecided, and counts as skipped (R368, R370; log 69). -/
def applyRow (s : State) (l : Launch) (t : Trial) (d2 : DWord) (row : Nat) (scores : List (TrialRun × Nat)) (poison : Bool) : State :=
  let unit := ((t.runs.head?).map (·.core.unit)).getD 0
  let s1 := postErr s 0x07 l.ctx unit 0 l.lnum t.lix d2.toNat row
  let s2 := scores.foldl (fun acc (r, n) => scoreRun acc n r) s1
  let s3 := if poison then poisonLaunch s2 l.key else s2
  let s4 := if row == 4 then s3 else countDecided s3
  closeWindow (onLaunch s4 l.key (fun l => { dropTrial l t.lix with
    mismatched := if row == 4 then l.mismatched else l.mismatched + 1
    skipped := if row == 4 then l.skipped + 1 else l.skipped })) l.key

/-- The re-run of a trial cannot take place or was abandoned: its team is skipped; after a mismatch it is undecided. -/
def abandonTrial (s : State) (l : Launch) (t : Trial) : State :=
  if t.runs.length ≤ 1 then
    closeWindow (onLaunch s l.key (fun l => { dropTrial l t.lix with skipped := l.skipped + 1 })) l.key
  else applyRow s l t 0#64 4 [] true

def execAssayRerunAdmission (launch lix : Nat) (s : State) : Host.Outcome State Fault Refusal :=
  event s (fun s =>
    match findLaunch s launch with
    | none => s
    | some l =>
      match l.trials.find? (·.lix == lix) with
      | none => s
      | some t =>
        if t.running then s
        else
          let part := (findSite s l.site).part
          if (trialClusters s t part).isEmpty then abandonTrial s l t
          else match trialCore s l t part, freeStack l l.kernel.wcount with
            | some (core, parts), some slots =>
              let run := if t.runs.length ≤ 1 then RunKind.rerun else RunKind.third
              let s1 := startTeam s l lix run core parts slots
              onLaunch s1 launch (fun l => onTrial l lix (fun t => { t with running := true }))
            | _, _ => s)

/-- A re-run that ended joins its trial. -/
def judge (s : State) (l : Launch) (t : Trial) (r : TrialRun) : State :=
  match t.runs with
  | [a] =>
    if r.digest == a.digest && !r.odd then
      let s1 := onLaunch s l.key (fun l => { dropTrial l t.lix with matched := l.matched + 1 })
      closeWindow (countDecided s1) l.key
    else
      let s1 := postErr s 0x06 l.ctx a.core.unit 0 l.lnum t.lix a.digest.toNat r.digest.toNat
      onLaunch s1 l.key (fun l => onTrial l t.lix (fun t => { t with runs := t.runs ++ [r], running := false, since := s.cyc }))
  | [a, b] =>
    let (row, scores, poison) := arbitrate a b r
    applyRow s l t r.digest row scores poison
  | _ => s

/-- The run of a trial that is under way, resident. -/
def trialTeam (s : State) (launch lix : Nat) : Option Team :=
  s.teams.find? (fun t => t.launch == launch && t.lix == lix && t.run != .original)

def execAssayRunEnd (launch lix : Nat) (s : State) : Host.Outcome State Fault Refusal :=
  event s (fun s =>
    match findLaunch s launch with
    | none => s
    | some l =>
      match l.trials.find? (·.lix == lix) with
      | none => s
      | some t =>
        if !t.running || l.suspended.any (fun x => x.lix == lix && x.run != .original) then s
        else match trialTeam s launch lix with
          | none => abandonTrial s l t
          | some u =>
            if !teamDone s u then s
            else if u.ending then abandonTrial (releaseTeam s u) l t
            else judge (releaseTeam s u) l t { u.trialRun with odd := !u.eligible })

end Sys2Proof.Machine
end

