-- ==== Sys2Proof/Machine/Leave.lean ====
section
/-!
DEFINITION. Pre-emption (16 R307), swap-out after a fault (17 R331), the watchdog (R332), migration (01 R34; 17 R333, R334)
and the start of a budget window (R335, R337; 24 R419).
-/

namespace Sys2Proof.Machine

open Sys2Proof

/-! ### Pre-emption and swap-out -/

/-- The teams of a unit that are asked to leave go, once all of them are quiet and the save budget lets their images be
written (R305, R307). -/
def leaveUnit (s : State) (uid rs : Nat) : State :=
  let unit := unitOf s uid
  let ts := s.teams.filter (fun t => unit.contains t.uid)
  if ts.any (·.leaving.isNone) then askLeave s (fun t => unit.contains t.uid) rs
  else if ts.all (teamQuiet s) then
    let (s1, ok) := unit.foldl (fun (acc, ok) u =>
      let (acc1, o) := paySave acc u (rs == 0)
      (acc1, ok && o)) (s, true)
    if ok then saveUnit s1 unit rs else s1
  else s

/-- R307: a team that was asked to leave for another, or by quarantine or scan. -/
def execPreemption (uid : Nat) (s : State) : Host.Outcome State Fault Refusal :=
  event s (fun s =>
    match findTeam s uid with
    | some t => if t.leaving == some 0 then leaveUnit s uid 0 else s
    | none => s)

/-- The ply of a logged store stands at its instruction, which waits for the log: a fence, a barrier, a release (R123). -/
def standsForLog (t : Team) (windex n : Nat) : Bool :=
  t.weaves.any (fun w => w.windex == windex && w.plies.any (fun p => p.n == n && !p.isReady && p.wait == .retry))

/-- The cyc at which the oldest home fault that a ply of the team waits for was found: of a load or an atomic, of a fetch,
or of a logged store while its ply stands for it. A command of the engine keeps its team resident (R253). -/
def faultSince (s : State) (t : Team) : Option Nat :=
  let ids := (s.accs.filter (fun a => a.uid == t.uid && !a.writes)).map (·.id)
  let entries := (s.pendings.filter (fun p => p.waiters.any (fun w => match w with
    | .acc id => ids.contains id
    | .fetch u _ _ => u == t.uid
    | .area u _ => u == t.uid
    | .log u w n => u == t.uid && standsForLog t w n
    | _ => false))).map (·.at_)
  let full := s.accs.filterMap (fun a => if a.uid == t.uid then (match a.stage with
    | .full c => some c
    | _ => none) else none)
  match entries ++ full with
  | [] => none
  | x :: rest => some (rest.foldl min x)

/-- No ply of the team could issue now. -/
def teamStopped (t : Team) : Bool := t.weaves.all (fun w => w.plies.all (fun p => !p.isReady))

/-- A ready team of equal or higher launch priority waits for the core. -/
def coreWanted (s : State) (t : Team) : Bool :=
  (waitingGroups s t.at_.site).any (fun g => t.prio ≤ g.own && couldHold s g t.at_)

/-- A member of a resident crew waits resident (R32). -/
def inResidentCrew (s : State) (t : Team) : Bool :=
  t.run == .original && ((findLaunch s t.launch).map (fun l => l.crews.any (fun c => c.resident && c.members.contains t.lix))).getD false

def execFaultSwapOut (uid : Nat) (s : State) : Host.Outcome State Fault Refusal :=
  event s (fun s =>
    match findTeam s uid with
    | none => s
    | some t =>
      if t.leaving == some 1 then leaveUnit s uid 1
      else match faultSince s t with
        | none => s
        | some since =>
          let unit := s.teams.filter (fun u => (unitOf s uid).contains u.uid)
          if t.leaving.isSome || unit.any (inResidentCrew s) || !unit.all (fun u => (faultSince s u).isSome || teamStopped u) then s
          else if since + 8192 ≤ s.cyc || coreWanted s t then leaveUnit s uid 1
          else s)

/-! ### The watchdog -/

/-- The limit of a team's watchdog in ticks. -/
def watchLimit (s : State) (t : Team) : Nat := ((findLaunch s t.launch).map (fun l => l.wdog * 1024)).getD 0

/-- The lowest ply of the lowest live weave: weave and ply. -/
def watchPly (t : Team) : Option (Nat × Nat) :=
  (t.live.head?).bind (fun w => (w.plies.head?).map (fun p => (w.windex, p.n)))

def execWatchdogExpiry (uid : Nat) (s : State) : Host.Outcome State Fault Refusal :=
  event s (fun s =>
    match findTeam s uid with
    | none => s
    | some t =>
      match t.wdogAt, watchPly t with
      | some e, some (windex, n) =>
        if s.cyc < e then s
        else
          let limit := watchLimit s t
          let s1 := onTeams s (·.uid == uid) (fun t => { t with wdogAt := some (s.cyc + limit) })
          onPly s1 uid windex n (·.raise 0x12 (BitVec.ofNat 64 limit))
      | _, _ => s)

/-! ### Migration -/

/-- Free team slots of a site for a split: the free weave slots of its cores in service that have it (log 31). -/
def freeTeamSlots (s : State) (site : Nat) (split : Nat × Nat × Nat) : Nat :=
  sumOf (((boundClusters s site).flatMap (fun (_, p) => clusterCores site p)).map (fun c =>
    if coreServes s c && (findCore s c).split == split then 64 - (coreWeaves s c).length else 0))

/-- The splits in use at a site. -/
def splitsAt (s : State) (site : Nat) : List (Nat × Nat × Nat) :=
  (((boundClusters s site).flatMap (fun (_, p) => clusterCores site p)).map (fun c => (findCore s c).split)).foldl
    (fun acc x => if acc.contains x then acc else acc ++ [x]) []

/-- What an advertisement says: the free team slots for each split in use. -/
def slotWords (s : State) (site : Nat) : List Nat :=
  (splitsAt s site).flatMap (fun sp => [sp.1, sp.2.1, sp.2.2, freeTeamSlots s site sp])

/-- R333: every 4,096 ticks, to every site of the partition, in class 6 (R376). -/
def migrationAdvertisementAt (site : Nat) (s : State) : Host.Outcome State Fault Refusal :=
  event s (fun s =>
    let x := findSite s site
    if cycAt s site / 4096 ≤ x.advW then s
    else
      let s1 := onSite s site (fun x => { x with advW := cycAt s site / 4096 })
      ((sitesOf s x.part).filter (· != site)).foldl (fun acc n => sendPacket acc site n 6 acc.nextId false (2 :: slotWords s site)) s1)

def execMigrationAdvertisement (s : State) : Host.Outcome State Fault Refusal := migrationAdvertisementAt (subject s 0) s

/-- What a site holds of an advertisement: the free slots of a peer for a split. -/
def advertised (s : State) (at_ from_ : Nat) (split : Nat × Nat × Nat) : Nat :=
  ((s.adverts.find? (fun (n, m, sp, _) => n == at_ && m == from_ && sp == split)).map (·.2.2.2)).getD 0

/-- The nearest site of the mask that advertises a slot. -/
def offerTarget (s : State) (l : Launch) (site : Nat) : Option Nat :=
  nearest site (l.sitesDealt.filter (fun n =>
    n != site && (findSite s n).part == (findSite s site).part && advertised s site n l.kernel.split != 0))

/-- The migrate class may use the two flits of an offer. -/
def migrateLeft (s : State) (site : Nat) : Bool := mayUse s site 3 { mesh := 2 }

/-- The message leaves in class 5 with the offer's name. -/
def sendOffer (s : State) (o : Offer) : State :=
  sendPacket { useClass s o.src 3 1 2 with offers := s.offers ++ [o] } o.src o.dst 5 o.id false

/-- Some consecutive teams of a run that may move, at most n of them: no member of a resident crew (R34). -/
def movable (l : Launch) (r : TeamRun) (n : Nat) : Option (Nat × Nat) :=
  let stays (x : Nat) : Bool := l.crews.any (fun c => c.resident && c.members.contains x)
  let from_ := ((List.range r.count).map (r.first + ·)).dropWhile stays
  from_.head?.map (fun x => (x, min n (from_.takeWhile (fun y => !stays y)).length))

/-- A run without some consecutive teams of it, which are offered under a name. -/
def TeamRun.offer (q : TeamRun) (first n id : Nat) : List TeamRun :=
  [{ q with count := first - q.first }, { q with first := first, count := n, offered := some id },
   { q with first := first + n, count := q.first + q.count - (first + n) }].filter (fun q => q.count != 0)

/-- The first launch of a site with teams that have waited for 16,384 cycles, of no resident crew or gang unit, and a
site that takes them (R34: those units stay). -/
def offerOf (s : State) (site : Nat) (l : Launch) : Option State :=
  (offerTarget s l site).bind (fun dst =>
    let o (kind first count image : Nat) : Offer :=
      { id := s.nextId, src := site, dst := dst, launch := l.key, kind := kind, first := first, count := count, image := image }
    match l.suspended.find? (fun x => x.ready site && x.gangUnit.isEmpty && x.run == .original && x.since + 16384 ≤ s.cyc &&
        !l.crews.any (fun c => c.resident && c.members.contains x.lix)) with
    | some x =>
      let s1 := onLaunch { s with nextId := s.nextId + 1 } l.key (fun l => { l with suspended := l.suspended.map (fun y =>
        if y.uid == x.uid then { y with offered := some s.nextId } else y) })
      some (sendOffer s1 (o 2 x.lix 1 (x.pages.headD 0)))
    | none =>
      let moving (r : TeamRun) : Option (TeamRun × Nat × Nat) :=
        if r.since + 16384 ≤ s.cyc then (movable l r (advertised s site dst l.kernel.split)).map (fun x => (r, x.1, x.2)) else none
      match (l.runsAt site).findSome? moving with
      | none => none
      | some (r, first, n) =>
        let s1 := onLaunch { s with nextId := s.nextId + 1 } l.key (fun l => { l with
          runs := l.runs.flatMap (fun q => if q == r then q.offer first n s.nextId else [q]) })
        some (sendOffer s1 (o 1 first n 0)))

def migrationOfferAt (site : Nat) (s : State) : Host.Outcome State Fault Refusal :=
  event s (fun s => if !migrateLeft s site then s else (s.launches.findSome? (offerOf s site)).getD s)

def execMigrationOffer (s : State) : Host.Outcome State Fault Refusal := migrationOfferAt (subject s 0) s

def findOffer (s : State) (id : Nat) : Option Offer := s.offers.find? (·.id == id)

/-- R334: the target accepts while it has room. -/
def migrationOfferReceiveAt (id : Nat) (s : State) : Host.Outcome State Fault Refusal :=
  event s (fun s =>
    match findOffer s id with
    | none => s
    | some o =>
      if !o.arrived || o.answer.isSome then s
      else
        let room := ((findLaunch s o.launch).map (fun l =>
          o.count ≤ freeTeamSlots s o.dst l.kernel.split && !(l.clustersAt o.dst).isEmpty)).getD false
        let s1 := { s with offers := s.offers.map (fun x => if x.id == id then { x with answer := some room, arrived := false } else x) }
        sendPacket s1 o.dst o.src 5 id false)

def execMigrationOfferReceive (s : State) : Host.Outcome State Fault Refusal := migrationOfferReceiveAt (subject s 0) s

/-- R334: accepted teams go to the target; refused ones return to their old places. -/
def migrationAnswerReceiveAt (id : Nat) (s : State) : Host.Outcome State Fault Refusal :=
  event s (fun s =>
    match findOffer s id with
    | none => s
    | some o =>
      match o.answer with
      | none => s
      | some yes =>
        if !o.arrived then s
        else
          let dst := if yes then o.dst else o.src
          let s1 := { s with offers := s.offers.filter (·.id != id) }
          onLaunch s1 o.launch (fun l => { l with
            runs := l.runs.map (fun r => if r.offered == some id then { r with site := dst, offered := none } else r)
            suspended := l.suspended.map (fun x => if x.offered == some id then { x with site := dst, offered := none } else x) }))

def execMigrationAnswerReceive (s : State) : Host.Outcome State Fault Refusal := migrationAnswerReceiveAt (subject s 0) s

/-! ### Budget windows (R335 to R338, R419) -/

/-- A window begins: the effective shares are fixed, the activity bits clear, and unspent amounts lapse. -/
def budgetWindowStartAt (site : Nat) (s : State) : Host.Outcome State Fault Refusal :=
  event s (fun s =>
    let w := windowOf s site
    if w ≤ (findSite s site).bgtW then s
    else
      let s1 := onSite s site (fun x => { x with bgtW := w, bgtNow := effShares x, bgtAct := 0#8, actW := w })
      { s1 with spent := s1.spent.filter (fun (n, _, _) => n != site) })

def execBudgetWindowStart (s : State) : Host.Outcome State Fault Refusal := budgetWindowStartAt (subject s 0) s

end Sys2Proof.Machine
end

