-- ==== Sys2Proof/Machine/Fabric.lean ====
section
/-!
DEFINITION. The mesh, its links, and the external plane (20 R374 to R383, R391; 23 R414; 24 R418).
-/

namespace Sys2Proof.Machine

open Sys2Proof

/-! ### Router inputs (R375) -/

/-- The flits of a channel in a router input. -/
def chanFlits (s : State) (input : Nat × Nat) (c : Nat) : Nat :=
  sumOf (s.packets.flatMap (fun p => (p.segs.filter (fun x => x.input == input && x.chan == c)).map (·.n)))

/-- The shared flits of the pool that are free: 192, less what each channel holds beyond its guaranteed one. -/
def sharedFree (s : State) (input : Nat × Nat) : Nat :=
  192 - sumOf ((List.range 64).map (fun c => chanFlits s input c - 1))

/-- The hold signal of a channel. -/
def holdRaised (s : State) (input : Nat × Nat) (c : Nat) : Bool := 1 ≤ chanFlits s input c && sharedFree s input < 8

/-- Of k flits that wait for a channel of a router input, how many it takes now. -/
def inputTakes (s : State) (input : Nat × Nat) (c k : Nat) : Nat :=
  if holdRaised s input c then 0
  else if chanFlits s input c == 0 then min k (sharedFree s input + 1)
  else min k (sharedFree s input)

/-- Flits of the packet are still to come into a channel of an input. -/
def Packet.entering (p : Packet) (input : Nat × Nat) (c : Nat) : Bool :=
  (p.segs.dropWhile (fun x => !(x.input == input && x.chan == c))).length > (if p.left == 0 then 1 else 0) &&
    p.segs.any (fun x => x.input == input && x.chan == c)

/-- A header may go into the channel: the flits of one packet are not mixed with another's. -/
def chanOpen (s : State) (input : Nat × Nat) (c : Nat) : Bool := s.packets.all (fun q => !q.entering input c)

/-- The header stands in the channel of its input. -/
def Packet.headAt (p : Packet) (input : Nat × Nat) (c : Nat) : Bool :=
  ((p.segs.head?).map (fun x => x.input == input && x.chan == c)).getD false

/-- The packet is the first of its channel: no flits of one before it are left there, and of the headers in it it came
first. -/
def firstOfChannel (s : State) (p : Packet) : Bool :=
  match p.segs.head? with
  | none => true
  | some x =>
    !s.packets.any (fun q => (q.segs.drop 1).any (fun y => y.input == x.input && y.chan == x.chan)) &&
    ((s.packets.find? (·.headAt x.input x.chan)).map (·.id)) == some p.id

/-! ### The way of a packet (R376, R380, R383) -/

/-- The next hop of a packet and its channel: adaptively over a minimal direction, else on its escape channel. -/
def nextHop (s : State) (p : Packet) : Option (Nat × Nat) :=
  let cur := p.at_
  let goal := p.goal s
  let try_ (m c : Nat) : Option (Nat × Nat) :=
    if seamLive s cur m && chanOpen s (m, cur) c && inputTakes s (m, cur) c p.front != 0 then some (m, c) else none
  let (first, n) := classChannels p.lane
  let adaptive :=
    if p.onEscape then none
    else ((neighbours cur).filter (fun m => hops m goal < hops cur goal)).findSome? (fun m =>
      ((List.range (n - 2)).map (first + 2 + ·)).findSome? (try_ m))
  match adaptive with
  | some h => some h
  | none => (escapeNext s cur goal (p.escape s)).bind (fun m => try_ m (p.escape s))

/-- The packets of the flits in a link's retry buffer, the last one first. -/
def retryOf (s : State) (key : Nat × Nat × Nat) : List Nat := ((s.retry.find? (·.1 == key)).map (·.2)).getD []

/-- n flits of a packet cross a link of a seam, which keeps its last 32 flits for a replay (R374, R380). -/
def noteLink (s : State) (id : Nat) (src dst n : Nat) : State :=
  let live := liveLinks s src dst
  let key := (src, dst, live.getD (Config.linkPick s.steps % max live.length 1) 0)
  if n == 0 then s
  else { s with retry := (key, (List.replicate n id ++ retryOf s key).take 32) :: s.retry.filter (·.1 != key) }

/-- The flits behind a segment move up: the segments, what is left where the packet was injected, and how many flits
entered each input. -/
def pullFrom (s : State) : Seg → List Seg → Nat → List Seg × Nat × List ((Nat × Nat) × Nat)
  | x, [], left =>
    let n := inputTakes s x.input x.chan left
    ([{ x with n := x.n + n }], left - n, [(x.input, n)])
  | x, y :: rest, left =>
    let n := inputTakes s x.input x.chan y.n
    let (tail, left1, moved) := pullFrom s { y with n := y.n - n } rest left
    ({ x with n := x.n + n } :: tail, left1, (x.input, n) :: moved)

/-- Segments that every flit has passed are free. -/
def trimSegs (left : Nat) (xs : List Seg) : List Seg :=
  if left != 0 then xs else xs.take 1 ++ ((xs.drop 1).reverse.dropWhile (·.n == 0)).reverse

/-- The flits of a packet that stand behind its header follow. -/
def pullBody (s : State) (p : Packet) : State × Packet :=
  match p.segs with
  | [] => (s, p)
  | x :: rest =>
    let (segs, left, moved) := pullFrom s x rest p.left
    (moved.foldl (fun acc (input, n) => noteLink acc p.id input.2 input.1 n) s, { p with segs := trimSegs left segs, left := left })

/-- The header goes over a link, with the flits beside it that the next input takes. -/
def moveHeader (s : State) (p : Packet) : Option (State × Packet) :=
  (nextHop s p).map (fun (m, c) =>
    let input := (m, p.at_)
    let n := inputTakes s input c p.front
    let x : Seg := { input := input, chan := c, n := n }
    let (old, left) := match p.segs with
      | [] => ([], p.left - n)
      | y :: rest => ({ y with n := y.n - n } :: rest, p.left)
    (noteLink s p.id p.at_ m n, { p with segs := trimSegs left (x :: old), left := left }))

def setPacket (s : State) (p : Packet) : State := { s with packets := s.packets.map (fun q => if q.id == p.id then p else q) }

/-- Every flit of the packet is where it heads for. -/
def Packet.settled (s : State) (p : Packet) : Bool := p.at_ == p.goal s && p.got + p.front == p.size

/-- A packet on the mesh goes on: its flits follow the header; at the site that it heads for they leave the router; elsewhere
the header goes to the next router, or waits. -/
def forwardPacket (s : State) (p : Packet) : State :=
  let (s1, q) := pullBody s p
  if q.at_ == q.goal s then
    setPacket s1 (match q.segs with
      | [] => { q with got := q.got + q.left, left := 0 }
      | x :: rest => { q with got := q.got + x.n, segs := { x with n := 0 } :: rest })
  else if !firstOfChannel s1 q then setPacket s1 q
  else match moveHeader s1 q with
    | none => setPacket s1 q
    | some (s2, r) => { s2 with packets := s2.packets.filter (·.id != p.id) ++ [r] }

/-- The packet's path begins anew. -/
def Packet.afresh (p : Packet) : Packet := { p with stomp := false, entry := none, segs := [], left := p.flits, got := 0 }

/-- A packet of the external plane leaves by a port's interface and comes in where the network delivers it (R379, R383). -/
def crossPlane (s : State) (p : Packet) : State :=
  match exitSite s p.src, entrySite s p.dst with
  | some x, some e =>
    setPacket (putOut s x s.wafer p ((List.range 5).map (Config.cmdDword p.id)) (packetData s p.cls p.acc))
      { p with entry := some e, segs := [], left := p.flits, got := 0 }
  | _, _ => s

/-! ### What a packet carries -/

/-- The node of another module to which the packet goes by its destination's port. -/
def Packet.node (s : State) (p : Packet) : Option Nat :=
  if p.cls == 3 && isDistant s p.ia && iaNode p.ia != 0xFFF then some (iaNode p.ia) else none

/-- A remote line fails at its home. -/
def failLine (s : State) (o : RemoteOp) (l : RLine) (f : Failure) : State :=
  if o.kind == 0 || o.kind == 2 then logRemote s o l f else holdRemote s o l f 7

def dropPacket (s : State) (id : Nat) : State := { s with packets := s.packets.filter (·.id != id) }

/-- After 8 failed deliveries the access fails as no home (R391). -/
def failPacket (s : State) (p : Packet) : State :=
  let s1 := dropPacket s p.id
  match s1.accs.find? (·.id == p.acc), findLine s1 p.acc with
  | some a, _ => faultAccess s1 a ⟨a.src, 5, 0, a.ia⟩
  | none, some (o, l) => failLine s1 o l ⟨o.site, 5, 0, l.ia⟩
  | none, none => s1

def deliveryFailed (s : State) (p : Packet) : State :=
  if 8 ≤ p.fails + 1 then failPacket s { p with fails := p.fails + 1 }
  else setPacket s { p with fails := p.fails + 1 }

/-! ### Accesses of other modules (R349, R390, R418) -/

/-- A packet that a peer's port has sent: an access goes to its home on the mesh in class 3; answers to this module's own
accesses end here. -/
def handPeer (s : State) (port : Nat) (flits : List Byte) : State :=
  let d (k : Nat) : DWord := BitVec.ofNat 64 (ofBytes ((flits.drop (8 * k)).take 8))
  let home := ((d 0).extractLsb' 58 6).toNat
  if (d 0).extractLsb' 48 4 != 3#4 || (d 0).getLsbD 37 || !isSite home then s
  else
    let r : PeerReq := { id := s.nextId, port := port, home := home, src := ((d 0).extractLsb' 52 6).toNat
                         node := ((findSite s port).peer).getD 0, ctx := ((d 2).extractLsb' 48 16).toNat, ia := (d 1).toNat
                         cmd := [d 3, d 4, d 5, d 6, d 7], data := flits.drop 64 }
    let s1 := { s with nextId := s.nextId + 1, peerReqs := s.peerReqs ++ [r] }
    if home == port then performPeer s1 r else sendPacket s1 port home 3 r.id false

/-! ### Arrival (R381, R382, R391) -/

/-- The destination keeps the numbers of the last 4,096 packets of the source and class. -/
def notePacket (s : State) (p : Packet) : State :=
  onSite s p.dst (fun x =>
    let mine (e : Nat × Nat × Nat) : Bool := e.1 == p.src && e.2.1 == p.cls
    { x with seen := (p.src, p.cls, p.pseq) :: (x.seen.filter mine).take 4095 ++ x.seen.filter (fun e => !mine e) })

/-- A site knows of every port that it is down (R414). -/
def allDownKnown (s : State) (n : Nat) : Bool :=
  !(findSite s n).up && allSites.all (fun m => m == n || (findSite s n).heardDown.contains m)

/-- Its pairs on the external plane then take the mesh, under their original numbers. -/
def moveToMesh (s : State) (n : Nat) : State :=
  if !allDownKnown s n then s
  else
    { s with
      packets := s.packets.map (fun p => if p.src == n && p.ext then { p.afresh with ext := false } else p)
      accs := s.accs.map (fun a => if a.src == n then { a with ext := false } else a)
      remotes := s.remotes.map (fun o => if o.site == n then { o with lines := o.lines.map (fun l => { l with ext := false }) } else o) }

/-- A site takes an advertisement of a port's queue and state (R379). -/
def hearPort (s : State) (at_ site lp : Nat) (up : Bool) : State :=
  let s1 := onSite s at_ (fun y => { y with
    heardLp := assocSet site lp y.heardLp
    heardDown := if up then y.heardDown.filter (· != site) else if y.heardDown.contains site then y.heardDown else y.heardDown ++ [site] })
  if up then s1 else moveToMesh s1 at_

/-- What a site holds of an advertisement of free team slots (R333). -/
def slotsOf (at_ from_ : Nat) : List Nat → List (Nat × Nat × (Nat × Nat × Nat) × Nat)
  | a :: b :: c :: n :: rest => (at_, from_, (a, b, c), n) :: slotsOf at_ from_ rest
  | _ => []

/-- The distant access has come to a port that does not carry its node any more: it goes on to one that does, or fails where
it stands (R383, R418). -/
def onward (s : State) (at_ src ia : Nat) : Option Nat :=
  if !isDistant s ia || iaNode ia == 0xFFF || carries s at_ (iaNode ia) then none
  else (distantPort s src (iaNode ia)).filter (· != at_)

/-- What an accepted packet brings: a request for a host line at its port (class 0), an answer or acknowledgement (class 1), a
request at a seam gate (class 2), an access or a remote line at its port or home (class 3), a migration message (class 5), an
advertisement (R333, R379), a window write that its site applies and acknowledges, or such an acknowledgement (class 6,
R312). -/
def acceptPacket (s : State) (p : Packet) : State :=
  match s.accs.find? (·.id == p.acc), findLine s p.acc with
  | some a, _ =>
    if p.cls == 0 && a.stage == .host p.dst then setAcc s { a with asked := true }
    else if p.cls == 1 && a.stage == .granted then arriveHome s a
    else if p.cls == 1 && a.stage == .reply then answered s a a.data (if a.cmp == 0#64 then none else some (a.cmp.toNat - 1))
    else if p.cls == 2 && a.stage == .mesh then setAcc s { a with stage := .gate }
    else if p.cls == 3 && a.stage == .mesh then
      match onward s p.dst a.src a.ia with
      | some q => sendPacket (setAcc s { a with exit := some q }) p.dst q 3 a.id false
      | none => arriveHome s a
    else s
  | none, some (o, l) =>
    if p.cls == 1 && l.stage == .reply then finishLine s o l
    else if p.cls == 3 && l.stage == .sent then
      match onward s p.dst o.site l.ia with
      | some q => sendPacket (setRemote s (o.setLine { l with exit := some q })) p.dst q 3 l.id false
      | none => performLine s o l
    else s
  | none, none =>
    match p.cls, p.cmd with
    | 6, [1, lp, up] => hearPort s p.dst p.src lp (up == 1)
    | 6, 2 :: words =>
      { s with adverts := s.adverts.filter (fun (n, m, _, _) => !(n == p.dst && m == p.src)) ++ slotsOf p.dst p.src words }
    | 6, _ =>
      match s.contexts.find? (fun c => c.winWrite.any (·.id == p.acc)) with
      | some c =>
        if c.winWrite.any (·.site == p.dst) then onCtx s c.tag (fun c => c.ackWindow p.src)
        else sendPacket s p.dst p.src 6 p.acc false
      | none => s
    | 5, _ => { s with offers := s.offers.map (fun o => if o.id == p.acc then { o with arrived := true } else o) }
    | cls, _ =>
      match s.peerReqs.find? (·.id == p.acc) with
      | some r => if cls == 3 then performPeer s r else if cls == 1 then answerPeer s r else s
      | none => s

/-- The secure domain of the packet's traffic: that of its node's entry, on a standard-mode port (R391, R418). -/
def Packet.domain (s : State) (p : Packet) : Nat :=
  match p.node s with
  | some n => if (findSite s p.dst).mode == 1 then ((nodeEntry s p.dst n).extractLsb' 0 8).toNat else 0
  | none => 0

/-- A packet of which every flit is at the site that it heads for crosses the external plane, or is accepted at its destination;
`forged` says that it fails authentication in its secure domain: it is dropped, counted and reported, and the sender keeps
it. A duplicate or a stomped packet is discarded. A packet for a port that takes nothing waits. -/
def settlePacket (s : State) (p : Packet) (forged : Bool) : State :=
  if p.ext && p.entry.isNone then (if (exitSite s p.src).isSome then crossPlane s p else s)
  else if p.stomp then dropPacket s p.id
  else if (p.node s).isSome && portFull s p.dst then s
  else if forged && p.domain s != 0 then deliveryFailed (postFabric s 0x19 p.dst (p.domain s) 1) p
  else if (findSite s p.dst).seen.contains (p.src, p.cls, p.pseq) then dropPacket s p.id
  else acceptPacket (notePacket (dropPacket s p.id) p) p

/-- A packet arrives, or goes on. -/
def execMeshPacketArrival (id : Nat) (forged : Bool) (s : State) : Host.Outcome State Fault Refusal :=
  event s (fun s =>
    match s.packets.find? (·.id == id) with
    | none => s
    | some p => if p.settled s then settlePacket s p forged else forwardPacket s p)

/-- R391, R414: the endpoint sends an unacknowledged packet again: towards another module that is a failed delivery, on
the external plane a copy under its number. -/
def execUltraEthernetRetransmission (id : Nat) (s : State) : Host.Outcome State Fault Refusal :=
  event s (fun s =>
    match s.packets.find? (·.id == id) with
    | none => s
    | some p =>
      if (p.node s).isSome then (if (findSite s p.dst).mode == 1 then deliveryFailed s p else s)
      else if p.ext then { s with nextId := s.nextId + 1, packets := s.packets ++ [{ p.afresh with id := s.nextId }] }
      else s)

/-! ### Seam gates (R111, R378) -/

/-- An earlier request of the ply to that home is not yet performed. -/
def gateBefore (s : State) (a : Acc) : Bool :=
  s.accs.any (fun b => b.ofPly a.uid a.windex a.ply && b.gply == a.gply && b.id < a.id && isFar s b.src b.ia &&
    iaSite b.ia == iaSite a.ia && !isRlx b.order && (b.stage == .mesh || b.stage == .gate))

def execGateRequestArrival (id : Nat) (s : State) : Host.Outcome State Fault Refusal :=
  event s (fun s =>
    match s.accs.find? (·.id == id) with
    | none => s
    | some a => if a.stage == .gate && (isRlx a.order || !gateBefore s a) then arriveHome s a else s)

/-! ### Links (R380, R381) -/

/-- A flit is corrupted on a link; `again` says that its replay fails as well. A replay that succeeds ends the row. -/
def execFlitCrcError (a b link : Nat) (again : Bool) (s : State) : Host.Outcome State Fault Refusal :=
  event s (fun s =>
    if !isSeam a b || 4 ≤ link then s
    else
      let mine (e : Nat × Nat × Nat × Nat) : Bool := e.1 == a && e.2.1 == b && e.2.2.1 == link
      let n := ((s.linkFails.find? mine).map (·.2.2.2)).getD 0
      let others := s.linkFails.filter (fun e => !mine e)
      { s with linkFails := if again then others ++ [(a, b, link, n + 1)] else others })

/-- What goes on of a packet that its sender abandons part-way: its header, where it stands; its other flits are freed
(R382). One that has not left its source is gone. -/
def abandon (p : Packet) : Option Packet :=
  (p.segs.head?).map (fun x => { p with stomp := true, segs := [{ x with n := 1 }], left := 0, got := 0 })

/-- A link has flits of the packet among the last that it carried (R380). -/
def cutBy (s : State) (a b link id : Nat) : Bool :=
  (retryOf s (a, b, link)).contains id || (retryOf s (b, a, link)).contains id

/-- Packets that a dying link cuts go on stomped, and the source sends them again; copies of others whose
acknowledgement was lost go out under their numbers. -/
def reinject (s : State) (cut dup : List Nat) : State :=
  s.packets.foldl (fun acc p =>
    if p.ext || !(cut.contains p.id || dup.contains p.id) then acc
    else
      { acc with
        nextId := acc.nextId + 1
        packets := acc.packets.flatMap (fun q => if q.id == p.id && cut.contains p.id then (abandon q).toList else [q]) ++
          [{ p.afresh with id := acc.nextId }] }) s

/-- A link of a seam dies: after 16 failed replays in a row, or by loss of lock. It may cut packets of which flits are in its
retry buffer. -/
def execLinkDead (a b link : Nat) (lock : Bool) (cut dup : List Nat) (s : State) : Host.Outcome State Fault Refusal :=
  event s (fun s =>
    let failed := s.linkFails.any (fun (x, y, l, n) => x == a && y == b && l == link && 16 ≤ n)
    if !isSeam a b || 4 ≤ link || !(lock || failed) || (deadOf s a b).any (fun (_, _, l, _) => l == link) then s
    else
      let s1 := { s with
        deadLinks := s.deadLinks ++ [(a, b, link, s.cyc)]
        retry := s.retry.filter (fun e => !(e.1 == (a, b, link) || e.1 == (b, a, link))) }
      postFabric (reinject s1 (cut.filter (cutBy s a b link)) dup) 0x17 a (seamWord a b) link)

/-- The controller loads detour tables for a seam with no link left; their load time is in microseconds. -/
def detourTablesLoadedAt (a b : Nat) (s : State) : Host.Outcome State Fault Refusal :=
  event s (fun s =>
    let dead := deadOf s a b
    if dead.length < 4 || s.detours.contains (a, b) then s
    else
      let at_ := dead.foldl (fun acc (_, _, _, c) => max acc c) 0
      postFabric { s with detours := s.detours ++ [(a, b)] } 0x18 a (seamWord a b) ((s.cyc - at_) / 1500))

def execDetourTablesLoaded (s : State) : Host.Outcome State Fault Refusal := detourTablesLoadedAt (subject s 0) (subject s 1) s

/-! ### Ports (R379, R383) -/

/-- Every 1,024 ticks a site tells every other one, in class 6, the flits in its port's queue and whether its port is up. -/
def execPortQueueAdvertisement (site flits : Nat) (s : State) : Host.Outcome State Fault Refusal :=
  event s (fun s =>
    let x := findSite s site
    if !isSite site || cycAt s site / 1024 ≤ x.lpW then s
    else
      let lp := min flits 1023
      let s1 := onSite s site (fun x => { x with lp := lp, lpW := cycAt s site / 1024 })
      let s2 := (allSites.filter (· != site)).foldl (fun acc n => sendPacket acc site n 6 acc.nextId false [1, lp, if x.up then 1 else 0]) s1
      if x.up then s2 else moveToMesh s2 site)

/-- Too few wavelengths are live: at once in standard mode, after 10 µs in striped mode. -/
def portDownAt (site : Nat) (s : State) : Host.Outcome State Fault Refusal :=
  event s (fun s =>
    let x := findSite s site
    if x.up && !lanesSuffice x && (x.mode != 2 || x.lowAt + 15000 ≤ s.cyc) then portGoesDown s site else s)

def execPortDown (s : State) : Host.Outcome State Fault Refusal := portDownAt (subject s 0) s

/-- The proxy adds the down port's address and announces it. -/
def proxyAnnounceAt (site : Nat) (s : State) : Host.Outcome State Fault Refusal :=
  event s (fun s =>
    if !(findSite s site).up && (proxyOf s site).isSome then onSite s site (fun x => { x with proxied := true }) else s)

def execProxyAnnounce (s : State) : Host.Outcome State Fault Refusal := proxyAnnounceAt (subject s 0) s

/-- An enabled port trains in its mode; a striped one learns its peer's node and starts its link anew (R386, R418). -/
def execPortUp (site peer : Nat) (s : State) : Host.Outcome State Fault Refusal :=
  event s (fun s =>
    let x := findSite s site
    let out := x.dark.toNat ||| (x.rtv.toList ++ x.waitRetrain).foldl (fun acc w => acc ||| 2 ^ w) 0
    let live := BitVec.ofNat 16 (0xFFFF - out)
    let y := { x with live := live, trained := true, lowAt := s.cyc, peer := if x.mode == 2 then some peer else none
                      stripe := if x.mode == 2 then { rxAckAt := s.cyc, rxLive := live } else {} }
    if x.up || !x.joined || !x.opctl.getLsbD 63 || !lanesSuffice y then s
    else portComesUp (setSite s y) site)

/-- 50 µs after the handover the proxy forwards no more. -/
def proxyHandbackEndAt (site : Nat) (s : State) : Host.Outcome State Fault Refusal :=
  event s (fun s =>
    let x := findSite s site
    if x.handover && x.upAt + 75000 ≤ s.cyc then onSite s site (fun x => { x with handover := false }) else s)

def execProxyHandbackEnd (s : State) : Host.Outcome State Fault Refusal := proxyHandbackEndAt (subject s 0) s

end Sys2Proof.Machine
end

