-- ==== Sys2Proof/Machine/Optics.lean ====
section
/-!
DEFINITION. Wavelengths and the striped link of an optical port (20 R384 to R389, R392; 24 R418, R419).
-/

namespace Sys2Proof.Machine

open Sys2Proof

/-! ### The live set (R383, R387) -/

def liveCount (m : BitVec 16) : Nat := ((List.range 16).filter (fun i => m.getLsbD i)).length

def laneBit (w : Nat) : BitVec 16 := BitVec.ofNat 16 (2 ^ w)

/-- A wavelength and its laser module as fabric records show them (R392, log 35). -/
def laneWord (w : Nat) : Nat := 2 ^ w + w / 4 * 2 ^ 16

/-- A port sends flits. -/
def sendFlits (k : Stripe) (fs : List LinkFlit) : Stripe := { k with sent := k.sent ++ fs }

/-- Seq q lies at or after p in the order modulo 2^24. -/
def seqFrom (p q : Nat) : Bool := (q + 2 ^ 24 - p) % 2 ^ 24 < 2 ^ 23

/-- The kept flits from a seq on are sent again, each on its wavelength of the live set. -/
def resendFrom (k : Stripe) (live : BitVec 16) (seq : Nat) : Stripe :=
  sendFlits k ((k.kept.filter (fun e => seqFrom seq e.1)).map (fun (q, payload) =>
    { kind := 0, seq := q, ack := k.rxNext, payload := payload, wave := waveOf k.txBase live q }))

/-- A nak names the first seq that is missing. -/
def Stripe.nakFlit (k : Stripe) (live : BitVec 16) : LinkFlit :=
  { kind := 3, seq := k.rxNext, ack := k.rxNext, wave := controlWave live }

def Stripe.sendNak (k : Stripe) (live : BitVec 16) : Stripe := sendFlits k [k.nakFlit live]

/-- f on the link of a striped port that is up, beside its live set. -/
def onStripe (s : State) (site : Nat) (f : BitVec 16 → Stripe → Stripe) : State :=
  let x := findSite s site
  if x.up && x.mode == 2 then onSite s site (fun x => { x with stripe := f x.live x.stripe }) else s

/-- The live set changes. A striped port tells its peer by a lane-set flit on every wavelength of the new set: base the next
new seq for a planned change, else the oldest unacknowledged one, from which the flits go out again. Record 0x14. -/
def setLive (s : State) (site : Nat) (live : BitVec 16) (planned : Bool) : State :=
  let x := findSite s site
  let low := liveCount x.live < 4 && liveCount live < 4
  let s1 := onSite s site (fun x => { x with live := live, lowAt := if low then x.lowAt else s.cyc })
  if x.mode != 2 then s1
  else
    let b := if planned then x.stripe.txNext else x.stripe.txAck
    let k := sendFlits { x.stripe with txBase := b } ((waves live).map (fun w =>
      { kind := 2, seq := b, ack := x.stripe.rxNext, lset := live, wave := w }))
    postFabric (onSite s1 site (fun x => { x with stripe := if planned then k else resendFrom k live b })) 0x14 site live.toNat b

/-- The next wavelength that waits for retraining has its turn. -/
def nextRetrain (s : State) (site : Nat) : State :=
  onSite s site (fun x =>
    match x.rtv, x.waitRetrain with
    | none, w :: rest => { x with rtv := some w, waitRetrain := rest, tries := 0, retrainAt := s.cyc }
    | _, _ => x)

/-- A port that has trained in its mode comes up when the wavelengths that are live again suffice. -/
def upIfReady (s : State) (site : Nat) : State :=
  let x := findSite s site
  if !x.up && x.joined && x.opctl.getLsbD 63 && x.trained && lanesSuffice x then portComesUp s site else s

/-! ### Retraining (R388, R389) -/

/-- The exponent that a record 0x10 gives for a rate (log 35). -/
def rateExponent (errors : Nat) : Nat := ((List.range 10).filter (fun n => errors * 10 ^ n ≤ 2 ^ 30)).foldl max 0

/-- A wavelength is withdrawn and retrains. -/
def withdrawWave (site w errors : Nat) (s : State) : State :=
  let live := (findSite s site).live
  let s1 := onSite s site (fun x => { x with rtv := some w, tries := 0, retrainAt := s.cyc })
  setLive (postFabric s1 0x10 site (laneWord w) (rateExponent errors)) site (live &&& ~~~laneBit w) true

/-- A window of 2^30 bits with so many errors ends: a rate above 10^-berth withdraws the wavelength, unless another one is
withdrawn. -/
def execBerWindow (site w errors : Nat) (s : State) : Host.Outcome State Fault Refusal :=
  event s (fun s =>
    let x := findSite s site
    let berth := (x.opctl.extractLsb' 56 4).toNat
    if 16 ≤ w || !x.live.getLsbD w || x.rtv.isSome || !x.waitRetrain.isEmpty || errors * 10 ^ berth ≤ 2 ^ 30 then s
    else changeShares s site (withdrawWave site w errors))

/-- The result of an attempt to retrain: live again, another attempt, or dark after the third. -/
def retrained (site w : Nat) (ok : Bool) (s : State) : State :=
  let x := findSite s site
  if ok then
    let s1 := onSite s site (fun x => { x with rtv := none })
    let s2 := postFabric s1 0x11 site (laneWord w) ((s.cyc - x.retrainAt) / 1500)
    nextRetrain (upIfReady (setLive s2 site (x.live ||| laneBit w) true) site) site
  else if x.tries + 1 < 3 then onSite s site (fun x => { x with tries := x.tries + 1 })
  else
    let s1 := onSite s site (fun x => { x with rtv := none, dark := x.dark ||| laneBit w })
    nextRetrain (postFabric s1 0x13 site (laneWord w) 3) site

/-- An attempt to retrain ends; it has used mesh of the retrain class, under its budget (R335, R337). -/
def execRetrainResult (site : Nat) (ok : Bool) (s : State) : Host.Outcome State Fault Refusal :=
  event s (fun s =>
    match (findSite s site).rtv with
    | none => s
    | some w =>
      if !mayUse s site 7 { mesh := 1 } then s
      else changeShares (spend s site 7 { mesh := 1 }) site (retrained site w ok))

/-- The wavelengths of a laser module. -/
def moduleMask (module : Nat) : BitVec 16 := BitVec.ofNat 16 (15 * 16 ^ module)

/-- A module's wavelengths go dark at a port. -/
def darken (site module : Nat) (byReceiver : Bool) (s : State) : State :=
  let x := findSite s site
  let mask := moduleMask module
  let again := if x.mode == 2 then x.stripe.held else 0
  let inMod (w : Nat) : Bool := w / 4 == module
  let s1 := onSite s site (fun x => { x with
    dark := x.dark ||| mask, rtv := x.rtv.filter (fun w => !inMod w), waitRetrain := x.waitRetrain.filter (fun w => !inMod w) })
  let live := x.live &&& ~~~mask
  let s1 := onStripe s1 site (fun _ k => if byReceiver then k.sendNak live else k)
  let s2 := postFabric s1 0x12 site (mask.toNat + module * 2 ^ 16) again
  let s3 := setLive { s2 with cyc := s.cyc + 2 } site live false
  nextRetrain { s3 with cyc := s.cyc } site

/-- Loss of light on a laser module is declared: its wavelengths are dark, records 0x12 and, two cycles later, 0x14. Where the
port declares it as the receiver, it sends a nak first. -/
def loseLight (s : State) (site module : Nat) (byReceiver : Bool) : State :=
  let x := findSite s site
  let mask := moduleMask module
  if x.dark &&& mask == mask then s
  else changeShares s site (darken site module byReceiver)

def execLossOfLight (site module : Nat) (s : State) : Host.Outcome State Fault Refusal :=
  event s (fun s => if 4 ≤ module then s else loseLight s site module (Config.lossSeenByPeer s.freeCtr))

/-- The answer to a management command: completion code 0 for done, 1 for refused (R406). -/
def answerMgmt (s : State) (code : Nat) (refused : Bool) : State :=
  { s with mgmt := s.mgmt ++ [(code, if refused then 1 else 0)] }

/-- A dark wavelength is to retrain. -/
def relight (site w : Nat) (s : State) : State :=
  nextRetrain (onSite s site (fun x => { x with dark := x.dark &&& ~~~laneBit w, waitRetrain := x.waitRetrain ++ [w] })) site

/-- Command 0x03 (R389, R406): a dark wavelength retrains; refused without light on it, or when it is not dark. -/
def execRestoreDarkWavelength (site w : Nat) (light : Bool) (s : State) : Host.Outcome State Fault Refusal :=
  event s (fun s =>
    if !light || 16 ≤ w || !(findSite s site).dark.getLsbD w then answerMgmt s 3 true
    else answerMgmt (changeShares s site (relight site w)) 3 false)

/-! ### The striped link (R385, R386) -/

/-- Held flits that are next in order are delivered. -/
def Stripe.drain : Nat → Stripe → Stripe
  | 0, k => k
  | n + 1, k =>
    match k.rxHeld.find? (fun e => e.1 == k.rxNext) with
    | none => k
    | some (q, bs) =>
      Stripe.drain n { k with rxNext := (k.rxNext + 1) % 2 ^ 24, rxHeld := k.rxHeld.filter (fun e => e.1 != q)
                              rxBytes := k.rxBytes ++ bs, rxCount := k.rxCount + 1 }

def Stripe.sendAck (k : Stripe) (live : BitVec 16) (now : Nat) : Stripe :=
  { sendFlits k [{ kind := 1, seq := 0, ack := k.rxNext, wave := controlWave live }] with rxCount := 0, rxAckAt := now }

/-- A cumulative acknowledgement frees the flits below it. -/
def Stripe.takeAck (k : Stripe) (ack : Nat) : Stripe :=
  if (ack + 2 ^ 24 - k.txAck) % 2 ^ 24 ≤ k.held then { k with txAck := ack % 2 ^ 24, kept := k.kept.filter (fun e => seqFrom ack e.1) }
  else k

/-- The wavelength is that of the data flit: its position under the base that the receiver has switched to; flits below that
base went out under the one before (R386, R387; log 117). -/
def Stripe.inPlace (k : Stripe) (wave seq : Nat) : Bool := !seqFrom k.rxBase seq || wave == waveOf k.rxBase k.rxLive seq

/-- A data flit: discarded when it was delivered or is held, else delivered in order. -/
def Stripe.data (k : Stripe) (live : BitVec 16) (wave seq : Nat) (payload : List Byte) (now : Nat) : Stripe :=
  if !k.inPlace wave seq || !seqFrom k.rxNext seq || k.rxHeld.any (fun e => e.1 == seq) then k
  else
    let k1 := Stripe.drain (k.rxHeld.length + 1) { k with rxHeld := k.rxHeld ++ [(seq, payload)] }
    let gap := if k1.rxHeld.isEmpty then none
      else if k1.rxNext != k.rxNext then some now
      else some (k.rxGap.getD now)
    let k2 := { k1 with rxGap := gap }
    if 16 ≤ k2.rxCount then k2.sendAck live now else k2

/-- The flits of the packet at the head of delivered bytes (R374). -/
def packetBytes (bs : List Byte) : Nat := 64 * (1 + ((BitVec.ofNat 64 (ofBytes (bs.take 8))).extractLsb' 38 4).toNat)

/-- The whole packets that a striped port has delivered enter the module. -/
def handPackets (site : Nat) : Nat → State → State
  | 0, s => s
  | n + 1, s =>
    let bs := (findSite s site).stripe.rxBytes
    if bs.length < 64 || bs.length < packetBytes bs then s
    else
      let s1 := onSite s site (fun x => { x with stripe := { x.stripe with rxBytes := bs.drop (packetBytes bs) } })
      handPackets site n (handPeer s1 site (bs.take (packetBytes bs)))

/-- A link flit as it comes, when its CRC holds: dword 0, the 240 bytes after it, and of dword 31 the lane set, the reserved
bits and the CRC (R385). -/
def readFlit (wave : Nat) (d0 : DWord) (body : List Byte) (lset rest : BitVec 16) (crc : Word) : Option LinkFlit :=
  if crc32 (toBytes 8 d0.toNat ++ body ++ toBytes 2 rest.toNat ++ toBytes 2 lset.toNat) != crc then none
  else some { kind := (d0.extractLsb' 12 4).toNat, ack := (d0.extractLsb' 16 24).toNat, seq := (d0.extractLsb' 40 24).toNat
              payload := body, lset := lset, wave := wave }

/-- What a flit of the peer does to the link. Kinds 4 to 15 are never sent. -/
def Stripe.take (k : Stripe) (live : BitVec 16) (f : LinkFlit) (now : Nat) : Stripe :=
  let k1 := k.takeAck f.ack
  match f.kind with
  | 0 => k1.data live f.wave f.seq f.payload now
  | 2 => { k1 with rxLive := f.lset, rxBase := f.seq }
  | 3 => resendFrom k1 live f.seq
  | _ => k1

/-- The module whose light the peer has lost, as its lane set shows: none of its wavelengths is left of more than one
(R389, log 104). -/
def lostModule (old new : BitVec 16) : Option Nat :=
  (List.range 4).find? (fun m => new &&& moduleMask m == 0#16 && 2 ≤ liveCount (old &&& moduleMask m))

/-- A flit of the peer arrives on a wavelength, of 256 bytes (R385 to R387, R389). -/
def execStripedFlitReceive (site wave : Nat) (d0 : DWord) (body : List Byte) (lset rest : BitVec 16) (crc : Word) (s : State) :
    Host.Outcome State Fault Refusal :=
  event s (fun s =>
    let x := findSite s site
    if !x.up || x.mode != 2 || body.length != 240 then s
    else match readFlit wave d0 body lset rest crc with
      | none => onStripe s site (fun live k => k.sendNak live)
      | some f =>
        let s1 := onStripe s site (fun live k => k.take live f s.cyc)
        if f.kind == 2 then ((lostModule x.stripe.rxLive f.lset).map (fun m => loseLight s1 site m false)).getD s1
        else if f.kind == 0 then handPackets site (findSite s1 site).stripe.rxBytes.length s1
        else s1)

/-- An acknowledgement is due after 16 flits or 300 cycles. -/
def stripedAckTimerAt (site : Nat) (s : State) : Host.Outcome State Fault Refusal :=
  event s (fun s => onStripe s site (fun live k =>
    if 16 ≤ k.rxCount || k.rxAckAt + 300 ≤ s.cyc then k.sendAck live s.cyc else k))

def execStripedAckTimer (s : State) : Host.Outcome State Fault Refusal := stripedAckTimerAt (subject s 0) s

/-- A gap that lasts 300 cycles. -/
def stripedGapTimeoutAt (site : Nat) (s : State) : Host.Outcome State Fault Refusal :=
  event s (fun s => onStripe s site (fun live k =>
    match k.rxGap with
    | some t => if t + 300 ≤ s.cyc then { k.sendNak live with rxGap := some s.cyc } else k
    | none => k))

def execStripedGapTimeout (s : State) : Host.Outcome State Fault Refusal := stripedGapTimeoutAt (subject s 0) s

/-- A nak: every kept flit from the named seq on goes out again. -/
def execNakReceive (site seq ack : Nat) (s : State) : Host.Outcome State Fault Refusal :=
  event s (fun s => onStripe s site (fun live k => resendFrom (k.takeAck ack) live seq))

end Sys2Proof.Machine
end

