-- ==== Sys2Proof/Machine/Rotation.lean ====
section
/-!
DEFINITION. The scan rotation of a site (19 R362 to R364), the error records that are sent again (R372) and the time of
the management controller (R373).
-/

namespace Sys2Proof.Machine

open Sys2Proof

/-! ### Scan rotation -/

/-- A unit of the site drains or is scanned: at most one does. -/
def unitDraining (s : State) (u : UnitId) : Bool := unitScan s u == .drain || unitScan s u == .scan

/-- The unit whose turn comes: the next live one in ascending identifier. -/
def turnUnit (s : State) (site : Nat) : Option UnitId :=
  let us := (siteUnits s site).filter (unitLive s)
  match us.find? (fun u => (findSite s site).turn ≤ u.unit) with
  | some u => some u
  | none => us.head?

/-- The scan class has issue budget in the window (R335, R337). -/
def scanBudget (s : State) (site : Nat) : Bool :=
  mayUse s site 0 { issue := 1 }

def scanTurnAt (site : Nat) (s : State) : Host.Outcome State Fault Refusal :=
  event s (fun s =>
    if (siteUnits s site).any (unitDraining s) || !scanBudget s site then s
    else match turnUnit s site with
      | some u => onSite (setUnitScan s u .drain) site (fun x => { x with turn := u.unit + 1 })
      | none => s)

def execScanTurn (s : State) : Host.Outcome State Fault Refusal := scanTurnAt (subject s 0) s

/-- The cyc at which the unit's present scan state began. -/
def scanSince (s : State) (u : UnitId) : Nat :=
  if u.engine then (findCluster s u.site u.phys).scanAt else (findCore s u.coreId).scanAt

/-- Nothing is left on the unit: no resident team on a core, no command in an engine's table. -/
def unitEmpty (s : State) (u : UnitId) : Bool :=
  if u.engine then (findCluster s u.site u.phys).cmds.isEmpty else (residents s u.coreId).isEmpty

def scanDrainDoneAt (unit : Nat) (s : State) : Host.Outcome State Fault Refusal :=
  event s (fun s =>
    let u := unitIdOf unit
    if unitScan s u == .drain && unitEmpty s u then setUnitScan s u .scan else s)

def execScanDrainDone (s : State) : Host.Outcome State Fault Refusal := scanDrainDoneAt (subject s 0) s

/-- After 2^22 cycles the teams of a draining core are asked to leave, each with its unit. -/
def scanDrainTimeoutAt (unit : Nat) (s : State) : Host.Outcome State Fault Refusal :=
  event s (fun s =>
    let u := unitIdOf unit
    if u.engine || unitScan s u != .drain || s.cyc < scanSince s u + 2 ^ 22 then s
    else
      let uids := (residents s u.coreId).flatMap (fun t => unitOf s t.uid)
      askLeave s (fun t => uids.contains t.uid) 0)

def execScanDrainTimeout (s : State) : Host.Outcome State Fault Refusal := scanDrainTimeoutAt (subject s 0) s

/-- The scan team runs the next required set, once the scan class has given the core-cycles that it takes, and after the last
one the unit has passed (R362; log 111 tells what stands for the scan team). -/
def scanCompleteAt (unit : Nat) (s : State) : Host.Outcome State Fault Refusal :=
  event s (fun s =>
    let u := unitIdOf unit
    if unitScan s u != .scan then s
    else match (requiredSets s u)[unitScanSet s u]? with
      | none => scanPassed s u
      | some set =>
        let key := (4, unit, set)
        let (s1, ok) := payOn s key u.site 0 { issue := Config.scanCycles unit set }
        if !ok then s1
        else
          let s2 := tick (endPayment s1 key)
          let r := scanRun s u set
          if r != 0 then scanFailed s2 u set (r - 1)
          else if unitScanSet s u + 1 < (requiredSets s u).length then setScanSet s2 u (unitScanSet s u + 1)
          else scanPassed s2 u)

def execScanComplete (s : State) : Host.Outcome State Fault Refusal := scanCompleteAt (subject s 0) s

/-! ### Records and time -/

/-- R372: a record whose message is not acknowledged is sent again; `ack` says whether this message is. -/
def execErrorRecordResend (seq : Nat) (ack : Bool) (s : State) : Host.Outcome State Fault Refusal :=
  event s (fun s => { s with errs := s.errs.map (fun r =>
    if r.seq == seq && !r.acked then { r with sends := r.sends + 1, acked := ack } else r) })

/-- R373: every millisecond, 1,500,000 ticks, `cyc` is sampled against the controller's time `ns`. -/
def execPtpSample (ns : Nat) (s : State) : Host.Outcome State Fault Refusal :=
  event s (fun s => if s.ptp.cyc + 1500000 ≤ s.cyc then { s with ptp := { s.ptp with cyc := s.cyc, ns := ns } } else s)

/-- R373: a message of the grandmaster: the offset that is left, and the lock below 1 µs. -/
def execPtpSyncMessage (offset : Nat) (s : State) : Host.Outcome State Fault Refusal :=
  event s (fun s => { s with ptp := { s.ptp with offset := offset, lock := decide (offset < 1000) } })

end Sys2Proof.Machine
end

