-- ==== Sys2Proof/Machine/Sha.lean ====
section
/-!
DEFINITION. SHA-512, which 21 R399 and R401 name: the digest function of FIPS 180-4 (log 119).
-/

namespace Sys2Proof.Machine

open Sys2Proof

/-- The round constants: the first 64 bits of the fractional parts of the cube roots of the first 80 primes. -/
def shaK : List DWord :=
  [0x428a2f98d728ae22#64, 0x7137449123ef65cd#64, 0xb5c0fbcfec4d3b2f#64, 0xe9b5dba58189dbbc#64,
   0x3956c25bf348b538#64, 0x59f111f1b605d019#64, 0x923f82a4af194f9b#64, 0xab1c5ed5da6d8118#64] ++
  [0xd807aa98a3030242#64, 0x12835b0145706fbe#64, 0x243185be4ee4b28c#64, 0x550c7dc3d5ffb4e2#64,
   0x72be5d74f27b896f#64, 0x80deb1fe3b1696b1#64, 0x9bdc06a725c71235#64, 0xc19bf174cf692694#64] ++
  [0xe49b69c19ef14ad2#64, 0xefbe4786384f25e3#64, 0x0fc19dc68b8cd5b5#64, 0x240ca1cc77ac9c65#64,
   0x2de92c6f592b0275#64, 0x4a7484aa6ea6e483#64, 0x5cb0a9dcbd41fbd4#64, 0x76f988da831153b5#64] ++
  [0x983e5152ee66dfab#64, 0xa831c66d2db43210#64, 0xb00327c898fb213f#64, 0xbf597fc7beef0ee4#64,
   0xc6e00bf33da88fc2#64, 0xd5a79147930aa725#64, 0x06ca6351e003826f#64, 0x142929670a0e6e70#64] ++
  [0x27b70a8546d22ffc#64, 0x2e1b21385c26c926#64, 0x4d2c6dfc5ac42aed#64, 0x53380d139d95b3df#64,
   0x650a73548baf63de#64, 0x766a0abb3c77b2a8#64, 0x81c2c92e47edaee6#64, 0x92722c851482353b#64] ++
  [0xa2bfe8a14cf10364#64, 0xa81a664bbc423001#64, 0xc24b8b70d0f89791#64, 0xc76c51a30654be30#64,
   0xd192e819d6ef5218#64, 0xd69906245565a910#64, 0xf40e35855771202a#64, 0x106aa07032bbd1b8#64] ++
  [0x19a4c116b8d2d0c8#64, 0x1e376c085141ab53#64, 0x2748774cdf8eeb99#64, 0x34b0bcb5e19b48a8#64,
   0x391c0cb3c5c95a63#64, 0x4ed8aa4ae3418acb#64, 0x5b9cca4f7763e373#64, 0x682e6ff3d6b2b8a3#64] ++
  [0x748f82ee5defb2fc#64, 0x78a5636f43172f60#64, 0x84c87814a1f0ab72#64, 0x8cc702081a6439ec#64,
   0x90befffa23631e28#64, 0xa4506cebde82bde9#64, 0xbef9a3f7b2c67915#64, 0xc67178f2e372532b#64] ++
  [0xca273eceea26619c#64, 0xd186b8c721c0c207#64, 0xeada7dd6cde0eb1e#64, 0xf57d4f7fee6ed178#64,
   0x06f067aa72176fba#64, 0x0a637dc5a2c898a6#64, 0x113f9804bef90dae#64, 0x1b710b35131c471b#64] ++
  [0x28db77f523047d84#64, 0x32caab7b40c72493#64, 0x3c9ebe0a15c9bebc#64, 0x431d67c49c100d4c#64,
   0x4cc5d4becb3e42b6#64, 0x597f299cfc657e2a#64, 0x5fcb6fab3ad6faec#64, 0x6c44198c4a475817#64]

/-- The first hash value: of the square roots of the first 8 primes. -/
def shaInit : List DWord :=
  [0x6a09e667f3bcc908#64, 0xbb67ae8584caa73b#64, 0x3c6ef372fe94f82b#64, 0xa54ff53a5f1d36f1#64,
   0x510e527fade682d1#64, 0x9b05688c2b3e6c1f#64, 0x1f83d9abfb41bd6b#64, 0x5be0cd19137e2179#64]

def shaRot (x : DWord) (n : Nat) : DWord := x.rotateRight n

/-- The next word of the message schedule from the last 16, the newest first. -/
def shaNext (w : List DWord) : DWord :=
  let x := w.getD 14 0#64
  let y := w.getD 1 0#64
  w.getD 15 0#64 + (shaRot x 1 ^^^ shaRot x 8 ^^^ (x >>> 7)) + w.getD 6 0#64 + (shaRot y 19 ^^^ shaRot y 61 ^^^ (y >>> 6))

/-- One round: the eight working variables, a schedule word and a constant. -/
def shaRound (v : List DWord) (w k : DWord) : List DWord :=
  match v with
  | [a, b, c, d, e, f, g, h] =>
    let t1 := h + (shaRot e 14 ^^^ shaRot e 18 ^^^ shaRot e 41) + ((e &&& f) ^^^ (~~~e &&& g)) + k + w
    let t2 := (shaRot a 28 ^^^ shaRot a 34 ^^^ shaRot a 39) + ((a &&& b) ^^^ (a &&& c) ^^^ (b &&& c))
    [t1 + t2, a, b, c, d + t1, e, f, g]
  | _ => v

/-- The rounds of a block: the first 16 words of the schedule are the block's, newest first; a round takes the oldest. -/
def shaRounds : List DWord → List DWord → List DWord → List DWord
  | [], _, v => v
  | k :: ks, w, v => shaRounds ks ((shaNext w :: w).take 16) (shaRound v (w.getD 15 0#64) k)

def bigEndian (bs : List Byte) : DWord := BitVec.ofNat 64 (ofBytes bs.reverse)

/-- A block of 128 bytes. -/
def shaBlock (h : List DWord) (block : List Byte) : List DWord :=
  let w := ((List.range 16).map (fun j => bigEndian ((block.drop (8 * j)).take 8))).reverse
  (h.zip (shaRounds shaK w h)).map (fun (x, y) => x + y)

/-- The padded message: a one bit, zeros, and the length in bits as 16 bytes. -/
def shaPad (bs : List Byte) : List Byte :=
  bs ++ [0x80#8] ++ List.replicate ((239 - bs.length % 128) % 128) 0#8 ++ (toBytes 16 (8 * bs.length)).reverse

def sha512 (bs : List Byte) : List Byte :=
  let m := shaPad bs
  let h := (List.range (m.length / 128)).foldl (fun h k => shaBlock h ((m.drop (128 * k)).take 128)) shaInit
  h.flatMap (fun x => (toBytes 8 x.toNat).reverse)

end Sys2Proof.Machine
end

