-- ==== Sys2Proof/Machine/Firmware.lean ====
section
/-!
DEFINITION. The management controller: configuration records (21 R399), resets and bring-up (R400, R402 to R405),
attestation (R401), its commands (R406) and the core clock (R407).
-/

namespace Sys2Proof.Machine

open Sys2Proof

/-! ### Configuration records (R399) -/

def recDword (r : List Byte) (k : Nat) : Nat := ofBytes ((r.drop (8 * k)).take 8)
def recKind (r : List Byte) : Nat := bits (recDword r 0) 39 32
def recLen (r : List Byte) : Nat := bits (recDword r 0) 31 0
def recSvn (r : List Byte) : Nat := bits (recDword r 1) 63 32
def recSeq (r : List Byte) : Nat := bits (recDword r 1) 31 0
def recBody (r : List Byte) : List Byte := (r.drop 16).take (recLen r)

/-- The four parts of a record: header, body, padding to a multiple of 8 bytes, and 132 bytes of signature. -/
def recFormed (r : List Byte) : Bool :=
  bits (recDword r 0) 63 48 == 0x4352 && bits (recDword r 0) 47 40 == 1 && recLen r ≤ 2 ^ 24 &&
  r.length == 16 + ceilDiv (recLen r) 8 * 8 + 132 &&
  ((r.drop (16 + recLen r)).take (ceilDiv (recLen r) 8 * 8 - recLen r)).all (· == 0#8)

/-- The floor that a record of kind 2 gives for a kind: one of 256 values of 4 bytes (log 34). -/
def floorIn (r : List Byte) (kind : Nat) : Nat := ofBytes (((recBody r).drop (4 * kind)).take 4)

/-- a applies before b: the higher svn, then the higher sequence number. -/
def recBefore (a b : List Byte) : Bool := recSvn b < recSvn a || (recSvn a == recSvn b && recSeq b ≤ recSeq a)

def bestRec : List (List Byte) → Option (List Byte)
  | [] => none
  | r :: rest =>
    match bestRec rest with
    | none => some r
    | some q => some (if recBefore r q then r else q)

/-- The signature under the controller's own key, as a record of kind 8 carries it (R404). -/
def selfSigned (r : List Byte) : Bool :=
  let body := r.take (r.length - 132)
  recKind r == 8 && r.drop (r.length - 132) == (Config.controllerSignature body ++ List.replicate 132 0#8).take 132

/-- The signature verifies under the key of its kind's signer: the root key for kind 1, else one certified in a record of
kind 1; the map that the controller writes carries its own. -/
def signedUnder (certs r : List Byte) : Bool :=
  recFormed r && (Config.signatureOk (if recKind r == 1 then none else some certs) r || selfSigned r)

/-- The floor for a kind while a record of kind 1 certifies the signers: that of the applying floor record, 0 without
one. -/
def floorUnder (flash : List (List Byte)) (certs : List Byte) (kind : Nat) : Nat :=
  match bestRec (flash.filter (fun r => signedUnder certs r && recKind r == 2 && floorIn r 2 ≤ recSvn r)) with
  | some r => floorIn r kind
  | none => 0

/-- The applying record of kind 1: the best that the root key signs and the floor lets pass; without one, that of
manufacture. -/
def signerRecord (flash : List (List Byte)) : List Byte :=
  (bestRec (flash.filter (fun r => recKind r == 1 && signedUnder r r && floorUnder flash r 1 ≤ recSvn r))).getD (Config.factory 1)

def recSigned (flash : List (List Byte)) (r : List Byte) : Bool := signedUnder (signerRecord flash) r

def svnFloor (flash : List (List Byte)) (kind : Nat) : Nat := floorUnder flash (signerRecord flash) kind

def recAccepted (flash : List (List Byte)) (r : List Byte) : Bool :=
  recSigned flash r && svnFloor flash (recKind r) ≤ recSvn r && 1 ≤ recKind r && recKind r ≤ 9

/-- The record of a kind, and of an image for kind 5, that applies. -/
def appliesOf (flash : List (List Byte)) (kind image : Nat) : Option (List Byte) :=
  bestRec (flash.filter (fun r => recAccepted flash r && recKind r == kind && (kind != 5 || Config.imageOf r == image)))

/-- The records that a boot applies (R400): those of step 2 and the controller's image once these steps are behind it, the site
firmware and the scan record after step 4, and the defect map with which bring-up starts. `stop` is the step that fails, 7 for
none. -/
def appliedRecords (flash : List (List Byte)) (stop : Nat := 7) : List (List Byte) :=
  if flash.isEmpty then []
  else (if stop ≤ 2 then [] else [1, 2, 3, 4, 7, 9].filterMap (fun k => appliesOf flash k 0)) ++
    (if stop ≤ 4 then [] else [6, 8].filterMap (fun k => appliesOf flash k 0)) ++
    ((List.range 256).filterMap (fun i => if (if i == 0 then stop ≤ 1 else stop ≤ 4) then none else appliesOf flash 5 i))

/-- A configuration field: from the applied record of its kind, else the value that came with the module (log 9). -/
def cfgField (applied : List (List Byte)) (kind field default : Nat) : Nat :=
  match applied.find? (fun r => recKind r == kind) with
  | some r => Config.recordField r field
  | none => default

/-! ### Bring-up (R402 to R405) -/

/-- The tests of a bring-up that fail: units, sites whose DRAM fails, seams with no link that passes. -/
structure Tests where
  units : List Nat
  dram : List Nat
  seams : List Nat
  deriving DecidableEq, Repr

/-- R4. -/
def isHem (n : Nat) : Bool := (neighbours n).length < 4

/-- A core of the site passed. -/
def sitePasses (t : Tests) (n : Nat) : Bool :=
  t.units.isEmpty || (List.range 10).any (fun p => (List.range 4).any (fun k => !t.units.contains (CoreId.unit ⟨n, p, k⟩)))

/-- One step of the wave: each untested site across a live seam from a frontier site is tested. -/
def waveStep (t : Tests) (tested : List Nat) : List Nat :=
  tested ++ (allSites.filter (fun n => !tested.contains n && (neighbours n).any (fun m =>
    tested.contains m && sitePasses t m && !t.seams.contains (seamWord (min n m) (max n m)))))

/-- The wave from the hem inward. -/
def wave (t : Tests) : Nat → List Nat → List Nat
  | 0, tested => tested
  | k + 1, tested =>
    let next := waveStep t tested
    if next.length == tested.length then tested else wave t k next

def testedSites (t : Tests) : List Nat := wave t 56 (allSites.filter isHem)

/-- A cluster position fails: its engine, or two of its cores (R405). -/
def positionFails (t : Tests) (n p : Nat) : Bool :=
  t.units.contains (engineUnit n p) || 2 ≤ ((List.range 4).filter (fun k => t.units.contains (CoreId.unit ⟨n, p, k⟩))).length

/-- The logical clusters of a row by position, `none` for the spare: positions 0 to 4 hold 0 to 3 (R403). -/
def rowStart : List (Option Nat) := [some 0, some 1, some 2, some 3, none]

/-- The first failure of a row: the logical clusters from the highest down to the failed one move one position toward the
spare. A failure of the spare changes nothing. -/
def shiftRow (row : List (Option Nat)) (p : Nat) : List (Option Nat) :=
  match row.getD p none with
  | none => row
  | some _ => (row.take p ++ [none] ++ row.drop p).take 5

/-- A later failure withdraws the cluster that sits there (R404). -/
def withdraw (row : List (Option Nat)) (p : Nat) : List (Option Nat) := row.set p none

/-- A row after its failures, in the order in which they were found. -/
def remapRow (failed : List Nat) : List (Option Nat) :=
  match failed with
  | [] => rowStart
  | p :: rest => rest.foldl withdraw (shiftRow rowStart p)

/-- `lmap` nibbles of a row: the position of each logical cluster, 0xF for one withdrawn. -/
def lmapRow (base : Nat) (row : List (Option Nat)) : Nat :=
  (List.range 4).foldl (fun acc l =>
    let pos := row.findIdx (· == some l)
    acc + (if pos < 5 then base + pos else 15) * 16 ^ l) 0

/-- `sitesta` of a tested site from the failed positions in order (R397, R403, R404). -/
def liveMap (mem up : Bool) (failed : List Nat) : DWord :=
  let rows := [remapRow (failed.filter (· < 5)), remapRow ((failed.filter (5 ≤ ·)).map (· - 5))]
  let nadv := (rows.flatMap id).countP Option.isSome
  let dead := failed.foldl (fun acc p => acc ||| 2 ^ p) 0
  boolBit mem 63 ||| boolBit up 62 |||
  BitVec.ofNat 64 (dead * 2 ^ 52 + nadv * 2 ^ 48 + lmapRow 5 (rows.getD 1 []) * 2 ^ 16 + lmapRow 0 (rows.getD 0 []))

/-- `sitesta` of an isolated site: nothing of it is in use (R402). -/
def isolatedSta : DWord := BitVec.ofNat 64 (1023 * 2 ^ 52 + 0xFFFFFFFF)

/-- The positions that were quarantined while the module ran (R404). -/
def quarantinedPositions (s : State) : List (Nat × Nat) :=
  s.clusters.filterMap (fun c => if clusterRemoved s c.site c.phys then some (c.site, c.phys) else none) ++
  (s.cores.filterMap (fun c => if clusterRemoved s c.id.site c.id.cluster then some (c.id.site, c.id.cluster) else none))

/-- The failed positions in a record of kind 8: two bytes each, before the 56 dwords of the live map (log 34). -/
def recDefects (r : List Byte) : List (Nat × Nat) :=
  let b := recBody r
  (List.range ((b.length - 448) / 2)).map (fun k =>
    let x := ofBytes ((b.drop (2 * k)).take 2)
    (x / 16, x % 16))

/-- The map only gains failures: those of before and of the applied record, those of the run, those that the tests find,
by position. -/
def newDefects (s : State) (t : Tests) : List (Nat × Nat) :=
  let found := t.units.map (fun u => ((unitIdOf u).site, (unitIdOf u).phys))
  let shipped := ((appliedRecords s.flash).filter (fun r => recKind r == 8)).flatMap recDefects
  let add := shipped ++ (quarantinedPositions s) ++ found.filter (fun (n, p) => positionFails t n p)
  add.foldl (fun acc e => if acc.contains e then acc else acc ++ [e]) s.defects

/-- The site as the records and bring-up leave it; `late` says that bring-up has ended. A record of kind 7 loads `rsw` and the
whole of `opctl`: its body holds both registers of each site (R399), although the Reset columns of `rsw` and of `opctl.berth`
show numbers (log 9). -/
def bootSite (applied : List (List Byte)) (t : Tests) (defects : List (Nat × Nat)) (tested : List Nat) (late : Bool) (n : Nat) : Site :=
  let base : Site := { n := n }
  let failed := (defects.filter (·.1 == n)).map (·.2)
  let reached := tested.contains n
  let opctl := BitVec.ofNat 64 (cfgField applied 7 (2 * n) base.opctl.toNat) &&& 0xFF00000000000000#64
  let bgt := (List.range 8).map (fun k => BitVec.ofNat 64 (cfgField applied 4 (64 + k) ((base.bgt.getD k 0#64).toNat) % 2 ^ 32))
  { base with
    part := cfgField applied 4 n 0 % 16
    sta := if !late then 0xFFFFFFFF#64 else if reached then liveMap (!t.dram.contains n) (sitePasses t n) failed else isolatedSta
    sysbase := BitVec.ofNat 64 (cfgField applied 9 n 0) &&& 0xFC0000000#64
    bgt := bgt, bgtNow := bgt
    rsw := BitVec.ofNat 64 (cfgField applied 7 (2 * n + 1) base.rsw.toNat) &&& 0x0000FFFFFF000000#64
    opctl := if reached || !late then opctl else opctl &&& 0x7FFFFFFFFFFFFFFF#64 }

/-- The site comes out of bring-up as it is listed at reset. -/
def bootPlain (applied : List (List Byte)) (t : Tests) (defects : List (Nat × Nat)) (tested : List Nat) (n : Nat) : Bool :=
  applied.isEmpty && tested.contains n && !t.dram.contains n && sitePasses t n && !defects.any (·.1 == n)

/-- Units that stay out of service: quarantined ones keep that state and every unit its score; those whose tests fail
are failed. -/
def bootCores (s : State) (t : Tests) : List Core :=
  let kept := s.cores.filterMap (fun c =>
    if c.score == 0 && c.scan != .quarantined then none
    else some { id := c.id, score := c.score, scan := if c.scan == .quarantined then .quarantined else .serve })
  t.units.foldl (fun acc u =>
    let i := unitIdOf u
    if i.engine then acc
    else
      let c := (acc.find? (·.id == i.coreId)).getD { id := i.coreId }
      acc.filter (·.id != i.coreId) ++ [{ c with scan := if c.scan == .quarantined then .quarantined else .failed }]) kept

def bootClusters (s : State) (t : Tests) : List Cluster :=
  let kept := s.clusters.filterMap (fun c =>
    if c.score == 0 && c.scan != .quarantined then none
    else some { site := c.site, phys := c.phys, score := c.score, scan := if c.scan == .quarantined then .quarantined else .serve })
  t.units.foldl (fun acc u =>
    let i := unitIdOf u
    if !i.engine then acc
    else
      let same (c : Cluster) : Bool := c.site == i.site && c.phys == i.phys
      let c := (acc.find? same).getD { site := i.site, phys := i.phys }
      acc.filter (fun c => !same c) ++ [{ c with scan := if c.scan == .quarantined then .quarantined else .failed }]) kept

/-- Memory that belongs to none of these wafers outlives a reset: host memory and that of other modules. The module's own reads
as after power-on (log 36). -/
def outside (wafers : List Nat) (key : Nat) : Bool := !wafers.contains (key / 2 ^ 52)

/-- The live map, site by site. -/
def mapOf (sta : Nat → DWord) : List Byte := allSites.flatMap (fun n => toBytes 8 (sta n).toNat)

/-- The failed positions and the live map, site by site: the module's actual counts (R6). -/
def mapBody (defects : List (Nat × Nat)) (sta : Nat → DWord) : List Byte :=
  defects.flatMap (fun (n, p) => toBytes 2 (n * 16 + p)) ++ mapOf sta

/-- The record of kind 8 that ends bring-up: the live map under the controller's signature, the next of its kind (R404). -/
def mapRecord (flash : List (List Byte)) (body : List Byte) : List Byte :=
  let last := ((flash.filter (fun r => recKind r == 8)).map recSeq).foldl max 0
  let plain := toBytes 8 (0x4352 * 2 ^ 48 + 2 ^ 40 + 8 * 2 ^ 32 + body.length) ++
    toBytes 8 (svnFloor flash 8 * 2 ^ 32 + (last + 1)) ++ body ++
    List.replicate (ceilDiv body.length 8 * 8 - body.length) 0#8
  plain ++ (Config.controllerSignature plain ++ List.replicate 132 0#8).take 132

/-- The steps of R400 on a module that keeps its flash, its scores and its defect map, up to the one that fails, 7 for none. A
warm reset skips steps 1 and 3: the controller's image that runs goes on, and so does `cyc`. The controller reports a boot
that stops (R372; log 36). -/
def boot (s : State) (t : Tests) (stop : Nat := 7) (warm : Bool := false) : State :=
  let late : Bool := 6 ≤ stop
  let found := appliedRecords s.flash stop
  let image (r : List Byte) : Bool := recKind r == 5 && Config.imageOf r == 0
  let applied := if warm then found.filter (fun r => !image r) ++ s.applied.filter image else found
  let defects := if late then newDefects s t else s.defects
  let tested := if late then testedSites t else []
  let sites := (allSites.filter (fun n => !bootPlain applied t defects tested n)).map (bootSite applied t defects tested late)
  let sta (n : Nat) : DWord := ((sites.find? (·.n == n)).getD { n := n }).sta
  let up (n : Nat) : Bool := tested.contains n && sitePasses t n
  let ports := hostPortSites.map (fun n => stop == 7 && up n)
  let wafer := cfgField applied 3 4 1 % 4096
  let keep := outside [s.wafer, wafer]
  let b : State := { State.reset with
    cyc := if warm then s.cyc else 0
    steps := s.steps, freeCtr := s.freeCtr, clk := s.clk, nextId := s.nextId, agenda := s.agenda
    mem := s.mem.filter (fun c => keep c.1), poisoned := s.poisoned.filter (fun w => keep (4 * w))
    msi := s.msi
    sites := sites
    cores := bootCores s (if late then t else ⟨[], [], []⟩), clusters := bootClusters s (if late then t else ⟨[], [], []⟩)
    deadLinks := if late then (t.seams.filter (fun w => isSeam (w / 64) (w % 64))).flatMap (fun w =>
      (List.range 4).map (fun k => (w / 64, w % 64, k, 0))) else []
    hostUp := ports, trained := ports.count true
    powerLimit := min 48000 (cfgField applied 3 0 48000), clkMhz := cfgField applied 3 1 1500, wafer := wafer
    hookEnabled := cfgField applied 3 2 0 % 2 == 1, serial := cfgField applied 3 3 0 % 2 ^ 64
    scanRec := (applied.find? (fun r => recKind r == 6)).getD []
    laserMap := cfgField applied 7 128 0
    liveMap := if late then mapOf sta else []
    flash := if late then s.flash ++ [mapRecord s.flash (mapBody defects sta)] else s.flash
    applied := applied, defects := defects
    bootStop := stop % 7 }
  let (kind, x, y) := Config.bootReport stop
  if stop == 7 then b else postErr b kind 0 0 0 0xFFFFFFFF 0xFFFFFFFF x y

/-- A cold reset, with the tests of its bring-up and the step at which it stops, 0 for none. -/
def execColdReset (units dram seams : List Nat) (stop : Nat) (s : State) : Host.Outcome State Fault Refusal :=
  event s (fun s => boot s ⟨units, dram, seams⟩ (if stop == 0 then 7 else min stop 6))

def warmBoot (s : State) (t : Tests) : State := boot s t 7 true

/-- Command 0x07, or the host's CXL reset. -/
def execWarmReset (units dram seams : List Nat) (command : Bool) (s : State) : Host.Outcome State Fault Refusal :=
  event s (fun s =>
    let b := warmBoot s ⟨units, dram, seams⟩
    if command then answerMgmt { b with mgmt := s.mgmt } 7 false else b)

/-! ### Attestation (R401) -/

def answerSpdm (s : State) (port : Nat) (a : SpdmAnswer) : State := { s with spdm := s.spdm ++ [(port, a)] }

/-- The bytes of the record of a kind that applied at the last reset. -/
def appliedBytes (s : State) (kind : Nat) : List Byte := (s.applied.find? (fun r => recKind r == kind)).getD (Config.factory kind)

/-- The controller's firmware record, or the site firmware records in their order. -/
def firmwareBytes (s : State) (controller : Bool) : List Byte :=
  let mine := s.applied.filter (fun r => recKind r == 5 && (Config.imageOf r == 0) == controller)
  if mine.isEmpty then Config.factory (if controller then 256 else 257) else mine.flatMap id

/-- The defect map record that applied, and the live map of this boot. -/
def liveMapBytes (s : State) : List Byte :=
  appliedBytes s 8 ++ (if s.liveMap.isEmpty then mapOf (fun n => ({ n := n } : Site).sta) else s.liveMap)

/-- A measurement block: the SHA-512 digest of the bytes that the table names. -/
def measured (s : State) (index : Nat) : List Byte :=
  sha512 (match index with
    | 1 => Config.factory 0
    | 2 => firmwareBytes s true
    | 3 => firmwareBytes s false
    | 4 => [2, 3, 4, 7, 9].flatMap (appliedBytes s)
    | 5 => appliedBytes s 6
    | _ => liveMapBytes s)

/-- The certificate chain of the device identity. -/
def identityChain (s : State) : List Byte := Config.certChain (appliedBytes s 1)

def execGetVersion (port : Nat) (s : State) : Host.Outcome State Fault Refusal :=
  event s (fun s => answerSpdm s port (.version 0x12))

/-- Certificates, challenges and signed measurements; no sessions, mutual authentication or key exchange. -/
def execGetCapabilities (port : Nat) (s : State) : Host.Outcome State Fault Refusal :=
  event s (fun s => answerSpdm s port (.capabilities true true true))

/-- The offer holds ECDSA P-521 and SHA-512, or is refused. -/
def execNegotiateAlgorithms (port : Nat) (p521 sha512 : Bool) (s : State) : Host.Outcome State Fault Refusal :=
  event s (fun s => answerSpdm s port (if p521 && sha512 then .algorithms else .unsupportedRequest))

def execGetDigests (port : Nat) (s : State) : Host.Outcome State Fault Refusal :=
  event s (fun s => answerSpdm s port (.digest (sha512 (identityChain s))))

/-- A part of the chain, and how many bytes are left after it. -/
def execGetCertificate (port off len : Nat) (s : State) : Host.Outcome State Fault Refusal :=
  event s (fun s =>
    let rest := (identityChain s).drop off
    answerSpdm s port (.certificate (rest.take len) (rest.length - len)))

def execChallenge (port : Nat) (nonce : List Byte) (s : State) : Host.Outcome State Fault Refusal :=
  event s (fun s =>
    let d := sha512 (identityChain s)
    answerSpdm s port (.challengeAuth d (Config.identitySignature (sha512 (d ++ nonce)))))

/-- Index 0 asks for the number of blocks, 1 to 6 for one block, 0xFF for all. -/
def execGetMeasurements (port index : Nat) (nonce : List Byte) (s : State) : Host.Outcome State Fault Refusal :=
  event s (fun s =>
    let ks := if index == 0xFF then [1, 2, 3, 4, 5, 6] else if 1 ≤ index && index ≤ 6 then [index] else []
    let blocks := ks.map (fun k => (k, measured s k))
    if index == 0 || !ks.isEmpty then
      answerSpdm s port (.measurements 6 blocks (Config.identitySignature (sha512 (blocks.flatMap (·.2) ++ nonce))))
    else answerSpdm s port .unsupportedRequest)

def execSpdmUnsupportedRequest (port : Nat) (s : State) : Host.Outcome State Fault Refusal :=
  event s (fun s => answerSpdm s port .unsupportedRequest)

/-! ### Commands (R406) -/

def execSetPowerLimit (watts : Nat) (s : State) : Host.Outcome State Fault Refusal :=
  event s (fun s =>
    if 48000 < watts || watts < 8000 then answerMgmt s 1 true else answerMgmt { s with powerLimit := watts } 1 false)

/-- Quarantine and score are cleared, and a halted core serves again; refused when the unit fails its scan sets now. -/
def execReturnUnitToService (unit : Nat) (s : State) : Host.Outcome State Fault Refusal :=
  event s (fun s =>
    let u := unitIdOf unit
    let (s1, passed) := passesAll u (requiredSets s u) s
    if !unitExists u || !passed then answerMgmt s1 2 true
    else
      let old := unitScore s u
      let s2 := setUnitScan (setUnitScore s1 u 0) u .serve
      let s3 := if u.engine then s2 else onCore s2 u.coreId (fun c => { c with halted := false })
      let s3 := if clusterRemoved s3 u.site u.phys || s.defects.contains (u.site, u.phys) then s3 else markDead s3 u false
      answerMgmt (if old == 0 then s3 else postErr s3 0x08 0 u.unit 0 0xFFFFFFFF 0xFFFFFFFF old 0) 2 false)

/-- A key of 32 bytes for a secure domain; it is never read back (R391). -/
def execWriteDomainKey (tdom : Nat) (key : List Byte) (s : State) : Host.Outcome State Fault Refusal :=
  event s (fun s =>
    if tdom == 0 || 255 < tdom then answerMgmt s 4 true
    else answerMgmt { s with domainKeys := (tdom, key.take 32) :: s.domainKeys.filter (·.1 != tdom) } 4 false)

/-- A team of another partition stands on the site. -/
def siteHeld (s : State) (site part : Nat) : Bool :=
  s.teams.any (fun t => t.at_.site == site && (findCtx s t.ctx).part != part)

def execWriteSitepart (site part : Nat) (s : State) : Host.Outcome State Fault Refusal :=
  event s (fun s =>
    if !isSite site || siteHeld s site (part % 16) then answerMgmt s 5 true
    else answerMgmt (onSite s site (fun x => { x with part := part % 16 })) 5 false)

/-- The record applies from the next reset. -/
def execWriteRecord (bytes : List Byte) (s : State) : Host.Outcome State Fault Refusal :=
  event s (fun s =>
    if recSigned s.flash bytes && svnFloor s.flash (recKind bytes) ≤ recSvn bytes then
      answerMgmt { s with flash := s.flash ++ [bytes] } 6 false
    else answerMgmt s 6 true)

/-! ### The core clock (R8, R407) -/

/-- One step of 25 MHz, down to 750 MHz and up to the nominal 1,500 MHz. -/
def execPowerClockAdjust (raise : Bool) (s : State) : Host.Outcome State Fault Refusal :=
  event s (fun s =>
    { s with clkMhz := if raise then max s.clkMhz (min 1500 (s.clkMhz + 25)) else min s.clkMhz (max 750 (s.clkMhz - 25)) })

end Sys2Proof.Machine
end

