-- ==== Sys2Proof/Machine/Graph.lean ====
section
/-!
DEFINITION. Launch requests at their owner (01 R37; 12 R277, R280), submission queues (17 R318 to R320) and kernel graphs
(R321 to R327).
-/

namespace Sys2Proof.Machine

open Sys2Proof

/-! ### Launch requests (R37, R277) -/

/-- A read under this name still waits in a pending entry. -/
def readWaits (s : State) (id : Nat) : Bool := s.pendings.any (fun p => p.waiters.contains (.launch id))

/-- A read under this name waited for a fault that was cancelled. -/
def readLost (s : State) (id : Nat) : Bool := s.lostReads.contains id

def forgetRead (s : State) (id : Nat) : State := { s with lostReads := s.lostReads.filter (· != id) }

/-- Where a device-side child comes from: its parent launch. -/
def childSubmit (l : Launch) (args : DWord) : Submit :=
  { source := .child l.key, site := l.site, ctx := l.ctx, level := l.level, pcap := l.pcap, clamp := some l.prio
    tvec := l.tvec, args := args, parentAff := some l.aff }

/-- The items of a request: by lane a launch or a code, or the first lane that meets a home fault. -/
def checkItems (s : State) (l : Launch) (lost : List Nat) :
    List (Nat × DWord × DWord) → Except (Nat × Failure) (List (Nat × Except Nat Launch))
  | [] => .ok []
  | (lane, d, args) :: rest =>
    let one : Except (Nat × Failure) (Except Nat Launch) :=
      if lost.contains lane then .ok (.error 7)
      else match checkLaunch s (childSubmit l args) (d.toNat % 2 ^ 56) with
      | .ok c => .ok (.ok c)
      | .error (.reject n) => .ok (.error n)
      | .error (.fault e) => .error (lane, e)
    match one with
    | .error e => .error e
    | .ok x =>
      match checkItems s l lost rest with
      | .error e => .error e
      | .ok xs => .ok ((lane, x) :: xs)

/-- Accepted children take consecutive numbers; the answer gives number and status by lane. -/
def acceptItems : State → Nat → List (Nat × Except Nat Launch) → State × Nat × List (Nat × Nat × Nat)
  | s, next, [] => (s, next, [])
  | s, next, (lane, .error n) :: rest =>
    let (s1, next1, out) := acceptItems s next rest
    (s1, next1, (lane, 0xFFFFFFFF, n) :: out)
  | s, next, (lane, .ok l) :: rest =>
    let (s1, next1, out) := acceptItems (enterLaunch s l (some next)) (next + 1) rest
    (s1, next1, (lane, next, 0) :: out)

/-- The request is judged: against the launch limit, then each item. -/
def judgeRequest (s : State) (r : LaunchReq) (l : Launch) (xs : List (Nat × Except Nat Launch)) : State :=
  let n := (xs.filter (fun (_, x) => match x with
    | .ok _ => true
    | .error _ => false)).length
  let s0 := { s with launchReqs := s.launchReqs.filter (·.tag != r.tag) }
  if n != 0 && 0xFFFFFFFF < l.nextChild + n then
    { s0 with launchAns := s0.launchAns ++ [{ req := r, limit := true, results := [] }] }
  else
    let (s1, next, out) := acceptItems s0 l.nextChild xs
    let s2 := onLaunch s1 l.key (fun l => { l with nextChild := next })
    { s2 with launchAns := s2.launchAns ++ [{ req := r, limit := false, results := out }] }

/-- The earlier requests of its site to the same owner have reached it. -/
def requestNext (s : State) (r : LaunchReq) : Bool :=
  ((s.launchReqs.find? (fun q => q.site == r.site && q.parent == r.parent && q.order.isNone)).map (·.tag)) == some r.tag

def setRequest (s : State) (r : LaunchReq) : State :=
  { s with launchReqs := s.launchReqs.map (fun q => if q.tag == r.tag then r else q) }

/-- The request reaches its owner, in the order of its site; of the requests of one clock those of lower site numbers come
first (R37). -/
def reachOwner (s : State) (r : LaunchReq) (l : Launch) : State :=
  if r.order.isSome || !requestNext s r || (l.takenAt.1 == s.clk && r.site < l.takenAt.2) then s
  else setRequest (onLaunch { s with nextId := s.nextId + 1 } l.key (fun l => { l with takenAt := (s.clk, r.site) }))
    { r with order := some s.nextId }

/-- The request is the first of those that have reached the owner. -/
def requestFirst (s : State) (r : LaunchReq) : Bool :=
  r.order.isSome && s.launchReqs.all (fun q => q.parent != r.parent || q.order.isNone || r.order.getD 0 ≤ q.order.getD 0)

/-- The owner takes a request: a lane whose read met a cancelled fault is rejected with code 7; a read that faults makes
the request, and those behind it, wait for service (R280). -/
def takeRequest (s : State) (r : LaunchReq) (l : Launch) : State :=
  let lost := if readLost s r.tag then r.lost ++ r.stuck.toList else r.lost
  let s1 := (r.items.filter (fun i => !lost.contains i.1)).foldl (fun acc (_, d, args) =>
    holdReads acc (childSubmit l args) (d.toNat % 2 ^ 56)) (forgetRead s r.tag)
  match checkItems s1 l lost r.items with
  | .ok xs => judgeRequest s1 r l xs
  | .error (lane, e) => (waitGp (setRequest s1 { r with lost := lost, stuck := some lane }) l.site l.ctx e (.launch r.tag)).1

def execLaunchRequest (tag : Nat) (s : State) : Host.Outcome State Fault Refusal :=
  event s (fun s =>
    match s.launchReqs.find? (·.tag == tag) with
    | none => s
    | some r =>
      match findLaunch s r.parent with
      | none => s
      | some l =>
        let s1 := reachOwner s r l
        match s1.launchReqs.find? (·.tag == tag) with
        | none => s1
        | some r1 => if readWaits s1 tag || !requestFirst s1 r1 then s1 else takeRequest s1 r1 l)

/-- The ply that stands at the launch takes its answer: it writes its destination, or takes the launch-limit trap. Where a
pool is short it goes on standing there (R48). -/
def answerPly (a : LaunchAns) (f : State) : State :=
  let i : Instr := if a.req.perLane then .launchL a.req.fields else .launchW a.req.fields
  let s1 := releaseDst a.req.fields a.req.perLane f
  if a.limit then takeTrap (dropAnswer a s1) 0x0F f.ply.pc [0#64] a.lanes
  else
    let t := resume i a.req.fields a.lanes s1 (takeAnswer a.req.fields a.lanes a s1)
    if t.ply.wait == .retry then { f with weave := { f.weave with stalled := t.weave.stalled } } else t

/-- The answer reaches the ply, which writes its destination or takes the trap. -/
def execLaunchAnswer (tag : Nat) (s : State) : Host.Outcome State Fault Refusal :=
  event s (fun s =>
    match s.launchAns.find? (·.req.tag == tag) with
    | none => s
    | some a =>
      whenPly s a.req.uid a.req.windex a.req.ply (fun t _ p =>
        if p.stopped || p.wait != .launch || t.leaving.isSome then s
        else
          park (answerPly a (focusOn s a.req.uid a.req.windex a.req.ply))))

/-! ### Submission queues (R318 to R320) -/

def findQueue (s : State) (site q : Nat) : Option Queue := s.queues.find? (fun x => x.site == site && x.q == q)

def onQueue (s : State) (id : Nat) (f : Queue → Queue) : State :=
  { s with queues := s.queues.map (fun x => if x.id == id then f x else x) }

/-- The record of a queue in the queue table. -/
def queueRecord (s : State) (site q : Nat) : List DWord :=
  (List.range 8).map (fun k => BitVec.ofNat 64 (cellNat s.mem (regionKey s site (0x100000 + 64 * q + 8 * k)) 8))

/-- Reserved fields are zero and addresses aligned as R318 states. -/
def recordOk (d : List DWord) : Bool :=
  let w (k : Nat) : DWord := d.getD k 0#64
  let haddr := ((w 4).extractLsb' 0 56).toNat
  (w 0).toNat % 128 == 0 && (w 1).toNat % 128 == 0 && (w 2).toNat % 8 == 0 &&
  (w 3).extractLsb' 48 11 == 0#11 && (w 3).extractLsb' 5 27 == 0#27 &&
  4 ≤ ((w 3).extractLsb' 0 5).toNat && ((w 3).extractLsb' 0 5).toNat ≤ 16 &&
  (w 4).extractLsb' 56 7 == 0#7 && (if (w 4).getLsbD 63 then haddr % 4 == 0 && haddr % 32 != 28 else haddr == 0) &&
  w 5 == 0#64 && w 6 == 0#64 && w 7 == 0#64

/-- A dword that a graph processor reads at an IA. -/
def gpWord (s : State) (site ctx ia : Nat) : Except Failure DWord :=
  (peekBytes s (graphMaster site ctx) site ia 8).map (fun bs => BitVec.ofNat 64 (ofBytes bs))

/-- A dword to be written at an IA, line by line. -/
def dwordPieces (ia : Nat) (x : DWord) : List (Nat × List Byte) :=
  (linePiecesOf ia 8).map (fun (a, k) => (a, ((toBytes 8 x.toNat).drop (a - ia)).take k))

/-- The valid bit of a queue's record. -/
def queueValid (s : State) (site q : Nat) : Bool := ((queueRecord s site q).getD 3 0#64).getLsbD 63

/-- A queue goes out of service once the entry in hand is finished (R318). -/
def Queue.idle (x : Queue) : Bool := !x.begun || x.overflow

def queueRecordServiceAt (site q : Nat) (s : State) : Host.Outcome State Fault Refusal :=
  event s (fun s =>
    let d := queueRecord s site q
    let w (k : Nat) : DWord := d.getD k 0#64
    let ctx := ((w 3).extractLsb' 32 16).toNat
    if 64 ≤ q || !isSite site then s
    else match findQueue s site q with
      | some x => if queueValid s site q || !x.idle then s else { s with queues := s.queues.filter (·.id != x.id) }
      | none =>
        if !(w 3).getLsbD 63 then s
        else match gpWord s site ctx (w 2).toNat with
          | .error _ => s
          | .ok head =>
            if !recordOk d then
              if head.getLsbD 62 then s
              else postRecord { s with nextId := s.nextId + 1 } (2 * s.nextId + 1) site ctx 0xFFFFFFFF
                (dwordPieces (w 2).toNat (head ||| 0x4000000000000000#64))
            else
              { s with nextId := s.nextId + 2, queues := s.queues ++ [{
                  id := s.nextId, site := site, q := q, ring := (w 0).toNat, tail := (w 1).toNat, head := (w 2).toNat
                  level := (w 3).getLsbD 62, pcap := ((w 3).extractLsb' 59 3).toNat, ctx := ctx
                  lgn := ((w 3).extractLsb' 0 5).toNat, tvec := (if (w 4).getLsbD 63 then w 4 else 0#64)
                  headIdx := (head.extractLsb' 0 32).toNat, seenTail := (head.extractLsb' 0 32).toNat }] })

def execQueueRecordService (s : State) : Host.Outcome State Fault Refusal := queueRecordServiceAt (subject s 0) (subject s 1) s

/-- The head dword as the processor writes it. -/
def headWord (x : Queue) : Nat := x.headIdx + (if x.overflow then 2 ^ 63 else 0)

/-- A read of an entry in hand that fails at its home waits under the queue's name. -/
def queueWait (s : State) (x : Queue) (e : Failure) : State := (waitGp s x.site x.ctx e (.launch x.id)).1

/-- The name of the queue's tail reads. -/
def Queue.tailId (x : Queue) : Nat := x.id + 1

/-- The tail is read when its line is not held, and again after a loss of the line; a tail in memory that no cache of the
site holds is read in every turn (R319). A cancelled fault of the read leaves it to be tried again. -/
def queueTailObservedAt (site q : Nat) (s : State) : Host.Outcome State Fault Refusal :=
  event s (fun s =>
    match findQueue s site q with
    | none => s
    | some x =>
      if x.overflow || x.tailHeld || readWaits s x.tailId then s
      else match masterGet s (graphMaster site x.ctx) site x.tail 8 with
        | .error e => (waitGp (forgetRead s x.tailId) x.site x.ctx e (.launch x.tailId)).1
        | .ok (s0, bs, _) =>
          let tail := ofBytes bs % 2 ^ 32
          let held := (s0.hbHeld ++ s0.hbShared).contains (site, iaLine x.tail)
          let s1 := onQueue (forgetRead s0 x.tailId) x.id (fun x => { x with tailHeld := held })
          if 2 ^ x.lgn < (tail + 2 ^ 32 - x.headIdx) % 2 ^ 32 then
            postRecord (onQueue s1 x.id (fun x => { x with overflow := true })) (2 * x.id + 1) site x.ctx 0xFFFFFFFF
              [(x.head, toBytes 8 (x.headIdx + 2 ^ 63))]
          else onQueue s1 x.id (fun x => { x with seenTail := tail }))

def execQueueTailObserved (s : State) : Host.Outcome State Fault Refusal := queueTailObservedAt (subject s 0) (subject s 1) s

/-- The IA of the entry in hand. -/
def entryIa (x : Queue) : Nat := x.ring + 64 * (x.headIdx % 2 ^ x.lgn)

/-- The previous entry's work has come as far as the wait field asks (R320 step 1). -/
def prevDone (s : State) (x : Queue) (wait : Nat) : Bool :=
  let launch := x.prevLaunch.bind (findLaunch s)
  let graph := x.prevGraph.bind (fun g => s.graphs.find? (·.id == g))
  match wait with
  | 1 => (launch.map (·.completed)).getD true && (graph.map (·.completed)).getD true
  | 2 => (launch.map (fun l => l.completed && l.state == 2)).getD true && (graph.map (fun g => g.completed && g.state == 2)).getD true
  | _ => true

/-- The entry is consumed: dword 7, then the head dword (R320 steps 3 and 4). -/
def consumeEntry (s : State) (x : Queue) (code : Nat) (launch graph : Option Nat) : State :=
  let x1 : Queue := { x with headIdx := (x.headIdx + 1) % 2 ^ 32, prevLaunch := launch, prevGraph := graph, begun := false }
  postRecord (onQueue (forgetRead s x.id) x.id (fun _ => x1)) (2 * x.id + 1) x.site x.ctx 0xFFFFFFFF
    [(entryIa x + 56, toBytes 8 (2 ^ 63 + code)), (x.head, toBytes 8 (headWord x1))]

/-- The reserved fields of an entry. -/
def entryOk (d : List DWord) : Bool :=
  let w (k : Nat) : DWord := d.getD k 0#64
  (w 0).extractLsb' 60 4 ≤ 2#4 && (w 0).extractLsb' 58 2 != 3#2 && (w 0).extractLsb' 56 2 == 0#2 &&
  (w 1).extractLsb' 56 8 == 0#8 && ((w 0).extractLsb' 60 4 != 2#4 || w 1 == 0#64) &&
  w 3 == 0#64 && w 4 == 0#64 && w 5 == 0#64 && w 6 == 0#64

/-- A queue with a valid record takes up the entry at its head index. -/
def beginEntry (s : State) (site q : Nat) : State :=
  match findQueue s site q with
  | none => s
  | some x =>
    if x.begun || x.overflow || x.headIdx == x.seenTail || !queueValid s site q then s
    else onQueue s x.id (fun x => { x with begun := true })

/-- The entry in hand of a queue, once it may be taken: its dwords, or what happens instead. A cancelled fault of a read
for it gives code 7. -/
def entryInHand (s : State) (site q : Nat) : Except State (State × Queue × List DWord) :=
  match findQueue s site q with
  | none => .error s
  | some x =>
    if !x.begun || x.overflow || readWaits s x.id then .error s
    else if readLost s x.id then .error (consumeEntry s x 7 none none)
    else match peekBytes s (graphMaster site x.ctx) site (entryIa x) 64 with
      | .error e => .error (queueWait s x e)
      | .ok bs =>
        let d := dwordsOf bs
        let s1 := takeHostLine s (graphMaster site x.ctx) site (place s (graphMaster site x.ctx) rightR site (entryIa x)).1.attr (entryIa x) true
        if prevDone s x ((d.getD 0 0#64).extractLsb' 58 2).toNat then .ok (s1, x, d) else .error s1

/-- The entry in hand, when its kind is the wanted one; an ill-formed entry counts as kind 0. -/
def takeEntry (s : State) (site q kind : Nat) (f : State → Queue → List DWord → State) : State :=
  let s := beginEntry s site q
  match entryInHand s site q with
  | .error s1 => s1
  | .ok (s, x, d) =>
    if !entryOk d then (if kind == 0 then consumeEntry s x 8 none none else s)
    else if ((d.getD 0 0#64).extractLsb' 60 4).toNat == kind then f s x d
    else s

def queueEntryNopAt (site q : Nat) (s : State) : Host.Outcome State Fault Refusal :=
  event s (fun s => takeEntry s site q 0 (fun s x _ => consumeEntry s x 0 none none))

def execQueueEntryNop (s : State) : Host.Outcome State Fault Refusal := queueEntryNopAt (subject s 0) (subject s 1) s

/-- What a queue gives its launches. -/
def queueSubmit (x : Queue) (args : DWord) : Submit :=
  { source := .queue x.site x.q, site := x.site, ctx := x.ctx, level := x.level, pcap := x.pcap, clamp := none, tvec := x.tvec
    args := args, parentAff := none }

/-- The priority that a descriptor asks for. -/
def askedPrio (s : State) (x : Queue) (va : Nat) : Nat :=
  match gpDwords s ⟨x.site, x.ctx⟩ va 3 with
  | .ok d => ((d.getD 2 0#64).extractLsb' 61 3).toNat
  | .error _ => 0

def queueEntryLaunchAt (site q : Nat) (s : State) : Host.Outcome State Fault Refusal :=
  event s (fun s => takeEntry s site q 1 (fun s x d =>
    let va := ((d.getD 0 0#64).extractLsb' 0 56).toNat
    let s := holdReads s (queueSubmit x (d.getD 1 0#64)) va
    match checkLaunch s (queueSubmit x (d.getD 1 0#64)) va with
    | .error (.fault e) => queueWait s x e
    | .error (.reject n) => consumeEntry s x n none none
    | .ok l =>
      if x.pcap < askedPrio s x va then consumeEntry s x 8 none none
      else consumeEntry (enterLaunch s l none) x 0 (some s.nextId) none))

def execQueueEntryLaunch (s : State) : Host.Outcome State Fault Refusal := queueEntryLaunchAt (subject s 0) (subject s 1) s

/-! ### Graphs: their structure (R321 to R323) -/

def nodeKind (d : List DWord) : Nat := ((d.getD 0 0#64).extractLsb' 60 4).toNat
def nodePred (d : List DWord) : Nat := ((d.getD 0 0#64).extractLsb' 32 16).toNat

/-- The successors of a node, slot by slot. -/
def nodeSucc (d : List DWord) : List (Option Nat) :=
  (List.range 4).map (fun k =>
    let x := ((d.getD 1 0#64).extractLsb' (16 * k) 16).toNat
    if x == 0xFFFF then none else some x)

/-- The body of a loop node. -/
def loopBody (d : List DWord) : Nat × Nat :=
  (((d.getD 5 0#64).extractLsb' 16 16).toNat, ((d.getD 5 0#64).extractLsb' 32 16).toNat)

/-- Reserved kinds, fields and ops of a node. -/
def nodeOk (d : List DWord) : Bool :=
  let w (k : Nat) : DWord := d.getD k 0#64
  let kind := nodeKind d
  let op := ((w 5).extractLsb' 0 3).toNat
  (w 0).extractLsb' 48 11 == 0#11 && (w 0).extractLsb' 0 32 == 0#32 && (kind == 1 || !(w 0).getLsbD 59) &&
  (match kind with
    | 1 => w 4 == 0#64 && w 5 == 0#64
    | 2 => (w 3).extractLsb' 0 60 == 0#60 && w 4 == 0#64 && w 5 == 0#64
    | 3 => (w 2).toNat % 8 == 0 && (w 5).extractLsb' 3 61 == 0#61 && op ≤ 5
    | 4 => (w 2).toNat % 8 == 0 && (w 5).extractLsb' 3 13 == 0#13 && op ≤ 5
    | 5 => (w 2).extractLsb' 32 32 == 0#32 && w 3 == 0#64 && w 4 == 0#64 && w 5 == 0#64
    | 6 => (w 4).extractLsb' 17 47 == 0#47 && w 5 == 0#64
    | _ => false)

/-- The loops of a graph with their bodies: node, first, last. -/
def loopsOf (ns : List (List DWord)) : List (Nat × Nat × Nat) :=
  ((List.range ns.length).zip ns).filterMap (fun (i, d) => if nodeKind d == 4 then some (i, (loopBody d).1, (loopBody d).2) else none)

/-- The loops whose bodies hold a node, as loop nodes. -/
def bodiesOf (loops : List (Nat × Nat × Nat)) (n : Nat) : List Nat :=
  (loops.filter (fun (_, f, l) => f ≤ n && n ≤ l)).map (·.1)

/-- R323: the structure of the nodes. -/
def structureOk (ns : List (List DWord)) : Bool :=
  let loops := loopsOf ns
  let edges := ((List.range ns.length).zip ns).flatMap (fun (i, d) => (nodeSucc d).filterMap (fun o => o.map (fun j => (i, j))))
  ns.all nodeOk && edges.all (fun (_, j) => j < ns.length) &&
  loops.all (fun (i, f, l) => i < f && f ≤ l && l < ns.length && (nodeSucc (ns.getD l [])).all Option.isNone) &&
  loops.all (fun (_, f, l) => loops.all (fun (_, g, m) => l < g || m < f || (f ≤ g && m ≤ l) || (g ≤ f && l ≤ m))) &&
  edges.all (fun (i, j) => bodiesOf loops i == bodiesOf loops j) &&
  ((List.range ns.length).zip ns).all (fun (i, d) => (edges.filter (fun (_, j) => j == i)).length == nodePred d)

/-- R321: the header. -/
def graphHeaderOk (s : State) (ctx va : Nat) (d : List DWord) : Bool :=
  let w (k : Nat) : DWord := d.getD k 0#64
  let crec := ((w 1).extractLsb' 0 56).toNat
  va % 64 == 0 && (w 0).extractLsb' 48 16 == 0x4752#16 && (w 0).extractLsb' 40 8 == 1#8 && (w 0).extractLsb' 16 24 == 0#24 &&
  (w 0).extractLsb' 0 16 != 0#16 && (w 1).extractLsb' 56 5 == 0#5 && crec % 16 == 0 &&
  (crec == 0 || (translate s ctx crec).isSome) && (List.range 6).all (fun k => w (k + 2) == 0#64)

/-- The address of dword 7 of a node. -/
def nodeWordVa (g : Graph) (n : Nat) : Nat := g.hdr + 64 + 64 * n + 56

/-- The name under which a node's reads and writes wait. -/
def nodeId (g : Graph) (n : Nat) : Nat := g.id + 1 + n

def findGraph (s : State) (id : Nat) : Option Graph := s.graphs.find? (·.id == id)

def onGraph (s : State) (id : Nat) (f : Graph → Graph) : State :=
  { s with graphs := s.graphs.map (fun g => if g.id == id then f g else g) }

/-- Dword 7 of a node is written from the graph's copy. -/
def writeNode (s : State) (id n : Nat) : State :=
  match findGraph s id with
  | none => s
  | some g =>
    let x := g.nodes.getD n { d := [] }
    match translate s g.ctx (nodeWordVa g n) with
    | none => s
    | some ia => postRecord s (2 * nodeId g n) g.site g.ctx 0xFFFFFFFF [(ia, toBytes 8 (x.arr * 2 ^ 48 + x.state * 2 ^ 40 + x.aux))]

/-- A node changes and its word is written. -/
def onNode (s : State) (id n : Nat) (f : GNode → GNode) : State :=
  writeNode (onGraph s id (fun g => { g with nodes := g.nodes.set n (f (g.nodes.getD n { d := [] })) })) id n

/-- The graph is accepted: its words are zeroed and its first nodes run. -/
def startGraph (s : State) (x : Queue) (va : Nat) (h : List DWord) (ns : List (List DWord)) : State :=
  let id := s.nextId
  let crec := ((h.getD 1 0#64).extractLsb' 0 56).toNat
  let loops := loopsOf ns
  let g : Graph := {
    id := id, site := x.site, q := x.q, ctx := x.ctx, level := x.level, pcap := x.pcap, tvec := x.tvec, hdr := va
    prio := ((h.getD 1 0#64).extractLsb' 61 3).toNat
    crec := if crec == 0 then none else some ((translate s x.ctx crec).getD 0, (translate s x.ctx (crec + 8)).getD 0)
    nodes := ns.map (fun d => { d := d.take 6 })
    starts := (List.range ns.length).filter (fun n => nodePred (ns.getD n []) == 0 && (bodiesOf loops n).isEmpty) }
  let s1 := { s with nextId := id + ns.length + 1, graphs := s.graphs ++ [g] }
  (List.range ns.length).foldl (fun acc n => writeNode acc id n) s1

def queueEntryGraphAt (site q : Nat) (s : State) : Host.Outcome State Fault Refusal :=
  event s (fun s => takeEntry s site q 2 (fun s x d =>
    let va := ((d.getD 0 0#64).extractLsb' 0 56).toNat
    let gp : Gp := ⟨x.site, x.ctx⟩
    let s := gpHold s gp va 64
    let stop (e : Stop) : State := match e with
      | .reject n => consumeEntry s x n none none
      | .fault e => queueWait s x e
    match gpDwords s gp va 8 with
    | .error e => stop e
    | .ok h =>
      if !graphHeaderOk s x.ctx va h then consumeEntry s x 9 none none
      else if s.graphs.any (fun g => g.site == site && g.hdr == va && !g.completed) then consumeEntry s x 10 none none
      else
        let n := ((h.getD 0 0#64).extractLsb' 0 16).toNat
        let s := gpHold s gp (va + 64) (64 * n)
        match gpDwords s gp (va + 64) (8 * n) with
        | .error e => stop e
        | .ok ws =>
          let ns := (List.range n).map (fun k => (ws.drop (8 * k)).take 8)
          if !structureOk ns then consumeEntry s x 11 none none
          else consumeEntry (startGraph s x va h ns) x 0 none (some s.nextId)))

def execQueueEntryGraph (s : State) : Host.Outcome State Fault Refusal := queueEntryGraphAt (subject s 0) (subject s 1) s

/-! ### Graphs: tokens (R324) -/

/-- Tokens leave a node by its four successor slots. -/
def sendTokens (s : State) (id n : Nat) (runs : List Bool) : State :=
  onGraph s id (fun g => { g with tokens := g.tokens ++
    ((List.range 4).zip (nodeSucc (g.nodes.getD n { d := [] }).d)).filterMap (fun (k, o) => o.map (fun j => (j, runs.getD k false))) })

/-- A node is done: run to each successor. -/
def nodeDone (s : State) (id n : Nat) : State :=
  sendTokens (onNode s id n (fun x => { x with state := 2, launch := none, copy := none, write := none })) id n [true, true, true, true]

def nodeSkipped (s : State) (id n : Nat) : State :=
  sendTokens (onNode s id n (fun x => { x with state := 3 })) id n [false, false, false, false]

def nodeFailed (s : State) (id n : Nat) : State :=
  let s1 := onNode s id n (fun x => { x with state := 4, launch := none, copy := none, write := none })
  onGraph (sendTokens s1 id n [false, false, false, false]) id (fun g => { g with poisoned := true })

/-- The test of a condition or loop on a dword (R322, R324). -/
def testHolds (d : List DWord) (x : DWord) : Bool :=
  let v := x &&& d.getD 3 0#64
  let y := d.getD 4 0#64
  match ((d.getD 5 0#64).extractLsb' 0 3).toNat with
  | 0 => v == y
  | 1 => v != y
  | 2 => v.toInt < y.toInt
  | 3 => y.toInt ≤ v.toInt
  | 4 => v.toNat < y.toNat
  | _ => y.toNat ≤ v.toNat

/-- A dword at a virtual address that a running node reads: the dword, or what happens instead. An address that no
window translates, or a cancelled fault, makes the node fail (log 33). -/
def nodeRead (s : State) (g : Graph) (n va : Nat) : Except State DWord :=
  let id := nodeId g n
  if readLost s id then .error (nodeFailed (forgetRead s id) g.id n)
  else match gpDwords s ⟨g.site, g.ctx⟩ va 1 with
    | .ok d => .ok (d.getD 0 0#64)
    | .error (.reject _) => .error (nodeFailed s g.id n)
    | .error (.fault e) => .error (waitGp s g.site g.ctx e (.launch id)).1

/-- What a graph gives a kernel node's launch. -/
def nodeSubmit (g : Graph) (n : Nat) (d : List DWord) : Submit :=
  { source := .node g.id n, site := g.site, ctx := g.ctx, level := g.level, pcap := g.pcap, clamp := none, floor := g.prio
    tvec := g.tvec, args := d.getD 3 0#64, parentAff := none }

/-- A kernel node runs: its launch is accepted, or the node fails. -/
def runKernel (s : State) (g : Graph) (n : Nat) (d : List DWord) : State :=
  let id := nodeId g n
  let s := holdReads s (nodeSubmit g n d) (d.getD 2 0#64).toNat
  if readLost s id then nodeFailed (forgetRead s id) g.id n
  else match checkLaunch s (nodeSubmit g n d) (d.getD 2 0#64).toNat with
    | .error (.reject _) => nodeFailed s g.id n
    | .error (.fault e) => (waitGp s g.site g.ctx e (.launch id)).1
    | .ok l =>
      let num := s.launchCount
      let s1 := onGraph (enterLaunch s l none) g.id (fun g => { g with launches := g.launches ++ [s.nextId] })
      onNode s1 g.id n (fun x => { x with aux := num % 2 ^ 32, launch := some s.nextId })

/-- The descriptor of a copy node as dwords. -/
def readNodeCopy (s : State) (g : Graph) (va : Nat) : Except Stop (List DWord) := do
  let d0 ← gpDwords s ⟨g.site, g.ctx⟩ va 1
  gpDwords s ⟨g.site, g.ctx⟩ va (3 + 2 * (((d0.getD 0 0#64).extractLsb' 60 4).toNat + 1))

/-- A copy node runs on the copy engine of the site's lowest bound cluster; a descriptor that a core would trap on
makes the node fail (log 33). -/
def runCopy (s : State) (g : Graph) (n : Nat) (d : List DWord) : State :=
  let id := nodeId g n
  if readLost s id then nodeFailed (forgetRead s id) g.id n
  else
    let va := (d.getD 2 0#64).toNat
    match readNodeCopy s g va, (boundClusters s g.site).head? with
    | .error (.fault e), _ => (waitGp s g.site g.ctx e (.launch id)).1
    | .ok ws, some (_, phys) =>
      let s := gpHold s ⟨g.site, g.ctx⟩ va (8 * ws.length)
      let c := copyOf ws
      let wins := (findCtx s g.ctx).windows
      let fl := d.getD 3 0#64
      if va % 8 != 0 || !c.legal ws || c.ssp || c.dsp || (c.missing wins).isSome then nodeFailed s g.id n
      else
        let c1 : Copy := { c with id := s.nextId, ctx := g.ctx, wins := wins, scope := (fl.extractLsb' 62 2).toNat, rel := fl.getLsbD 61
                                  acq := fl.getLsbD 60, overlap := true }
        let s1 := onCluster { s with nextId := s.nextId + 1 } g.site phys (·.enqueue (cycAt s g.site) c1)
        onNode s1 g.id n (fun x => { x with copy := some s.nextId })
    | _, _ => nodeFailed s g.id n

/-- A host-signal node runs: its store leaves; the message follows once it is performed. -/
def runSignal (s : State) (g : Graph) (n : Nat) (d : List DWord) : State :=
  match translate s g.ctx (d.getD 2 0#64).toNat with
  | none => nodeFailed s g.id n
  | some ia =>
    let key := 2 * nodeId g n + 1
    let s1 := onNode s g.id n (fun x => { x with write := some s.nextId })
    postRecord { s1 with nextId := max s1.nextId (s.nextId + 1) } key g.site g.ctx 0xFFFFFFFF (dwordPieces ia (d.getD 3 0#64))

/-- A condition node tests its dword: run to s0 and s1 and skip to the others, or the reverse. -/
def runCondition (s : State) (g : Graph) (n : Nat) (d : List DWord) : State :=
  match nodeRead s g n (d.getD 2 0#64).toNat with
  | .error s1 => s1
  | .ok x =>
    let t := testHolds d x
    let s := gpHold s ⟨g.site, g.ctx⟩ (d.getD 2 0#64).toNat 8
    sendTokens (onNode s g.id n (fun x => { x with state := 2 })) g.id n [t, t, !t, !t]

/-- The work of a running node goes on as far as it can: a kernel or a condition that waited for a read, a launch, copy or
store that has come to its end. -/
def driveNode (s : State) (g : Graph) (n : Nat) : State :=
  let x := g.nodes.getD n { d := [] }
  if x.state != 1 || readWaits s (nodeId g n) then s
  else match nodeKind x.d with
    | 1 => match x.launch with
      | none => runKernel s g n x.d
      | some key => match findLaunch s key with
        | none => s
        | some l =>
          if !l.completed then s
          else if l.state == 3 then nodeFailed s g.id n
          else if (x.d.getD 0 0#64).getLsbD 59 && l.state != 2 then s
          else nodeDone s g.id n
    | 2 => match x.copy with
      | none => runCopy s g n x.d
      | some id =>
        if readLost s id then nodeFailed (forgetRead s id) g.id n
        else if (allCopies s).any (fun (_, c) => c.id == id) then s
        else nodeDone s g.id n
    | 3 => runCondition s g n x.d
    | 6 =>
      let key := 2 * nodeId g n + 1
      let lost := s.lostReads.filter (fun id => (x.write.map (fun w => w ≤ id && id < w + 2)).getD false)
      if x.write.isNone then runSignal s g n x.d
      else if !lost.isEmpty then nodeFailed { s with lostReads := s.lostReads.filter (fun id => !lost.contains id) } g.id n
      else if s.recWrites.any (·.key == key) then s
      else
        let fl := x.d.getD 4 0#64
        nodeDone (if fl.getLsbD 16 then sendMsi s g.site (fl.extractLsb' 0 16).toNat else s) g.id n
    | _ => s

/-- A node starts to run. A wait node with target 0 is done at once (R326). -/
def runNode (s : State) (id n : Nat) : State :=
  let s1 := onNode s id n (fun x => { x with state := 1, round := false, launch := none, copy := none, write := none })
  match findGraph s1 id with
  | none => s1
  | some g =>
    let d := (g.nodes.getD n { d := [] }).d
    if nodeKind d == 5 && (d.getD 2 0#64).extractLsb' 0 32 == 0#32 then nodeDone s1 id n
    else driveNode s1 g n

/-- A token is received. -/
def takeToken (s : State) (id n : Nat) (run : Bool) : State :=
  let s1 := onNode s id n (fun x => { x with arr := x.arr + 1, gotRun := x.gotRun || run })
  match (findGraph s1 id).bind (fun g => g.nodes[n]?) with
  | none => s1
  | some x => if x.arr != nodePred x.d then s1 else if x.gotRun then runNode s1 id n else nodeSkipped s1 id n

/-- The next token of a node, its start without one, or the further course of its work. -/
def graphTokenAt (graph node : Nat) (s : State) : Host.Outcome State Fault Refusal :=
  event s (fun s =>
    match findGraph s graph with
    | none => s
    | some g =>
      if g.starts.contains node then
        runNode (onGraph s graph (fun g => { g with starts := g.starts.filter (· != node) })) graph node
      else match g.tokens.find? (·.1 == node) with
        | some t => takeToken (onGraph s graph (fun g => { g with tokens := g.tokens.erase t })) graph node t.2
        | none => driveNode s g node)

def execGraphToken (s : State) : Host.Outcome State Fault Refusal := graphTokenAt (subject s 0) (subject s 1) s

/-! ### Loops and waits (R325, R326) -/

/-- The nodes whose innermost body is that of a loop. -/
def ownBody (g : Graph) (loop : Nat) : List Nat :=
  let loops := loopsOf (g.nodes.map (·.d))
  let (f, l) := loopBody (g.nodes.getD loop { d := [] }).d
  ((List.range (l + 1 - f)).map (f + ·)).filter (fun n =>
    !loops.any (fun (i, a, b) => i != loop && f ≤ a && b ≤ l && !(a == f && b == l && i < loop) && a ≤ n && n ≤ b))

/-- A round of the body starts. -/
def startBody (s : State) (g : Graph) (loop : Nat) : State :=
  let (f, l) := loopBody (g.nodes.getD loop { d := [] }).d
  let s1 := onNode s g.id loop (fun x => { x with aux := (x.aux + 1) % 2 ^ 32, round := true })
  let s2 := ((List.range (l + 1 - f)).map (f + ·)).foldl (fun acc n =>
    onNode acc g.id n (fun x => { x with arr := 0, state := 0, gotRun := false })) s1
  let first := (ownBody g loop).filter (fun n => nodePred (g.nodes.getD n { d := [] }).d == 0)
  onGraph s2 g.id (fun g => { g with starts := g.starts ++ first })

/-- No round is under way: none was begun, or every node of the body is done, skipped or failed. -/
def bodyIdle (g : Graph) (loop : Nat) : Bool :=
  !(g.nodes.getD loop { d := [] }).round || (ownBody g loop).all (fun n => 2 ≤ (g.nodes.getD n { d := [] }).state)

def nodeLoopAt (graph node : Nat) (s : State) : Host.Outcome State Fault Refusal :=
  event s (fun s =>
    match findGraph s graph with
    | none => s
    | some g =>
      let x := g.nodes.getD node { d := [] }
      let limit := ((x.d.getD 5 0#64).extractLsb' 48 16).toNat
      if nodeKind x.d != 4 || x.state != 1 || !bodyIdle g node || readWaits s (nodeId g node) then s
      else if limit != 0 && x.aux == limit then nodeDone s graph node
      else match nodeRead s g node (x.d.getD 2 0#64).toNat with
        | .error s1 => s1
        | .ok v =>
          let s := gpHold s ⟨g.site, g.ctx⟩ (x.d.getD 2 0#64).toNat 8
          if testHolds x.d v then startBody s g node else nodeDone s graph node)

def execNodeLoop (s : State) : Host.Outcome State Fault Refusal := nodeLoopAt (subject s 0) (subject s 1) s

/-- A word after an atomic subtraction of a target, when it stays at or above zero as a signed number (R326). -/
def subTarget (target : Word) (old : Nat) : Option Nat :=
  let left := BitVec.ofNat 32 old - target
  if left.toInt < 0 then none else some left.toNat

/-- R326: the count reaches the target, which one atomic operation subtracts from it. -/
def nodeWaitAt (graph node : Nat) (s : State) : Host.Outcome State Fault Refusal :=
  event s (fun s =>
    match findGraph s graph with
    | none => s
    | some g =>
      let x := g.nodes.getD node { d := [] }
      let va := g.hdr + 64 + 64 * node + 48
      let target := (x.d.getD 2 0#64).extractLsb' 0 32
      if nodeKind x.d != 5 || x.state != 1 || readWaits s (nodeId g node) then s
      else match nodeRead s g node va, translate s g.ctx va with
        | .ok v, some ia =>
          let count := v.extractLsb' 0 32
          if (count - target).toInt < 0 then s
          else match masterRmw s (graphMaster g.site g.ctx) g.site ia 4 target.toNat false true (subTarget target) with
            | .ok (s1, old, _) => if (subTarget target old).isSome then nodeDone s1 graph node else s1
            | .error e => (waitGp s g.site g.ctx e (.launch (nodeId g node)) 2).1
        | .error s1, _ => s1
        | _, none => nodeFailed s graph node)

def execNodeWait (s : State) : Host.Outcome State Fault Refusal := nodeWaitAt (subject s 0) (subject s 1) s

/-! ### Completion (R327) -/

/-- Every launch of the graph's kernel nodes is assured. -/
def graphAssured (s : State) (g : Graph) : Bool :=
  g.launches.all (fun k => ((findLaunch s k).map (fun l => l.state == 2)).getD true)

/-- No node runs and no token is pending: the record; later, the rewrite to state 2. -/
def graphCompletionAt (graph : Nat) (s : State) : Host.Outcome State Fault Refusal :=
  event s (fun s =>
    match findGraph s graph with
    | none => s
    | some g =>
      let write (s : State) (ws : Nat × Nat → List (Nat × List Byte)) : State := match g.crec with
        | none => s
        | some c => postRecord s (2 * g.id) g.site g.ctx 0xFFFFFFFF (ws c)
      if g.completed then
        if g.state == 1 && graphAssured s g then
          write (onGraph s graph (fun g => { g with state := 2 })) (fun (_, d1) => [(d1, toBytes 1 2)])
        else s
      else if g.nodes.any (·.state == 1) || !g.tokens.isEmpty || !g.starts.isEmpty then s
      else
        let st := if g.poisoned then 3 else if graphAssured s g then 2 else 1
        write (onGraph s graph (fun g => { g with completed := true, state := st }))
          (fun (d0, d1) => [(d1, toBytes 8 st), (d0, toBytes 8 (cycAt s g.site))]))

def execGraphCompletion (s : State) : Host.Outcome State Fault Refusal := graphCompletionAt (subject s 0) s

end Sys2Proof.Machine
end

