-- ==== Sys2Proof/Machine/HostPort.lean ====
section
/-!
DEFINITION. What a host does at a port: its accesses to device memory (18 R342, R357; 21 R395), the links of the ports
(R396), and the host's side of CXL.cache (04 R100; 18 R357).
-/

namespace Sys2Proof.Machine

open Sys2Proof

def portUp (s : State) (port : Nat) : Bool := s.hostUp.getD port false

/-- What a port's function reports in its extended capability (R393): the module serial, the port index and the number of
ports that trained at the last reset. The functions that report one serial are one device. -/
def portReport (s : State) (port : Nat) : Nat × Nat × Nat := (s.serial, port, s.trained)

/-- Every site gives up a host line. -/
def allGiveUp (s : State) (line : Nat) : State := othersGiveUp s 64 line

/-! ### Accesses (R342, R357, R395) -/

/-- A host access through decoder `dec` at physical offset `off`, within one line. On a page with HB the device's agents
give the line up to the host. A decoder whose node is not the module's own fails every access as no home. -/
def execHostCxlMemAccess (port dec off n : Nat) (write : Bool) (bytes : List Byte) (s : State) :
    Host.Outcome State Fault Refusal :=
  event s (fun s =>
    let site := hostPortSites.getD port 24
    let x := findSite s site
    let ia := (x.hdxia.getD dec 0#64).toNat + off
    let ctx := (x.hdxctx.getD dec 0#64).toNat
    let len := if write then bytes.length else n
    if 4 ≤ port || 4 ≤ dec || len == 0 || 128 < ia % 128 + len || !portUp s port then s
    else
      let r : HostReq := { id := s.nextId, port := port, ctx := ctx, ia := ia, n := len, write := write, bytes := bytes }
      let s1 := { s with nextId := s.nextId + 1, hostReqs := s.hostReqs ++ [r] }
      if iaNode ia != s.wafer then
        hostFails s1 r ⟨site, 5, 0, ia⟩
      else
        let hb := (place s (hostMaster port ctx) (if write then rightW else rightR) site ia).1.attr == 3
        serveHost (if hb then allGiveUp s1 (iaLine ia) else s1) r)

/-! ### Links (R396) -/

/-- The access waits for the host at the port through which its request went (R100, R357, R396). -/
def waitsAtPort (portSite : Nat) (a : Acc) : Bool := a.stage == .host portSite

/-- The logged store that a core would perform next waits for the host at a port: it ends as host abort, and goes on in a
pending entry (R396). -/
def abortLog (s : State) (portSite : Nat) (core : CoreId) : State :=
  match (findCore s core).log with
  | [] => s
  | e :: rest =>
    if e.port != some portSite then s
    else
      let kind := if 8 ≤ e.store.op then 7 else if e.store.op == 0 then 1 else 3
      let home := if iaNode e.store.ia == s.wafer then iaSite e.store.ia else core.site
      let (s1, fid) := holdPending s ⟨home, 6, 0, e.store.ia⟩ { (entryAcc s core e).requester s with acc := kind } (.log e.uid e.windex e.ply)
      onCore s1 core (fun c => { c with log := { e with fid := some fid, port := none } :: rest })

/-- A link goes down: what is outstanding on it completes as host abort; the host's own accesses are its to retry. -/
def execHostLinkDown (port : Nat) (s : State) : Host.Outcome State Fault Refusal :=
  event s (fun s =>
    if 4 ≤ port || !portUp s port then s
    else
      let site := hostPortSites.getD port 24
      let hit := s.accs.filter (waitsAtPort site)
      let mine := (s.hostReqs.filter (fun r => r.port == port && !r.done)).map (·.id)
      let s1 : State := { s with
        hostUp := s.hostUp.set port false
        hostReqs := s.hostReqs.filter (fun r => !mine.contains r.id)
        pendings := s.pendings.map (fun p => { p with waiters := p.waiters.filter (fun w => match w with
          | .host id => !mine.contains id
          | _ => true) }) }
      let s2 := (s1.cores.map (·.id)).foldl (fun acc c => abortLog acc site c) s1
      hit.foldl (fun acc a => faultAccess acc a (Failure.mk (if iaNode a.ia == s.wafer then iaSite a.ia else a.src) 6 0 a.ia)) s2)

/-- A port trains again; only new requests use it. -/
def execHostLinkUp (port : Nat) (s : State) : Host.Outcome State Fault Refusal :=
  event s (fun s =>
    if port < 4 && (findSite s (hostPortSites.getD port 24)).joined then { s with hostUp := s.hostUp.set port true } else s)

/-! ### Host lines (R100, R357) -/

/-- The line at the port is granted to an access that has asked for it: it goes on at once at the port's own site, else when the
answer has come over the mesh (R357, R379). -/
def grantAcc (s : State) (site line : Nat) (a : Acc) : State :=
  match a.stage with
  | .host port =>
    if !a.asked || a.src != site || iaLine a.ia != line && iaLine (a.ia + a.n - 1) != line then s
    else if port == a.src then arriveHome s a
    else sendPacket (setAcc s { a with stage := .granted }) port a.src 1 a.id false
  | _ => s

/-- The host answers a CXL.cache request for a line, `shared` for reading only, and what waited for it goes on. -/
def execHostLineGrant (site line : Nat) (shared : Bool) (s : State) : Host.Outcome State Fault Refusal :=
  event s (fun s =>
    if (nearestHostPort s site).isNone then s
    else pumpLogs (s.accs.foldl (fun acc a => grantAcc acc site line a) (holdLine s site line shared)))

/-- The host snoops a line: the device keeps it for reading only, or gives it up. -/
def execHostSnoop (site line : Nat) (shared : Bool) (s : State) : Host.Outcome State Fault Refusal :=
  event s (fun s =>
    if shared && s.hbHeld.contains (site, line) then
      { s with hbHeld := s.hbHeld.filter (· != (site, line)), hbShared := s.hbShared ++ [(site, line)] }
    else if shared then s
    else giveUpLine s site line)

end Sys2Proof.Machine
end

