-- ==== Sys2Proof/Machine/MatrixInstr.lean ====
section
/-!
DEFINITION. The matrix instructions: opcodes 0xE0 to 0xEE (11 R237 to R263).
-/

namespace Sys2Proof.Machine

open Sys2Proof

/-! ### Reservations (R241, R242) -/

def execObres (f : Fields) (s : State) : Host.Outcome State Fault Refusal :=
  issue (.obres f) s (fun f _ m s =>
    let hv := f.variant.toNat % 16
    let d0 := scalarVal s f m f.a.toNat
    let d1 := scalarVal s f m f.b.toNat
    let r : Resn := { id := s.nextId, d0 := d0, d1 := d1, base := (d0.extractLsb' 20 11).toNat, data := []
                      tscale := if f.f == 0xF0#8 then 0#32 else (scalarVal s f m f.f.toNat).setWidth 32 }
    if m == 0#32 then Result.regs s []
    else if !r.recordOk || ((mfmt r.fmt).tensor != (f.f != 0xF0#8)) then .trap 0x01 [baseWord 0xE0 f]
    else if (liveRes s.team hv).isSome then Result.regs s (sclWrite f.d 2#64)
    else if rangeBusy s s.team.at_ r.base r.units then Result.regs s (sclWrite f.d 1#64)
    else
      Result.regs { s with nextId := s.nextId + 1, team := { s.team with resns := s.team.resns.set hv (some r) } }
        (sclWrite f.d 0#64))

def execObrel (f : Fields) (s : State) : Host.Outcome State Fault Refusal :=
  issue (.obrel f) s (fun f _ m s =>
    let hv := f.variant.toNat % 16
    if m == 0#32 then Result.regs s []
    else match liveRes s.team hv with
      | none => Result.regs s (sclWrite f.d 3#64)
      | some r =>
        let s1 := { s with team := { s.team with
          resns := s.team.resns.set hv none, oldResns := s.team.oldResns ++ [r] } }
        Result.regs (freeReleased s1 s.team.uid s.team.at_.site s.team.at_.cluster) (sclWrite f.d 0#64))

/-! ### Posting -/

/-- A command of the issuing weave alone is posted once its ply's accesses are performed (R120); a full table
holds the ply (R248). -/
def postAlone (s : State) (e : EngCmd) : Result :=
  if !commandReady s then .wait .retry s
  else offerCommand s (match postCmd s { e with uid := s.team.uid, owners := [(s.team.uid, s.weave.windex)] } with
    | none => .wait .retry s
    | some s1 => Result.regs s1 [])

/-- Flags of the variant field (R240): bit 0 sp. -/
def isSp (f : Fields) : Bool := bit f.variant.toNat 0

/-- R243. -/
def execObload (f : Fields) (s : State) : Host.Outcome State Fault Refusal :=
  issue (.obload f) s (fun f _ m s =>
    let a := (scalarVal s f m f.a.toNat).toNat
    let ref := scalarVal s f m f.b.toNat
    let n := (scalarVal s f m f.c.toNat).toNat
    let off := (ref.extractLsb' 32 32).toNat
    let h := (ref.extractLsb' 0 4).toNat
    if m == 0#32 then Result.regs s []
    else match liveRes s.team h with
      | none => .trap 0x0A [ref]
      | some r =>
        if ref.extractLsb' 4 28 != 0#28 || off % 16 != 0 || n % 16 != 0 || r.bytes < off + n then .trap 0x0A [ref]
        else
          let e : EngCmd := { op := .obload, writes := [h], rd := r.id, a := BitVec.ofNat 64 a, b := ref
                              depth := BitVec.ofNat 64 n, sp := isSp f }
          if isSp f then
            if s.team.kernel.claim < a + n then .trap 0x08 [BitVec.ofNat 64 a, BitVec.ofNat 64 (lowestLane m)]
            else postAlone s e
          else match windowMiss (winsHere s) a n with
            | some x => .trap 0x06 [BitVec.ofNat 64 x, BitVec.ofNat 64 (lowestLane m)]
            | none => if !commandReady s then .wait .retry s else postAlone (spoilRange s a n) e)

/-! ### Gather lists (R244) -/

/-- kor of an operand lies on a multiple of 16, or of 32 for codes 16 to 21 (R239). -/
def korOk (r : Resn) (t : TileRef) : Bool := t.kor % (if 16 ≤ r.fmt && r.fmt ≤ 21 then 32 else 16) == 0

/-- Lane i of an index register; for shape 64 the odd register gives rows 32 to 63. -/
def indexOf (s : State) (f : Fields) (i : Nat) : Nat :=
  ((vget s (f.b.toNat + i / 32)).map (fun r => (lane r.lanes (i % 32)).toNat)).getD 0

/-- The shape as a number of rows (R134). -/
def shapeOf (f : Fields) : Nat := 8 * 2 ^ f.shape

/-- The rows that the active lanes name. -/
def gatherRows (s : State) (f : Fields) (m : LaneMask) : List (Option Nat) :=
  (List.range (shapeOf f)).map (fun i => if inMask m (i % 32) then some (indexOf s f i) else none)

/-- The list of an `obgath`, the handle of its source or template, or its trap. A template whose bits [63:4] are not zero
names no reservation (DESIGN CHOICE, log 123). -/
def gatherList (s : State) (f : Fields) (m : LaneMask) : Except (Nat × List DWord) (GatherList × Nat) :=
  let a := scalarVal s f m f.a.toNat
  let rows := gatherRows s f m
  if !isSp f then
    match liveRes s.team (tileRef a).h with
    | some r => if tileOk a false && korOk r (tileRef a) then .ok ({ rows := rows, src := r.id }, (tileRef a).h) else .error (0x0A, [a])
    | none => .error (0x0A, [a])
  else
    let ref := scalarVal s f m f.c.toNat
    match liveRes s.team (ref.extractLsb' 0 4).toNat with
      | none => .error (0x0A, [ref])
      | some r =>
        if ref.extractLsb' 4 60 != 0#60 || (mfmt r.fmt).blk != .none || (mfmt r.fmt).band then .error (0x0A, [ref])
        else
          let n := ceilDiv (r.kdim * (mfmt r.fmt).elem.width) 8
          match rows.findSome? (fun o => o.bind (fun l => windowMiss (winsHere s) (a.toNat + l * r.pitch) n)) with
          | some x => .error (0x06, [BitVec.ofNat 64 x, BitVec.ofNat 64 (lowestLane m)])
          | none =>
            .ok ({ rows := rows, src := r.id, mem := some a.toNat, wins := winsHere s }, (ref.extractLsb' 0 4).toNat)

/-- The gathered lines are read ranges of the team (R366). -/
def spoilGather (s : State) (g : GatherList) : State :=
  match g.mem with
  | none => s
  | some base =>
    match findRes s s.team.uid g.src with
    | none => s
    | some r => g.rows.foldl (fun acc o => match o with
      | some l => spoilRange acc (base + l * r.pitch) (ceilDiv (r.kdim * (mfmt r.fmt).elem.width) 8)
      | none => acc) s

def execObgath (f : Fields) (s : State) : Host.Outcome State Fault Refusal :=
  issue (.obgath f) s (fun f _ m s =>
    let list := f.variant.toNat / 4 % 4
    if m == 0#32 then Result.regs s []
    else match gatherList s f m with
      | .error (c, info) => .trap c info
      | .ok (g, h) =>
        if !commandReady s then .wait .retry s
        else
          let s1 := { spoilGather s g with team := { (spoilGather s g).team with lists := s.team.lists.set list (some g) } }
          offerCommand s (match postCmd s1 { op := .obgath, uid := s.team.uid, owners := [(s.team.uid, s.weave.windex)], reads := [h]
                                             writes := [16 + list], ra := g.src, glist := some g } with
          | none => .wait .retry s
          | some s2 => Result.regs s2 []))

/-! ### Gangs (R245) -/

/-- The value has the layout of R20 and names the weave. -/
def gangLayout (g : DWord) (own : Nat) : Bool :=
  let n := (g.extractLsb' 48 3).toNat
  let ms := gangMembers g
  n != 1 && n != 7 && g.extractLsb' 51 13 == 0#13 &&
  (List.range 6).all (fun k => k < n || g.extractLsb' (8 * k) 8 == 0#8) &&
  (distinct ms).length == n && (n == 0 || ms.contains own)

/-- The resident weave of the issuing ply's cluster with a handle: its team, its index and its gang. -/
def weaveByHandle (s : State) (h : Nat) : Option (Team × Weave) :=
  let here (t : Team) : Bool := t.at_.site == s.team.at_.site && t.at_.cluster == s.team.at_.cluster
  if s.weave.handle == h then some (s.team, s.weave)
  else
    let in_ (t : Team) : Option (Team × Weave) := (t.weaves.find? (fun w => w.handle == h && !w.ended)).map (fun w => (t, w))
    match in_ s.team with
    | some x => some x
    | none => (s.teams.filter here).findSome? in_

/-- The weave takes a gang value; whoever waits for it at the rendezvous under another value takes gang-divergence
(R247). -/
def setGang (s : State) (g : DWord) : State :=
  whileParked { s with weave := { s.weave with gang := g } } (fun t =>
    divergeLatch t s.team.at_.site s.team.at_.cluster (fun a =>
      (gangMembers a.gang).contains s.weave.handle && a.gang != g))

def execGangSet (f : Fields) (s : State) : Host.Outcome State Fault Refusal :=
  issue (.gangSet f) s (fun f _ m s =>
    let g := scalarVal s f m f.a.toNat
    if m == 0#32 then Result.regs s []
    else if !gangLayout g s.weave.handle then Result.regs s (sclWrite f.d 1#64)
    else if (gangMembers g).any (fun h => match weaveByHandle s h with
        | some (t, _) => t.launch != s.team.launch
        | none => true) then Result.regs s (sclWrite f.d 2#64)
    else Result.regs (setGang s g) (sclWrite f.d 0#64))

/-! ### Joint instructions (R246) -/

/-- The operand values of a joint instruction, and its indices. -/
structure JointVals where
  d : DWord
  a : DWord
  b : DWord
  rows : DWord
  cols : DWord
  depth : DWord
  perm : List (Option Nat)
  deriving DecidableEq, Repr

def jointVals (s : State) (f : Fields) (m : LaneMask) (op : EngOp) : JointVals :=
  let v (c : BitVec 8) : DWord := if c == 0xF0#8 then 0#64 else scalarVal s f m c.toNat
  { d := v f.d, a := v f.a, b := if op == .mperm then 0#64 else v f.b, rows := v f.c, cols := v f.e, depth := v f.f
    perm := if op == .mperm then (List.range (if f.shape == 3 then 64 else 32)).map (fun i => some (indexOf s f i)) else [] }

/-- What two members compare: every operand value. -/
def JointVals.words (v : JointVals) : List DWord :=
  [v.d, v.a, v.b, v.rows, v.cols, v.depth] ++ v.perm.map (fun o => BitVec.ofNat 64 (o.getD 0))

/-- An operand tile that is no gather list. -/
def tileRes (t : Team) (x : DWord) : Option Resn :=
  if !tileOk x false then none
  else (liveRes t (tileRef x).h).bind (fun r => if korOk r (tileRef x) then some r else none)

/-- The list that A names, with its live source; none when that has been released (DESIGN CHOICE, log 123). -/
def tileList (t : Team) (x : DWord) : Option (GatherList × Resn) :=
  if !tileOk x true then none
  else
    (t.lists.getD ((tileRef x).h % 4) none).bind (fun g =>
      ((t.resns.filterMap (fun r => r)).find? (·.id == g.src)).bind (fun r =>
        if korOk r (tileRef x) then some (g, r) else none))

/-- R239, R74: the command that a joint instruction posts on the records of a team, or its trap. -/
def jointCmd (t : Team) (f : Fields) (op : EngOp) (opc : Nat) (recomb : Bool) (v : JointVals) :
    Except (Nat × DWord) EngCmd :=
  let td := tileRef v.d
  let ta := tileRef v.a
  let acc := if tileOk v.d false then (liveRes t td.h).bind (fun r => if isAccFmt r.fmt then some r else none) else none
  match acc with
  | none => .error (0x0A, v.d)
  | some rd =>
    let base : EngCmd := { op := op, uid := t.uid, writes := [td.h], d := v.d, a := v.a, b := v.b, rows := v.rows
                           cols := v.cols, depth := v.depth, rd := rd.id, perm := v.perm, shape := shapeOf f
                           rnd := f.rnd, recomb := recomb && !f.cl }
    if op == .mm then
      let a : Option (Resn × Option GatherList × Nat) :=
        if v.a.getLsbD 5 then (tileList t v.a).map (fun (g, r) => (r, some g, 16 + ta.h % 4))
        else (tileRes t v.a).map (fun r => (r, none, ta.h))
      match a, tileRes t v.b with
      | none, _ => .error (0x0A, v.a)
      | _, none => .error (0x0A, v.b)
      | some (ra, g, na), some rb =>
        if !pairOk ra.fmt rb.fmt rd.fmt then .error (0x01, baseWord opc f)
        else .ok { base with reads := [na, (tileRef v.b).h], ra := ra.id, rb := rb.id, glist := g }
    else match tileRes t v.a with
      | none => .error (0x0A, v.a)
      | some ra =>
        if !pairOk ra.fmt ra.fmt rd.fmt then .error (0x01, baseWord opc f)
        else .ok { base with reads := [ta.h], ra := ra.id }

/-- Another member goes on behind the joint instruction with all that its issue entails. -/
def releaseMember (f : Fields) (i : Instr) (s : State) (a : Arrival) : State :=
  let s1 := focusOn s a.uid a.windex a.ply
  match rowOf i with
  | none => s1
  | some r => park (finish s1 r f a.pc (activeLanes s1 f) s1 [] 0#7 none)

/-- Every waiting member takes a trap at its next issue. -/
def trapMembers (s : State) (as : List Arrival) (code : Nat) (info : DWord) : State :=
  as.foldl (fun acc a => updPly acc a.uid a.windex a.ply (fun p =>
    Ply.raise { p with wait := .retry } code info)) s

/-- Every waiting member takes gang-divergence at its next issue, with the gang of its own weave in the record
(R247, R301). -/
def divergeMembers (s : State) (as : List Arrival) : State :=
  as.foldl (fun acc a =>
    trapMembers acc [a] 0x0C (((peekWeave acc a.uid a.windex).map (·.gang)).getD a.gang)) s

/-- The arrivals of one gang leave the latch. -/
def clearLatch (s : State) (g : DWord) : State :=
  onCluster s s.team.at_.site s.team.at_.cluster (fun c => { c with latch := c.latch.filter (fun a =>
    !(gangMembers g).contains a.handle) })

/-- R366: a gang that spans teams makes each of them ineligible. -/
def spoilGang (s : State) (as : List Arrival) : State :=
  if as.all (·.uid == s.team.uid) then s
  else as.foldl (fun acc a => updTeam acc a.uid Team.spoil) (spoil s)

/-- The last member has arrived: the operation is posted, or every member takes the trap of R239; with a full
table the arrivals stay (R248). -/
def openRendezvous (s : State) (f : Fields) (i : Instr) (op : EngOp) (opc : Nat) (v : JointVals)
    (me : Arrival) (others : List Arrival) : Result :=
  let g := s.weave.gang
  match weaveByHandle s ((gangMembers g).headD 0) with
  | none => .trap 0x0C [g]
  | some (t, _) =>
    match jointCmd t f op opc t.kernel.recomb v with
    | .error (c, info) =>
      let s1 := trapMembers (clearLatch s g) others c info
      .wait .retry { s1 with ply := s1.ply.raise c info }
    | .ok e =>
      let owners := (others ++ [me]).map (fun a => (a.uid, a.windex))
      match postCmd s { e with owners := owners } with
      | none => .wait .retry s
      | some s1 =>
        let s2 := spoilGang (clearLatch s1 g) others
        Result.regs (whileParked s2 (fun p => others.foldl (releaseMember f i) p)) []

/-- A joint instruction (R246). -/
def joint (i : Instr) (op : EngOp) (f : Fields) (a : DWord) (m : LaneMask) (s : State) : Result :=
  let opc := opcodeOf i
  let v := jointVals s f m op
  let g := s.weave.gang
  if !commandReady s || s.team.leaving.isSome then .wait .retry s
  else if g.extractLsb' 48 3 == 0#3 then
    match jointCmd s.team f op opc s.team.kernel.recomb v with
    | .error (c, info) => .trap c [info]
    | .ok e => postAlone s e
  else offerCommand s (
    let latch := (clusterHere s).latch
    let ms := gangMembers g
    let mine (x : Arrival) : Bool := x.uid == s.team.uid && x.windex == s.weave.windex
    let others := latch.filter (fun x => ms.contains x.handle && !mine x)
    let me : Arrival := { uid := s.team.uid, windex := s.weave.windex, ply := s.ply.n, handle := s.weave.handle, gang := g
                          pc := a, fields := f, op := op, vals := v.words }
    let agree := ms.all (fun h => match weaveByHandle s h with
      | some (_, w) => w.gang == g
      | none => false)
    let second := latch.any (fun x => mine x && x.ply != s.ply.n)
    let diverge : Result :=
      let s1 := divergeMembers (clearLatch s g) (latch.filter (fun x => ms.contains x.handle && !(mine x && x.ply == s.ply.n)))
      .wait .retry { s1 with ply := s1.ply.raise 0x0C g }
    if !agree || second then diverge
    else
      let s1 := onCluster s s.team.at_.site s.team.at_.cluster (fun c =>
        { c with latch := c.latch.filter (fun x => !mine x) ++ [me] })
      if others.length + 1 < ms.length then .wait .rendezvous s1
      else if others.all (fun x => x.pc == a && x.fields == f && x.op == op && x.vals == me.vals && x.gang == g) then
        openRendezvous s1 f i op opc v me others
      else diverge)

def execMm (f : Fields) (s : State) : Host.Outcome State Fault Refusal :=
  issue (.mm f) s (fun f a m s => joint (.mm f) .mm f a m s)

def execMtr (f : Fields) (s : State) : Host.Outcome State Fault Refusal :=
  issue (.mtr f) s (fun f a m s => joint (.mtr f) .mtr f a m s)

def execMperm (f : Fields) (s : State) : Host.Outcome State Fault Refusal :=
  issue (.mperm f) s (fun f a m s => joint (.mperm f) .mperm f a m s)

def execMrsum (f : Fields) (s : State) : Host.Outcome State Fault Refusal :=
  issue (.mrsum f) s (fun f a m s => joint (.mrsum f) .mrsum f a m s)

/-! ### Accumulators (R261, R262) -/

def execAccZero (f : Fields) (s : State) : Host.Outcome State Fault Refusal :=
  issue (.accZero f) s (fun f _ m s =>
    let x := scalarVal s f m f.a.toNat
    let h := (x.extractLsb' 0 4).toNat
    if m == 0#32 then Result.regs s []
    else match liveRes s.team h with
      | none => .trap 0x0A [x]
      | some r => postAlone s { op := .accZero, writes := [h], rd := r.id })

/-- The first address of a window that leaves the claim, or that no window translates. -/
def accRangeTrap (s : State) (m : LaneMask) (e : EngCmd) (r : Resn) (n : Nat) : Option (Nat × List DWord) :=
  let lane := BitVec.ofNat 64 (lowestLane m)
  (admitted r (tileRef e.d) e.shape e.rows e.cols).findSome? (fun (i, j) =>
    let a := accAddr e n i j
    if e.sp then (if s.team.kernel.claim < a + n then some (0x08, [BitVec.ofNat 64 a, lane]) else none)
    else (windowMiss (winsHere s) a n).map (fun x => (0x06, [BitVec.ofNat 64 x, lane])))

/-- `acc.ld` and `acc.st` up to their posting. -/
def accMove (f : Fields) (m : LaneMask) (s : State) (op : EngOp) : Result :=
  let d := scalarVal s f m f.d.toNat
  let t := tyOf f
  if m == 0#32 then Result.regs s []
  else
    let acc := if tileOk d false then (liveRes s.team (tileRef d).h).bind (fun r => if isAccFmt r.fmt then some r else none)
               else none
    match acc with
    | none => .trap 0x0A [d]
    | some r =>
      let e : EngCmd := { op := op, rd := r.id, d := d, a := scalarVal s f m f.a.toNat, b := scalarVal s f m f.b.toNat
                          rows := scalarVal s f m f.c.toNat, cols := scalarVal s f m f.e.toNat, shape := shapeOf f
                          rnd := f.rnd, type := f.type.toNat, sp := isSp f
                          reads := if op == .accSt then [(tileRef d).h] else []
                          writes := if op == .accSt then [] else [(tileRef d).h]
                          dry := s.team.run != .original }
      if (if op == .accSt then !(accStTypes r.fmt).contains t else t != accTy r.fmt) then .trap 0x0A [d]
      else match accRangeTrap s m e r (t.width / 8) with
        | some (c, info) => .trap c info
        | none =>
          if !commandReady s then .wait .retry s
          else if op == .accLd && !e.sp then
            postAlone ((admitted r (tileRef d) e.shape e.rows e.cols).foldl (fun acc (i, j) =>
              spoilRange acc (accAddr e (t.width / 8) i j) (t.width / 8)) s) e
          else postAlone s e

def execAccLd (f : Fields) (s : State) : Host.Outcome State Fault Refusal :=
  issue (.accLd f) s (fun f _ m s => accMove f m s .accLd)

def execAccSt (f : Fields) (s : State) : Host.Outcome State Fault Refusal :=
  issue (.accSt f) s (fun f _ m s => accMove f m s .accSt)

/-! ### Waiting and status (R249, R263) -/

def execMwait (f : Fields) (s : State) : Host.Outcome State Fault Refusal :=
  issue (.mwait f) s (fun f _ m s =>
    if m == 0#32 then Result.regs s []
    else if (stillOut s (waitSet (scalarVal s f m f.a.toNat))).isEmpty then Result.regs (acquireAt s s.team.at_) []
    else .wait .retry s)

/-- A set of names as a wait set. -/
def setBits (ks : List Nat) : Nat := (distinct ks).foldl (fun acc k => acc + 2 ^ k) 0

def execMpoll (f : Fields) (s : State) : Host.Outcome State Fault Refusal :=
  issue (.mpoll f) s (fun f _ m s =>
    let out := stillOut s (waitSet (scalarVal s f m f.a.toNat))
    if m == 0#32 then Result.regs s []
    else Result.regs (if out.isEmpty then acquireAt s s.team.at_ else s)
      (sclWrite f.d (BitVec.ofNat 64 (setBits out))))

def execMstat (f : Fields) (s : State) : Host.Outcome State Fault Refusal :=
  issue (.mstat f) s (fun f _ m s =>
    let own := (clusterHere s).outstanding.filter (·.uid == s.team.uid)
    let vec := f.variant == 0#5
    if vec != isV f.d.toNat then .trap 0x01 [baseWord 0xEE f]
    else if m == 0#32 then Result.regs s []
    else if own.any (·.op == .accSt) then .wait .retry s
    else if vec then
      Result.regs s (vecWrite f.d false m (tabulate (fun i =>
        BitVec.setWidth 64 (s.team.counts.getD i 0#32 ||| (s.team.counts.getD (i + 32) 0#32 <<< 16)))))
    else
      let held := ((clusterHere s).cmds.filter (·.uid == s.team.uid)).length
      Result.regs s (sclWrite f.d (BitVec.ofNat 64 (setBits (own.flatMap EngCmd.names) + held * 2 ^ 20))))

end Sys2Proof.Machine
end

