-- ==== Sys2Proof/Machine/VecInt.lean ====
section
/-!
DEFINITION. Vector integer instructions: opcodes 0x20 to 0x57 (03 R56, R57; 09 R188 to R197).
-/

namespace Sys2Proof.Machine

open Sys2Proof

/-- Lane by lane: each active lane computes a code of `res` bits' type t from its own lane, the flags of
the lanes are ORed (R43, R152), and the codes are written as R188 fills a lane. -/
def lanewise (f : Fields) (m : LaneMask) (s : State) (t : Ty) (op : Nat → Rounded) : Result :=
  let rs := tabulate (fun i => if inMask m i then op i else ⟨0, 0#7⟩)
  whenActive m s (Result.regs s
    (vecWrite f.d t.is64 m (rs.map (fun r => t.extend r.code)))
    (rs.foldl (fun acc r => acc ||| r.flags) 0#7))

/-- The element of lane i of a source vector, as a number of its width. -/
def elemAt (v : WideVec) (i : Nat) : Nat := (lane v i).toNat

/-- Operands D, A, y with an exact integer result (R192). -/
def intBinary (f : Fields) (m : LaneMask) (s : State) (op : Int → Int → Int) : Result :=
  let t := tyOf f
  let x := srcVec s f t 0
  let y := secondVec s f t
  lanewise f m s t (fun i => deliverInt t (satBit f) (op (t.intVal (elemAt x i)) (t.intVal (elemAt y i))))

/-- Operands D, A with an exact integer result (R192). -/
def intUnary (f : Fields) (m : LaneMask) (s : State) (op : Int → Int) : Result :=
  let t := tyOf f
  let x := srcVec s f t 0
  lanewise f m s t (fun i => deliverInt t (satBit f) (op (t.intVal (elemAt x i))))

/-- Operands D, A, y on the bits of the type (R193). -/
def bitBinary (f : Fields) (m : LaneMask) (s : State) (op : Nat → Nat → Nat → Nat) : Result :=
  let t := tyOf f
  let w := t.width
  let x := srcVec s f t 0
  let y := secondVec s f t
  lanewise f m s t (fun i => ⟨low w (op w (low w (elemAt x i)) (low w (elemAt y i))), 0#7⟩)

/-- Operands D, A on the bits of the type (R193). -/
def bitUnary (f : Fields) (m : LaneMask) (s : State) (op : Nat → Nat → Nat) : Result :=
  let t := tyOf f
  let w := t.width
  let x := srcVec s f t 0
  lanewise f m s t (fun i => ⟨low w (op w (low w (elemAt x i))), 0#7⟩)

/-- R193: the members on w bits. -/
def shlBits (w x c : Nat) : Nat := if c < w then x * 2 ^ c else 0
def shrBits (w x c : Nat) : Nat := if c < w then x / 2 ^ c else 0
def sraBits (w x c : Nat) : Nat := wrapNat w (signed w x / ((2 ^ min c (w - 1) : Nat) : Int))
def rotBits (w x c : Nat) : Nat := x * 2 ^ (c % w) + x / 2 ^ (w - c % w)
def popBits (w x : Nat) : Nat := ((List.range w).filter (bit x)).length
def clzBits (w x : Nat) : Nat := w - bitLen x
def revBits (w x : Nat) : Nat := (List.range w).foldl (fun acc k => acc + (if bit x k then 2 ^ (w - 1 - k) else 0)) 0

/-- R194: position and one past the top of the field that a spec operand names; `none` for an empty one. -/
def fieldSpec (w spec : Nat) : Option (Nat × Nat) :=
  let pos := spec % 256
  let len := spec / 256 % 256
  if len == 0 || w ≤ pos then none else some (pos, min (pos + len) w)

def bfxBits (t : Ty) (x spec : Nat) : Nat :=
  match fieldSpec t.width spec with
  | none => 0
  | some (pos, top) =>
    let fld := low (top - pos) (x / 2 ^ pos)
    if t.isSigned then wrapNat t.width (signed (top - pos) fld) else fld

def bfiBits (w x b spec : Nat) : Nat :=
  match fieldSpec w spec with
  | none => b
  | some (pos, top) => low pos b + low (top - pos) x * 2 ^ pos + b / 2 ^ top * 2 ^ top

def execAdd (f : Fields) (s : State) : Host.Outcome State Fault Refusal :=
  issue (.add f) s (fun f _ m s => intBinary f m s (fun x y => x + y))

def execSub (f : Fields) (s : State) : Host.Outcome State Fault Refusal :=
  issue (.sub f) s (fun f _ m s => intBinary f m s (fun x y => x - y))

def execMulLo (f : Fields) (s : State) : Host.Outcome State Fault Refusal :=
  issue (.mulLo f) s (fun f _ m s => intBinary f m s (fun x y => x * y))

/-- R192: the floor of the quotient by 2^w; `Int` division rounds down for a positive divisor. -/
def execMulHi (f : Fields) (s : State) : Host.Outcome State Fault Refusal :=
  issue (.mulHi f) s (fun f _ m s => intBinary f m s (fun x y => x * y / ((2 ^ (tyOf f).width : Nat) : Int)))

def execMad (f : Fields) (s : State) : Host.Outcome State Fault Refusal :=
  issue (.mad f) s (fun f _ m s =>
    let t := tyOf f
    let x := srcVec s f t 0
    let b := srcVec s f t 1
    let z := srcVec s f t 2
    lanewise f m s t (fun i => deliverInt t (satBit f)
      (t.intVal (elemAt x i) * t.intVal (elemAt b i) + t.intVal (elemAt z i))))

def execAbs (f : Fields) (s : State) : Host.Outcome State Fault Refusal :=
  issue (.abs f) s (fun f _ m s => intUnary f m s (fun x => (x.natAbs : Int)))

def execNeg (f : Fields) (s : State) : Host.Outcome State Fault Refusal :=
  issue (.neg f) s (fun f _ m s => intUnary f m s (fun x => -x))

def execMin (f : Fields) (s : State) : Host.Outcome State Fault Refusal :=
  issue (.min f) s (fun f _ m s => intBinary f m s (fun x y => min x y))

def execMax (f : Fields) (s : State) : Host.Outcome State Fault Refusal :=
  issue (.max f) s (fun f _ m s => intBinary f m s (fun x y => max x y))

def execAnd (f : Fields) (s : State) : Host.Outcome State Fault Refusal :=
  issue (.and f) s (fun f _ m s => bitBinary f m s (fun _ x y => x &&& y))

def execOr (f : Fields) (s : State) : Host.Outcome State Fault Refusal :=
  issue (.or f) s (fun f _ m s => bitBinary f m s (fun _ x y => x ||| y))

def execXor (f : Fields) (s : State) : Host.Outcome State Fault Refusal :=
  issue (.xor f) s (fun f _ m s => bitBinary f m s (fun _ x y => x ^^^ y))

def execNot (f : Fields) (s : State) : Host.Outcome State Fault Refusal :=
  issue (.not f) s (fun f _ m s => bitUnary f m s (fun w x => 2 ^ w - 1 - x))

def execShl (f : Fields) (s : State) : Host.Outcome State Fault Refusal :=
  issue (.shl f) s (fun f _ m s => bitBinary f m s shlBits)

def execShr (f : Fields) (s : State) : Host.Outcome State Fault Refusal :=
  issue (.shr f) s (fun f _ m s => bitBinary f m s shrBits)

def execSra (f : Fields) (s : State) : Host.Outcome State Fault Refusal :=
  issue (.sra f) s (fun f _ m s => bitBinary f m s sraBits)

def execRot (f : Fields) (s : State) : Host.Outcome State Fault Refusal :=
  issue (.rot f) s (fun f _ m s => bitBinary f m s rotBits)

def execPopc (f : Fields) (s : State) : Host.Outcome State Fault Refusal :=
  issue (.popc f) s (fun f _ m s => bitUnary f m s popBits)

def execClz (f : Fields) (s : State) : Host.Outcome State Fault Refusal :=
  issue (.clz f) s (fun f _ m s => bitUnary f m s clzBits)

def execBrev (f : Fields) (s : State) : Host.Outcome State Fault Refusal :=
  issue (.brev f) s (fun f _ m s => bitUnary f m s revBits)

def execBfx (f : Fields) (s : State) : Host.Outcome State Fault Refusal :=
  issue (.bfx f) s (fun f _ m s =>
    let t := tyOf f
    let x := srcVec s f t 0
    let p := srcSingle s f .n32 1
    lanewise f m s t (fun i => ⟨bfxBits t (elemAt x i) (elemAt p i), 0#7⟩))

def execBfi (f : Fields) (s : State) : Host.Outcome State Fault Refusal :=
  issue (.bfi f) s (fun f _ m s =>
    let t := tyOf f
    let x := srcVec s f t 0
    let b := srcVec s f t 1
    let p := srcSingle s f .n32 2
    lanewise f m s t (fun i =>
      ⟨bfiBits t.width (low t.width (elemAt x i)) (low t.width (elemAt b i)) (elemAt p i), 0#7⟩))

/-- R195: integer conditions. -/
def intCond (cc : Nat) (x y : Int) : Bool :=
  match cc with
  | 0 => x == y
  | 1 => x != y
  | 2 => x < y
  | 3 => x ≤ y
  | 4 => y < x
  | _ => y ≤ x

def execCmp (f : Fields) (s : State) : Host.Outcome State Fault Refusal :=
  issue (.cmp f) s (fun f _ m s =>
    let t := tyOf f
    let x := srcVec s f t 0
    let y := secondVec s f t
    whenActive m s (Result.regs s (maskWrite f.d m (maskOf (fun i =>
      intCond (f.variant.toNat % 16) (t.intVal (elemAt x i)) (t.intVal (elemAt y i)))))))

def execSel (f : Fields) (s : State) : Host.Outcome State Fault Refusal :=
  issue (.sel f) s (fun f _ m s =>
    let t := tyOf f
    let x := srcVec s f t 0
    let y := srcVec s f t 1
    let k := kread s f.c.toNat
    lanewise f m s t (fun i => ⟨low t.width (if inMask k i then elemAt x i else elemAt y i), 0#7⟩))

/-- R197: four products of packed bytes added to a 32-bit value. -/
def execDp4 (f : Fields) (s : State) : Host.Outcome State Fault Refusal :=
  issue (.dp4 f) s (fun f _ m s =>
    let t := tyOf f
    let u : Ty := if t == .i8 then .i32 else .n32
    let x := packedVec s f t 0
    let y := packedVec s f t 1
    let z := srcSingle s f u 2
    lanewise f m s u (fun i =>
      let p (k : Nat) : Int :=
        t.intVal (elemAt x i / 2 ^ (8 * k)) * t.intVal (elemAt y i / 2 ^ (8 * k))
      deliverInt u (satBit f) (u.intVal (elemAt z i) + p 0 + p 1 + p 2 + p 3)))

end Sys2Proof.Machine
end

