-- ==== Sys2Proof/Machine/VecFloat.lean ====
section
/-!
DEFINITION. Vector floating-point instructions: opcodes 0x60 to 0x8D (03 R58 to R63; 09 R198 to R204).
-/

namespace Sys2Proof.Machine

open Sys2Proof

/-- The rounding context of lane i: the effective mode (R135) and the stochastic hash (R63). -/
def rndAt (s : State) (f : Fields) (i elem : Nat) : RndCtx :=
  ⟨(Mode.ofCode f.rnd).getD .rne, srLow (srHash s.weave.srseed i (s.weave.srcnt.getD i 0#32) elem)⟩

/-- Operands D, A with one rounded result. -/
def floatUnary (f : Fields) (m : LaneMask) (s : State) (op : FloatFmt → RndCtx → Nat → Rounded) : Result :=
  let t := tyOf f
  let x := srcVec s f t 0
  lanewise f m s t (fun i => op t.fmt (rndAt s f i 0) (low t.width (elemAt x i)))

/-- Operands D, A, B with one rounded result. -/
def floatBinary (f : Fields) (m : LaneMask) (s : State)
    (op : FloatFmt → RndCtx → Nat → Nat → Rounded) : Result :=
  let t := tyOf f
  let x := srcVec s f t 0
  let y := srcVec s f t 1
  lanewise f m s t (fun i => op t.fmt (rndAt s f i 0) (low t.width (elemAt x i)) (low t.width (elemAt y i)))

def execFadd (f : Fields) (s : State) : Host.Outcome State Fault Refusal :=
  issue (.fadd f) s (fun f _ m s => floatBinary f m s fAdd)

def execFsub (f : Fields) (s : State) : Host.Outcome State Fault Refusal :=
  issue (.fsub f) s (fun f _ m s => floatBinary f m s fSub)

def execFmul (f : Fields) (s : State) : Host.Outcome State Fault Refusal :=
  issue (.fmul f) s (fun f _ m s => floatBinary f m s fMul)

def execFma (f : Fields) (s : State) : Host.Outcome State Fault Refusal :=
  issue (.fma f) s (fun f _ m s =>
    let t := tyOf f
    let x := srcVec s f t 0
    let y := srcVec s f t 1
    let z := srcVec s f t 2
    lanewise f m s t (fun i => fFma t.fmt (rndAt s f i 0) (low t.width (elemAt x i))
      (low t.width (elemAt y i)) (low t.width (elemAt z i))))

def execFmin (f : Fields) (s : State) : Host.Outcome State Fault Refusal :=
  issue (.fmin f) s (fun f _ m s => floatBinary f m s (fun t _ => fMinMax t false))

def execFmax (f : Fields) (s : State) : Host.Outcome State Fault Refusal :=
  issue (.fmax f) s (fun f _ m s => floatBinary f m s (fun t _ => fMinMax t true))

/-- R200. -/
def execFcmp (f : Fields) (s : State) : Host.Outcome State Fault Refusal :=
  issue (.fcmp f) s (fun f _ m s =>
    let t := tyOf f
    let x := srcVec s f t 0
    let y := srcVec s f t 1
    let c (i : Nat) := fCmp t.fmt (f.variant.toNat % 16) (low t.width (elemAt x i)) (low t.width (elemAt y i))
    let fl := (lanesOf m).foldl (fun acc i => acc ||| (c i).2) 0#7
    whenActive m s (Result.regs s (maskWrite f.d m (maskOf (fun i => (c i).1))) fl))

def execFrcp (f : Fields) (s : State) : Host.Outcome State Fault Refusal :=
  issue (.frcp f) s (fun f _ m s => floatUnary f m s fRcp)

def execFrsq (f : Fields) (s : State) : Host.Outcome State Fault Refusal :=
  issue (.frsq f) s (fun f _ m s => floatUnary f m s (fun t _ => fRsqrt t))

def execFsqrt (f : Fields) (s : State) : Host.Outcome State Fault Refusal :=
  issue (.fsqrt f) s (fun f _ m s => floatUnary f m s fSqrt)

def execFdiv (f : Fields) (s : State) : Host.Outcome State Fault Refusal :=
  issue (.fdiv f) s (fun f _ m s => floatBinary f m s fDiv)

def execFexp2 (f : Fields) (s : State) : Host.Outcome State Fault Refusal :=
  issue (.fexp2 f) s (fun f _ m s => floatUnary f m s (fun t _ => fExp2 t))

def execFlog2 (f : Fields) (s : State) : Host.Outcome State Fault Refusal :=
  issue (.flog2 f) s (fun f _ m s => floatUnary f m s (fun t _ => fLog2 t))

def execFsin (f : Fields) (s : State) : Host.Outcome State Fault Refusal :=
  issue (.fsin f) s (fun f _ m s => floatUnary f m s (fun t _ => fTrig t false))

def execFcos (f : Fields) (s : State) : Host.Outcome State Fault Refusal :=
  issue (.fcos f) s (fun f _ m s => floatUnary f m s (fun t _ => fTrig t true))

def execFrnd (f : Fields) (s : State) : Host.Outcome State Fault Refusal :=
  issue (.frnd f) s (fun f _ m s => floatUnary f m s fRnd)

/-- R201: the class bit, an n32 value in a single register. -/
def execFclass (f : Fields) (s : State) : Host.Outcome State Fault Refusal :=
  issue (.fclass f) s (fun f _ m s =>
    let t := tyOf f
    let x := srcVec s f t 0
    lanewise f m s .n32 (fun i => ⟨fClass t.fmt (low t.width (elemAt x i)), 0#7⟩))

def execFscale (f : Fields) (s : State) : Host.Outcome State Fault Refusal :=
  issue (.fscale f) s (fun f _ m s =>
    let t := tyOf f
    let x := srcVec s f t 0
    let n := srcSingle s f .i32 1
    lanewise f m s t (fun i => fScale t.fmt (rndAt s f i 0) (low t.width (elemAt x i)) (signed 32 (elemAt n i))))

/-- R202: two products of packed halves added to an f32 value. -/
def execFdot2 (f : Fields) (s : State) : Host.Outcome State Fault Refusal :=
  issue (.fdot2 f) s (fun f _ m s =>
    let t := tyOf f
    let x := packedVec s f t 0
    let y := packedVec s f t 1
    let z := srcSingle s f .f32 2
    lanewise f m s .f32 (fun i => fDot2 t.fmt (rndAt s f i 0) (low 16 (elemAt x i)) (low 16 (elemAt y i))
      (bits (elemAt x i) 31 16) (bits (elemAt y i) 31 16) (elemAt z i)))

end Sys2Proof.Machine
end

