-- ==== Sys2Proof/Machine/VecMove.lean ====
section
/-!
DEFINITION. Conversion, pack, unpack, permute, lane scans and reductions: opcodes 0xA0 to 0xAC (03 R64 to
R67; 09 R205 to R209).
-/

namespace Sys2Proof.Machine

open Sys2Proof

/-- R205: the source is an element of the source type, in which a constant is delivered too (log 11), the result one of the type
field. -/
def convert (f : Fields) (m : LaneMask) (s : State) (op : RndCtx → Nat → Rounded) : Result :=
  let t := srcTyOf f
  let x := srcVec s f t 0
  lanewise f m s (tyOf f) (fun i => op (rndAt s f i 0) (low t.width (elemAt x i)))

def execCvtIntInt (f : Fields) (s : State) : Host.Outcome State Fault Refusal :=
  issue (.cvtIntInt f) s (fun f _ m s => convert f m s (fun _ => cvtIntInt (tyOf f) (srcTyOf f) (satBit f)))

def execCvtIntFloat (f : Fields) (s : State) : Host.Outcome State Fault Refusal :=
  issue (.cvtIntFloat f) s (fun f _ m s => convert f m s (fun r => cvtIntFloat (tyOf f) (srcTyOf f) (satBit f) r))

def execCvtFloatInt (f : Fields) (s : State) : Host.Outcome State Fault Refusal :=
  issue (.cvtFloatInt f) s (fun f _ m s => convert f m s (fun r => cvtFloatInt (tyOf f) (srcTyOf f) r))

def execCvtFloatNarrow (f : Fields) (s : State) : Host.Outcome State Fault Refusal :=
  issue (.cvtFloatNarrow f) s (fun f _ m s => convert f m s (fun r => cvtFloatFloat (tyOf f) (srcTyOf f) (satBit f) r))

def execCvtFloatWiden (f : Fields) (s : State) : Host.Outcome State Fault Refusal :=
  issue (.cvtFloatWiden f) s (fun f _ m s => convert f m s (fun r => cvtFloatFloat (tyOf f) (srcTyOf f) (satBit f) r))

def execCvtFp8 (f : Fields) (s : State) : Host.Outcome State Fault Refusal :=
  issue (.cvtFp8 f) s (fun f _ m s => convert f m s (fun r => cvtFloatFloat (tyOf f) (srcTyOf f) (satBit f) r))

/-- R206: the sources as whole 32-bit lanes, clamped to the type or cut to its width. -/
def packLane (t : Ty) (sat : Bool) (xs : List Nat) : Rounded :=
  let whole : Ty := if t.isSigned then .i32 else .n32
  let rs := xs.map (fun x => deliverInt t sat (whole.intVal x))
  let code := (rs.foldl (fun (acc : Nat × Nat) r => (acc.1 + r.code * 2 ^ acc.2, acc.2 + t.width)) (0, 0)).1
  ⟨code, rs.foldl (fun acc r => acc ||| r.flags) 0#7⟩

def execPack (f : Fields) (s : State) : Host.Outcome State Fault Refusal :=
  issue (.pack f) s (fun f _ m s =>
    let t := tyOf f
    let src (k i : Nat) : Nat := elemAt (srcSingle s f .n32 k) i
    lanewise f m s .n32 (fun i =>
      packLane t (satBit f)
        (if t.width == 16 then [src 0 i, src 1 i] else [src 0 i, src 1 i, src 2 i, extSingle s f .n32 i])))

def execUnpack (f : Fields) (s : State) : Host.Outcome State Fault Refusal :=
  issue (.unpack f) s (fun f _ m s =>
    let t := tyOf f
    let x := srcSingle s f .n32 0
    lanewise f m s t (fun i => ⟨low t.width (elemAt x i / 2 ^ (t.width * f.variant.toNat)), 0#7⟩))

/-- R207: lane j[4:0] of A, active or not; zero when j[5] is set. -/
def execPerm (f : Fields) (s : State) : Host.Outcome State Fault Refusal :=
  issue (.perm f) s (fun f _ m s =>
    let t := tyOf f
    let x := srcVec s f t 0
    let j := srcSingle s f .n32 1
    lanewise f m s t (fun i =>
      if bit (elemAt j i) 5 then ⟨0, 0#7⟩ else ⟨low t.width (elemAt x (elemAt j i % 32)), 0#7⟩))

/-! ### Scans and reductions -/

/-- The element as a scan or a reduction takes it: a NaN as the canonical NaN (R60). -/
def arithElem (t : Ty) (x : Nat) : Nat := if t.isFloat && (t.fmt.val x).isNan then t.fmt.nanCode else x

/-- A signalling NaN among the active lanes sets nv (R60). -/
def snanLanes (t : Ty) (m : LaneMask) (code : Nat → Nat) : Flags :=
  if t.isFloat then snanFlag t.fmt ((lanesOf m).map code) else 0#7

/-- R208: one addition of a scan or reduction. -/
def addStep (f : Fields) (t : Ty) (x y : Nat) : Rounded :=
  if t.isFloat then fAdd t.fmt ⟨(Mode.ofCode f.rnd).getD .rne, 0⟩ x y
  else ⟨wrapNat t.width (t.intVal x + t.intVal y), 0#7⟩

/-- R208: the running sum over the active lanes; each lane receives the sum with its own element
(inclusive), or the sum before it (exclusive). -/
def scanLanes (step : Nat → Nat → Rounded) (exclusive : Bool) :
    List (Nat × Nat) → Option Nat → Flags → List (Nat × Nat) → List (Nat × Nat) × Flags
  | [], _, fl, out => (out, fl)
  | (i, x) :: rest, run, fl, out =>
    let r : Rounded := match run with
      | none => ⟨x, 0#7⟩
      | some y => step y x
    let d := if exclusive then run.getD 0 else r.code
    scanLanes step exclusive rest (some r.code) (fl ||| r.flags) ((i, d) :: out)

def execLscanAdd (f : Fields) (s : State) : Host.Outcome State Fault Refusal :=
  issue (.lscanAdd f) s (fun f _ m s =>
    let t := tyOf f
    let x := srcVec s f t 0
    let code (i : Nat) : Nat := low t.width (elemAt x i)
    let (out, fl) := scanLanes (addStep f t) (f.variant == 1#5)
      ((lanesOf m).map (fun i => (i, arithElem t (code i)))) none (snanLanes t m code) []
    whenActive m s (Result.regs s
      (vecWrite f.d t.is64 m (tabulate (fun i => t.extend ((assoc? i out).getD 0)))) fl))

/-- R209: the combining step of each operation. -/
def combStep (f : Fields) (t : Ty) (x y : Nat) : Rounded :=
  let lt (a b : Nat) : Bool := t.intVal a < t.intVal b
  match f.variant.toNat with
  | 0 => addStep f t x y
  | 1 => if t.isFloat then fMinMax t.fmt false x y else ⟨if lt y x then y else x, 0#7⟩
  | 2 => if t.isFloat then fMinMax t.fmt true x y else ⟨if lt x y then y else x, 0#7⟩
  | 3 => ⟨x &&& y, 0#7⟩
  | 4 => ⟨x ||| y, 0#7⟩
  | _ => ⟨x ^^^ y, 0#7⟩

/-- One level of the tree of R209. -/
def foldLevel (comb : Nat → Nat → Rounded) : List (Option Nat) → List (Option Nat) × Flags
  | p :: q :: rest =>
    let (ys, fl) := foldLevel comb rest
    match p, q with
    | none, _ => (q :: ys, fl)
    | _, none => (p :: ys, fl)
    | some a, some b => let r := comb a b; (some r.code :: ys, fl ||| r.flags)
  | xs => (xs, 0#7)

def foldTree (comb : Nat → Nat → Rounded) : Nat → List (Option Nat) → Flags → List (Option Nat) × Flags
  | 0, xs, fl => (xs, fl)
  | n + 1, xs, fl => let (ys, g) := foldLevel comb xs; foldTree comb n ys (fl ||| g)

def execLred (f : Fields) (s : State) : Host.Outcome State Fault Refusal :=
  issue (.lred f) s (fun f _ m s =>
    let t := tyOf f
    let x := srcVec s f t 0
    let code (i : Nat) : Nat := low t.width (elemAt x i)
    let (out, fl) := foldTree (combStep f t) 5
      (tabulate (fun i => if inMask m i then some (arithElem t (code i)) else none)) (snanLanes t m code)
    let r := t.extend ((out.headD none).getD 0)
    whenActive m s (Result.regs s
      (if isS f.d.toNat then sclWrite f.d r else vecWrite f.d t.is64 m (tabulate (fun _ => r))) fl))

end Sys2Proof.Machine
end

