-- ==== Sys2Proof/Machine/Quant.lean ====
section
/-!
DEFINITION. Block quantisation: opcodes 0xAD and 0xAE (03 R78 to R80; 09 R210 to R212).
-/

namespace Sys2Proof.Machine

open Sys2Proof

/-- The band scale of the block at a first lane: bits [31:16] of B as bf16, or 1 (R210). -/
def bandOf (s : State) (f : Fields) (mf : MFmt) (first : Nat) : Num :=
  if mf.band then fBF16.val (bits (srcLane s f (tyOf f) false false 1 first).toNat 31 16) else Num.one

/-- The quantised block whose first lane is given; `none` when no lane of it is active. -/
def blockOf (s : State) (f : Fields) (m : LaneMask) (mf : MFmt) (first : Nat) : Option QBlock :=
  let t := tyOf f
  let lanes := (List.range mf.L).map (fun k => first + k)
  if lanes.all (fun i => !inMask m i) then none
  else
    let code (i : Nat) : Nat := low t.width (srcLane s f t false false 0 i).toNat
    let u := low 8 (((vget s f.f.toNat).map (fun r => lane r.lanes first)).getD 0#32).toNat
    let q := quantBlock mf (bandOf s f mf first) u
      (lanes.map (fun i => if inMask m i then some (t.fmt.val (code i)) else none))
      (fun k => rndAt s f (first + k) 0)
    some { q with flags := q.flags ||| snanFlag t.fmt ((lanes.filter (inMask m)).map code) }

/-- R211: every lane of a block with an active lane is written. -/
def execQblk (f : Fields) (s : State) : Host.Outcome State Fault Refusal :=
  issue (.qblk f) s (fun f _ m s =>
    let mf := mfmt f.variant.toNat
    let blocks := (List.range (32 / mf.L)).map (fun b => blockOf s f m mf (b * mf.L))
    let at_ (i : Nat) : Option QBlock := blocks.getD (i / mf.L) none
    let written := maskOf (fun i => (at_ i).isSome)
    let vec (g : Nat → QBlock → Nat) : LaneVec :=
      tabulate (fun i => BitVec.ofNat 32 (((at_ i).map (g i)).getD 0))
    whenActive m s (Result.regs s
      [.v f.d.toNat written (vec (fun i q => bits q.stream (32 * (i % mf.L) + 31) (32 * (i % mf.L)))),
       .v f.e.toNat written (vec (fun _ q => q.scale)),
       .v f.f.toNat written (vec (fun _ q => q.count))]
      (blocks.foldl (fun acc o => acc ||| (o.map (·.flags)).getD 0#7) 0#7)))

/-- R212: element times scale times band, rounded once. A modifier of A acts on the sign bit of type t in each lane word of the
stream (DESIGN CHOICE, log 122). -/
def execDqblk (f : Fields) (s : State) : Host.Outcome State Fault Refusal :=
  issue (.dqblk f) s (fun f _ m s =>
    let t := tyOf f
    let mf := mfmt f.variant.toNat
    let w := mf.elem.width
    lanewise f m s t (fun i =>
      let first := i / mf.L * mf.L
      let stream := (List.range (mf.L * w / 32)).foldl (fun acc j =>
        acc + low 32 (srcLane s f t false false 0 (first + j)).toNat * 2 ^ (32 * j)) 0
      let k := i % mf.L
      let x := mf.elem.val (bits stream (w * k + w - 1) (w * k))
      let scale := mf.blk.val (low 8 (rawLane s f t false false f.e.toNat first).toNat)
      let band := bandOf s f mf first
      let v := scaled x scale band
      let r := rndAt s f i 0
      let snan := match mf.elem with
        | .fl e => e.isSnan (bits stream (w * k + w - 1) (w * k))
        | .int _ _ _ => false
      let nv := !scale.isNan && !band.isNan && (snan || (v.isNan && !x.isNan))
      (roundNum t.fmt r.mode false r.h v).orFlags (if nv then flNv else 0#7)))

end Sys2Proof.Machine
end

