-- ==== Sys2Proof/Machine/Scalar.lean ====
section
/-!
DEFINITION. The scalar family, special registers, mask operations and votes: opcodes 0x0E to 0x1F
(02 R42, R43; 08 R180 to R186).
-/

namespace Sys2Proof.Machine

open Sys2Proof

/-- R181: an instruction of the scalar family writes its 64-bit result when a lane is active. -/
def scalarOp (f : Fields) (m : LaneMask) (s : State) (x : DWord) : Result :=
  whenActive m s (Result.regs s (sclWrite f.d x))

/-- R181: shifts, whose count of 64 or more empties the register or fills it with the sign. -/
def shiftLeft (x y : DWord) : DWord := if y.toNat < 64 then x <<< y.toNat else 0#64
def shiftRight (x y : DWord) : DWord := if y.toNat < 64 then x >>> y.toNat else 0#64
def shiftArith (x y : DWord) : DWord :=
  if y.toNat < 64 then x.sshiftRight y.toNat else if x.getLsbD 63 then 0xFFFFFFFFFFFFFFFF#64 else 0#64

/-- `val(type, x) < val(type, y)` for i64 and n64 (R181, R182). -/
def lessThan (f : Fields) (x y : DWord) : Bool := if (tyOf f).isSigned then x.slt y else x.ult y

/-- The condition codes of R182. -/
def condCode (f : Fields) (cc : Nat) (x y : DWord) : Bool :=
  match cc with
  | 0 => x == y
  | 1 => x != y
  | 2 => lessThan f x y
  | 3 => !lessThan f y x
  | 4 => lessThan f y x
  | _ => !lessThan f x y

def execSadd (f : Fields) (s : State) : Host.Outcome State Fault Refusal :=
  issue (.sadd f) s (fun f _ m s =>
    let x := scalarVal s f m f.a.toNat
    let y := secondScalar s f m
    scalarOp f m s (x + y))

def execSsub (f : Fields) (s : State) : Host.Outcome State Fault Refusal :=
  issue (.ssub f) s (fun f _ m s =>
    let x := scalarVal s f m f.a.toNat
    let y := secondScalar s f m
    scalarOp f m s (x - y))

def execSmul (f : Fields) (s : State) : Host.Outcome State Fault Refusal :=
  issue (.smul f) s (fun f _ m s =>
    let x := scalarVal s f m f.a.toNat
    let y := secondScalar s f m
    scalarOp f m s (x * y))

def execSand (f : Fields) (s : State) : Host.Outcome State Fault Refusal :=
  issue (.sand f) s (fun f _ m s =>
    let x := scalarVal s f m f.a.toNat
    let y := secondScalar s f m
    scalarOp f m s (x &&& y))

def execSor (f : Fields) (s : State) : Host.Outcome State Fault Refusal :=
  issue (.sor f) s (fun f _ m s =>
    let x := scalarVal s f m f.a.toNat
    let y := secondScalar s f m
    scalarOp f m s (x ||| y))

def execSxor (f : Fields) (s : State) : Host.Outcome State Fault Refusal :=
  issue (.sxor f) s (fun f _ m s =>
    let x := scalarVal s f m f.a.toNat
    let y := secondScalar s f m
    scalarOp f m s (x ^^^ y))

def execSshl (f : Fields) (s : State) : Host.Outcome State Fault Refusal :=
  issue (.sshl f) s (fun f _ m s =>
    let x := scalarVal s f m f.a.toNat
    let y := secondScalar s f m
    scalarOp f m s (shiftLeft x y))

def execSshr (f : Fields) (s : State) : Host.Outcome State Fault Refusal :=
  issue (.sshr f) s (fun f _ m s =>
    let x := scalarVal s f m f.a.toNat
    let y := secondScalar s f m
    scalarOp f m s (shiftRight x y))

def execSsra (f : Fields) (s : State) : Host.Outcome State Fault Refusal :=
  issue (.ssra f) s (fun f _ m s =>
    let x := scalarVal s f m f.a.toNat
    let y := secondScalar s f m
    scalarOp f m s (shiftArith x y))

def execSmin (f : Fields) (s : State) : Host.Outcome State Fault Refusal :=
  issue (.smin f) s (fun f _ m s =>
    let x := scalarVal s f m f.a.toNat
    let y := secondScalar s f m
    scalarOp f m s (if lessThan f y x then y else x))

def execSmax (f : Fields) (s : State) : Host.Outcome State Fault Refusal :=
  issue (.smax f) s (fun f _ m s =>
    let x := scalarVal s f m f.a.toNat
    let y := secondScalar s f m
    scalarOp f m s (if lessThan f x y then y else x))

def execScmp (f : Fields) (s : State) : Host.Outcome State Fault Refusal :=
  issue (.scmp f) s (fun f _ m s =>
    let x := scalarVal s f m f.a.toNat
    let y := secondScalar s f m
    scalarOp f m s (if condCode f f.variant.toNat x y then 1#64 else 0#64))

def execSmad (f : Fields) (s : State) : Host.Outcome State Fault Refusal :=
  issue (.smad f) s (fun f _ m s =>
    scalarOp f m s (scalarVal s f m f.a.toNat * scalarVal s f m f.b.toNat + scalarVal s f m f.c.toNat))

def execSsel (f : Fields) (s : State) : Host.Outcome State Fault Refusal :=
  issue (.ssel f) s (fun f _ m s =>
    scalarOp f m s (if scalarVal s f m f.c.toNat != 0#64 then scalarVal s f m f.a.toNat
                    else scalarVal s f m f.b.toNat))

/-- R183: a vector register delivers bits [31:0] of the lowest active lane. -/
def execSmov (f : Fields) (s : State) : Host.Outcome State Fault Refusal :=
  issue (.smov f) s (fun f _ m s =>
    scalarOp f m s
      (if isV f.b.toNat then BitVec.setWidth 64 (scalarOrLane s f m f.b.toNat (lowestLane m))
       else secondScalar s f m))

/-! ### Special registers (R20, R42, R184) -/

/-- `weave`, `team`, `crews`, `plyid` in the layouts of R20. -/
def weaveReg (s : State) : DWord :=
  BitVec.ofNat 64 (s.weave.handle % 256 * 2 ^ 16 + (s.team.kernel.wcount - 1) % 32 * 2 ^ 8 + s.weave.windex % 32)

def plyidReg (s : State) : DWord :=
  BitVec.ofNat 64 ((allPlies s).foldl (fun acc p => acc ||| 2 ^ (p.n % 4)) 0 * 2 ^ 4 + s.ply.n % 4)

/-- A special register other than `lane`, by its number (R42). -/
def specialReg (s : State) (n : Nat) : DWord :=
  match n with
  | 0x01 => weaveReg s
  | 0x02 => s.team.team
  | 0x03 => s.team.crews
  | 0x04 => s.weave.gang
  | 0x05 => BitVec.ofNat 64 (cycHere s)
  | 0x06 => s.weave.memdef
  | 0x07 => s.weave.stklim
  | 0x08 => s.weave.rgnpc
  | 0x09 => BitVec.setWidth 64 s.weave.fpflags
  | 0x0A => s.weave.srseed
  | 0x0B => plyidReg s
  | _ => 0#64

def execRdsp (f : Fields) (s : State) : Host.Outcome State Fault Refusal :=
  issue (.rdsp f) s (fun f _ m s =>
    let n := f.a.toNat
    -- R366: a run that reads `cyc` is skipped by assay
    let s1 := if n == 5 then { s with team := { s.team with eligible := false } } else s
    whenActive m s (Result.regs s1
      (if isV f.d.toNat then
         vecWrite f.d false m (tabulate (fun i =>
           if n == 0 then BitVec.ofNat 64 i else specialReg s n &&& 0xFFFFFFFF#64))
       else sclWrite f.d (if n == 0 then BitVec.ofNat 64 (lowestLane m) else specialReg s n))))

/-- A value of `memdef` without a reserved field value (R42). -/
def memdefOk (x : DWord) : Bool :=
  (x.extractLsb' 7 3).toNat ≤ 4 && (x.extractLsb' 5 2).toNat ≤ 2 &&
  1 ≤ (x.extractLsb' 0 3).toNat && (x.extractLsb' 0 3).toNat ≤ 5

/-- A write of a writable special register; `none` for a reserved value of a field (R42). A reserved field of a register
reads as zero and a write to it is ignored (00 R12, R13). The accesses of this clock still see the old `memdef` (R139). -/
def setSpecial (s : State) (n : Nat) (x : DWord) : Option State :=
  match n with
  | 0x06 =>
    if memdefOk x then
      some { s with weave := { s.weave with memdef := x &&& 0x7FF#64, memdefOld := some (s.clk, memdefNow s) } }
    else none
  | 0x07 => some { s with weave := { s.weave with stklim := x &&& 0x00FFFFFFFFFFFFF0#64 } }
  | 0x09 =>
    -- flags that other plies set in this clock are ORed in (R43)
    some { s with weave := { s.weave with fpflags := x.setWidth 7 ||| flagsOfOthers s } }
  | 0x0A =>
    -- R63, R184: the stochastic counts start again
    some { s with weave := { s.weave with srseed := x, srcnt := List.replicate 32 0#32 } }
  | _ => none

def execWrsp (f : Fields) (s : State) : Host.Outcome State Fault Refusal :=
  issue (.wrsp f) s (fun f _ m s =>
    whenActive m s
      (match setSpecial s f.d.toNat (scalarVal s f m f.a.toNat) with
       | some s1 => Result.regs s1 []
       | none => .trap 0x01 [baseWord 0x1D f]))

/-! ### Mask operations (R185) and votes (R186) -/

/-- Active lanes write their bit of D. -/
def maskOp (f : Fields) (m : LaneMask) (s : State) (x : LaneMask) : Result :=
  whenActive m s (Result.regs s (maskWrite f.d m x))

def execKand (f : Fields) (s : State) : Host.Outcome State Fault Refusal :=
  issue (.kand f) s (fun f _ m s => maskOp f m s (kread s f.a.toNat &&& kread s f.b.toNat))

def execKor (f : Fields) (s : State) : Host.Outcome State Fault Refusal :=
  issue (.kor f) s (fun f _ m s => maskOp f m s (kread s f.a.toNat ||| kread s f.b.toNat))

def execKxor (f : Fields) (s : State) : Host.Outcome State Fault Refusal :=
  issue (.kxor f) s (fun f _ m s => maskOp f m s (kread s f.a.toNat ^^^ kread s f.b.toNat))

def execKnot (f : Fields) (s : State) : Host.Outcome State Fault Refusal :=
  issue (.knot f) s (fun f _ m s => maskOp f m s (~~~(kread s f.a.toNat)))

def execKmov (f : Fields) (s : State) : Host.Outcome State Fault Refusal :=
  issue (.kmov f) s (fun f _ m s => maskOp f m s (kread s f.a.toNat))

/-- The active lanes whose truth value is 1 (R186). -/
def trueLanes (s : State) (f : Fields) (m : LaneMask) : LaneMask :=
  maskOf (fun i => inMask m i && scalarOrLane s f m f.a.toNat i != 0#32)

def execVoteAny (f : Fields) (s : State) : Host.Outcome State Fault Refusal :=
  issue (.voteAny f) s (fun f _ m s => scalarOp f m s (if trueLanes s f m != 0#32 then 1#64 else 0#64))

def execVoteAll (f : Fields) (s : State) : Host.Outcome State Fault Refusal :=
  issue (.voteAll f) s (fun f _ m s => scalarOp f m s (if trueLanes s f m == m then 1#64 else 0#64))

def execVoteCnt (f : Fields) (s : State) : Host.Outcome State Fault Refusal :=
  issue (.voteCnt f) s (fun f _ m s => scalarOp f m s (BitVec.ofNat 64 (countLanes (trueLanes s f m))))

end Sys2Proof.Machine
end

