-- ==== Sys2Proof/Machine/System.lean ====
section
/-!
DEFINITION. The system instructions: opcodes 0xF8 to 0xFF (16 R299 to R303, R310 to R317).
-/

namespace Sys2Proof.Machine

open Sys2Proof

/-! ### Privileged registers (R300, R311) -/

/-- What `rdpv` reads. -/
def readPv (s : State) (n : Nat) : DWord :=
  let w := s.weave
  match n with
  | 0 => w.pstat ||| boolBit s.hookEnabled 7
  | 1 => tvecNow s
  | 2 => epcNow s
  | 3 => w.tcause
  | 8 => tscrNow s 0
  | 9 => tscrNow s 1
  | 10 => BitVec.ofNat 64 s.team.ctx
  | 11 => BitVec.ofNat 64 s.team.at_.unit
  | n => w.tinfo.getD (n - 4) 0#64

def execRdpv (f : Fields) (s : State) : Host.Outcome State Fault Refusal :=
  issue (.rdpv f) s (fun f _ m s => whenActive m s (Result.regs s (sclWrite f.d (readPv s f.a.toNat))))

/-- A handler address within its limits (R300). -/
def handlerOk (a : Nat) : Bool := a % 4 == 0 && a % 32 != 28

/-- A value that `tvec` takes; its reserved field ignores what is written (00 R13). -/
def tvecOk (x : DWord) : Bool := !x.getLsbD 63 || handlerOk (x.extractLsb' 0 56).toNat

/-- The state after a write of a privileged register; instructions of this clock still see the old value (R311). -/
def writePv (s : State) (n : Nat) (x : DWord) : State :=
  let w := { s.weave with
    pvOld := some { clk := s.clk, tvec := tvecNow s, epc := epcNow s, tscr := [tscrNow s 0, tscrNow s 1] } }
  match n with
  | 1 => { s with weave := { w with tvec := x &&& 0x80FFFFFFFFFFFFFF#64 } }
  | 2 => { s with weave := { w with epc := x } }
  | 8 => { s with weave := { w with tscr := w.tscr.set 0 x } }
  | 9 => { s with weave := { w with tscr := w.tscr.set 1 x } }
  | _ => s

def execWrpv (f : Fields) (s : State) : Host.Outcome State Fault Refusal :=
  issue (.wrpv f) s (fun f _ m s =>
    let x := scalarVal s f m f.a.toNat
    if m == 0#32 then Result.regs s []
    else if f.d == 1#8 && !tvecOk x then .trap 0x01 [baseWord 0xF9 f]
    else Result.regs (writePv s f.d.toNat x) [])

/-! ### Return from a handler (R303) -/

/-- `eret` belongs to the handler: the windows that it brings back do not count it (R51). -/
def eretFrames (s : State) : State :=
  { s with weave := { s.weave with latches := s.weave.latches.map (fun w => if w.ply == s.ply.n then { w with left := w.left + 1 } else w) } }

def execEret (f : Fields) (s : State) : Host.Outcome State Fault Refusal :=
  issue (.eret f) s (fun f _ _ s =>
    if !inTrap s then .trap 0x01 [baseWord 0xFA f] else .done (eretFrames (returnFromTrap s)) [] 0#7 (some (epcNow s)))

/-! ### Windows (R86, R312) -/

/-- A selector of `rwin`: kind and window, `none` for a reserved one. -/
def winSelect (x : DWord) : Option (Nat × Nat) :=
  if x.extractLsb' 6 58 != 0#58 || x.extractLsb' 4 2 == 3#2 then none
  else some ((x.extractLsb' 4 2).toNat, (x.extractLsb' 0 4).toNat)

def winReg (w : Window) (kind : Nat) : DWord := if kind == 0 then w.wva else if kind == 1 then w.wia else w.wset

def execRwinRd (f : Fields) (s : State) : Host.Outcome State Fault Refusal :=
  issue (.rwinRd f) s (fun f _ m s =>
    if m == 0#32 then Result.regs s []
    else match winSelect (scalarVal s f m f.a.toNat) with
      | none => .trap 0x01 [baseWord 0xFB f]
      | some (kind, n) =>
        Result.regs s (sclWrite f.d (winReg ((findCtx s s.team.ctx).windows.getD n {}) kind)))

/-- The window after a write, or `none` for a write that R86 refuses; reserved bits are read-only (R83). -/
def winWrite (w : Window) (kind : Nat) (x : DWord) : Option Window :=
  if kind == 0 then
    let new := { w with wva := x &&& ~~~0x3FF#64 }
    if new.valid && !new.legal then none else some new
  else if w.valid then none
  else some (if kind == 1 then { w with wia := x } else { w with wset := x &&& 0x3FFFFFFFFFFFFFFC#64 })

/-- The write is that of the issuing ply's instruction. -/
def WinWrite.own (w : WinWrite) (s : State) : Bool :=
  w.uid == s.team.uid && w.windex == s.weave.windex && w.ply == s.ply.n && w.pc == s.ply.pc

/-- The other sites that host the issuer's context. -/
def otherHosts (s : State) : List Nat :=
  (distinct ((findCtx s s.team.ctx).bound.map (·.2.1))).filter (· != s.team.at_.site)

/-- The new value goes to the other sites that host the context, in class 6; until all have acknowledged, every access uses
the old mapping, as R312 allows. With no other site the write is complete at once. -/
def sendWindow (s : State) (n : Nat) (w : Window) : Result :=
  let hosts := otherHosts s
  if hosts.isEmpty then Result.regs (onCtx s s.team.ctx (fun c => c.setWindow n w)) []
  else
    let x : WinWrite := { id := s.nextId, uid := s.team.uid, windex := s.weave.windex, ply := s.ply.n, pc := s.ply.pc, site := s.team.at_.site
                          n := n, win := w, left := hosts }
    let s1 := onCtx { s with nextId := s.nextId + 1 } s.team.ctx (fun c => { c with winWrite := some x })
    .wait .retry (hosts.foldl (fun acc h => sendPacket acc s.team.at_.site h 6 x.id false) s1)

def execRwinWr (f : Fields) (s : State) : Host.Outcome State Fault Refusal :=
  issue (.rwinWr f) s (fun f _ m s =>
    let x := if f.b == 0xFB#8 then BitVec.setWidth 64 f.imm32 else scalarVal s f m f.b.toNat
    if m == 0#32 then Result.regs s []
    else match winSelect (scalarVal s f m f.a.toNat) with
      | none => .trap 0x01 [baseWord 0xFB f]
      | some (kind, n) =>
        let c := findCtx s s.team.ctx
        match c.winWrite.filter (fun w => w.own s || !w.done) with
        | some w =>
          -- the ply's own write, or one of another ply that comes first
          if w.done then Result.regs (onCtx s s.team.ctx (fun c => { c with winWrite := none })) [] else .wait .retry s
        | none =>
          match winWrite (c.windows.getD n {}) kind x with
          | none => .trap 0x01 [baseWord 0xFB f]
          | some w => sendWindow s n w)

/-! ### Saving and loading a context (R313) -/

/-- The pages of n 4 KiB runs from a virtual address; `none` when one does not translate. -/
def virtualPages (s : State) (va n : Nat) : Option (List Nat) :=
  (List.range n).foldr (fun k acc =>
    match viaWindows (winsHere s) (va + 4096 * k), acc with
    | some ia, some ps => some (ia :: ps)
    | _, _ => none) (some [])

/-- A team is a member of a resident crew or of a gang unit. -/
def tiedTeam (s : State) (t : Team) : Bool :=
  t.live.any (fun w => w.gang.extractLsb' 48 3 != 0#3) ||
  ((findLaunch s t.launch).map (fun l => l.crews.any (fun c => c.resident && c.members.contains t.lix))).getD false

/-- `ctxsv` up to the save: a status, or the team that it saves. -/
def ctxsvTarget (s : State) (a h : Nat) : Except Nat Team :=
  if a % 4096 != 0 then .error 1
  else match weaveByHandle s h with
    | none => .error 2
    | some (t, _) =>
      if t.ctx != s.team.ctx then .error 2
      else if t.uid == s.team.uid || tiedTeam s t then .error 3
      else .ok t

def execCtxsv (f : Fields) (s : State) : Host.Outcome State Fault Refusal :=
  issue (.ctxsv f) s (fun f _ m s =>
    let a := (scalarVal s f m f.a.toNat).toNat
    let status (s : State) (n : Nat) : Result := Result.regs s (sclWrite f.d (BitVec.ofNat 64 n))
    if m == 0#32 then Result.regs s []
    else match ctxsvTarget s a ((scalarVal s f m f.b.toNat).toNat % 256) with
      | .error n => status s n
      | .ok t =>
        if t.leaving.isNone then .wait .saving (askLeave s (·.uid == t.uid) 3)
        else if !teamQuiet s t || t.leaving != some 3 then .wait .saving s
        else match paySave s t.uid false with
          | (s1, false) => .wait .saving s1
          | (s1, true) =>
            match saveTo s1 t.uid 3 [t.uid] [] false (fun s1 n => virtualPages s1 a n) with
            | (s2, true) => status s2 0
            | (_, false) => status (onTeams s1 (·.uid == t.uid) (fun t => { t with leaving := none })) 1)

/-- The suspended team that an image at hand belongs to: its launch and itself, those held by `ctxsv` first (log 24). -/
def imageOwner (s : State) (ctx : Nat) (img : List Byte) : Option (Launch × Suspended) :=
  let fits (x : Suspended) : Bool :=
    x.kept.ctx == ctx && x.kept.team == imgDAt img 0x10 && x.kept.kernel.addr == imgAt img 0x20 8
  let all := s.launches.flatMap (fun l => (l.suspended.filter fits).map (fun x => (l, x)))
  (all.find? (fun (_, x) => x.held)).orElse (fun _ => all.head?)

def execCtxld (f : Fields) (s : State) : Host.Outcome State Fault Refusal :=
  issue (.ctxld f) s (fun f _ m s =>
    let a := (scalarVal s f m f.a.toNat).toNat
    let status (s : State) (n : Nat) : Result := Result.regs s (sclWrite f.d (BitVec.ofNat 64 n))
    let read (s : State) (pages : List Nat) := readPages s (activityMaster s.team.at_.unit s.team.ctx) s.team.at_.site pages
    if m == 0#32 then Result.regs s []
    else if a % 4096 != 0 then status s 1
    else match (virtualPages s a 1).map (read s) with
      | some (.ok (s1, head, _)) =>
        match (virtualPages s a (ceilDiv (imgAt head 8 8) 4096)).map (fun ps => (ps, read s1 ps)) with
        | some (pages, .ok (s2, img, bad)) =>
          match imageOwner s2 s.team.ctx head with
          | none => status s2 4
          | some (l, x) =>
            if bad then status (endSuspended s2 l.key x.uid 0x22 [BitVec.ofNat 64 a]) 5
            else if !imageFits x.kept img then status s2 4
            else
              status (onLaunch s2 l.key (fun l => { l with suspended := l.suspended.map (fun y =>
                if y.uid == x.uid then { y with pages := pages, pool := false, held := false, site := s.team.at_.site, since := s.cyc }
                else y) })) 0
        | _ => status s1 1
      | _ => status s 1)

/-! ### Scan patterns (R314) -/

/-- The value of D after a run, and its consequences. The run uses issue budget of the scan class, and waits while there is
none. -/
def scanpass (f : Fields) (m : LaneMask) (s : State) (u : UnitId) (drained : Bool) : Result :=
  let set := (scalarVal s f m f.a.toNat).toNat % 256
  let put (s : State) (x : Nat) : Result := Result.regs s (sclWrite f.d (BitVec.ofNat 64 x))
  if m == 0#32 then Result.regs s []
  else if !Config.scanSets s.scanRec set then put s 3
  else if !drained then put s 2
  else if !mayUse s u.site 0 { issue := 1 } then .wait .retry s
  else
    let r := scanRun s u set
    let s1 := spend (tick s) u.site 0 { issue := 1 }
    if r == 0 then put s1 0
    else put (whileParked s1 (fun t => scanFailed t u set (r - 1))) (1 + (r - 1) * 256)

def execScanpassCore (f : Fields) (s : State) : Host.Outcome State Fault Refusal :=
  issue (.scanpassCore f) s (fun f _ m s =>
    scanpass f m s ⟨s.team.at_.site, s.team.at_.cluster, false, s.team.at_.core⟩
      ((coreWeaves s s.team.at_).isEmpty && s.team.weaves.all (·.ended)))

def execScanpassEngine (f : Fields) (s : State) : Host.Outcome State Fault Refusal :=
  issue (.scanpassEngine f) s (fun f _ m s =>
    scanpass f m s ⟨s.team.at_.site, s.team.at_.cluster, true, 0⟩
      ((clusterHere s).cmds.isEmpty && (clusterHere s).scan != .serve))

/-! ### Assay control (R315, R316) -/

/-- A reserved bit of a unit identifier is set. -/
def unitReserved (x : DWord) : Bool :=
  x.extractLsb' 16 48 != 0#48 || x.extractLsb' 2 3 != 0#3 || (x.getLsbD 5 && x.extractLsb' 0 2 != 0#2)

/-- `assay.ctl` on an existing unit in service. -/
def assayBody (f : Fields) (op : Nat) (m : LaneMask) (s : State) (act : UnitId → Result) : Result :=
  let x := scalarVal s f m f.a.toNat
  let u := unitIdOf x.toNat
  if m == 0#32 then Result.regs s []
  else if unitReserved x then .trap 0x01 [baseWord op f]
  else if !unitExists u || unitScan s u == .quarantined then Result.regs s (sclWrite f.d 2#64)
  else act u

def execAssayCtlRd (f : Fields) (s : State) : Host.Outcome State Fault Refusal :=
  issue (.assayCtlRd f) s (fun f _ m s =>
    assayBody f 0xFE m s (fun u => Result.regs s (sclWrite f.d (BitVec.ofNat 64 (unitScore s u)))))

def execAssayCtlWr (f : Fields) (s : State) : Host.Outcome State Fault Refusal :=
  issue (.assayCtlWr f) s (fun f _ m s =>
    assayBody f 0xFE m s (fun u =>
      Result.regs (whileParked s (fun t => changeScore t u ((scalarVal s f m f.b.toNat).toNat % 256))) (sclWrite f.d 0#64)))

def execAssayCtlArm (f : Fields) (s : State) : Host.Outcome State Fault Refusal :=
  issue (.assayCtlArm f) s (fun f _ m s =>
    assayBody f 0xFE m s (fun u =>
      if !s.hookEnabled then Result.regs s (sclWrite f.d 1#64)
      else if u.engine then Result.regs s (sclWrite f.d 3#64)
      else Result.regs (onCore s u.coreId (fun c => { c with hook := some ((scalarVal s f m f.b.toNat).setWidth 32) }))
        (sclWrite f.d 0#64)))

def execAssayCtlDisarm (f : Fields) (s : State) : Host.Outcome State Fault Refusal :=
  issue (.assayCtlDisarm f) s (fun f _ m s =>
    assayBody f 0xFE m s (fun u =>
      Result.regs (if u.engine then s else onCore s u.coreId (fun c => { c with hook := none })) (sclWrite f.d 0#64)))

/-! ### Halting a core (R309, R317) -/

/-- The core leaves service; a split change that drains is cancelled. -/
def haltCore (c : Core) : Core :=
  { c with halted := true, splitState := if c.splitState == .drain then .serve else c.splitState }

def execHaltCore (f : Fields) (s : State) : Host.Outcome State Fault Refusal :=
  match issue (.haltCore f) s (fun f _ _ s =>
    if !(coreWeaves s s.team.at_).isEmpty || !s.team.weaves.all (·.ended) then .trap 0x01 [baseWord 0xFF f]
    -- as `exit`, it waits for the release of a `fence.spec` (log 91)
    else if (s.ply :: s.weave.plies).any (·.fence.isSome) then .wait .retry s
    else
      let s1 := { s with weave := { s.weave with plies := [] } }
      .done (onCore (endLanes s.ply.mask s1) s.team.at_ haltCore) [] 0#7 none) with
  | .next s1 => .next (if s1.weave.ended && s1.focused == s.focused && !s.weave.ended then weaveEnded s1 else s1)
  | r => r

end Sys2Proof.Machine
end

