-- ==== Sys2Proof/Machine/Dispatch.lean ====
section
/-! DEFINITION. One arm for each constructor of `Instr`: a direct call of its meaning. -/

namespace Sys2Proof.Machine

open Sys2Proof

def exec (i : Instr) (s : State) : Host.Outcome State Fault Refusal :=
  match i with
  | .nop wide => Sys2Proof.Machine.execNop wide s
  | .brNz f => Sys2Proof.Machine.execBrNz f s
  | .brZ f => Sys2Proof.Machine.execBrZ f s
  | .brAny f => Sys2Proof.Machine.execBrAny f s
  | .brAll f => Sys2Proof.Machine.execBrAll f s
  | .brsNz f => Sys2Proof.Machine.execBrsNz f s
  | .brsZ f => Sys2Proof.Machine.execBrsZ f s
  | .resume f => Sys2Proof.Machine.execResume f s
  | .plysync f => Sys2Proof.Machine.execPlysync f s
  | .plyDue uid windex n => Sys2Proof.Machine.execPlyDue uid windex n s
  | .jmp f => Sys2Proof.Machine.execJmp f s
  | .call f => Sys2Proof.Machine.execCall f s
  | .callReg f => Sys2Proof.Machine.execCallReg f s
  | .ret f => Sys2Proof.Machine.execRet f s
  | .yield f => Sys2Proof.Machine.execYield f s
  | .yieldExpiry uid windex n => Sys2Proof.Machine.execYieldExpiry uid windex n s
  | .sleepUntil f => Sys2Proof.Machine.execSleepUntil f s
  | .sleepUntilWake uid windex n => Sys2Proof.Machine.execSleepUntilWake uid windex n s
  | .sleepEv f => Sys2Proof.Machine.execSleepEv f s
  | .sleepEvWake uid windex n => Sys2Proof.Machine.execSleepEvWake uid windex n s
  | .sleepEvTimeout uid windex n => Sys2Proof.Machine.execSleepEvTimeout uid windex n s
  | .rgn f => Sys2Proof.Machine.execRgn f s
  | .rgnEnd f => Sys2Proof.Machine.execRgnEnd f s
  | .trap f => Sys2Proof.Machine.execTrap f s
  | .exit f => Sys2Proof.Machine.execExit f s
  | .sadd f => Sys2Proof.Machine.execSadd f s
  | .ssub f => Sys2Proof.Machine.execSsub f s
  | .smul f => Sys2Proof.Machine.execSmul f s
  | .smad f => Sys2Proof.Machine.execSmad f s
  | .sand f => Sys2Proof.Machine.execSand f s
  | .sor f => Sys2Proof.Machine.execSor f s
  | .sxor f => Sys2Proof.Machine.execSxor f s
  | .sshl f => Sys2Proof.Machine.execSshl f s
  | .sshr f => Sys2Proof.Machine.execSshr f s
  | .ssra f => Sys2Proof.Machine.execSsra f s
  | .smin f => Sys2Proof.Machine.execSmin f s
  | .smax f => Sys2Proof.Machine.execSmax f s
  | .scmp f => Sys2Proof.Machine.execScmp f s
  | .ssel f => Sys2Proof.Machine.execSsel f s
  | .smov f => Sys2Proof.Machine.execSmov f s
  | .rdsp f => Sys2Proof.Machine.execRdsp f s
  | .wrsp f => Sys2Proof.Machine.execWrsp f s
  | .kand f => Sys2Proof.Machine.execKand f s
  | .kor f => Sys2Proof.Machine.execKor f s
  | .kxor f => Sys2Proof.Machine.execKxor f s
  | .knot f => Sys2Proof.Machine.execKnot f s
  | .kmov f => Sys2Proof.Machine.execKmov f s
  | .voteAny f => Sys2Proof.Machine.execVoteAny f s
  | .voteAll f => Sys2Proof.Machine.execVoteAll f s
  | .voteCnt f => Sys2Proof.Machine.execVoteCnt f s
  | .add f => Sys2Proof.Machine.execAdd f s
  | .sub f => Sys2Proof.Machine.execSub f s
  | .mulLo f => Sys2Proof.Machine.execMulLo f s
  | .mulHi f => Sys2Proof.Machine.execMulHi f s
  | .mad f => Sys2Proof.Machine.execMad f s
  | .abs f => Sys2Proof.Machine.execAbs f s
  | .neg f => Sys2Proof.Machine.execNeg f s
  | .min f => Sys2Proof.Machine.execMin f s
  | .max f => Sys2Proof.Machine.execMax f s
  | .and f => Sys2Proof.Machine.execAnd f s
  | .or f => Sys2Proof.Machine.execOr f s
  | .xor f => Sys2Proof.Machine.execXor f s
  | .not f => Sys2Proof.Machine.execNot f s
  | .shl f => Sys2Proof.Machine.execShl f s
  | .shr f => Sys2Proof.Machine.execShr f s
  | .sra f => Sys2Proof.Machine.execSra f s
  | .rot f => Sys2Proof.Machine.execRot f s
  | .popc f => Sys2Proof.Machine.execPopc f s
  | .clz f => Sys2Proof.Machine.execClz f s
  | .brev f => Sys2Proof.Machine.execBrev f s
  | .bfx f => Sys2Proof.Machine.execBfx f s
  | .bfi f => Sys2Proof.Machine.execBfi f s
  | .cmp f => Sys2Proof.Machine.execCmp f s
  | .sel f => Sys2Proof.Machine.execSel f s
  | .dp4 f => Sys2Proof.Machine.execDp4 f s
  | .fadd f => Sys2Proof.Machine.execFadd f s
  | .fsub f => Sys2Proof.Machine.execFsub f s
  | .fmul f => Sys2Proof.Machine.execFmul f s
  | .fma f => Sys2Proof.Machine.execFma f s
  | .fmin f => Sys2Proof.Machine.execFmin f s
  | .fmax f => Sys2Proof.Machine.execFmax f s
  | .fcmp f => Sys2Proof.Machine.execFcmp f s
  | .frcp f => Sys2Proof.Machine.execFrcp f s
  | .frsq f => Sys2Proof.Machine.execFrsq f s
  | .fsqrt f => Sys2Proof.Machine.execFsqrt f s
  | .fdiv f => Sys2Proof.Machine.execFdiv f s
  | .fexp2 f => Sys2Proof.Machine.execFexp2 f s
  | .flog2 f => Sys2Proof.Machine.execFlog2 f s
  | .fsin f => Sys2Proof.Machine.execFsin f s
  | .fcos f => Sys2Proof.Machine.execFcos f s
  | .frnd f => Sys2Proof.Machine.execFrnd f s
  | .fclass f => Sys2Proof.Machine.execFclass f s
  | .fscale f => Sys2Proof.Machine.execFscale f s
  | .fdot2 f => Sys2Proof.Machine.execFdot2 f s
  | .cvtIntInt f => Sys2Proof.Machine.execCvtIntInt f s
  | .cvtIntFloat f => Sys2Proof.Machine.execCvtIntFloat f s
  | .cvtFloatInt f => Sys2Proof.Machine.execCvtFloatInt f s
  | .cvtFloatNarrow f => Sys2Proof.Machine.execCvtFloatNarrow f s
  | .cvtFloatWiden f => Sys2Proof.Machine.execCvtFloatWiden f s
  | .cvtFp8 f => Sys2Proof.Machine.execCvtFp8 f s
  | .pack f => Sys2Proof.Machine.execPack f s
  | .unpack f => Sys2Proof.Machine.execUnpack f s
  | .perm f => Sys2Proof.Machine.execPerm f s
  | .lscanAdd f => Sys2Proof.Machine.execLscanAdd f s
  | .lred f => Sys2Proof.Machine.execLred f s
  | .qblk f => Sys2Proof.Machine.execQblk f s
  | .dqblk f => Sys2Proof.Machine.execDqblk f s
  | .registerAllocationStall uid windex => Sys2Proof.Machine.execRegisterAllocationStall uid windex s
  | .refillWeave uid windex => Sys2Proof.Machine.execRefillWeave uid windex s
  | .volatileDeferralEnd uid windex => Sys2Proof.Machine.execVolatileDeferralEnd uid windex s
  | .ld f => Sys2Proof.Machine.execLd f s
  | .st f => Sys2Proof.Machine.execSt f s
  | .ldx f => Sys2Proof.Machine.execLdx f s
  | .stx f => Sys2Proof.Machine.execStx f s
  | .lds f => Sys2Proof.Machine.execLds f s
  | .sts f => Sys2Proof.Machine.execSts f s
  | .loadDataReturn uid windex tag => Sys2Proof.Machine.execLoadDataReturn uid windex tag s
  | .tlook f => Sys2Proof.Machine.execTlook f s
  | .tset f => Sys2Proof.Machine.execTset f s
  | .tinv f => Sys2Proof.Machine.execTinv f s
  | .spmove f => Sys2Proof.Machine.execSpmove f s
  | .atom f => Sys2Proof.Machine.execAtom f s
  | .atomCas f => Sys2Proof.Machine.execAtomCas f s
  | .red f => Sys2Proof.Machine.execRed f s
  | .lr f => Sys2Proof.Machine.execLr f s
  | .sc f => Sys2Proof.Machine.execSc f s
  | .fence f => Sys2Proof.Machine.execFence f s
  | .fenceSpec f => Sys2Proof.Machine.execFenceSpec f s
  | .fenceSpecValidate uid windex n => Sys2Proof.Machine.execFenceSpecValidate uid windex n s
  | .pref f => Sys2Proof.Machine.execPref f s
  | .salloc f => Sys2Proof.Machine.execSalloc f s
  | .sfree f => Sys2Proof.Machine.execSfree f s
  | .barTeam f => Sys2Proof.Machine.execBarTeam f s
  | .arriveCrew f => Sys2Proof.Machine.execArriveCrew f s
  | .waitCrew f => Sys2Proof.Machine.execWaitCrew f s
  | .mst f => Sys2Proof.Machine.execMst f s
  | .ptsAgeTick uid windex n => Sys2Proof.Machine.execPtsAgeTick uid windex n s
  | .obres f => Sys2Proof.Machine.execObres f s
  | .obrel f => Sys2Proof.Machine.execObrel f s
  | .obload f => Sys2Proof.Machine.execObload f s
  | .obgath f => Sys2Proof.Machine.execObgath f s
  | .gangSet f => Sys2Proof.Machine.execGangSet f s
  | .mm f => Sys2Proof.Machine.execMm f s
  | .mtr f => Sys2Proof.Machine.execMtr f s
  | .mperm f => Sys2Proof.Machine.execMperm f s
  | .mrsum f => Sys2Proof.Machine.execMrsum f s
  | .accZero f => Sys2Proof.Machine.execAccZero f s
  | .accLd f => Sys2Proof.Machine.execAccLd f s
  | .accSt f => Sys2Proof.Machine.execAccSt f s
  | .mwait f => Sys2Proof.Machine.execMwait f s
  | .mpoll f => Sys2Proof.Machine.execMpoll f s
  | .mstat f => Sys2Proof.Machine.execMstat f s
  | .engineGrant site phys => Sys2Proof.Machine.execEngineGrant site phys s
  | .commandAgePromotion site phys id => Sys2Proof.Machine.execCommandAgePromotion site phys id s
  | .matrixPassEnd site phys => Sys2Proof.Machine.execMatrixPassEnd site phys s
  | .transferEnd site phys => Sys2Proof.Machine.execTransferEnd site phys s
  | .xcopy f => Sys2Proof.Machine.execXcopy f s
  | .copyComplete site phys id => Sys2Proof.Machine.execCopyComplete site phys id s
  | .xwait f => Sys2Proof.Machine.execXwait f s
  | .promiseMissed uid windex n => Sys2Proof.Machine.execPromiseMissed uid windex n s
  | .xwaitRn f => Sys2Proof.Machine.execXwaitRn f s
  | .xput f => Sys2Proof.Machine.execXput f s
  | .xget f => Sys2Proof.Machine.execXget f s
  | .xred f => Sys2Proof.Machine.execXred f s
  | .xatom f => Sys2Proof.Machine.execXatom f s
  | .remoteOpComplete id => Sys2Proof.Machine.execRemoteOpComplete id s
  | .launchW f => Sys2Proof.Machine.execLaunchW f s
  | .launchL f => Sys2Proof.Machine.execLaunchL f s
  | .launchRequest tag => Sys2Proof.Machine.execLaunchRequest tag s
  | .launchAnswer tag => Sys2Proof.Machine.execLaunchAnswer tag s
  | .gsig f => Sys2Proof.Machine.execGsig f s
  | .evrec f => Sys2Proof.Machine.execEvrec f s
  | .rdpv f => Sys2Proof.Machine.execRdpv f s
  | .wrpv f => Sys2Proof.Machine.execWrpv f s
  | .eret f => Sys2Proof.Machine.execEret f s
  | .rwinRd f => Sys2Proof.Machine.execRwinRd f s
  | .rwinWr f => Sys2Proof.Machine.execRwinWr f s
  | .ctxsv f => Sys2Proof.Machine.execCtxsv f s
  | .ctxld f => Sys2Proof.Machine.execCtxld f s
  | .scanpassCore f => Sys2Proof.Machine.execScanpassCore f s
  | .scanpassEngine f => Sys2Proof.Machine.execScanpassEngine f s
  | .assayCtlRd f => Sys2Proof.Machine.execAssayCtlRd f s
  | .assayCtlWr f => Sys2Proof.Machine.execAssayCtlWr f s
  | .assayCtlArm f => Sys2Proof.Machine.execAssayCtlArm f s
  | .assayCtlDisarm f => Sys2Proof.Machine.execAssayCtlDisarm f s
  | .haltCore f => Sys2Proof.Machine.execHaltCore f s
  | .teamEnd uid => Sys2Proof.Machine.execTeamEnd uid s
  | .launchCompletion key => Sys2Proof.Machine.execLaunchCompletion key s
  | .teamAdmission => Sys2Proof.Machine.execTeamAdmission s
  | .priorityAging launch lix => Sys2Proof.Machine.execPriorityAging launch lix s
  | .admissionStarvation => Sys2Proof.Machine.execAdmissionStarvation s
  | .preemption uid => Sys2Proof.Machine.execPreemption uid s
  | .contextRestore site uid => Sys2Proof.Machine.execContextRestore site uid s
  | .faultSwapOut uid => Sys2Proof.Machine.execFaultSwapOut uid s
  | .watchdogExpiry uid => Sys2Proof.Machine.execWatchdogExpiry uid s
  | .splitChangeRequest => Sys2Proof.Machine.execSplitChangeRequest s
  | .splitChangeCancel => Sys2Proof.Machine.execSplitChangeCancel s
  | .splitFlush => Sys2Proof.Machine.execSplitFlush s
  | .splitConfig => Sys2Proof.Machine.execSplitConfig s
  | .splitServe => Sys2Proof.Machine.execSplitServe s
  | .migrationAdvertisement => Sys2Proof.Machine.execMigrationAdvertisement s
  | .migrationOffer => Sys2Proof.Machine.execMigrationOffer s
  | .migrationOfferReceive => Sys2Proof.Machine.execMigrationOfferReceive s
  | .migrationAnswerReceive => Sys2Proof.Machine.execMigrationAnswerReceive s
  | .queueRecordService => Sys2Proof.Machine.execQueueRecordService s
  | .queueTailObserved => Sys2Proof.Machine.execQueueTailObserved s
  | .queueEntryNop => Sys2Proof.Machine.execQueueEntryNop s
  | .queueEntryLaunch => Sys2Proof.Machine.execQueueEntryLaunch s
  | .queueEntryGraph => Sys2Proof.Machine.execQueueEntryGraph s
  | .graphToken => Sys2Proof.Machine.execGraphToken s
  | .nodeLoop => Sys2Proof.Machine.execNodeLoop s
  | .nodeWait => Sys2Proof.Machine.execNodeWait s
  | .graphCompletion => Sys2Proof.Machine.execGraphCompletion s
  | .budgetWindowStart => Sys2Proof.Machine.execBudgetWindowStart s
  | .bgtWrite site k v => Sys2Proof.Machine.execBgtWrite site k v s
  | .faultBatchPost => Sys2Proof.Machine.execFaultBatchPost s
  | .fbidxWrite site fabric v => Sys2Proof.Machine.execFbidxWrite site fabric v s
  | .pendingTableRetry id => Sys2Proof.Machine.execPendingTableRetry id s
  | .serviceTailObserved => Sys2Proof.Machine.execServiceTailObserved s
  | .serviceNop => Sys2Proof.Machine.execServiceNop s
  | .replayFault => Sys2Proof.Machine.execReplayFault s
  | .cancelFault => Sys2Proof.Machine.execCancelFault s
  | .replayRange => Sys2Proof.Machine.execReplayRange s
  | .invalidate => Sys2Proof.Machine.execInvalidate s
  | .invalidateLeaseLapse => Sys2Proof.Machine.execInvalidateLeaseLapse s
  | .flip => Sys2Proof.Machine.execFlip s
  | .marker => Sys2Proof.Machine.execMarker s
  | .grant => Sys2Proof.Machine.execGrant s
  | .uncorrectableErrorFound place uid windex n => Sys2Proof.Machine.execUncorrectableErrorFound place uid windex n s
  | .scanTurn => Sys2Proof.Machine.execScanTurn s
  | .scanDrainDone => Sys2Proof.Machine.execScanDrainDone s
  | .scanDrainTimeout => Sys2Proof.Machine.execScanDrainTimeout s
  | .scanComplete => Sys2Proof.Machine.execScanComplete s
  | .assayRerunAdmission launch lix => Sys2Proof.Machine.execAssayRerunAdmission launch lix s
  | .assayRunEnd launch lix => Sys2Proof.Machine.execAssayRunEnd launch lix s
  | .errorRecordResend seq ack => Sys2Proof.Machine.execErrorRecordResend seq ack s
  | .ptpSample ns => Sys2Proof.Machine.execPtpSample ns s
  | .meshPacketArrival id forged => Sys2Proof.Machine.execMeshPacketArrival id forged s
  | .gateRequestArrival id => Sys2Proof.Machine.execGateRequestArrival id s
  | .flitCrcError a b link again => Sys2Proof.Machine.execFlitCrcError a b link again s
  | .linkDead a b link lock cut dup => Sys2Proof.Machine.execLinkDead a b link lock cut dup s
  | .detourTablesLoaded => Sys2Proof.Machine.execDetourTablesLoaded s
  | .portQueueAdvertisement site flits => Sys2Proof.Machine.execPortQueueAdvertisement site flits s
  | .portDown => Sys2Proof.Machine.execPortDown s
  | .proxyAnnounce => Sys2Proof.Machine.execProxyAnnounce s
  | .portUp site peer => Sys2Proof.Machine.execPortUp site peer s
  | .proxyHandbackEnd => Sys2Proof.Machine.execProxyHandbackEnd s
  | .opctlWrite site v => Sys2Proof.Machine.execOpctlWrite site v s
  | .berWindow site w errors => Sys2Proof.Machine.execBerWindow site w errors s
  | .retrainResult site ok => Sys2Proof.Machine.execRetrainResult site ok s
  | .lossOfLight site module => Sys2Proof.Machine.execLossOfLight site module s
  | .stripedFlitReceive site wave d0 body lset rest crc => Sys2Proof.Machine.execStripedFlitReceive site wave d0 body lset rest crc s
  | .stripedAckTimer => Sys2Proof.Machine.execStripedAckTimer s
  | .stripedGapTimeout => Sys2Proof.Machine.execStripedGapTimeout s
  | .nakReceive site seq ack => Sys2Proof.Machine.execNakReceive site seq ack s
  | .hostCxlMemAccess port dec off n write bytes => Sys2Proof.Machine.execHostCxlMemAccess port dec off n write bytes s
  | .hostLinkDown port => Sys2Proof.Machine.execHostLinkDown port s
  | .getVersion port => Sys2Proof.Machine.execGetVersion port s
  | .getCapabilities port => Sys2Proof.Machine.execGetCapabilities port s
  | .negotiateAlgorithms port p521 sha512 => Sys2Proof.Machine.execNegotiateAlgorithms port p521 sha512 s
  | .getDigests port => Sys2Proof.Machine.execGetDigests port s
  | .getCertificate port off len => Sys2Proof.Machine.execGetCertificate port off len s
  | .challenge port nonce => Sys2Proof.Machine.execChallenge port nonce s
  | .getMeasurements port index nonce => Sys2Proof.Machine.execGetMeasurements port index nonce s
  | .coldReset units dram seams stop => Sys2Proof.Machine.execColdReset units dram seams stop s
  | .setPowerLimit watts => Sys2Proof.Machine.execSetPowerLimit watts s
  | .returnUnitToService unit => Sys2Proof.Machine.execReturnUnitToService unit s
  | .restoreDarkWavelength site w light => Sys2Proof.Machine.execRestoreDarkWavelength site w light s
  | .writeDomainKey tdom key => Sys2Proof.Machine.execWriteDomainKey tdom key s
  | .writeSitepart site part => Sys2Proof.Machine.execWriteSitepart site part s
  | .writeRecord bytes => Sys2Proof.Machine.execWriteRecord bytes s
  | .warmReset units dram seams command => Sys2Proof.Machine.execWarmReset units dram seams command s
  | .powerClockAdjust raise => Sys2Proof.Machine.execPowerClockAdjust raise s
  | .registerWrite site off v => Sys2Proof.Machine.execRegisterWrite site off v s
  | .longLatencyResultWrite uid windex tag => Sys2Proof.Machine.execLongLatencyResultWrite uid windex tag s
  | .reservedOpcodeInstruction base ext => Sys2Proof.Machine.execReservedOpcodeInstruction base ext s
  | .hostLinkUp port => Sys2Proof.Machine.execHostLinkUp port s
  | .hostLineGrant site line shared => Sys2Proof.Machine.execHostLineGrant site line shared s
  | .hostSnoop site line shared => Sys2Proof.Machine.execHostSnoop site line shared s
  | .ultraEthernetRetransmission id => Sys2Proof.Machine.execUltraEthernetRetransmission id s
  | .ptpSyncMessage offset => Sys2Proof.Machine.execPtpSyncMessage offset s
  | .correctedError unit => Sys2Proof.Machine.execCorrectedError unit s
  | .spdmUnsupportedRequest port => Sys2Proof.Machine.execSpdmUnsupportedRequest port s

end Sys2Proof.Machine
end

