-- ==== Sys2Proof/WellFormed.lean ====
section
/-!
DEFINITION. Which instructions are well formed: those that the decoder may deliver. The checks
themselves are data and functions of Machine/Encoding.lean.
-/

namespace Sys2Proof

/-- The opcode field of a base word (R128). -/
def baseOpcode (w : DWord) : Nat := (w.extractLsb' 2 8).toNat

/-- The length code of a base word (R125). -/
def baseLen (w : DWord) : Nat := (w.extractLsb' 0 2).toNat

/-- The instruction has words of its own: it is not a step of another agent. -/
def Instr.hasWords (i : Instr) : Bool :=
  match i with
  | .nop _ => true
  | .reservedOpcodeInstruction _ _ => true
  | _ => (Machine.rowOf i).isSome

/-- Well formed: the fields pass every decode check of their row and the prefix is one that the
opcode takes. A reserved-opcode instruction is any word of a reserved cell (R153); the bits beyond
its length are zero. A device step has no words and is always well formed. -/
def Instr.wellFormed (i : Instr) : Bool :=
  match i with
  | .nop _ => true
  | .reservedOpcodeInstruction base ext =>
    !Machine.definedOpcode (baseOpcode base) &&
    (match baseLen base with
     | 0 => ext == 0#64
     | 1 => ext.extractLsb' 32 32 == 0#32
     | 2 => true
     | _ => false)
  | _ =>
    match Machine.rowOf i, Machine.fieldsOf i with
    | some r, some f =>
      r.legal (Machine.opcodeOf i) f &&
      (match f.pfx with
       | none => true
       | some p => Machine.prefixOk (Machine.opcodeOf i) p)
    | _, _ => true

end Sys2Proof
end

