-- ==== Sys2Proof/Decode.lean ====
section
/-!
DEFINITION. From words to instructions and back (06 R125 to R138, 07 R153 to R162). `decode` reads the
words from an address to the end of its fetch block; it is total and rejects by name. `encode` gives
the words of an instruction from the same layout tables.
-/

namespace Sys2Proof

/-- Why the words are no instruction, in the order of R162. `base` is the base word that the trap
record shows: the prefix word for a fault of prefix placement or prefix fields. -/
inductive Reject where
  | pastBlock                                -- check 3: the length leaves the fetch block
  | prefixFault (base : DWord)               -- check 4
  | illegal (op : Nat) (base : DWord)        -- check 7; at user level check 6 comes first for 0xF8 up
  deriving DecidableEq, Repr

/-- Bits [11:0] of a word as a source modifier (R136). -/
def decodeMod (m : BitVec 12) : SrcMod :=
  ⟨m.extractLsb' 10 2, m.extractLsb' 7 3, m.extractLsb' 2 5, m.getLsbD 1, m.getLsbD 0⟩

def encodeMod (m : SrcMod) : BitVec 12 :=
  m.cls ++ m.lgs ++ m.dist ++ BitVec.ofBool m.neg ++ BitVec.ofBool m.abs

/-- The prefix word of R138; `none` when a reserved bit is set. -/
def decodePrefix (w : DWord) : Option Prefix :=
  if w.extractLsb' 24 40 == 0#40 && w.extractLsb' 2 8 == 0#8 then
    some ⟨w.extractLsb' 22 2, w.extractLsb' 19 3, w.extractLsb' 16 3, w.extractLsb' 13 3, w.extractLsb' 10 3⟩
  else none

def encodePrefix (p : Prefix) : DWord :=
  0#40 ++ p.spec ++ p.policy ++ p.aspace ++ p.scope ++ p.order ++ 0#8 ++ 3#2

/-- The modifier-form extension word (R133); `none` when a reserved bit is set. -/
def decodeModForm (x : Word) : Option Ext :=
  if x.extractLsb' 0 15 == 0#15 then
    some (.mod (decodeMod (x.extractLsb' 20 12)) (x.extractLsb' 18 2) (x.extractLsb' 15 3))
  else none

/-- The 128-bit extension word (R134); `none` when a reserved bit is set. -/
def decodeLong (x : DWord) : Option Ext :=
  if x.extractLsb' 0 6 == 0#6 then
    some (.long (decodeMod (x.extractLsb' 52 12)) (decodeMod (x.extractLsb' 40 12))
      (decodeMod (x.extractLsb' 28 12)) (x.extractLsb' 25 3) (x.getLsbD 24) (x.extractLsb' 22 2)
      (x.extractLsb' 14 8) (x.extractLsb' 6 8))
  else none

/-- The fields of a base word (R128) with the extension and the prefix given. -/
def decodeBase (w : DWord) (ext : Ext) (pfx : Option Prefix) : Fields :=
  { variant := w.extractLsb' 59 5, type := w.extractLsb' 55 4, c := w.extractLsb' 47 8,
    b := w.extractLsb' 39 8, a := w.extractLsb' 31 8, d := w.extractLsb' 23 8,
    msense := w.getLsbD 22, mask := w.extractLsb' 19 3, lastrd := w.extractLsb' 16 3,
    hold := w.extractLsb' 14 2, la := w.extractLsb' 10 4, ext := ext, pfx := pfx }

def lenCode (e : Ext) : BitVec 2 :=
  match e with
  | .w64 => 0#2
  | .imm _ => 1#2
  | .mod _ _ _ => 1#2
  | .long _ _ _ _ _ _ _ _ => 2#2

/-- The base word of fields under an opcode (R128). -/
def encodeBase (op : Nat) (f : Fields) : DWord :=
  f.variant ++ f.type ++ f.c ++ f.b ++ f.a ++ f.d ++ BitVec.ofBool f.msense ++ f.mask ++ f.lastrd ++
  f.hold ++ f.la ++ BitVec.ofNat 8 op ++ lenCode f.ext

/-- The extension of a base word whose length code is given; `none` for a reserved bit. -/
def decodeExt (w : DWord) (x0 x1 : Word) : Option Ext :=
  match baseLen w with
  | 0 => some .w64
  | 1 =>
    if w.extractLsb' 31 8 == 0xFB#8 || w.extractLsb' 39 8 == 0xFB#8 || w.extractLsb' 47 8 == 0xFB#8 then
      some (.imm x0)
    else decodeModForm x0
  | _ => decodeLong (x1 ++ x0)

/-- The low and the high half of a dword: the order in which words stand in memory (R10, R125). -/
def wordsOf (x : DWord) : List Word := [x.extractLsb' 0 32, x.extractLsb' 32 32]

/-- Checks 4 (for a prefixed pair), 5 and 7 on one instruction whose words are all there. -/
def decodeWhole (pfx : Option DWord) (w : DWord) (x0 x1 : Word) : Except Reject Instr :=
  let op := baseOpcode w
  let p := pfx.bind decodePrefix
  if (match pfx with
      | none => false
      | some _ => match p with
        | none => true
        | some q => !Machine.prefixOk op q) then
    .error (.prefixFault (pfx.getD 0#64))
  else if !Machine.definedOpcode op then
    .ok (.reservedOpcodeInstruction w
      (match baseLen w with
       | 0 => 0#64
       | 1 => 0#32 ++ x0
       | _ => x1 ++ x0))
  else if op == 0 then
    -- R145: `nop` has no field but its length code
    if w == 0#64 then .ok (.nop false)
    else if w == 1#64 && x0 == 0#32 then .ok (.nop true)
    else .error (.illegal 0 w)
  else
    match decodeExt w x0 x1 with
    | none => .error (.illegal op w)
    | some ext =>
      match Machine.ofOpcode op (decodeBase w ext p) with
      | none => .error (.illegal op w)
      | some i => if Machine.opcodeOf i == op && Machine.legalFields i then .ok i else .error (.illegal op w)

/-- One instruction at the head of the list, after a prefix or without one. -/
def decodeOne (pfx : Option DWord) (ws : List Word) : Except Reject Instr :=
  match ws with
  | w0 :: w1 :: rest =>
    let w : DWord := w1 ++ w0
    match baseLen w with
    | 0 => decodeWhole pfx w 0#32 0#32
    | 1 => match rest with
      | x0 :: _ => decodeWhole pfx w x0 0#32
      | _ => .error .pastBlock
    | 2 => match rest with
      | x0 :: x1 :: _ => decodeWhole pfx w x0 x1
      | _ => .error .pastBlock
    | _ => .error (.prefixFault (pfx.getD w))
  | _ => .error .pastBlock

/-- The instruction at the head of `ws`, the words from an address to the end of its fetch block
(R126, R127, R162). A prefix at the end of a block has its instruction in another block. -/
def decode (ws : List Word) : Except Reject Instr :=
  match ws with
  | w0 :: w1 :: rest =>
    if w0.extractLsb' 0 2 == 3#2 then decodeOne (some (w1 ++ w0)) rest else decodeOne none ws
  | _ => .error .pastBlock

/-- The words of the extension (R133, R134). -/
def encodeExt (e : Ext) : List Word :=
  match e with
  | .w64 => []
  | .imm i => [i]
  | .mod m t r => [encodeMod m ++ t ++ r ++ 0#15]
  | .long a b c r cl sh x y =>
    wordsOf (encodeMod a ++ encodeMod b ++ encodeMod c ++ r ++ BitVec.ofBool cl ++ sh ++ x ++ y ++ 0#6)

/-- The words of an instruction, in the order in which they stand in memory. -/
def encode (i : Instr) : List Word :=
  match i with
  | .nop false => [0#32, 0#32]
  | .nop true => [1#32, 0#32, 0#32]
  | .reservedOpcodeInstruction base ext =>
    wordsOf base ++
    (match baseLen base with
     | 0 => []
     | 1 => [ext.extractLsb' 0 32]
     | _ => wordsOf ext)
  | _ =>
    match Machine.fieldsOf i with
    | some f =>
      (match f.pfx with
       | none => []
       | some p => wordsOf (encodePrefix p)) ++
      wordsOf (encodeBase (Machine.opcodeOf i) f) ++ encodeExt f.ext
    | none => []

/-- The first n 32-bit words of a number, low word first. -/
def natWords (n w : Nat) : List Word := (List.range n).map (fun k => BitVec.ofNat 32 (w / 2 ^ (32 * k)))

/-- The instruction that the decoder reads from the bits w, numbered as the opcode table numbers
them. An instruction is at most a prefix and 128 bits long, six words; the bits above nbits are 0. -/
def decodeTableWord (nbits w : Nat) : Option Instr :=
  match decode (natWords 7 (w % 2 ^ nbits)) with
  | .ok i => some i
  | .error _ => none

end Sys2Proof
end

