-- ==== Sys2Proof/Machine/Fetch.lean ====
section
/-!
DEFINITION. Which ply issues next (01 R23, R27), merging at the issue point (R26), instruction fetch
(06 R126, 18 R345, 19 R360), and the trap of words that are no instruction (07 R162).
-/

namespace Sys2Proof.Machine

open Sys2Proof

/-! ### Candidates -/

/-- A ply by name, with what the choice needs. -/
structure Cand where
  uid : Nat
  windex : Nat
  n : Nat
  core : CoreId
  part : Nat
  prio : Nat
  handle : Nat
  ply : Ply
  deriving DecidableEq, Repr

/-- The ply waits on a home fault of a load or atomic, or of its fetch (R221). -/
def faultHeld (s : State) (uid windex n : Nat) : Bool :=
  s.accs.any (fun a => a.ofPly uid windex n && !a.writes &&
    (match a.stage with
     | .fault => true
     | .full _ => true
     | _ => false)) ||
  s.pendings.any (fun p => p.waiters.contains (.fetch uid windex n))

/-- A deferred pre-emption lets the weave go on (R53): a volatile name is mapped, and neither 256 instructions nor
16,384 cycles have gone by. The manual says 'cycles'; the model counts those of `cyc` (log 85). -/
def deferring (s : State) (k : Kernel) (w : Weave) : Bool :=
  match w.defer with
  | none => false
  | some d => volMapped k w && d.issued < 256 && s.cyc < d.since + 16384

/-- The ply can be tried: nothing stops it, or it stands at an instruction that may go on now; plies that all wait
for each other go on together (R171, R233), and a member that waits at the rendezvous takes a trap that is due (R247).
While its weave stalls on an allocation, only the ply that stands at it is tried (R48). A weave of a team that leaves
its core issues only under the volatile deferral (R53, R307). -/
def triable (s : State) (t : Team) (w : Weave) (p : Ply) : Bool :=
  !w.ended && !t.ending && !(t.leaving.isSome && !deferring s t.kernel w) && !faultHeld s t.uid w.windex p.n &&
  w.stalled.all (fun st => st.ply == p.n) &&
  (p.canTry ||
    (!p.stopped && (match p.wait with
      | .meet _ => w.plies.all (fun q => match q.wait with | .meet _ => true | _ => false)
      | .barTeam => t.weaves.all (fun v => v.ended || v.plies.all (·.wait == .barTeam))
      | .rendezvous => p.trapDue.isSome
      | _ => false)))

/-- The candidates of a parked state. An evicted weave has none (R48), and a ply that has issued in this clock, or whose
branch target is not fetched yet, is none (R23, R156). -/
def candidates (s : State) : List Cand :=
  s.teams.flatMap (fun t => t.weaves.flatMap (fun w =>
    if w.evicted then []
    else (w.plies.filter (fun p => p.nextAt ≤ s.clk && triable s t w p)).map (fun p =>
      { uid := t.uid, windex := w.windex, n := p.n, core := t.at_, part := w.part, prio := t.prio, handle := w.handle, ply := p })))

/-- R27: an open constrained sequence keeps its ply issuing; else a due ply, the earliest first, goes before
the others of its weave. -/
def Cand.allowed (cs : List Cand) (c : Cand) : Bool :=
  let mates := cs.filter (fun d => d.uid == c.uid && d.windex == c.windex)
  if mates.any (fun d => 0 < d.ply.seqLeft) then 0 < c.ply.seqLeft
  else
    mates.all (fun d =>
      match d.ply.dueAt, c.ply.dueAt with
      | none, _ => true
      | some _, none => false
      | some x, some y => y < x || (y == x && c.n ≤ d.n))

/-- R33 promises that every ready ply issues within a bounded number of clocks, which R23's order alone does not give a
ply while plies of higher launch priority keep its slot busy: after 65,536 clocks it is overdue (DESIGN CHOICE, log
105). -/
def Cand.overdue (clk : Nat) (c : Cand) : Bool := c.ply.readyAt + 65536 ≤ clk

/-- c goes before d in one slot of a partition: higher launch priority, then least recently issued, then the lower
handle, then the lower ply number (R23); an overdue ply before all others. -/
def Cand.before (clk : Nat) (c d : Cand) : Bool :=
  if c.overdue clk != d.overdue clk then c.overdue clk
  else
  d.prio < c.prio || (c.prio == d.prio &&
    (c.ply.lastIssue < d.ply.lastIssue || (c.ply.lastIssue == d.ply.lastIssue &&
      (c.handle < d.handle || (c.handle == d.handle && c.n ≤ d.n)))))

/-- The first of a list under an order. -/
def firstBy {α : Type} (le : α → α → Bool) : List α → Option α
  | [] => none
  | x :: rest => match firstBy le rest with
    | none => some x
    | some y => if le x y then some x else some y

/-! ### Merging at the issue point (R26) -/

/-- The ply is stopped with an instruction before it that it has not begun. -/
def Ply.atStart (p : Ply) : Bool :=
  match p.wait with
  | .none => true
  | .retry => true
  | .yield _ => true
  | .fetch => true
  | _ => false

/-- R26: q is stopped at the address where p issues, and neither is in an open constrained sequence. -/
def mergeable (p q : Ply) : Bool :=
  q.pc == p.pc && q.seqLeft == 0 && p.seqLeft == 0 && !q.stopped && q.atStart && p.atStart

/-- A merge waits at the issue point while one of the plies has a `fence.spec` open: the checkpoint restores that ply
alone (log 91). -/
def mergeWaits (s : State) : Bool :=
  s.weave.plies.any (fun q => mergeable s.ply q && (q.fence.isSome || s.ply.fence.isSome))

/-- The issuing ply takes in the plies that stand at its address. -/
def mergeHere (s : State) : State :=
  let same := s.weave.plies.filter (mergeable s.ply)
  if same.isEmpty then s
  else
    let p := same.foldl mergeInto s.ply
    let old := s.ply.n :: same.map (·.n)
    let s1 := renamePlies s s.team.uid s.weave.windex old p.n
    { s1 with ply := { p with wait := .none }
              weave := { s.weave.renamePlies old p.n with plies := s.weave.plies.filter (fun q => !mergeable s.ply q) } }

/-! ### Fetch (R126, R162) -/

/-- What a fetch finds: the words to the end of the block, a trap, a poisoned word, or a failure at the home. -/
inductive Fetched where
  | words (ws : List Word)
  | trap (code : Nat) (info : List DWord)
  | poison (va ia : Nat)
  | fault (e : Failure)
  deriving DecidableEq

/-- The words of the instruction at the head, with its prefix, by the length codes (R126, R128); a word of the block behind
it is not fetched for it. Behind a prefix at byte 20 of a block stands the dead word, which is never fetched (R126). -/
def instrWords (at_ : Nat) (ws : List Word) : Nat :=
  let one (w : Word) : Nat := match (w.extractLsb' 0 2).toNat with | 1 => 3 | 2 => 4 | _ => 2
  let w0 := ws.headD 0#32
  if w0.extractLsb' 0 2 == 3#2 && at_ % 32 == 20 then 2
  else if w0.extractLsb' 0 2 == 3#2 then 2 + one (ws.getD 2 0#32) else one w0

/-- Checks 1 and 2 of R162, then the words; a poisoned word of the instruction is consumed (R360). -/
def fetch (s : State) : Fetched :=
  let pc := s.ply.pc
  let a := pc.toNat
  if a % 4 != 0 || a % 32 == 28 then .trap 0x03 [pc]
  else match translate s s.team.ctx a with
    | none => .trap 0x06 [pc, 0#64]
    | some ia =>
      let n := 32 - a % 32
      match (place s (ctxMaster s.team.ctx) rightX s.team.at_.site ia).1 with
      | .fail h k l => .fault ⟨h, k, l, ia⟩
      | .ctl _ _ => .words (List.replicate (n / 4) 0#32)
      | .cell key _ =>
        let ws : List Word := (List.range (n / 4)).map (fun k => BitVec.ofNat 32 (cellNat s.mem (key + 4 * k) 4))
        match poisonIn s key (min n (4 * instrWords a ws)) with
        | some w => .poison (a + 4 * w - key) (ia + 4 * w - key)
        | none => .words ws

/-- The slices keep the entries that the fetch used (R343); a host line is requested and granted in its step (R357; log 94). -/
def afterFetch (s : State) : State :=
  match translate s s.team.ctx s.ply.pc.toNat with
  | none => s
  | some ia =>
    let m := ctxMaster s.team.ctx
    match place s m rightX s.team.at_.site ia with
    | (.cell _ attr, used) => takeHostLine (cacheWalk s used) m s.team.at_.site attr ia true
    | (_, used) => cacheWalk s used

/-- A fetch that fails at its home waits in a pending entry (R348). -/
def fetchFault (s : State) (e : Failure) : State :=
  let (l, t) := teamIds s s.team.uid
  let r : Requester := { unit := s.team.at_.unit, ctx := s.team.ctx, acc := 4, lnum := l, tix := t, lanes := s.ply.mask.toNat }
  stand (holdPending s e r (.fetch s.team.uid s.weave.windex s.ply.n)).1 .fetch

/-! ### The choice of a ply (R23, R27) -/

/-- The instruction before which the focused ply stands, after merging. -/
def nextInstr (s : State) : Option Instr :=
  match fetch (mergeHere s) with
  | .words ws => (match decode ws with
    | .ok i => some i
    | .error _ => none)
  | _ => none

/-- The slot into which it issues (R155): 0 for V, 1 for M, 2 for X; the model takes X where the words are no
instruction. -/
def slotOf (i : Option Instr) : Nat := ((i.bind rowOf).map (·.slot.latch)).getD 2

/-- A source of the instruction is pending, or a lookahead window holds it (R52). -/
def sourcesPending (s : State) (i : Option Instr) : Bool :=
  windowClosed s ||
  match i.bind rowOf, i.bind fieldsOf with
  | some r, some f => !(hazards s r f).isEmpty
  | _, _ => false

/-- The slot of a candidate. -/
def Cand.slot (s : State) (c : Cand) : Nat := slotOf (nextInstr (focusOn s c.uid c.windex c.n))

/-- No instruction holds the slot of the partition in this clock (R23, R156). -/
def slotFree (s : State) (core : CoreId) (part slot : Nat) : Bool :=
  !s.slots.any (fun (k, p, j, until_) => k == core && p == part && j == slot && s.clk < until_)

/-- The candidate belongs to a re-run of an assay. -/
def Cand.rerun (s : State) (c : Cand) : Bool := ((findTeam s c.uid).map (·.run != .original)).getD false

/-- R368: a re-run issues while the assay class has issue budget left, and beyond it in clocks in which no program team asks
for the slot. -/
def assayTurn (s : State) (ok : List (Cand × Nat)) (x : Cand × Nat) : Bool :=
  !x.1.rerun s || mayUse s x.1.core.site 1 { issue := 1 } ||
  !ok.any (fun (d, j) => d.core == x.1.core && d.part == x.1.part && j == x.2 && !d.rerun s)

/-- The ready ply that issues next: the first of a free slot of its partition under R23, the slots served in turn. -/
def chooseReady (s : State) : Option (Cand × Nat) :=
  let cs := (candidates s).filter (·.ply.isReady)
  let free := ((cs.filter (Cand.allowed cs)).map (fun c => (c, c.slot s))).filter (fun (c, k) => slotFree s c.core c.part k)
  let ok := free.filter (assayTurn s free)
  let heads := ok.filter (fun (c, k) => ok.all (fun (d, j) => !(d.core == c.core && d.part == c.part && j == k) || c.before s.clk d))
  firstBy (fun c d => c.1.ply.lastIssue ≤ d.1.ply.lastIssue) heads

/-- The other ready plies of the same weave that could issue in this clock too, with a lower number. -/
def lowerMates (s : State) (c : Cand) : List Cand :=
  let cs := (candidates s).filter (·.ply.isReady)
  (cs.filter (Cand.allowed cs)).filter (fun d =>
    d.uid == c.uid && d.windex == c.windex && d.n < c.n && slotFree s d.core d.part (d.slot s))

/-- A ply that stands at an instruction whose condition does not hold, looked at again: the one tried longest ago. -/
def chooseRetry (s : State) : Option Cand :=
  firstBy (fun c d => c.ply.lastTry ≤ d.ply.lastTry) ((candidates s).filter (fun c => !c.ply.isReady))

/-- An issue holds its slot for the clocks of its class (R156); a slot takes one instruction in a clock (R23). One of a re-run
is an issue of the assay class (R335). -/
def claimSlot (s : State) (c : Cand) (slot : Nat) : State :=
  let i := nextInstr (focusOn s c.uid c.windex c.n)
  let n := match i.bind rowOf, i.bind fieldsOf with
    | some r, some f => slotClocks r f
    | _, _ => 1
  let s1 := { s with slots := (s.slots.filter (fun x => s.clk < x.2.2.2)) ++ [(c.core, c.part, slot, s.clk + n)] }
  if c.rerun s then useClass s1 c.core.site 1 3 1 else s1

/-- The trap of words that are no instruction (R162 checks 3 to 7). -/
def rejectTrap (s : State) (r : Reject) : State :=
  let pc := s.ply.pc
  match s.ply.trapDue with
  | some (code, info) => takeTrap s code pc [info] s.ply.mask
  | none =>
    match r with
    | .pastBlock => takeTrap s 0x03 pc [pc] s.ply.mask
    | .prefixFault base => takeTrap s 0x01 pc [base] s.ply.mask
    | .illegal op base => takeTrap s (if 0xF8 ≤ op && !atSystem s then 0x02 else 0x01) pc [base] s.ply.mask

end Sys2Proof.Machine
end

