-- ==== Sys2Proof/Machine/Due.lean ====
section
/-!
DEFINITION. The steps of other agents that the state itself calls for, each with its subject (log 1). A step in this list
that is not due yet changes nothing (each meaning checks that it is due), so the list may name too many; they have their
turn one after another.
-/

namespace Sys2Proof.Machine

open Sys2Proof

/-- A step and its subject. -/
abbrev Call : Type := Instr × List Nat

/-- Steps of a ply, by what it waits for. -/
def plyCalls (t : Team) (w : Weave) (p : Ply) : List Call :=
  (match p.wait with
   | .yield _ => [(.yieldExpiry t.uid w.windex p.n, [])]
   | .sleepUntil _ _ => [(.sleepUntilWake t.uid w.windex p.n, [])]
   | .sleepEv _ _ _ _ => [(.sleepEvWake t.uid w.windex p.n, []), (.sleepEvTimeout t.uid w.windex p.n, [])]
   | .xwait _ => [(.promiseMissed t.uid w.windex p.n, [])]
   | _ => []) ++
  (if p.fence.isSome then [(.fenceSpecValidate t.uid w.windex p.n, [])] else []) ++
  (if 32 ≤ p.passed then [(.plyDue t.uid w.windex p.n, [])] else []) ++
  [(.ptsAgeTick t.uid w.windex p.n, [])]

/-- Steps of a weave. -/
def weaveCalls (t : Team) (w : Weave) : List Call :=
  w.plies.flatMap (plyCalls t w) ++
  (w.loads.map (fun l => (.loadDataReturn t.uid w.windex l.tag, []))) ++
  ((w.pends.filter (fun p => p.timed || p.fence.isSome)).map (fun p => (.longLatencyResultWrite t.uid w.windex p.tag, []))) ++
  (if w.evicted then [(.refillWeave t.uid w.windex, [])] else []) ++
  (if w.stalled.isSome then [(.registerAllocationStall t.uid w.windex, [])] else []) ++
  (if w.defer.isSome then [(.volatileDeferralEnd t.uid w.windex, [])] else [])

/-- Steps of a resident team. -/
def teamCalls (t : Team) : List Call :=
  t.weaves.flatMap (weaveCalls t) ++
  (match t.leaving with
   | some 0 => [(.preemption t.uid, [])]
   | _ => [(.faultSwapOut t.uid, [])]) ++
  (if t.wdogAt.isSome then [(.watchdogExpiry t.uid, [])] else []) ++
  (if t.weaves.all (·.ended) then [(.teamEnd t.uid, []), (.assayRunEnd t.launch t.lix, [])] else [])

/-- Steps of a cluster's engines. -/
def clusterCalls (c : Cluster) : List Call :=
  [(.engineGrant c.site c.phys, []), (.matrixPassEnd c.site c.phys, []), (.transferEnd c.site c.phys, [])] ++
  c.cmds.map (fun e => (.commandAgePromotion c.site c.phys e.id, [])) ++
  c.copies.map (fun k => (.copyComplete c.site c.phys k.id, []))

/-- Steps of an access under way. -/
def accCalls (a : Acc) : List Call :=
  match a.stage with
  | .gate => [(.gateRequestArrival a.id, [])]
  | .full _ => [(.pendingTableRetry a.id, [])]
  | .held => [(.pendingTableRetry a.id, [])]
  | _ => []

/-- Steps of a launch, at the sites that hold its teams. -/
def launchCalls (l : Launch) : List Call :=
  let sites := distinct (l.runs.map (·.site) ++ l.suspended.map (·.site) ++ (if l.trials.isEmpty then [] else [l.site]))
  sites.flatMap (fun n => [(.teamAdmission, [n]), (.admissionStarvation, [n]), (.splitChangeRequest, [n]), (.migrationOffer, [n])]) ++
  l.suspended.map (fun x => (.contextRestore x.site x.uid, [])) ++
  (l.runs.map (·.first) ++ l.suspended.map (·.lix)).map (fun x => (.priorityAging l.key x, [])) ++
  l.trials.flatMap (fun x => [(.assayRerunAdmission l.key x.lix, []), (.assayRunEnd l.key x.lix, [])]) ++
  (if l.completed && !l.windowOpen then [] else [(.launchCompletion l.key, [])])

/-- Steps of a core whose split changes, and of units in the scan rotation. -/
def coreCalls (c : Core) : List Call :=
  (match c.splitState with
   | .serve => []
   | .drain => [(.splitChangeCancel, [c.id.site, c.id.cluster, c.id.core]), (.splitFlush, [c.id.site, c.id.cluster, c.id.core])]
   | .flush => [(.splitConfig, [c.id.site, c.id.cluster, c.id.core])]
   | .config => [(.splitServe, [c.id.site, c.id.cluster, c.id.core])]) ++
  (match c.scan with
   | .drain => [(.scanDrainDone, [c.id.unit]), (.scanDrainTimeout, [c.id.unit])]
   | .scan => [(.scanComplete, [c.id.unit])]
   | _ => [])

def engineScanCalls (c : Cluster) : List Call :=
  match c.scan with
  | .drain => [(.scanDrainDone, [engineUnit c.site c.phys])]
  | .scan => [(.scanComplete, [engineUnit c.site c.phys])]
  | _ => []

/-- Steps of a submission queue in service, and of a graph. -/
def queueCalls (q : Queue) : List Call :=
  [(.queueTailObserved, [q.site, q.q]), (.queueEntryNop, [q.site, q.q]), (.queueEntryLaunch, [q.site, q.q]),
   (.queueEntryGraph, [q.site, q.q]), (.queueRecordService, [q.site, q.q])]

def graphCalls (g : Graph) : List Call :=
  (List.range g.nodes.length).flatMap (fun k => [(.graphToken, [g.id, k]), (.nodeLoop, [g.id, k]), (.nodeWait, [g.id, k])]) ++
  [(.graphCompletion, [g.id])]

/-- Queue records in memory whose valid bit is set (R318). -/
def recordCalls (s : State) : List Call :=
  allSites.flatMap (fun n =>
    let base := regionKey s n 0x100000
    s.mem.filterMap (fun c =>
      if base ≤ c.1 && c.1 < base + 0x1000 && (c.1 - base) % 64 == 31 && c.2.getLsbD 7 then
        some (.queueRecordService, [n, (c.1 - base) / 64])
      else none))

/-- Steps of a partition's rings. -/
def ringCalls (s : State) : List Call :=
  distinct ((s.faultQ ++ s.fabricQ).map (·.part)) |>.map (fun p => ((.faultBatchPost, [p]) : Call))

def serviceCalls (s : State) : List Call :=
  (List.range 16).flatMap (fun p =>
    if !(findSite s (headSite s p)).svctl.getLsbD 63 then []
    else
      let all : List Instr := [.serviceTailObserved, .serviceNop, .replayFault, .cancelFault, .replayRange, .invalidate,
        .invalidateLeaseLapse, .flip, .marker, .grant]
      all.map (fun i => (i, [p])))

/-- Steps of every site: windows, advertisements, rotation, port and link timers. -/
def siteCalls (n : Nat) : List Call :=
  [(.budgetWindowStart, [n]), (.migrationAdvertisement, [n]), (.scanTurn, [n]), (.portDown, [n]), (.proxyAnnounce, [n]),
   (.proxyHandbackEnd, [n]), (.stripedAckTimer, [n]), (.stripedGapTimeout, [n])]

/-- Every step that the state calls for. -/
def dueCalls (s : State) : List Call :=
  s.teams.flatMap teamCalls ++ s.clusters.flatMap clusterCalls ++ s.accs.flatMap accCalls ++
  (s.pendings.filter (fun p => maxPending ≤ p.fid)).map (fun p => ((.pendingTableRetry p.fid, []) : Call)) ++
  s.packets.map (fun p => (.meshPacketArrival p.id false, [])) ++
  s.remotes.map (fun o => (.remoteOpComplete o.id, [])) ++
  s.launchReqs.map (fun r => (.launchRequest r.tag, [])) ++ s.launchAns.map (fun a => (.launchAnswer a.req.tag, [])) ++
  s.launches.flatMap launchCalls ++ s.cores.flatMap coreCalls ++ s.clusters.flatMap engineScanCalls ++
  s.offers.flatMap (fun o => [(.migrationOfferReceive, [o.id]), (.migrationAnswerReceive, [o.id])]) ++
  s.queues.flatMap queueCalls ++ s.graphs.flatMap graphCalls ++ recordCalls s ++ ringCalls s ++ serviceCalls s ++
  s.deadLinks.map (fun (a, b, _, _) => (.detourTablesLoaded, [a, b])) ++
  allSites.flatMap siteCalls

/-- The one that has its turn. -/
def dueEvent (s : State) : Option Call :=
  let calls := dueCalls s
  calls[s.steps / 3 % calls.length]?

end Sys2Proof.Machine
end

