-- ==== Sys2Proof/Machine/Run.lean ====
section
/-!
DEFINITION. One step of the module: a step of another agent that stands on the agenda, else an instruction of
a ply or a step that the state makes due, in turn (log 1); then time moves on (log 2). And the placing of
an instruction where the next step fetches it.
-/

namespace Sys2Proof.Machine

open Sys2Proof

/-- The issue of the ply that stands focused: merging, fetch, decoding, execution. -/
def issueHere (s : State) : Host.Outcome State Fault Refusal :=
  if mergeWaits s then .next (stand s .retry)
  else
  let s1 := mergeHere s
  match s1.ply.trapDue with
  | some (code, info) => .next (takeTrap (withdrawArrival s1) code s1.ply.pc [info] s1.ply.mask)
  | none =>
    match fetch s1 with
    | .trap code info => .next (takeTrap s1 code s1.ply.pc info s1.ply.mask)
    | .poison va ia => .next (consumeError s1 (BitVec.ofNat 64 va) ia)
    | .fault e => .next (fetchFault s1 e)
    | .words ws =>
      match decode ws with
      | .ok i => exec i (afterFetch s1)
      | .error r => .next (rejectTrap s1 r)

/-- The issue of a candidate of a parked state. -/
def issueCand (s : State) (c : Cand) : Host.Outcome State Fault Refusal := issueHere (focusOn s c.uid c.windex c.n)

/-- The issue of the candidate enters a handler. -/
def trapsAt (s : State) (c : Cand) : Bool :=
  match issueCand s c with
  | .next t => t.focused && t.team.uid == c.uid && t.weave.windex == c.windex && inTrap t && !inTrap (focusOn s c.uid c.windex c.n)
  | _ => false

/-- R302: of two plies of a weave whose instructions trap in one clock the lower-numbered one takes its trap, and the
other's instruction does not issue. -/
def lowerTrap (s : State) (c : Cand) : Cand :=
  match lowerMates s c with
  | [] => c
  | d :: ds => if trapsAt s c then ((d :: ds).find? (trapsAt s)).getD c else c

/-- The first choice that is there. -/
def firstOf (xs : List (Option (Host.Outcome State Fault Refusal))) (s : State) : Host.Outcome State Fault Refusal :=
  (xs.findSome? id).getD (.next s)

/-! ### Readiness (R23) -/

/-- The ply would stand still again: its condition does not hold. -/
def standsStill (s : State) (uid windex : Nat) (p : Ply) : Bool :=
  match issueHere (focusOn s uid windex p.n) with
  | .next s1 => s1.focused && s1.team.uid == uid && (s1.ply.wait == .retry || (p.wait != .none && s1.ply.wait == p.wait))
  | _ => false

/-- The ply is ready now. One that has just come to its instruction is ready when no source is pending; one that stands
at it is ready when it would go on. One that has issued in this clock, or whose branch target is not fetched yet, is not
(R156). -/
def readyNow (s : State) (t : Team) (w : Weave) (p : Ply) : Bool :=
  !w.evicted && p.nextAt ≤ s.clk && triable s t w p &&
  (if p.wait == .none then
    let f := focusOn s t.uid w.windex p.n
    !sourcesPending f (nextInstr f)
  else !standsStill s t.uid w.windex p)

/-- A ply that becomes ready, or ceases to be, starts its count of R27 anew. -/
def Ply.nowReady (p : Ply) (b : Bool) (clk : Nat) : Ply :=
  if p.ready == b then p else { p with ready := b, passed := 0, dueAt := none, readyAt := clk }

/-- Which plies are ready, of a parked state. -/
def refreshReady (s : State) : State :=
  { s with teams := s.teams.map (fun t => { t with weaves := t.weaves.map (fun w =>
      { w with plies := w.plies.map (fun p => p.nowReady (readyNow s t w p) s.clk) }) }) }

/-- The clock in which no ready ply finds a free slot is over. -/
def endClock (s : State) (ready : Bool) : State := if ready then s else { s with clk := s.clk + 1 }

/-- What happens in a step of a parked state with an empty agenda: ready plies, steps that are due and waiting
plies have the first turn one after another. -/
def turn (s0 : State) : Host.Outcome State Fault Refusal :=
  let s1 := refreshReady s0
  let choice := chooseReady s1
  let s := endClock s1 choice.isSome
  let ready := choice.map (fun (c, _) =>
    let d := lowerTrap s c
    issueCand (claimSlot s d (d.slot s)) d)
  let due := (dueEvent s).map (fun (i, about) => exec i { s with subject := about })
  let retry := (chooseRetry s).map (issueCand s)
  match s.steps % 3 with
  | 0 => firstOf [ready, due, retry] s
  | 1 => firstOf [due, ready, retry] s
  | _ => firstOf [retry, due, ready] s

/-- Time moves by free amounts (R8, log 2), and the copy engines with it (R419). -/
def passTime (s : State) : State :=
  let s1 := paceEngines s (Config.cycGap s.steps)
  { s1 with steps := s.steps + 1, clk := s.clk + Config.clkGap s.steps, cyc := s.cyc + Config.cycGap s.steps }

/-- A next state with its time passed; an `evrec` whose first store was performed takes `cyc` before that. -/
def thenTime : Host.Outcome State Fault Refusal → Host.Outcome State Fault Refusal
  | .next s => .next (passTime (sampleEvs s))
  | r => r

/-- One step. -/
def runStep (s : State) : Host.Outcome State Fault Refusal :=
  let s0 := park s
  match s0.agenda with
  | [] => thenTime (turn s0)
  | (i, about) :: rest =>
    let s1 := { s0 with agenda := rest, subject := about }
    thenTime (if i.hasWords then .next s1 else exec i s1)

/-! ### Placing an instruction (log 14) -/

/-- The bytes of n words of an instruction, little-endian (R10). -/
def wordBytes (nbits w : Nat) : List Byte := toBytes 28 (w % 2 ^ nbits)

/-- A page of code for context 1: the window, the home's context entry, its page tables, the right to fetch, and that to
post commands to the engines of cluster 0 (R83, R340, R341, R345), at site 27, with bytes at offset 0. -/
def codePage (s : State) (bytes : List Byte) : State :=
  let put (m : List Host.Cell) (key x : Nat) : List Host.Cell := cellWriteN m key (toBytes 8 x)
  let k (off : Nat) : Nat := regionKey s 27 off
  let pa := k 0 % 2 ^ 46
  let ptr (off : Nat) : Nat := 2 ^ 63 + (pa + off)
  let ia := s.wafer * 2 ^ 52 + 27 * 2 ^ 46
  let m := put s.mem (k 16) (2 ^ 63 + (findSite s 27).part * 2 ^ 59 + (pa + 0x400000))
  let m := put m (k 0x400000) (ptr 0x401000)
  let m := put m (k 0x401000) (ptr 0x402000)
  let m := put m (k 0x402000) (ptr 0x403000)
  let m := put m (k 0x403000) (2 ^ 63 + 2 ^ 62 + (pa + 0x410000))
  let m := put m (k 0x200000) (2 ^ 63 + 8 * 2 ^ 54 + 2 ^ 32)
  let m := put m (k 0x200008) ia
  let m := put m (k 0x200010) (ia + 65536)
  let m := put m (k (accTableOff (engineTarget 0))) (2 ^ 63 + 15 * 2 ^ 54 + 2 ^ 32)
  let win : Window := { wva := BitVec.ofNat 64 (2 ^ 63 + 16 * 2 ^ 56 + 65536), wia := BitVec.ofNat 64 ia }
  onCtx { s with mem := cellWriteN m (k 0x410000) bytes } 1 (fun c => { c with windows := c.windows.set 0 win })

/-- A team of one weave with one ply at the page of code, as a launch admits it (R38): s0 mapped, the largest
peaks, user level. -/
def codeTeam : Team :=
  { uid := 1, ctx := 1
    kernel := { d1 := 0x00C0003000000000#64, d2 := 0x0408041F00000000#64 }
    weaves := [{ map := { s := (List.replicate 48 none).set 0 (some ⟨0, 0#64, false⟩) }
                 plies := [{ pc := 65536#64, mask := 0xFFFFFFFF#32 }] }] }

/-- The state in which the next step fetches exactly these bytes. -/
def placeInstr (s : State) (nbits w : Nat) : State :=
  { codePage { s with agenda := [], focused := false, steps := 0, nextId := max s.nextId 2, walkCache := [], poisoned := [], pendings := [], accs := [] } (wordBytes nbits w)
    with teams := [codeTeam] }

end Sys2Proof.Machine
end

