-- ==== Sys2Proof/Machine/Step.lean ====
section
/-!
DEFINITION. The step of the model, and the state in which the next step fetches given bits.
-/

namespace Sys2Proof.Machine

open Sys2Proof

/-- One step of the module. -/
def step (s : State) : Host.Outcome State Fault Refusal := runStep s

/-- The state with the instruction of these bits where the next step fetches. -/
def State.withFetchWord (s : State) (nbits w : Nat) : State := placeInstr s nbits w

end Sys2Proof.Machine
end

