-- ==== Sys2Proof/Safety.lean ====
section
/-!
DEFINITION. What counts as a safe state and a safe run, and the terms in which the statements speak of an instruction
that issues: when it may, what it writes, and what it leaves alone. The manual leaves no case without an outcome
(00 R15): a safe run is one in which every step has a next state, and a safe state is one whose memory stands in its
canonical form.
-/

namespace Sys2Proof.Safety

open Sys2Proof Sys2Proof.Machine

/-- The memory is in canonical form. -/
def Safe (s : State) : Prop := Memory.wf s.mem = true

/-- The outcome is a next state. -/
def goesOn : Host.Outcome State Fault Refusal → Bool
  | .next _ => true
  | _ => false

/-- n steps in succession all have a next state. -/
def safeRun : Nat → State → Bool
  | 0, _ => true
  | n + 1, s =>
    match step s with
    | .next t => safeRun n t
    | _ => false

/-! ### Reading the state -/

/-- The byte of memory at a memory key (node, site and physical address as one number). -/
def byteAt (s : State) (a : Nat) : Byte := cellRead s.mem a

/-- Lane j of v<n>; an unmapped name reads as 0 here. -/
def vLane (s : State) (n j : Nat) : Word := ((vget s n).map (fun r => lane r.lanes j)).getD 0#32

/-- Lane j of the destination d, as a pair of registers when `wide` (R39). -/
def dLane (s : State) (wide : Bool) (d j : Nat) : DWord :=
  if wide then vLane s (d + 1) j ++ vLane s d j else BitVec.setWidth 64 (vLane s d j)

/-- The value of s<n>. -/
def sVal (s : State) (n : Nat) : DWord := ((sget s n).map (·.val)).getD 0#64

/-- Mask register k<n>, n from 1. -/
def kMask (s : State) (n : Nat) : LaneMask := s.weave.kregs.getD n 0#32

/-- The displacement of a transfer: C sign-extended, or the immediate of the 96-bit form (R166, R172). -/
def disp (f : Fields) : DWord :=
  match f.ext with
  | .imm i => i.signExtend 64
  | _ => f.c.signExtend 64

/-- A relative target (R166). -/
def relative (s : State) (f : Fields) : DWord := s.ply.pc + 4#64 * disp f

/-- The scalar operand of a source field of the issuing instruction (R165). -/
def scl (s : State) (f : Fields) (c : BitVec 8) : DWord := scalarVal s f (activeLanes s f) c.toNat

/-- Lane j of source k (0 A, 1 B, 2 C) as an element of type t, modifiers applied (R137, R188). -/
def elemOf (s : State) (f : Fields) (t : Ty) (k j : Nat) : Nat := low t.width (elemAt (srcVec s f t k) j)

/-- Lane j of the second operand y (R190). -/
def second (s : State) (f : Fields) (t : Ty) (j : Nat) : Nat := low t.width (elemAt (secondVec s f t) j)

/-- Lane j of source k read as a single register (R188). -/
def single (s : State) (f : Fields) (t : Ty) (k j : Nat) : Nat := elemAt (srcSingle s f t k) j

/-- The exact result x as the instruction delivers it: clamped with .sat (R57), wrapped (R56), and extended as the type
says (R188). -/
def delivered (t : Ty) (sat : Bool) (x : Int) : DWord :=
  t.extend (wrapNat t.width (if sat then max t.minInt (min t.maxInt x) else x))

/-- .sat sets `fpflags.sat` when the clamp changes the value (R57). -/
def satFlag (t : Ty) (sat : Bool) (x : Int) : Flags := if sat && (x < t.minInt || t.maxInt < x) then flSat else 0#7

/-! ### When an instruction may issue -/

/-- The row of an instruction in the opcode map. -/
def rowAt (i : Instr) : Row := (rowOf i).getD { forms := .only64, slot := .x, cls := .a }

/-- The instruction i with fields f may issue in s: it is well formed, no trap is due at it, its opcode is open to the
ply's level (R162 check 6), its latch sources have open windows (R51), no pending result concerns a name of it and
no lookahead window is used up (R52), and what it reads is mapped (R45) and free of errors (R359, R360). -/
structure CanIssue (s : State) (i : Instr) (f : Fields) : Prop where
  wellFormed : i.wellFormed = true
  noTrap : s.ply.trapDue = none
  level : opcodeOf i < 0xF8 ∨ atSystem s = true
  latches : ∀ c ∈ latchNames (rowAt i) f, latchWin s c ≠ none
  settled : windowClosed s = false ∧ hazards s (rowAt i) f = []
  mapped : ∀ c ∈ readNames (rowAt i) f, isUnmapped s c = false
  clean : poisonedSources s (rowAt i) f = []

/-- There is room for the registers that i writes: the kernel's peak (R46) and the pools (R48) allow what the names
need once the names of last-read bits are unmapped, and a source that the instruction holds is pinned (R50). -/
structure HasRoom (s : State) (i : Instr) (f : Fields) (ws : List Write) : Prop where
  peak : overPeak (afterReads s (rowAt i) f) ws = false
  pool : overPool (afterHold s s (rowAt i) f) ws = false

/-- The lanes on which i is performed (R129). -/
abbrev lanes (s : State) (f : Fields) : LaneMask := activeLanes s f

/-- What i writes to a vector destination in field D: nothing when no lane is active (R129). -/
def vDest (s : State) (f : Fields) (wide : Bool) : List Write :=
  if activeLanes s f = 0#32 then [] else vecWrite f.d wide (activeLanes s f) []

/-- What i writes to a scalar destination in field D. -/
def sDest (s : State) (f : Fields) : List Write := if activeLanes s f = 0#32 then [] else sclWrite f.d 0#64

/-- The flags of the lanes of a mask, ORed (R43, R152). -/
def laneFlags (m : LaneMask) (fl : Nat → Flags) : Flags :=
  (List.range 32).foldl (fun acc j => acc ||| (if inMask m j then fl j else 0#7)) 0#7

/-! ### What an instruction leaves alone -/

/-- A ply without the names that its open checkpoint notes as changed since (R55). -/
def blankNotes (p : Ply) : Ply := { p with fence := p.fence.map (fun c => { c with own := [], others := [] }) }

/-- The state without what every instruction that issues may change: registers, masks, sticky flags, the counts of
issue, the latch windows, the names that open checkpoints note, the names of the model. Two states with equal rests agree
in all memory, every special, trap and control register, every other ply, team and unit. -/
def rest (s : State) : State :=
  { s with
    nextId := 0
    cores := []
    ply := { blankNotes s.ply with
      pc := 0#64, wait := .none, lastIssue := 0, ready := true, passed := 0, dueAt := none, seqLeft := 0, nextAt := 0, readyAt := 0 }
    weave := { s.weave with
      map := {}, kregs := [], fpflags := 0#7, clkFlags := [], srcnt := [], latches := [], pends := [], nextTag := 0, stalled := none
      plies := s.weave.plies.map (fun p => { blankNotes p with passed := 0, dueAt := none })
      defer := s.weave.defer.map (fun d => { d with issued := 0 }) }
    team := { s.team with eligible := true } }

/-- A core without the owners of its operand latch. -/
def coreRest (s : State) (c : CoreId) : Core := { findCore s c with latchOwner := [] }

/-- The registers of t are those of s but for the vector names vs, the scalar names ss and the mask names ks; a name
that a last-read bit of i gives is unmapped (R44). -/
structure KeepsRegs (s t : State) (i : Instr) (f : Fields) (vs ss ks : List Nat) : Prop where
  vector : ∀ n < 192, n ∉ vs → vget t n = if n ∈ lastReadNames (rowAt i) f then none else vget s n
  scalar : ∀ n < 48, n ∉ ss → sget t n = if 0xC0 + n ∈ lastReadNames (rowAt i) f then none else sget s n
  masks : ∀ n, n ∉ ks → kMask t n = kMask s n

/-- After i the ply stands at `next`, the sticky flags `fl` have been ORed in (R43), every byte of memory, and all that
is no register, reads as before. -/
structure GoesOn (s t : State) (f : Fields) (next : DWord) (fl : Flags) : Prop where
  pc : t.ply.pc = next
  ready : t.ply.wait = .none
  flags : t.weave.fpflags = s.weave.fpflags ||| fl
  counts : f.rnd ≠ 5 → t.weave.srcnt = s.weave.srcnt
  memory : ∀ a, byteAt t a = byteAt s a
  others : rest t = rest s
  cores : ∀ c, coreRest t c = coreRest s c

/-- i completes in t with a vector result: each active lane j of the destination holds `val j`, each other lane what it
held, or 0 when the name had no register (R44, R129). -/
structure VecDone (s t : State) (i : Instr) (f : Fields) (wide : Bool) (val : Nat → DWord) (fl : Flags) : Prop where
  goes : GoesOn s t f (afterPc s.ply.pc f) fl
  result : isV f.d.toNat = true → ∀ j < 32,
    dLane t wide f.d.toNat j =
      if inMask (activeLanes s f) j then (if wide then val j else BitVec.setWidth 64 ((val j).setWidth 32))
      else dLane (afterReads s (rowAt i) f) wide f.d.toNat j
  keeps : KeepsRegs s t i f (if isV f.d.toNat then (if wide then [f.d.toNat, f.d.toNat + 1] else [f.d.toNat]) else []) [] []

/-- i completes in t with a scalar result (R181). -/
structure SclDone (s t : State) (i : Instr) (f : Fields) (val : DWord) : Prop where
  goes : GoesOn s t f (afterPc s.ply.pc f) 0#7
  result : isS f.d.toNat = true → activeLanes s f ≠ 0#32 → sVal t (f.d.toNat - 0xC0) = val
  none : activeLanes s f = 0#32 → KeepsRegs s t i f [] [] []
  keeps : KeepsRegs s t i f [] (if isS f.d.toNat then [f.d.toNat - 0xC0] else []) []

/-- i completes in t with a result in a mask register: the active lanes take their bits of `val` (R185). -/
structure MaskDone (s t : State) (i : Instr) (f : Fields) (val : LaneMask) (fl : Flags) : Prop where
  goes : GoesOn s t f (afterPc s.ply.pc f) fl
  result : ∀ j < 32, inMask (kMask t f.d.toNat) j =
    if inMask (activeLanes s f) j then inMask val j else inMask (kMask s f.d.toNat) j
  keeps : KeepsRegs s t i f [] [] [f.d.toNat]

/-- i completes in t as u, with no register written: u is the state at issue with the effect that the statement names. -/
structure Done (u t : State) (i : Instr) (f : Fields) (next : DWord) : Prop where
  goes : GoesOn u t f next 0#7
  keeps : KeepsRegs u t i f [] [] []

/-! ### Statements by shape -/

/-- i completes with the vector result `val` and the flags `fl` of its active lanes. -/
def VecRule (s : State) (i : Instr) (f : Fields) (wide : Bool) (val : Nat → DWord) (fl : Nat → Flags) : Prop :=
  CanIssue s i f → HasRoom s i f (vDest s f wide) →
    ∃ t, exec i s = .next t ∧ VecDone s t i f wide val (laneFlags (activeLanes s f) fl)

/-- An integer instruction with the exact result `res` in each lane. -/
def IntRule (s : State) (i : Instr) (f : Fields) (res : Nat → Int) : Prop :=
  VecRule s i f (wideType f) (fun j => delivered (tyOf f) (satBit f) (res j)) (fun j => satFlag (tyOf f) (satBit f) (res j))

/-- A bitwise instruction with the result bits `res` in each lane. -/
def BitRule (s : State) (i : Instr) (f : Fields) (res : Nat → Nat) : Prop :=
  VecRule s i f (wideType f) (fun j => (tyOf f).extend (low (tyOf f).width (res j))) (fun _ => 0#7)

/-- An instruction whose lanes each give a rounded result of type t with its flags. -/
def RoundRule (s : State) (i : Instr) (f : Fields) (t : Ty) (res : Nat → Rounded) : Prop :=
  VecRule s i f t.is64 (fun j => t.extend (res j).code) (fun j => (res j).flags)

/-- i completes with the scalar result `val`. -/
def SclRule (s : State) (i : Instr) (f : Fields) (val : DWord) : Prop :=
  CanIssue s i f → HasRoom s i f (sDest s f) → ∃ t, exec i s = .next t ∧ SclDone s t i f val

/-- i completes with the mask result `val` and the flags `fl` of its active lanes. -/
def MaskRule (s : State) (i : Instr) (f : Fields) (val : LaneMask) (fl : Nat → Flags) : Prop :=
  CanIssue s i f → ∃ t, exec i s = .next t ∧ MaskDone s t i f val (laneFlags (activeLanes s f) fl)

/-- i completes with no register written, as u, and the ply goes on at `next`. -/
def DoneRule (s : State) (i : Instr) (f : Fields) (u : State) (next : DWord) : Prop :=
  CanIssue s i f → ∃ t, exec i s = .next t ∧ Done u t i f next

end Sys2Proof.Safety
end

