-- ==== Sys2Proof/Certificates/Slice0/Obligations.lean ====
section
/-!
DEFINITION. The statements for the provers. Each docstring names the rules of spec/ that its statement formalises; what
rests on a choice of the model says so and names the log entry. The terms are those of Sys2Proof/Safety.lean.
-/

open Sys2Proof Sys2Proof.Machine Sys2Proof.Safety

/-! ### Decoding, the step, reset -/

/-- R125 to R138, R154 to R161: for every well-formed instruction with words of its own, the decoder reads from its
encoding exactly that instruction, whatever words follow in the fetch block. -/
def Rules.DecodeEncode : Prop :=
  ∀ (i : Instr) (rest : List Word), i.hasWords = true → i.wellFormed = true → decode (encode i ++ rest) = .ok i

/-- R130, R145, R162: every instruction that the decoder delivers is well formed, and its encoding is the words that
were read. -/
def Rules.EncodeDecode : Prop :=
  ∀ (ws : List Word) (i : Instr), decode ws = .ok i → i.wellFormed = true ∧ encode i <+: ws

/-- R125 to R138, R154 to R161: decoding an encoded well-formed instruction gives it back, and encoding a decoded one
gives back its words. -/
def Obligations.DecodeAndEncodeAgree : Prop := Rules.DecodeEncode ∧ Rules.EncodeDecode

/-- Words written out field by field from R128 and the opcode map of R154: variant, type, C, B, A, D, msense, mask,
lastrd, hold, la, opcode, length code. -/
def Obligations.DecodeWords : Prop :=
  -- nop
  decode [0#32, 0#32] = .ok (.nop false) ∧
  -- add.sat.i32 v1, v2, s3 in k2, A read for the last time
  decode (wordsOf (16#5 ++ 2#4 ++ 0x00#8 ++ 0xC3#8 ++ 0x02#8 ++ 0x01#8 ++ 0#1 ++ 2#3 ++ 1#3 ++ 0#2 ++ 0#4 ++ 0x20#8 ++ 0#2)) =
    .ok (.add { Fields.base with variant := 16#5, type := 2#4, c := 0#8, b := 0xC3#8, a := 2#8, d := 1#8, mask := 2#3, lastrd := 1#3 }) ∧
  -- sadd s1, s2, 7: the 64-bit form with an immediate in C
  decode (wordsOf (0#5 ++ 0#4 ++ 0x07#8 ++ 0xF0#8 ++ 0xC2#8 ++ 0xC1#8 ++ 0#1 ++ 0#3 ++ 0#3 ++ 0#2 ++ 0#4 ++ 0x0E#8 ++ 0#2)) =
    .ok (.sadd { Fields.base with c := 7#8, a := 0xC2#8, d := 0xC1#8 }) ∧
  -- jmp s4 + 0x0001_0000: the 96-bit form
  decode (wordsOf (0#5 ++ 0#4 ++ 0xFB#8 ++ 0xF0#8 ++ 0xC4#8 ++ 0xF0#8 ++ 0#1 ++ 0#3 ++ 0#3 ++ 0#2 ++ 0#4 ++ 0x05#8 ++ 1#2) ++ [0x00010000#32]) =
    .ok (.jmp { Fields.base with c := 0xFB#8, a := 0xC4#8, ext := .imm 0x00010000#32 }) ∧
  -- eret
  decode (wordsOf (0#5 ++ 0#4 ++ 0xF0#8 ++ 0xF0#8 ++ 0xF0#8 ++ 0xF0#8 ++ 0#1 ++ 0#3 ++ 0#3 ++ 0#2 ++ 0#4 ++ 0xFA#8 ++ 0#2)) =
    .ok (.eret Fields.base) ∧
  -- opcode 0x39 is reserved
  decode (wordsOf (0#5 ++ 0#4 ++ 0xF0#8 ++ 0xF0#8 ++ 0xF0#8 ++ 0xF0#8 ++ 0#1 ++ 0#3 ++ 0#3 ++ 0#2 ++ 0#4 ++ 0x39#8 ++ 0#2)) =
    .ok (.reservedOpcodeInstruction (0#5 ++ 0#4 ++ 0xF0#8 ++ 0xF0#8 ++ 0xF0#8 ++ 0xF0#8 ++ 0#1 ++ 0#3 ++ 0#3 ++ 0#2 ++ 0#4 ++ 0x39#8 ++ 0#2) 0#64)

/-- R8, R15: whatever the state, a step has a next state; no instruction and no event ends the machine. -/
def Rules.StepGoesOn : Prop := ∀ s : State, goesOn (step s) = true

/-- R23, R126, R162: the ply that is chosen to issue (of two that trap in one clock the lower-numbered one, R302) takes its place in its slot, merges with the plies at its address,
and when the words at its program counter decode to an instruction, the step is that instruction's execution, after which
time passes. In the steps in which a ready ply has the first turn (log 1). -/
def Obligations.StepRunsDecoded : Prop :=
  ∀ (s : State) (c : Cand) (slot : Nat) (ws : List Word) (i : Instr),
    let p := refreshReady (park s)
    let d := lowerTrap p c
    let v := focusOn (claimSlot p d (d.slot p)) d.uid d.windex d.n
    let u := mergeHere v
    p.agenda = [] → p.steps % 3 = 0 → chooseReady p = some (c, slot) → mergeWaits v = false →
    u.ply.trapDue = none → fetch u = .words ws → decode ws = .ok i →
      step s = thenTime (exec i (afterFetch u))

/-- R126, R162 checks 1 to 3 and 7, R301: a fetch from an address that is no multiple of 4, or that is byte 28 of a
block, raises misaligned-fetch with that address; one without a window raises window-miss; words that are no instruction
raise illegal-instruction, each with the address of the instruction as resume address. -/
def Rules.FetchTraps : Prop :=
  ∀ s : State, let u := mergeHere s
    mergeWaits s = false → u.ply.trapDue = none →
    ((u.ply.pc.toNat % 4 ≠ 0 ∨ u.ply.pc.toNat % 32 = 28) →
      issueHere s = .next (takeTrap u 0x03 u.ply.pc [u.ply.pc] u.ply.mask)) ∧
    (u.ply.pc.toNat % 4 = 0 → u.ply.pc.toNat % 32 ≠ 28 → translate u u.team.ctx u.ply.pc.toNat = none →
      issueHere s = .next (takeTrap u 0x06 u.ply.pc [u.ply.pc, 0#64] u.ply.mask)) ∧
    (∀ ws, fetch u = .words ws → decode ws = .error .pastBlock →
      issueHere s = .next (takeTrap u 0x03 u.ply.pc [u.ply.pc] u.ply.mask)) ∧
    (∀ ws base, fetch u = .words ws → decode ws = .error (.prefixFault base) →
      issueHere s = .next (takeTrap u 0x01 u.ply.pc [base] u.ply.mask)) ∧
    (∀ ws op base, fetch u = .words ws → decode ws = .error (.illegal op base) →
      issueHere s = .next (takeTrap u (if 0xF8 ≤ op ∧ atSystem u = false then 0x02 else 0x01) u.ply.pc [base] u.ply.mask))

/-- R153: a reserved opcode raises illegal-instruction with its base word; that is its effect. -/
def Rules.ReservedOpcode : Prop :=
  ∀ (base ext : DWord) (s : State), inTrap s = false → (tvecNow s).getLsbD 63 = true →
    ∃ t, exec (.reservedOpcodeInstruction base ext) s = .next t ∧
      t.weave.epc = s.ply.pc ∧ t.weave.tcause.extractLsb' 56 8 = 0x01#8 ∧ t.weave.tinfo.getD 0 0#64 = base ∧
      t.ply.pc = ((tvecNow s).extractLsb' 0 56).setWidth 64 ∧ t.weave.pstat.getLsbD 0 = true ∧
      t.weave.map = s.weave.map ∧ t.mem = s.mem

/-- R126, R153, R162, R301: what a fetch refuses, and what a reserved opcode does. -/
def Obligations.FetchAndReservedOpcodes : Prop := Rules.FetchTraps ∧ Rules.ReservedOpcode

/-- R350, R351, R379, R384, R392, R394, R397: what the registers of every site's control space read right after reset,
where their Reset column gives a number; the optical ports are down; no team is resident and `cyc` stands at zero
(R400). That the decoders of the host ports (0x300 to 0x338) and `svbase`, `svtail` and `svctl` (0x1018 to 0x1028) read 0 is the
model's choice of log 5: the spec gives them no reset value. -/
def Rules.ResetRegisters : Prop :=
  (∀ site < 64, isSite site = true →
    ctlRead State.reset site 0x0140 = 0#64 ∧
    ctlRead State.reset site 0x0200 = 0x0000C81033000000#64 ∧
    ctlRead State.reset site 0x0210 = 0#64 ∧
    (ctlRead State.reset site 0x0208).extractLsb' 56 4 = 5#4 ∧
    ∀ k < 4, ctlRead State.reset site (0x300 + 8 * k) = 0#64 ∧ ctlRead State.reset site (0x320 + 8 * k) = 0#64) ∧
  (∀ site < 64, isSite site = true → ∀ k < 9, ctlRead State.reset site (0x1000 + 8 * k) = 0#64) ∧
  (∀ site < 64, (findSite State.reset site).up = false) ∧
  State.reset.teams = [] ∧ State.reset.queues = [] ∧ State.reset.launches = [] ∧ State.reset.cyc = 0

/-- The memory at reset is in canonical form; that it lists nothing, so that every byte reads as 0, is the model's choice
(log 7). -/
def Rules.ResetMemory : Prop := Safe State.reset ∧ ∀ a, byteAt State.reset a = 0#8

/-- What the registers and the memory hold right after reset; what the manual leaves open there is the model's choice
(logs 5, 7 and 9). -/
def Obligations.ResetState : Prop := Rules.ResetRegisters ∧ Rules.ResetMemory

/-- Every step keeps the memory in its canonical form (the form itself is the model's, log 7), so that two memories with
the same bytes are the same data. -/
def Rules.StepKeepsMemory : Prop := ∀ s t : State, Safe s → step s = .next t → Safe t

/-- R8, R15: from every state a step has a next state, and a step from a state whose memory is in canonical form (the
form is the model's, log 7) leads to one whose memory is. -/
def Obligations.EveryStepGoesOn : Prop := Rules.StepGoesOn ∧ Rules.StepKeepsMemory

/-! ### Traps -/

/-- R302: a recoverable trap, outside a handler and with a valid vector in force (a `wrpv` takes effect after its clock, R311): every other ply stops, the reservations are
cleared, the cause, record and resume address are saved, the status shows a handler at system level, and the ply goes on
at the handler with its mask; registers, masks, sticky flags, memory and all other state stand. -/
def Rules.TakeTrap : Prop :=
  ∀ (s : State) (code : Nat) (epc : DWord) (info : List DWord) (mask : LaneMask),
    inTrap s = false → (tvecNow s).getLsbD 63 = true → code < 256 → s.ply.n < 4 → mask ≠ 0#32 →
    let t := takeTrap s code epc info mask
    t.weave.tcause = BitVec.ofNat 8 code ++ BitVec.ofBool (atSystem s) ++ 0#5 ++ BitVec.ofNat 2 s.ply.n ++ 0#16 ++ mask ∧
    t.weave.tinfo = [info.getD 0 0#64, info.getD 1 0#64, info.getD 2 0#64, info.getD 3 0#64] ∧
    t.weave.epc = epc ∧ t.weave.pstat = s.weave.pstat ||| 0x11#64 ∧ t.weave.resv = [] ∧
    (∀ p ∈ t.weave.plies, p.stopped = true) ∧ t.weave.plies.map (·.n) = s.weave.plies.map (·.n) ∧
    t.ply.pc = ((tvecNow s).extractLsb' 0 56).setWidth 64 ∧ t.ply.mask = s.ply.mask ∧
    t.weave.map = s.weave.map ∧ t.weave.kregs = s.weave.kregs ∧ t.weave.fpflags = s.weave.fpflags ∧
    t.weave.tvec = s.weave.tvec ∧ t.weave.tscr = s.weave.tscr ∧ t.weave.memdef = s.weave.memdef ∧
    t.weave.stklim = s.weave.stklim ∧ t.weave.rgnpc = s.weave.rgnpc ∧ t.weave.gang = s.weave.gang ∧
    (∀ a, byteAt t a = byteAt s a) ∧ t.team = s.team ∧ t.teams = s.teams

/-- R301, R302, R304: a trap in a handler is a double-trap, and a trap without a valid vector is no-handler. Both are
fatal: no weave of the team has a ply left, its side-log entries are gone, a record that names the code of the trap that
could not be taken and its resume address enters the fault buffer (its layout: log 10), and, for an original run, the
launch is poisoned and each of the team's crews is broken; no byte of memory changes. -/
def Rules.FatalTrap : Prop :=
  ∀ (s : State) (code : Nat) (epc : DWord) (info : List DWord) (mask : LaneMask),
    s.focused = true → (inTrap s = true ∨ (tvecNow s).getLsbD 63 = false) → (∀ u ∈ s.teams, u.uid ≠ s.team.uid) →
    let t := takeTrap s code epc info mask
    t.focused = false ∧
    (∀ u ∈ t.teams, u.uid = s.team.uid → u.ending = true ∧ ∀ w ∈ u.weaves, w.plies = [] ∧ w.ended = true) ∧
    (∃ r, t.faultQ = s.faultQ ++ [r] ∧ r.dwords.getD 1 0#64 = BitVec.ofNat 64 code ∧ r.dwords.getD 5 0#64 = epc) ∧
    (∀ e ∈ (findCore t s.team.at_).log, e.uid ≠ s.team.uid) ∧
    (s.team.run = .original → ∀ l ∈ t.launches, l.key = s.team.launch → l.poisoned = true ∧
      ∀ c ∈ l.crews, c.members.contains s.team.lix = true → c.broken = true) ∧
    (∀ a, byteAt t a = byteAt s a)

/-- R301, R302, R304: what taking a trap saves and where it goes, and the traps that end the team. -/
def Obligations.TrapEntry : Prop := Rules.TakeTrap ∧ Rules.FatalTrap

/-- R45, R160, R162, R301: what an instruction with a row does where it may not issue: at user level an opcode from 0xF8
on raises privileged-instruction; else a source without a mapping raises unmapped-register with the operand code read,
both with the instruction's address as resume address. -/
def Rules.IssueTraps : Prop :=
  ∀ (s : State) (i : Instr) (f : Fields), fieldsOf i = some f → (rowOf i).isSome = true → i.wellFormed = true →
    s.ply.trapDue = none →
    (0xF8 ≤ opcodeOf i → atSystem s = false → ∀ body,
      issue i s body = .next (takeTrap s 0x02 s.ply.pc [baseWord (opcodeOf i) f] (activeLanes s f))) ∧
    (opcodeOf i < 0xF8 → latchesFine s (rowAt i) f = true → windowClosed s = false → hazards s (rowAt i) f = [] →
      ∀ c, (readNames (rowAt i) f).find? (isUnmapped s) = some c → ∀ body,
      issue i s body = .next (takeTrap s 0x04 s.ply.pc [BitVec.ofNat 64 c] (activeLanes s f)))

/-- R46, R301: a write that would take the weave above its kernel's register peak raises register-peak with the
destination code and writes nothing; here for `smov`, whose destination is one scalar name without a mapping. -/
def Rules.RegisterPeak : Prop :=
  ∀ (s : State) (f : Fields), CanIssue s (.smov f) f → isS f.d.toNat = true → activeLanes s f ≠ 0#32 → f.lastrd = 0#3 →
    sget s (f.d.toNat - 0xC0) = none → s.team.kernel.speak = s.weave.map.sCount →
      exec (.smov f) s = .next (takeTrap s 0x05 s.ply.pc [f.d.setWidth 64] (activeLanes s f))

/-- R45, R46, R160, R162, R301: the checks at issue and their traps. -/
def Obligations.IssueChecks : Prop := Rules.IssueTraps ∧ Rules.RegisterPeak

/-! ### Branches, plies, jumps, sleeping, regions, traps, exit -/

/-- R168 with R166: `br` decides once for the whole ply and moves it, with its whole mask, to the relative target, or
leaves it at the next instruction; no register, flag, ply or byte of memory changes. -/
def Obligations.Branches : Prop :=
  ∀ (s : State) (f : Fields),
    let next := afterPc s.ply.pc f
    DoneRule s (.brNz f) f s (if scl s f f.a ≠ 0#64 then relative s f else next) ∧
    DoneRule s (.brZ f) f s (if scl s f f.a = 0#64 then relative s f else next) ∧
    DoneRule s (.brAny f) f s (if activeLanes s f ≠ 0#32 then relative s f else next) ∧
    DoneRule s (.brAll f) f s
      (if activeLanes s f ≠ 0#32 ∧ activeLanes s f = s.ply.mask then relative s f else next)

/-- R172: `jmp`, `call` and `ret` move the ply; `call` gives its destination the address of the next instruction. -/
def Rules.Jumps : Prop :=
  ∀ (s : State) (f : Fields),
    DoneRule s (.jmp f) f s (scl s f f.a + disp f) ∧
    DoneRule s (.ret f) f s (scl s f f.a) ∧
    (∀ i target, (i = .call f ∧ target = relative s f) ∨ (i = .callReg f ∧ target = scl s f f.a + disp f) →
      CanIssue s i f → HasRoom s i f (sclWrite f.d 0#64) →
        ∃ t, exec i s = .next t ∧ GoesOn s t f target 0#7 ∧
          (isS f.d.toNat = true → sVal t (f.d.toNat - 0xC0) = afterPc s.ply.pc f) ∧
          KeepsRegs s t i f [] (if isS f.d.toNat then [f.d.toNat - 0xC0] else []) [])

/-- R145: `nop` does nothing and counts as an instruction. -/
def Rules.Nop : Prop :=
  ∀ (s : State) (wide : Bool), s.ply.trapDue = none → windowClosed s = false →
    ∃ t, exec (.nop wide) s = .next t ∧ t.ply.pc = nextPc s.ply.pc (if wide then 12 else 8) ∧ t.ply.wait = .none ∧
      t.ply.lastIssue = s.steps ∧ t.weave.map = s.weave.map ∧ t.weave.kregs = s.weave.kregs ∧
      t.weave.fpflags = s.weave.fpflags ∧ rest t = rest s ∧ ∀ a, byteAt t a = byteAt s a

/-- R145, R172: transfers that do not depend on a condition, and the instruction without effect. -/
def Obligations.JumpsAndNop : Prop := Rules.Jumps ∧ Rules.Nop

/-- The lanes on which a `brs` is taken, F of R24 and the state in which the executing ply keeps T and the lanes that are
not active. -/
def taken (s : State) (f : Fields) (nz : Bool) : LaneMask :=
  maskOf (fun j => inMask (activeLanes s f) j && (scalarOrLane s f (activeLanes s f) f.a.toNat j != 0#32) == nz)
def fallen (s : State) (f : Fields) (nz : Bool) : LaneMask := activeLanes s f &&& ~~~(taken s f nz)
def stays (s : State) (f : Fields) (nz : Bool) : State :=
  { s with ply := { s.ply with mask := s.ply.mask &&& ~~~(fallen s f nz) } }

/-- R24, R169: `brs` with no active lane writes nothing; on a uniform condition it acts as a branch and clears the mask
half of its pair; else the executing ply goes on at the target without the lanes F, and with fewer than four plies a new
ply with the lowest free number starts behind the `brs` with the mask F, the mask half cleared; with four the pair
receives the address behind the `brs` and F, unless its mask half, bits [31:0] of the odd register, holds lanes already:
then illegal-instruction. That a split into a new ply waits for the ply's own open `fence.spec` is the model's choice
(log 91). -/
def Rules.SplitPly : Prop :=
  ∀ (s : State) (f : Fields) (i : Instr) (nz : Bool), (i = .brsNz f ∧ nz = true) ∨ (i = .brsZ f ∧ nz = false) →
    CanIssue s i f →
    let m := activeLanes s f
    let next := afterPc s.ply.pc f
    let odd := f.d.toNat - 0xC0 + 1
    (m = 0#32 → ∃ t, exec i s = .next t ∧ Done s t i f next) ∧
    (m ≠ 0#32 → (fallen s f nz = 0#32 ∨ taken s f nz = 0#32) → HasRoom s i f [.s odd 0#64] →
      ∃ t, exec i s = .next t ∧ GoesOn s t f (if fallen s f nz = 0#32 then relative s f else next) 0#7 ∧
        sVal t odd = 0#64 ∧ KeepsRegs s t i f [] [odd] []) ∧
    (fallen s f nz ≠ 0#32 → taken s f nz ≠ 0#32 → (allPlies s).length < 4 → s.ply.fence ≠ none →
      exec i s = .next (stand s .retry)) ∧
    (fallen s f nz ≠ 0#32 → taken s f nz ≠ 0#32 → (allPlies s).length < 4 → s.ply.fence = none →
      let u := { stays s f nz with weave := { s.weave with
        plies := insertPly (newPly s next (fallen s f nz)) s.weave.plies } }
      HasRoom u i f [.s odd 0#64] →
      ∃ t, exec i s = .next t ∧ GoesOn u t f (relative s f) 0#7 ∧ sVal t odd = 0#64 ∧ KeepsRegs u t i f [] [odd] []) ∧
    (fallen s f nz ≠ 0#32 → taken s f nz ≠ 0#32 → 4 ≤ (allPlies s).length → (sVal s odd).setWidth 32 = 0#32 →
      HasRoom (stays s f nz) i f [.s (odd - 1) 0#64, .s odd 0#64] →
      ∃ t, exec i s = .next t ∧ GoesOn (stays s f nz) t f (relative s f) 0#7 ∧
        sVal t (odd - 1) = next ∧ sVal t odd = (fallen s f nz).setWidth 64 ∧ KeepsRegs s t i f [] [odd - 1, odd] []) ∧
    (fallen s f nz ≠ 0#32 → taken s f nz ≠ 0#32 → 4 ≤ (allPlies s).length → (sVal s odd).setWidth 32 ≠ 0#32 →
      exec i s = .next (takeTrap s 0x01 s.ply.pc [baseWord 0x02 f] m))

/-- The new ply of a `brs` or `resume` has the lowest number that no ply of the weave has (R24, R25). -/
def Rules.NewPlyNumber : Prop :=
  ∀ (s : State) (pc : DWord) (mask : LaneMask), (allPlies s).length < 4 →
    (newPly s pc mask).n < 4 ∧ (newPly s pc mask).pc = pc ∧ (newPly s pc mask).mask = mask ∧
    (∀ p ∈ allPlies s, p.n ≠ (newPly s pc mask).n) ∧
    ∀ k < (newPly s pc mask).n, ∃ p ∈ allPlies s, p.n = k

/-- R24, R25, R169: a `brs` and the ply that it starts. -/
def Obligations.SplittingPlies : Prop := Rules.SplitPly ∧ Rules.NewPlyNumber

/-- R25, R170: `resume` with an empty mask does nothing; held lanes whose address is the next one join the ply; else
they become a new ply, or with four plies the ply and the held lanes change places; a held lane that is in a ply raises
illegal-instruction. That a new ply waits for the ply's own open `fence.spec` is the model's choice (log 91). -/
def Rules.Resume : Prop :=
  ∀ (s : State) (f : Fields), CanIssue s (.resume f) f →
    let even := f.a.toNat - 0xC0
    let held := (sVal s (even + 1)).setWidth 32
    let next := afterPc s.ply.pc f
    let i := Instr.resume f
    (held = 0#32 → ∃ t, exec i s = .next t ∧ Done s t i f next) ∧
    (held ≠ 0#32 → (∃ p ∈ allPlies s, p.mask &&& held ≠ 0#32) →
      exec i s = .next (takeTrap s 0x01 s.ply.pc [baseWord 0x03 f] (activeLanes s f))) ∧
    (held ≠ 0#32 → (∀ p ∈ allPlies s, p.mask &&& held = 0#32) →
      (sVal s even = next →
        let u := { s with ply := { s.ply with mask := s.ply.mask ||| held } }
        HasRoom u i f [.s (even + 1) 0#64] → ∃ t, exec i s = .next t ∧ GoesOn u t f next 0#7 ∧
          sVal t (even + 1) = 0#64 ∧ KeepsRegs s t i f [] [even + 1] []) ∧
      (sVal s even ≠ next → (allPlies s).length < 4 → s.ply.fence ≠ none → exec i s = .next (stand s .retry)) ∧
      (sVal s even ≠ next → (allPlies s).length < 4 → s.ply.fence = none →
        let u := { s with weave := { s.weave with plies := insertPly (newPly s (sVal s even) held) s.weave.plies } }
        HasRoom u i f [.s (even + 1) 0#64] → ∃ t, exec i s = .next t ∧ GoesOn u t f next 0#7 ∧
          sVal t (even + 1) = 0#64 ∧ KeepsRegs u t i f [] [even + 1] []) ∧
      (sVal s even ≠ next → 4 ≤ (allPlies s).length →
        let u := { s with ply := { s.ply with mask := held } }
        HasRoom u i f [.s even 0#64, .s (even + 1) 0#64] → ∃ t, exec i s = .next t ∧ GoesOn u t f (sVal s even) 0#7 ∧
          sVal t even = next ∧ sVal t (even + 1) = s.ply.mask.setWidth 64 ∧
          KeepsRegs s t i f [] [even, even + 1] []))

/-- R171: a `plysync` waits while some other ply of the weave is not stopped at one; a weave with one ply passes at once;
and when all have arrived, the plies at its address merge into the lowest-numbered one, with the union of the masks. That
plies of which one has a `fence.spec` open do not merge yet is the model's choice (log 91). -/
def Rules.Plysync : Prop :=
  ∀ (s : State) (f : Fields), CanIssue s (.plysync f) f →
    ((∃ p ∈ s.weave.plies, ∀ w, p.wait ≠ .meet w) → exec (.plysync f) s = .next (stand s (.meet none))) ∧
    (s.weave.plies = [] → ∃ t, exec (.plysync f) s = .next t ∧ Done s t (.plysync f) f (afterPc s.ply.pc f)) ∧
    ((∃ p ∈ allPlies s, p.fence ≠ none ∧ ∃ q ∈ allPlies s, q.n ≠ p.n ∧ q.pc = p.pc) →
      exec (.plysync f) s = .next (stand s (.meet none))) ∧
    ((∀ p ∈ s.weave.plies, p.wait = .meet none) → (∀ p ∈ allPlies s, p.fence = none) →
      ∃ t, exec (.plysync f) s = .next t ∧ t.ply.pc = afterPc s.ply.pc f ∧ t.ply.wait = .none ∧
        t.ply.n ≤ s.ply.n ∧ (∀ p ∈ s.weave.plies, p.pc = s.ply.pc → t.ply.n ≤ p.n) ∧
        (∀ j, inMask t.ply.mask j = (inMask s.ply.mask j || s.weave.plies.any (fun p => p.pc == s.ply.pc && inMask p.mask j))) ∧
        (∀ p ∈ t.weave.plies, p.wait = .none ∧ ∃ q ∈ s.weave.plies, q.pc ≠ s.ply.pc ∧ p.pc = nextPc q.pc 8) ∧
        KeepsRegs s t (.plysync f) f [] [] [] ∧ ∀ a, byteAt t a = byteAt s a)

/-- R25, R170, R171: `resume` and `plysync`. -/
def Obligations.RejoiningPlies : Prop := Rules.Resume ∧ Rules.Plysync

/-- R173: after `yield` the ply waits 16 clocks, or 1 when no other ply of its partition is ready; it counts as an
instruction and ends a constrained sequence. -/
def Rules.Yield : Prop :=
  ∀ (s : State) (f : Fields), CanIssue s (.yield f) f →
    ∃ t, exec (.yield f) s = .next t ∧ t.ply.wait = .yield (s.clk + (if partitionBusy s then 16 else 1)) ∧
      t.ply.pc = afterPc s.ply.pc f ∧ t.ply.seqLeft = 0 ∧ t.ply.lastIssue = s.steps ∧
      KeepsRegs s t (.yield f) f [] [] [] ∧ t.weave.fpflags = s.weave.fpflags ∧ ∀ a, byteAt t a = byteAt s a

/-- R174: a `sleep.until` without a handle goes on where `cyc` has reached its deadline and else sleeps until it does;
with a handle that names no outstanding copy of the weave it goes on at once. On waking with its copy outstanding it takes
promise-missed where `cyc` has reached the promise, and else goes on. -/
def Rules.SleepUntil : Prop :=
  ∀ (s : State) (f : Fields), CanIssue s (.sleepUntil f) f →
    let i := Instr.sleepUntil f
    ((∀ x, s.ply.wait ≠ .woken x) →
      (f.b = 0xF0#8 → (scl s f f.a).toNat ≤ cycHere s → ∃ t, exec i s = .next t ∧ Done s t i f (afterPc s.ply.pc f)) ∧
      (f.b = 0xF0#8 → cycHere s < (scl s f f.a).toNat →
        exec i s = .next (stand s (.sleepUntil (scl s f f.a) none))) ∧
      (f.b ≠ 0xF0#8 → copyOut s ((scl s f f.b).toNat % 2 ^ 32) = none →
        ∃ t, exec i s = .next t ∧ t.ply.pc = afterPc s.ply.pc f ∧ t.ply.wait = .none)) ∧
    (s.ply.wait = .woken 0 → ∃ t, exec i s = .next t ∧ Done s t i f (afterPc s.ply.pc f)) ∧
    (∀ h x, s.ply.wait = .woken (h + 1) → copyOut s h = some x →
      (x.promise.toNat ≤ cycHere s →
        exec i s = .next (takeTrap s 0x10 s.ply.pc (missedRecord s x) (activeLanes s f))) ∧
      (cycHere s < x.promise.toNat → ∃ t, exec i s = .next t ∧ Done s t i f (afterPc s.ply.pc f)))

/-- R175, R176: a `sleep.ev` whose selection names a set latch returns at once with exactly those latches in D and clears
exactly those; with none set and no watch selected it sleeps, with the 65,536-cycle bound; a watch without an address
raises illegal-instruction. On waking, D receives the events. -/
def Rules.SleepEv : Prop :=
  ∀ (s : State) (f : Fields), CanIssue s (.sleepEv f) f →
    let i := Instr.sleepEv f
    let sel := scl s f f.a
    let e := sel.getLsbD 0 && s.weave.evEngine
    let g := sel.getLsbD 1 && s.weave.evSignal
    (∀ ev < 8, s.ply.wait = .woken ev → HasRoom s i f (sclWrite f.d 0#64) →
      ∃ t, exec i s = .next t ∧ t.ply.pc = afterPc s.ply.pc f ∧ t.ply.wait = .none ∧
        (isS f.d.toNat = true → sVal t (f.d.toNat - 0xC0) = BitVec.ofNat 64 ev) ∧
        t.weave.evEngine = s.weave.evEngine ∧ t.weave.evSignal = s.weave.evSignal) ∧
    ((∀ x, s.ply.wait ≠ .woken x) → sel.getLsbD 2 = true → f.b = 0xF0#8 →
      exec i s = .next (takeTrap s 0x01 s.ply.pc [baseWord 0x0A f] (activeLanes s f))) ∧
    ((∀ x, s.ply.wait ≠ .woken x) → (sel.getLsbD 2 = false ∨ f.b ≠ 0xF0#8) → (e || g) = true → HasRoom s i f (sclWrite f.d 0#64) →
      ∃ t, exec i s = .next t ∧ t.ply.pc = afterPc s.ply.pc f ∧
        (isS f.d.toNat = true → sVal t (f.d.toNat - 0xC0) = BitVec.setWidth 64 (BitVec.ofBool g ++ BitVec.ofBool e)) ∧
        t.weave.evEngine = (s.weave.evEngine && !e) ∧ t.weave.evSignal = (s.weave.evSignal && !g) ∧
        ∀ a, byteAt t a = byteAt s a) ∧
    ((∀ x, s.ply.wait ≠ .woken x) → sel.getLsbD 2 = false → (e || g) = false →
      exec i s = .next (stand s (.sleepEv (sel.toNat % 8) (cycHere s + 65536) none f.d)))

/-- R173 to R176: `yield`, `sleep.until` and `sleep.ev` as they issue. -/
def Obligations.YieldAndSleeps : Prop := Rules.Yield ∧ Rules.SleepUntil ∧ Rules.SleepEv

/-- R177 with R54: in a weave with one ply, `rgn` outside a region opens it: the checkpoint holds the rename map, the
ply's number and mask, and `rgnpc` the address behind it; `rgn.end` inside one releases the checkpoint and clears
`rgnpc.act`; in the wrong place each raises illegal-instruction; while another ply has not met it, each waits, and `rgn`
waits for an open `fence.spec`. -/
def Obligations.Regions : Prop :=
  ∀ (s : State) (f : Fields),
    (CanIssue s (.rgn f) f →
      (s.weave.plies = [] → s.weave.rgnpc.getLsbD 63 = true →
        exec (.rgn f) s = .next (takeTrap s 0x01 s.ply.pc [baseWord 0x0B f] (activeLanes s f))) ∧
      (s.weave.plies = [] → s.weave.rgnpc.getLsbD 63 = false → s.ply.fence = none →
        let u := { s with weave := { s.weave with
          region := some ⟨s.weave.map, s.ply.n, s.ply.mask, s.weave.nextTag⟩, restarts := 0
          rgnpc := 0x8000000000000000#64 ||| (nextPc s.ply.pc 8 &&& 0x00FFFFFFFFFFFFFF#64) } }
        ∃ t, exec (.rgn f) s = .next t ∧ Done u t (.rgn f) f (afterPc s.ply.pc f)) ∧
      (s.weave.plies = [] → s.weave.rgnpc.getLsbD 63 = false → s.ply.fence ≠ none →
        exec (.rgn f) s = .next (stand s .retry)) ∧
      ((∃ p ∈ s.weave.plies, ∀ w, p.wait ≠ .meet w) →
        exec (.rgn f) s = .next (stand s (.meet (some (baseWord 0x0B f)))))) ∧
    (CanIssue s (.rgnEnd f) f →
      (s.weave.plies = [] → s.weave.rgnpc.getLsbD 63 = false →
        exec (.rgnEnd f) s = .next (takeTrap s 0x01 s.ply.pc [baseWord 0x0B f] (activeLanes s f))) ∧
      (s.weave.plies = [] → s.weave.rgnpc.getLsbD 63 = true →
        let u := { s with weave := { s.weave with
          region := none, restarts := 0, rgnpc := s.weave.rgnpc &&& 0x7FFFFFFFFFFFFFFF#64 } }
        ∃ t, exec (.rgnEnd f) s = .next t ∧ Done u t (.rgnEnd f) f (afterPc s.ply.pc f)) ∧
      ((∃ p ∈ s.weave.plies, ∀ w, p.wait ≠ .meet w) →
        exec (.rgnEnd f) s = .next (stand s (.meet (some (baseWord 0x0B f))))))

/-- R178: `trap n` with an active lane raises the software trap with n and the active mask; its handler resumes at the
next instruction. With no active lane it does nothing. -/
def Rules.TrapInstruction : Prop :=
  ∀ (s : State) (f : Fields), CanIssue s (.trap f) f →
    (activeLanes s f = 0#32 → ∃ t, exec (.trap f) s = .next t ∧ Done s t (.trap f) f (afterPc s.ply.pc f)) ∧
    (activeLanes s f ≠ 0#32 → inTrap s = false → (tvecNow s).getLsbD 63 = true →
      ∃ t, exec (.trap f) s = .next t ∧ t.weave.epc = afterPc s.ply.pc f ∧
        t.weave.tcause.extractLsb' 56 8 = 0x11#8 ∧ t.weave.tcause.extractLsb' 0 32 = activeLanes s f ∧
        t.weave.tinfo.getD 0 0#64 = f.c.setWidth 64 ∧
        t.ply.pc = ((tvecNow s).extractLsb' 0 56).setWidth 64 ∧ t.weave.pstat = s.weave.pstat ||| 0x11#64 ∧
        t.weave.map = s.weave.map ∧ ∀ a, byteAt t a = byteAt s a)

/-- R18, R179: `exit` takes its active lanes from the ply, which goes on with the others at the next instruction; with no
lane and no ply left the weave has ended, its region with it. That lanes leave only when the ply has no `fence.spec` open
is the model's choice (log 91). -/
def Rules.ExitLanes : Prop :=
  ∀ (s : State) (f : Fields), CanIssue s (.exit f) f →
    let left := s.ply.mask &&& ~~~(activeLanes s f)
    (activeLanes s f ≠ 0#32 → s.ply.fence ≠ none → exec (.exit f) s = .next (stand s .retry)) ∧
    (activeLanes s f = 0#32 ∨ s.ply.fence = none →
    (left ≠ 0#32 ∨ s.weave.plies ≠ [] →
      ∃ t, exec (.exit f) s = .next t ∧
        Done { s with ply := { s.ply with mask := left } } t (.exit f) f (afterPc s.ply.pc f)) ∧
    (left = 0#32 → s.weave.plies = [] → s.focused = true → s.weave.ended = false →
      (∀ u ∈ s.teams, u.uid ≠ s.team.uid) → (∀ w ∈ s.team.weaves, w.windex ≠ s.weave.windex) →
      ∃ t, exec (.exit f) s = .next t ∧ t.focused = false ∧ (∃ u ∈ t.teams, u.uid = s.team.uid) ∧
        (∀ u ∈ t.teams, u.uid = s.team.uid → (∃ w ∈ u.weaves, w.windex = s.weave.windex) ∧
          ∀ w ∈ u.weaves, w.windex = s.weave.windex →
            w.ended = true ∧ w.plies = [] ∧ w.region = none ∧ w.rgnpc = 0#64) ∧
        ∀ a, byteAt t a = byteAt s a))

/-- R18, R178, R179: `trap` and `exit`. -/
def Obligations.TrapAndExit : Prop := Rules.TrapInstruction ∧ Rules.ExitLanes

/-! ### Scalar family, special registers, masks, votes -/

/-- x < y as `val(type, x) < val(type, y)`: signed for i64, natural for n64 (R182). -/
def below (f : Fields) (x y : DWord) : Prop := if (tyOf f).isSigned then x.toInt < y.toInt else x.toNat < y.toNat

/-- R180 to R183: the scalar family writes its 64-bit result to D when a lane is active, and changes no flag and nothing
else. -/
def Rules.ScalarFamily : Prop :=
  ∀ (s : State) (f : Fields),
    let x := scl s f f.a
    let y := secondScalar s f (activeLanes s f)
    SclRule s (.sadd f) f (x + y) ∧ SclRule s (.ssub f) f (x - y) ∧ SclRule s (.smul f) f (x * y) ∧
    SclRule s (.sand f) f (x &&& y) ∧ SclRule s (.sor f) f (x ||| y) ∧ SclRule s (.sxor f) f (x ^^^ y) ∧
    SclRule s (.sshl f) f (if y.toNat < 64 then x <<< y.toNat else 0#64) ∧
    SclRule s (.sshr f) f (if y.toNat < 64 then x >>> y.toNat else 0#64) ∧
    SclRule s (.ssra f) f (if y.toNat < 64 then x.sshiftRight y.toNat
      else if x.getLsbD 63 then 0xFFFFFFFFFFFFFFFF#64 else 0#64) ∧
    (∀ r, (r = x ∨ r = y) → ¬ below f x r → ¬ below f y r → SclRule s (.smin f) f r) ∧
    (∀ r, (r = x ∨ r = y) → ¬ below f r x → ¬ below f r y → SclRule s (.smax f) f r) ∧
    SclRule s (.smad f) f (x * scl s f f.b + scl s f f.c) ∧
    SclRule s (.ssel f) f (if scl s f f.c ≠ 0#64 then x else scl s f f.b) ∧
    SclRule s (.smov f) f
      (if isV f.b.toNat then (vLane s f.b.toNat (lowestLane (activeLanes s f))).setWidth 64 else y)

/-- R182: `scmp` gives 1 where the condition of its code holds between the operands and 0 where it does not: eq, ne, lt,
le, gt, ge, signed for i64 and natural for n64. -/
def Rules.ScalarCompare : Prop :=
  ∀ (s : State) (f : Fields),
    let x := scl s f f.a
    let y := secondScalar s f (activeLanes s f)
    ∀ cond : Prop,
      (f.variant = 0#5 → (cond ↔ x = y)) → (f.variant = 1#5 → (cond ↔ x ≠ y)) →
      (f.variant = 2#5 → (cond ↔ below f x y)) → (f.variant = 3#5 → (cond ↔ ¬ below f y x)) →
      (f.variant = 4#5 → (cond ↔ below f y x)) → (f.variant = 5#5 → (cond ↔ ¬ below f x y)) →
      (cond → SclRule s (.scmp f) f 1#64) ∧ (¬ cond → SclRule s (.scmp f) f 0#64)

/-- R180 to R183: the scalar family. -/
def Obligations.ScalarInstructions : Prop := Rules.ScalarFamily ∧ Rules.ScalarCompare

/-- A value of `memdef` in which no field has a reserved value (R42): the policy is at most 4, the address space
at most 2, the order 1 to 5. -/
def memdefLegal (x : DWord) : Prop :=
  (x.extractLsb' 7 3).toNat ≤ 4 ∧ (x.extractLsb' 5 2).toNat ≤ 2 ∧ 1 ≤ (x.extractLsb' 0 3).toNat ∧ (x.extractLsb' 0 3).toNat ≤ 5

/-- R20, R42, R43, R184: `rdsp` reads a special register into a scalar, or its low 32 bits into each active lane; `weave`
has the weave's handle, its team's weave count less one and its index, `plyid` the plies that exist and the ply's number;
`wrsp` writes `memdef`, `stklim`, `fpflags` or `srseed`, whose reserved bits keep zero, a write of `srseed` starting the
stochastic counts again, and flags that other plies set in the clock of a write of `fpflags` standing; a reserved value of a field raises illegal-instruction and writes nothing; with no active lane
nothing is written. Accesses of the clock of a write to `memdef` still see its old value (R139). -/
def Obligations.SpecialRegisters : Prop :=
  ∀ (s : State) (f : Fields),
    (isV f.d.toNat = false →
      SclRule s (.rdsp f) f (if f.a = 0#8 then BitVec.ofNat 64 (lowestLane (activeLanes s f)) else specialReg s f.a.toNat)) ∧
    (isV f.d.toNat = true →
      VecRule s (.rdsp f) f false (fun j => if f.a = 0#8 then BitVec.ofNat 64 j else specialReg s f.a.toNat &&& 0xFFFFFFFF#64)
        (fun _ => 0#7)) ∧
    (specialReg s 6 = s.weave.memdef ∧ specialReg s 7 = s.weave.stklim ∧ specialReg s 8 = s.weave.rgnpc ∧
      specialReg s 9 = s.weave.fpflags.setWidth 64 ∧ specialReg s 10 = s.weave.srseed ∧ specialReg s 4 = s.weave.gang ∧
      specialReg s 2 = s.team.team ∧ specialReg s 3 = s.team.crews ∧ specialReg s 5 = BitVec.ofNat 64 (cycHere s)) ∧
    specialReg s 1 = 0#40 ++ BitVec.ofNat 8 s.weave.handle ++ 0#3 ++ BitVec.ofNat 5 (s.team.kernel.wcount - 1) ++ 0#3 ++
      BitVec.ofNat 5 s.weave.windex ∧
    ((specialReg s 11).extractLsb' 8 56 = 0#56 ∧ (specialReg s 11).extractLsb' 2 2 = 0#2 ∧
      (specialReg s 11).extractLsb' 0 2 = BitVec.ofNat 2 s.ply.n ∧
      ∀ k < 4, (specialReg s 11).getLsbD (4 + k) = true ↔ ∃ p ∈ allPlies s, p.n % 4 = k) ∧
    (let x := scl s f f.a
     (activeLanes s f = 0#32 → DoneRule s (.wrsp f) f s (afterPc s.ply.pc f)) ∧
     (activeLanes s f ≠ 0#32 →
      (f.d = 6#8 → memdefLegal x → DoneRule s (.wrsp f) f
        { s with weave := { s.weave with
          memdef := x.extractLsb' 0 11 |>.setWidth 64, memdefOld := some (s.clk, memdefNow s) } } (afterPc s.ply.pc f)) ∧
      (f.d = 6#8 → ¬ memdefLegal x → CanIssue s (.wrsp f) f →
        exec (.wrsp f) s = .next (takeTrap s 0x01 s.ply.pc [baseWord 0x1D f] (activeLanes s f))) ∧
      (f.d = 7#8 → DoneRule s (.wrsp f) f
        { s with weave := { s.weave with stklim := 0#8 ++ x.extractLsb' 4 52 ++ 0#4 } } (afterPc s.ply.pc f)) ∧
      (f.d = 9#8 → DoneRule s (.wrsp f) f
        { s with weave := { s.weave with fpflags := x.setWidth 7 ||| flagsOfOthers s } } (afterPc s.ply.pc f)) ∧
      (f.d = 10#8 → DoneRule s (.wrsp f) f
        { s with weave := { s.weave with srseed := x, srcnt := List.replicate 32 0#32 } } (afterPc s.ply.pc f))))

/-- R40, R185: the mask operations give each active lane its bit of D; k0 as a source reads the ply's lanes. -/
def Rules.MaskOperations : Prop :=
  ∀ (s : State) (f : Fields),
    let a := kread s f.a.toNat
    let b := kread s f.b.toNat
    MaskRule s (.kand f) f (a &&& b) (fun _ => 0#7) ∧ MaskRule s (.kor f) f (a ||| b) (fun _ => 0#7) ∧
    MaskRule s (.kxor f) f (a ^^^ b) (fun _ => 0#7) ∧ MaskRule s (.knot f) f (~~~a) (fun _ => 0#7) ∧
    MaskRule s (.kmov f) f a (fun _ => 0#7) ∧ kread s 0 = s.ply.mask

/-- R186: the votes over the active lanes: whether some lane, or every lane, of A is nonzero, and how many are. -/
def Rules.Votes : Prop :=
  ∀ (s : State) (f : Fields),
    let p (j : Nat) : Bool := scalarOrLane s f (activeLanes s f) f.a.toNat j != 0#32
    let on := lanesOf (activeLanes s f)
    SclRule s (.voteAny f) f (if on.any p then 1#64 else 0#64) ∧
    SclRule s (.voteAll f) f (if on.all p then 1#64 else 0#64) ∧
    SclRule s (.voteCnt f) f (BitVec.ofNat 64 (on.filter p).length)

/-- R40, R185, R186: the mask operations and the votes. -/
def Obligations.MasksAndVotes : Prop := Rules.MaskOperations ∧ Rules.Votes

/-! ### Vector integers -/

/-- R192 with R56, R57, R188: the exact integer result of each active lane is clamped in the .sat form, which sets
`fpflags.sat` where the clamp changes it, else wrapped, and written as its type says; other lanes, registers, flags and
memory stand. -/
def Obligations.IntegerArithmetic : Prop :=
  ∀ (s : State) (f : Fields),
    let t := tyOf f
    let x (j : Nat) : Int := t.intVal (elemOf s f t 0 j)
    let y (j : Nat) : Int := t.intVal (second s f t j)
    let b (j : Nat) : Int := t.intVal (elemOf s f t 1 j)
    let z (j : Nat) : Int := t.intVal (elemOf s f t 2 j)
    IntRule s (.add f) f (fun j => x j + y j) ∧ IntRule s (.sub f) f (fun j => x j - y j) ∧
    IntRule s (.mulLo f) f (fun j => x j * y j) ∧
    IntRule s (.mulHi f) f (fun j => x j * y j / ((2 ^ t.width : Nat) : Int)) ∧
    IntRule s (.mad f) f (fun j => x j * b j + z j) ∧
    IntRule s (.abs f) f (fun j => |x j|) ∧ IntRule s (.neg f) f (fun j => -x j) ∧
    IntRule s (.min f) f (fun j => min (x j) (y j)) ∧ IntRule s (.max f) f (fun j => max (x j) (y j))

/-- R193, R194: logic, shifts, counts and bit fields on the w bits of the type. -/
def Rules.BitOperations : Prop :=
  ∀ (s : State) (f : Fields),
    let t := tyOf f
    let w := t.width
    let x := elemOf s f t 0
    let y := second s f t
    BitRule s (.and f) f (fun j => x j &&& y j) ∧ BitRule s (.or f) f (fun j => x j ||| y j) ∧
    BitRule s (.xor f) f (fun j => x j ^^^ y j) ∧ BitRule s (.not f) f (fun j => 2 ^ w - 1 - x j) ∧
    BitRule s (.shl f) f (fun j => if y j < w then x j * 2 ^ y j else 0) ∧
    BitRule s (.shr f) f (fun j => if y j < w then x j / 2 ^ y j else 0) ∧
    BitRule s (.sra f) f (fun j => wrapNat w (signed w (x j) / ((2 ^ min (y j) (w - 1) : Nat) : Int))) ∧
    BitRule s (.rot f) f (fun j => x j * 2 ^ (y j % w) + x j / 2 ^ (w - y j % w)) ∧
    BitRule s (.popc f) f (fun j => ((List.range w).filter (fun k => (x j).testBit k)).length) ∧
    BitRule s (.clz f) f (fun j => w - (x j).size) ∧
    BitRule s (.brev f) f (fun j => ((List.range w).map (fun k => if (x j).testBit k then 2 ^ (w - 1 - k) else 0)).sum) ∧
    BitRule s (.bfx f) f (fun j =>
      let pos := single s f .n32 1 j % 256
      let len := single s f .n32 1 j / 256 % 256
      let top := min (pos + len) w
      if len = 0 ∨ w ≤ pos then 0
      else if t.isSigned then wrapNat w (signed (top - pos) (x j / 2 ^ pos)) else x j / 2 ^ pos % 2 ^ (top - pos)) ∧
    BitRule s (.bfi f) f (fun j =>
      let b := elemOf s f t 1 j
      let pos := single s f .n32 2 j % 256
      let len := single s f .n32 2 j / 256 % 256
      let top := min (pos + len) w
      if len = 0 ∨ w ≤ pos then b
      else b % 2 ^ pos + x j % 2 ^ (top - pos) * 2 ^ pos + b / 2 ^ top * 2 ^ top)

/-- R195 to R197: `cmp` gives each active lane the truth of its condition; `sel` picks by a mask register; `dp4` adds four
products of packed bytes. -/
def Rules.CompareSelectDot : Prop :=
  ∀ (s : State) (f : Fields),
    let t := tyOf f
    let x (j : Nat) : Int := t.intVal (elemOf s f t 0 j)
    let y (j : Nat) : Int := t.intVal (second s f t j)
    (∀ val : LaneMask, (∀ j < 32,
        (f.variant = 0#5 → (inMask val j = true ↔ x j = y j)) ∧ (f.variant = 1#5 → (inMask val j = true ↔ x j ≠ y j)) ∧
        (f.variant = 2#5 → (inMask val j = true ↔ x j < y j)) ∧ (f.variant = 3#5 → (inMask val j = true ↔ x j ≤ y j)) ∧
        (f.variant = 4#5 → (inMask val j = true ↔ x j > y j)) ∧ (f.variant = 5#5 → (inMask val j = true ↔ x j ≥ y j))) →
      MaskRule s (.cmp f) f val (fun _ => 0#7)) ∧
    BitRule s (.sel f) f (fun j => if inMask (kread s f.c.toNat) j then elemOf s f t 0 j else elemOf s f t 1 j) ∧
    (let u : Ty := if t = .i8 then .i32 else .n32
     let a (j k : Nat) : Int := t.intVal (elemAt (packedVec s f t 0) j / 2 ^ (8 * k))
     let b (j k : Nat) : Int := t.intVal (elemAt (packedVec s f t 1) j / 2 ^ (8 * k))
     let res (j : Nat) : Int := u.intVal (single s f u 2 j) +
       (a j 0 * b j 0 + a j 1 * b j 1 + a j 2 * b j 2 + a j 3 * b j 3)
     VecRule s (.dp4 f) f false (fun j => delivered u (satBit f) (res j)) (fun j => satFlag u (satBit f) (res j)))

/-- R193 to R197: logic, shifts, bit fields, comparisons, selection and dot products. -/
def Obligations.BitsAndComparisons : Prop := Rules.BitOperations ∧ Rules.CompareSelectDot

/-! ### Vector floating point, conversion, lane movement, quantisation -/

/-- R198 to R204: each active lane delivers the rounded result of its operation under the instruction's rounding mode
(R135), with the flags of every active lane ORed in; `fclass` gives the class bit and `fdot2` an f32 value. -/
def Rules.FloatArithmetic : Prop :=
  ∀ (s : State) (f : Fields),
    let t := tyOf f
    let m := t.fmt
    let r (j : Nat) := rndAt s f j 0
    let x := elemOf s f t 0
    let y := elemOf s f t 1
    RoundRule s (.fadd f) f t (fun j => fAdd m (r j) (x j) (y j)) ∧ RoundRule s (.fsub f) f t (fun j => fSub m (r j) (x j) (y j)) ∧
    RoundRule s (.fmul f) f t (fun j => fMul m (r j) (x j) (y j)) ∧
    RoundRule s (.fma f) f t (fun j => fFma m (r j) (x j) (y j) (elemOf s f t 2 j)) ∧
    RoundRule s (.fmin f) f t (fun j => fMinMax m false (x j) (y j)) ∧
    RoundRule s (.fmax f) f t (fun j => fMinMax m true (x j) (y j)) ∧
    RoundRule s (.fdiv f) f t (fun j => fDiv m (r j) (x j) (y j)) ∧ RoundRule s (.frcp f) f t (fun j => fRcp m (r j) (x j)) ∧
    RoundRule s (.fsqrt f) f t (fun j => fSqrt m (r j) (x j)) ∧ RoundRule s (.frsq f) f t (fun j => fRsqrt m (x j)) ∧
    RoundRule s (.fexp2 f) f t (fun j => fExp2 m (x j)) ∧ RoundRule s (.flog2 f) f t (fun j => fLog2 m (x j)) ∧
    RoundRule s (.fsin f) f t (fun j => fTrig m false (x j)) ∧ RoundRule s (.fcos f) f t (fun j => fTrig m true (x j)) ∧
    RoundRule s (.frnd f) f t (fun j => fRnd m (r j) (x j)) ∧
    RoundRule s (.fscale f) f t (fun j => fScale m (r j) (x j) (signed 32 (single s f .i32 1 j))) ∧
    RoundRule s (.fclass f) f .n32 (fun j => ⟨fClass m (x j), 0#7⟩) ∧
    (let p := fun k j => elemAt (packedVec s f t k) j
     RoundRule s (.fdot2 f) f .f32 (fun j => fDot2 m (r j) (low 16 (p 0 j)) (low 16 (p 1 j)) (bits (p 0 j) 31 16)
       (bits (p 1 j) 31 16) (single s f .f32 2 j))) ∧
    MaskRule s (.fcmp f) f (maskOf (fun j => (fCmp m (f.variant.toNat % 16) (x j) (y j)).1))
      (fun j => (fCmp m (f.variant.toNat % 16) (x j) (y j)).2)

/-- R60, R61, R198: what an addition of finite numbers, infinities and NaNs gives: a NaN operand, and the sum of opposite
infinities, give the canonical NaN, with nv for a signalling operand or the latter; zero times an infinity is invalid, in
`fma` whatever the addend. -/
def Rules.FloatSpecials : Prop :=
  ∀ (m : FloatFmt) (r : RndCtx) (x y : Nat),
    ((m.val x).isNan = true ∨ (m.val y).isNan = true → (fAdd m r x y).code = m.nanCode ∧ (fMul m r x y).code = m.nanCode ∧
      (fAdd m r x y).flags = (if m.isSnan x || m.isSnan y then flNv else 0#7)) ∧
    ((m.val x).isNan = false → (m.val y).isNan = false → (m.val x).isInf = true → (m.val y).isInf = true →
      (m.val x).isNeg ≠ (m.val y).isNeg → fAdd m r x y = ⟨m.nanCode, flNv⟩) ∧
    ((m.val x).isZero = true → (m.val y).isInf = true → fMul m r x y = ⟨m.nanCode, flNv⟩ ∧
      ∀ z, fFma m r x y z = ⟨m.nanCode, flNv⟩)

/-- R60, R61, R198 to R204: floating-point arithmetic. -/
def Obligations.Floats : Prop := Rules.FloatArithmetic ∧ Rules.FloatSpecials

/-- R64 to R67, R205 to R209: conversions deliver the source element in the result type; `pack` and `unpack` join and take
apart packed elements; `perm` reads lane j[4:0], or zero when j[5] is set; the inclusive scan of an integer type gives
each active lane the wrapped sum of the active lanes up to it. -/
def Rules.ConvertAndMove : Prop :=
  ∀ (s : State) (f : Fields),
    let t := tyOf f
    let u := srcTyOf f
    let c := elemOf s f u 0
    let r (j : Nat) := rndAt s f j 0
    RoundRule s (.cvtIntInt f) f t (fun j => cvtIntInt t u (satBit f) (c j)) ∧
    RoundRule s (.cvtIntFloat f) f t (fun j => cvtIntFloat t u (satBit f) (r j) (c j)) ∧
    RoundRule s (.cvtFloatInt f) f t (fun j => cvtFloatInt t u (r j) (c j)) ∧
    RoundRule s (.cvtFloatNarrow f) f t (fun j => cvtFloatFloat t u (satBit f) (r j) (c j)) ∧
    RoundRule s (.cvtFloatWiden f) f t (fun j => cvtFloatFloat t u (satBit f) (r j) (c j)) ∧
    RoundRule s (.cvtFp8 f) f t (fun j => cvtFloatFloat t u (satBit f) (r j) (c j)) ∧
    RoundRule s (.pack f) f .n32 (fun j => packLane t (satBit f)
      (if t.width = 16 then [single s f .n32 0 j, single s f .n32 1 j]
       else [single s f .n32 0 j, single s f .n32 1 j, single s f .n32 2 j,
         extSingle s f .n32 j])) ∧
    BitRule s (.unpack f) f (fun j => single s f .n32 0 j / 2 ^ (t.width * f.variant.toNat)) ∧
    BitRule s (.perm f) f (fun j => if (single s f .n32 1 j).testBit 5 then 0 else elemOf s f t 0 (single s f .n32 1 j % 32)) ∧
    (f.variant = 0#5 → t.isFloat = false → BitRule s (.lscanAdd f) f (fun j =>
      wrapNat t.width (((lanesOf (activeLanes s f)).filter (· ≤ j)).map (fun i => t.intVal (elemOf s f t 0 i))).sum))

/-- The active lanes of source A with their elements, a NaN as the canonical one (R60). -/
def scanned (s : State) (f : Fields) (j : Nat) : Nat := arithElem (tyOf f) (elemOf s f (tyOf f) 0 j)

/-- R208, R209 with R60: `lscan.add` of every type and variant gives each active lane the running sum in ascending lane
order, with its own element or without, and `lred` of every type and variant folds the active lanes in the tree order of
the rule; a signalling NaN among them sets nv, and every flag of the steps is set. -/
def Rules.ScansAndFolds : Prop :=
  ∀ (s : State) (f : Fields),
    let t := tyOf f
    let on := lanesOf (activeLanes s f)
    let sn := snanLanes t (activeLanes s f) (elemOf s f t 0)
    let scan := scanLanes (addStep f t) (f.variant == 1#5) (on.map (fun j => (j, scanned s f j))) none sn []
    let fold := foldTree (combStep f t) 5
      ((List.range 32).map (fun j => if inMask (activeLanes s f) j then some (scanned s f j) else none)) sn
    let res : DWord := t.extend ((fold.1.headD none).getD 0)
    (CanIssue s (.lscanAdd f) f → HasRoom s (.lscanAdd f) f (vDest s f (wideType f)) →
      ∃ u, exec (.lscanAdd f) s = .next u ∧
        VecDone s u (.lscanAdd f) f (wideType f) (fun j => t.extend ((assoc? j scan.1).getD 0)) scan.2) ∧
    (activeLanes s f ≠ 0#32 → CanIssue s (.lred f) f →
      (isS f.d.toNat = true → HasRoom s (.lred f) f (sDest s f) →
        ∃ u, exec (.lred f) s = .next u ∧ GoesOn s u f (afterPc s.ply.pc f) fold.2 ∧
          sVal u (f.d.toNat - 0xC0) = res ∧ KeepsRegs s u (.lred f) f [] [f.d.toNat - 0xC0] []) ∧
      (isS f.d.toNat = false → HasRoom s (.lred f) f (vDest s f (wideType f)) →
        ∃ u, exec (.lred f) s = .next u ∧ VecDone s u (.lred f) f (wideType f) (fun _ => res) fold.2)) ∧
    (activeLanes s f = 0#32 → DoneRule s (.lred f) f s (afterPc s.ply.pc f))

/-- R209: `lred` folds the active lanes in the tree order of the rule and delivers the result, as an integer or bitwise
operation does in any order: the wrapped sum of the active lanes for an integer type. -/
def Rules.LaneReduction : Prop :=
  ∀ (s : State) (f : Fields), f.variant = 0#5 → (tyOf f).isInt = true → CanIssue s (.lred f) f →
    let t := tyOf f
    let sum : DWord := t.extend (wrapNat t.width
      ((lanesOf (activeLanes s f)).map (fun i => t.intVal (elemOf s f t 0 i))).sum)
    (isS f.d.toNat = true → HasRoom s (.lred f) f (sDest s f) →
      ∃ t, exec (.lred f) s = .next t ∧ SclDone s t (.lred f) f sum) ∧
    (isS f.d.toNat = false → HasRoom s (.lred f) f (vDest s f (wideType f)) →
      ∃ t, exec (.lred f) s = .next t ∧ VecDone s t (.lred f) f (wideType f) (fun _ => sum) 0#7)

/-- R64 to R67, R205 to R209: conversions, moves across lanes, and reductions. -/
def Obligations.ConversionsAndReductions : Prop := Rules.ConvertAndMove ∧ Rules.ScansAndFolds ∧ Rules.LaneReduction

/-- R210 to R212: `dqblk` gives each active lane the product of its block element, the block scale and the band scale,
rounded once, with the flags of the rounding, nv for a signalling element and for zero times an infinite scale, and none
for a NaN scale; `qblk` writes, for every block with an active lane, the packed elements, the scale and the underflow
count of the block's quantisation, and sets its flags: never of, uf or dz, and nv just where the band scale is zero,
negative, infinite or NaN or an active lane holds a signalling NaN. That `dqblk` takes a block's scale from its first lane
is the model's reading (log 37). -/
def Obligations.BlockQuantisation : Prop :=
  ∀ (s : State) (f : Fields),
    let mf := mfmt f.variant.toNat
    let q (j : Nat) : Option QBlock := blockOf s f (activeLanes s f) mf (j / mf.L * mf.L)
    let written := maskOf (fun j => (q j).isSome)
    (CanIssue s (.qblk f) f → activeLanes s f ≠ 0#32 →
      HasRoom s (.qblk f) f [.v f.d.toNat written [], .v f.e.toNat written [], .v f.f.toNat written []] →
      ∃ t, exec (.qblk f) s = .next t ∧ t.ply.pc = afterPc s.ply.pc f ∧ rest t = rest s ∧
        t.weave.fpflags = s.weave.fpflags |||
          ((List.range (32 / mf.L)).map (fun b => ((q (b * mf.L)).map (·.flags)).getD 0#7)).foldl (· ||| ·) 0#7 ∧
        ∀ j < 32, ∀ b, q j = some b →
          vLane t f.d.toNat j = BitVec.ofNat 32 (bits b.stream (32 * (j % mf.L) + 31) (32 * (j % mf.L))) ∧
          vLane t f.e.toNat j = BitVec.ofNat 32 b.scale ∧ vLane t f.f.toNat j = BitVec.ofNat 32 b.count) ∧
    (∀ j < 32, ∀ b, q j = some b →
      b.flags &&& (flOf ||| flUf ||| flDz) = 0#7 ∧
      (b.flags &&& flNv ≠ 0#7 ↔
        (let band := bandOf s f mf (j / mf.L * mf.L)
         band.isZero = true ∨ band.isNeg = true ∨ band.isInf = true ∨ band.isNan = true) ∨
        ∃ i, i / mf.L = j / mf.L ∧ inMask (activeLanes s f) i = true ∧
          (tyOf f).fmt.isSnan (low (tyOf f).width (srcLane s f (tyOf f) false false 0 i).toNat) = true)) ∧
    (let t := tyOf f
     let w := mf.elem.width
     let first (j : Nat) := j / mf.L * mf.L
     let stream (j : Nat) : Nat := ((List.range (mf.L * w / 32)).map (fun k =>
       low 32 (srcLane s f t false false 0 (first j + k)).toNat * 2 ^ (32 * k))).sum
     let k (j : Nat) := j % mf.L
     let x (j : Nat) := mf.elem.val (bits (stream j) (w * k j + w - 1) (w * k j))
     let snan (j : Nat) : Bool := match mf.elem with
       | .fl e => e.isSnan (bits (stream j) (w * k j + w - 1) (w * k j))
       | .int _ _ _ => false
     let scale (j : Nat) := mf.blk.val (low 8 (rawLane s f t false false f.e.toNat (first j)).toNat)
     let band (j : Nat) := bandOf s f mf (first j)
     let v (j : Nat) := scaled (x j) (scale j) (band j)
     let out (j : Nat) := roundNum t.fmt (rndAt s f j 0).mode false (rndAt s f j 0).h (v j)
     VecRule s (.dqblk f) f (wideType f) (fun j => t.extend (out j).code) (fun j => (out j).flags |||
       (if (scale j).isNan = false ∧ (band j).isNan = false ∧ (snan j = true ∨ ((v j).isNan = true ∧ (x j).isNan = false))
        then flNv else 0#7)))

/-! ### Memory: one access at its home -/

/-- The access as it leaves its ply. -/
def numbered (s : State) (a : Acc) : Acc := { a with id := s.nextId }

/-- The program timestamp of the access's ply, as it has aged (R110). -/
def ptsOf (s : State) (a : Acc) : Nat := ptsNow s a

/-- Nothing keeps the access waiting (R101, R108, R123, R358): no earlier access of its ply that comes first is still to be
performed, no earlier store stands in the side log, and its page is not being flipped. -/
structure First (s : State) (a : Acc) : Prop where
  order : orderWaits { s with nextId := s.nextId + 1 } (numbered s a) = false
  log : logBefore s (numbered s a) = []
  page : flipping s a.ctx a.ia = false

/-- The access is near, at most 8 bytes of one line (R105), the first of its ply there, and its home finds for it the
bytes at a memory key, no host line. -/
structure AtHome (s : State) (a : Acc) (key attr : Nat) : Prop where
  near : isNear s a.src a.ia = true
  size : 0 < a.n ∧ a.n ≤ 8
  line : a.ia % 128 + a.n ≤ 128
  first : First s a
  placed : locate s (ctxMaster a.ctx) a.right a.src a.ia a.n = .ok [⟨a.ia, a.n, .cell key attr⟩]
  device : attr ≠ 3

/-- The loads of the access's weave after lane `a.lane` of its load has received x at the access's place in the element; a
lane whose bytes lie in two lines receives two parts (R105). -/
def received (s : State) (a : Acc) (x : DWord) (bad : Option Nat) : Option (List LoadReq) :=
  (peekWeave s a.uid a.windex).map (fun w => w.loads.map (fun l =>
    if l.tag = a.tag then { l with
      data := l.data.set a.lane (some (((l.data.getD a.lane none).getD 0#64) ||| (x <<< (8 * a.sh))))
      more := l.more.erase a.lane, bad := if l.bad.isSome then l.bad else bad } else l))

/-- The poisoned word that the access meets at a memory key, under its virtual name (R359, R360). -/
def metPoison (s : State) (a : Acc) (key attr : Nat) : Option Nat := poisonAt s (numbered s a) ⟨a.ia, a.n, .cell key attr⟩ key

/-- The reservation that the access's own ply may keep through its store: one of its weave, of a lane of the ply (R119).
-/
def ownResv (s : State) (a : Acc) (uid windex lane : Nat) : Prop :=
  (a.uid, a.windex) = (uid, windex) ∧ ∃ p, peekPly s a.uid a.windex a.ply = some p ∧ inMask p.mask lane = true

/-- R97, R105, R109, R216, R359: a near load gives its lane the bytes of memory, or, while the core holds the line under
a lease that lasts for the ply, the bytes of that copy; a load from memory lets the line be read until 16 above the
ply's program timestamp; no byte of memory changes. -/
def Rules.LoadPerformed : Prop :=
  ∀ (s : State) (a : Acc) (key attr : Nat), a.kind = 0 → AtHome s a key attr →
    let t := submitAccess s a
    let lease := (findCore s (coreOf s a.uid)).l1.find? (fun c => c.line == iaLine a.ia && ptsOf s a ≤ c.rts)
    (∀ x, byteAt t x = byteAt s x) ∧
    (l1May attr a.policy = false ∨ lease = none →
      (peekWeave t a.uid a.windex).map (·.loads) =
        received s a (BitVec.ofNat 64 (cellNat s.mem key a.n)) (metPoison s a key attr) ∧
      (tsOf t (iaLine a.ia)).rts = max (tsOf s (iaLine a.ia)).rts (ptsOf s a + 16)) ∧
    (∀ c, l1May attr a.policy = true → lease = some c →
      (peekWeave t a.uid a.windex).map (·.loads) =
        received s a (BitVec.ofNat 64 (ofBytes ((c.data.drop (a.ia % 128)).take a.n))) (metPoison s a key attr))

/-- R105, R109, R119, R175, R345, R359: a near store with nothing logged before it writes its bytes, lowest first, and no
other, where the bits that only hardware writes in a site's tables stand; it clears every reservation on its line but
those of its own ply's lanes, marks the watches on the line, heals the poisoned words that it covers, unless its data
holds an error itself, and gives the line a timestamp above every lease. -/
def Rules.StorePerformed : Prop :=
  ∀ (s : State) (a : Acc) (key attr : Nat), Safe s → a.kind = 1 → AtHome s a key attr →
    refusedWrite s key (toBytes a.n a.data.toNat) = none →
    let t := submitAccess s a
    (∀ k < a.n, byteAt t (key + k) = (tableBytes s key (toBytes a.n a.data.toNat)).getD k 0#8) ∧
    (regionOff s key = none → ∀ k < a.n, byteAt t (key + k) = BitVec.ofNat 8 (a.data.toNat / 256 ^ k)) ∧
    (∀ x, x < key ∨ key + a.n ≤ x → byteAt t x = byteAt s x) ∧
    (∀ r ∈ t.weave.resv, r.line = iaLine a.ia → ownResv s a t.team.uid t.weave.windex r.lane) ∧
    (∀ w ∈ t.team.weaves, ∀ r ∈ w.resv, r.line = iaLine a.ia → ownResv s a t.team.uid w.windex r.lane) ∧
    (∀ u ∈ t.teams, ∀ w ∈ u.weaves, ∀ r ∈ w.resv, r.line = iaLine a.ia → ownResv s a u.uid w.windex r.lane) ∧
    (∀ x ∈ t.watches, x.line = iaLine a.ia → x.hit = true) ∧
    (a.bad = false → ∀ w ∈ t.poisoned, ¬ (key ≤ 4 * w ∧ 4 * w + 4 ≤ key + a.n)) ∧
    (a.bad = true → ∀ k < a.n, (key + k) / 4 ∈ t.poisoned) ∧
    (tsOf t (iaLine a.ia)).rts = max (ptsOf s a) ((tsOf s (iaLine a.ia)).rts + 1)

/-- R97, R105, R109, R119, R175, R216, R359: a near load or store as its home performs it. -/
def Obligations.NearLoadsAndStores : Prop := Rules.LoadPerformed ∧ Rules.StorePerformed

/-- R118, R161, R226 to R229: an atomic reads its element, writes the operation's result in the same step and gives its
lane what it read; `cas` writes its data only where the element equals its comparand; each takes the line's next place,
above every lease and every write of it (in a site's tables the bits that only hardware writes stand, R345); `lr` leaves memory alone and reserves the line for its lane; `sc` writes and
answers 1 where its lane holds the reservation of the line, else 0 with memory left alone, and drops the reservation; a
reduction gives its lane nothing. -/
def Obligations.AtomicPerformed : Prop :=
  ∀ (s : State) (a : Acc) (key attr : Nat), Safe s → AtHome s a key attr →
    (a.kind = 2 ∨ a.kind = 3) → (∀ bs, refusedWrite s key bs = none) →
    let t := submitAccess s a
    let ty := Ty.ofCodeD a.type
    let old := cellNat s.mem key a.n
    let v := a.data.toNat
    let bad := metPoison s a key attr
    let loads := (peekWeave t a.uid a.windex).map (·.loads)
    let writes (x : Nat) : Prop := (∀ k < a.n, byteAt t (key + k) = (tableBytes s key (toBytes a.n x)).getD k 0#8) ∧
      ∀ y, y < key ∨ key + a.n ≤ y → byteAt t y = byteAt s y
    (a.op = 0 → writes ((old + v) % 2 ^ ty.width)) ∧
    (a.op = 1 → writes (if ty.intVal v < ty.intVal old then v else old)) ∧
    (a.op = 2 → writes (if ty.intVal old < ty.intVal v then v else old)) ∧
    (a.op = 3 → writes (old &&& v)) ∧ (a.op = 4 → writes (old ||| v)) ∧ (a.op = 5 → writes (old ^^^ v)) ∧
    (a.op = 6 → writes v) ∧ (a.op = 7 → writes (fAdd ty.fmt ⟨.rne, 0⟩ old v).code) ∧
    (a.op < 8 ∨ (a.kind = 2 ∧ a.op = 8) → (tsOf t (iaLine a.ia)).rts =
      max (ptsOf s a) (max ((tsOf s (iaLine a.ia)).rts + 1) ((tsOf s (iaLine a.ia)).wts + 1))) ∧
    (a.op < 8 → loads = if a.kind = 2 then received s a (BitVec.ofNat 64 old) bad else (peekWeave s a.uid a.windex).map (·.loads)) ∧
    (a.kind = 2 → a.op = 8 → loads = received s a (BitVec.ofNat 64 old) bad ∧
      (old = a.cmp.toNat → writes v) ∧ (old ≠ a.cmp.toNat → ∀ y, byteAt t y = byteAt s y)) ∧
    (a.kind = 2 → a.op = 9 → loads = received s a (BitVec.ofNat 64 old) bad ∧ (∀ y, byteAt t y = byteAt s y) ∧
      ((peekWeave s a.uid a.windex).isSome = true → holdsResv t a = true)) ∧
    (a.kind = 2 → a.op = 10 → holdsResv t a = false ∧
      (holdsResv s a = true → loads = received s a 1#64 none ∧ writes v) ∧
      (holdsResv s a = false → loads = received s a 0#64 none ∧ ∀ y, byteAt t y = byteAt s y))

/-- R123, R221, R348, R349, R378: an access that its home refuses waits in the pending entry of its unit, context, page,
access kind and fault kind, made with a fault record where there was none: a store or reduction retires into its core's
side log at its place in its ply's program order, another access stays. A far access leaves for the gate of its home
site in a packet of class 2, with the next gate sequence number of its ply there, or 0 when it is relaxed. No byte of
memory changes. -/
def Obligations.AccessFaultsOrTravels : Prop :=
  ∀ (s : State) (a : Acc), 0 < a.n →
    let t := submitAccess s a
    let log (s : State) := (findCore s (coreOf s a.uid)).log
    let mine (x : LogEntry) : Prop := x.uid = a.uid ∧ x.windex = a.windex ∧ x.ply = a.ply
    (∀ e, isNear s a.src a.ia = true → First s a → locate s (ctxMaster a.ctx) a.right a.src a.ia a.n = .error e →
      (a.kind = 1 ∨ a.kind = 3 → logRoom s a.uid (logEntryOf (numbered s a) none).size = true) → freeFid s e.home ≠ none →
      (∀ x, byteAt t x = byteAt s x) ∧
      (∃ p ∈ t.pendings, p.home = e.home ∧ p.unit = a.unit ∧ p.ctx = a.ctx ∧ p.page = iaPage e.ia ∧ p.acc = a.kind ∧
        p.kind = e.kind ∧ p.waiters.contains
          (if a.kind = 1 ∨ a.kind = 3 then .log a.uid a.windex a.ply else .acc s.nextId) = true) ∧
      (a.kind = 1 ∨ a.kind = 3 → ∃ before after fid, log s = before ++ after ∧
        log t = before ++ logEntryOf (numbered s a) (some fid) :: after ∧ (∀ x ∈ before, mine x → x.serial ≤ s.nextId) ∧
        ∀ x, after.head? = some x → mine x ∧ s.nextId < x.serial) ∧
      (a.kind ≠ 1 → a.kind ≠ 3 → ∃ b ∈ t.accs, b.id = s.nextId ∧ b.stage = .fault) ∧
      (t.faultQ = s.faultQ ∨ ∃ r, t.faultQ = s.faultQ ++ [r] ∧ r.dwords.getD 1 0#64 = BitVec.ofNat 64 e.ia)) ∧
    (isFar s a.src a.ia = true → isSite (iaSite a.ia) = true →
      (∀ x, byteAt t x = byteAt s x) ∧ t.weave.loads = s.weave.loads ∧
      (∃ p, t.packets = s.packets ++ [p] ∧ p.cls = 2 ∧ p.src = a.src ∧ p.dst = iaSite a.ia ∧ p.acc = s.nextId) ∧
      ∃ b ∈ t.accs, b.id = s.nextId ∧ b.stage = .mesh ∧ b.gply = a.ply ∧
        b.seq = if a.order = 5 then 0
          else ((peekPly s a.uid a.windex a.ply).bind (fun p => assoc? (iaSite a.ia) p.gateSeq)).getD 0)

/-! ### Loads, stores, atomics -/

/-- The codes of a vector destination in field D. -/
def dstNames (f : Fields) (wide : Bool) : List Nat :=
  if isV f.d.toNat then (if wide then [f.d.toNat, f.d.toNat + 1] else [f.d.toNat]) else []

/-- i has started a load in t: `u` is s with the accesses of its lanes made. The load is entered with its lanes, its
destination is pending with the lookahead count of the instruction and keeps its lanes until the data is there (R52,
R216). -/
structure LoadStarted (s u t : State) (i : Instr) (f : Fields) (wide : Bool) : Prop where
  goes : GoesOn u t f (afterPc s.ply.pc f) 0#7
  entry : ∃ l ∈ t.weave.loads, l.tag = s.weave.nextTag ∧ l.ply = s.ply.n ∧ l.pc = s.ply.pc ∧ l.dst = f.d.toNat ∧
    l.mask = activeLanes s f
  pending : isV f.d.toNat = true → ∃ p ∈ t.weave.pends, p.tag = s.weave.nextTag ∧ p.codes = dstNames f wide ∧
    p.left = f.la.toNat
  keeps : KeepsRegs s t i f (dstNames f wide) [] []

/-- The load of the started entry holds `val j` for each active lane j. -/
def holdsLanes (s t : State) (f : Fields) (val : Nat → Nat) : Prop :=
  ∃ l ∈ t.weave.loads, l.tag = s.weave.nextTag ∧
    ∀ j < 32, inMask (activeLanes s f) j = true → l.data.getD j none = some (BitVec.ofNat 64 (val j))

/-- The core's stack cache has room for two more lines of every lane, so that no line is spilled (R92). -/
def stackRoom (s : State) : Prop := stackUse s s.team.at_ + 64 ≤ (findCore s s.team.at_).split.2.2 * 8

/-- A load with access fields r and lane addresses `addr`, where no lane traps: from global memory when its order, the
side log and an open `fence.spec` let it go; from the team's scratchpad or the weave's stack with the bytes at once. -/
def LoadRule (s : State) (i : Instr) (f : Fields) (r : Resolved) (addr : Nat → DWord) : Prop :=
  CanIssue s i f →
    let m := activeLanes s f
    let n := elemBytes f
    let lanes := laneAddrs m addr
    let parts := partsOf s n lanes
    let room (u : State) := HasRoom u i f (mapOnly f (wideType f))
    (m = 0#32 → ∃ t, exec i s = .next t ∧ Done s t i f (afterPc s.ply.pc f)) ∧
    (m ≠ 0#32 → lanesTrap s r.space n false lanes = none → s.focused = true →
      (r.space = 0 → specHolds s r parts = false → logHolds s r.order parts = false →
        orderHold s false r.order (parts.map (·.1)) = false →
        let u := issueLoads f r s.ply.pc m lanes s
        room u → ∃ t, exec i s = .next t ∧ LoadStarted s u t i f (wideType f) ∧ ∀ x, byteAt t x = byteAt s x) ∧
      (r.space = 2 → localHolds s r 2 n lanes = false →
        let u := localLoad 2 f r s.ply.pc m lanes (fun s va => (scratchRead s va n, scratchBad s va n)) s
        room u → ∃ t, exec i s = .next t ∧ LoadStarted s u t i f (wideType f) ∧ (∀ x, byteAt t x = byteAt s x) ∧
          (s.ply.fence = none → holdsLanes s t f (fun j => cellNat s.team.scratch (addr j).toNat n))) ∧
      (r.space = 1 → localHolds s r 1 n lanes = false → mayFill s (lanes.map (·.2.toNat)) n = true →
        ∀ s1, fillLanes lanes n s = .ok s1 →
        let u := trimStacks (localLoad 1 f r s.ply.pc m lanes (fun s va => (stackRead s va n, stackBadIn s va n)) s1)
        room u → ∃ t, exec i s = .next t ∧ LoadStarted s u t i f (wideType f) ∧
          (stackRoom s → ∀ x, byteAt t x = byteAt s x) ∧
          (s.ply.fence = none → holdsLanes s t f (fun j => stackRead s1 (addr j).toNat n))))

/-- R214, R216, R218 to R220: `ld`, `ldx` and `lds` start a load of every active lane and go on at once. -/
def Obligations.Loads : Prop :=
  ∀ (s : State) (f : Fields),
    LoadRule s (.ld f) f (resolve s 0xC0 f) (addrMode s f (elemBytes f)) ∧
    LoadRule s (.ldx f) f (resolve s 0xC2 f) (addrIndexed s f (memOffset f)) ∧
    LoadRule s (.lds f) f scratchPlain (addrScratch s f (elemBytes f))

/-- The access x, made in v, stores to no byte at the memory key a: each piece that its home finds lies elsewhere. -/
def misses (v : State) (x : Acc) (a : Nat) : Prop :=
  ∀ ps, locate v (ctxMaster x.ctx) x.right x.src x.ia x.n = .ok ps → ∀ p ∈ ps,
    match p.place with
    | .cell key _ => a < key ∨ key + p.len ≤ a
    | _ => False

/-- A store or reduction of the accesses `accs` to global memory: it completes where its order lets it go and the side
log has room for it if it must go there; the bytes that no lane's access stores to, at its turn, read as before. Behind an
open `fence.spec` a store is queued, and a reduction waits (R117). -/
def GlobalStoreRule (s : State) (i : Instr) (f : Fields) (r : Resolved) (kind right : Nat) (hooked : Bool)
    (lanes : List (Nat × DWord)) (accs : List Acc) : Prop :=
  let parts := partsOf s (elemBytes f) lanes
  (s.ply.fence = none → orderHold s true r.order (parts.map (·.1)) = false →
    (logsNow s right parts = false ∨ logRoom s s.team.uid (logNeed parts) = true) →
    ∃ t, exec i s = .next t ∧ Done (issueStores accs hooked s) t i f (afterPc s.ply.pc f) ∧
      ∀ a, (∀ k x, accs[k]? = some x → misses (issueStores (accs.take k) hooked s) x a) → byteAt t a = byteAt s a) ∧
  (∀ c, kind = 1 → s.ply.fence = some c → fenceOpen s = false →
    ∃ t, exec i s = .next t ∧ Done (queueStores accs c s) t i f (afterPc s.ply.pc f) ∧ ∀ a, byteAt t a = byteAt s a) ∧
  (kind ≠ 1 → s.ply.fence ≠ none → exec i s = .next (stand s .retry))

/-- The bytes of a local space as `read` gives them after lane stores of n bytes: each byte is that of the highest lane
that stores it, every other byte reads as before (R105). -/
def StoresLanes (m : LaneMask) (n : Nat) (addr data : Nat → DWord) (before after : Nat → Byte) : Prop :=
  ∀ x, (∀ j < 32, inMask m j = true → (addr j).toNat ≤ x → x < (addr j).toNat + n →
      (∀ k < 32, j < k → inMask m k = true → x < (addr k).toNat ∨ (addr k).toNat + n ≤ x) →
      after x = BitVec.ofNat 8 ((data j).toNat / 256 ^ (x - (addr j).toNat))) ∧
    ((∀ j < 32, inMask m j = true → x < (addr j).toNat ∨ (addr j).toNat + n ≤ x) → after x = before x)

/-- A store with access fields r, lane addresses `addr` and lane data `data`, where no lane traps. -/
def StoreRule (s : State) (i : Instr) (f : Fields) (r : Resolved) (hooked : Bool) (addr data : Nat → DWord) : Prop :=
  CanIssue s i f →
    let m := activeLanes s f
    let n := elemBytes f
    let lanes := laneAddrs m addr
    let local_ := s.ply.fence = none ∧ myLog s = [] ∧ orderHold s true r.order [] = false
    let put (space : Nat) : State :=
      let v := localStores space n lanes data s
      if hasAcq true r.order then acquireAt v v.team.at_ else v
    (m = 0#32 → ∃ t, exec i s = .next t ∧ Done s t i f (afterPc s.ply.pc f)) ∧
    (m ≠ 0#32 → lanesTrap s r.space n false lanes = none →
      (r.space = 0 → GlobalStoreRule s i f r 1 rightW hooked lanes (laneStores s r 1 0 f.type.toNat n lanes data)) ∧
      (r.space = 2 → local_ → ∃ t, exec i s = .next t ∧ Done (put 2) t i f (afterPc s.ply.pc f) ∧
        (∀ x, byteAt t x = byteAt s x) ∧
        (cellsWf s.team.scratch = true → StoresLanes m n addr data (cellRead s.team.scratch) (cellRead t.team.scratch))) ∧
      (r.space = 1 → local_ → ∃ t, exec i s = .next t ∧ Done (put 1) t i f (afterPc s.ply.pc f) ∧
        (stackRoom s → (∀ x, byteAt t x = byteAt s x) ∧
          StoresLanes m n addr data (fun a => (assoc? a s.weave.stack).getD 0#8) (fun a => (assoc? a t.weave.stack).getD 0#8))) ∧
      (r.space = 1 ∨ r.space = 2 → ∀ c, s.ply.fence = some c → fenceOpen s = false → ∃ t, exec i s = .next t ∧
        Done (queueStores (localQueue s r r.space n lanes data) c s) t i f (afterPc s.ply.pc f) ∧ ∀ x, byteAt t x = byteAt s x))

/-- R105, R214, R218 to R220: `st`, `stx` and `sts` store each active lane's element, in ascending lane order. -/
def Obligations.Stores : Prop :=
  ∀ (s : State) (f : Fields),
    StoreRule s (.st f) f (resolve s 0xC1 f) true (addrMode s f (elemBytes f)) (dataLane s f 1) ∧
    StoreRule s (.stx f) f (resolve s 0xC3 f) true (addrIndexed s f 0#64) (dataLane s f 2) ∧
    StoreRule s (.sts f) f scratchPlain false (addrScratch s f (elemBytes f)) (dataLane s f 1)

/-- An atomic with a result, where no lane traps and the ply's earlier accesses let it go. -/
def AtomicRule (s : State) (i : Instr) (f : Fields) (addr : Nat → DWord) (op opc resType : Nat) (wide : Bool) (data cmp : Nat → DWord)
    (seq : Option Nat) : Prop :=
  CanIssue s i f →
    let r := atomicFields s opc f
    let m := activeLanes s f
    let lanes := laneAddrs m addr
    let ias := if r.space = 0 then lanes.map (fun (_, va) => (translate s s.team.ctx va.toNat).getD 0) else []
    (m = 0#32 → ∃ t, exec i s = .next t ∧ t.ply.pc = afterPc s.ply.pc f ∧ ∀ x, byteAt t x = byteAt s x) ∧
    (m ≠ 0#32 → lanesTrap s r.space (elemBytes f) true lanes = none → fenceClear s = true → myLog s = [] →
      orderHold s false r.order ias = false → orderHold s true r.order ias = false →
      (r.space = 1 → mayFill s (lanes.map (·.2.toNat)) (elemBytes f) = true) →
      ∀ s1, (if r.space = 1 then fillLanes lanes (elemBytes f) s else .ok s) = .ok s1 →
      let u := issueAtomics f r op resType wide data cmp s.ply.pc m lanes s1
      let u := match seq with
        | none => u
        | some k => { u with ply := { u.ply with seqLeft := k } }
      HasRoom u i f (mapOnly f wide) → ∃ t, exec i s = .next t ∧ GoesOn u t f (afterPc s.ply.pc f) 0#7 ∧
        (∃ l ∈ t.weave.loads, l.tag = s.weave.nextTag ∧ l.ply = s.ply.n ∧ l.mask = m ∧ l.dst = f.d.toNat) ∧
        (∀ k, seq = some k → t.ply.seqLeft = k - 1) ∧ KeepsRegs u t i f (dstNames f wide) [] [])

/-- R27, R119, R214, R226 to R229: `atom.cas` has no offset; `atom`, `atom.cas`, `lr` and `sc` make one access for each
active lane and go on at once, their results pending; `lr` opens a constrained sequence of 16 instructions; `red` orders
like a store and has no result. -/
def Obligations.Atomics : Prop :=
  ∀ (s : State) (f : Fields),
    let none0 : Nat → DWord := fun _ => 0#64
    AtomicRule s (.atom f) f (addrPlain s f) f.variant.toNat 0xCA f.type.toNat (wideType f) (dataLane s f 1) none0 none ∧
    AtomicRule s (.atomCas f) f (addrBase s f) 8 0xCB f.type.toNat (wideType f) (dataLane s f 2) (dataLane s f 1) none ∧
    AtomicRule s (.lr f) f (addrPlain s f) 9 0xCD f.type.toNat (wideType f) none0 none0 (some 17) ∧
    AtomicRule s (.sc f) f (addrPlain s f) 10 0xCE 6 false (dataLane s f 1) none0 (some 0) ∧
    (CanIssue s (.red f) f →
      let r := atomicFields s 0xCC f
      let m := activeLanes s f
      let lanes := laneAddrs m (addrPlain s f)
      let n := elemBytes f
      (m = 0#32 → ∃ t, exec (.red f) s = .next t ∧ Done s t (.red f) f (afterPc s.ply.pc f)) ∧
      (m ≠ 0#32 → lanesTrap s r.space n true lanes = none →
        (r.space = 0 → GlobalStoreRule s (.red f) f r 3 rightA false lanes
          (laneStores s r 3 f.variant.toNat f.type.toNat n lanes (dataLane s f 1))) ∧
        (r.space ≠ 0 → fenceClear s = true → myLog s = [] → orderHold s true r.order [] = false →
          (r.space = 1 → mayFill s (lanes.map (·.2.toNat)) n = true) →
          ∀ s1, (if r.space = 1 then fillLanes lanes n s else .ok s) = .ok s1 →
          ∃ t, exec (.red f) s = .next t ∧ Done (localReductions f r lanes s s1) t (.red f) f (afterPc s.ply.pc f) ∧
            (r.space = 2 ∨ stackRoom s → ∀ x, byteAt t x = byteAt s x))))

/-- The check of R215 that a lane with address `va` fails, as its trap code. -/
def fails (s : State) (space n : Nat) (aligned : Bool) (va : DWord) (code : Nat) : Prop :=
  let a := va.toNat
  let miss := space ≠ 2 ∧ (2 ^ 56 ≤ a + n - 1 ∨ translate s s.team.ctx a = none ∨ translate s s.team.ctx (a + n - 1) = none)
  let out := space = 1 ∧ (a < s.weave.stklim.toNat ∨ s.weave.stkTop < a + n)
  let beyond := space = 2 ∧ (2 ^ 32 ≤ a ∨ s.team.kernel.claim < a + n)
  (code = 0x06 ∧ miss) ∨ (code = 0x07 ∧ ¬ miss ∧ out) ∨ (code = 0x08 ∧ ¬ miss ∧ ¬ out ∧ beyond) ∨
  (code = 0x09 ∧ ¬ miss ∧ ¬ out ∧ ¬ beyond ∧ aligned = true ∧ a % n ≠ 0)

/-- R215: the lowest lane that fails a check raises its precise trap, which names the lane's address and its number:
window-miss, stack-limit, scratch-range, or, for an atomic, misaligned-data, in this order. -/
def Obligations.LaneTraps : Prop :=
  ∀ (s : State) (f : Fields) (before after : List (Nat × DWord)) (j : Nat) (va : DWord) (code : Nat),
    let m := activeLanes s f
    let n := elemBytes f
    let split (space : Nat) (aligned : Bool) (addr : Nat → DWord) : Prop :=
      m ≠ 0#32 ∧ laneAddrs m addr = before ++ (j, va) :: after ∧
      (∀ b ∈ before, ∀ c, ¬ fails s space n aligned b.2 c) ∧ fails s space n aligned va code
    let trap := takeTrap s code s.ply.pc [va, BitVec.ofNat 64 j] m
    (CanIssue s (.ld f) f → split (resolve s 0xC0 f).space false (addrMode s f n) → exec (.ld f) s = .next trap) ∧
    (CanIssue s (.ldx f) f → split (resolve s 0xC2 f).space false (addrIndexed s f (memOffset f)) →
      exec (.ldx f) s = .next trap) ∧
    (CanIssue s (.lds f) f → split 2 false (addrScratch s f n) → exec (.lds f) s = .next trap) ∧
    (CanIssue s (.st f) f → split (resolve s 0xC1 f).space false (addrMode s f n) → exec (.st f) s = .next trap) ∧
    (CanIssue s (.stx f) f → split (resolve s 0xC3 f).space false (addrIndexed s f 0#64) → exec (.stx f) s = .next trap) ∧
    (CanIssue s (.sts f) f → split 2 false (addrScratch s f n) → exec (.sts f) s = .next trap) ∧
    (CanIssue s (.atom f) f → split (resolve s 0xCA f).space true (addrPlain s f) → exec (.atom f) s = .next trap) ∧
    (CanIssue s (.atomCas f) f → split (resolve s 0xCB f).space true (addrBase s f) → exec (.atomCas f) s = .next trap) ∧
    (CanIssue s (.red f) f → split (resolve s 0xCC f).space true (addrPlain s f) → exec (.red f) s = .next trap) ∧
    (CanIssue s (.lr f) f → split (resolve s 0xCD f).space true (addrPlain s f) → exec (.lr f) s = .next trap) ∧
    (CanIssue s (.sc f) f → split (resolve s 0xCE f).space true (addrPlain s f) → exec (.sc f) s = .next trap)
/-! ### Fences, prefetch, the tag table, the stack, barriers -/

/-- A ply of the parked state. -/
def plyAt (s : State) (uid windex n : Nat) : Option Ply := (findWeave s uid windex).bind (fun w => w.plies.find? (·.n == n))

/-- Lane j of v<n> and the value of s<n> of a weave that is not issuing. -/
def weaveLane (w : Weave) (n j : Nat) : Word := ((w.map.v.getD n none).map (fun r => lane r.lanes j)).getD 0#32
def weaveScalar (w : Weave) (n : Nat) : DWord := ((w.map.s.getD n none).map (·.val)).getD 0#64

/-- i acts as a plain `fence`: with the ply's accesses performed, its log empty and no speculation open it is complete,
and what the ply reads afterwards is no older; else the ply goes on with the fence open under its lookahead count. -/
def FenceRule (s : State) (i : Instr) (f : Fields) : Prop :=
  (fenceClear s = true → allPerformed s = true → fenceOpen s = false →
    ∃ t, exec i s = .next t ∧ fenceOpen t = false ∧
      Done { acquireAt s s.team.at_ with ply := { s.ply with rolled := 0 } } t i f (afterPc s.ply.pc f)) ∧
  (fenceClear s = false ∨ allPerformed s = false ∨ fenceOpen s = true →
    ∃ t, exec i s = .next t ∧ Done { s with ply := { s.ply with rolled := 0 } } t i f (afterPc s.ply.pc f) ∧
      fenceOpen t = true ∧ ∃ p ∈ t.weave.pends, p.tag = s.weave.nextTag ∧ p.ply = s.ply.n ∧ p.fence = some s.nextId ∧ p.left = f.la.toNat)

/-- R55, R116, R117, R121, R230: `fence` is complete once the ply's accesses are performed, its log is empty and no
speculation is open, and stays open before that, the ply going on under the lookahead count; `fence.spec` takes a
checkpoint of the ply's address, mask and rename map and goes on, and is a plain `fence` behind its own open checkpoint
or after two roll-backs; its validation, when everything before it is performed, releases the checkpoint if no recorded
line was written since, and else returns the ply to the `fence.spec`, the names that it alone wrote to the checkpoint's
registers, and leaves the names that it did not write. Which names a roll-back restores among several plies is the
model's choice (log 65), and so is that no scope narrows what a fence waits for (log 88). -/
def Obligations.Fences : Prop :=
  ∀ (s : State) (f : Fields),
    (CanIssue s (.fence f) f → FenceRule s (.fence f) f) ∧
    (CanIssue s (.fenceSpec f) f →
      (s.ply.fence = none → s.ply.rolled < 2 →
        ∃ t c, exec (.fenceSpec f) s = .next t ∧ t.ply.pc = afterPc s.ply.pc f ∧ t.ply.fence = some c ∧
          c.pc = s.ply.pc ∧ c.mask = s.ply.mask ∧ c.map = s.weave.map ∧ c.lines = [] ∧ c.queued = [] ∧
          KeepsRegs s t (.fenceSpec f) f [] [] [] ∧ ∀ a, byteAt t a = byteAt s a) ∧
      (s.ply.fence ≠ none ∨ 2 ≤ s.ply.rolled → FenceRule s (.fenceSpec f) f)) ∧
    (∀ uid windex n w p c, let q := park s
      findWeave q uid windex = some w → w.plies.find? (·.n == n) = some p → p.fence = some c →
      fenceDone q uid windex n c = true → (∀ l ∈ w.loads, l.ply = n → c.tagMark ≤ l.tag → l.full = true) →
      ((∀ l ∈ c.lines, (tsOf q l.1).wts = l.2) → c.queued = [] → p.mask ≠ 0#32 →
        ∃ t p', exec (.fenceSpecValidate uid windex n) s = .next t ∧ plyAt t uid windex n = some p' ∧
          p'.fence = none ∧ p'.rolled = 0 ∧ p'.pc = p.pc ∧ p'.mask = p.mask ∧ t.mem = q.mem) ∧
      ((∃ l ∈ c.lines, (tsOf q l.1).wts ≠ l.2) → c.done = false → w.map.v.length = 192 → w.map.s.length = 48 →
        ∃ t p' w', exec (.fenceSpecValidate uid windex n) s = .next t ∧ plyAt t uid windex n = some p' ∧
          findWeave t uid windex = some w' ∧
          (∀ k < 192, (assoc? k c.own = none → w'.map.v.getD k none = w.map.v.getD k none) ∧
            (assoc? k c.own ≠ none → k ∉ c.others → w'.map.v.getD k none = c.map.v.getD k none)) ∧
          (∀ k < 48, w'.map.s.getD k none = if assoc? (0xC0 + k) c.own = none then w.map.s.getD k none else c.map.s.getD k none) ∧
          p'.pc = c.pc ∧ p'.mask = c.mask ∧ p'.fence = none ∧
          p'.rolled = p.rolled + 1 ∧ t.mem = q.mem))

/-- R92, R216, R231, R360: `pref` raises nothing and changes no register and no byte, spilled stack lines apart; when
the last active lane's data is there, a load writes its destination, lanes that it does not name standing, and is no
longer pending; data with an uncorrectable error is consumed instead, which ends the team outside a region. A class
whose results are written later loses its pending entry, and an open `fence` is complete once what precedes it is (R52,
R116, R156). -/
def Obligations.PrefetchAndResults : Prop :=
  ∀ (s : State) (f : Fields),
    (CanIssue s (.pref f) f → ∃ t, exec (.pref f) s = .next t ∧ t.ply.pc = afterPc s.ply.pc f ∧
      t.weave.fpflags = s.weave.fpflags ∧ KeepsRegs s t (.pref f) f [] [] [] ∧
      ((resolve s 0xD1 f).space ≠ 1 ∨ stackRoom s → ∀ a, byteAt t a = byteAt s a)) ∧
    (∀ uid windex tag w l, let q := park s
      findWeave q uid windex = some w → w.plies ≠ [] → (∀ p ∈ w.plies, p.mask ≠ 0#32) → w.evicted = false →
      w.loads.find? (·.tag == tag) = some l → l.more = [] →
      (∀ j < 32, inMask l.mask j = true → (l.data.getD j none).isSome = true) →
      (l.bad ≠ none → w.region = none → ∃ t, exec (.loadDataReturn uid windex tag) s = .next t ∧
        ∀ u ∈ t.teams, u.uid = uid → u.ending = true) ∧
      (l.bad = none → isV l.dst = true → (l.wide = true → l.dst + 1 < 192) →
      ∃ t w', exec (.loadDataReturn uid windex tag) s = .next t ∧ findWeave t uid windex = some w' ∧
        (∀ x ∈ w'.loads, x.tag ≠ tag) ∧ (∀ x ∈ w'.pends, x.tag ≠ tag) ∧ t.mem = q.mem ∧
        (∀ j < 32, inMask l.mask j = true → ∀ x, l.data.getD j none = some x →
          let y : DWord := if l.wide then x else (Ty.ofCodeD l.type).extend x.toNat
          weaveLane w' l.dst j = y.setWidth 32 ∧ (l.wide = true → weaveLane w' (l.dst + 1) j = y.extractLsb' 32 32)) ∧
        (∀ n j, n ≠ l.dst → (l.wide = true → n ≠ l.dst + 1) → weaveLane w' n j = weaveLane w n j) ∧
        (∀ n, weaveScalar w' n = weaveScalar w n) ∧
        (∀ j < 32, inMask l.mask j = false → weaveLane w' l.dst j = weaveLane w l.dst j))) ∧
    (∀ uid windex tag w, let q := park s
      findWeave q uid windex = some w →
      ∃ t w', exec (.longLatencyResultWrite uid windex tag) s = .next t ∧ findWeave t uid windex = some w' ∧
        (∀ x, x ∈ w'.pends ↔ x ∈ w.pends ∧ ¬ (x.tag = tag ∧ ((x.timed = true ∧ x.due ≤ q.clk) ∨ pendingFenceDone q uid windex x = true))) ∧ w'.map = w.map ∧ t.mem = q.mem)

/-- R90, R222 to R224: `tlook` gives each active lane the entry with its key, or a miss with the suggested victim, and
renews the age of the entries that it hits; `tset` and `tinv` give each active lane the previous 64 bits of its entry;
`tset` makes it valid with the lane's key and the given d bit, and no other entry valid with that key; `tinv` clears v and
d; an index beyond the table, or a team without one, raises scratch-range; each waits for what a scratch access would wait
for. That the record of a team without a table shows address 0 is the model's choice (log 108), and so is that it names
the lowest active lane (log 45), and that an entry that `tset` invalidates loses its d bit (log 109). -/
def Rules.TagTable : Prop :=
  ∀ (s : State) (f : Fields),
    let m := activeLanes s f
    let addr := addrBase s f
    (∀ i, i = .tlook f ∨ i = .tset f ∨ i = .tinv f → s.team.kernel.tagEntries = 0 → m ≠ 0#32 → CanIssue s i f →
      exec i s = .next (takeTrap s 0x08 s.ply.pc [0#64, BitVec.ofNat 64 (lowestLane m)] m)) ∧
    (s.team.kernel.tagEntries ≠ 0 → CanIssue s (.tlook f) f → (m ≠ 0#32 → tagHolds s = false ∧
        tagPoison s.team m (fun i => tagLookup s.team (addr i) % 2 ^ 29) = none) → HasRoom s (.tlook f) f (vDest s f false) →
      ∃ t ages, exec (.tlook f) s = .next t ∧
        VecDone { s with team := { s.team with tagAge := ages } } t (.tlook f) f false
          (fun j => BitVec.ofNat 64 (tagLookup s.team (addr j))) 0#7) ∧
    (∀ (t : Team) (va : DWord), (∀ i, tagFind t (tagKey t va) = some i → tagLookup t va = i) ∧
      (tagFind t (tagKey t va) = none → tagLookup t va = 2 ^ 31 + (if tagValid (tagAt t (tagVictim t)) then 2 ^ 30 else 0) +
        (if (tagAt t (tagVictim t)).getLsbD 62 then 2 ^ 29 else 0) + tagVictim t)) ∧
    (∀ (i : Instr) (idx : Nat → Nat) (step : Team → Nat → Team × DWord),
      (i = .tset f ∧ idx = low32 s f f.b.toNat ∧
        step = fun t j => tagSetLane t (idx j) (addr j) (f.variant.getLsbD 0)) ∨
      (i = .tinv f ∧ idx = low32 s f f.a.toNat ∧
        step = fun t j => (tagPut t (idx j) (tagAt t (idx j) &&& 0x3FFFFFFFFFFFFFFF#64), tagAt t (idx j))) →
      CanIssue s i f → m ≠ 0#32 →
      let u := { s with team := (tagLanes m s.team step).1 }
      ((∀ j < 32, inMask m j = true → idx j < s.team.kernel.tagEntries) → s.team.kernel.tagEntries ≠ 0 →
        tagHolds s = false → tagPoison s.team m idx = none → HasRoom u i f (vecWrite f.d true m []) →
        ∃ t, exec i s = .next t ∧
          VecDone u t i f true (fun j => (assoc? j (tagLanes m s.team step).2).getD 0#64) 0#7) ∧
      ((∀ j < 32, inMask m j = true → idx j < s.team.kernel.tagEntries) → s.team.kernel.tagEntries ≠ 0 →
        tagHolds s = true → exec i s = .next (stand s .retry)) ∧
      (∀ j < 32, s.team.kernel.tagEntries ≠ 0 → inMask m j = true → s.team.kernel.tagEntries ≤ idx j →
        (∀ k < j, inMask m k = true → idx k < s.team.kernel.tagEntries) →
        exec i s = .next (takeTrap s 0x08 s.ply.pc [BitVec.ofNat 64 (idx j), BitVec.ofNat 64 j] m))) ∧
    (∀ (t : Team) (i : Nat) (va : DWord) (d : Bool), let u := (tagSetLane t i va d).1
      (tagSetLane t i va d).2 = tagAt t i ∧ tagAt u i = BitVec.ofNat 64 (2 ^ 63 + (if d then 2 ^ 62 else 0) + tagKey t va) ∧
      ∀ k, k ≠ i → tagAt u k = if tagFind t (tagKey t va) = some k then tagAt t k &&& 0x3FFFFFFFFFFFFFFF#64 else tagAt t k)

/-- R88, R91, R225, R232: `salloc` and `sfree` move the weave's stack cursor by the rounded size and give it to D, or
raise stack-limit with the value that left the region at the end that they move towards (the lane that the record names is
the model's choice, log 45); `spmove` copies bytes of the claim as memmove does, or raises
scratch-range. -/
def Rules.StackAndMove : Prop :=
  ∀ (s : State) (f : Fields),
    let m := activeLanes s f
    let size : Int := stackSize f m s
    let low : Int := s.weave.stklim.toNat
    let top : Int := s.weave.stkTop
    (∀ (i : Instr) (c : Int) (out : Prop), (i = .salloc f ∧ c = s.weave.cursor - size ∧ out = (c < low)) ∨
        (i = .sfree f ∧ c = s.weave.cursor + size ∧ out = (top < c)) →
      CanIssue s i f → m ≠ 0#32 →
      (¬ out →
        let u := { s with weave := { s.weave with cursor := c.toNat } }
        HasRoom u i f (sclWrite f.d 0#64) → ∃ t, exec i s = .next t ∧ SclDone u t i f (BitVec.ofInt 64 c)) ∧
      (out → exec i s =
        .next (takeTrap s 0x07 s.ply.pc [BitVec.ofInt 64 c, BitVec.ofNat 64 (lowestLane m)] m))) ∧
    (CanIssue s (.spmove f) f → (m = 0#32 ∨ scl s f f.c = 0#64) →
      ∃ t, exec (.spmove f) s = .next t ∧ Done s t (.spmove f) f (afterPc s.ply.pc f)) ∧
    (CanIssue s (.spmove f) f → m ≠ 0#32 →
      let dst := (scl s f f.a).toNat
      let src := (scl s f f.b).toNat
      let n := (scl s f f.c).toNat
      (0 < n → dst + n ≤ s.team.kernel.claim → src + n ≤ s.team.kernel.claim → fenceClear s = true → myLog s = [] →
        orderHold s true 1 [] = false → cellsWf s.team.scratch = true →
        ∃ t, exec (.spmove f) s = .next t ∧ t.ply.pc = afterPc s.ply.pc f ∧ KeepsRegs s t (.spmove f) f [] [] [] ∧
          (∀ a, byteAt t a = byteAt s a) ∧
          ∀ x, cellRead t.team.scratch x =
            if dst ≤ x ∧ x < dst + n then cellRead s.team.scratch (src + (x - dst)) else cellRead s.team.scratch x) ∧
      (0 < n → s.team.kernel.claim < dst + n → exec (.spmove f) s =
        .next (takeTrap s 0x08 s.ply.pc [BitVec.ofNat 64 dst, BitVec.ofNat 64 (lowestLane m)] m)) ∧
      (0 < n → dst + n ≤ s.team.kernel.claim → s.team.kernel.claim < src + n → exec (.spmove f) s =
        .next (takeTrap s 0x08 s.ply.pc [BitVec.ofNat 64 src, BitVec.ofNat 64 (lowestLane m)] m)))

/-- R88, R90, R91, R222 to R225, R232: the tag table, the stack cursor and moves within the scratchpad. -/
def Obligations.TagTableAndStack : Prop := Rules.TagTable ∧ Rules.StackAndMove

/-- R29, R233 to R235: `bar.team` waits while a live ply of the team has not arrived; when all have, every ply of the team
goes on behind its own; `arrive.crew` gives D the weave's count for the crew and raises it by one, or waits where it would
run more than 255 ahead; `wait.crew` goes on once its phase is complete, waits before that, and raises crew-broken for a
broken crew; a crew that the team does not belong to raises crew-membership. -/
def Rules.Barriers : Prop :=
  ∀ (s : State) (f : Fields),
    let m := activeLanes s f
    (CanIssue s (.barTeam f) f → (fenceClear s = false ∨ allPerformed s = false ∨ fenceOpen s = true) →
      exec (.barTeam f) s = .next (stand s .retry)) ∧
    (CanIssue s (.barTeam f) f → fenceClear s = true → allPerformed s = true → fenceOpen s = false →
      ((∃ p ∈ s.weave.plies, p.wait ≠ .barTeam) ∨ (∃ w ∈ s.team.weaves, w.ended = false ∧ ∃ p ∈ w.plies, p.wait ≠ .barTeam) →
        exec (.barTeam f) s = .next (stand s .barTeam)) ∧
      ((∀ p ∈ s.weave.plies, p.wait = .barTeam) → (∀ w ∈ s.team.weaves, ∀ p ∈ w.plies, p.wait = .barTeam) →
        ∃ t, exec (.barTeam f) s = .next t ∧ t.ply.pc = afterPc s.ply.pc f ∧ t.ply.wait = .none ∧
          (∀ p ∈ t.weave.plies, p.wait = .none ∧ ∃ q ∈ s.weave.plies, p.pc = nextPc q.pc 8) ∧
          (∀ w ∈ t.team.weaves, ∀ p ∈ w.plies, p.wait = .none ∧ ∃ v ∈ s.team.weaves, ∃ q ∈ v.plies, p.pc = nextPc q.pc 8) ∧
          KeepsRegs s t (.barTeam f) f [] [] [] ∧ ∀ a, byteAt t a = byteAt s a)) ∧
    (let c := crewOperand f m s
     ∀ k crew, s.weave.plies = [] → c ≤ 255 → crewSlot s c = some k → crewOf s c = some crew → k < s.weave.crewCnt.length →
      let cnt := s.weave.crewCnt.getD k 0#32
      (CanIssue s (.arriveCrew f) f → fenceClear s = true → allPerformed s = true → fenceOpen s = false →
        ((cnt + 1#32 - crew.done).toInt ≤ 255 →
          let w := { s.weave with crewCnt := s.weave.crewCnt.set k (cnt + 1#32) }
          let u := crewReport { spoil s with weave := w } s.team (w :: s.team.weaves)
          HasRoom u (.arriveCrew f) f (sclWrite f.d 0#64) →
          ∃ t, exec (.arriveCrew f) s = .next t ∧ GoesOn u t f (afterPc s.ply.pc f) 0#7 ∧
            t.weave.crewCnt.getD k 0#32 = cnt + 1#32 ∧
            (isS f.d.toNat = true → sVal t (f.d.toNat - 0xC0) = cnt.setWidth 64) ∧
            KeepsRegs s t (.arriveCrew f) f [] (if isS f.d.toNat then [f.d.toNat - 0xC0] else []) []) ∧
        (255 < (cnt + 1#32 - crew.done).toInt → exec (.arriveCrew f) s = .next (stand s .retry))) ∧
      (CanIssue s (.waitCrew f) f →
        let phase : Word := (scl s f f.b).setWidth 32
        (crew.broken = true → exec (.waitCrew f) s = .next (takeTrap s 0x0E s.ply.pc [BitVec.ofNat 64 c] m)) ∧
        (crew.broken = false → 0 < (crew.done - phase).toInt → ∃ t, exec (.waitCrew f) s = .next t ∧
          Done (acquireAt (spoil s) s.team.at_) t (.waitCrew f) f (afterPc s.ply.pc f)) ∧
        (crew.broken = false → (crew.done - phase).toInt ≤ 0 → exec (.waitCrew f) s = .next (stand s .retry)))) ∧
    (let c := crewOperand f m s
     s.weave.plies = [] → crewSlot s c = none →
      (CanIssue s (.arriveCrew f) f → exec (.arriveCrew f) s = .next (takeTrap s 0x0D s.ply.pc [BitVec.ofNat 64 c] m)) ∧
      (CanIssue s (.waitCrew f) f → exec (.waitCrew f) s = .next (takeTrap s 0x0D s.ply.pc [BitVec.ofNat 64 c] m)))

/-- R88, R122, R236: `mst` writes each active lane's bytes at its offset in the claim of the issuing team and of every
resident member of the crew; for a member that is not resident and has not ended the launch record holds them, lane after
lane; one that has ended takes nothing. A member's claim takes the held bytes in their order when the team is admitted,
its claim zeroed, and, as saved, when it comes back. -/
def Rules.MulticastStore : Prop :=
  ∀ (s : State) (f : Fields) (k : Nat) (crew : Crew),
    let m := activeLanes s f
    let r := resolve s 0xD7 f
    let n := elemBytes f
    let c := (scl s f f.a).toNat
    let base := if f.b = 0xFB#8 then f.imm32.toNat else (scl s f f.b).toNat
    let addr (j : Nat) : DWord := BitVec.ofNat 64 (base + j * n)
    let data (j : Nat) : DWord := if f.c = 0xFB#8 then immElem (tyOf f) f.imm32 true else dataLane s f 2 j
    CanIssue s (.mst f) f → m ≠ 0#32 → c ≤ 255 → crewSlot s c = some k → crewOf s c = some crew →
    (∀ j < 32, inMask m j = true → base + j * n + n ≤ s.team.kernel.claim) → s.team.kernel.claim < 2 ^ 32 → fenceClear s = true →
    myLog s = [] → orderHold s true r.order [] = false → cellsWf s.team.scratch = true →
    (∀ u ∈ s.teams, cellsWf u.scratch = true) →
    ∃ t, exec (.mst f) s = .next t ∧ t.ply.pc = afterPc s.ply.pc f ∧ KeepsRegs s t (.mst f) f [] [] [] ∧
      (∀ a, byteAt t a = byteAt s a) ∧
      StoresLanes m n addr data (cellRead s.team.scratch) (cellRead t.team.scratch) ∧
      (s.team.run = .original → ∀ (p : Nat) (u v : Team), s.teams[p]? = some u → t.teams[p]? = some v →
        (u.launch = s.team.launch → u.run = .original → crew.members.contains u.lix = true →
          StoresLanes m n addr data (cellRead u.scratch) (cellRead v.scratch)) ∧
        (crew.members.contains u.lix = false → v = u)) ∧
      (s.team.run = .original → ∀ (p : Nat) (l v : Launch), s.launches[p]? = some l → t.launches[p]? = some v →
        l.key = s.team.launch → v.heldMst = l.heldMst ++ (lanesOf m).flatMap (fun j =>
          (crew.members.filter (fun x => x ≠ s.team.lix ∧ l.ended.contains x = false ∧
            ∀ u ∈ s.teams, u.launch = s.team.launch → u.run = .original → u.lix ≠ x)).map
              (fun x => (x, base + j * n, toBytes n (data j).toNat))))

/-- R88, R236: a claim with held copies is the claim with each copy's bytes in turn, so that the last copy stays; an
original team is admitted with the copies for it in a claim of zeros, and comes back with those for it in its saved claim.
-/
def Rules.HeldCopies : Prop :=
  (∀ (l : Launch) (lix : Nat) (claim : List Host.Cell) (before : List (Nat × Nat × List Byte)) (a : Nat) (bs : List Byte),
    cellsWf claim = true → l.heldMst.filter (·.1 == lix) = before ++ [(lix, a, bs)] →
    let after := l.claimOf .original lix claim
    (∀ k < bs.length, cellRead after (a + k) = bs.getD k 0#8) ∧
    ∀ x, x < a ∨ a + bs.length ≤ x → cellRead after x = cellRead ({ l with heldMst := before }.claimOf .original lix claim) x) ∧
  (∀ (l : Launch) (lix : Nat) (claim : List Host.Cell), l.heldMst.filter (·.1 == lix) = [] → l.claimOf .original lix claim = claim) ∧
  (∀ (s : State) (l : Launch) (lix : Nat) (core : CoreId) (parts slots : List Nat),
    (∃ u ∈ (startTeam s l lix .original core parts slots).teams, u.launch = l.key ∧ u.lix = lix ∧
      u.scratch = l.claimOf .original lix []) ∧
    ∀ v ∈ (startTeam s l lix .original core parts slots).launches, v.key = l.key → ∀ x ∈ v.heldMst, x.1 ≠ lix) ∧
  (∀ (s : State) (l : Launch) (x : Suspended) (t : Team) (core : CoreId) (parts : List Nat) (based : List (Option Resn)),
    (backTeam s l x t core parts based).scratch = l.claimOf x.run x.lix t.scratch)

/-- R29, R88, R122, R233 to R236: barriers of teams and crews, and `mst`. -/
def Obligations.BarriersAndMulticast : Prop := Rules.Barriers ∧ Rules.MulticastStore ∧ Rules.HeldCopies

/-! ### The matrix engine -/

/-- The cluster of the issuing team in t. -/
def clusterIn (s t : State) : Cluster := findCluster t s.team.at_.site s.team.at_.cluster

/-- i completes in t and changes no register but those named, no sticky flag and no byte of memory. -/
structure Completes (s t : State) (i : Instr) (f : Fields) (ss : List Nat) : Prop where
  pc : t.ply.pc = afterPc s.ply.pc f
  ready : t.ply.wait = .none
  flags : t.weave.fpflags = s.weave.fpflags
  memory : ∀ a, byteAt t a = byteAt s a
  keeps : KeepsRegs s t i f [] ss []

/-- The scalar destination of D as a list of names. -/
def sName (f : Fields) : List Nat := if isS f.d.toNat then [f.d.toNat - 0xC0] else []

/-- D holds x. -/
def answers (t : State) (f : Fields) (x : DWord) : Prop := isS f.d.toNat = true → sVal t (f.d.toNat - 0xC0) = x

/-- R95, R96, R241, R242, R249, R263: `obres` makes its handle live with the record of its operands, every byte zero, or answers
1 for a range that overlaps, 2 for a live handle, and raises illegal-instruction on a breach of the record's limits (that all
of them are checked before the status is decided is the model's reading, log 43);
`obrel` answers 0 and makes the handle not live, or 3; `mwait` waits while its set has covered commands outstanding;
`mpoll` answers which; `mstat` answers the underflow counts, or the outstanding names and the entries held. -/
def Obligations.MatrixReservationsAndWaits : Prop :=
  ∀ (s : State) (f : Fields),
    let m := activeLanes s f
    let hv := f.variant.toNat % 16
    let room (i : Instr) (u : State) : Prop := HasRoom u i f (sclWrite f.d 0#64)
    (CanIssue s (.obres f) f → m ≠ 0#32 → hv < s.team.resns.length →
      let d0 := scl s f f.a
      let r : Resn := { id := s.nextId, d0 := d0, d1 := scl s f f.b, base := (d0.extractLsb' 20 11).toNat, data := []
                        tscale := if f.f = 0xF0#8 then 0#32 else (scl s f f.f).setWidth 32 }
      let u := { s with nextId := s.nextId + 1, team := { s.team with resns := s.team.resns.set hv (some r) } }
      let fine := r.recordOk = true ∧ (mfmt r.fmt).tensor = (f.f != 0xF0#8)
      (fine → liveRes s.team hv = none → rangeBusy s s.team.at_ r.base r.units = false → room (.obres f) u →
        ∃ t, exec (.obres f) s = .next t ∧ Completes s t (.obres f) f (sName f) ∧ answers t f 0#64 ∧ liveRes t.team hv = some r) ∧
      (fine → liveRes s.team hv = none → rangeBusy s s.team.at_ r.base r.units = true → room (.obres f) s →
        ∃ t, exec (.obres f) s = .next t ∧ SclDone s t (.obres f) f 1#64) ∧
      (fine → liveRes s.team hv ≠ none → room (.obres f) s → ∃ t, exec (.obres f) s = .next t ∧ SclDone s t (.obres f) f 2#64) ∧
      (¬ fine → exec (.obres f) s = .next (takeTrap s 0x01 s.ply.pc [baseWord 0xE0 f] m))) ∧
    (CanIssue s (.obrel f) f → m ≠ 0#32 → room (.obrel f) s → s.focused = true →
      (liveRes s.team hv = none → ∃ t, exec (.obrel f) s = .next t ∧ SclDone s t (.obrel f) f 3#64) ∧
      (liveRes s.team hv ≠ none → ∃ t, exec (.obrel f) s = .next t ∧ Completes s t (.obrel f) f (sName f) ∧
        answers t f 0#64 ∧ liveRes t.team hv = none ∧ ∀ h, h ≠ hv → liveRes t.team h = liveRes s.team h)) ∧
    (let out := stillOut s (waitSet (scl s f f.a))
     (CanIssue s (.mwait f) f → m ≠ 0#32 →
      (out = [] → ∃ t, exec (.mwait f) s = .next t ∧ Done (acquireAt s s.team.at_) t (.mwait f) f (afterPc s.ply.pc f)) ∧
      (out ≠ [] → exec (.mwait f) s = .next (stand s .retry))) ∧
     (CanIssue s (.mpoll f) f → m ≠ 0#32 → room (.mpoll f) s →
      ∃ t, exec (.mpoll f) s = .next t ∧ Completes s t (.mpoll f) f (sName f) ∧
        ∀ k < 64, isS f.d.toNat = true → (sVal t (f.d.toNat - 0xC0)).getLsbD k = decide (k ∈ out))) ∧
    (CanIssue s (.mstat f) f → m ≠ 0#32 →
      let own := (clusterHere s).outstanding.filter (·.uid == s.team.uid)
      ((∃ e ∈ own, e.op = .accSt) → (f.variant = 0#5 ↔ isV f.d.toNat = true) → exec (.mstat f) s = .next (stand s .retry)) ∧
      ((∀ e ∈ own, e.op ≠ .accSt) → f.variant = 0#5 → isV f.d.toNat = true → HasRoom s (.mstat f) f (vDest s f false) →
        ∃ t, exec (.mstat f) s = .next t ∧ VecDone s t (.mstat f) f false (fun j =>
          BitVec.setWidth 64 (s.team.counts.getD j 0#32 ||| (s.team.counts.getD (j + 32) 0#32 <<< 16))) 0#7) ∧
      ((∀ e ∈ own, e.op ≠ .accSt) → f.variant ≠ 0#5 → isV f.d.toNat = false → room (.mstat f) s →
        ∃ t, exec (.mstat f) s = .next t ∧ SclDone s t (.mstat f) f
          (BitVec.ofNat 64 (setBits (own.flatMap EngCmd.names) + ((clusterHere s).cmds.filter (·.uid == s.team.uid)).length * 2 ^ 20))) ∧
      (¬ (f.variant = 0#5 ↔ isV f.d.toNat = true) → exec (.mstat f) s = .next (takeTrap s 0x01 s.ply.pc [baseWord 0xEE f] m)))

/-- The command e, posted by the issuing weave alone, as the request table holds it. -/
def entered (s : State) (e : EngCmd) : EngCmd :=
  { e with id := s.nextId, posted := s.cyc, ctx := s.team.ctx, prio := s.team.prio, wins := winsHere s
           uid := s.team.uid, owners := [(s.team.uid, s.weave.windex)] }

/-- i posts e: it enters the request table as the youngest command, and the ply goes on. -/
def Posts (s : State) (i : Instr) (f : Fields) (e : EngCmd) : Prop :=
  ∃ t, exec i s = .next t ∧ Completes s t i f [] ∧ (clusterIn s t).cmds = (clusterHere s).cmds ++ [entered s e]

/-- The engine takes a command of the ply now: the ply's accesses are performed, the context has the right to post, an
entry is free, the engine is in service, and no command that the team's restore posts again comes first (R120, R248,
R308, R345, R371). -/
def takesCommand (s : State) : Prop :=
  commandReady s = true ∧ mayPost s = true ∧ (clusterHere s).cmds.length < 32 ∧ (clusterHere s).scan = .serve ∧ s.focused = true ∧
  (clusterHere s).waiting.any (·.uid == s.team.uid) = false

/-- R239, R243 to R248, R261, R262, R345: the matrix commands check their operands and enter the request table; an `acc.zero`
of a context that the table of the engine does not name stands before a pending entry of kind protection instead, which is
the model's choice of log 101 (that `acc.zero` takes a live handle of any format, and that a gathered row without a window traps at
the instruction, are its readings of logs 42 and 44); the joint ones
post alone in a weave without a gang, and in a gang the weave waits at the rendezvous while a member has not arrived;
`gang.set` answers 0 and sets the weave's gang, 1 for a value of the wrong layout, or 2 for a member that is not
resident in the cluster. -/
def Obligations.MatrixCommands : Prop :=
  ∀ (s : State) (f : Fields),
    let m := activeLanes s f
    (CanIssue s (.obload f) f → m ≠ 0#32 →
      let a := (scl s f f.a).toNat
      let ref := scl s f f.b
      let n := (scl s f f.c).toNat
      let off := (ref.extractLsb' 32 32).toNat
      let h := (ref.extractLsb' 0 4).toNat
      let e (r : Resn) : EngCmd := { op := .obload, writes := [h], rd := r.id, a := BitVec.ofNat 64 a, b := ref
                                     depth := BitVec.ofNat 64 n, sp := isSp f }
      (∀ r, liveRes s.team h = some r → ref.extractLsb' 4 28 = 0#28 → off % 16 = 0 → n % 16 = 0 → off + n ≤ r.bytes →
        takesCommand s →
        (isSp f = true → a + n ≤ s.team.kernel.claim → Posts s (.obload f) f (e r)) ∧
        (isSp f = false → windowMiss (winsHere s) a n = none → Posts s (.obload f) f (e r))) ∧
      (liveRes s.team h = none → exec (.obload f) s = .next (takeTrap s 0x0A s.ply.pc [ref] m))) ∧
    (CanIssue s (.obgath f) f → m ≠ 0#32 → takesCommand s → ∀ g h, gatherList s f m = .ok (g, h) →
      let list := f.variant.toNat / 4 % 4
      ∃ t, exec (.obgath f) s = .next t ∧ Completes s t (.obgath f) f [] ∧
        (list < s.team.lists.length → t.team.lists.getD list none = some g) ∧
        (clusterIn s t).cmds = (clusterHere s).cmds ++
          [entered s { op := .obgath, reads := [h], writes := [16 + list], ra := g.src, glist := some g }]) ∧
    (CanIssue s (.gangSet f) f → m ≠ 0#32 →
      let g := scl s f f.a
      (gangLayout g s.weave.handle = false → HasRoom s (.gangSet f) f (sclWrite f.d 0#64) →
        ∃ t, exec (.gangSet f) s = .next t ∧ SclDone s t (.gangSet f) f 1#64) ∧
      (gangLayout g s.weave.handle = true → (∀ h ∈ gangMembers g, ∃ t w, weaveByHandle s h = some (t, w) ∧ t.launch = s.team.launch) →
        s.focused = true → HasRoom (setGang s g) (.gangSet f) f (sclWrite f.d 0#64) →
        ∃ t, exec (.gangSet f) s = .next t ∧ t.weave.gang = g ∧ answers t f 0#64 ∧ t.ply.pc = afterPc s.ply.pc f ∧
          t.weave.windex = s.weave.windex ∧ ∀ a, byteAt t a = byteAt s a) ∧
      ((∃ h ∈ gangMembers g, weaveByHandle s h = none) → gangLayout g s.weave.handle = true →
        HasRoom s (.gangSet f) f (sclWrite f.d 0#64) →
        ∃ t, exec (.gangSet f) s = .next t ∧ SclDone s t (.gangSet f) f 2#64)) ∧
    (∀ (i : Instr) (op : EngOp), (i, op) ∈ [(Instr.mm f, EngOp.mm), (.mtr f, .mtr), (.mperm f, .mperm), (.mrsum f, .mrsum)] →
      CanIssue s i f → s.team.leaving = none →
      let v := jointVals s f m op
      let g := s.weave.gang
      (g.extractLsb' 48 3 = 0#3 → takesCommand s → ∀ e, jointCmd s.team f op (opcodeOf i) s.team.kernel.recomb v = .ok e → Posts s i f e) ∧
      (g.extractLsb' 48 3 = 0#3 → commandReady s = true → ∀ c x, jointCmd s.team f op (opcodeOf i) s.team.kernel.recomb v = .error (c, x) →
        exec i s = .next (takeTrap s c s.ply.pc [x] m)) ∧
      (g.extractLsb' 48 3 ≠ 0#3 → commandReady s = true → mayPost s = true → (clusterHere s).latch = [] →
        (∀ h ∈ gangMembers g, ∃ t w, weaveByHandle s h = some (t, w) ∧ w.gang = g) → 1 < (gangMembers g).length →
        ∃ t, exec i s = .next t ∧ t.ply.wait = .rendezvous ∧ t.ply.pc = s.ply.pc ∧ (clusterIn s t).cmds = (clusterHere s).cmds ∧
          ∃ a, (clusterIn s t).latch = [a] ∧ a.handle = s.weave.handle ∧ a.gang = g ∧ a.pc = s.ply.pc)) ∧
    (CanIssue s (.accZero f) f → m ≠ 0#32 →
      let h := ((scl s f f.a).extractLsb' 0 4).toNat
      (∀ r, liveRes s.team h = some r → takesCommand s → Posts s (.accZero f) f { op := .accZero, writes := [h], rd := r.id }) ∧
      (∀ r n, liveRes s.team h = some r → commandReady s = true → mayPost s = false → freeFid s s.team.at_.site = some n →
        ∃ t, exec (.accZero f) s = .next t ∧ t.ply.wait = .fetch ∧ t.ply.pc = s.ply.pc ∧
          (clusterIn s t).cmds = (clusterHere s).cmds ∧
          ∃ p ∈ t.pendings, p.home = s.team.at_.site ∧ p.kind = 3 ∧
            .fetch s.team.uid s.weave.windex s.ply.n ∈ p.waiters) ∧
      (liveRes s.team h = none → exec (.accZero f) s = .next (takeTrap s 0x0A s.ply.pc [scl s f f.a] m))) ∧
    (∀ (i : Instr) (op : EngOp), (i = .accLd f ∧ op = .accLd) ∨ (i = .accSt f ∧ op = .accSt) → CanIssue s i f → m ≠ 0#32 →
      let d := scl s f f.d
      let h := (tileRef d).h
      let e (r : Resn) : EngCmd :=
        { op := op, rd := r.id, d := d, a := scl s f f.a, b := scl s f f.b, rows := scl s f f.c, cols := scl s f f.e
          shape := shapeOf f, rnd := f.rnd, type := f.type.toNat, sp := isSp f
          reads := if op = .accSt then [h] else [], writes := if op = .accSt then [] else [h], dry := s.team.run != .original }
      (∀ r, tileOk d false = true → liveRes s.team h = some r → isAccFmt r.fmt = true →
        (op = .accLd → tyOf f = accTy r.fmt) → (op = .accSt → (accStTypes r.fmt).contains (tyOf f) = true) →
        accRangeTrap s m (e r) r ((tyOf f).width / 8) = none → takesCommand s → Posts s i f (e r)) ∧
      (tileOk d false = true → liveRes s.team h = none → exec i s = .next (takeTrap s 0x0A s.ply.pc [d] m)))

/-- The arbiter's choice among the commands of a table: one that may be granted, of the highest rank, the oldest of
these. -/
def granted (cmds : List EngCmd) (e : EngCmd) : Prop :=
  ∃ k, cmds[k]? = some e ∧ grantable cmds k e = true ∧
    ∀ j x, cmds[j]? = some x → grantable cmds j x = true → x.rank < e.rank ∨ (x.rank = e.rank ∧ k ≤ j)

/-- R244, R248 to R253: a grant starts the chosen command, and an index list is complete at once; a command that has waited
16,384 cycles ranks highest; at the end of a started pass the accumulator holds its result, of the gathered lines as they
were at its grant, and the command leaves the
table with an engine event for each weave that posted it; a transfer likewise, here `acc.zero` and `obload` from the
scratchpad. -/
def Rules.MatrixEngine : Prop :=
  ∀ (s : State) (site phys : Nat), let q := park s
    let c := findCluster q site phys
    let cl (t : State) := findCluster t site phys
    (∀ cmds e, chooseGrant cmds = some e ↔ (granted cmds e)) ∧
    (c.scan ≠ .quarantined → c.waiting = [] → (∀ t ∈ q.teams, t.leaving = none) →
      ∀ e, chooseGrant c.cmds = some e → e.glist = none → e.op ≠ .obgath →
      ∃ t, exec (.engineGrant site phys) s = .next t ∧ t.mem = q.mem ∧
        (cl t).cmds = c.cmds.map (fun x => if x.id = e.id then { e with started := true } else x)) ∧
    (c.scan ≠ .quarantined → c.waiting = [] → (∀ t ∈ q.teams, t.leaving = none) →
      ∀ e, chooseGrant c.cmds = some e → e.op = .obgath →
      ∃ t, exec (.engineGrant site phys) s = .next t ∧ t.mem = q.mem ∧ (cl t).cmds = c.cmds.filter (·.id != e.id)) ∧
    (∀ id, ∃ t, exec (.commandAgePromotion site phys id) s = .next t ∧ t.mem = q.mem ∧
      (cl t).cmds = c.cmds.map (fun e => if e.id = id ∧ e.started = false ∧ e.posted + 16384 ≤ q.cyc
        then { e with promoted := true } else e)) ∧
    (∀ e team h rd ra, c.cmds.find? (fun e => e.started && e.op.isPass) = some e → findTeam q e.uid = some team →
      team.resns.getD h none = some rd → findRes q e.uid e.rd = some rd → (e.source.orElse fun _ => findRes q e.uid e.ra) = some ra →
      passBad e rd ra ((findRes q e.uid e.rb).getD ra) = false →
      ∃ t u, exec (.matrixPassEnd site phys) s = .next t ∧ t.mem = q.mem ∧ (cl t).cmds = c.cmds.filter (·.id != e.id) ∧
        findTeam t e.uid = some u ∧
        u.resns.getD h none = some (passResult e rd ra ((findRes q e.uid e.rb).getD ra)) ∧
        ∀ o ∈ e.owners, ∀ w, findWeave t o.1 o.2 = some w → w.evEngine = true) ∧
    (∀ e team h r, c.cmds.find? (fun e => e.started && !e.op.isPass && e.fid.isNone) = some e → findTeam q e.uid = some team →
      team.resns.getD h none = some r → findRes q e.uid e.rd = some r →
      e.op = .accZero ∨ (e.op = .obload ∧ e.sp = true ∧ e.depth ≠ 0#64 ∧ e.pos = 0) →
      ∃ t u, exec (.transferEnd site phys) s = .next t ∧ t.mem = q.mem ∧ (cl t).cmds = c.cmds.filter (·.id != e.id) ∧
        findTeam t e.uid = some u ∧
        u.resns.getD h none = some (if e.op = .accZero then zeroAcc r
          else r.put (e.b.extractLsb' 32 32).toNat (cellReadN team.scratch e.a.toNat e.depth.toNat)
            (teamScratchBad q e.uid e.a.toNat e.depth.toNat)) ∧
        ∀ o ∈ e.owners, ∀ w, findWeave t o.1 o.2 = some w → w.evEngine = true)

/-- R75, R76, R251, R252: a classical multiplication gives each element of its window that both masks and all windows
admit the rounded accumulation, chunk by chunk, of its old code and the products along depth, a masked or outside
position counting as +0; every other element keeps its code. -/
def Rules.MatrixProduct : Prop :=
  ∀ (rd ra rb : Resn) (td ta tb : TileRef) (n : Nat) (rows cols depth : DWord) (mode : Mode),
    isAccFmt rd.fmt = true → rd.recordOk = true → cellsWf rd.data = true →
    let r := mmResult rd ra rb none [] td ta tb n rows cols depth mode false
    let dep (k : Nat) : Prop := depth.getLsbD k = true ∧ ta.kor + k < ra.kdim ∧ tb.kor + k < rb.kdim
    let inside (i j : Nat) : Prop := i < n ∧ j < n ∧ rows.getLsbD i = true ∧ cols.getLsbD j = true ∧
      td.lor + i < rd.nlines ∧ td.kor + j < rd.kdim ∧ ta.lor + i < ra.nlines ∧ tb.lor + j < rb.nlines
    (∀ i j, inside i j → ∀ x y : Nat → Machine.Num,
      (∀ k < n, (dep k → x k = ra.value (ta.lor + i) (ta.kor + k) ∧ y k = rb.value (tb.lor + j) (tb.kor + k)) ∧
        (¬ dep k → x k = Machine.Num.zero ∧ y k = Machine.Num.zero)) →
      accCode r td i j = accumulate rd.fmt mode (pairRow ra.fmt).2 (accCode rd td i j)
        ((List.range n).map (fun k => product (splitOf ra.fmt rb.fmt) (x k) (y k))) % 256 ^ accBytes rd.fmt) ∧
    (∀ i j, ¬ inside i j → td.lor + i < rd.nlines → td.kor + j < rd.kdim → accCode r td i j = accCode rd td i j)
/-- R75, R76, R248 to R253: what the matrix engine does with its commands. -/
def Obligations.MatrixWork : Prop := Rules.MatrixEngine ∧ Rules.MatrixProduct

/-! ### Copies, remote operations, launches, signals -/

/-- i completes as `Completes`, but its accesses may have written memory. -/
structure GoesBy (s t : State) (i : Instr) (f : Fields) (ss : List Nat) : Prop where
  pc : t.ply.pc = afterPc s.ply.pc f
  ready : t.ply.wait = .none
  flags : t.weave.fpflags = s.weave.fpflags
  keeps : KeepsRegs s t i f [] ss []

/-- The handle h is outstanding in the issuing weave. -/
def outstanding (t : State) (h : Nat) : Prop := ∃ x ∈ t.weave.handles, x.h = h

/-- R102, R265 to R272: `xcopy` checks its descriptor, takes a handle and a promise, gives both to its pair and enters the
copy at the engine; `xwait` goes on when no handle of its set is outstanding, takes promise-missed when one has missed,
and waits else; `xwait.rn` gives a fresh promise, or all ones for a handle that names no copy. -/
def Obligations.Copies : Prop :=
  ∀ (s : State) (f : Fields),
    let m := activeLanes s f
    (CanIssue s (.xcopy f) f → m ≠ 0#32 → s.weave.handles.length < 32 → (clusterHere s).copies.length < 64 →
      commandReady s = true →
      let a := scl s f f.a
      let sp := f.variant.getLsbD 0
      (a.toNat % 8 = 0 → ∀ s0 d0 s1 d, readDwords s sp m a.toNat 1 = .ok s0 d0 →
        readDwords s0 sp m a.toNat (3 + 2 * (((d0.getD 0 0#64).extractLsb' 60 4).toNat + 1)) = .ok s1 d →
        copyTrap s1 m a d (copyOf d) = none → mayPost s = true →
        let u := (acceptCopy (spoilCopy s1 (copyOf d)) f (copyOf d)).1
        let odd := f.d.toNat - 0xC0 + 1
        HasRoom u (.xcopy f) f [.s (odd - 1) 0#64, .s odd 0#64] →
        ∃ t c p, exec (.xcopy f) s = .next t ∧ GoesBy s t (.xcopy f) f [odd - 1, odd] ∧ (∀ x, byteAt t x = byteAt s x) ∧
          sVal t (odd - 1) = p ∧ sVal t odd = BitVec.ofNat 64 s.weave.nextHandle ∧
          (∃ x ∈ t.weave.handles, x.h = s.weave.nextHandle ∧ x.copy = true ∧ x.promise = p) ∧
          (clusterIn s t).copies = (clusterHere s).copies ++ [c] ∧ c.h = s.weave.nextHandle ∧ c.promise = p ∧
          c.uid = s.team.uid ∧ c.windex = s.weave.windex ∧ c.dims = (copyOf d).dims ∧ c.sbase = (copyOf d).sbase ∧
          c.dbase = (copyOf d).dbase ∧ c.pos = 0 ∧
          (copyAllowance s1 s.team.at_.site = 0 → p = 0xFFFFFFFFFFFFFFFF#64)) ∧
      (a.toNat % 8 ≠ 0 → exec (.xcopy f) s = .next (takeTrap s 0x0B s.ply.pc [a] m))) ∧
    (CanIssue s (.xwait f) f →
      let out := s.weave.handles.filter (fun x => (xwaitSet s f m).contains x.h)
      (out = [] → ∃ t, exec (.xwait f) s = .next t ∧ Done (acquireAt s s.team.at_) t (.xwait f) f (afterPc s.ply.pc f)) ∧
      (out ≠ [] → (∀ x ∈ out, x.copy = true → cycHere s < x.promise.toNat) →
        exec (.xwait f) s = .next (stand s (.xwait (xwaitSet s f m)))) ∧
      (∀ x, x ∈ out → x.copy = true → x.promise.toNat ≤ cycHere s →
        (∀ y ∈ out, y.copy = true → y.promise.toNat ≤ cycHere s → y = x ∨ x.h < y.h) →
        exec (.xwait f) s = .next (takeTrap s 0x10 s.ply.pc (missedRecord s x) m))) ∧
    (CanIssue s (.xwaitRn f) f → m ≠ 0#32 →
      let h := (scl s f f.a).toNat % 2 ^ 32
      (findCopy s s.team.uid s.weave.windex h = none → HasRoom s (.xwaitRn f) f (sclWrite f.d 0#64) →
        ∃ t, exec (.xwaitRn f) s = .next t ∧ SclDone s t (.xwaitRn f) f 0xFFFFFFFFFFFFFFFF#64) ∧
      (∀ k c, findCopy s s.team.uid s.weave.windex h = some (k, c) →
        HasRoom (renewCopy s k c).1 (.xwaitRn f) f (sclWrite f.d 0#64) →
        ∃ t, exec (.xwaitRn f) s = .next t ∧ Completes s t (.xwaitRn f) f (sName f) ∧ answers t f (renewCopy s k c).2))

/-- The operand values of a remote operation (R273, R274): remote and local address, length in bytes. -/
def remoteArgs (s : State) (f : Fields) : Nat → RemoteArgs
  | 0 => { kind := 0, remote := (scl s f f.a).toNat, loc := (scl s f f.b).toNat, n := (scl s f f.c).toNat
           locN := (scl s f f.c).toNat, ctl := scl s f f.f }
  | 1 => { kind := 1, remote := (scl s f f.b).toNat, loc := (scl s f f.a).toNat, n := (scl s f f.c).toNat
           locN := (scl s f f.c).toNat, ctl := scl s f f.f }
  | 2 => { kind := 2, remote := (scl s f f.a).toNat, loc := (scl s f f.b).toNat
           n := (scl s f f.c).toNat * elemBytes f, locN := (scl s f f.c).toNat * elemBytes f, ctl := scl s f f.f }
  | _ => { kind := 3, remote := (scl s f f.a).toNat, loc := (scl s f f.e).toNat, n := elemBytes f, locN := 8
           ctl := if f.f = 0xF0#8 then 0#64 else scl s f f.f
           operand := if f.b = 0xF0#8 then 0#64 else scl s f f.b, compare := if f.c = 0xF0#8 then 0#64 else scl s f f.c }

/-- R265, R273 to R276: a remote operation with operands in order takes a handle of the weave, gives it to D, and is held
at the endpoint of its site with its range cut at lines; it waits while the weave holds 32 handles, and an operand out of
order raises engine-operand, misaligned-access, window-miss or scratch-range, in this order. -/
def Obligations.RemoteOperations : Prop :=
  ∀ (s : State) (f : Fields) (i : Instr) (k : Nat),
    (i, k) ∈ [(Instr.xput f, 0), (.xget f, 1), (.xred f, 2), (.xatom f, 3)] → CanIssue s i f →
    let m := activeLanes s f
    let x := remoteArgs s f k
    let count := if k = 3 then 0#64 else scl s f f.c
    let u := (postRemote (spoil s) f x).1
    m ≠ 0#32 →
    (s.weave.handles.length < 32 → (s.remotes.filter (·.site == s.team.at_.site)).length < 256 → commandReady s = true →
      (remoteTrap s f m x count = none → s.focused = true → HasRoom u i f (sclWrite f.d 0#64) →
        ∃ t, exec i s = .next t ∧ GoesBy s t i f (sName f) ∧ answers t f (BitVec.ofNat 64 s.weave.nextHandle) ∧
          (x.kind ≠ 1 ∨ x.n ≠ 0 → (∀ o ∈ s.remotes, o.id ≠ s.nextId) → outstanding t s.weave.nextHandle ∧
            ∃ o ∈ t.remotes, o.id = s.nextId ∧ o.kind = x.kind ∧ o.h = s.weave.nextHandle ∧ o.uid = s.team.uid ∧
              o.windex = s.weave.windex ∧ o.lines.map (fun l => (l.va, l.len)) = linePiecesOf x.remote x.n) ∧
          (x.kind = 1 → x.n = 0 → t.weave.evEngine = true)) ∧
      (∀ c info, remoteTrap s f m x count = some (c, info) → exec i s = .next (takeTrap s c s.ply.pc info m))) ∧
    (32 ≤ s.weave.handles.length → exec i s = .next (stand s .retry))

/-- D holds what an answer says: of `launch.w` the child's number, or bit 63 and the reason; of `launch.l` number and status
of each lane (R277). -/
def tells (t : State) (f : Fields) (m : LaneMask) (ans : LaunchAns) : Prop :=
  let of_ (j : Nat) : Option (Nat × Nat) := assoc? j (ans.results.map (fun r => (r.1, (r.2.1, r.2.2))))
  (ans.req.perLane = false → ∀ n st, of_ (lowestLane m) = some (n, st) →
    answers t f (if st = 0 then BitVec.ofNat 64 n else BitVec.ofNat 64 (2 ^ 63 + st))) ∧
  (ans.req.perLane = true → ∀ j < 32, inMask m j = true → ∀ n st, n < 2 ^ 32 → st < 2 ^ 32 → of_ j = some (n, st) →
    vLane t f.d.toNat j = BitVec.ofNat 32 n ∧ vLane t (f.d.toNat + 1) j = BitVec.ofNat 32 st)

/-- R277, R282, R283: a launch instruction sends its request, from then on has its destination mapped and pending (the
model's choice of log 107), and stands at its pc until the owner's answer is there (log 46); a destination above the peak, or beyond its
pool, sends nothing; then `launch.w` gives D the child's number, or bit 63 and the reason, and `launch.l` each selected
lane the number and the status; it waits while the graph processor has no room for its requests (log 98); `gsig` gives
D the status of its signal and sets the signal latches of a resident team, or adds to the count of the node at its address
(log 52); `evrec` stores dword 1, takes `cyc` when that store is performed, in its own step or at the
end of the one in which it is (log 53), and stores it as dword 0. -/
def Obligations.LaunchesAndSignals : Prop :=
  ∀ (s : State) (f : Fields),
    let m := activeLanes s f
    (∀ i perLane, (i = .launchW f ∧ perLane = false) ∨ (i = .launchL f ∧ perLane = true) → CanIssue s i f → m ≠ 0#32 →
      ((∀ x ∈ s.launchAns, x.req.mine s = false) → (∀ r ∈ s.launchReqs, r.mine s = false) → commandReady s = true →
        (64 < requestsOf s s.team.at_.site + (launchLanes perLane m).length → exec i s = .next (stand s .retry)) ∧
        (requestsOf s s.team.at_.site + (launchLanes perLane m).length ≤ 64 →
          (overPeak s (launchDst f perLane) = true → exec i s = .next (takeTrap s 0x05 s.ply.pc [BitVec.setWidth 64 f.d] m)) ∧
          (overPeak s (launchDst f perLane) = false → overPool s (launchDst f perLane) = true →
            ∃ t, exec i s = .next t ∧ t.ply.wait = .retry ∧ t.ply.pc = s.ply.pc ∧ t.launchReqs = s.launchReqs) ∧
          (overPeak s (launchDst f perLane) = false → overPool s (launchDst f perLane) = false →
            ∃ t r, exec i s = .next t ∧ t.launchReqs = s.launchReqs ++ [r] ∧ r.mine s = true ∧ r.parent = s.team.launch ∧
              r.perLane = perLane ∧ r.fields = f ∧ t.ply.wait = .launch ∧ t.ply.pc = s.ply.pc ∧
              r.items = ((if perLane then lanesOf m else [lowestLane m]).map (fun j =>
                (j, launchVal s f m f.a j, launchVal s f m f.b j))) ∧
              (launchCodes f perLane ≠ [] → ∃ p ∈ t.weave.pends, p.ply = s.ply.n ∧ p.codes = launchCodes f perLane)))) ∧
      (∀ ans, s.launchAns.find? (fun x => x.req.mine s) = some ans → ans.limit = false → ans.req.perLane = perLane →
        HasRoom s i f (launchWrites f m ans) →
        ∃ t, exec i s = .next t ∧ t.ply.pc = afterPc s.ply.pc f ∧ t.ply.wait = .none ∧
          (∀ x ∈ t.launchAns, x.req.tag ≠ ans.req.tag) ∧ (∀ a, byteAt t a = byteAt s a) ∧ tells t f m ans)) ∧
    (CanIssue s (.launchW f) f → m = 0#32 → HasRoom s (.launchW f) f (sclWrite f.d 0#64) →
      ∃ t, exec (.launchW f) s = .next t ∧ Completes s t (.launchW f) f (sName f) ∧ answers t f 0xFFFFFFFFFFFFFFFF#64) ∧
    (CanIssue s (.launchL f) f → m = 0#32 →
      ∃ t, exec (.launchL f) s = .next t ∧ Done s t (.launchL f) f (afterPc s.ply.pc f)) ∧
    (let x := scl s f f.a
     let lix := (x.extractLsb' 0 32).toNat
     CanIssue s (.gsig f) f → m ≠ 0#32 → commandReady s = true →
      (∀ l, x.extractLsb' 32 32 = 0#32 → findLaunch s s.team.launch = some l →
        HasRoom (signalTeam (spoil s) lix).1 (.gsig f) f (sclWrite f.d 0#64) →
        ∃ t, exec (.gsig f) s = .next t ∧ Completes s t (.gsig f) f (sName f) ∧
          answers t f (if l.nx * l.ny * l.nz ≤ lix then 1#64 else if l.ended.contains lix = true then 2#64 else 0#64) ∧
          (lix < l.nx * l.ny * l.nz → l.ended.contains lix = false → lix = s.team.lix → s.team.run = .original →
            t.weave.evSignal = true ∧ ∀ w ∈ t.team.weaves, w.evSignal = true)) ∧
      (x.extractLsb' 62 2 = 1#2 → x.extractLsb' 56 6 = 0#6 → (x.extractLsb' 0 56).toNat % 8 = 0 →
        windowMiss (winsHere s) (x.extractLsb' 0 56).toNat 52 = none →
        let u := signalNode (spoil s) m (x.extractLsb' 0 56).toNat (scl s f f.b)
        HasRoom u (.gsig f) f (sclWrite f.d 0#64) →
        ∃ t, exec (.gsig f) s = .next t ∧ GoesOn u t f (afterPc s.ply.pc f) 0#7 ∧ answers t f 0#64 ∧
          KeepsRegs s t (.gsig f) f [] (sName f) [])) ∧
    (let a := (scl s f f.a).toNat
     CanIssue s (.evrec f) f → m ≠ 0#32 → a % 16 = 0 → windowMiss (winsHere s) a 16 = none → commandReady s = true →
      let tag := (scl s f f.b).toNat % 2 ^ 32
      let u := storeDword (spoil s) m (a + 8) (BitVec.ofNat 64 (tag * 2 ^ 32 + s.team.at_.site * 2 ^ 24)) 1
      (evPerformed u s.team.uid s.weave.windex s.ply.n = true → ∃ t, exec (.evrec f) s = .next t ∧
        Done (storeDword u m a (BitVec.ofNat 64 (cycHere u)) 3) t (.evrec f) f (afterPc s.ply.pc f)) ∧
      (evPerformed u s.team.uid s.weave.windex s.ply.n = false → exec (.evrec f) s = .next (stand u (.evrec a f)))) ∧
    (evDue (park s) = [] → sampleEvs s = s) ∧
    (∀ uid windex n a g, evDue (park s) = [(uid, windex, n)] →
      let v := focusOn (park s) uid windex n
      v.ply.wait = .evrec a g → ∃ t, sampleEvs s = park t ∧
        Done (storeDword v (activeLanes v g) a (BitVec.ofNat 64 (cycHere v)) 3) t (.evrec g) g (afterPc v.ply.pc g))

/-! ### System instructions -/

/-- R299 to R303, R311, R312: at system level `rdpv` reads and `wrpv` writes a privileged register; a handler address
that no instruction may have raises illegal-instruction; `eret` gives back the level that `tcause` saved, leaves the
handler, goes on at `epc` and lets every ply issue; outside a handler it raises illegal-instruction; `rwin.rd` reads
the selected window register of the context, and `rwin.wr` writes it, at once where no other site hosts the context, and
else, in messages of class 6, when every such site has acknowledged it (that it then takes effect everywhere in one step,
and that a second write waits for the first, is the model's choice of log 74). -/
def Obligations.PrivilegedRegisters : Prop :=
  ∀ (s : State) (f : Fields),
    let m := activeLanes s f
    let w := s.weave
    let x := scl s f f.a
    (SclRule s (.rdpv f) f (readPv s f.a.toNat) ∧ readPv s 0 = w.pstat ||| (if s.hookEnabled = true then 0x80#64 else 0#64) ∧ readPv s 1 = tvecNow s ∧ readPv s 2 = epcNow s ∧ readPv s 3 = w.tcause ∧
      (∀ k < 4, readPv s (4 + k) = w.tinfo.getD k 0#64) ∧ (∀ k < 2, readPv s (8 + k) = tscrNow s k) ∧
      readPv s 10 = BitVec.ofNat 64 s.team.ctx ∧ readPv s 11 = BitVec.ofNat 64 s.team.at_.unit) ∧
    -- instructions of the clock of a `wrpv` still see the values before it (R311)
    ((∀ o, w.pvOld = some o → o.clk ≠ s.clk) → tvecNow s = w.tvec ∧ epcNow s = w.epc ∧ ∀ k, tscrNow s k = w.tscr.getD k 0#64) ∧
    (∀ o, w.pvOld = some o → o.clk = s.clk → tvecNow s = o.tvec ∧ epcNow s = o.epc ∧ ∀ k, tscrNow s k = o.tscr.getD k 0#64) ∧
    (m ≠ 0#32 →
      let v : Weave := { w with pvOld := some { clk := s.clk, tvec := tvecNow s, epc := epcNow s, tscr := [tscrNow s 0, tscrNow s 1] } }
      (f.d = 1#8 → tvecOk x = true → DoneRule s (.wrpv f) f { s with weave := { v with tvec := x &&& 0x80FFFFFFFFFFFFFF#64 } } (afterPc s.ply.pc f)) ∧
      (f.d = 1#8 → x.getLsbD 63 = true → ((x.extractLsb' 0 56).toNat % 4 ≠ 0 ∨ (x.extractLsb' 0 56).toNat % 32 = 28) →
        CanIssue s (.wrpv f) f → exec (.wrpv f) s = .next (takeTrap s 0x01 s.ply.pc [baseWord 0xF9 f] m)) ∧
      (f.d = 2#8 → DoneRule s (.wrpv f) f { s with weave := { v with epc := x } } (afterPc s.ply.pc f)) ∧
      (f.d = 8#8 → DoneRule s (.wrpv f) f { s with weave := { v with tscr := w.tscr.set 0 x } } (afterPc s.ply.pc f)) ∧
      (f.d = 9#8 → DoneRule s (.wrpv f) f { s with weave := { v with tscr := w.tscr.set 1 x } } (afterPc s.ply.pc f))) ∧
    (CanIssue s (.eret f) f →
      (w.pstat.getLsbD 4 = true → ∃ t, exec (.eret f) s = .next t ∧ t.ply.pc = epcNow s ∧ t.ply.mask = s.ply.mask ∧
        t.ply.wait = .none ∧ t.weave.pstat.getLsbD 0 = w.tcause.getLsbD 55 ∧ t.weave.pstat.getLsbD 4 = false ∧
        (∀ b, b ≠ 0 → b ≠ 4 → t.weave.pstat.getLsbD b = w.pstat.getLsbD b) ∧ (∀ p ∈ t.weave.plies, p.stopped = false) ∧
        t.weave.epc = w.epc ∧ t.weave.tcause = w.tcause ∧ t.weave.tvec = w.tvec ∧ t.weave.tinfo = w.tinfo ∧
        KeepsRegs s t (.eret f) f [] [] [] ∧ ∀ a, byteAt t a = byteAt s a) ∧
      (w.pstat.getLsbD 4 = false → exec (.eret f) s = .next (takeTrap s 0x01 s.ply.pc [baseWord 0xFA f] m))) ∧
    (m ≠ 0#32 → ∀ kind n, winSelect x = some (kind, n) →
      let win := (findCtx s s.team.ctx).windows.getD n {}
      SclRule s (.rwinRd f) f (if kind = 0 then win.wva else if kind = 1 then win.wia else win.wset) ∧
      (let y := if f.b = 0xFB#8 then f.imm32.setWidth 64 else scl s f f.b
       let c := findCtx s s.team.ctx
       let free : Prop := ∀ x, c.winWrite = some x → x.own s = false ∧ x.done = true
       (∀ v, free → winWrite win kind y = some v → otherHosts s = [] → DoneRule s (.rwinWr f) f
        (onCtx s s.team.ctx (fun c => { c with windows := c.windows.set n v, gen := c.gen + 1 })) (afterPc s.ply.pc f)) ∧
       (∀ v, free → winWrite win kind y = some v → otherHosts s ≠ [] → CanIssue s (.rwinWr f) f →
        ∃ t x, exec (.rwinWr f) s = .next t ∧ t.ply.wait = .retry ∧ t.ply.pc = s.ply.pc ∧
          (findCtx t s.team.ctx).winWrite = some x ∧ x.n = n ∧ x.win = v ∧ x.left = otherHosts s ∧ x.own t = true ∧
          (findCtx t s.team.ctx).windows = c.windows ∧
          ∀ h ∈ otherHosts s, ∃ p ∈ t.packets, p.src = s.team.at_.site ∧ p.dst = h ∧ p.cls = 6 ∧ p.acc = x.id) ∧
       (∀ x, c.winWrite = some x → x.own s = true → x.done = true → DoneRule s (.rwinWr f) f
        (onCtx s s.team.ctx (fun c => { c with winWrite := none })) (afterPc s.ply.pc f)) ∧
       (∀ x, c.winWrite = some x → x.done = false → CanIssue s (.rwinWr f) f → exec (.rwinWr f) s = .next (stand s .retry)) ∧
       (free → winWrite win kind y = none → CanIssue s (.rwinWr f) f →
        exec (.rwinWr f) s = .next (takeTrap s 0x01 s.ply.pc [baseWord 0xFB f] m)))) ∧
    (m ≠ 0#32 → winSelect x = none → CanIssue s (.rwinRd f) f →
      exec (.rwinRd f) s = .next (takeTrap s 0x01 s.ply.pc [baseWord 0xFB f] m))

/-- R313 to R317: `ctxsv` answers its status, and saves the team that owns the named weave once it has left; `ctxld`
answers its status and queues the image's team; `scanpass` runs a stored set on a drained unit, and a failing one has the
consequences of R364 (the model's reading of log 63); `assay.ctl` reads, sets, arms and disarms a unit, its status in the
order of log 68; `halt.core` ends its weave and takes the core out of service, after the release of an open `fence.spec`
(log 91), or raises illegal-instruction while another weave is resident. -/
def Obligations.SystemUnits : Prop :=
  ∀ (s : State) (f : Fields),
    let m := activeLanes s f
    let a := (scl s f f.a).toNat
    let room (i : Instr) := HasRoom s i f (sclWrite f.d 0#64)
    (CanIssue s (.ctxsv f) f → m ≠ 0#32 →
      let target := ctxsvTarget s a ((scl s f f.b).toNat % 256)
      (∀ n, target = .error n → room (.ctxsv f) → ∃ t, exec (.ctxsv f) s = .next t ∧ SclDone s t (.ctxsv f) f (BitVec.ofNat 64 n)) ∧
      (∀ u, target = .ok u → u.leaving = none →
        exec (.ctxsv f) s = .next (stand (askLeave s (·.uid == u.uid) 3) .saving)) ∧
      (∀ u, target = .ok u → u.leaving ≠ none → u.leaving ≠ some 3 ∨ teamQuiet s u = false →
        exec (.ctxsv f) s = .next (stand s .saving)) ∧
      (∀ u s1, target = .ok u → u.leaving = some 3 → teamQuiet s u = true → paySave s u.uid false = (s1, false) →
        exec (.ctxsv f) s = .next (stand s1 .saving)) ∧
      (∀ u s1 v done, target = .ok u → u.leaving = some 3 → teamQuiet s u = true → paySave s u.uid false = (s1, true) →
        saveTo s1 u.uid 3 [u.uid] [] false (fun s1 n => virtualPages s1 a n) = (v, done) →
        let z := if done then v else onTeams s1 (·.uid == u.uid) (fun t => { t with leaving := none })
        HasRoom z (.ctxsv f) f (sclWrite f.d 0#64) →
        ∃ t, exec (.ctxsv f) s = .next t ∧ GoesOn z t f (afterPc s.ply.pc f) 0#7 ∧ answers t f (if done then 0#64 else 1#64))) ∧
    (CanIssue s (.ctxld f) f → m ≠ 0#32 →
      let read (u : State) (ps : List Nat) := readPages u (activityMaster s.team.at_.unit s.team.ctx) s.team.at_.site ps
      (a % 4096 ≠ 0 → room (.ctxld f) → ∃ t, exec (.ctxld f) s = .next t ∧ SclDone s t (.ctxld f) f 1#64) ∧
      (∀ p1 s1 head b1 ps s2 img l y, a % 4096 = 0 → virtualPages s a 1 = some p1 → read s p1 = .ok (s1, head, b1) →
        virtualPages s a (ceilDiv (imgAt head 8 8) 4096) = some ps → read s1 ps = .ok (s2, img, false) →
        imageOwner s2 s.team.ctx head = some (l, y) → imageFits y.kept img = true →
        let u := onLaunch s2 l.key (fun l => { l with suspended := l.suspended.map (fun z =>
          if z.uid = y.uid then { z with pages := ps, pool := false, held := false, site := s.team.at_.site, since := s.cyc }
          else z) })
        HasRoom u (.ctxld f) f (sclWrite f.d 0#64) →
        ∃ t, exec (.ctxld f) s = .next t ∧ GoesOn u t f (afterPc s.ply.pc f) 0#7 ∧ answers t f 0#64)) ∧
    (∀ (i : Instr) (u : UnitId) (drained : Bool),
      (i = .scanpassCore f ∧ u = ⟨s.team.at_.site, s.team.at_.cluster, false, s.team.at_.core⟩ ∧
        drained = ((coreWeaves s s.team.at_).isEmpty && s.team.weaves.all (·.ended))) ∨
      (i = .scanpassEngine f ∧ u = ⟨s.team.at_.site, s.team.at_.cluster, true, 0⟩ ∧
        drained = ((clusterHere s).cmds.isEmpty && (clusterHere s).scan != .serve)) →
      CanIssue s i f → m ≠ 0#32 → room i →
      let stored := Config.scanSets s.scanRec (a % 256)
      let r := scanRun s u (a % 256)
      let v := spend (tick s) u.site 0 { issue := 1 }
      (stored = false → ∃ t, exec i s = .next t ∧ SclDone s t i f 3#64) ∧
      (stored = true → drained = false → ∃ t, exec i s = .next t ∧ SclDone s t i f 2#64) ∧
      (stored = true → drained = true → mayUse s u.site 0 { issue := 1 } = true → r = 0 → HasRoom v i f (sclWrite f.d 0#64) →
        ∃ t, exec i s = .next t ∧ SclDone v t i f 0#64) ∧
      (stored = true → drained = true → mayUse s u.site 0 { issue := 1 } = true → r ≠ 0 →
        let z := whileParked v (fun t => scanFailed t u (a % 256) (r - 1))
        HasRoom z i f (sclWrite f.d 0#64) →
        ∃ t, exec i s = .next t ∧ SclDone z t i f (BitVec.ofNat 64 (1 + (r - 1) * 256))) ∧
      (stored = true → drained = true → mayUse s u.site 0 { issue := 1 } = false → exec i s = .next (stand s .retry))) ∧
    (let x := scl s f f.a
     let u := unitIdOf x.toNat
     let live := unitExists u = true ∧ unitScan s u ≠ .quarantined
     unitReserved x = false → m ≠ 0#32 →
      (live → SclRule s (.assayCtlRd f) f (BitVec.ofNat 64 (unitScore s u))) ∧
      (¬ live → SclRule s (.assayCtlRd f) f 2#64 ∧ SclRule s (.assayCtlWr f) f 2#64 ∧ SclRule s (.assayCtlArm f) f 2#64 ∧
        SclRule s (.assayCtlDisarm f) f 2#64) ∧
      (live → CanIssue s (.assayCtlWr f) f →
        let v := whileParked s (fun t => changeScore t u ((scl s f f.b).toNat % 256))
        HasRoom v (.assayCtlWr f) f (sclWrite f.d 0#64) →
        ∃ t, exec (.assayCtlWr f) s = .next t ∧ GoesOn v t f (afterPc s.ply.pc f) 0#7 ∧ answers t f 0#64 ∧
          unitScore t u = (scl s f f.b).toNat % 256) ∧
      (live → s.hookEnabled = false → SclRule s (.assayCtlArm f) f 1#64) ∧
      (live → s.hookEnabled = true → u.engine = true → SclRule s (.assayCtlArm f) f 3#64) ∧
      (live → s.hookEnabled = true → u.engine = false → CanIssue s (.assayCtlArm f) f → room (.assayCtlArm f) →
        ∃ t, exec (.assayCtlArm f) s = .next t ∧ Completes s t (.assayCtlArm f) f (sName f) ∧ answers t f 0#64 ∧
          (findCore t u.coreId).hook = some ((scl s f f.b).setWidth 32)) ∧
      (live → CanIssue s (.assayCtlDisarm f) f → room (.assayCtlDisarm f) →
        ∃ t, exec (.assayCtlDisarm f) s = .next t ∧ Completes s t (.assayCtlDisarm f) f (sName f) ∧ answers t f 0#64 ∧
          (u.engine = false → (findCore t u.coreId).hook = none))) ∧
    (CanIssue s (.haltCore f) f →
      (coreWeaves s s.team.at_ = [] → (∀ w ∈ s.team.weaves, w.ended = true) → (∃ p ∈ s.ply :: s.weave.plies, p.fence ≠ none) →
        exec (.haltCore f) s = .next (stand s .retry)) ∧
      (coreWeaves s s.team.at_ = [] → (∀ w ∈ s.team.weaves, w.ended = true) → (∀ p ∈ s.ply :: s.weave.plies, p.fence = none) →
        s.focused = true → s.weave.ended = false →
        ∃ t, exec (.haltCore f) s = .next t ∧ (findCore t s.team.at_).halted = true ∧ t.focused = false ∧
          ∀ a, byteAt t a = byteAt s a) ∧
      (coreWeaves s s.team.at_ ≠ [] → exec (.haltCore f) s = .next (takeTrap s 0x01 s.ply.pc [baseWord 0xFF f] m)))

/-! ### Steps between instructions: plies and weaves -/

/-- The named ply, its weave and its team in a parked state. -/
structure Stands (q : State) (uid windex n : Nat) (t : Team) (w : Weave) (p : Ply) : Prop where
  team : findTeam q uid = some t
  weave : t.weaves.find? (·.windex == windex) = some w
  ply : w.plies.find? (·.n == n) = some p

/-- R27, R117, R173 to R176, R271: a ready ply that the others have passed 32 times is due; a `yield` ends at its clock;
`sleep.until` wakes at its deadline or when its copy is complete; `sleep.ev` wakes with the selected latches that are set
and its watch, clears exactly those latches, and wakes with no event when its bound is reached; a program timestamp ages
by one in 256 cycles; a wait on a copy whose promise has passed takes promise-missed. Before its condition holds each of
these steps changes nothing. -/
def Obligations.PlyTurnsAndWaits : Prop :=
  ∀ (s : State) (uid windex n : Nat) (t : Team) (w : Weave) (p : Ply),
    let q := park s
    let becomes (f : Ply → Ply) : Host.Outcome State Fault Refusal := .next (onPly q uid windex n f)
    Stands q uid windex n t w p →
    (p.isReady = true → 32 ≤ p.passed → p.dueAt = none →
      exec (.plyDue uid windex n) s = becomes (fun p => p.markDue q.steps) ∧ p.markDue q.steps = { p with dueAt := some q.steps }) ∧
    (p.passed < 32 → exec (.plyDue uid windex n) s = .next q) ∧
    (∀ wake, p.wait = .yield wake →
      (wake ≤ q.clk → exec (.yieldExpiry uid windex n) s = becomes (fun p => { p with wait := .none })) ∧
      (q.clk < wake → exec (.yieldExpiry uid windex n) s = .next q)) ∧
    (∀ d h, p.wait = .sleepUntil d h →
      let gone := ∃ k, h = some k ∧ ∀ x ∈ w.handles, x.h = k → x.copy = false
      (d.toNat ≤ cycAt q t.at_.site ∨ gone →
        exec (.sleepUntilWake uid windex n) s = becomes (fun p => { p with wait := .woken ((h.map (· + 1)).getD 0) })) ∧
      (cycAt q t.at_.site < d.toNat → ¬ gone → exec (.sleepUntilWake uid windex n) s = .next q)) ∧
    (∀ sel wake watch d, p.wait = .sleepEv sel wake watch d →
      let e := bit sel 0 && w.evEngine
      let g := bit sel 1 && w.evSignal
      let h := watch.isSome && watchHit q uid windex n
      ((e || g || h) = true → ∃ u w' p', exec (.sleepEvWake uid windex n) s = .next u ∧
        findWeave u uid windex = some w' ∧ plyAt u uid windex n = some p' ∧
        p'.wait = .woken (e.toNat + 2 * g.toNat + 4 * h.toNat) ∧ p'.pc = p.pc ∧ p'.mask = p.mask ∧
        w'.evEngine = (w.evEngine && !e) ∧ w'.evSignal = (w.evSignal && !g) ∧ w'.map = w.map ∧ u.mem = q.mem ∧
        watchHit u uid windex n = false) ∧
      ((e || g || h) = false → exec (.sleepEvWake uid windex n) s = .next q) ∧
      (wake ≤ cycAt q t.at_.site → ∃ u p', exec (.sleepEvTimeout uid windex n) s = .next u ∧
        plyAt u uid windex n = some p' ∧ p'.wait = .woken 0 ∧ p'.pc = p.pc ∧ u.mem = q.mem ∧
        ∀ x ∈ u.watches, ¬ (x.uid = uid ∧ x.windex = windex ∧ x.ply = n)) ∧
      (cycAt q t.at_.site < wake → exec (.sleepEvTimeout uid windex n) s = .next q)) ∧
    ((p.ptsAt + 256 ≤ q.cyc →
        exec (.ptsAgeTick uid windex n) s = becomes (fun p => { p with pts := p.pts + 1, ptsAt := p.ptsAt + 256 })) ∧
      (q.cyc < p.ptsAt + 256 → exec (.ptsAgeTick uid windex n) s = .next q)) ∧
    (∀ hs x, let f := focusOn q uid windex n
      p.wait = .xwait hs → p.stopped = false → x ∈ w.handles → x.h ∈ hs → Handle.missed f x = true →
      (∀ y ∈ w.handles, y.h ∈ hs → Handle.missed f y = true → y = x ∨ x.h < y.h) →
      exec (.promiseMissed uid windex n) s = .next (park (takeTrap f 0x10 p.pc (missedRecord f x) p.mask)))

/-- Part of an activity, under a key, uses its class; the whole of it happens once its need is met (R337). -/
def paid (q : State) (key : Nat × Nat × Nat) (site cls bytes : Nat) (f : State → State) : State :=
  let x := payOn q key site cls (bytesUse bytes)
  if x.2 then f (endPayment x.1 key) else x.1

/-- R48, R53, R93, R337: a weave that stalls for a register makes the core spill the weave admitted last of those with no
ready ply that hold more than their floor in a pool it finds empty; a spilled weave comes back when the pools hold it
again, with what its register spill area holds, and the save class pays for both; the deferral of a pre-emption ends when no volatile name is mapped,
after 256 issues, or after 16,384 cycles. -/
def Rules.RegisterPools : Prop :=
  ∀ (s : State) (uid windex : Nat) (t : Team) (w : Weave),
    let q := park s
    let area (spans : List (Nat × Nat)) : Nat := spans.foldl (fun acc x => acc + x.2) 0
    findTeam q uid = some t → findWeave q uid windex = some w →
    (∀ st, w.stalled = some st → ∀ u ∈ residents q t.at_, ∀ v ∈ u.live, isVictim t u w v st = true →
      (∀ u' ∈ residents q t.at_, ∀ v' ∈ u'.live, isVictim t u' w v' st = true →
        v'.admitted < v.admitted ∨ (u'.uid = u.uid ∧ v'.windex = v.windex)) →
      exec (.registerAllocationStall uid windex) s = .next (paid q (1, u.uid, v.windex) t.at_.site 5
        (area (((findWeave q u.uid v.windex).map areaSpans).getD [])) (fun x => evictWeave x u.uid v.windex))) ∧
    (∀ u k x, findWeave q u k = some x → ∀ y, findWeave (evictWeave q u k) u k = some y → y.evicted = true) ∧
    (∀ u v st, isVictim t u w v st = true → v.ended = false ∧ v.evicted = false ∧ ¬ (u.uid = t.uid ∧ v.windex = w.windex) ∧
      (v.stalled ≠ none ∨ ∀ p ∈ v.plies, p.isReady = false) ∧
      ((st.vec = true ∧ v.part = w.part ∧ u.kernel.vfloor < vHeld v v.plies) ∨
        (st.scl = true ∧ u.kernel.sfloor < sHeld v v.plies))) ∧
    (w.stalled = none → exec (.registerAllocationStall uid windex) s = .next q) ∧
    (let room := (otherTaken q t w).1 + max t.kernel.vfloor (vHeld w w.plies) ≤ vPoolSize ∧
      (otherTaken q t w).2 + max t.kernel.sfloor (sHeld w w.plies) ≤ sPoolSize
     (w.evicted = true → room →
        exec (.refillWeave uid windex) s =
          .next (paid q (2, uid, windex) t.at_.site 5 (area (areaSpans w)) (fun x => refillWeave x uid windex))) ∧
      (w.evicted = false ∨ ¬ room → exec (.refillWeave uid windex) s = .next q) ∧
      (∀ u img x, readArea q t w = .ok (u, img) → findWeave u uid windex = some x →
        findWeave (refillWeave q uid windex) uid windex = some (fromArea x u.nextId img))) ∧
    (∀ n img, (fromArea w n img).evicted = false ∧
      (fromArea w n img).map = readMap w.vSlots w.sSlots n img 0 areaVectors areaScalars) ∧
    (∀ d, w.defer = some d →
      let over_ := volMapped t.kernel w = false ∨ 256 ≤ d.issued ∨ d.since + 16384 ≤ q.cyc
      (over_ → exec (.volatileDeferralEnd uid windex) s = .next (onWeave q uid windex (fun x => { x with defer := none }))) ∧
      (¬ over_ → exec (.volatileDeferralEnd uid windex) s = .next q))

/-- R103, R265, R270, R275, R419: a copy whose last element has been handed over and has moved leaves the engine, its handle is free and the weave's
engine event is set; the last element of a copy within the scratchpad carries its bytes; a remote operation whose lines
are all performed leaves the endpoint in the same way. -/
def Rules.CopyAndRemoteCompletion : Prop :=
  ∀ (s : State),
    let q := park s
    (∀ site phys id c w, q.remotes = [] → (findCluster q site phys).copies.find? (·.id == id) = some c → c.fid = none →
      findWeave q c.uid c.windex = some w →
      (c.handed < c.total → exec (.copyComplete site phys id) s = .next q) ∧
      (c.total ≤ c.handed → c.total ≤ c.pos → ∃ u w', exec (.copyComplete site phys id) s = .next u ∧
        (∀ x ∈ (findCluster u site phys).copies, x.id ≠ id) ∧ findWeave u c.uid c.windex = some w' ∧
        (∀ x, x ∈ w'.handles ↔ x ∈ w.handles ∧ x.h ≠ c.h) ∧ w'.evEngine = true ∧ w'.map = w.map ∧ u.mem = q.mem) ∧
      (c.total ≤ c.handed → c.total = c.pos + 1 → assoc? c.pos c.out = none → c.ssp = true → c.dsp = true → ∀ t, findTeam q c.uid = some t → cellsWf t.scratch = true →
        ∃ u t', exec (.copyComplete site phys id) s = .next u ∧ findTeam u c.uid = some t' ∧ u.mem = q.mem ∧
          (∀ x ∈ (findCluster u site phys).copies, x.id ≠ id) ∧
          ∀ a, cellRead t'.scratch a = if c.dst c.pos ≤ a ∧ a < c.dst c.pos + 2 ^ c.lgel then
            cellRead t.scratch (c.src c.pos + (a - c.dst c.pos)) else cellRead t.scratch a)) ∧
    (∀ o w, q.remotes = [o] → o.complete = true → findWeave q o.uid o.windex = some w →
      ∃ u w', exec (.remoteOpComplete o.id) s = .next u ∧ u.remotes = [] ∧ findWeave u o.uid o.windex = some w' ∧
        (∀ x, x ∈ w'.handles ↔ x ∈ w.handles ∧ x.h ≠ o.h) ∧ w'.evEngine = true ∧ w'.map = w.map ∧ u.mem = q.mem)

/-- R48, R53, R103, R265, R270, R275: spills, deferrals, and the completion of copies and remote operations. -/
def Obligations.PoolsCopiesRemotes : Prop := Rules.RegisterPools ∧ Rules.CopyAndRemoteCompletion

/-! ### Steps between instructions: admission -/

/-- R18, R20, R38, R42, R278, R300, R365: what a team holds when it starts: it stands on the given core, its weaves have
consecutive numbers, each with one ply of all 32 lanes at the kernel's entry, s0 the argument pointer, no other name
mapped, no mask, flag or reservation, and the launch's level and vector. -/
def Rules.StartOfTeam : Prop :=
  ∀ (q : State) (l : Launch) (lix : Nat) (run : RunKind) (core : CoreId) (parts slots : List Nat),
    ∃ t, t ∈ (startTeam q l lix run core parts slots).teams ∧ t.uid = q.nextId + 32 ∧ t.launch = l.key ∧ t.ctx = l.ctx ∧
      t.at_ = core ∧ t.lix = lix ∧ t.run = run ∧ t.kernel = l.kernel ∧ t.level = l.level ∧
      t.team = BitVec.ofNat 64 (lix / (l.nx * l.ny) * 2 ^ 48 + lix / l.nx % l.ny * 2 ^ 32 + lix % l.nx) ∧
      t.prio = (if run = .original then l.prio else 0) ∧ (run ≠ .original → t.scratch = []) ∧
      t.sampled = (l.kernel.assayCode ≤ 16 && (lix + l.lnum) % 2 ^ l.kernel.assayCode == 0) ∧
      t.weaves.length = l.kernel.wcount ∧
      ∀ k < l.kernel.wcount, ∃ w, t.weaves[k]? = some w ∧ w.windex = k ∧ w.ended = false ∧
        (∃ p, w.plies = [p] ∧ p.pc = BitVec.ofNat 64 (l.kernel.addr + l.kernel.entry) ∧ p.mask = 0xFFFFFFFF#32 ∧
          p.wait = .none ∧ p.trapDue = none) ∧
        weaveScalar w 0 = l.args ∧ (∀ n, 1 ≤ n → w.map.s.getD n none = none) ∧ (∀ n, w.map.v.getD n none = none) ∧
        (∀ n, w.kregs.getD n 0#32 = 0#32) ∧ w.fpflags = 0#7 ∧ w.resv = [] ∧ w.handles = [] ∧
        w.pstat = (if l.level then 1#64 else 0#64) ∧ w.tvec = l.tvec ∧
        w.srseed = l.seed ^^^ BitVec.ofNat 64 (lix * 32 + k)

/-- R32, R308, R329, R330: the distributor places the first group of its order that fits, all or none of it, and nothing
while none fits; a suspended team whose image is lost, does not fit or faults keeps its whole group away; a suspended
team comes back when its group is the one placed; a waiting run and a suspended team age by one priority in 2^20 ticks.
-/
def Rules.Admission : Prop :=
  ∀ (s : State),
    let q := park s
    let site := subject s 0
    let all := waitingGroups q site
    (∀ g u, firstFit q site all all = some (g, u) → exec .teamAdmission s = .next u) ∧
    (firstFit q site all all = none → exec .teamAdmission s = .next q) ∧
    (∀ g rest, all = g :: rest → ∀ u, placeGroup q site all g = .placed u → exec .teamAdmission s = .next u) ∧
    (∀ g rest, all = g :: rest → ∀ uid m, placeGroup q site all g = .instead uid m →
      exec .teamAdmission s = .next (m.apply q g.launch uid)) ∧
    (∀ g l lix core parts slots, all = [g] → g.uids = [] → g.lixs = [lix] → findLaunch q g.launch = some l →
      l.frozen = [] → freeStack l l.kernel.wcount = some slots →
      chooseCore q (fun c => !keptFree q all g c) site (l.clustersAt site) l.kernel l.kernel.wcount =
        some (core, parts) →
      exec .teamAdmission s = .next (startTeam (onLaunch q g.launch (fun l => { l with runs := takeLix l.runs site lix }))
        l lix .original core parts slots)) ∧
    (∀ n uid, let groups := waitingGroups q n
      (∀ g u, firstFit q n groups groups = some (g, u) → uid ∈ g.uids → exec (.contextRestore n uid) s = .next u) ∧
      (∀ g u, firstFit q n groups groups = some (g, u) → uid ∉ g.uids → exec (.contextRestore n uid) s = .next q) ∧
      (firstFit q n groups groups = none → exec (.contextRestore n uid) s = .next q)) ∧
    (∀ key lix l, findLaunch q key = some l →
      ∃ u l', exec (.priorityAging key lix) s = .next u ∧ findLaunch u key = some l' ∧ u.mem = q.mem ∧ u.teams = q.teams ∧
        l'.prio = l.prio ∧
        (∀ (k : Nat) (r : TeamRun), l.runs[k]? = some r → l'.runs[k]? = some (if r.first ≤ lix ∧ lix < r.first + r.count ∧
          r.since + (r.aged + 1) * 2 ^ 20 ≤ q.cyc then { r with aged := r.aged + 1 } else r)) ∧
        (∀ (k : Nat) (x : Suspended), l.suspended[k]? = some x → l'.suspended[k]? = some (if x.lix = lix ∧ x.faults = [] ∧
          x.since + (x.aged + 1) * 2 ^ 20 ≤ q.cyc then { x with aged := x.aged + 1 } else x)))

/-- R18, R20, R32, R38, R42, R278, R300, R308, R329, R330, R365: what the distributor places, and what a team holds
when it starts. -/
def Obligations.AdmissionOfTeams : Prop := Rules.StartOfTeam ∧ Rules.Admission

/-- R309, R330, R413: for a group that has waited for 2,048 cycles and fits nowhere, teams of lower launch priority, with the
teams that go with them, are asked to leave, or else a core changes its split: it drains, drops its lines, takes the new
split and serves after 64 cycles; a re-run that waits has its split change in the same way (R413); the change is cancelled
while it drains once no waiting group or re-run wants it. -/
def Obligations.StarvationAndSplit : Prop :=
  ∀ (s : State),
    let q := park s
    let site := subject s 0
    let gs := starving q site
    let c : CoreId := ⟨site, subject s 1, subject s 2⟩
    let k := findCore q c
    let becomes (f : Core → Core) : Host.Outcome State Fault Refusal := .next (onCore q c f)
    (∀ g ∈ gs, g ∈ waitingGroups q site ∧ g.since + 2048 ≤ q.cyc) ∧
    (gs = [] → exec .admissionStarvation s = .next ((trialSplit q site).getD q) ∧
      exec .splitChangeRequest s = .next ((trialSplit q site).getD q)) ∧
    (∀ u, trialSplit q site = some u → ∃ d l, l ∈ q.launches ∧ l.site = site ∧
      (∃ t ∈ l.trials, t.running = false ∧ t.since + 2048 ≤ q.cyc) ∧ coreServes q d = true ∧ u.teams = q.teams ∧ u.mem = q.mem ∧
      (findCore u d).splitState = .drain ∧ (findCore u d).wanted = l.kernel.split) ∧
    (∀ g rest u, gs = g :: rest → preemptFor q site (waitingGroups q site) g = some u → exec .admissionStarvation s = .next u ∧
      (∀ t ∈ u.teams, t.leaving = some 0 → (∃ t0 ∈ q.teams, t0.uid = t.uid ∧ t0.leaving = some 0) ∨
        ∃ v ∈ q.teams, v.at_.site = site ∧ v.prio < g.own ∧ t.uid ∈ unitOf q v.uid) ∧ u.mem = q.mem) ∧
    (∀ g u, gs = [g] → requestSplit q site g = some u →
      exec .splitChangeRequest s = .next u ∧ (preemptFor q site (waitingGroups q site) g = none → exec .admissionStarvation s = .next u) ∧
      ∃ d l, findLaunch q g.launch = some l ∧ d.site = site ∧ coreServes q d = true ∧ u.teams = q.teams ∧ u.mem = q.mem ∧
        (findCore u d).splitState = .drain ∧ (findCore u d).wanted = l.kernel.split ∧
        (findCore u d).split = (findCore q d).split ∧ ∀ e, e ≠ d → findCore u e = findCore q e) ∧
    (k.splitState = .drain →
      (splitWanted q c = false → exec .splitChangeCancel s = becomes (fun k => { k with splitState := .serve })) ∧
      (splitWanted q c = true → exec .splitChangeCancel s = .next q) ∧
      (residents q c = [] → exec .splitFlush s = becomes (fun k => { k with splitState := .flush, l1 := [] })) ∧
      (residents q c ≠ [] → exec .splitFlush s = .next q)) ∧
    (k.splitState = .flush → exec .splitConfig s =
      becomes (fun k => { k with splitState := .config, split := k.wanted, l1 := [], configAt := q.cyc })) ∧
    (k.splitState = .config →
      (k.configAt + 64 ≤ q.cyc → exec .splitServe s = becomes (fun k => { k with splitState := .serve })) ∧
      (q.cyc < k.configAt + 64 → exec .splitServe s = .next q)) ∧
    (k.splitState = .serve → exec .splitChangeCancel s = .next q ∧ exec .splitFlush s = .next q ∧
      exec .splitConfig s = .next q ∧ exec .splitServe s = .next q)

/-! ### Steps between instructions: leaving, migration, budgets -/

/-- R307, R308, R331, R332: a quiet team that was asked to leave goes into the save pool with its launch and is no
longer resident; one that is not quiet stays, and so does one whose image the save budget does not pay for yet. A team that waits for a
home fault for 8,192 cycles is asked to leave, before that only when its core is wanted. A watchdog that expires makes
its trap due at the lowest ply of the lowest live weave, behind one that is due already, and starts anew. -/
def Obligations.LeavingAndWatchdog : Prop :=
  ∀ (s : State) (uid : Nat) (t : Team) (l : Launch),
    let q := park s
    findTeam q uid = some t → findLaunch q t.launch = some l → unitOf q uid = [uid] → (∀ u ∈ q.teams, u.uid = uid → u = t) →
    (∀ (e : Instr) (n : Nat), (e = .preemption uid ∧ n = 0) ∨ (e = .faultSwapOut uid ∧ n = 1) → t.leaving = some n →
      (teamQuiet q t = false → exec e s = .next q) ∧
      (∀ b, teamQuiet q t = true → paySave q uid (n == 0) = (b, false) → exec e s = .next b) ∧
      (∀ b, teamQuiet q t = true → paySave q uid (n == 0) = (b, true) → ∀ v, saveTo b uid n [uid] (gangNames b t) true
          (fun s2 k => (findTeam s2 uid).map (fun t => poolPages s2 t.ctx k)) = (v, true) →
        ∃ u l' x, exec e s = .next u ∧ findTeam u uid = none ∧ findLaunch u t.launch = some l' ∧ x ∈ l'.suspended ∧
          x.uid = uid ∧ x.lix = t.lix ∧ x.site = t.at_.site ∧ x.pool = true ∧ x.held = false ∧ x.since = q.cyc)) ∧
    (t.leaving ≠ some 0 → exec (.preemption uid) s = .next q) ∧
    (t.leaving = none →
      (faultSince q t = none → exec (.faultSwapOut uid) s = .next q) ∧
      (∀ since, faultSince q t = some since → inResidentCrew q t = false →
        (since + 8192 ≤ q.cyc ∨ coreWanted q t = true → ∃ u t', exec (.faultSwapOut uid) s = .next u ∧
          findTeam u uid = some t' ∧ t'.leaving = some 1 ∧ u.mem = q.mem ∧ ∀ v, v ≠ uid → findTeam u v = findTeam q v) ∧
        (q.cyc < since + 8192 → coreWanted q t = false → exec (.faultSwapOut uid) s = .next q))) ∧
    (∀ e windex n p, t.wdogAt = some e → watchPly t = some (windex, n) → plyAt q uid windex n = some p →
      (q.cyc < e → exec (.watchdogExpiry uid) s = .next q) ∧
      (e ≤ q.cyc → ∃ u t', exec (.watchdogExpiry uid) s = .next u ∧ findTeam u uid = some t' ∧
        t'.wdogAt = some (q.cyc + l.wdog * 1024) ∧ u.mem = q.mem ∧
        plyAt u uid windex n = some (if p.trapDue = none then { p with trapDue := some (0x12, BitVec.ofNat 64 (l.wdog * 1024)) }
          else { p with trapLater := p.trapLater ++ [(0x12, BitVec.ofNat 64 (l.wdog * 1024))] })))

/-- R34, R333, R334: every 4,096 ticks a site tells each other site of its partition its free slots for each split in
use, in class 6; an offer of teams of no resident crew goes to another site under the migrate budget; the target accepts it while it
has room; the answer moves the teams to the target, or returns them. -/
def Rules.Migration : Prop :=
  ∀ (s : State),
    let q := park s
    let k := subject s 0
    let x := findSite q k
    (cycAt q k / 4096 ≤ x.advW → exec .migrationAdvertisement s = .next q) ∧
    (x.advW < cycAt q k / 4096 → ∃ u, exec .migrationAdvertisement s = .next u ∧ u.mem = q.mem ∧ u.launches = q.launches ∧
      (findSite u k).advW = cycAt q k / 4096 ∧
      u.adverts = q.adverts ∧
      ∀ n ∈ sitesOf q x.part, n ≠ k → ∃ p ∈ u.packets, p.src = k ∧ p.dst = n ∧ p.cls = 6 ∧ p.cmd = 2 :: slotWords q k) ∧
    (∀ p words, p.cls = 6 → p.cmd = 2 :: words → (∀ a ∈ q.accs, a.id ≠ p.acc) → findLine q p.acc = none →
      let u := acceptPacket q p
      u.mem = q.mem ∧ u.launches = q.launches ∧ ∀ e, e ∈ u.adverts ↔
        (e ∈ q.adverts ∧ ¬ (e.1 = p.dst ∧ e.2.1 = p.src)) ∨ e ∈ slotsOf p.dst p.src words) ∧
    (migrateLeft q k = false → exec .migrationOffer s = .next q) ∧
    (q.launches = [] → exec .migrationOffer s = .next q) ∧
    (∀ l u, migrateLeft q k = true → q.launches = [l] → offerOf q k l = some u →
      exec .migrationOffer s = .next u ∧ u.mem = q.mem ∧ u.teams = q.teams ∧
      ∃ o p, u.offers = q.offers ++ [o] ∧ p ∈ u.packets ∧ p.cls = 5 ∧ p.acc = o.id ∧ p.src = k ∧ p.dst = o.dst ∧ o.id = q.nextId ∧ o.src = k ∧ o.dst ≠ k ∧ o.launch = l.key ∧ o.answer = none ∧
        advertised q k o.dst l.kernel.split ≠ 0 ∧ 1 ≤ o.count ∧
        ∀ lix, o.first ≤ lix → lix < o.first + o.count → ∀ c ∈ l.crews, c.resident = true → lix ∉ c.members) ∧
    (∀ o l, findOffer q k = some o → findLaunch q o.launch = some l →
      (o.arrived = true → o.answer = none →
        let room := decide (o.count ≤ freeTeamSlots q o.dst l.kernel.split ∧ l.clustersAt o.dst ≠ [])
        ∃ u, exec .migrationOfferReceive s = .next u ∧ u.mem = q.mem ∧ u.launches = q.launches ∧
          findOffer u k = some { o with answer := some room, arrived := false }) ∧
      (o.arrived = false → exec .migrationOfferReceive s = .next q ∧ exec .migrationAnswerReceive s = .next q) ∧
      (∀ yes, o.answer = some yes → o.arrived = true →
        let dst := if yes then o.dst else o.src
        ∃ u l', exec .migrationAnswerReceive s = .next u ∧ findOffer u k = none ∧ findLaunch u o.launch = some l' ∧
          u.mem = q.mem ∧ u.teams = q.teams ∧
          (∀ (j : Nat) (r : TeamRun), l.runs[j]? = some r → l'.runs[j]? =
            some (if r.offered = some k then { r with site := dst, offered := none } else r)) ∧
          (∀ (j : Nat) (y : Suspended), l.suspended[j]? = some y → l'.suspended[j]? =
            some (if y.offered = some k then { y with site := dst, offered := none } else y))))

/-- R335 to R337, R419: a new window of a site fixes its effective shares, clears its activity bits and what its classes
have used; within a window this changes nothing. -/
def Rules.BudgetWindows : Prop :=
  ∀ (s : State),
    let q := park s
    let k := subject s 0
    let x := findSite q k
    (cycAt q k / 16384 ≤ x.bgtW → exec .budgetWindowStart s = .next q) ∧
    (x.bgtW < cycAt q k / 16384 → ∃ u, exec .budgetWindowStart s = .next u ∧ u.mem = q.mem ∧ u.teams = q.teams ∧
        (findSite u k).bgtW = cycAt q k / 16384 ∧ (findSite u k).bgtAct = 0#8 ∧ (findSite u k).bgt = x.bgt ∧
        (∀ cls res, spentOf u k cls res = 0) ∧ (∀ n cls res, n ≠ k → spentOf u n cls res = spentOf q n cls res) ∧
        (∀ cls < 8, ∀ res < 4, shareOf ((findSite u k).bgtNow.getD cls 0#64) res = effShare x cls res)) ∧
    (∀ (y : Site) cls res, let own := shareOf (y.bgt.getD cls 0#64) res
      effShare y cls res = if cls = 2 ∧ (y.dark ≠ 0#16 ∨ y.rtv ≠ none ∨ y.waitRetrain ≠ []) then
          own - shareOf (y.bgt.getD 7 0#64) res
        else if cls = 4 ∨ cls = 5 then max own 1 else own)
/-- R34, R333 to R337, R376, R419: offers between sites, and budget windows. -/
def Obligations.MigrationAndBudgets : Prop := Rules.Migration ∧ Rules.BudgetWindows

/-! ### Steps between instructions: the ends of teams and launches, launch requests, queues -/

/-- R98, R121, R179, R281, R363, R364, R423: an original team ends when all its weaves have and its accesses, commands,
copies, remote operations and log entries are performed: it leaves its core, its slots are free, and as a sampled one it
is skipped or waits for its re-run. A launch completes when all its teams have ended, as poisoned, assured or
provisional, and posts dword 1 of its record and then dword 0, `cyc`; of a completed one the assay window closes when it can. -/
def Obligations.EndsOfTeamsAndLaunches : Prop :=
  ∀ (s : State),
    let q := park s
    (∀ uid t l, findTeam q uid = some t → t.run = .original → findLaunch q t.launch = some l → q.pendings = [] →
      l.state = 0 →
      (teamDone q t = true → ∃ u l', exec (.teamEnd uid) s = .next u ∧ findTeam u uid = none ∧
        (∀ v, v ≠ uid → findTeam u v = findTeam q v) ∧ findLaunch u t.launch = some l' ∧
        l'.ended = (if t.lix ∈ l.ended then l.ended else l.ended ++ [t.lix]) ∧
        l'.usedSlots = l.usedSlots.filter (fun g => !t.slots.contains g) ∧
        (t.sampled = false → l'.skipped = l.skipped ∧ l'.trials = l.trials) ∧
        (t.sampled = true → (t.ending = true ∨ t.eligible = false) → l'.skipped = l.skipped + 1 ∧ l'.trials = l.trials) ∧
        (t.sampled = true → t.ending = false → t.eligible = true → l'.skipped = l.skipped ∧ l'.trials = l.trials ++
          [{ lix := t.lix, runs := [{ core := t.at_, digest := t.digest, engine := t.engineUsed, left := t.ranOn }], since := q.cyc }])) ∧
      (teamDone q t = false → exec (.teamEnd uid) s = .next q)) ∧
    (∀ t, teamDone q t = true → (∀ w ∈ t.weaves, w.ended = true) ∧ (∀ a ∈ q.accs, a.uid ≠ t.uid) ∧
      (∀ o ∈ q.remotes, o.uid ≠ t.uid) ∧ (∀ c ∈ q.clusters, ∀ k ∈ c.copies, k.uid ≠ t.uid) ∧
      (∀ c ∈ q.clusters, ∀ e ∈ c.cmds, e.uid ≠ t.uid) ∧ ∀ e ∈ (findCore q t.at_).log, e.uid ≠ t.uid) ∧
    (∀ key l, findLaunch q key = some l →
      (l.completed = true ∨ l.ended.length ≠ l.teams → exec (.launchCompletion key) s = .next (closeWindow q key)) ∧
      (l.windowOpen = false → closeWindow q key = q) ∧
      (l.completed = false → l.ended.length = l.teams →
        let st := if l.poisoned then 3 else 1
        let v := onLaunch { q with replicas := q.replicas.filter (·.launch != key) } key
          (fun l => { l with completed := true, state := st })
        (l.crec = none → l.windowOpen = false → ∃ u l', exec (.launchCompletion key) s = .next u ∧
          findLaunch u key = some l' ∧ l'.completed = true ∧ u.mem = q.mem ∧ u.teams = q.teams ∧
          (∀ r ∈ u.replicas, r.launch ≠ key) ∧
          l'.state = if l.poisoned then 3
            else if l.trials = [] ∧ ∀ r ∈ l.lastRounds, r.2 + 2 ≤ (findSite q r.1).round then 2 else 1) ∧
        (∀ d0 d1, l.crec = some (d0, d1) → exec (.launchCompletion key) s = .next
          (settleLaunch (closeWindow (postRecord v (2 * key) l.site l.ctx l.lnum
            [(d1, toBytes 8 (l.num * 2 ^ 32 + st)), (d0, toBytes 8 (cycAt q l.site))]) key) key))))

/-- R37, R277, R280: a request reaches its owner when the earlier ones of its site have, and of one clock the lower
sites first; the owner takes requests in the order of their arrival, and the first waits while a read of it does: an
accepted child takes the parent's next number and status 0, a refused one gives all ones and its code, a lane whose read
was cancelled gives code 7, and beyond the launch limit nothing is accepted. The answer goes to the ply that stands at its
launch instruction: it takes its results and goes on behind it, or takes the launch-limit trap; where a pool has no room for
them it goes on standing (R48), and an answer for a ply that does not stand there waits. -/
def Rules.LaunchRequests : Prop :=
  ∀ (s : State) (tag : Nat),
    let q := park s
    (∀ r l, q.launchReqs.find? (·.tag == tag) = some r → findLaunch q r.parent = some l →
      let z := reachOwner q r l
      (r.order = none → requestNext q r = true → ¬ (l.takenAt.1 = q.clk ∧ r.site < l.takenAt.2) →
        z.launchReqs.find? (·.tag == tag) = some { r with order := some q.nextId }) ∧
      (r.order ≠ none ∨ requestNext q r = false ∨ (l.takenAt.1 = q.clk ∧ r.site < l.takenAt.2) → z = q) ∧
      ∀ r1, z.launchReqs.find? (·.tag == tag) = some r1 →
        (readWaits z tag = true ∨ requestFirst z r1 = false → exec (.launchRequest tag) s = .next z) ∧
        (readWaits z tag = false → requestFirst z r1 = true → exec (.launchRequest tag) s = .next (takeRequest z r1 l))) ∧
    (∀ r l lane d args, r.tag = tag → readLost q tag = false → findLaunch q r.parent = some l →
      r.items = [(lane, d, args)] → lane ∉ r.lost →
      let check := checkLaunch (holdReads (forgetRead q tag) (childSubmit l args) (d.toNat % 2 ^ 56)) (childSubmit l args) (d.toNat % 2 ^ 56)
      (∀ c, check = .ok c → l.nextChild < 0xFFFFFFFF → l.key ≠ q.nextId →
        ∃ u l' c', takeRequest q r l = u ∧ findLaunch u r.parent = some l' ∧
          l'.nextChild = l.nextChild + 1 ∧ c' ∈ u.launches ∧ c'.key = q.nextId ∧ c'.num = l.nextChild ∧
          c'.lnum = q.launchCount ∧ c'.source = c.source ∧ c'.kernel = c.kernel ∧ c'.runs = c.runs ∧ c'.args = c.args ∧
          u.launchCount = q.launchCount + 1 ∧ (∀ x ∈ u.launchReqs, x.tag ≠ tag) ∧ u.mem = q.mem ∧
          u.launchAns = q.launchAns ++ [{ req := r, limit := false, results := [(lane, l.nextChild, 0)] }]) ∧
      (∀ c, check = .ok c → 0xFFFFFFFF ≤ l.nextChild → ∃ u, takeRequest q r l = u ∧
        u.launches = q.launches ∧ (∀ x ∈ u.launchReqs, x.tag ≠ tag) ∧
        u.launchAns = q.launchAns ++ [{ req := r, limit := true, results := [] }]) ∧
      (∀ n, check = .error (.reject n) → ∃ u, takeRequest q r l = u ∧ u.launchCount = q.launchCount ∧
        findLaunch u r.parent = some l ∧ u.launches.length = q.launches.length ∧ (∀ x ∈ u.launchReqs, x.tag ≠ tag) ∧
        u.launchAns = q.launchAns ++ [{ req := r, limit := false, results := [(lane, 0xFFFFFFFF, n)] }])) ∧
    (∀ r l lane d args, r.tag = tag → findLaunch q r.parent = some l → r.items = [(lane, d, args)] →
      (lane ∈ r.lost ∨ (readLost q tag = true ∧ r.stuck = some lane)) →
      (takeRequest q r l).launchAns = q.launchAns ++ [{ req := r, limit := false, results := [(lane, 0xFFFFFFFF, 7)] }]) ∧
    (∀ a t w p, q.launchAns.find? (·.req.tag == tag) = some a → Stands q a.req.uid a.req.windex a.req.ply t w p →
      let f := a.req.fields
      let i : Instr := if a.req.perLane then .launchL f else .launchW f
      let v := focusOn q a.req.uid a.req.windex a.req.ply
      let z := dropAnswer a (releaseDst f a.req.perLane v)
      (p.stopped = false → p.wait = .launch → t.leaving = none → i.wellFormed = true →
        (a.limit = true → exec (.launchAnswer tag) s = .next (park (takeTrap z 0x0F p.pc [0#64] a.lanes))) ∧
        (a.limit = false → HasRoom z i f (launchWrites f a.lanes a) →
          ∃ x, exec (.launchAnswer tag) s = .next (park x) ∧ GoesOn z x f (afterPc p.pc f) 0#7 ∧ tells x f a.lanes a ∧
            (∀ y ∈ x.launchAns, y.req.tag ≠ tag) ∧
            KeepsRegs z x i f (if a.req.perLane then [f.d.toNat, f.d.toNat + 1] else []) (if a.req.perLane then [] else sName f) [])) ∧
      (p.stopped = true ∨ p.wait ≠ .launch ∨ t.leaving ≠ none → exec (.launchAnswer tag) s = .next q))

/-- The record of an entry that is consumed with a code: the queue's head moves on by one, and dword 7 of the entry and
then the head dword are posted (R320). -/
def Consumed (v u : State) (x : Queue) (code : Nat) (launch graph : Option Nat) : Prop :=
  let x1 : Queue := { x with headIdx := (x.headIdx + 1) % 2 ^ 32, prevLaunch := launch, prevGraph := graph, begun := false }
  u = postRecord { v with
      queues := v.queues.map (fun y => if y.id == x.id then x1 else y), lostReads := v.lostReads.filter (· != x.id) }
    (2 * x.id + 1) x.site x.ctx 0xFFFFFFFF
    [(x.ring + 64 * (x.headIdx % 2 ^ x.lgn) + 56, toBytes 8 (2 ^ 63 + code)),
     (x.head, toBytes 8 (x1.headIdx + if x.overflow then 2 ^ 63 else 0))]

/-- R318 to R320: a valid and well-formed record puts its queue in service from the head that the processor reads; a
record no longer valid takes it out once the entry in hand is finished; the tail is read while its line is not held, and
one more than 2^lgn ahead stops the queue with the overflow bit in its head
dword; an entry in hand is consumed with code 0, with the rejection code of its launch, with 8 for reserved fields or a
priority above the queue's, and with 9, 10 or 11 for its graph. -/
def Rules.SubmissionQueues : Prop :=
  ∀ (s : State),
    let q := park s
    let site := subject s 0
    let n := subject s 1
    let d := queueRecord q site n
    let w (k : Nat) : DWord := d.getD k 0#64
    let ctx := ((w 3).extractLsb' 32 16).toNat
    (n < 64 → isSite site = true → findQueue q site n = none →
      ((w 3).getLsbD 63 = false → exec .queueRecordService s = .next q) ∧
      (∀ head, (w 3).getLsbD 63 = true → gpWord q site ctx (w 2).toNat = .ok head →
        (recordOk d = true → ∃ u x, exec .queueRecordService s = .next u ∧ u.mem = q.mem ∧ u.queues = q.queues ++ [x] ∧
          x.id = q.nextId ∧ x.site = site ∧ x.q = n ∧ x.ring = (w 0).toNat ∧ x.tail = (w 1).toNat ∧ x.head = (w 2).toNat ∧
          x.ctx = ctx ∧ x.lgn = ((w 3).extractLsb' 0 5).toNat ∧ x.pcap = ((w 3).extractLsb' 59 3).toNat ∧
          x.level = (w 3).getLsbD 62 ∧ x.headIdx = (head.extractLsb' 0 32).toNat ∧ x.overflow = false) ∧
        (recordOk d = false → head.getLsbD 62 = false →
          exec .queueRecordService s = .next (postRecord { q with nextId := q.nextId + 1 } (2 * q.nextId + 1) site ctx
            0xFFFFFFFF (dwordPieces (w 2).toNat (head ||| 0x4000000000000000#64)))))) ∧
    (∀ x, findQueue q site n = some x →
      (n < 64 → isSite site = true →
        ((w 3).getLsbD 63 = false → (x.begun = false ∨ x.overflow = true) → ∃ u, exec .queueRecordService s = .next u ∧
          (∀ y ∈ u.queues, y.id ≠ x.id) ∧ u.mem = q.mem) ∧
        ((w 3).getLsbD 63 = true ∨ (x.begun = true ∧ x.overflow = false) → exec .queueRecordService s = .next q)) ∧
      (x.overflow = true ∨ x.tailHeld = true ∨ readWaits q x.tailId = true → exec .queueTailObserved s = .next q) ∧
      (∀ z bytes bad, x.overflow = false → x.tailHeld = false → readWaits q x.tailId = false →
        masterGet q (graphMaster site x.ctx) site x.tail 8 = .ok (z, bytes, bad) →
        let tail := ofBytes bytes % 2 ^ 32
        let ahead := (tail + 2 ^ 32 - x.headIdx) % 2 ^ 32
        let v := onQueue (forgetRead z x.tailId) x.id (fun x =>
          { x with tailHeld := (z.hbHeld ++ z.hbShared).contains (site, iaLine x.tail) })
        (ahead ≤ 2 ^ x.lgn → exec .queueTailObserved s = .next (onQueue v x.id (fun x => { x with seenTail := tail }))) ∧
        (2 ^ x.lgn < ahead → exec .queueTailObserved s = .next (postRecord
          (onQueue v x.id (fun x => { x with overflow := true })) (2 * x.id + 1) site x.ctx 0xFFFFFFFF
          [(x.head, toBytes 8 (x.headIdx + 2 ^ 63))]))) ∧
      (∀ e ∈ [Instr.queueEntryNop, .queueEntryLaunch, .queueEntryGraph], x.begun = false →
        (x.headIdx = x.seenTail ∨ x.overflow = true ∨ (w 3).getLsbD 63 = false) → exec e s = .next q)) ∧
    (∀ x e v, entryInHand (beginEntry q site n) site n = .ok (v, x, e) →
      let kind := ((e.getD 0 0#64).extractLsb' 60 4).toNat
      let va := ((e.getD 0 0#64).extractLsb' 0 56).toNat
      (entryOk e = false → ∃ u, exec .queueEntryNop s = .next u ∧ Consumed v u x 8 none none) ∧
      (entryOk e = true → kind = 0 → ∃ u, exec .queueEntryNop s = .next u ∧ Consumed v u x 0 none none) ∧
      (entryOk e = true → kind = 1 →
        let z := holdReads v (queueSubmit x (e.getD 1 0#64)) va
        let check := checkLaunch z (queueSubmit x (e.getD 1 0#64)) va
        (∀ k, check = .error (.reject k) → ∃ u, exec .queueEntryLaunch s = .next u ∧ Consumed z u x k none none) ∧
        (∀ l, check = .ok l → x.pcap < askedPrio z x va →
          ∃ u, exec .queueEntryLaunch s = .next u ∧ Consumed z u x 8 none none) ∧
        (∀ l, check = .ok l → askedPrio z x va ≤ x.pcap → ∃ u, exec .queueEntryLaunch s = .next u ∧
          Consumed { z with nextId := z.nextId + 1, launchCount := z.launchCount + 1, launches := z.launches ++
            [{ l with key := z.nextId, num := z.launchCount, lnum := z.launchCount }] } u x 0 (some z.nextId) none)) ∧
      (∀ h, entryOk e = true → kind = 2 →
        let z := gpHold v ⟨x.site, x.ctx⟩ va 64
        gpDwords z ⟨x.site, x.ctx⟩ va 8 = .ok h →
        let used := ∃ g ∈ z.graphs, g.site = site ∧ g.hdr = va ∧ g.completed = false
        let count := ((h.getD 0 0#64).extractLsb' 0 16).toNat
        (graphHeaderOk z x.ctx va h = false → ∃ u, exec .queueEntryGraph s = .next u ∧ Consumed z u x 9 none none) ∧
        (graphHeaderOk z x.ctx va h = true → used → ∃ u, exec .queueEntryGraph s = .next u ∧ Consumed z u x 10 none none) ∧
        (∀ ws, let y := gpHold z ⟨x.site, x.ctx⟩ (va + 64) (64 * count)
          graphHeaderOk z x.ctx va h = true → ¬ used → gpDwords y ⟨x.site, x.ctx⟩ (va + 64) (8 * count) = .ok ws →
          let ns := (List.range count).map (fun k => (ws.drop (8 * k)).take 8)
          (structureOk ns = false → ∃ u, exec .queueEntryGraph s = .next u ∧ Consumed y u x 11 none none) ∧
          (structureOk ns = true → findGraph y y.nextId = none → ∃ u g, exec .queueEntryGraph s = .next u ∧
            Consumed (startGraph y x va h ns) u x 0 none (some y.nextId) ∧ findGraph u y.nextId = some g ∧
            g.hdr = va ∧ g.ctx = x.ctx ∧ g.completed = false ∧ g.tokens = [] ∧ g.nodes.length = count ∧
            (∀ k ∈ g.starts, nodePred (ns.getD k []) = 0) ∧
            ∀ k < count, ∃ d, g.nodes[k]? = some d ∧ d.d = (ns.getD k []).take 6 ∧ d.arr = 0 ∧ d.state = 0 ∧ d.aux = 0))))

/-- R37, R277, R280, R318 to R320: launch requests of teams, and submission queues. -/
def Obligations.RequestsAndQueues : Prop := Rules.LaunchRequests ∧ Rules.SubmissionQueues

/-! ### Steps between instructions: graphs, assay -/

/-- What a node with dwords d sends to its successors, one value for each slot (R324). -/
def sends (d : List DWord) (runs : List Bool) : List (Nat × Bool) :=
  ((List.range 4).zip (nodeSucc d)).filterMap (fun (k, o) => o.map (fun j => (j, runs.getD k false)))

/-- In u the graph is g with node n in state `st` and the tokens `ts` behind those left. -/
def NodeBecomes (u : State) (g : Graph) (n st : Nat) (left ts : List (Nat × Bool)) : Prop :=
  ∃ g' x', findGraph u g.id = some g' ∧ g'.nodes[n]? = some x' ∧ x'.state = st ∧ g'.tokens = left ++ ts ∧
    g'.nodes.length = g.nodes.length ∧ g'.completed = g.completed ∧ ∀ k, k ≠ n → g'.nodes[k]? = g.nodes[k]?

/-- R323 to R327: a node counts the tokens it receives; with all of them in it runs when one said so and else is skipped,
and skip goes on to its successors; a condition sends run to s0 and s1 and skip to the others or the reverse; a kernel
node starts its launch, fails when it is refused or poisoned and is done when it is complete; a loop starts its body while
its test holds and its limit is not reached; a wait subtracts its target once the count has reached it; a graph with
nothing left to do is complete as poisoned, assured or provisional, and later becomes assured. -/
def Obligations.Graphs : Prop :=
  ∀ (s : State) (g : Graph) (x : GNode),
    let q := park s
    let id := subject s 0
    let n := subject s 1
    let all := [true, true, true, true]
    let no := [false, false, false, false]
    findGraph q id = some g → g.nodes[n]? = some x → n ∉ g.starts →
    (∀ run, g.tokens.find? (·.1 == n) = some (n, run) →
      let left := g.tokens.erase (n, run)
      (x.arr + 1 ≠ nodePred x.d → ∃ u g', exec .graphToken s = .next u ∧ findGraph u id = some g' ∧ g'.tokens = left ∧
        g'.nodes = g.nodes.set n { x with arr := x.arr + 1, gotRun := x.gotRun || run }) ∧
      (x.arr + 1 = nodePred x.d → x.gotRun = false → run = false →
        ∃ u, exec .graphToken s = .next u ∧ NodeBecomes u g n 3 left (sends x.d no)) ∧
      (x.arr + 1 = nodePred x.d → (x.gotRun || run) = true → nodeKind x.d = 5 → (x.d.getD 2 0#64).extractLsb' 0 32 = 0#32 →
        ∃ u, exec .graphToken s = .next u ∧ NodeBecomes u g n 2 left (sends x.d all))) ∧
    (g.tokens.find? (·.1 == n) = none → x.state = 1 → readWaits q (nodeId g n) = false →
      (∀ v, nodeKind x.d = 3 → nodeRead q g n (x.d.getD 2 0#64).toNat = .ok v →
        let t := testHolds x.d v
        ∃ u, exec .graphToken s = .next u ∧ NodeBecomes u g n 2 g.tokens (sends x.d [t, t, !t, !t])) ∧
      (nodeKind x.d = 1 → x.launch = none → readLost q (nodeId g n) = false →
        let check := checkLaunch (holdReads q (nodeSubmit g n x.d) (x.d.getD 2 0#64).toNat) (nodeSubmit g n x.d) (x.d.getD 2 0#64).toNat
        (∀ k, check = .error (.reject k) → ∃ u, exec .graphToken s = .next u ∧ NodeBecomes u g n 4 g.tokens (sends x.d no) ∧
          ∃ g', findGraph u id = some g' ∧ g'.poisoned = true) ∧
        (∀ l, check = .ok l → ∃ u, exec .graphToken s = .next u ∧ NodeBecomes u g n 1 g.tokens [] ∧
          u.launches = q.launches ++ [{ l with key := q.nextId, num := q.launchCount, lnum := q.launchCount }])) ∧
      (∀ key l, nodeKind x.d = 1 → x.launch = some key → findLaunch q key = some l → l.completed = true →
        (l.state = 3 → ∃ u, exec .graphToken s = .next u ∧ NodeBecomes u g n 4 g.tokens (sends x.d no)) ∧
        (l.state ≠ 3 → ((x.d.getD 0 0#64).getLsbD 59 = false ∨ l.state = 2) →
          ∃ u, exec .graphToken s = .next u ∧ NodeBecomes u g n 2 g.tokens (sends x.d all))) ∧
      (nodeKind x.d = 4 → bodyIdle g n = true →
        let limit := ((x.d.getD 5 0#64).extractLsb' 48 16).toNat
        (limit ≠ 0 → x.aux = limit → ∃ u, exec .nodeLoop s = .next u ∧ NodeBecomes u g n 2 g.tokens (sends x.d all)) ∧
        (∀ v, (limit = 0 ∨ x.aux ≠ limit) → nodeRead q g n (x.d.getD 2 0#64).toNat = .ok v →
          (testHolds x.d v = false → ∃ u, exec .nodeLoop s = .next u ∧ NodeBecomes u g n 2 g.tokens (sends x.d all)) ∧
          (testHolds x.d v = true → n < (loopBody x.d).1 → ∃ u g' x', exec .nodeLoop s = .next u ∧
            findGraph u id = some g' ∧ g'.nodes[n]? = some x' ∧ x'.state = 1 ∧ x'.aux = (x.aux + 1) % 2 ^ 32 ∧
            ∀ k y, (loopBody x.d).1 ≤ k → k ≤ (loopBody x.d).2 → g'.nodes[k]? = some y →
              y.arr = 0 ∧ y.state = 0 ∧ y.gotRun = false ∧ ∃ y0, g.nodes[k]? = some y0 ∧ y.aux = y0.aux))) ∧
      (∀ v ia, nodeKind x.d = 5 → nodeRead q g n (g.hdr + 64 + 64 * n + 48) = .ok v →
        translate q g.ctx (g.hdr + 64 + 64 * n + 48) = some ia →
        let left := v.extractLsb' 0 32 - (x.d.getD 2 0#64).extractLsb' 0 32
        (left.toInt < 0 → exec .nodeWait s = .next q) ∧
        (∀ w old bad, 0 ≤ left.toInt →
          masterRmw q (graphMaster g.site g.ctx) g.site ia 4 ((x.d.getD 2 0#64).extractLsb' 0 32).toNat false true
            (subTarget ((x.d.getD 2 0#64).extractLsb' 0 32)) = .ok (w, old, bad) →
          (subTarget ((x.d.getD 2 0#64).extractLsb' 0 32) old ≠ none →
            ∃ u, exec .nodeWait s = .next u ∧ NodeBecomes u g n 2 g.tokens (sends x.d all)) ∧
          (subTarget ((x.d.getD 2 0#64).extractLsb' 0 32) old = none → exec .nodeWait s = .next w)))) ∧
    (∀ (target : Word) (old : Nat), let left := BitVec.ofNat 32 old - target
      subTarget target old = if left.toInt < 0 then none else some left.toNat) ∧
    (g.crec = none → g.completed = false →
      ((∀ y ∈ g.nodes, y.state ≠ 1) → g.tokens = [] → g.starts = [] → ∃ u g', exec .graphCompletion s = .next u ∧
        findGraph u id = some g' ∧ g'.completed = true ∧ u.mem = q.mem ∧
        g'.state = if g.poisoned then 3 else if graphAssured q g then 2 else 1) ∧
      ((∃ y ∈ g.nodes, y.state = 1) ∨ g.tokens ≠ [] ∨ g.starts ≠ [] → exec .graphCompletion s = .next q)) ∧
    (g.completed = true → g.state = 1 → graphAssured q g = false → exec .graphCompletion s = .next q) ∧
    (g.completed = true → g.state = 1 → graphAssured q g = true → g.crec = none → ∃ u g',
      exec .graphCompletion s = .next u ∧ findGraph u id = some g' ∧ g'.state = 2 ∧ g'.nodes = g.nodes)

/-- R366 to R370: a sampled team runs again on a cluster that no earlier run of it used, or is skipped when its partition
has none; a re-run with the original's digest decides the team as matched; another digest is recorded and calls for a
third run; the third decides it as mismatched, and the launch is poisoned unless the third has the original's digest; one
whose third run met a reason of R366 is undecided, poisons the launch and counts as skipped (log 69); the window closes
with its record when every sampled team is skipped or decided. -/
def Obligations.Assay : Prop :=
  ∀ (s : State) (key lix : Nat) (l : Launch) (t : Trial),
    let q := park s
    findLaunch q key = some l → l.trials.find? (·.lix == lix) = some t → q.pendings = [] → l.state = 0 →
    let part := (findSite q l.site).part
    let rest_ := l.trials.filter (·.lix != lix)
    (t.running = true → exec (.assayRerunAdmission key lix) s = .next q) ∧
    (t.running = false → trialClusters q t part = [] → t.runs.length ≤ 1 →
      ∃ u l', exec (.assayRerunAdmission key lix) s = .next u ∧ findLaunch u key = some l' ∧ l'.skipped = l.skipped + 1 ∧
        l'.matched = l.matched ∧ l'.mismatched = l.mismatched ∧ l'.trials = rest_ ∧ l'.poisoned = l.poisoned) ∧
    (∀ core parts slots, t.running = false → trialCore q l t part = some (core, parts) →
      freeStack l l.kernel.wcount = some slots →
      ∃ u l' z, exec (.assayRerunAdmission key lix) s = .next u ∧ findLaunch u key = some l' ∧ z ∈ u.teams ∧
        z.launch = key ∧ z.lix = lix ∧ z.at_ = core ∧ z.run = (if t.runs.length ≤ 1 then RunKind.rerun else .third) ∧
        (∀ r ∈ t.runs, ¬ (r.core.site = core.site ∧ r.core.cluster = core.cluster) ∧ (core.site, core.cluster) ∉ r.left) ∧
        l'.trials = l.trials.map (fun y => if y.lix = lix then { y with running := true } else y)) ∧
    (∀ z, t.running = true → (∀ y ∈ l.suspended, y.lix = lix → y.run = .original) → trialTeam q key lix = some z →
      (teamDone q z = false → exec (.assayRunEnd key lix) s = .next q) ∧
      (teamDone q z = true → z.ending = false →
        let r : TrialRun := { core := z.at_, digest := z.digest, engine := z.engineUsed, odd := !z.eligible, left := z.ranOn }
        (∀ a, t.runs = [a] → z.eligible = true → z.digest = a.digest → ∃ u l', exec (.assayRunEnd key lix) s = .next u ∧
          findTeam u z.uid = none ∧ findLaunch u key = some l' ∧ l'.matched = l.matched + 1 ∧ l'.trials = rest_ ∧
          l'.skipped = l.skipped ∧ l'.mismatched = l.mismatched ∧ l'.poisoned = l.poisoned ∧ u.decided = q.decided + 1) ∧
        (∀ a, t.runs = [a] → (z.eligible = false ∨ z.digest ≠ a.digest) → ∃ u l', exec (.assayRunEnd key lix) s = .next u ∧
          findTeam u z.uid = none ∧ findLaunch u key = some l' ∧ l'.matched = l.matched ∧ l'.mismatched = l.mismatched ∧
          l'.trials = l.trials.map (fun y => if y.lix = lix then { y with runs := y.runs ++ [r], running := false, since := q.cyc } else y) ∧
          ∃ e ∈ u.errs, e.kind = 6 ∧ e.lnum = l.lnum ∧ e.tix = lix ∧ e.x = a.digest.toNat ∧ e.y = z.digest.toNat) ∧
        (∀ a b, t.runs = [a, b] → ∃ u l', exec (.assayRunEnd key lix) s = .next u ∧ findTeam u z.uid = none ∧
          findLaunch u key = some l' ∧ l'.mismatched = (if z.eligible = true then l.mismatched + 1 else l.mismatched) ∧
          l'.skipped = (if z.eligible = true then l.skipped else l.skipped + 1) ∧ l'.matched = l.matched ∧ l'.trials = rest_ ∧
          l'.poisoned = (if z.eligible = true ∧ z.digest = a.digest then l.poisoned else true) ∧
          u.decided = (if z.eligible = true then q.decided + 1 else q.decided)))) ∧
    (∀ z, t.running = true → (∀ y ∈ l.suspended, y.lix = lix → y.run = .original) → trialTeam q key lix = some z →
      teamDone q z = true → z.ending = true → ∃ u l', exec (.assayRunEnd key lix) s = .next u ∧
        findTeam u z.uid = none ∧ findLaunch u key = some l' ∧ l'.skipped = l.skipped + 1 ∧ l'.trials = rest_ ∧
        l'.poisoned = (if t.runs.length ≤ 1 then l.poisoned else true)) ∧
    -- the window (R367)
    (l.windowOpen = false ∨ l.skipped + l.matched + l.mismatched ≠ sampledTotal l ∨ stateHeld q key = true → closeWindow q key = q) ∧
    (l.windowOpen = true → l.skipped + l.matched + l.mismatched = sampledTotal l → stateHeld q key = false →
      ∃ l', findLaunch (closeWindow q key) key = some l' ∧ l'.windowOpen = false ∧ l'.frozen = [] ∧
        (l.kernel.assayed = true → ∃ e ∈ (closeWindow q key).errs, e.kind = 10 ∧ e.lnum = l.lnum ∧
          e.x = sampledTotal l * 2 ^ 32 + l.skipped ∧ e.y = l.matched * 2 ^ 32 + l.mismatched))

/-! ### Steps between instructions: fault buffers, control registers, the service ring, errors -/

/-- R336, R350, R384, R392, R394, R397: one record of a partition is posted 3,000 cycles after it was found: its eight
dwords into the ring, with the message when it is asked for and its vector is not masked; with no room it is held back and the
full bit set; a write of `get` sets that half of the index register; a budget write takes effect where the shares of each
resource stay within 256, and else sets the error bit; an `opctl` write with a reserved field sets its error bit and does
nothing else, and one that disables an up port, or changes its mode, takes it down, with no wavelength live until it has trained
again; the other registers take their fields; a number that names no site ignores a write. A write into the MSI-X table that
unmasks a pending vector sends its message (the table's layout and its masks after reset are the model's: log 118). -/
def Obligations.FaultBufferAndRegisters : Prop :=
  ∀ (s : State),
    let q := park s
    (let part := subject s 0
     let head := headSite q part
     let x := findSite q head
     let ring := faultRing x
     (nearestHostPort q head = none → exec .faultBatchPost s = .next q) ∧
     (batchDue q part q.faultQ = false → batchDue q part q.fabricQ = false → exec .faultBatchPost s = .next q) ∧
     (∀ r, nearestHostPort q head ≠ none → ring.enabled = true → 1 ≤ ring.room → q.faultQ = [r] → q.fabricQ = [] →
        r.part = part → r.at_ + 3000 ≤ q.cyc → r.dwords.length = 8 → cellsWf q.mem = true →
        x.fbbase.toNat / 2 ^ 52 ≠ s.wafer → x.fbbase.toNat % 2 ^ 52 + 2 ^ 23 ≤ 2 ^ 52 →
        ∃ u, exec .faultBatchPost s = .next u ∧ u.faultQ = [] ∧ (findSite u head).fbctl = x.fbctl ∧
          (findSite u head).fbidx = x.fbidx.extractLsb' 32 32 ++ BitVec.ofNat 32 (ring.put + 1) ∧
          (x.fbctl.getLsbD 62 = true → let vec := (x.fbctl.extractLsb' 0 16).toNat
            (msixMasked q vec = false → u.msi.length = q.msi.length + 1 ∧ u.msiPending = q.msiPending) ∧
            (msixMasked q vec = true → u.msi = q.msi ∧ ∃ y ∈ u.msiPending, y.1 = vec)) ∧
          (x.fbctl.getLsbD 62 = false → u.msi = q.msi ∧ u.msiPending = q.msiPending) ∧
          let slot := x.fbbase.toNat + 64 * (ring.put % 2 ^ ring.lgn)
          (∀ k < 8, cellNat u.mem (slot + 8 * k) 8 = (r.dwords.getD k 0#64).toNat) ∧
          ∀ a, a < slot ∨ slot + 64 ≤ a → byteAt u a = byteAt q a) ∧
     (∀ r, nearestHostPort q head ≠ none → ring.enabled = true → ring.room = 0 → q.faultQ = [r] → q.fabricQ = [] →
        r.part = part → r.at_ + 3000 ≤ q.cyc →
        ∃ u, exec .faultBatchPost s = .next u ∧ u.faultQ = [r] ∧ (findSite u head).fbctl = x.fbctl ||| (1#64 <<< 61) ∧
          u.mem = q.mem ∧ u.msi = q.msi)) ∧
    (∀ site v fabric, let x := findSite q site
      (site ≠ headSite q x.part → exec (.fbidxWrite site fabric v) s = .next q) ∧
      (site = headSite q x.part → x.fbctl.getLsbD 61 = false → x.fectl.getLsbD 61 = false →
        exec (.fbidxWrite site fabric v) s = .next (onSite q site (fun x =>
          if fabric then { x with feidx := v.extractLsb' 32 32 ++ x.feidx.extractLsb' 0 32 }
          else { x with fbidx := v.extractLsb' 32 32 ++ x.fbidx.extractLsb' 0 32 })))) ∧
    (∀ site k v, isSite site = false → exec (.bgtWrite site k v) s = .next q ∧ exec (.opctlWrite site v) s = .next q) ∧
    (∀ site k v, isSite site = true → k < 8 → let x := findSite q site
      let new := x.bgt.set k (v &&& 0xFFFFFFFF#64)
      let fits := ∀ res < 4, ((List.range 7).map (fun c => shareOf (new.getD c 0#64) res)).sum ≤ 256
      (k = 7 ∨ fits → ∃ u, exec (.bgtWrite site k v) s = .next u ∧ (findSite u site).bgt = new ∧
        (findSite u site).bgtErr = x.bgtErr ∧ u.mem = q.mem) ∧
      (k ≠ 7 → ¬ fits → exec (.bgtWrite site k v) s = .next (onSite q site (fun x => { x with bgtErr := true })))) ∧
    (∀ site (v : DWord), isSite site = true → let x := findSite q site
      let bad := v.extractLsb' 61 2 = 3#2 ∨ (v.extractLsb' 56 4).toNat < 3 ∨ 9 < (v.extractLsb' 56 4).toNat
      (bad → exec (.opctlWrite site v) s = .next (onSite q site (fun x => { x with opErr := true }))) ∧
      (¬ bad → x.up = true → x.opctl.getLsbD 63 = true → (v.getLsbD 63 = false ∨ v.extractLsb' 61 2 ≠ x.opctl.extractLsb' 61 2) →
        ∃ u, exec (.opctlWrite site v) s = .next u ∧ (findSite u site).up = false ∧ (findSite u site).downAt = q.cyc ∧
          (findSite u site).opctl = v &&& 0xFF00000000000000#64 ∧ u.mem = q.mem ∧ u.fabricQ.length = q.fabricQ.length + 1 ∧
          (findSite u site).live = 0#16 ∧ (findSite u site).trained = false) ∧
      (¬ bad → x.up = false → x.opctl.getLsbD 63 = true → (v.getLsbD 63 = false ∨ v.extractLsb' 61 2 ≠ x.opctl.extractLsb' 61 2) →
        ∃ u, exec (.opctlWrite site v) s = .next u ∧ (findSite u site).opctl = v &&& 0xFF00000000000000#64 ∧
          (findSite u site).live = 0#16 ∧ (findSite u site).trained = false ∧ u.fabricQ = q.fabricQ) ∧
      (¬ bad → (x.opctl.getLsbD 63 = false ∨ (v.getLsbD 63 = true ∧ v.extractLsb' 61 2 = x.opctl.extractLsb' 61 2)) →
        exec (.opctlWrite site v) s =
          .next (onSite q site (fun x => { x with opctl := v &&& 0xFF00000000000000#64 })))) ∧
    (∀ site (v : DWord), isSite site = true →
      exec (.registerWrite site 0x200 v) s = .next (onSite q site (fun x => { x with rsw := v &&& 0x0000FFFFFF000000#64 })) ∧
      exec (.registerWrite site 0x140 v) s =
        .next (onSite q site (fun x => if v.getLsbD 63 then { x with bgtErr := false } else x)) ∧
      exec (.registerWrite site 0x210 v) s =
        .next (onSite q site (fun x => if v.getLsbD 62 then { x with opErr := false } else x)) ∧
      (site = headSite q (findSite q site).part →
        exec (.registerWrite site 0x1018 v) s = .next (onSite q site (fun x => { x with svbase := v }))) ∧
      ∀ off, off < 0x100 → exec (.registerWrite site off v) s = .next q) ∧
    (∀ off (v : DWord), off < 4096 → off % 8 = 0 →
      let new := q.msix.filter (·.1 != off) ++ [(off, v)]
      (q.msiPending.find? (·.1 == off / 16) = none → exec (.registerWrite 64 off v) s = .next { q with msix := new }) ∧
      (∀ src, q.msiPending = [(off / 16, src)] → off % 16 = 8 → nearestHostPort q src ≠ none →
        (v.getLsbD 32 = true → exec (.registerWrite 64 off v) s = .next { q with msix := new }) ∧
        (v.getLsbD 32 = false → ∃ u, exec (.registerWrite 64 off v) s = .next u ∧ u.msiPending = [] ∧
          u.msi.length = q.msi.length + 1)))

/-- In u the entry of the partition's service ring that stood next in v is answered with a status (R351). -/
def Answered (v u : State) (x : Site) (status : Nat) : Prop :=
  let slot := x.svbase.toNat + 32 * (x.svNext % 2 ^ (x.svctl.extractLsb' 0 5).toNat)
  u = onSite (hostStore v (slot + 24) (toBytes 8 (2 ^ 63 + status))) x.n
    (fun x => { x with svNext := (x.svNext + 1) % 2 ^ 32, svBusy := none })

/-- R341, R343, R351 to R354, R357, R358, R405: an entry of the service ring whose reserved fields are not zero, that is
misaligned, or that names what is not of the partition is refused with status 2 and sets `fbctl.err`; a replay or cancel
of a fault that is not pending answers 1, else the entry is cancelled, or replayed within the replay budget, as is a
range, where an access that fails again waits in another entry; a marker stores its dword; an invalidate drops the table entries that
the slices hold for its range and its context, and no other, and with the drop bit the lines of its range, and then waits for their
leases; the tail is read while its line is not held; a flip changes the attribute of the leaves of its range page by page, to DB when
the site holds no host line of the page, to HB when the leases on its dropped lines have lapsed, or answers 3; a grant binds the
granted bits. -/
def Rules.ServiceRing : Prop :=
  ∀ (s : State),
    let q := park s
    let part := subject s 0
    let ops : List (Instr × Nat) := [(.serviceNop, 0), (.replayFault, 1), (.cancelFault, 2), (.replayRange, 3),
      (.invalidate, 4), (.flip, 5), (.marker, 6), (.grant, 7)]
    let h := findSite q (headSite q part)
    let pageFlipped (key : Nat) (e : DWord) (page site : Nat) (attr : DWord) : State :=
      onSite (agentStore (dropEntry q key) key key (toBytes 8 ((e &&& 0xC7FFFFFFFFFFFFFF#64) ||| attr).toNat)) site (fun x =>
        { x with svPage := x.svPage + page, svBusy := none, svHold := none })
    (let host := h.svtail.toNat / 2 ^ 52 = 0xFFF
     (svOpen q h = true → h.svHeld = false → ∃ u, exec .serviceTailObserved s = .next u ∧ u.mem = q.mem ∧
        (host → u = onSite (holdLine q h.n (iaLine h.svtail.toNat) true) h.n (fun x =>
          { x with svSeen := cellNat q.mem h.svtail.toNat 4, svHeld := true })) ∧
        (¬ host → u = onSite q h.n (fun x => { x with svSeen := cellNat q.mem h.svtail.toNat 4, svHeld := false }))) ∧
      (svOpen q h = false ∨ h.svHeld = true → exec .serviceTailObserved s = .next q) ∧
      (h.svBusy = none ∨ h.svHold ≠ none → exec .invalidateLeaseLapse s = .next q) ∧
      (∀ at_ lo len, h.svBusy = some (at_, lo, len) → h.svHold = none →
        let top := (q.lineTs.filter (fun t => lo ≤ t.line * 128 && t.line * 128 < lo + len)).foldl (fun acc t => max acc t.rts) 0
        let lapsed := at_ + 4096 ≤ q.cyc ∨ ∀ t ∈ q.teams, ∀ w ∈ t.weaves, ∀ p ∈ w.plies, top < p.pts
        (lapsed → ∃ u, exec .invalidateLeaseLapse s = .next u ∧ Answered q u h 0) ∧
        (¬ lapsed → exec .invalidateLeaseLapse s = .next q))) ∧
    (∀ e n, (e, n) ∈ ops → n ≠ 5 ∨ (h.svHold = none ∧ h.svPage = 0) → nextService q part = none → exec e s = .next q) ∧
    (∀ at_ lo len ctx y z, h.svBusy = some (at_, lo, len) → h.svHold = some (ctx, y, z) →
      (leasesLapsed q at_ lo len = false → exec .flip s = .next q) ∧
      (∀ key e page, leasesLapsed q at_ lo len = true → leafOf q ctx lo = some (key, e, page) → q.accs = [] → q.hostReqs = [] →
        exec .flip s = .next (pageFlipped key e page h.n 0x1800000000000000#64))) ∧
    (h.svBusy = none → h.svPage ≠ 0 → (svArgs (svEntry q h)).len ≤ h.svPage →
      ∃ u, exec .flip s = .next u ∧ Answered (onSite q h.n (fun x => { x with svPage := 0 })) u { h with svPage := 0 } 0) ∧
    (∀ x d, nextService q part = some (x, d) → x.svPage = 0 →
      let a := svArgs d
      let fields := svFieldsOk d = true
      let here := ctxInPart q part a.ctx = true
      (∀ e n, (e, n) ∈ ops → a.op ≠ n → (n = 0 → a.op < 8) → exec e s = .next q) ∧
      (8 ≤ a.op → ∃ u, exec .serviceNop s = .next u ∧ Answered (setFbErr q x.part) u x 2) ∧
      (∀ e n, (e, n) ∈ ops → a.op = n →
        (¬ fields ∨ ((n = 1 ∨ n = 2) ∧ a.site ∉ sitesOf q part) ∨ ((n = 3 ∨ n = 4 ∨ n = 5 ∨ n = 7) ∧ ¬ here)) →
        ∃ u, exec e s = .next u ∧ Answered (setFbErr q x.part) u x 2) ∧
      (a.op = 0 → fields → ∃ u, exec .serviceNop s = .next u ∧ Answered q u x 0) ∧
      (∀ e n, ((e = .replayFault ∧ n = 1) ∨ (e = .cancelFault ∧ n = 2)) → a.op = n → fields → a.site ∈ sitesOf q part →
        (findPending q a.site a.fid = none → ∃ u, exec e s = .next u ∧ Answered q u x 1) ∧
        (∀ p, findPending q a.site a.fid = some p → n = 2 → ∃ u, exec e s = .next u ∧ Answered (cancelEntry q p) u x 0) ∧
        (∀ p z, findPending q a.site a.fid = some p → n = 1 → payReplay q [p] = (z, false) → exec e s = .next z) ∧
        (∀ p z, findPending q a.site a.fid = some p → n = 1 → payReplay q [p] = (z, true) →
          ∃ u, exec e s = .next u ∧ Answered (replayEntry z p) u x 0)) ∧
      -- what a replay does to a fetch that waits in an entry: it is walked again, and where it fails still it waits in another entry
      (∀ p uid windex k y, findPending q p.home p.fid = some p → p.waiters = [.fetch uid windex k] → p.acc ≠ 6 →
        plyAt q uid windex k = some y → y.wait = .fetch → findPending (replayEntry q p) p.home p.fid = none ∧
        (p.fails (openReplay q p) (ctxMaster p.tag) = none →
          plyAt (replayEntry q p) uid windex k = some { y with wait := .none }) ∧
        (∀ f, p.fails (openReplay q p) (ctxMaster p.tag) = some f → plyAt (replayEntry q p) uid windex k = some y ∧
          ∃ r ∈ (replayEntry q p).pendings, .fetch uid windex k ∈ r.waiters ∧ (r.home, r.fid) ≠ (p.home, p.fid))) ∧
      (a.op = 3 → fields → here →
        let hit (p : Pending) : Bool := p.fid < maxPending && p.tag == a.ctx && a.ia ≤ p.page * 65536 && p.page * 65536 < a.ia + a.len
        ∀ z, (payReplay q (q.pendings.filter hit) = (z, true) → ∃ u, exec .replayRange s = .next u ∧ Answered (replayAll z hit) u x 0) ∧
          (payReplay q (q.pendings.filter hit) = (z, false) → exec .replayRange s = .next z)) ∧
      (a.op = 4 → fields → here →
        let kept (e : WalkEntry) : Prop := e.ctx ≠ a.ctx ∨ a.ia + a.len ≤ e.lo ∨ e.hi ≤ a.ia
        (a.drop = false → ∃ u c, exec .invalidate s = .next u ∧ Answered { q with walkCache := c } u x 0 ∧
          ∀ e, e ∈ c ↔ e ∈ q.walkCache ∧ kept e) ∧
        (a.drop = true → ∃ u, exec .invalidate s = .next u ∧ (∀ e ∈ u.walkCache, kept e) ∧
          (findSite u x.n).svBusy = some (q.cyc, a.ia, a.len) ∧ (findSite u x.n).svNext = (findSite q x.n).svNext ∧
          (∀ c ∈ u.cores, ∀ l ∈ c.l1, l.line * 128 < a.ia ∨ a.ia + a.len ≤ l.line * 128) ∧
          (∀ r ∈ u.replicas, r.line * 128 < a.ia ∨ a.ia + a.len ≤ r.line * 128))) ∧
      (a.op = 5 → fields → here →
        (a.ia % 65536 ≠ 0 ∨ a.len % 65536 ≠ 0 ∨ a.len = 0 ∨ leavesOf q a.ctx (a.len / 65536) a.ia (a.ia + a.len) = none →
          ∃ u, exec .flip s = .next u ∧ Answered q u x 3) ∧
        (∀ key e page, flipBad q a = false → leafOf q a.ctx a.ia = some (key, e, page) →
          let inside (line : Nat) : Prop := a.ia ≤ line * 128 ∧ line * 128 < a.ia + page
          (a.toBias = true → q.accs = [] → q.hostReqs = [] →
            ∃ u, exec .flip s = .next u ∧ (∀ y ∈ u.hbHeld ++ u.hbShared, ¬ inside y.2) ∧
              ((∀ y ∈ q.hbHeld ++ q.hbShared, ¬ inside y.2) → u = pageFlipped key e page x.n 0x2000000000000000#64)) ∧
          (a.toBias = false → ∃ u, exec .flip s = .next u ∧ (findSite u x.n).svBusy = some (q.cyc, a.ia, page) ∧
            (findSite u x.n).svHold = some (a.ctx, a.ia, page) ∧ (∀ c ∈ u.cores, ∀ l ∈ c.l1, ¬ inside l.line) ∧
            ∀ r ∈ u.replicas, ¬ inside r.line))) ∧
      (a.op = 6 → fields → ∃ u, exec .marker s = .next u ∧ Answered (agentStore q a.ia a.ia (toBytes 8 a.len)) u x 0) ∧
      (a.op = 7 → fields → here →
        (readGrant q (grantMaster a.ctx) x.n a.ia = none → ∃ u, exec .grant s = .next u ∧ Answered (setFbErr q x.part) u x 2) ∧
        (∀ granted, readGrant q (grantMaster a.ctx) x.n a.ia = some granted →
          let bound := bindBits q part (findCtx q a.ctx).bound (findCtx q a.ctx).granted granted
          ∃ u c, exec .grant s = .next u ∧ findCtx u a.ctx = c ∧ c.part = part ∧ c.granted = granted ∧ c.bound = bound ∧
            (findSite u x.n).svNext = ((findSite q x.n).svNext + 1) % 2 ^ 32)))

/-- R348, R359, R373: an access that found the pending table full tries again after 1,024 cycles, and one that its order
held back at its home is looked at again, as is an agent's access that found it full; an uncorrectable error
poisons the memory word, the word of a claim, or the register in which it lies, in the current map and in those of checkpoints, and
is recorded, and drops a clean L1 line; corrected errors are counted and
recorded at most once in 2^24 cycles of a unit. -/
def Rules.RetriesAndErrors : Prop :=
  ∀ (s : State),
    let q := park s
    (∀ id a, q.accs.find? (·.id == id) = some a →
      (∀ since, a.stage = .full since →
        (since + 1024 ≤ q.cyc → exec (.pendingTableRetry id) s = .next (arriveHome q a)) ∧
        (q.cyc < since + 1024 → exec (.pendingTableRetry id) s = .next q)) ∧
      (a.stage = .held → exec (.pendingTableRetry id) s = .next (arriveHome q a)) ∧
      (a.stage ≠ .held → (∀ since, a.stage ≠ .full since) → exec (.pendingTableRetry id) s = .next q)) ∧
    (∀ id p, q.accs.find? (·.id == id) = none → q.pendings.find? (·.fid == id) = some p →
      (maxPending ≤ p.fid → p.at_ + 1024 ≤ q.cyc → exec (.pendingTableRetry id) s = .next (replayEntry q p)) ∧
      (p.fid < maxPending ∨ q.cyc < p.at_ + 1024 → exec (.pendingTableRetry id) s = .next q)) ∧
    (∀ uid windex n, ∃ u, exec (.uncorrectableErrorFound 0 uid windex n) s = .next u ∧ n ∈ u.poisoned ∧ u.mem = q.mem ∧
      u.teams = q.teams ∧ ∃ e ∈ u.errs, e.kind = 2 ∧ e.unit = n * 4 / 2 ^ 46 % 64 * 1024 ∧ e.seq = q.errSeq % 65536) ∧
    (∀ uid windex n w r, findWeave q uid windex = some w → w.map.v.getD n none = some r → n < 192 → w.map.v.length = 192 →
      let struck (x : Option VReg) : Option VReg := x.map (fun x => if x.id == r.id then { x with poison := true } else x)
      ∃ u w', exec (.uncorrectableErrorFound 1 uid windex n) s = .next u ∧ findWeave u uid windex = some w' ∧
        w'.map = { w.map with v := w.map.v.map struck } ∧
        w'.region = w.region.map (fun g => { g with map := { g.map with v := g.map.v.map struck } }) ∧
        ∃ e ∈ u.errs, e.kind = 2) ∧
    (∀ uid windex n t, findTeam q uid = some t → ∃ u t', exec (.uncorrectableErrorFound 3 uid windex n) s = .next u ∧
      findTeam u uid = some t' ∧ n ∈ t'.scratchPoison ∧ t'.weaves = t.weaves ∧ u.mem = q.mem ∧
      ∃ e ∈ u.errs, e.kind = 2 ∧ e.unit = (coreOf q uid).unit) ∧
    (∀ uid windex line, ∃ u, exec (.uncorrectableErrorFound 10 uid windex line) s = .next u ∧ u.errs = q.errs ∧
      u.mem = q.mem ∧ ∀ c ∈ u.cores, c.id.unit = uid → ∀ l ∈ c.l1, l.line ≠ line) ∧
    (∀ unit n last, q.corrected.find? (fun (u, _, _) => u == unit) = some (unit, n, last) →
      (last + 2 ^ 24 ≤ q.cyc → ∃ u, exec (.correctedError unit) s = .next u ∧
        (∃ e ∈ u.errs, e.kind = 1 ∧ e.unit = unit ∧ e.x = n + 1) ∧ (unit, 0, q.cyc) ∈ u.corrected ∧ u.teams = q.teams) ∧
      (q.cyc < last + 2 ^ 24 → ∃ u, exec (.correctedError unit) s = .next u ∧ u.errs = q.errs ∧
        (unit, n + 1, last) ∈ u.corrected ∧ u.teams = q.teams))
/-- R341, R343, R348, R351 to R354, R357 to R359, R373, R405: the service ring, retries and errors. -/
def Obligations.ServiceRingAndErrors : Prop := Rules.ServiceRing ∧ Rules.RetriesAndErrors

/-! ### Steps between instructions: scan, time, mesh, links, ports -/

/-- R362 to R364, R371 to R373: of the live units of a site the next in ascending identifier drains, one at a time and
under the scan budget; an empty one is scanned, one required set after another, each once the scan class has given the
core-cycles that it takes (the model's; log 111); after 2^22 cycles the teams of a draining core are asked to leave; a unit
that passes its sets serves again and has passed in the round, one that fails is quarantined and reported. An unacknowledged record is
sent again; `cyc` is sampled against the controller's time every 1,500,000 ticks; a grandmaster's message within 1 µs
locks. -/
def Obligations.ScanAndTime : Prop :=
  ∀ (s : State),
    let q := park s
    let k := subject s 0
    let u := unitIdOf k
    let x := findSite q k
    let becomes (n : ScanState) : Host.Outcome State Fault Refusal := .next (setUnitScan q u n)
    (((∃ v ∈ siteUnits q k, unitScan q v = .drain ∨ unitScan q v = .scan) ∨ scanBudget q k = false) →
      exec .scanTurn s = .next q) ∧
    (∀ v ∈ siteUnits q k, (∀ w ∈ siteUnits q k, unitScan q w ≠ .drain ∧ unitScan q w ≠ .scan) → scanBudget q k = true →
      unitLive q v = true →
      ((x.turn ≤ v.unit ∧ ∀ w ∈ siteUnits q k, unitLive q w = true → x.turn ≤ w.unit → v.unit ≤ w.unit) ∨
        ∀ w ∈ siteUnits q k, unitLive q w = true → w.unit < x.turn ∧ v.unit ≤ w.unit) →
      exec .scanTurn s = .next (onSite (setUnitScan q v .drain) k (fun x => { x with turn := v.unit + 1 }))) ∧
    (unitScan q u = .drain →
      (unitEmpty q u = true → exec .scanDrainDone s = becomes .scan) ∧
      (unitEmpty q u = false → exec .scanDrainDone s = .next q) ∧
      (q.cyc < scanSince q u + 2 ^ 22 → exec .scanDrainTimeout s = .next q) ∧
      (scanSince q u + 2 ^ 22 ≤ q.cyc → u.engine = false → ∃ v, exec .scanDrainTimeout s = .next v ∧ v.mem = q.mem ∧
        v.teams.length = q.teams.length ∧ ∀ t ∈ v.teams, t.at_ = u.coreId → t.leaving ≠ none)) ∧
    (unitScan q u ≠ .drain → exec .scanDrainDone s = .next q ∧ exec .scanDrainTimeout s = .next q) ∧
    (unitScan q u ≠ .scan → exec .scanComplete s = .next q) ∧
    (unitScan q u = .scan →
      let n := unitScanSet q u
      let passes : Prop := ∃ w, exec .scanComplete s = .next w ∧ unitScan w u = .serve ∧ unitPassed w u = (findSite q u.site).round + 1
      ((requiredSets q u).length ≤ n → passes) ∧
      (∀ set z, (requiredSets q u)[n]? = some set → payOn q (4, k, set) u.site 0 { issue := Config.scanCycles k set } = (z, false) →
        exec .scanComplete s = .next z) ∧
      (∀ set z, (requiredSets q u)[n]? = some set → payOn q (4, k, set) u.site 0 { issue := Config.scanCycles k set } = (z, true) →
        (scanRun q u set = 0 → n + 1 < (requiredSets q u).length →
          ∃ w, exec .scanComplete s = .next w ∧ unitScan w u = .scan ∧ unitScanSet w u = n + 1) ∧
        (scanRun q u set = 0 → (requiredSets q u).length ≤ n + 1 → passes) ∧
        (scanRun q u set ≠ 0 → ∃ w, exec .scanComplete s = .next w ∧ unitScan w u = .quarantined ∧
          ∃ r ∈ w.errs, r.kind = 5 ∧ r.unit = u.unit ∧ r.x = set * 2 ^ 24 + (scanRun q u set - 1) * 2 ^ 8 + 1))) ∧
    (∀ seq ack, exec (.errorRecordResend seq ack) s = .next { q with errs := q.errs.map (fun r =>
      if r.seq = seq ∧ r.acked = false then { r with sends := r.sends + 1, acked := ack } else r) }) ∧
    (∀ ns, (q.ptp.cyc + 1500000 ≤ q.cyc → exec (.ptpSample ns) s = .next { q with ptp := { q.ptp with cyc := q.cyc, ns := ns } }) ∧
      (q.cyc < q.ptp.cyc + 1500000 → exec (.ptpSample ns) s = .next q)) ∧
    (∀ off, exec (.ptpSyncMessage off) s = .next { q with ptp := { q.ptp with offset := off, lock := decide (off < 1000) } })

/-- Every flit of a packet: in router inputs, where it was injected, and taken by the site that it heads for (R375). -/
def flitsOf (p : Packet) : Nat := p.left + (p.segs.map (·.n)).sum + p.got

/-- R111, R374 to R376, R378, R379, R381 to R383, R391, R414: a packet of which flits are still under way goes on: they follow its
header, none is lost, and the first packet of its channel moves its header over a seam with a link left into a router input whose
pool has flits for it, adaptively nearer to its goal or on its escape channel, and else waits. One that is whole at its
goal is discarded when it is stomped or a duplicate; one that fails authentication is a failed delivery, the eighth of which
fails its access; an accepted one is noted at its destination, and a request then stands at the seam gate until the earlier ones of
its ply to that home are performed. A packet of the external plane leaves and enters by the ports of its sites or
their proxies. The endpoint sends one again under its number. -/
def Obligations.Packets : Prop :=
  ∀ (s : State) (id : Nat),
    let q := park s
    let drop := { q with packets := q.packets.filter (·.id != id) }
    (q.packets.find? (·.id == id) = none → ∀ forged, exec (.meshPacketArrival id forged) s = .next q) ∧
    (∀ p, q.packets.find? (·.id == id) = some p → (∀ y ∈ q.packets, y.id = id → y = p) →
      let known := (p.src, p.cls, p.pseq) ∈ (findSite q p.dst).seen
      let instead (y : Packet) : List Packet := q.packets.map (fun x => if x.id = id then y else x)
      let outside := p.ext = true ∧ p.entry = none
      (∀ forged, p.settled q = false →
        (∃ u, exec (.meshPacketArrival id forged) s = .next u ∧ u.mem = q.mem ∧ u.teams = q.teams ∧ u.sites = q.sites ∧ u.accs = q.accs ∧
          (∀ y ∈ u.packets, y.id = id → flitsOf y = flitsOf p) ∧ ∀ y, y.id ≠ id → (y ∈ u.packets ↔ y ∈ q.packets)) ∧
        (p.segs = [] → p.at_ ≠ p.goal q →
          (nextHop q p = none → exec (.meshPacketArrival id forged) s = .next q) ∧
          (∀ m c, nextHop q p = some (m, c) → let n := inputTakes q (m, p.at_) c p.left
            ∃ u, exec (.meshPacketArrival id forged) s = .next u ∧ u.packets = q.packets.filter (·.id != id) ++
              [{ p with segs := [{ input := (m, p.at_), chan := c, n := n }], left := p.left - n }])) ∧
        (∀ x, p.at_ = p.goal q → p.segs = [x] → let n := inputTakes q x.input x.chan p.left
          ∃ u, exec (.meshPacketArrival id forged) s = .next u ∧
            u.packets = instead { p with segs := [{ x with n := 0 }], left := p.left - n, got := p.got + (x.n + n) })) ∧
      (∀ m c, nextHop q p = some (m, c) → let input := (m, p.at_)
        seamLive q p.at_ m = true ∧ (c = p.escape q ∨ hops m (p.goal q) < hops p.at_ (p.goal q)) ∧ (p.onEscape = true → c = p.chan) ∧
        (∀ y ∈ q.packets, y.entering input c = false) ∧ 0 < inputTakes q input c p.front) ∧
      (p.settled q = true →
        (∀ forged, outside → (exitSite q p.src = none ∨ entrySite q p.dst = none) → exec (.meshPacketArrival id forged) s = .next q) ∧
        (∀ forged x e, outside → exitSite q p.src = some x → entrySite q p.dst = some e →
          ∃ u, exec (.meshPacketArrival id forged) s = .next u ∧ u.mem = q.mem ∧ u.accs = q.accs ∧
            u.packets = instead { p with entry := some e, segs := [], left := p.flits, got := 0 }) ∧
        (¬ outside →
          (p.stomp = true → ∀ forged, exec (.meshPacketArrival id forged) s = .next drop) ∧
          (p.stomp = false →
            (p.node q ≠ none → portFull q p.dst = true → ∀ forged, exec (.meshPacketArrival id forged) s = .next q) ∧
            (p.node q = none ∨ portFull q p.dst = false →
              (p.domain q ≠ 0 → p.fails < 7 → ∃ u, exec (.meshPacketArrival id true) s = .next u ∧ u.mem = q.mem ∧
                u.packets = instead { p with fails := p.fails + 1 } ∧ u.fabricQ.length = q.fabricQ.length + 1) ∧
              (known → exec (.meshPacketArrival id false) s = .next drop) ∧
              (¬ known → exec (.meshPacketArrival id false) s = .next (acceptPacket (notePacket drop p) p)) ∧
              (∀ a, ¬ known → p.cls = 2 → q.accs.find? (·.id == p.acc) = some a → a.stage = .mesh →
                ∃ u, exec (.meshPacketArrival id false) s = .next u ∧ u.mem = q.mem ∧
                  u.accs.find? (·.id == p.acc) = some { a with stage := .gate } ∧ (∀ y ∈ u.packets, y.id ≠ id) ∧
                  (p.src, p.cls, p.pseq) ∈ (findSite u p.dst).seen))))) ∧
      (p.node q = none → p.ext = true → exec (.ultraEthernetRetransmission id) s =
        .next { q with nextId := q.nextId + 1, packets := q.packets ++ [{ p.afresh with id := q.nextId }] }) ∧
      (p.node q = none → p.ext = false → exec (.ultraEthernetRetransmission id) s = .next q) ∧
      (p.node q ≠ none → (findSite q p.dst).mode ≠ 1 → exec (.ultraEthernetRetransmission id) s = .next q) ∧
      (p.node q ≠ none → (findSite q p.dst).mode = 1 →
        (p.fails < 7 → exec (.ultraEthernetRetransmission id) s = .next { q with packets := instead { p with fails := p.fails + 1 } }) ∧
        (∀ a, 7 ≤ p.fails → q.accs.find? (·.id == p.acc) = some a → exec (.ultraEthernetRetransmission id) s =
          .next (faultAccess drop a ⟨a.src, 5, 0, a.ia⟩)))) ∧
    (∀ input c k, let n := inputTakes q input c k
      n ≤ k ∧ (chanFlits q input c = 0 → n ≤ sharedFree q input + 1) ∧
      (chanFlits q input c ≠ 0 → n ≤ sharedFree q input ∧ (sharedFree q input < 8 → n = 0))) ∧
    (∀ a, q.accs.find? (·.id == id) = some a →
      (a.stage = .gate → (isRlx a.order = true ∨ gateBefore q a = false) →
        exec (.gateRequestArrival id) s = .next (arriveHome q a)) ∧
      (a.stage ≠ .gate ∨ (isRlx a.order = false ∧ gateBefore q a = true) → exec (.gateRequestArrival id) s = .next q))

/-- Failed replays in a row on a link of a seam, and the port of a site with its flits as another site last heard. -/
def replays (u : State) (a b link : Nat) : Nat :=
  ((u.linkFails.find? (fun e => e.1 == a && e.2.1 == b && e.2.2.1 == link)).map (·.2.2.2)).getD 0

/-- R379 to R384: replays that fail in a row are counted on their link, and a replay that succeeds ends the row; a link
with 16 of them, or without lock, is dead, and a packet that it cuts goes on as a header only while its source sends it again; with all four dead the
detour tables of the seam are loaded; every 1,024 ticks a site tells every other one its queue and whether its port is up; a port goes down when too few wavelengths are live, at once
in standard mode and after 15,000 cycles in striped mode; its proxy announces itself; the port comes up again with its
wavelengths, and the proxy forwards for 75,000 cycles more. -/
def Obligations.LinksAndPorts : Prop :=
  ∀ (s : State),
    let q := park s
    let k := subject s 0
    let x := findSite q k
    (∀ a b link again, isSeam a b = true → link < 4 → ∃ u, exec (.flitCrcError a b link again) s = .next u ∧ u.mem = q.mem ∧
      replays u a b link = (if again then replays q a b link + 1 else 0) ∧
      ∀ c d l, (c, d, l) ≠ (a, b, link) → replays u c d l = replays q c d l) ∧
    (∀ a b link lock, isSeam a b = true → link < 4 → (∀ e ∈ q.deadLinks, ¬ (e.1 = a ∧ e.2.1 = b ∧ e.2.2.1 = link)) →
      ((lock = true ∨ ∃ e ∈ q.linkFails, e.1 = a ∧ e.2.1 = b ∧ e.2.2.1 = link ∧ 16 ≤ e.2.2.2) →
        ∃ u, exec (.linkDead a b link lock [] []) s = .next u ∧ u.deadLinks = q.deadLinks ++ [(a, b, link, q.cyc)] ∧
          u.packets = q.packets ∧ u.mem = q.mem ∧ u.fabricQ.length = q.fabricQ.length + 1 ∧ retryOf u (a, b, link) = []) ∧
      (∀ p, lock = true → q.packets = [p] → p.ext = false → cutBy q a b link p.id = true →
        ∃ u, exec (.linkDead a b link lock [p.id] []) s = .next u ∧
          u.packets = (p.segs.head?.map (fun x => { p with stomp := true, segs := [{ x with n := 1 }], left := 0, got := 0 })).toList ++
            [{ p with id := q.nextId, stomp := false, entry := none, segs := [], left := p.flits, got := 0 }]) ∧
      (lock = false → (∀ e ∈ q.linkFails, e.1 = a → e.2.1 = b → e.2.2.1 = link → e.2.2.2 < 16) →
        ∀ cut dup, exec (.linkDead a b link lock cut dup) s = .next q)) ∧
    (let b := subject s 1
     ((deadOf q k b).length < 4 ∨ (k, b) ∈ q.detours → exec .detourTablesLoaded s = .next q) ∧
     (4 ≤ (deadOf q k b).length → (k, b) ∉ q.detours → ∃ u, exec .detourTablesLoaded s = .next u ∧
        u.detours = q.detours ++ [(k, b)] ∧ u.mem = q.mem ∧ u.fabricQ.length = q.fabricQ.length + 1)) ∧
    (∀ site flits, isSite site = true → let y := findSite q site
      (cycAt q site / 1024 ≤ y.lpW → exec (.portQueueAdvertisement site flits) s = .next q) ∧
      (y.lpW < cycAt q site / 1024 → ∃ u, exec (.portQueueAdvertisement site flits) s = .next u ∧ u.mem = q.mem ∧
        (findSite u site).lp = min flits 1023 ∧ (findSite u site).lpW = cycAt q site / 1024 ∧
        ∀ n ∈ allSites, n ≠ site → ∃ p ∈ u.packets, p.src = site ∧ p.dst = n ∧ p.cls = 6 ∧
          p.cmd = [1, min flits 1023, if y.up then 1 else 0])) ∧
    (∀ p lp up, q.accs = [] → q.remotes = [] → p.cls = 6 → p.cmd = [1, lp, up] →
      let u := acceptPacket q p
      assoc? p.src (findSite u p.dst).heardLp = some lp ∧ (p.src ∈ (findSite u p.dst).heardDown ↔ up ≠ 1) ∧ u.mem = q.mem) ∧
    (x.up = true →
      (lanesSuffice x = false → (x.mode ≠ 2 ∨ x.lowAt + 15000 ≤ q.cyc) → ∃ u, exec .portDown s = .next u ∧
        (findSite u k).up = false ∧ (findSite u k).downAt = q.cyc ∧ (findSite u k).proxied = false ∧ u.mem = q.mem ∧
        u.fabricQ.length = q.fabricQ.length + 1) ∧
      (lanesSuffice x = true ∨ (x.mode = 2 ∧ q.cyc < x.lowAt + 15000) → exec .portDown s = .next q) ∧
      exec .proxyAnnounce s = .next q ∧ ∀ peer, exec (.portUp k peer) s = .next q) ∧
    (x.up = false → exec .portDown s = .next q ∧
      (proxyOf q k ≠ none → exec .proxyAnnounce s = .next (onSite q k (fun x => { x with proxied := true }))) ∧
      (proxyOf q k = none → exec .proxyAnnounce s = .next q) ∧
      (∀ peer, x.joined = true → x.opctl.getLsbD 63 = true → x.mode = 1 ∨ x.mode = 2 → x.dark = 0#16 → x.rtv = none →
        x.waitRetrain = [] → ∃ u, exec (.portUp k peer) s = .next u ∧ (findSite u k).up = true ∧
          (findSite u k).upAt = q.cyc ∧ (findSite u k).live = 0xFFFF#16 ∧ (findSite u k).trained = true ∧
          (findSite u k).handover = x.proxied ∧
          (findSite u k).peer = (if x.mode = 2 then some peer else none) ∧ u.mem = q.mem ∧
          u.fabricQ.length = q.fabricQ.length + 1) ∧
      (∀ peer, x.joined = false ∨ x.opctl.getLsbD 63 = false ∨ x.dark = 0xFFFF#16 → exec (.portUp k peer) s = .next q)) ∧
    ((x.handover = true → x.upAt + 75000 ≤ q.cyc →
        exec .proxyHandbackEnd s = .next (onSite q k (fun x => { x with handover := false }))) ∧
      (x.handover = false ∨ q.cyc < x.upAt + 75000 → exec .proxyHandbackEnd s = .next q))
/-! ### Steps between instructions: wavelengths, the striped link, hosts, firmware -/

/-- R335, R387 to R389, R406: a wavelength whose window has more errors than its threshold is withdrawn and retrains, one at a
time, as the budget of the retrain class allows; trained, it is live again; after three failed attempts it is dark. Loss of light darkens the four wavelengths of a
module. A dark wavelength is restored by command when it has light. -/
def Rules.Wavelengths : Prop :=
  ∀ (s : State) (site w : Nat),
    let q := park s
    let x := findSite q site
    (∀ errors, let limit := 2 ^ 30 < errors * 10 ^ (x.opctl.extractLsb' 56 4).toNat
      (w < 16 → x.live.getLsbD w = true → x.rtv = none → x.waitRetrain = [] → limit →
        ∃ u, exec (.berWindow site w errors) s = .next u ∧ (findSite u site).rtv = some w ∧ (findSite u site).tries = 0 ∧
          (∀ j < 16, (findSite u site).live.getLsbD j = (x.live.getLsbD j && decide (j ≠ w))) ∧
          (findSite u site).dark = x.dark ∧ u.mem = q.mem) ∧
      (x.live.getLsbD w = false ∨ x.rtv ≠ none ∨ x.waitRetrain ≠ [] ∨ ¬ limit →
        exec (.berWindow site w errors) s = .next q)) ∧
    (x.rtv = none ∨ mayUse q site 7 { mesh := 1 } = false → ∀ ok, exec (.retrainResult site ok) s = .next q) ∧
    (x.rtv = some w → w < 16 → x.waitRetrain = [] → mayUse q site 7 { mesh := 1 } = true →
      (∃ u, exec (.retrainResult site true) s = .next u ∧ (findSite u site).rtv = none ∧ u.mem = q.mem ∧
        (∀ j < 16, (findSite u site).live.getLsbD j = (x.live.getLsbD j || decide (j = w))) ∧ (findSite u site).dark = x.dark) ∧
      (x.tries < 2 → ∃ u, exec (.retrainResult site false) s = .next u ∧ (findSite u site).tries = x.tries + 1 ∧
        (findSite u site).rtv = some w ∧ (findSite u site).live = x.live ∧ (findSite u site).dark = x.dark ∧ u.mem = q.mem) ∧
      (2 ≤ x.tries → ∃ u, exec (.retrainResult site false) s = .next u ∧ (findSite u site).rtv = none ∧ u.mem = q.mem ∧
        (∀ j < 16, (findSite u site).dark.getLsbD j = (x.dark.getLsbD j || decide (j = w))) ∧
        (findSite u site).live = x.live)) ∧
    (∀ m, m < 4 →
      ((∀ j < 16, j / 4 = m → x.dark.getLsbD j = true) → exec (.lossOfLight site m) s = .next q) ∧
      ((∃ j < 16, j / 4 = m ∧ x.dark.getLsbD j = false) → ∃ u, exec (.lossOfLight site m) s = .next u ∧ u.mem = q.mem ∧
        (∀ j < 16, (findSite u site).dark.getLsbD j = (x.dark.getLsbD j || decide (j / 4 = m)) ∧
          (findSite u site).live.getLsbD j = (x.live.getLsbD j && decide (j / 4 ≠ m))) ∧
        u.cyc = q.cyc ∧ u.fabricQ.length = q.fabricQ.length + (if x.mode = 2 then 2 else 1))) ∧
    ((w < 16 → x.dark.getLsbD w = false) → exec (.restoreDarkWavelength site w true) s =
      .next { q with mgmt := q.mgmt ++ [(3, 1)] }) ∧
    exec (.restoreDarkWavelength site w false) s = .next { q with mgmt := q.mgmt ++ [(3, 1)] } ∧
    (w < 16 → x.dark.getLsbD w = true → x.rtv = none → x.waitRetrain = [] →
      ∃ u, exec (.restoreDarkWavelength site w true) s = .next u ∧ u.mgmt = q.mgmt ++ [(3, 0)] ∧
        (findSite u site).rtv = some w ∧ u.mem = q.mem ∧
        ∀ j < 16, (findSite u site).dark.getLsbD j = (x.dark.getLsbD j && decide (j ≠ w)))

/-- R374, R385 to R387, R389, R418: on a striped link that is up, a flit whose CRC does not hold, or a gap of 300 cycles, is answered by
a nak for the first missing seq; the next data flit is delivered, a later one is held, and one that was delivered before, is held, or came on
another wavelength than that of its position is discarded; an acknowledgement frees the flits below it and goes out after 16 flits or
300 cycles; a nak sends every kept flit from its seq on again, each on its wavelength; a lane-set flit sets the peer's lanes, and
where it shows that the peer lost a laser module, its wavelengths are dark here as well. A whole packet that was delivered enters the
module: an access goes to its home on the mesh in class 3. The CRC, the wavelength of control flits, and how a
received flit's position is checked are the model's (log 116, log 117, log 104). -/
def Rules.StripedLink : Prop :=
  ∀ (s : State) (site wave : Nat) (d0 : DWord) (payload : List Byte) (lset rest : BitVec 16) (crc : Word),
    let q := park s
    let x := findSite q site
    let k := x.stripe
    let now := subject s 0
    let becomes (e : Instr) (j : Stripe) : Prop := ∃ u, exec e s = .next u ∧ (findSite u site).stripe = j ∧ u.mem = q.mem ∧
      ∀ n, n ≠ site → findSite u n = findSite q n
    let control := ((List.range 16).filter (fun j => x.live.getLsbD j)).headD 0
    let nak : LinkFlit := { kind := 3, seq := k.rxNext, ack := k.rxNext, wave := control }
    let from_ (p q : Nat) : Bool := (q + 2 ^ 24 - p) % 2 ^ 24 < 2 ^ 23
    let place_ (live : BitVec 16) (base seq : Nat) : Nat :=
      let ws := (List.range 16).filter (fun j => live.getLsbD j)
      ws.getD ((seq + 2 ^ 24 - base) % 2 ^ 24 % max ws.length 1) 0
    let freed (ack : Nat) : Stripe :=
      if (ack + 2 ^ 24 - k.txAck) % 2 ^ 24 ≤ (k.txNext + 2 ^ 24 - k.txAck) % 2 ^ 24 then
        { k with txAck := ack % 2 ^ 24, kept := k.kept.filter (fun e => from_ ack e.1) }
      else k
    let again (k1 : Stripe) (seq : Nat) : Stripe := { k1 with sent := k1.sent ++ (k1.kept.filter (fun e => from_ seq e.1)).map (fun e =>
      { kind := 0, seq := e.1, ack := k.rxNext, payload := e.2, wave := place_ x.live k.txBase e.1 }) }
    let kind := (d0.extractLsb' 12 4).toNat
    let seq := (d0.extractLsb' 40 24).toNat
    let k1 := freed (d0.extractLsb' 16 24).toNat
    let e := Instr.stripedFlitReceive site wave d0 payload lset rest crc
    let whole (bs : List Byte) : Prop := 64 ≤ bs.length ∧ 64 * (1 + ((BitVec.ofNat 64 (ofBytes (bs.take 8))).extractLsb' 38 4).toNat) ≤ bs.length
    (x.up = false ∨ x.mode ≠ 2 ∨ payload.length ≠ 240 → exec e s = .next q) ∧
    (x.up = true → x.mode = 2 → payload.length = 240 →
      let good := crc32 (toBytes 8 d0.toNat ++ payload ++ toBytes 2 rest.toNat ++ toBytes 2 lset.toNat) = crc
      (¬ good → becomes e { k with sent := k.sent ++ [nak] }) ∧
      (good →
        (kind = 0 → ¬ whole k.rxBytes →
          let placed := from_ k.rxBase seq = false ∨ wave = place_ k.rxLive k.rxBase seq
          (seq = k.rxNext → k.rxHeld = [] → k.rxCount < 15 → placed →
            (¬ whole (k.rxBytes ++ payload) → becomes e { k1 with
              rxNext := (k.rxNext + 1) % 2 ^ 24, rxBytes := k.rxBytes ++ payload, rxCount := k.rxCount + 1, rxGap := none }) ∧
            ∃ u, exec e s = .next u ∧ (findSite u site).stripe.rxNext = (k.rxNext + 1) % 2 ^ 24 ∧ ¬ whole (findSite u site).stripe.rxBytes) ∧
          (seq ≠ k.rxNext → from_ k.rxNext seq = true → (∀ h ∈ k.rxHeld, h.1 ≠ seq) → (∀ h ∈ k.rxHeld, h.1 ≠ k.rxNext) → placed →
            k.rxCount < 16 → becomes e { k1 with rxHeld := k.rxHeld ++ [(seq, payload)], rxGap := some (k.rxGap.getD q.cyc) }) ∧
          (¬ placed ∨ from_ k.rxNext seq = false ∨ (∃ h ∈ k.rxHeld, h.1 = seq) → becomes e k1)) ∧
        (kind = 1 ∨ 4 ≤ kind → becomes e k1) ∧
        (kind = 2 → lostModule k.rxLive lset = none → becomes e { k1 with rxLive := lset, rxBase := seq }) ∧
        (∀ m, kind = 2 → lostModule k.rxLive lset = some m → m < 4 ∧ ∃ u, exec e s = .next u ∧ u.mem = q.mem ∧
          (findSite u site).stripe.rxLive = lset ∧ (findSite u site).stripe.rxBase = seq ∧
          ∀ j < 16, (findSite u site).dark.getLsbD j = (x.dark.getLsbD j || decide (j / 4 = m))) ∧
        (kind = 3 → becomes e (again k1 seq))) ∧
      (∀ seq ack, becomes (.nakReceive site seq ack) (again (freed ack) seq)) ∧
      (now = site →
        (16 ≤ k.rxCount ∨ k.rxAckAt + 300 ≤ q.cyc → becomes .stripedAckTimer
          { k with sent := k.sent ++ [{ kind := 1, seq := 0, ack := k.rxNext, wave := control }], rxCount := 0, rxAckAt := q.cyc }) ∧
        (k.rxCount < 16 → q.cyc < k.rxAckAt + 300 → becomes .stripedAckTimer k) ∧
        (∀ t, k.rxGap = some t →
          (t + 300 ≤ q.cyc → becomes .stripedGapTimeout { k with sent := k.sent ++ [nak], rxGap := some q.cyc }) ∧
          (q.cyc < t + 300 → becomes .stripedGapTimeout k)) ∧
        (k.rxGap = none → becomes .stripedGapTimeout k))) ∧
    -- a packet of the peer
    (∀ flits, let d : DWord := BitVec.ofNat 64 (ofBytes (flits.take 8))
      let home := (d.extractLsb' 58 6).toNat
      (d.extractLsb' 48 4 ≠ 3#4 ∨ d.getLsbD 37 = true ∨ isSite home = false → handPeer q site flits = q) ∧
      (d.extractLsb' 48 4 = 3#4 → d.getLsbD 37 = false → isSite home = true → home ≠ site →
        (∃ p ∈ (handPeer q site flits).packets, p.src = site ∧ p.dst = home ∧ p.cls = 3 ∧ p.acc = q.nextId) ∧
        ∃ r ∈ (handPeer q site flits).peerReqs, r.id = q.nextId ∧ r.port = site ∧ r.home = home ∧ r.data = flits.drop 64 ∧
          r.ia = ofBytes ((flits.drop 8).take 8)))

/-- R335, R374, R385 to R389, R406, R418: the wavelengths and the striped link of an optical port. -/
def Obligations.OpticalPorts : Prop := Rules.Wavelengths ∧ Rules.StripedLink

/-- R100, R342, R357, R395, R396: a host's access through a decoder of an up port acts under the decoder's context at the
address that the decoder gives; one that its home serves is done, and one through a decoder whose node is not the module's
waits for the service of a fault as no home. A port that goes down takes its unfinished requests with it, and an access
that waits for the host at it ends as host abort; a host grants a line to a site, for reading only or for writing, then to it alone, and takes it back by a snoop. -/
def Obligations.HostPorts : Prop :=
  ∀ (s : State) (port : Nat),
    let q := park s
    let site := hostPortSites.getD port 24
    let x := findSite q site
    (∀ dec off n write bytes,
      let len := if write then bytes.length else n
      let ia := (x.hdxia.getD dec 0#64).toNat + off
      let ctx := (x.hdxctx.getD dec 0#64).toNat
      let r : HostReq := { id := q.nextId, port := port, ctx := ctx, ia := ia, n := len, write := write, bytes := bytes }
      let v := { q with nextId := q.nextId + 1, hostReqs := q.hostReqs ++ [r] }
      let e := Instr.hostCxlMemAccess port dec off n write bytes
      (4 ≤ port ∨ 4 ≤ dec ∨ len = 0 ∨ 128 < ia % 128 + len ∨ portUp q port = false → exec e s = .next q) ∧
      (port < 4 → dec < 4 → 0 < len → ia % 128 + len ≤ 128 → portUp q port = true → iaNode ia = s.wafer →
        (place q (hostMaster port ctx) (if write then rightW else rightR) site ia).1.attr ≠ 3 → flipping v ctx ia = false →
        (∀ u bs bad, write = false → masterGet v (hostMaster port ctx) site ia n = .ok (u, bs, bad) → u.hostReqs = v.hostReqs →
          (∀ y ∈ q.hostReqs, y.id ≠ q.nextId) → exec e s = .next { u with hostReqs := q.hostReqs ++
            [{ r with done := true, fid := none, bytes := bs, err := bad }] }) ∧
        (∀ u, write = true → masterPut v (hostMaster port ctx) site ia bytes false = .ok u → u.hostReqs = v.hostReqs →
          (∀ y ∈ q.hostReqs, y.id ≠ q.nextId) → exec e s = .next { u with hostReqs := q.hostReqs ++
            [{ r with done := true, fid := none }] })) ∧
      (port < 4 → dec < 4 → 0 < len → ia % 128 + len ≤ 128 → portUp q port = true → iaNode ia ≠ s.wafer →
        ∃ u, exec e s = .next u ∧ u.mem = q.mem ∧ ∃ p ∈ u.pendings, p.kind = 5 ∧ .host q.nextId ∈ p.waiters)) ∧
    (∀ a, port < 4 → portUp q port = true → q.accs = [a] → a.stage = .host site → a.writes = false → (∀ c ∈ q.cores, c.log = []) →
      ∃ u, exec (.hostLinkDown port) s = .next u ∧ portUp u port = false ∧
        ((∃ p ∈ u.pendings, p.kind = 6 ∧ .acc a.id ∈ p.waiters) ∨ ∃ b ∈ u.accs, b.id = a.id ∧ b.stage = .full q.cyc)) ∧
    (port < 4 → portUp q port = true → q.hostUp.length = 4 → (∀ a ∈ q.accs, a.stage ≠ .host site) → (∀ c ∈ q.cores, c.log = []) →
      ∃ u, exec (.hostLinkDown port) s = .next u ∧ portUp u port = false ∧ u.mem = q.mem ∧ u.accs = q.accs ∧
        (∀ p, p ≠ port → portUp u p = portUp q p) ∧ (∀ r ∈ u.hostReqs, r.port = port → r.done = true) ∧
        ∀ r ∈ q.hostReqs, r.port ≠ port ∨ r.done = true → (∀ y ∈ q.hostReqs, y.id = r.id → y = r) → r ∈ u.hostReqs) ∧
    (4 ≤ port ∨ portUp q port = false → exec (.hostLinkDown port) s = .next q) ∧
    (port < 4 → x.joined = true → exec (.hostLinkUp port) s = .next { q with hostUp := q.hostUp.set port true }) ∧
    (4 ≤ port ∨ x.joined = false → exec (.hostLinkUp port) s = .next q) ∧
    (∀ at_ line sh a, nearestHostPort q at_ = some at_ → q.accs = [a] → a.stage = .host at_ → a.asked = true → a.src = at_ →
      iaLine a.ia = line → exec (.hostLineGrant at_ line sh) s = .next (pumpLogs (arriveHome (holdLine q at_ line sh) a))) ∧
    (∀ at_ line, (∀ a ∈ q.accs, ∀ p, a.stage ≠ .host p) → (∀ c ∈ q.cores, c.log = []) →
      (nearestHostPort q at_ ≠ none →
        (∀ sh, (at_, line) ∈ q.hbHeld → exec (.hostLineGrant at_ line sh) s = .next q) ∧
        ((at_, line) ∉ q.hbHeld →
          (∃ u, exec (.hostLineGrant at_ line false) s = .next u ∧ (at_, line) ∈ u.hbHeld ∧ (at_, line) ∉ u.hbShared ∧
            u.mem = q.mem ∧ u.teams = q.teams ∧ ∀ n, n ≠ at_ → (n, line) ∉ u.hbHeld ∧ (n, line) ∉ u.hbShared ∧
              ∀ c ∈ u.cores, (n, line) ∈ q.hbHeld ++ q.hbShared → c.id.site = n → ∀ l ∈ c.l1, l.line ≠ line) ∧
          exec (.hostLineGrant at_ line true) s = .next
            { q with hbShared := if q.hbShared.contains (at_, line) then q.hbShared else q.hbShared ++ [(at_, line)] })) ∧
      (nearestHostPort q at_ = none → ∀ sh, exec (.hostLineGrant at_ line sh) s = .next q)) ∧
    (∀ at_ line, ∃ u, exec (.hostSnoop at_ line false) s = .next u ∧ (at_, line) ∉ u.hbHeld ∧ (at_, line) ∉ u.hbShared ∧
      (∀ c ∈ u.cores, c.id.site = at_ → ∀ l ∈ c.l1, l.line ≠ line) ∧ u.mem = q.mem ∧
      ∀ y, y ≠ (at_, line) → (y ∈ u.hbHeld ↔ y ∈ q.hbHeld)) ∧
    (∀ at_ line, (at_, line) ∈ q.hbHeld → ∃ u, exec (.hostSnoop at_ line true) s = .next u ∧ (at_, line) ∉ u.hbHeld ∧
      (at_, line) ∈ u.hbShared ∧ u.mem = q.mem ∧ u.cores = q.cores)

/-- R401: what the management controller answers over SPDM: version 1.2; certificates, challenges and signed
measurements; ECDSA P-521 and SHA-512 or nothing; the digest and parts of the identity's chain; a signature over the
challenge and over the measurement blocks asked for; and unsupported request for every other one. -/
def Rules.Attestation : Prop :=
  ∀ (s : State) (port : Nat) (nonce : List Byte),
    let q := park s
    let answers (e : Instr) (a : SpdmAnswer) : Prop := exec e s = .next { q with spdm := q.spdm ++ [(port, a)] }
    let chain := identityChain q
    let digest := sha512 chain
    answers (.getVersion port) (.version 0x12) ∧ answers (.getCapabilities port) (.capabilities true true true) ∧
    answers (.negotiateAlgorithms port true true) .algorithms ∧
    (∀ a b, a = false ∨ b = false → answers (.negotiateAlgorithms port a b) .unsupportedRequest) ∧
    answers (.getDigests port) (.digest digest) ∧
    (∀ off len, answers (.getCertificate port off len)
      (.certificate ((chain.drop off).take len) (chain.length - off - len))) ∧
    answers (.challenge port nonce) (.challengeAuth digest (Config.identitySignature (sha512 (digest ++ nonce)))) ∧
    answers (.getMeasurements port 0 nonce) (.measurements 6 [] (Config.identitySignature (sha512 nonce))) ∧
    (∀ k, 1 ≤ k → k ≤ 6 → answers (.getMeasurements port k nonce)
      (.measurements 6 [(k, measured q k)] (Config.identitySignature (sha512 (measured q k ++ nonce))))) ∧
    answers (.getMeasurements port 0xFF nonce) (.measurements 6 ([1, 2, 3, 4, 5, 6].map (fun k => (k, measured q k)))
      (Config.identitySignature (sha512 ([1, 2, 3, 4, 5, 6].flatMap (measured q) ++ nonce)))) ∧
    (∀ k, 6 < k → k ≠ 0xFF → answers (.getMeasurements port k nonce) .unsupportedRequest) ∧
    answers (.spdmUnsupportedRequest port) .unsupportedRequest

/-- R6, R8, R399, R400, R404, R406, R407: a reset ends every team and access, keeps flash, scores and the defect map,
and writes a record with the map of what is in use; a cold one begins `cyc` at zero and a warm one does not; one that
stops at a step leaves the host ports down and is reported (what the report says is a free value: log 36). A command is answered with 0 when it is done and 1 when it is refused: the
power limit, a unit's return to service, a domain key, a site's partition and a configuration record. The core clock
moves by 25 MHz between 750 and 1,500 MHz. -/
def Rules.ResetsAndCommands : Prop :=
  ∀ (s : State) (units dram seams : List Nat),
    let q := park s
    let refused (e : Instr) (code : Nat) : Prop := exec e s = .next { q with mgmt := q.mgmt ++ [(code, 1)] }
    let done (e : Instr) (code : Nat) (v : State) : Prop := exec e s = .next { v with mgmt := q.mgmt ++ [(code, 0)] }
    (∀ e, (e = .coldReset units dram seams 0 ∨ ∃ c, e = .warmReset units dram seams c) → ∃ u, exec e s = .next u ∧
      u.teams = [] ∧ u.accs = [] ∧ u.launches = [] ∧ u.pendings = [] ∧ u.remotes = [] ∧ u.packets = [] ∧ u.powerLimit ≤ 48000 ∧
      u.flash = q.flash ++ [mapRecord q.flash (mapBody u.defects (fun n => (findSite u n).sta))] ∧
      (∀ d ∈ q.defects, d ∈ u.defects) ∧ u.bootStop = 0 ∧ u.cyc = (if e = .coldReset units dram seams 0 then 0 else q.cyc) ∧
      (∀ c ∈ q.cores, c.score ≠ 0 → (∀ d ∈ q.cores, d.id = c.id → d = c) → ∃ d ∈ u.cores, d.id = c.id ∧ d.score = c.score) ∧
      (∀ a, a / 2 ^ 52 = s.wafer → cellsWf q.mem = true → byteAt u a = 0#8) ∧
      (∀ a, a / 2 ^ 52 ≠ s.wafer → a / 2 ^ 52 ≠ u.wafer → cellsWf q.mem = true → byteAt u a = byteAt q a)) ∧
    (∀ stop, 1 ≤ stop → ∃ u, exec (.coldReset units dram seams stop) s = .next u ∧ u.bootStop = min stop 6 ∧ u.cyc = 0 ∧
      u.teams = [] ∧ (∀ p, portUp u p = false) ∧ (stop ≤ 5 → u.flash = q.flash ∧ u.defects = q.defects) ∧
      ∃ r ∈ u.errs, r.kind = (Config.bootReport (min stop 6)).1) ∧
    (∀ watts, (8000 ≤ watts → watts ≤ 48000 → done (.setPowerLimit watts) 1 { q with powerLimit := watts }) ∧
      (watts < 8000 ∨ 48000 < watts → refused (.setPowerLimit watts) 1)) ∧
    (∀ k, unitExists (unitIdOf k) = true → (∀ set ∈ requiredSets q (unitIdOf k), ∀ j, Config.scanResult j (unitIdOf k).unit set % 65537 = 0) →
      ∃ u, exec (.returnUnitToService k) s = .next u ∧ u.mgmt = q.mgmt ++ [(2, 0)] ∧ unitScore u (unitIdOf k) = 0 ∧
        unitScan u (unitIdOf k) = .serve ∧ ((unitIdOf k).engine = false → (findCore u (unitIdOf k).coreId).halted = false) ∧
        u.mem = q.mem) ∧
    (∀ k set, set ∈ requiredSets q (unitIdOf k) → (∀ j, Config.scanResult j (unitIdOf k).unit set % 65537 ≠ 0) →
      ∃ u, exec (.returnUnitToService k) s = .next u ∧ u.mgmt = q.mgmt ++ [(2, 1)] ∧ u.cores = q.cores ∧ u.clusters = q.clusters) ∧
    (∀ k, unitExists (unitIdOf k) = false → ∃ u, exec (.returnUnitToService k) s = .next u ∧
      u.mgmt = q.mgmt ++ [(2, 1)] ∧ u.cores = q.cores ∧ u.clusters = q.clusters) ∧
    (∀ d key, (1 ≤ d → d ≤ 255 → done (.writeDomainKey d key) 4
        { q with domainKeys := (d, key.take 32) :: q.domainKeys.filter (·.1 != d) }) ∧
      (d = 0 ∨ 255 < d → refused (.writeDomainKey d key) 4)) ∧
    (∀ site part, let held := ∃ t ∈ q.teams, t.at_.site = site ∧ (findCtx q t.ctx).part ≠ part % 16
      (isSite site = true → ¬ held → done (.writeSitepart site part) 5 (onSite q site (fun x => { x with part := part % 16 }))) ∧
      (isSite site = false ∨ held → refused (.writeSitepart site part) 5)) ∧
    (∀ bytes, let ok := recSigned q.flash bytes = true ∧ svnFloor q.flash (recKind bytes) ≤ recSvn bytes
      (ok → done (.writeRecord bytes) 6 { q with flash := q.flash ++ [bytes] }) ∧ (¬ ok → refused (.writeRecord bytes) 6)) ∧
    (750 ≤ q.clkMhz → q.clkMhz ≤ 1500 →
      exec (.powerClockAdjust true) s = .next { q with clkMhz := min 1500 (q.clkMhz + 25) } ∧
      exec (.powerClockAdjust false) s = .next { q with clkMhz := max 750 (q.clkMhz - 25) })
/-- R8, R399 to R401, R404, R406, R407: the management controller. -/
def Obligations.Firmware : Prop := Rules.Attestation ∧ Rules.ResetsAndCommands
end

