-- ==== Sys2Proof/Laws/Cells.lean ====
section
/-!
SUPPORT. The laws of sparse bytes: every write keeps the canonical form, a byte read after a write is the byte written,
and every other byte is left alone. Those of lists with entries set.
-/

namespace Sys2Proof.Machine

open Sys2Proof

theorem getD_setAt {α : Type} (d : α) (xs : List α) (n k : Nat) (x : α) :
    (setAt d xs n x).getD k d = if k = n then x else xs.getD k d := by
  induction n generalizing xs k with
  | zero => cases xs <;> cases k <;> simp [setAt]
  | succ n ih =>
    have key : ∀ (y : α) (ys : List α), (y :: ys).getD 0 d = y ∧ ∀ k, (y :: ys).getD (k + 1) d = ys.getD k d :=
      fun y ys => ⟨rfl, fun k => by simp⟩
    cases xs <;> cases k <;> simp only [setAt, key, ih, Nat.add_right_cancel_iff] <;> simp

theorem cellsAbove_mono {lo lo' : Nat} {m : List Host.Cell} (h : cellsAbove lo m = true) (hl : lo' ≤ lo) :
    cellsAbove lo' m = true := by
  cases m with
  | nil => rfl
  | cons c rest =>
    obtain ⟨k, b⟩ := c
    simp only [cellsAbove, Bool.and_eq_true, decide_eq_true_eq] at *
    exact ⟨⟨by omega, h.1.2⟩, h.2⟩

theorem cellsAbove_put {lo a : Nat} {b : Byte} {rest : List Host.Cell} (h : cellsAbove (a + 1) rest = true)
    (hl : lo ≤ a) : cellsAbove lo (cellPut a b rest) = true := by
  unfold cellPut
  split
  · exact cellsAbove_mono h (by omega)
  · simp_all [cellsAbove]

theorem cellsAbove_write {lo a : Nat} {b : Byte} {m : List Host.Cell} (h : cellsAbove lo m = true) (hl : lo ≤ a) :
    cellsAbove lo (cellWrite m a b) = true := by
  induction m generalizing lo with
  | nil => exact cellsAbove_put (by rfl) hl
  | cons c rest ih =>
    obtain ⟨k, x⟩ := c
    simp only [cellsAbove, Bool.and_eq_true, decide_eq_true_eq] at h
    obtain ⟨⟨h1, h2⟩, h3⟩ := h
    unfold cellWrite
    split
    · rename_i hk
      simp only [beq_iff_eq] at hk
      subst hk
      exact cellsAbove_put h3 h1
    · split
      · exact cellsAbove_put (by simp [cellsAbove, h2, h3]; omega) hl
      · rename_i hk hlt
        simp only [beq_iff_eq] at hk
        simp only [cellsAbove, Bool.and_eq_true, decide_eq_true_eq]
        exact ⟨⟨h1, h2⟩, ih h3 (by omega)⟩

/-- A write keeps the canonical form. -/
theorem wf_cellWrite {m : List Host.Cell} (h : cellsWf m = true) (a : Nat) (b : Byte) :
    cellsWf (cellWrite m a b) = true := cellsAbove_write h (Nat.zero_le a)

theorem wf_cellWriteN {m : List Host.Cell} (h : cellsWf m = true) (a : Nat) (bs : List Byte) :
    cellsWf (cellWriteN m a bs) = true := by
  induction bs generalizing m a with
  | nil => exact h
  | cons b rest ih => exact ih (wf_cellWrite h a b) (a + 1)

theorem wf_filter {m : List Host.Cell} (p : Host.Cell → Bool) (h : cellsWf m = true) : cellsWf (m.filter p) = true := by
  have key : ∀ lo, cellsAbove lo m = true → cellsAbove lo (m.filter p) = true := by
    clear h
    induction m with
    | nil => intro lo _; rfl
    | cons c rest ih =>
      obtain ⟨k, b⟩ := c
      intro lo h
      simp only [cellsAbove, Bool.and_eq_true, decide_eq_true_eq] at h
      rw [List.filter_cons]
      split
      · simp only [cellsAbove, Bool.and_eq_true, decide_eq_true_eq]
        exact ⟨h.1, ih _ h.2⟩
      · exact cellsAbove_mono (ih _ h.2) (by omega)
  exact key 0 h

theorem cellRead_above {lo a : Nat} {m : List Host.Cell} (h : cellsAbove lo m = true) (ha : a < lo) :
    cellRead m a = 0#8 := by
  cases m with
  | nil => rfl
  | cons c rest =>
    obtain ⟨k, b⟩ := c
    simp only [cellsAbove, Bool.and_eq_true, decide_eq_true_eq] at h
    have h1 : (k == a) = false := by simp; omega
    have h2 : a < k := by omega
    simp [cellRead, h1, h2]

theorem cellRead_put {a c : Nat} {b : Byte} {rest : List Host.Cell} (h : cellsAbove (a + 1) rest = true) :
    cellRead (cellPut a b rest) c = if c = a then b else cellRead rest c := by
  unfold cellPut
  split
  · rename_i hb
    simp only [beq_iff_eq] at hb
    split
    · rename_i hc; subst hc; rw [cellRead_above h (by omega), hb]
    · rfl
  · rename_i hb
    by_cases hc : c = a
    · subst hc; simp [cellRead]
    · have h1 : (a == c) = false := by simp; omega
      simp only [cellRead, h1, hc, if_false, Bool.false_eq_true]
      split
      · rename_i hlt; rw [cellRead_above h (by omega)]
      · rfl

theorem cellRead_write_above {lo : Nat} {m : List Host.Cell} (h : cellsAbove lo m = true) (a c : Nat) (b : Byte) :
    cellRead (cellWrite m a b) c = if c = a then b else cellRead m c := by
  induction m generalizing lo with
  | nil => exact cellRead_put (by rfl)
  | cons x rest ih =>
    obtain ⟨k, y⟩ := x
    simp only [cellsAbove, Bool.and_eq_true, decide_eq_true_eq] at h
    obtain ⟨⟨h1, h2⟩, h3⟩ := h
    unfold cellWrite
    split
    · rename_i hk
      simp only [beq_iff_eq] at hk
      subst hk
      rw [cellRead_put h3]
      split
      · rfl
      · rename_i hc
        have h4 : (k == c) = false := by simp; omega
        simp only [cellRead, h4, Bool.false_eq_true, if_false]
        split
        · rename_i hlt; rw [cellRead_above h3 (by omega)]
        · rfl
    · split
      · exact cellRead_put (by simp [cellsAbove, h2, h3]; omega)
      · rename_i hk hlt
        simp only [beq_iff_eq] at hk
        simp only [cellRead]
        rw [ih h3]
        by_cases hc : c = a
        · subst hc
          have h4 : (k == c) = false := by simp; omega
          simp [h4, hlt]
        · simp [hc]

/-- A byte read after a write: the byte written at its address, every other byte as it was. -/
theorem cellRead_cellWrite {m : List Host.Cell} (h : cellsWf m = true) (a c : Nat) (b : Byte) :
    cellRead (cellWrite m a b) c = if c = a then b else cellRead m c := cellRead_write_above h a c b

theorem cellRead_cellWriteN {m : List Host.Cell} (h : cellsWf m = true) (a c : Nat) (bs : List Byte) :
    cellRead (cellWriteN m a bs) c = if a ≤ c ∧ c < a + bs.length then bs.getD (c - a) 0#8 else cellRead m c := by
  induction bs generalizing m a with
  | nil => simp [cellWriteN]
  | cons b rest ih =>
    rw [cellWriteN, ih (wf_cellWrite h a b), cellRead_cellWrite h]
    by_cases hc : c = a
    · subst hc; simp
    · by_cases h1 : a + 1 ≤ c ∧ c < a + 1 + rest.length
      · have h2 : a ≤ c ∧ c < a + (b :: rest).length := by simp; omega
        have h3 : c - a = c - (a + 1) + 1 := by omega
        rw [if_pos h1, if_pos h2, h3]; simp
      · have h2 : ¬(a ≤ c ∧ c < a + (b :: rest).length) := by simp; omega
        rw [if_neg h1, if_neg h2, if_neg hc]

end Sys2Proof.Machine
end

