-- ==== Sys2Proof/Laws/Issue.lean ====
section
/-!
SUPPORT. What the shared operations of an instruction's issue do: reading a register after a write, what unmapping and
writing leave alone, and the completion of an effect as one lemma.
-/

namespace Sys2Proof.Safety

open Sys2Proof Sys2Proof.Machine

/-! ### Lists and maps -/

theorem lane_tabulate {w : Nat} (f : Nat → BitVec w) {i : Nat} (h : i < 32) : lane (tabulate f) i = f i := by
  simp [lane, tabulate, h]

theorem lane_mergeLanes {w : Nat} (m : LaneMask) (x y : List (BitVec w)) {i : Nat} (h : i < 32) :
    lane (mergeLanes m x y) i = if inMask m i then lane x i else lane y i := by
  rw [mergeLanes, lane_tabulate _ h]

@[simp] theorem setMap_map (s : State) (m : RegMap) : (setMap s m).weave.map = m := rfl
@[simp] theorem setMap_nextId (s : State) (m : RegMap) : (setMap s m).nextId = s.nextId := rfl
@[simp] theorem setMap_ply (s : State) (m : RegMap) : (setMap s m).ply = s.ply := rfl
@[simp] theorem setMap_kregs (s : State) (m : RegMap) : (setMap s m).weave.kregs = s.weave.kregs := rfl
@[simp] theorem snapScalar_map (s : State) (r : SReg) : (snapScalar s r).weave.map = s.weave.map := rfl
@[simp] theorem snapLatches_map (s : State) (id : Nat) (v : LaneVec) :
    (snapLatches s id v).weave.map = s.weave.map := rfl

theorem getD_setV (m : RegMap) (n k : Nat) (r : Option VReg) :
    (m.setV n r).v.getD k none = if k = n then r else m.v.getD k none := getD_setAt _ _ _ _ _
theorem getD_setS (m : RegMap) (n k : Nat) (r : Option SReg) :
    (m.setS n r).s.getD k none = if k = n then r else m.s.getD k none := getD_setAt _ _ _ _ _

theorem vget_unmapV (s : State) (n k : Nat) : vget (unmapV s n) k = if k = n then none else vget s k := by
  unfold unmapV
  split
  · rename_i h; split
    · rename_i hk; subst hk; exact h
    · rfl
  · exact getD_setV _ _ _ _

theorem sget_unmapV (s : State) (n k : Nat) : sget (unmapV s n) k = sget s k := by
  unfold unmapV; split <;> rfl

theorem sget_unmapS (s : State) (n k : Nat) : sget (unmapS s n) k = if k = n then none else sget s k := by
  unfold unmapS
  split
  · rename_i h; split
    · rename_i hk; subst hk; exact h
    · rfl
  · exact getD_setS _ _ _ _

theorem vget_unmapS (s : State) (n k : Nat) : vget (unmapS s n) k = vget s k := by
  unfold unmapS; split <;> rfl

theorem vget_unmapName (s : State) (c k : Nat) (hk : k < 192) :
    vget (unmapName s c) k = if k = c then none else vget s k := by
  unfold unmapName
  split
  · exact vget_unmapV s c k
  · rename_i h
    have : k ≠ c := by simp [isV] at h; omega
    rw [if_neg this, vget_unmapS]

theorem sget_unmapName (s : State) (c k : Nat) :
    sget (unmapName s c) k = if 0xC0 + k = c then none else sget s k := by
  unfold unmapName
  split
  · rename_i h
    have : 0xC0 + k ≠ c := by simp [isV] at h; omega
    rw [if_neg this, sget_unmapV]
  · rename_i h
    rw [sget_unmapS]
    have h1 : 0xC0 ≤ c := by simp [isV] at h; omega
    by_cases hk : k = c - 0xC0
    · rw [if_pos hk, if_pos (by omega)]
    · rw [if_neg hk, if_neg (by omega)]

theorem vget_unmapNames (cs : List Nat) (s : State) (k : Nat) (hk : k < 192) :
    vget (cs.foldl unmapName s) k = if k ∈ cs then none else vget s k := by
  induction cs generalizing s with
  | nil => simp
  | cons c rest ih =>
    rw [List.foldl_cons, ih, vget_unmapName _ _ _ hk]
    by_cases h : k = c <;> by_cases h' : k ∈ rest <;> simp [h, h']

theorem sget_unmapNames (cs : List Nat) (s : State) (k : Nat) :
    sget (cs.foldl unmapName s) k = if 0xC0 + k ∈ cs then none else sget s k := by
  induction cs generalizing s with
  | nil => simp
  | cons c rest ih =>
    rw [List.foldl_cons, ih, sget_unmapName]
    by_cases h : 0xC0 + k = c <;> by_cases h' : 0xC0 + k ∈ rest <;> simp [h, h']

theorem mem_distinct_aux (xs acc : List Nat) (x : Nat) :
    x ∈ xs.foldl (fun acc x => if acc.contains x then acc else acc ++ [x]) acc ↔ x ∈ acc ∨ x ∈ xs := by
  induction xs generalizing acc with
  | nil => simp
  | cons y rest ih =>
    rw [List.foldl_cons, ih]
    split <;> rename_i h <;> simp at h <;> simp
    · constructor
      · rintro (h1 | h1) <;> simp [h1]
      · rintro (h1 | rfl | h1) <;> simp [*]
    · tauto

theorem mem_distinct (xs : List Nat) (x : Nat) : x ∈ distinct xs ↔ x ∈ xs := by
  rw [distinct, mem_distinct_aux]; simp

/-! ### What the steps of R44 leave alone -/

@[simp] theorem rest_setMap (s : State) (m : RegMap) : rest (setMap s m) = rest s := rfl
@[simp] theorem rest_snapLatches (s : State) (id : Nat) (v : LaneVec) :
    rest (snapLatches s id v) = rest s := rfl
@[simp] theorem rest_snapScalar (s : State) (r : SReg) : rest (snapScalar s r) = rest s := rfl

/-- What unmapping a register that is there and leaving the state alone both keep. -/
theorem unmapName_keeps {γ : Type} (p : State → γ) (hm : ∀ s m, p (setMap s m) = p s)
    (hv : ∀ s id v, p (snapLatches s id v) = p s) (hs : ∀ s r, p (snapScalar s r) = p s) (s : State) (c : Nat) :
    p (unmapName s c) = p s := by
  unfold unmapName unmapV unmapS
  split
  · split
    · rfl
    · rw [hm, hv]
  · split
    · rfl
    · rw [hm, hs]

theorem rest_unmapName (s : State) (c : Nat) : rest (unmapName s c) = rest s :=
  unmapName_keeps rest (fun _ _ => rfl) (fun _ _ _ => rfl) (fun _ _ => rfl) s c

theorem rest_applyWrite (s : State) (w : Write) : rest (applyWrite s w) = rest s := by
  have hv : ∀ s n m vals, rest (writeV s n m vals) = rest s := by
    intro s n m vals
    unfold writeV
    split
    · simp only; split <;> rfl
    · rfl
  cases w with
  | v n m vals => exact hv ..
  | pair n m vals => simp only [applyWrite]; rw [hv, hv]
  | s n x =>
    simp only [applyWrite, writeS]
    split
    · split <;> rfl
    · rfl
  | k n m x => rfl

/-! ### Folds -/

/-- What every step keeps, a fold keeps. -/
theorem foldl_keeps {α β γ : Type} (p : β → γ) (g : β → α → β) (h : ∀ b a, p (g b a) = p b) (xs : List α) (b : β) :
    p (xs.foldl g b) = p b := by
  induction xs generalizing b with
  | nil => rfl
  | cons x rest ih => rw [List.foldl_cons, ih, h]

theorem rest_closeLatches (s : State) (r : Row) (f : Fields) : rest (closeLatches s r f) = rest s :=
  foldl_keeps rest _ (fun b k => by dsimp only; split <;> rfl) _ _

theorem rest_afterReads (s : State) (r : Row) (f : Fields) : rest (afterReads s r f) = rest s := by
  rw [afterReads, rest_closeLatches, foldl_keeps rest _ rest_unmapName]

theorem rest_applyWrites (s : State) (ws : List Write) : rest (applyWrites s ws) = rest s :=
  foldl_keeps rest _ rest_applyWrite _ _

theorem map_closeLatches (s : State) (r : Row) (f : Fields) :
    (closeLatches s r f).weave.map = s.weave.map ∧ (closeLatches s r f).weave.kregs = s.weave.kregs := by
  constructor
  · exact foldl_keeps (fun s : State => s.weave.map) _ (fun b k => by dsimp only; split <;> rfl) _ _
  · exact foldl_keeps (fun s : State => s.weave.kregs) _ (fun b k => by dsimp only; split <;> rfl) _ _

/-! ### The cores -/

theorem findCore_id (s : State) (c : CoreId) : (findCore s c).id = c := by
  unfold findCore
  cases h : s.cores.find? (·.id == c) with
  | none => rfl
  | some x => simpa using List.find?_some h

theorem find?_replace_core (c : Core) (d : CoreId) (xs : List Core) :
    (replaceFirst (·.id == c.id) (fun _ => c) xs).find? (·.id == d) =
      if d = c.id ∧ xs.any (·.id == c.id) then some c else xs.find? (·.id == d) := by
  induction xs with
  | nil => simp [replaceFirst]
  | cons y rest ih =>
    unfold replaceFirst
    by_cases hy : y.id = c.id
    · by_cases hd : d = c.id
      · subst hd; simp [hy]
      · have h1 : (c.id == d) = false := by simp; exact fun h => hd h.symm
        have h2 : (y.id == d) = false := by rw [hy]; exact h1
        simp [hy, h1, hd]
    · have h0 : (y.id == c.id) = false := by simp [hy]
      simp only [h0, Bool.false_eq_true, if_false, List.find?_cons, ih, List.any_cons, Bool.false_or]
      by_cases hd : d = c.id
      · subst hd; simp [h0]
      · simp [hd]

theorem findCore_setCore (s : State) (c : Core) (d : CoreId) :
    findCore (setCore s c) d = if d = c.id then c else findCore s d := by
  unfold setCore findCore
  split
  · rename_i h
    simp only [find?_replace_core]
    by_cases hd : d = c.id
    · simp [hd, h]
    · simp [hd]
  · rename_i h
    simp only [Bool.not_eq_true] at h
    by_cases hd : d = c.id
    · subst hd
      have h1 : s.cores.find? (·.id == c.id) = none := by
        simp only [List.any_eq_false, List.find?_eq_none] at *; exact h
      simp [List.find?_append, h1]
    · have h1 : (c.id == d) = false := by simp; exact fun h => hd h.symm
      simp [List.find?_append, h1, hd]

theorem coreRest_onCore (s : State) (c d : CoreId) (f : Core → Core) (hid : ∀ x, (f x).id = x.id)
    (hf : ∀ x, { f x with latchOwner := [] } = { x with latchOwner := [] }) :
    coreRest (onCore s c f) d = coreRest s d := by
  unfold coreRest onCore
  rw [findCore_setCore, hid, findCore_id]
  split
  · rename_i h; subst h; exact hf _
  · rfl

/-! ### Completion -/

/-- The state of `complete` before the latch window opens and the ply goes on. `before` are the weave's other plies at
issue. -/
def counted (before : List Ply) (s : State) (r : Row) (f : Fields) (m : LaneMask) (ws : List Write) (fl : Flags) : State :=
  countLatches (markPending (countSr (countIssue before (spoilCyc (orFlags
    (noteNames (applyWrites (afterReads s r f) ws) (notedNames r f ws)) fl) r f)) r f m) r f ws)

theorem complete_eq (s0 s : State) (r : Row) (f : Fields) (a : DWord) (m : LaneMask) (ws : List Write) (fl : Flags)
    (next : Option DWord) :
    complete s0 r f a m s ws fl next =
      let t := openLatch (counted s0.weave.plies s r f m ws fl) r.slot (holdWindow s0 r f r.slot.latch)
      { t with ply := { t.ply with pc := next.getD (afterPc a f), nextAt := s0.clk + (if r.cls == .c && next.isSome then 6 else 1) } } := rfl

/-- What each step of `counted` after the writes keeps, all of them keep. -/
theorem counted_keeps {γ : Type} (p : State → γ) (hn : ∀ s n, p (noteNames s n) = p s) (hf : ∀ s fl, p (orFlags s fl) = p s)
    (hc : ∀ s r f, p (spoilCyc s r f) = p s) (hi : ∀ b s, p (countIssue b s) = p s) (hsr : ∀ s r f m, p (countSr s r f m) = p s)
    (hp : ∀ s r f ws, p (markPending s r f ws) = p s) (hl : ∀ s, p (countLatches s) = p s)
    (before : List Ply) (s : State) (r : Row) (f : Fields) (m : LaneMask) (ws : List Write) (fl : Flags) :
    p (counted before s r f m ws fl) = p (applyWrites (afterReads s r f) ws) := by
  rw [counted, hl, hp, hsr, hi, hc, hf, hn]

/-- The counts of a ply change nothing but them. -/
theorem blankNotes_sawIssue (p : Ply) (step : Nat) :
    ({ blankNotes (p.sawIssue step) with passed := 0, dueAt := none } : Ply) = { blankNotes p with passed := 0, dueAt := none } := by
  unfold Ply.sawIssue Ply.markDue
  split
  · dsimp only; split <;> rfl
  · rfl

theorem rest_countIssue (before : List Ply) (s : State) : rest (countIssue before s) = rest s := by
  simp only [rest, countIssue, List.map_map, Option.map_map]
  congr 2
  congr 1
  funext p
  simp only [Function.comp]
  split
  · exact blankNotes_sawIssue p _
  · rfl

theorem blankNotes_noteOwn (p : Ply) (names : List (Nat × LaneMask)) :
    blankNotes { p with fence := p.fence.map (·.noteOwn names) } = blankNotes p := by
  unfold blankNotes
  rw [Option.map_map]
  rfl

theorem blankNotes_noteOther (p : Ply) (names : List (Nat × LaneMask)) :
    blankNotes { p with fence := p.fence.map (·.noteOther names) } = blankNotes p := by
  unfold blankNotes
  rw [Option.map_map]
  rfl

theorem rest_noteNames (s : State) (names : List (Nat × LaneMask)) : rest (noteNames s names) = rest s := by
  simp only [rest, noteNames, List.map_map, blankNotes_noteOwn]
  congr 2
  congr 1
  funext p
  simp only [Function.comp, blankNotes_noteOther]

theorem rest_counted (before : List Ply) (s : State) (r : Row) (f : Fields) (m : LaneMask) (ws : List Write) (fl : Flags) :
    rest (counted before s r f m ws fl) = rest s := by
  rw [counted_keeps rest rest_noteNames (fun _ _ => rfl) (fun s r f => by unfold spoilCyc; split <;> rfl) rest_countIssue
    (fun s r f m => by unfold countSr; split <;> rfl) (fun s r f ws => by unfold markPending; dsimp only; split <;> rfl)
    (fun _ => rfl), rest_applyWrites, rest_afterReads]

theorem rest_openLatch (s : State) (sl : Slot) (w : Option LatchWin) : rest (openLatch s sl w) = rest s := by
  unfold openLatch
  split
  · rfl
  · simp only [onCore, setCore]; split <;> rfl

theorem rest_complete (s0 s : State) (r : Row) (f : Fields) (a : DWord) (m : LaneMask) (ws : List Write) (fl : Flags)
    (next : Option DWord) : rest (complete s0 r f a m s ws fl next) = rest s := by
  refine Eq.trans ?_ ((rest_openLatch (counted s0.weave.plies s r f m ws fl) r.slot (holdWindow s0 r f r.slot.latch)).trans
    (rest_counted s0.weave.plies s r f m ws fl))
  rfl

theorem map_counted (before : List Ply) (s : State) (r : Row) (f : Fields) (m : LaneMask) (ws : List Write) (fl : Flags) :
    (counted before s r f m ws fl).weave.map = (applyWrites (afterReads s r f) ws).weave.map ∧
    (counted before s r f m ws fl).weave.kregs = (applyWrites (afterReads s r f) ws).weave.kregs :=
  ⟨counted_keeps (·.weave.map) (fun _ _ => rfl) (fun _ _ => rfl) (fun s r f => by unfold spoilCyc; split <;> rfl)
      (fun _ _ => rfl) (fun s r f m => by unfold countSr; split <;> rfl)
      (fun s r f ws => by unfold markPending; dsimp only; split <;> rfl) (fun _ => rfl) ..,
   counted_keeps (·.weave.kregs) (fun _ _ => rfl) (fun _ _ => rfl) (fun s r f => by unfold spoilCyc; split <;> rfl)
      (fun _ _ => rfl) (fun s r f m => by unfold countSr; split <;> rfl)
      (fun s r f ws => by unfold markPending; dsimp only; split <;> rfl) (fun _ => rfl) ..⟩

theorem map_openLatch (s : State) (sl : Slot) (w : Option LatchWin) :
    (openLatch s sl w).weave.map = s.weave.map ∧ (openLatch s sl w).weave.kregs = s.weave.kregs ∧
    (openLatch s sl w).weave.fpflags = s.weave.fpflags ∧ (openLatch s sl w).weave.srcnt = s.weave.srcnt ∧
    (openLatch s sl w).ply = s.ply := by
  unfold openLatch
  split
  · simp
  · simp [onCore, setCore]

theorem map_complete (s0 s : State) (r : Row) (f : Fields) (a : DWord) (m : LaneMask) (ws : List Write) (fl : Flags)
    (next : Option DWord) :
    (complete s0 r f a m s ws fl next).weave.map = (applyWrites (afterReads s r f) ws).weave.map ∧
    (complete s0 r f a m s ws fl next).weave.kregs = (applyWrites (afterReads s r f) ws).weave.kregs := by
  rw [complete_eq]
  exact ⟨(map_openLatch _ _ _).1.trans (map_counted ..).1, (map_openLatch _ _ _).2.1.trans (map_counted ..).2⟩

theorem fpflags_unmapName (s : State) (c : Nat) :
    (unmapName s c).weave.fpflags = s.weave.fpflags ∧ (unmapName s c).weave.srcnt = s.weave.srcnt :=
  ⟨unmapName_keeps (·.weave.fpflags) (fun _ _ => rfl) (fun _ _ _ => rfl) (fun _ _ => rfl) s c,
   unmapName_keeps (·.weave.srcnt) (fun _ _ => rfl) (fun _ _ _ => rfl) (fun _ _ => rfl) s c⟩

theorem fpflags_applyWrite (s : State) (w : Write) :
    (applyWrite s w).weave.fpflags = s.weave.fpflags ∧ (applyWrite s w).weave.srcnt = s.weave.srcnt := by
  have hv : ∀ s n m vals, (writeV s n m vals).weave.fpflags = s.weave.fpflags ∧
      (writeV s n m vals).weave.srcnt = s.weave.srcnt := by
    intro s n m vals
    unfold writeV
    split
    · simp only; split <;> exact ⟨rfl, rfl⟩
    · exact ⟨rfl, rfl⟩
  cases w with
  | v n m vals => exact hv ..
  | pair n m vals => exact ⟨(hv ..).1.trans (hv ..).1, (hv ..).2.trans (hv ..).2⟩
  | s n x =>
    simp only [applyWrite, writeS]
    split
    · split <;> exact ⟨rfl, rfl⟩
    · exact ⟨rfl, rfl⟩
  | k n m x => exact ⟨rfl, rfl⟩

theorem fpflags_writes (s : State) (r : Row) (f : Fields) (ws : List Write) :
    (applyWrites (afterReads s r f) ws).weave.fpflags = s.weave.fpflags ∧
    (applyWrites (afterReads s r f) ws).weave.srcnt = s.weave.srcnt := by
  have h1 : ∀ (b : State) (r : Row) (f : Fields), (closeLatches b r f).weave.fpflags = b.weave.fpflags ∧
      (closeLatches b r f).weave.srcnt = b.weave.srcnt := fun b r f =>
    ⟨foldl_keeps (fun s : State => s.weave.fpflags) _ (fun b k => by dsimp only; split <;> rfl) _ _,
     foldl_keeps (fun s : State => s.weave.srcnt) _ (fun b k => by dsimp only; split <;> rfl) _ _⟩
  constructor
  · rw [applyWrites, foldl_keeps (fun s : State => s.weave.fpflags) _ (fun b w => (fpflags_applyWrite b w).1), afterReads,
      (h1 _ _ _).1, foldl_keeps (fun s : State => s.weave.fpflags) _ (fun b c => (fpflags_unmapName b c).1)]
  · rw [applyWrites, foldl_keeps (fun s : State => s.weave.srcnt) _ (fun b w => (fpflags_applyWrite b w).2), afterReads,
      (h1 _ _ _).2, foldl_keeps (fun s : State => s.weave.srcnt) _ (fun b c => (fpflags_unmapName b c).2)]

theorem fpflags_complete (s0 s : State) (r : Row) (f : Fields) (a : DWord) (m : LaneMask) (ws : List Write) (fl : Flags)
    (next : Option DWord) :
    (complete s0 r f a m s ws fl next).weave.fpflags = s.weave.fpflags ||| fl ∧
    (f.rnd ≠ 5 → (complete s0 r f a m s ws fl next).weave.srcnt = s.weave.srcnt) := by
  rw [complete_eq]
  refine ⟨(map_openLatch _ _ _).2.2.1.trans ?_, fun hr => (map_openLatch _ _ _).2.2.2.1.trans ?_⟩
  · rw [← (fpflags_writes s r f ws).1]
    unfold counted markPending countSr spoilCyc
    dsimp only
    split <;> split <;> split <;> rfl
  · have h5 : (modeApplies r f && f.rnd == 5) = false := by simp [hr]
    rw [← (fpflags_writes s r f ws).2]
    unfold counted markPending countSr spoilCyc
    simp only [h5, Bool.false_eq_true, if_false]
    split <;> split <;> rfl

theorem ply_complete (s0 s : State) (r : Row) (f : Fields) (a : DWord) (m : LaneMask) (ws : List Write) (fl : Flags)
    (next : Option DWord) :
    (complete s0 r f a m s ws fl next).ply.pc = next.getD (afterPc a f) ∧
    (complete s0 r f a m s ws fl next).ply.wait = .none := by
  rw [complete_eq]
  refine ⟨rfl, (congrArg Ply.wait (map_openLatch _ _ _).2.2.2.2).trans ?_⟩
  unfold counted markPending countSr spoilCyc
  dsimp only
  split <;> split <;> split <;> rfl

end Sys2Proof.Safety
end

