-- ==== Sys2Proof/Laws/Complete.lean ====
section
/-!
SUPPORT. An instruction that may issue and whose effect completes: the state it leaves, for each shape of result. The
proofs of the family statements cite these lemmas and unfold no shared operation.
-/

namespace Sys2Proof.Safety

open Sys2Proof Sys2Proof.Machine

/-- Engines on which the context may post take what is offered (R345). -/
theorem offerCommand_of_mayPost {s : State} (h : mayPost s = true) (r : Result) : offerCommand s r = r := by
  unfold offerCommand; rw [if_pos h]

/-- A well-formed instruction with a row has legal fields and a prefix that its opcode takes. -/
theorem legal_of_wellFormed {i : Instr} {f : Fields} {r : Row} (hw : i.wellFormed = true) (hf : fieldsOf i = some f)
    (hr : rowOf i = some r) : r.legal (opcodeOf i) f = true ∧ prefixFine (opcodeOf i) f = true := by
  have key : (match rowOf i, fieldsOf i with
    | some r, some f =>
      r.legal (opcodeOf i) f &&
      (match f.pfx with
       | none => true
       | some p => prefixOk (opcodeOf i) p)
    | _, _ => true) = true := by
    cases i
    case nop => simp [fieldsOf] at hf
    case reservedOpcodeInstruction => simp [fieldsOf] at hf
    all_goals exact hw
  simp only [hr, hf, Bool.and_eq_true] at key
  refine ⟨key.1, ?_⟩
  unfold prefixFine
  exact key.2

theorem clear_of_canIssue {s : State} {i : Instr} {f : Fields} {r : Row} (h : CanIssue s i f) (hf : fieldsOf i = some f)
    (hr : rowOf i = some r) : clearToIssue s r (opcodeOf i) f = true := by
  have hra : rowAt i = r := by unfold rowAt; rw [hr]; rfl
  obtain ⟨hl, hp⟩ := legal_of_wellFormed h.wellFormed hf hr
  have h1 : latchesFine s r f = true := by
    unfold latchesFine
    rw [List.all_eq_true]
    intro c hc
    rw [← hra] at hc
    exact Option.isSome_iff_ne_none.mpr (h.latches c hc)
  have h2 : (readNames r f).any (isUnmapped s) = false := by
    rw [List.any_eq_false]; intro c hc; rw [← hra] at hc; simp [h.mapped c hc]
  have h3 := h.clean
  rw [hra] at h3
  have h4 := h.settled.2
  rw [hra] at h4
  unfold clearToIssue
  rw [h.noTrap, hp, hl, h1, h.settled.1, h4, h2, h3]
  have h5 := h.level
  simp only [Option.isNone_none, Bool.true_and, Bool.and_true, List.isEmpty_nil, Bool.not_false, Bool.or_eq_true,
    decide_eq_true_eq]
  exact h5

theorem issue_eq {s : State} {i : Instr} {f : Fields} {r : Row} {body : Fields → DWord → LaneMask → State → Result}
    (h : CanIssue s i f) (hf : fieldsOf i = some f) (hr : rowOf i = some r) :
    issue i s body = .next (match body f s.ply.pc (activeLanes s f) s with
      | .trap code info =>
        if code == 0x11 then takeTrap (countLatches (countIssue s.weave.plies s)) code (afterPc s.ply.pc f) info (activeLanes s f)
        else takeTrap s code s.ply.pc info (activeLanes s f)
      | .wait w s1 => stand s1 w
      | .poison info ia => consumeError s info ia
      | .done s1 ws fl next => finish s r f s.ply.pc (activeLanes s f) s1 ws fl next
      | .doneWait s1 w => stand (finish s r f s.ply.pc (activeLanes s f) s1 [] 0#7 none) w) := by
  unfold issue
  rw [hr, hf]
  simp only [issueRow, clear_of_canIssue h hf hr, if_true] <;> rfl

/-- The check of room depends on the names written alone. -/
theorem overPeak_blank (s : State) {ws ws' : List Write} (h : ws.map Write.blank = ws'.map Write.blank) :
    overPeak s ws = overPeak s ws' := by unfold overPeak; rw [h]
theorem overPool_blank (s : State) {ws ws' : List Write} (h : ws.map Write.blank = ws'.map Write.blank) :
    overPool s ws = overPool s ws' := by unfold overPool poolsShort refillFirst; rw [h]

/-- Writes that take no register of a pool wait for none. -/
theorem overPool_same {s : State} {ws : List Write} (hv : vPoolUse (applyWrites s (ws.map Write.blank)) = vPoolUse s)
    (hs : sPoolUse (applyWrites s (ws.map Write.blank)) = sPoolUse s) : overPool s ws = false := by
  simp [overPool, poolsShort, refillFirst, hv, hs]

theorem finish_eq {s : State} {i : Instr} {f : Fields} {ws ws' : List Write} (a : DWord) (m : LaneMask) (fl : Flags)
    (next : Option DWord) (h : HasRoom s i f ws) (hb : ws'.map Write.blank = ws.map Write.blank) :
    finish s (rowAt i) f a m s ws' fl next = complete s (rowAt i) f a m s ws' fl next := by
  unfold finish
  rw [overPeak_blank _ hb, overPool_blank _ hb, h.peak, h.pool]
  simp

/-- No write needs no room. -/
theorem hasRoom_nil (s : State) (i : Instr) (f : Fields) : HasRoom s i f [] := by
  exact ⟨by simp [overPeak, applyWrites], overPool_same rfl rfl⟩

/-- An instruction whose effect only writes registers completes where it may issue and there is room. -/
theorem issue_regs {s : State} {i : Instr} {f : Fields} {r : Row} {body : Fields → DWord → LaneMask → State → Result}
    {ws ws' : List Write} {fl : Flags} {next : Option DWord} (h : CanIssue s i f) (hf : fieldsOf i = some f)
    (hr : rowOf i = some r) (hroom : HasRoom s i f ws) (hb : ws'.map Write.blank = ws.map Write.blank)
    (hbody : body f s.ply.pc (activeLanes s f) s = .done s ws' fl next) :
    issue i s body = .next (complete s (rowAt i) f s.ply.pc (activeLanes s f) s ws' fl next) := by
  have hra : rowAt i = r := by unfold rowAt; rw [hr]; rfl
  rw [issue_eq h hf hr, hbody]
  simp only
  rw [← hra, finish_eq _ _ _ _ hroom hb]

theorem cores_unmapName (s : State) (c : Nat) : (unmapName s c).cores = s.cores :=
  unmapName_keeps State.cores (fun _ _ => rfl) (fun _ _ _ => rfl) (fun _ _ => rfl) s c

theorem cores_applyWrite (s : State) (w : Write) : (applyWrite s w).cores = s.cores := by
  have hv : ∀ s n m vals, (writeV s n m vals).cores = s.cores := by
    intro s n m vals
    unfold writeV
    split
    · simp only; split <;> rfl
    · rfl
  cases w with
  | v n m vals => exact hv ..
  | pair n m vals => exact (hv ..).trans (hv ..)
  | s n x =>
    simp only [applyWrite, writeS]
    split
    · split <;> rfl
    · rfl
  | k n m x => rfl

theorem cores_counted (before : List Ply) (s : State) (r : Row) (f : Fields) (m : LaneMask) (ws : List Write) (fl : Flags) :
    (counted before s r f m ws fl).cores = s.cores := by
  have h1 : (afterReads s r f).cores = s.cores := by
    rw [afterReads, closeLatches, foldl_keeps State.cores _ (fun b k => by dsimp only; split <;> rfl),
      foldl_keeps State.cores _ cores_unmapName]
  rw [← h1, ← foldl_keeps State.cores _ cores_applyWrite ws (afterReads s r f)]
  exact counted_keeps State.cores (fun _ _ => rfl) (fun _ _ => rfl) (fun s r f => by unfold spoilCyc; split <;> rfl)
    (fun _ _ => rfl) (fun s r f m => by unfold countSr; split <;> rfl)
    (fun s r f ws => by unfold markPending; dsimp only; split <;> rfl) (fun _ => rfl) ..

theorem cores_complete (s0 s : State) (r : Row) (f : Fields) (a : DWord) (m : LaneMask) (ws : List Write) (fl : Flags)
    (next : Option DWord) (c : CoreId) : coreRest (complete s0 r f a m s ws fl next) c = coreRest s c := by
  have h2 : coreRest (counted s0.weave.plies s r f m ws fl) c = coreRest s c := by
    unfold coreRest findCore; rw [cores_counted]
  rw [← h2]
  show coreRest (openLatch _ _ _) c = _
  unfold openLatch
  split
  · rfl
  · exact coreRest_onCore _ _ _ _ (fun _ => rfl) (fun _ => rfl)

theorem goesOn_complete (s0 s : State) (i : Instr) (f : Fields) (a : DWord) (m : LaneMask) (ws : List Write)
    (fl : Flags) (next : Option DWord) :
    GoesOn s (complete s0 (rowAt i) f a m s ws fl next) f (next.getD (afterPc a f)) fl := by
  have hrest := rest_complete s0 s (rowAt i) f a m ws fl next
  refine ⟨(ply_complete ..).1, (ply_complete ..).2, (fpflags_complete ..).1, (fpflags_complete ..).2, ?_, hrest, ?_⟩
  · intro k
    have h := congrArg State.mem hrest
    have : (complete s0 (rowAt i) f a m s ws fl next).mem = s.mem := h
    unfold byteAt; rw [this]
  · exact cores_complete s0 s (rowAt i) f a m ws fl next

/-! ### Registers after a write -/

theorem vget_writeV_ne (s : State) (n k : Nat) (m : LaneMask) (vals : LaneVec) (h : k ≠ n) :
    vget (writeV s n m vals) k = vget s k := by
  unfold writeV
  split
  · simp only
    split <;> (refine (getD_setV _ _ _ _).trans ?_; rw [if_neg h]; rfl)
  · refine (getD_setV _ _ _ _).trans ?_; rw [if_neg h]; rfl

theorem vLane_writeV (s : State) (n j : Nat) (m : LaneMask) (vals : LaneVec) (hj : j < 32) :
    vLane (writeV s n m vals) n j = if inMask m j then lane vals j else vLane s n j := by
  unfold vLane writeV
  split
  · rename_i r hr
    simp only
    split
    · have h : vget { setMap (snapLatches s r.id r.lanes)
          ((snapLatches s r.id r.lanes).weave.map.setV n
            (some ⟨s.nextId, mergeLanes m vals r.lanes, r.poison && m != 0xFFFFFFFF#32⟩)) with nextId := s.nextId + 1 } n =
          some ⟨s.nextId, mergeLanes m vals r.lanes, r.poison && m != 0xFFFFFFFF#32⟩ :=
        (getD_setV _ _ _ _).trans (if_pos rfl)
      rw [h, hr]
      exact lane_mergeLanes _ _ _ hj
    · have h : vget (setMap s (s.weave.map.setV n (some ⟨r.id, mergeLanes m vals r.lanes, r.poison && m != 0xFFFFFFFF#32⟩))) n =
          some ⟨r.id, mergeLanes m vals r.lanes, r.poison && m != 0xFFFFFFFF#32⟩ := (getD_setV _ _ _ _).trans (if_pos rfl)
      rw [h, hr]
      exact lane_mergeLanes _ _ _ hj
  · rename_i hr
    have h : vget { setMap s (s.weave.map.setV n (some ⟨s.nextId, mergeLanes m vals (tabulate (fun _ => 0#32)), false⟩))
        with nextId := s.nextId + 1 } n = some ⟨s.nextId, mergeLanes m vals (tabulate (fun _ => 0#32)), false⟩ :=
      (getD_setV _ _ _ _).trans (if_pos rfl)
    rw [h, hr]
    simp only [Option.map_some, Option.getD_some, lane_mergeLanes _ _ _ hj, lane_tabulate _ hj]
    rfl

theorem sget_writeV (s : State) (n k : Nat) (m : LaneMask) (vals : LaneVec) : sget (writeV s n m vals) k = sget s k := by
  unfold writeV
  split
  · simp only; split <;> rfl
  · rfl

theorem kregs_writeV (s : State) (n : Nat) (m : LaneMask) (vals : LaneVec) :
    (writeV s n m vals).weave.kregs = s.weave.kregs := by
  unfold writeV
  split
  · simp only; split <;> rfl
  · rfl

theorem sget_writeS (s : State) (n k : Nat) (x : DWord) :
    (sget (writeS s n x) k).map (·.val) = if k = n then some x else (sget s k).map (·.val) := by
  have key : ∀ r : SReg, r.val = x → ∀ s' : State, s'.weave.map = s.weave.map.setS n (some r) →
      (sget s' k).map (·.val) = if k = n then some x else (sget s k).map (·.val) := by
    intro r hr s' hs
    unfold sget
    rw [hs, getD_setS]
    split
    · simp [hr]
    · rfl
  unfold writeS
  split
  · split
    · exact key ⟨s.nextId, x, false⟩ rfl _ rfl
    · rename_i r _ _; exact key ⟨r.id, x, false⟩ rfl _ rfl
  · exact key ⟨s.nextId, x, false⟩ rfl _ rfl

theorem sget_writeS_ne (s : State) (n k : Nat) (x : DWord) (h : k ≠ n) : sget (writeS s n x) k = sget s k := by
  unfold writeS
  split
  · split <;> (refine (getD_setS _ _ _ _).trans ?_; rw [if_neg h]; rfl)
  · refine (getD_setS _ _ _ _).trans ?_; rw [if_neg h]; rfl

theorem vget_writeS (s : State) (n k : Nat) (x : DWord) : vget (writeS s n x) k = vget s k := by
  unfold writeS
  split
  · split <;> rfl
  · rfl

theorem kregs_writeS (s : State) (n : Nat) (x : DWord) : (writeS s n x).weave.kregs = s.weave.kregs := by
  unfold writeS
  split
  · split <;> rfl
  · rfl

theorem kMask_writeK (s : State) (k n : Nat) (m x : LaneMask) :
    kMask (writeK s k m x) n = if n = k then (kMask s k &&& ~~~m) ||| (x &&& m) else kMask s n := getD_setAt _ _ _ _ _

/-! ### Registers after an instruction -/

theorem vget_afterReads (s : State) (i : Instr) (f : Fields) {n : Nat} (hn : n < 192) :
    vget (afterReads s (rowAt i) f) n = if n ∈ lastReadNames (rowAt i) f then none else vget s n := by
  unfold afterReads
  have h : ∀ b : State, vget (closeLatches b (rowAt i) f) n = vget b n := by
    intro b; unfold vget; rw [(map_closeLatches b _ _).1]
  rw [h, vget_unmapNames _ _ _ hn]
  simp only [mem_distinct]

theorem sget_afterReads (s : State) (i : Instr) (f : Fields) (n : Nat) :
    sget (afterReads s (rowAt i) f) n = if 0xC0 + n ∈ lastReadNames (rowAt i) f then none else sget s n := by
  unfold afterReads
  have h : ∀ b : State, sget (closeLatches b (rowAt i) f) n = sget b n := by
    intro b; unfold sget; rw [(map_closeLatches b _ _).1]
  rw [h, sget_unmapNames]
  simp only [mem_distinct]

theorem kregs_afterReads (s : State) (r : Row) (f : Fields) : (afterReads s r f).weave.kregs = s.weave.kregs := by
  have h : ∀ (b : State) (c : Nat), (unmapName b c).weave.kregs = b.weave.kregs := by
    intro b c
    exact unmapName_keeps (·.weave.kregs) (fun _ _ => rfl) (fun _ _ _ => rfl) (fun _ _ => rfl) b c
  unfold afterReads
  rw [(map_closeLatches _ _ _).2, foldl_keeps (fun s : State => s.weave.kregs) _ h]

theorem vget_complete (s0 s : State) (r : Row) (f : Fields) (a : DWord) (m : LaneMask) (ws : List Write) (fl : Flags)
    (next : Option DWord) (n : Nat) :
    vget (complete s0 r f a m s ws fl next) n = vget (applyWrites (afterReads s r f) ws) n := by
  unfold vget; rw [(map_complete ..).1]
theorem sget_complete (s0 s : State) (r : Row) (f : Fields) (a : DWord) (m : LaneMask) (ws : List Write) (fl : Flags)
    (next : Option DWord) (n : Nat) :
    sget (complete s0 r f a m s ws fl next) n = sget (applyWrites (afterReads s r f) ws) n := by
  unfold sget; rw [(map_complete ..).1]
theorem kMask_complete (s0 s : State) (r : Row) (f : Fields) (a : DWord) (m : LaneMask) (ws : List Write) (fl : Flags)
    (next : Option DWord) (n : Nat) :
    kMask (complete s0 r f a m s ws fl next) n = kMask (applyWrites (afterReads s r f) ws) n := by
  unfold kMask; rw [(map_complete ..).2]

/-- With no write every register is kept, but for those that a last-read bit unmaps. -/
theorem keepsRegs_nil (s0 s : State) (i : Instr) (f : Fields) (a : DWord) (m : LaneMask) (fl : Flags)
    (next : Option DWord) (vs ss ks : List Nat) : KeepsRegs s (complete s0 (rowAt i) f a m s [] fl next) i f vs ss ks := by
  refine ⟨fun n hn _ => ?_, fun n _ _ => ?_, fun n _ => ?_⟩
  · rw [vget_complete]; exact vget_afterReads s i f hn
  · rw [sget_complete]; exact sget_afterReads s i f n
  · rw [kMask_complete]; unfold kMask applyWrites; rw [List.foldl_nil, kregs_afterReads]

/-- An instruction that writes no register. -/
theorem done_complete (s0 s : State) (i : Instr) (f : Fields) (a : DWord) (m : LaneMask) (next : Option DWord) :
    Done s (complete s0 (rowAt i) f a m s [] 0#7 next) i f (next.getD (afterPc a f)) :=
  ⟨goesOn_complete .., keepsRegs_nil ..⟩

/-- The writes of a vector destination: what a lane of it holds after them, and that they concern no other name. -/
theorem vecWrite_keeps (s0 s : State) (i : Instr) (f : Fields) (a : DWord) (d : BitVec 8) (wide : Bool) (m : LaneMask)
    (vals : WideVec) (fl : Flags) (next : Option DWord) :
    KeepsRegs s (complete s0 (rowAt i) f a m s (vecWrite d wide m vals) fl next) i f
      (if isV d.toNat then (if wide then [d.toNat, d.toNat + 1] else [d.toNat]) else []) [] [] := by
  unfold vecWrite
  by_cases hd : isV d.toNat = true
  · simp only [hd, Bool.not_true, Bool.false_eq_true, if_false, if_true]
    cases wide
    · refine ⟨fun n hn hne => ?_, fun n _ _ => ?_, fun n _ => ?_⟩
      · rw [vget_complete]
        simp only [Bool.false_eq_true, if_false, applyWrites, List.foldl_cons, List.foldl_nil, applyWrite]
        rw [vget_writeV_ne _ _ _ _ _ (by simpa using hne)]
        exact vget_afterReads s i f hn
      · rw [sget_complete]
        simp only [Bool.false_eq_true, if_false, applyWrites, List.foldl_cons, List.foldl_nil, applyWrite]
        rw [sget_writeV]; exact sget_afterReads s i f n
      · rw [kMask_complete]
        simp only [Bool.false_eq_true, if_false, applyWrites, List.foldl_cons, List.foldl_nil, applyWrite, kMask]
        rw [kregs_writeV, kregs_afterReads]
    · refine ⟨fun n hn hne => ?_, fun n _ _ => ?_, fun n _ => ?_⟩
      · rw [vget_complete]
        simp only [if_true, List.mem_cons, List.not_mem_nil, or_false, not_or] at hne
        simp only [if_true, applyWrites, List.foldl_cons, List.foldl_nil, applyWrite]
        rw [vget_writeV_ne _ _ _ _ _ hne.2, vget_writeV_ne _ _ _ _ _ hne.1]
        exact vget_afterReads s i f hn
      · rw [sget_complete]
        simp only [if_true, applyWrites, List.foldl_cons, List.foldl_nil, applyWrite]
        rw [sget_writeV, sget_writeV]; exact sget_afterReads s i f n
      · rw [kMask_complete]
        simp only [if_true, applyWrites, List.foldl_cons, List.foldl_nil, applyWrite, kMask]
        rw [kregs_writeV, kregs_writeV, kregs_afterReads]
  · simp only [hd, Bool.not_false, if_true]
    exact keepsRegs_nil ..

theorem vecWrite_lane (s : State) (r : Row) (f : Fields) (d : BitVec 8) (wide : Bool) (m : LaneMask) (vals : WideVec)
    (a : DWord) (fl : Flags) (next : Option DWord) (hd : isV d.toNat = true) {j : Nat} (hj : j < 32) :
    dLane (complete s r f a m s (vecWrite d wide m vals) fl next) wide d.toNat j =
      if inMask m j then (if wide then lane vals j else BitVec.setWidth 64 ((lane vals j).setWidth 32))
      else dLane (afterReads s r f) wide d.toNat j := by
  have hv : ∀ n, vLane (complete s r f a m s (vecWrite d wide m vals) fl next) n j =
      vLane (applyWrites (afterReads s r f) (vecWrite d wide m vals)) n j := by
    intro n; unfold vLane; rw [vget_complete]
  have hne : ∀ (b : State) (n k : Nat) (m : LaneMask) (vals : LaneVec), k ≠ n → vLane (writeV b n m vals) k j = vLane b k j := by
    intro b n k m vals h; unfold vLane; rw [vget_writeV_ne _ _ _ _ _ h]
  unfold dLane vecWrite
  unfold vecWrite at hv
  simp only [hd, Bool.not_true, Bool.false_eq_true, if_false] at hv ⊢
  cases wide
  · simp only [Bool.false_eq_true, if_false] at hv ⊢
    rw [hv]
    simp only [applyWrites, List.foldl_cons, List.foldl_nil, applyWrite]
    rw [vLane_writeV _ _ _ _ _ hj, lane_tabulate _ hj]
    split <;> rfl
  · simp only [if_true] at hv ⊢
    rw [hv, hv]
    simp only [applyWrites, List.foldl_cons, List.foldl_nil, applyWrite]
    rw [vLane_writeV _ _ _ _ _ hj, hne _ (d.toNat + 1) d.toNat _ _ (by omega),
      hne _ d.toNat (d.toNat + 1) _ _ (by omega), vLane_writeV _ _ _ _ _ hj, lane_tabulate _ hj, lane_tabulate _ hj]
    split
    · exact BitVec.eq_of_getLsbD_eq (fun k hk => by
        simp only [BitVec.getLsbD_append, BitVec.getLsbD_extractLsb', BitVec.getLsbD_setWidth]
        by_cases h : k < 32
        · simp [h]
        · have h2 : k - 32 < 32 := by omega
          have h3 : 32 + (k - 32) = k := by omega
          simp [h, h2, h3])
    · rfl

/-- An instruction with a vector result. -/
theorem vecDone_complete (s : State) (i : Instr) (f : Fields) (wide : Bool) (vals : WideVec) (fl : Flags) :
    VecDone s (complete s (rowAt i) f s.ply.pc (activeLanes s f) s (vecWrite f.d wide (activeLanes s f) vals) fl none)
      i f wide (fun j => lane vals j) fl :=
  ⟨goesOn_complete .., fun hd _ hj => vecWrite_lane s (rowAt i) f f.d wide (activeLanes s f) vals s.ply.pc fl none hd hj,
    vecWrite_keeps ..⟩

theorem vecDone_nil (s : State) (i : Instr) (f : Fields) (wide : Bool) (val : Nat → DWord) (m : LaneMask)
    (hm : activeLanes s f = 0#32) : VecDone s (complete s (rowAt i) f s.ply.pc m s [] 0#7 none) i f wide val 0#7 := by
  refine ⟨goesOn_complete .., fun hd j hj => ?_, keepsRegs_nil ..⟩
  have h : ∀ n, vLane (complete s (rowAt i) f s.ply.pc m s [] 0#7 none) n j = vLane (afterReads s (rowAt i) f) n j := by
    intro n; unfold vLane; rw [vget_complete]; rfl
  have hz : inMask (activeLanes s f) j = false := by rw [hm]; simp [inMask]
  rw [hz]
  unfold dLane
  rw [h, h]
  simp

theorem laneFlags_zero (fl : Nat → Flags) : laneFlags 0#32 fl = 0#7 := by
  unfold laneFlags
  have h : ∀ xs : List Nat, xs.foldl (fun acc j => acc ||| (if inMask 0#32 j then fl j else 0#7)) 0#7 = 0#7 := by
    intro xs
    induction xs with
    | nil => rfl
    | cons x rest ih => rw [List.foldl_cons]; simp [inMask] at *
  exact h _

theorem vecWrite_blank (d : BitVec 8) (wide : Bool) (m : LaneMask) (vals : WideVec) :
    (vecWrite d wide m vals).map Write.blank = (vecWrite d wide m []).map Write.blank := by
  unfold vecWrite
  split
  · rfl
  · split <;> rfl

/-- An instruction whose effect is a vector result for its active lanes. -/
theorem issue_vec {s : State} {i : Instr} {f : Fields} {r : Row} {body : Fields → DWord → LaneMask → State → Result}
    {wide : Bool} {vals : WideVec} {fl : Flags} (h : CanIssue s i f) (hf : fieldsOf i = some f)
    (hr : rowOf i = some r) (hroom : HasRoom s i f (vDest s f wide))
    (hbody : body f s.ply.pc (activeLanes s f) s =
      whenActive (activeLanes s f) s (Result.regs s (vecWrite f.d wide (activeLanes s f) vals) fl)) :
    ∃ t, issue i s body = .next t ∧
      VecDone s t i f wide (fun j => lane vals j) (if activeLanes s f = 0#32 then 0#7 else fl) := by
  unfold vDest at hroom
  by_cases hm : activeLanes s f = 0#32
  · rw [if_pos hm] at hroom ⊢
    refine ⟨_, issue_regs (fl := 0#7) (next := none) h hf hr hroom rfl ?_, vecDone_nil s i f wide _ _ hm⟩
    rw [hbody]; simp [whenActive, hm, Result.regs]
  · rw [if_neg hm] at hroom ⊢
    refine ⟨_, issue_regs (fl := fl) (next := none) h hf hr hroom (vecWrite_blank f.d wide _ vals) ?_,
      vecDone_complete s i f wide vals fl⟩
    rw [hbody]; simp [whenActive, hm, Result.regs]

/-- A vector result is known by its active lanes. -/
theorem VecDone.congr {s t : State} {i : Instr} {f : Fields} {wide : Bool} {val val' : Nat → DWord} {fl fl' : Flags}
    (h : VecDone s t i f wide val fl) (hv : ∀ j < 32, inMask (activeLanes s f) j = true → val j = val' j)
    (hf : fl = fl') : VecDone s t i f wide val' fl' := by
  subst hf
  refine ⟨h.goes, fun hd j hj => ?_, h.keeps⟩
  rw [h.result hd j hj]
  split
  · rename_i hm; rw [hv j hj hm]
  · rfl

theorem laneFlags_foldl (m : LaneMask) (op : Nat → Rounded) :
    (tabulate (fun i => if inMask m i then op i else ⟨0, 0#7⟩)).foldl (fun acc r => acc ||| r.flags) 0#7 =
      laneFlags m (fun j => (op j).flags) := by
  unfold laneFlags tabulate
  rw [List.foldl_map]
  congr 1
  funext acc j
  split <;> rfl

/-- An instruction that computes lane by lane (R152). -/
theorem issue_lanewise {s : State} {i : Instr} {f : Fields} {r : Row} {ty : Ty}
    {body : Fields → DWord → LaneMask → State → Result} {op : Nat → Rounded} (h : CanIssue s i f)
    (hf : fieldsOf i = some f) (hr : rowOf i = some r) (hroom : HasRoom s i f (vDest s f ty.is64))
    (hbody : body f s.ply.pc (activeLanes s f) s = lanewise f (activeLanes s f) s ty op) :
    ∃ t, issue i s body = .next t ∧ VecDone s t i f ty.is64 (fun j => ty.extend (op j).code)
      (laneFlags (activeLanes s f) (fun j => (op j).flags)) := by
  unfold lanewise at hbody
  obtain ⟨t, ht, hd⟩ := issue_vec h hf hr hroom hbody
  refine ⟨t, ht, hd.congr (fun j hj hm => ?_) ?_⟩
  · have : lane (List.map (fun r : Rounded => ty.extend r.code)
        (tabulate (fun i => if inMask (activeLanes s f) i then op i else ⟨0, 0#7⟩))) j =
        ty.extend (if inMask (activeLanes s f) j then op j else ⟨0, 0#7⟩).code := by
      simp [lane, tabulate, hj]
    rw [this, if_pos hm]
  · split
    · rename_i h0; rw [h0, laneFlags_zero]
    · exact laneFlags_foldl _ _

/-! ### Scalar and mask results -/

theorem sclDone_nil (s : State) (i : Instr) (f : Fields) (val : DWord) (m : LaneMask) (hm : activeLanes s f = 0#32) :
    SclDone s (complete s (rowAt i) f s.ply.pc m s [] 0#7 none) i f val :=
  ⟨goesOn_complete .., fun _ h => absurd hm h, fun _ => keepsRegs_nil .., keepsRegs_nil ..⟩

theorem sclDone_complete (s : State) (i : Instr) (f : Fields) (val : DWord) (hm : activeLanes s f ≠ 0#32) :
    SclDone s (complete s (rowAt i) f s.ply.pc (activeLanes s f) s (sclWrite f.d val) 0#7 none) i f val := by
  refine ⟨goesOn_complete .., fun hd _ => ?_, fun h => absurd h hm, ?_⟩
  · unfold sVal
    rw [sget_complete]
    simp only [sclWrite, hd, if_true, applyWrites, List.foldl_cons, List.foldl_nil, applyWrite]
    rw [sget_writeS]; simp
  · unfold sclWrite
    by_cases hd : isS f.d.toNat = true
    · simp only [hd, if_true]
      refine ⟨fun n hn _ => ?_, fun n _ hne => ?_, fun n _ => ?_⟩
      · rw [vget_complete]
        simp only [applyWrites, List.foldl_cons, List.foldl_nil, applyWrite]
        rw [vget_writeS]; exact vget_afterReads s i f hn
      · rw [sget_complete]
        simp only [applyWrites, List.foldl_cons, List.foldl_nil, applyWrite]
        rw [sget_writeS_ne _ _ _ _ (by simpa using hne)]; exact sget_afterReads s i f n
      · rw [kMask_complete]
        simp only [applyWrites, List.foldl_cons, List.foldl_nil, applyWrite, kMask]
        rw [kregs_writeS, kregs_afterReads]
    · simp only [hd, Bool.false_eq_true, if_false]
      exact keepsRegs_nil ..

theorem sclWrite_blank (d : BitVec 8) (x : DWord) :
    (sclWrite d x).map Write.blank = (sclWrite d 0#64).map Write.blank := by
  unfold sclWrite; split <;> rfl

/-- An instruction whose effect is a scalar result where a lane is active. -/
theorem issue_scl {s : State} {i : Instr} {f : Fields} {r : Row} {body : Fields → DWord → LaneMask → State → Result}
    {x : DWord} (h : CanIssue s i f) (hf : fieldsOf i = some f) (hr : rowOf i = some r)
    (hroom : HasRoom s i f (sDest s f))
    (hbody : body f s.ply.pc (activeLanes s f) s =
      whenActive (activeLanes s f) s (Result.regs s (sclWrite f.d x))) :
    ∃ t, issue i s body = .next t ∧ SclDone s t i f x := by
  unfold sDest at hroom
  by_cases hm : activeLanes s f = 0#32
  · rw [if_pos hm] at hroom
    refine ⟨_, issue_regs (fl := 0#7) (next := none) h hf hr hroom rfl ?_, sclDone_nil s i f x _ hm⟩
    rw [hbody]; simp [whenActive, hm, Result.regs]
  · rw [if_neg hm] at hroom
    refine ⟨_, issue_regs (fl := 0#7) (next := none) h hf hr hroom (sclWrite_blank f.d x) ?_, sclDone_complete s i f x hm⟩
    rw [hbody]; simp [whenActive, hm, Result.regs]

theorem maskDone_nil (s : State) (i : Instr) (f : Fields) (val : LaneMask) (m : LaneMask)
    (hm : activeLanes s f = 0#32) : MaskDone s (complete s (rowAt i) f s.ply.pc m s [] 0#7 none) i f val 0#7 := by
  refine ⟨goesOn_complete .., fun j hj => ?_, keepsRegs_nil ..⟩
  have hz : inMask (activeLanes s f) j = false := by rw [hm]; simp [inMask]
  rw [hz, kMask_complete]
  unfold kMask applyWrites
  rw [List.foldl_nil, kregs_afterReads]
  simp

theorem maskDone_complete (s : State) (i : Instr) (f : Fields) (val : LaneMask) (fl : Flags) :
    MaskDone s (complete s (rowAt i) f s.ply.pc (activeLanes s f) s (maskWrite f.d (activeLanes s f) val) fl none)
      i f val fl := by
  refine ⟨goesOn_complete .., fun j hj => ?_, fun n hn _ => ?_, fun n _ _ => ?_, fun n hne => ?_⟩
  · rw [kMask_complete]
    simp only [maskWrite, applyWrites, List.foldl_cons, List.foldl_nil, applyWrite]
    rw [kMask_writeK, if_pos rfl]
    have : kMask (afterReads s (rowAt i) f) f.d.toNat = kMask s f.d.toNat := by unfold kMask; rw [kregs_afterReads]
    rw [this]
    simp only [inMask, BitVec.getLsbD_or, BitVec.getLsbD_and, BitVec.getLsbD_not, hj, decide_true, Bool.true_and]
    by_cases hb : (activeLanes s f).getLsbD j = true <;> simp [hb]
  · rw [vget_complete]; exact vget_afterReads s i f hn
  · rw [sget_complete]; exact sget_afterReads s i f n
  · rw [kMask_complete]
    simp only [maskWrite, applyWrites, List.foldl_cons, List.foldl_nil, applyWrite]
    rw [kMask_writeK, if_neg (by simpa using hne)]
    unfold kMask; rw [kregs_afterReads]

/-- An instruction whose effect is a mask result for its active lanes. -/
theorem issue_mask {s : State} {i : Instr} {f : Fields} {r : Row} {body : Fields → DWord → LaneMask → State → Result}
    {x : LaneMask} {fl : Flags} (h : CanIssue s i f) (hf : fieldsOf i = some f) (hr : rowOf i = some r)
    (hbody : body f s.ply.pc (activeLanes s f) s =
      whenActive (activeLanes s f) s (Result.regs s (maskWrite f.d (activeLanes s f) x) fl)) :
    ∃ t, issue i s body = .next t ∧ MaskDone s t i f x (if activeLanes s f = 0#32 then 0#7 else fl) := by
  have hroom : ∀ m, HasRoom s i f (maskWrite f.d m 0#32) := by
    intro m
    constructor
    · simp [overPeak, applyWrites, maskWrite, Write.blank, applyWrite, writeK]
    · exact overPool_same rfl rfl
  by_cases hm : activeLanes s f = 0#32
  · rw [if_pos hm]
    refine ⟨_, issue_regs (fl := 0#7) (next := none) h hf hr (hasRoom_nil s i f) rfl ?_, maskDone_nil s i f x _ hm⟩
    rw [hbody]; simp [whenActive, hm, Result.regs]
  · rw [if_neg hm]
    refine ⟨_, issue_regs (ws' := maskWrite f.d (activeLanes s f) x) (fl := fl) (next := none) h hf hr
      (hroom (activeLanes s f)) rfl ?_, maskDone_complete s i f x fl⟩
    rw [hbody]; simp [whenActive, hm, Result.regs]

end Sys2Proof.Safety
end

