-- ==== Sys2Proof/Laws/State.lean ====
section
/-!
SUPPORT. What the named updates of the state leave alone, field by field, and what the lookups read after them, so that no
later proof unfolds a record update.
-/

namespace Sys2Proof.Laws

open Sys2Proof Sys2Proof.Machine

set_option Elab.async false

/-! ### Fields -/

section Fields

variable (s : State)

@[simp] theorem tick_mem : (tick s).mem = s.mem := rfl
@[simp] theorem tick_teams : (tick s).teams = s.teams := rfl
@[simp] theorem tick_sites : (tick s).sites = s.sites := rfl
@[simp] theorem tick_cores : (tick s).cores = s.cores := rfl
@[simp] theorem tick_clusters : (tick s).clusters = s.clusters := rfl
@[simp] theorem tick_contexts : (tick s).contexts = s.contexts := rfl
@[simp] theorem tick_launches : (tick s).launches = s.launches := rfl
@[simp] theorem tick_accs : (tick s).accs = s.accs := rfl
@[simp] theorem tick_remotes : (tick s).remotes = s.remotes := rfl
@[simp] theorem tick_packets : (tick s).packets = s.packets := rfl
@[simp] theorem tick_pendings : (tick s).pendings = s.pendings := rfl
@[simp] theorem tick_cyc : (tick s).cyc = s.cyc := rfl
@[simp] theorem tick_clk : (tick s).clk = s.clk := rfl
@[simp] theorem tick_steps : (tick s).steps = s.steps := rfl
@[simp] theorem tick_focused : (tick s).focused = s.focused := rfl
@[simp] theorem tick_ply : (tick s).ply = s.ply := rfl
@[simp] theorem tick_weave : (tick s).weave = s.weave := rfl
@[simp] theorem tick_team : (tick s).team = s.team := rfl
@[simp] theorem tick_errs : (tick s).errs = s.errs := rfl
@[simp] theorem tick_fabricQ : (tick s).fabricQ = s.fabricQ := rfl
@[simp] theorem tick_queues : (tick s).queues = s.queues := rfl
@[simp] theorem tick_graphs : (tick s).graphs = s.graphs := rfl
@[simp] theorem tick_nextId : (tick s).nextId = s.nextId := rfl
@[simp] theorem tick_faultQ : (tick s).faultQ = s.faultQ := rfl
@[simp] theorem tick_slots : (tick s).slots = s.slots := rfl
@[simp] theorem tick_wafer : (tick s).wafer = s.wafer := rfl
@[simp] theorem tick_peerReqs : (tick s).peerReqs = s.peerReqs := rfl
@[simp] theorem tick_msi : (tick s).msi = s.msi := rfl
@[simp] theorem tick_msiPending : (tick s).msiPending = s.msiPending := rfl
@[simp] theorem tick_retry : (tick s).retry = s.retry := rfl
@[simp] theorem tick_scanRec : (tick s).scanRec = s.scanRec := rfl
@[simp] theorem tick_laserMap : (tick s).laserMap = s.laserMap := rfl
@[simp] theorem tick_liveMap : (tick s).liveMap = s.liveMap := rfl
@[simp] theorem tick_payments : (tick s).payments = s.payments := rfl
@[simp] theorem tick_spent : (tick s).spent = s.spent := rfl
@[simp] theorem tick_defects : (tick s).defects = s.defects := rfl
@[simp] theorem spoil_mem : (spoil s).mem = s.mem := rfl
@[simp] theorem spoil_teams : (spoil s).teams = s.teams := rfl
@[simp] theorem spoil_sites : (spoil s).sites = s.sites := rfl
@[simp] theorem spoil_cores : (spoil s).cores = s.cores := rfl
@[simp] theorem spoil_clusters : (spoil s).clusters = s.clusters := rfl
@[simp] theorem spoil_contexts : (spoil s).contexts = s.contexts := rfl
@[simp] theorem spoil_launches : (spoil s).launches = s.launches := rfl
@[simp] theorem spoil_accs : (spoil s).accs = s.accs := rfl
@[simp] theorem spoil_remotes : (spoil s).remotes = s.remotes := rfl
@[simp] theorem spoil_packets : (spoil s).packets = s.packets := rfl
@[simp] theorem spoil_pendings : (spoil s).pendings = s.pendings := rfl
@[simp] theorem spoil_cyc : (spoil s).cyc = s.cyc := rfl
@[simp] theorem spoil_clk : (spoil s).clk = s.clk := rfl
@[simp] theorem spoil_steps : (spoil s).steps = s.steps := rfl
@[simp] theorem spoil_focused : (spoil s).focused = s.focused := rfl
@[simp] theorem spoil_ply : (spoil s).ply = s.ply := rfl
@[simp] theorem spoil_weave : (spoil s).weave = s.weave := rfl
@[simp] theorem spoil_errs : (spoil s).errs = s.errs := rfl
@[simp] theorem spoil_fabricQ : (spoil s).fabricQ = s.fabricQ := rfl
@[simp] theorem spoil_queues : (spoil s).queues = s.queues := rfl
@[simp] theorem spoil_graphs : (spoil s).graphs = s.graphs := rfl
@[simp] theorem spoil_nextId : (spoil s).nextId = s.nextId := rfl
@[simp] theorem spoil_faultQ : (spoil s).faultQ = s.faultQ := rfl
@[simp] theorem spoil_slots : (spoil s).slots = s.slots := rfl
@[simp] theorem spoil_wafer : (spoil s).wafer = s.wafer := rfl
@[simp] theorem spoil_peerReqs : (spoil s).peerReqs = s.peerReqs := rfl
@[simp] theorem spoil_msi : (spoil s).msi = s.msi := rfl
@[simp] theorem spoil_msiPending : (spoil s).msiPending = s.msiPending := rfl
@[simp] theorem spoil_retry : (spoil s).retry = s.retry := rfl
@[simp] theorem spoil_scanRec : (spoil s).scanRec = s.scanRec := rfl
@[simp] theorem spoil_laserMap : (spoil s).laserMap = s.laserMap := rfl
@[simp] theorem spoil_liveMap : (spoil s).liveMap = s.liveMap := rfl
@[simp] theorem spoil_payments : (spoil s).payments = s.payments := rfl
@[simp] theorem spoil_spent : (spoil s).spent = s.spent := rfl
@[simp] theorem spoil_defects : (spoil s).defects = s.defects := rfl
@[simp] theorem onTeams_mem (p : Team → Bool) (f : Team → Team) : (onTeams s p f).mem = s.mem := rfl
@[simp] theorem onTeams_sites (p : Team → Bool) (f : Team → Team) : (onTeams s p f).sites = s.sites := rfl
@[simp] theorem onTeams_cores (p : Team → Bool) (f : Team → Team) : (onTeams s p f).cores = s.cores := rfl
@[simp] theorem onTeams_clusters (p : Team → Bool) (f : Team → Team) : (onTeams s p f).clusters = s.clusters := rfl
@[simp] theorem onTeams_contexts (p : Team → Bool) (f : Team → Team) : (onTeams s p f).contexts = s.contexts := rfl
@[simp] theorem onTeams_launches (p : Team → Bool) (f : Team → Team) : (onTeams s p f).launches = s.launches := rfl
@[simp] theorem onTeams_accs (p : Team → Bool) (f : Team → Team) : (onTeams s p f).accs = s.accs := rfl
@[simp] theorem onTeams_remotes (p : Team → Bool) (f : Team → Team) : (onTeams s p f).remotes = s.remotes := rfl
@[simp] theorem onTeams_packets (p : Team → Bool) (f : Team → Team) : (onTeams s p f).packets = s.packets := rfl
@[simp] theorem onTeams_pendings (p : Team → Bool) (f : Team → Team) : (onTeams s p f).pendings = s.pendings := rfl
@[simp] theorem onTeams_cyc (p : Team → Bool) (f : Team → Team) : (onTeams s p f).cyc = s.cyc := rfl
@[simp] theorem onTeams_clk (p : Team → Bool) (f : Team → Team) : (onTeams s p f).clk = s.clk := rfl
@[simp] theorem onTeams_steps (p : Team → Bool) (f : Team → Team) : (onTeams s p f).steps = s.steps := rfl
@[simp] theorem onTeams_focused (p : Team → Bool) (f : Team → Team) : (onTeams s p f).focused = s.focused := rfl
@[simp] theorem onTeams_ply (p : Team → Bool) (f : Team → Team) : (onTeams s p f).ply = s.ply := rfl
@[simp] theorem onTeams_weave (p : Team → Bool) (f : Team → Team) : (onTeams s p f).weave = s.weave := rfl
@[simp] theorem onTeams_team (p : Team → Bool) (f : Team → Team) : (onTeams s p f).team = s.team := rfl
@[simp] theorem onTeams_errs (p : Team → Bool) (f : Team → Team) : (onTeams s p f).errs = s.errs := rfl
@[simp] theorem onTeams_fabricQ (p : Team → Bool) (f : Team → Team) : (onTeams s p f).fabricQ = s.fabricQ := rfl
@[simp] theorem onTeams_queues (p : Team → Bool) (f : Team → Team) : (onTeams s p f).queues = s.queues := rfl
@[simp] theorem onTeams_graphs (p : Team → Bool) (f : Team → Team) : (onTeams s p f).graphs = s.graphs := rfl
@[simp] theorem onTeams_nextId (p : Team → Bool) (f : Team → Team) : (onTeams s p f).nextId = s.nextId := rfl
@[simp] theorem onTeams_faultQ (p : Team → Bool) (f : Team → Team) : (onTeams s p f).faultQ = s.faultQ := rfl
@[simp] theorem onTeams_slots (p : Team → Bool) (f : Team → Team) : (onTeams s p f).slots = s.slots := rfl
@[simp] theorem onTeams_wafer (p : Team → Bool) (f : Team → Team) : (onTeams s p f).wafer = s.wafer := rfl
@[simp] theorem onTeams_peerReqs (p : Team → Bool) (f : Team → Team) : (onTeams s p f).peerReqs = s.peerReqs := rfl
@[simp] theorem onTeams_msi (p : Team → Bool) (f : Team → Team) : (onTeams s p f).msi = s.msi := rfl
@[simp] theorem onTeams_msiPending (p : Team → Bool) (f : Team → Team) : (onTeams s p f).msiPending = s.msiPending := rfl
@[simp] theorem onTeams_retry (p : Team → Bool) (f : Team → Team) : (onTeams s p f).retry = s.retry := rfl
@[simp] theorem onTeams_scanRec (p : Team → Bool) (f : Team → Team) : (onTeams s p f).scanRec = s.scanRec := rfl
@[simp] theorem onTeams_laserMap (p : Team → Bool) (f : Team → Team) : (onTeams s p f).laserMap = s.laserMap := rfl
@[simp] theorem onTeams_liveMap (p : Team → Bool) (f : Team → Team) : (onTeams s p f).liveMap = s.liveMap := rfl
@[simp] theorem onTeams_payments (p : Team → Bool) (f : Team → Team) : (onTeams s p f).payments = s.payments := rfl
@[simp] theorem onTeams_spent (p : Team → Bool) (f : Team → Team) : (onTeams s p f).spent = s.spent := rfl
@[simp] theorem onTeams_defects (p : Team → Bool) (f : Team → Team) : (onTeams s p f).defects = s.defects := rfl
@[simp] theorem onWeave_mem (uid windex : Nat) (f : Weave → Weave) : (onWeave s uid windex f).mem = s.mem := rfl
@[simp] theorem onWeave_sites (uid windex : Nat) (f : Weave → Weave) : (onWeave s uid windex f).sites = s.sites := rfl
@[simp] theorem onWeave_cores (uid windex : Nat) (f : Weave → Weave) : (onWeave s uid windex f).cores = s.cores := rfl
@[simp] theorem onWeave_clusters (uid windex : Nat) (f : Weave → Weave) : (onWeave s uid windex f).clusters = s.clusters := rfl
@[simp] theorem onWeave_contexts (uid windex : Nat) (f : Weave → Weave) : (onWeave s uid windex f).contexts = s.contexts := rfl
@[simp] theorem onWeave_launches (uid windex : Nat) (f : Weave → Weave) : (onWeave s uid windex f).launches = s.launches := rfl
@[simp] theorem onWeave_accs (uid windex : Nat) (f : Weave → Weave) : (onWeave s uid windex f).accs = s.accs := rfl
@[simp] theorem onWeave_remotes (uid windex : Nat) (f : Weave → Weave) : (onWeave s uid windex f).remotes = s.remotes := rfl
@[simp] theorem onWeave_packets (uid windex : Nat) (f : Weave → Weave) : (onWeave s uid windex f).packets = s.packets := rfl
@[simp] theorem onWeave_pendings (uid windex : Nat) (f : Weave → Weave) : (onWeave s uid windex f).pendings = s.pendings := rfl
@[simp] theorem onWeave_cyc (uid windex : Nat) (f : Weave → Weave) : (onWeave s uid windex f).cyc = s.cyc := rfl
@[simp] theorem onWeave_clk (uid windex : Nat) (f : Weave → Weave) : (onWeave s uid windex f).clk = s.clk := rfl
@[simp] theorem onWeave_steps (uid windex : Nat) (f : Weave → Weave) : (onWeave s uid windex f).steps = s.steps := rfl
@[simp] theorem onWeave_focused (uid windex : Nat) (f : Weave → Weave) : (onWeave s uid windex f).focused = s.focused := rfl
@[simp] theorem onWeave_ply (uid windex : Nat) (f : Weave → Weave) : (onWeave s uid windex f).ply = s.ply := rfl
@[simp] theorem onWeave_weave (uid windex : Nat) (f : Weave → Weave) : (onWeave s uid windex f).weave = s.weave := rfl
@[simp] theorem onWeave_team (uid windex : Nat) (f : Weave → Weave) : (onWeave s uid windex f).team = s.team := rfl
@[simp] theorem onWeave_errs (uid windex : Nat) (f : Weave → Weave) : (onWeave s uid windex f).errs = s.errs := rfl
@[simp] theorem onWeave_fabricQ (uid windex : Nat) (f : Weave → Weave) : (onWeave s uid windex f).fabricQ = s.fabricQ := rfl
@[simp] theorem onWeave_queues (uid windex : Nat) (f : Weave → Weave) : (onWeave s uid windex f).queues = s.queues := rfl
@[simp] theorem onWeave_graphs (uid windex : Nat) (f : Weave → Weave) : (onWeave s uid windex f).graphs = s.graphs := rfl
@[simp] theorem onWeave_nextId (uid windex : Nat) (f : Weave → Weave) : (onWeave s uid windex f).nextId = s.nextId := rfl
@[simp] theorem onWeave_faultQ (uid windex : Nat) (f : Weave → Weave) : (onWeave s uid windex f).faultQ = s.faultQ := rfl
@[simp] theorem onWeave_slots (uid windex : Nat) (f : Weave → Weave) : (onWeave s uid windex f).slots = s.slots := rfl
@[simp] theorem onWeave_wafer (uid windex : Nat) (f : Weave → Weave) : (onWeave s uid windex f).wafer = s.wafer := rfl
@[simp] theorem onWeave_peerReqs (uid windex : Nat) (f : Weave → Weave) : (onWeave s uid windex f).peerReqs = s.peerReqs := rfl
@[simp] theorem onWeave_msi (uid windex : Nat) (f : Weave → Weave) : (onWeave s uid windex f).msi = s.msi := rfl
@[simp] theorem onWeave_msiPending (uid windex : Nat) (f : Weave → Weave) : (onWeave s uid windex f).msiPending = s.msiPending := rfl
@[simp] theorem onWeave_retry (uid windex : Nat) (f : Weave → Weave) : (onWeave s uid windex f).retry = s.retry := rfl
@[simp] theorem onWeave_scanRec (uid windex : Nat) (f : Weave → Weave) : (onWeave s uid windex f).scanRec = s.scanRec := rfl
@[simp] theorem onWeave_laserMap (uid windex : Nat) (f : Weave → Weave) : (onWeave s uid windex f).laserMap = s.laserMap := rfl
@[simp] theorem onWeave_liveMap (uid windex : Nat) (f : Weave → Weave) : (onWeave s uid windex f).liveMap = s.liveMap := rfl
@[simp] theorem onWeave_payments (uid windex : Nat) (f : Weave → Weave) : (onWeave s uid windex f).payments = s.payments := rfl
@[simp] theorem onWeave_spent (uid windex : Nat) (f : Weave → Weave) : (onWeave s uid windex f).spent = s.spent := rfl
@[simp] theorem onWeave_defects (uid windex : Nat) (f : Weave → Weave) : (onWeave s uid windex f).defects = s.defects := rfl
@[simp] theorem onPly_mem (uid windex n : Nat) (f : Ply → Ply) : (onPly s uid windex n f).mem = s.mem := rfl
@[simp] theorem onPly_sites (uid windex n : Nat) (f : Ply → Ply) : (onPly s uid windex n f).sites = s.sites := rfl
@[simp] theorem onPly_cores (uid windex n : Nat) (f : Ply → Ply) : (onPly s uid windex n f).cores = s.cores := rfl
@[simp] theorem onPly_clusters (uid windex n : Nat) (f : Ply → Ply) : (onPly s uid windex n f).clusters = s.clusters := rfl
@[simp] theorem onPly_contexts (uid windex n : Nat) (f : Ply → Ply) : (onPly s uid windex n f).contexts = s.contexts := rfl
@[simp] theorem onPly_launches (uid windex n : Nat) (f : Ply → Ply) : (onPly s uid windex n f).launches = s.launches := rfl
@[simp] theorem onPly_accs (uid windex n : Nat) (f : Ply → Ply) : (onPly s uid windex n f).accs = s.accs := rfl
@[simp] theorem onPly_remotes (uid windex n : Nat) (f : Ply → Ply) : (onPly s uid windex n f).remotes = s.remotes := rfl
@[simp] theorem onPly_packets (uid windex n : Nat) (f : Ply → Ply) : (onPly s uid windex n f).packets = s.packets := rfl
@[simp] theorem onPly_pendings (uid windex n : Nat) (f : Ply → Ply) : (onPly s uid windex n f).pendings = s.pendings := rfl
@[simp] theorem onPly_cyc (uid windex n : Nat) (f : Ply → Ply) : (onPly s uid windex n f).cyc = s.cyc := rfl
@[simp] theorem onPly_clk (uid windex n : Nat) (f : Ply → Ply) : (onPly s uid windex n f).clk = s.clk := rfl
@[simp] theorem onPly_steps (uid windex n : Nat) (f : Ply → Ply) : (onPly s uid windex n f).steps = s.steps := rfl
@[simp] theorem onPly_focused (uid windex n : Nat) (f : Ply → Ply) : (onPly s uid windex n f).focused = s.focused := rfl
@[simp] theorem onPly_ply (uid windex n : Nat) (f : Ply → Ply) : (onPly s uid windex n f).ply = s.ply := rfl
@[simp] theorem onPly_weave (uid windex n : Nat) (f : Ply → Ply) : (onPly s uid windex n f).weave = s.weave := rfl
@[simp] theorem onPly_team (uid windex n : Nat) (f : Ply → Ply) : (onPly s uid windex n f).team = s.team := rfl
@[simp] theorem onPly_errs (uid windex n : Nat) (f : Ply → Ply) : (onPly s uid windex n f).errs = s.errs := rfl
@[simp] theorem onPly_fabricQ (uid windex n : Nat) (f : Ply → Ply) : (onPly s uid windex n f).fabricQ = s.fabricQ := rfl
@[simp] theorem onPly_queues (uid windex n : Nat) (f : Ply → Ply) : (onPly s uid windex n f).queues = s.queues := rfl
@[simp] theorem onPly_graphs (uid windex n : Nat) (f : Ply → Ply) : (onPly s uid windex n f).graphs = s.graphs := rfl
@[simp] theorem onPly_nextId (uid windex n : Nat) (f : Ply → Ply) : (onPly s uid windex n f).nextId = s.nextId := rfl
@[simp] theorem onPly_faultQ (uid windex n : Nat) (f : Ply → Ply) : (onPly s uid windex n f).faultQ = s.faultQ := rfl
@[simp] theorem onPly_slots (uid windex n : Nat) (f : Ply → Ply) : (onPly s uid windex n f).slots = s.slots := rfl
@[simp] theorem onPly_wafer (uid windex n : Nat) (f : Ply → Ply) : (onPly s uid windex n f).wafer = s.wafer := rfl
@[simp] theorem onPly_peerReqs (uid windex n : Nat) (f : Ply → Ply) : (onPly s uid windex n f).peerReqs = s.peerReqs := rfl
@[simp] theorem onPly_msi (uid windex n : Nat) (f : Ply → Ply) : (onPly s uid windex n f).msi = s.msi := rfl
@[simp] theorem onPly_msiPending (uid windex n : Nat) (f : Ply → Ply) : (onPly s uid windex n f).msiPending = s.msiPending := rfl
@[simp] theorem onPly_retry (uid windex n : Nat) (f : Ply → Ply) : (onPly s uid windex n f).retry = s.retry := rfl
@[simp] theorem onPly_scanRec (uid windex n : Nat) (f : Ply → Ply) : (onPly s uid windex n f).scanRec = s.scanRec := rfl
@[simp] theorem onPly_laserMap (uid windex n : Nat) (f : Ply → Ply) : (onPly s uid windex n f).laserMap = s.laserMap := rfl
@[simp] theorem onPly_liveMap (uid windex n : Nat) (f : Ply → Ply) : (onPly s uid windex n f).liveMap = s.liveMap := rfl
@[simp] theorem onPly_payments (uid windex n : Nat) (f : Ply → Ply) : (onPly s uid windex n f).payments = s.payments := rfl
@[simp] theorem onPly_spent (uid windex n : Nat) (f : Ply → Ply) : (onPly s uid windex n f).spent = s.spent := rfl
@[simp] theorem onPly_defects (uid windex n : Nat) (f : Ply → Ply) : (onPly s uid windex n f).defects = s.defects := rfl
@[simp] theorem onSite_mem (n : Nat) (f : Site → Site) : (onSite s n f).mem = s.mem := rfl
@[simp] theorem onSite_teams (n : Nat) (f : Site → Site) : (onSite s n f).teams = s.teams := rfl
@[simp] theorem onSite_cores (n : Nat) (f : Site → Site) : (onSite s n f).cores = s.cores := rfl
@[simp] theorem onSite_clusters (n : Nat) (f : Site → Site) : (onSite s n f).clusters = s.clusters := rfl
@[simp] theorem onSite_contexts (n : Nat) (f : Site → Site) : (onSite s n f).contexts = s.contexts := rfl
@[simp] theorem onSite_launches (n : Nat) (f : Site → Site) : (onSite s n f).launches = s.launches := rfl
@[simp] theorem onSite_accs (n : Nat) (f : Site → Site) : (onSite s n f).accs = s.accs := rfl
@[simp] theorem onSite_remotes (n : Nat) (f : Site → Site) : (onSite s n f).remotes = s.remotes := rfl
@[simp] theorem onSite_packets (n : Nat) (f : Site → Site) : (onSite s n f).packets = s.packets := rfl
@[simp] theorem onSite_pendings (n : Nat) (f : Site → Site) : (onSite s n f).pendings = s.pendings := rfl
@[simp] theorem onSite_cyc (n : Nat) (f : Site → Site) : (onSite s n f).cyc = s.cyc := rfl
@[simp] theorem onSite_clk (n : Nat) (f : Site → Site) : (onSite s n f).clk = s.clk := rfl
@[simp] theorem onSite_steps (n : Nat) (f : Site → Site) : (onSite s n f).steps = s.steps := rfl
@[simp] theorem onSite_focused (n : Nat) (f : Site → Site) : (onSite s n f).focused = s.focused := rfl
@[simp] theorem onSite_ply (n : Nat) (f : Site → Site) : (onSite s n f).ply = s.ply := rfl
@[simp] theorem onSite_weave (n : Nat) (f : Site → Site) : (onSite s n f).weave = s.weave := rfl
@[simp] theorem onSite_team (n : Nat) (f : Site → Site) : (onSite s n f).team = s.team := rfl
@[simp] theorem onSite_errs (n : Nat) (f : Site → Site) : (onSite s n f).errs = s.errs := rfl
@[simp] theorem onSite_fabricQ (n : Nat) (f : Site → Site) : (onSite s n f).fabricQ = s.fabricQ := rfl
@[simp] theorem onSite_queues (n : Nat) (f : Site → Site) : (onSite s n f).queues = s.queues := rfl
@[simp] theorem onSite_graphs (n : Nat) (f : Site → Site) : (onSite s n f).graphs = s.graphs := rfl
@[simp] theorem onSite_nextId (n : Nat) (f : Site → Site) : (onSite s n f).nextId = s.nextId := rfl
@[simp] theorem onSite_faultQ (n : Nat) (f : Site → Site) : (onSite s n f).faultQ = s.faultQ := rfl
@[simp] theorem onSite_slots (n : Nat) (f : Site → Site) : (onSite s n f).slots = s.slots := rfl
@[simp] theorem onSite_wafer (n : Nat) (f : Site → Site) : (onSite s n f).wafer = s.wafer := rfl
@[simp] theorem onSite_peerReqs (n : Nat) (f : Site → Site) : (onSite s n f).peerReqs = s.peerReqs := rfl
@[simp] theorem onSite_msi (n : Nat) (f : Site → Site) : (onSite s n f).msi = s.msi := rfl
@[simp] theorem onSite_msiPending (n : Nat) (f : Site → Site) : (onSite s n f).msiPending = s.msiPending := rfl
@[simp] theorem onSite_retry (n : Nat) (f : Site → Site) : (onSite s n f).retry = s.retry := rfl
@[simp] theorem onSite_scanRec (n : Nat) (f : Site → Site) : (onSite s n f).scanRec = s.scanRec := rfl
@[simp] theorem onSite_laserMap (n : Nat) (f : Site → Site) : (onSite s n f).laserMap = s.laserMap := rfl
@[simp] theorem onSite_liveMap (n : Nat) (f : Site → Site) : (onSite s n f).liveMap = s.liveMap := rfl
@[simp] theorem onSite_payments (n : Nat) (f : Site → Site) : (onSite s n f).payments = s.payments := rfl
@[simp] theorem onSite_spent (n : Nat) (f : Site → Site) : (onSite s n f).spent = s.spent := rfl
@[simp] theorem onSite_defects (n : Nat) (f : Site → Site) : (onSite s n f).defects = s.defects := rfl
@[simp] theorem onCore_mem (c : CoreId) (f : Core → Core) : (onCore s c f).mem = s.mem := rfl
@[simp] theorem onCore_teams (c : CoreId) (f : Core → Core) : (onCore s c f).teams = s.teams := rfl
@[simp] theorem onCore_sites (c : CoreId) (f : Core → Core) : (onCore s c f).sites = s.sites := rfl
@[simp] theorem onCore_clusters (c : CoreId) (f : Core → Core) : (onCore s c f).clusters = s.clusters := rfl
@[simp] theorem onCore_contexts (c : CoreId) (f : Core → Core) : (onCore s c f).contexts = s.contexts := rfl
@[simp] theorem onCore_launches (c : CoreId) (f : Core → Core) : (onCore s c f).launches = s.launches := rfl
@[simp] theorem onCore_accs (c : CoreId) (f : Core → Core) : (onCore s c f).accs = s.accs := rfl
@[simp] theorem onCore_remotes (c : CoreId) (f : Core → Core) : (onCore s c f).remotes = s.remotes := rfl
@[simp] theorem onCore_packets (c : CoreId) (f : Core → Core) : (onCore s c f).packets = s.packets := rfl
@[simp] theorem onCore_pendings (c : CoreId) (f : Core → Core) : (onCore s c f).pendings = s.pendings := rfl
@[simp] theorem onCore_cyc (c : CoreId) (f : Core → Core) : (onCore s c f).cyc = s.cyc := rfl
@[simp] theorem onCore_clk (c : CoreId) (f : Core → Core) : (onCore s c f).clk = s.clk := rfl
@[simp] theorem onCore_steps (c : CoreId) (f : Core → Core) : (onCore s c f).steps = s.steps := rfl
@[simp] theorem onCore_focused (c : CoreId) (f : Core → Core) : (onCore s c f).focused = s.focused := rfl
@[simp] theorem onCore_ply (c : CoreId) (f : Core → Core) : (onCore s c f).ply = s.ply := rfl
@[simp] theorem onCore_weave (c : CoreId) (f : Core → Core) : (onCore s c f).weave = s.weave := rfl
@[simp] theorem onCore_team (c : CoreId) (f : Core → Core) : (onCore s c f).team = s.team := rfl
@[simp] theorem onCore_errs (c : CoreId) (f : Core → Core) : (onCore s c f).errs = s.errs := rfl
@[simp] theorem onCore_fabricQ (c : CoreId) (f : Core → Core) : (onCore s c f).fabricQ = s.fabricQ := rfl
@[simp] theorem onCore_queues (c : CoreId) (f : Core → Core) : (onCore s c f).queues = s.queues := rfl
@[simp] theorem onCore_graphs (c : CoreId) (f : Core → Core) : (onCore s c f).graphs = s.graphs := rfl
@[simp] theorem onCore_nextId (c : CoreId) (f : Core → Core) : (onCore s c f).nextId = s.nextId := rfl
@[simp] theorem onCore_faultQ (c : CoreId) (f : Core → Core) : (onCore s c f).faultQ = s.faultQ := rfl
@[simp] theorem onCore_slots (c : CoreId) (f : Core → Core) : (onCore s c f).slots = s.slots := rfl
@[simp] theorem onCore_wafer (c : CoreId) (f : Core → Core) : (onCore s c f).wafer = s.wafer := rfl
@[simp] theorem onCore_peerReqs (c : CoreId) (f : Core → Core) : (onCore s c f).peerReqs = s.peerReqs := rfl
@[simp] theorem onCore_msi (c : CoreId) (f : Core → Core) : (onCore s c f).msi = s.msi := rfl
@[simp] theorem onCore_msiPending (c : CoreId) (f : Core → Core) : (onCore s c f).msiPending = s.msiPending := rfl
@[simp] theorem onCore_retry (c : CoreId) (f : Core → Core) : (onCore s c f).retry = s.retry := rfl
@[simp] theorem onCore_scanRec (c : CoreId) (f : Core → Core) : (onCore s c f).scanRec = s.scanRec := rfl
@[simp] theorem onCore_laserMap (c : CoreId) (f : Core → Core) : (onCore s c f).laserMap = s.laserMap := rfl
@[simp] theorem onCore_liveMap (c : CoreId) (f : Core → Core) : (onCore s c f).liveMap = s.liveMap := rfl
@[simp] theorem onCore_payments (c : CoreId) (f : Core → Core) : (onCore s c f).payments = s.payments := rfl
@[simp] theorem onCore_spent (c : CoreId) (f : Core → Core) : (onCore s c f).spent = s.spent := rfl
@[simp] theorem onCore_defects (c : CoreId) (f : Core → Core) : (onCore s c f).defects = s.defects := rfl
@[simp] theorem onCluster_mem (site phys : Nat) (f : Cluster → Cluster) : (onCluster s site phys f).mem = s.mem := rfl
@[simp] theorem onCluster_teams (site phys : Nat) (f : Cluster → Cluster) : (onCluster s site phys f).teams = s.teams := rfl
@[simp] theorem onCluster_sites (site phys : Nat) (f : Cluster → Cluster) : (onCluster s site phys f).sites = s.sites := rfl
@[simp] theorem onCluster_cores (site phys : Nat) (f : Cluster → Cluster) : (onCluster s site phys f).cores = s.cores := rfl
@[simp] theorem onCluster_contexts (site phys : Nat) (f : Cluster → Cluster) : (onCluster s site phys f).contexts = s.contexts := rfl
@[simp] theorem onCluster_launches (site phys : Nat) (f : Cluster → Cluster) : (onCluster s site phys f).launches = s.launches := rfl
@[simp] theorem onCluster_accs (site phys : Nat) (f : Cluster → Cluster) : (onCluster s site phys f).accs = s.accs := rfl
@[simp] theorem onCluster_remotes (site phys : Nat) (f : Cluster → Cluster) : (onCluster s site phys f).remotes = s.remotes := rfl
@[simp] theorem onCluster_packets (site phys : Nat) (f : Cluster → Cluster) : (onCluster s site phys f).packets = s.packets := rfl
@[simp] theorem onCluster_pendings (site phys : Nat) (f : Cluster → Cluster) : (onCluster s site phys f).pendings = s.pendings := rfl
@[simp] theorem onCluster_cyc (site phys : Nat) (f : Cluster → Cluster) : (onCluster s site phys f).cyc = s.cyc := rfl
@[simp] theorem onCluster_clk (site phys : Nat) (f : Cluster → Cluster) : (onCluster s site phys f).clk = s.clk := rfl
@[simp] theorem onCluster_steps (site phys : Nat) (f : Cluster → Cluster) : (onCluster s site phys f).steps = s.steps := rfl
@[simp] theorem onCluster_focused (site phys : Nat) (f : Cluster → Cluster) : (onCluster s site phys f).focused = s.focused := rfl
@[simp] theorem onCluster_ply (site phys : Nat) (f : Cluster → Cluster) : (onCluster s site phys f).ply = s.ply := rfl
@[simp] theorem onCluster_weave (site phys : Nat) (f : Cluster → Cluster) : (onCluster s site phys f).weave = s.weave := rfl
@[simp] theorem onCluster_team (site phys : Nat) (f : Cluster → Cluster) : (onCluster s site phys f).team = s.team := rfl
@[simp] theorem onCluster_errs (site phys : Nat) (f : Cluster → Cluster) : (onCluster s site phys f).errs = s.errs := rfl
@[simp] theorem onCluster_fabricQ (site phys : Nat) (f : Cluster → Cluster) : (onCluster s site phys f).fabricQ = s.fabricQ := rfl
@[simp] theorem onCluster_queues (site phys : Nat) (f : Cluster → Cluster) : (onCluster s site phys f).queues = s.queues := rfl
@[simp] theorem onCluster_graphs (site phys : Nat) (f : Cluster → Cluster) : (onCluster s site phys f).graphs = s.graphs := rfl
@[simp] theorem onCluster_nextId (site phys : Nat) (f : Cluster → Cluster) : (onCluster s site phys f).nextId = s.nextId := rfl
@[simp] theorem onCluster_faultQ (site phys : Nat) (f : Cluster → Cluster) : (onCluster s site phys f).faultQ = s.faultQ := rfl
@[simp] theorem onCluster_slots (site phys : Nat) (f : Cluster → Cluster) : (onCluster s site phys f).slots = s.slots := rfl
@[simp] theorem onCluster_wafer (site phys : Nat) (f : Cluster → Cluster) : (onCluster s site phys f).wafer = s.wafer := rfl
@[simp] theorem onCluster_peerReqs (site phys : Nat) (f : Cluster → Cluster) : (onCluster s site phys f).peerReqs = s.peerReqs := rfl
@[simp] theorem onCluster_msi (site phys : Nat) (f : Cluster → Cluster) : (onCluster s site phys f).msi = s.msi := rfl
@[simp] theorem onCluster_msiPending (site phys : Nat) (f : Cluster → Cluster) : (onCluster s site phys f).msiPending = s.msiPending := rfl
@[simp] theorem onCluster_retry (site phys : Nat) (f : Cluster → Cluster) : (onCluster s site phys f).retry = s.retry := rfl
@[simp] theorem onCluster_scanRec (site phys : Nat) (f : Cluster → Cluster) : (onCluster s site phys f).scanRec = s.scanRec := rfl
@[simp] theorem onCluster_laserMap (site phys : Nat) (f : Cluster → Cluster) : (onCluster s site phys f).laserMap = s.laserMap := rfl
@[simp] theorem onCluster_liveMap (site phys : Nat) (f : Cluster → Cluster) : (onCluster s site phys f).liveMap = s.liveMap := rfl
@[simp] theorem onCluster_payments (site phys : Nat) (f : Cluster → Cluster) : (onCluster s site phys f).payments = s.payments := rfl
@[simp] theorem onCluster_spent (site phys : Nat) (f : Cluster → Cluster) : (onCluster s site phys f).spent = s.spent := rfl
@[simp] theorem onCluster_defects (site phys : Nat) (f : Cluster → Cluster) : (onCluster s site phys f).defects = s.defects := rfl
@[simp] theorem onCtx_mem (tag : Nat) (f : Context → Context) : (onCtx s tag f).mem = s.mem := rfl
@[simp] theorem onCtx_teams (tag : Nat) (f : Context → Context) : (onCtx s tag f).teams = s.teams := rfl
@[simp] theorem onCtx_sites (tag : Nat) (f : Context → Context) : (onCtx s tag f).sites = s.sites := rfl
@[simp] theorem onCtx_cores (tag : Nat) (f : Context → Context) : (onCtx s tag f).cores = s.cores := rfl
@[simp] theorem onCtx_clusters (tag : Nat) (f : Context → Context) : (onCtx s tag f).clusters = s.clusters := rfl
@[simp] theorem onCtx_launches (tag : Nat) (f : Context → Context) : (onCtx s tag f).launches = s.launches := rfl
@[simp] theorem onCtx_accs (tag : Nat) (f : Context → Context) : (onCtx s tag f).accs = s.accs := rfl
@[simp] theorem onCtx_remotes (tag : Nat) (f : Context → Context) : (onCtx s tag f).remotes = s.remotes := rfl
@[simp] theorem onCtx_packets (tag : Nat) (f : Context → Context) : (onCtx s tag f).packets = s.packets := rfl
@[simp] theorem onCtx_pendings (tag : Nat) (f : Context → Context) : (onCtx s tag f).pendings = s.pendings := rfl
@[simp] theorem onCtx_cyc (tag : Nat) (f : Context → Context) : (onCtx s tag f).cyc = s.cyc := rfl
@[simp] theorem onCtx_clk (tag : Nat) (f : Context → Context) : (onCtx s tag f).clk = s.clk := rfl
@[simp] theorem onCtx_steps (tag : Nat) (f : Context → Context) : (onCtx s tag f).steps = s.steps := rfl
@[simp] theorem onCtx_focused (tag : Nat) (f : Context → Context) : (onCtx s tag f).focused = s.focused := rfl
@[simp] theorem onCtx_ply (tag : Nat) (f : Context → Context) : (onCtx s tag f).ply = s.ply := rfl
@[simp] theorem onCtx_weave (tag : Nat) (f : Context → Context) : (onCtx s tag f).weave = s.weave := rfl
@[simp] theorem onCtx_team (tag : Nat) (f : Context → Context) : (onCtx s tag f).team = s.team := rfl
@[simp] theorem onCtx_errs (tag : Nat) (f : Context → Context) : (onCtx s tag f).errs = s.errs := rfl
@[simp] theorem onCtx_fabricQ (tag : Nat) (f : Context → Context) : (onCtx s tag f).fabricQ = s.fabricQ := rfl
@[simp] theorem onCtx_queues (tag : Nat) (f : Context → Context) : (onCtx s tag f).queues = s.queues := rfl
@[simp] theorem onCtx_graphs (tag : Nat) (f : Context → Context) : (onCtx s tag f).graphs = s.graphs := rfl
@[simp] theorem onCtx_nextId (tag : Nat) (f : Context → Context) : (onCtx s tag f).nextId = s.nextId := rfl
@[simp] theorem onCtx_faultQ (tag : Nat) (f : Context → Context) : (onCtx s tag f).faultQ = s.faultQ := rfl
@[simp] theorem onCtx_slots (tag : Nat) (f : Context → Context) : (onCtx s tag f).slots = s.slots := rfl
@[simp] theorem onCtx_wafer (tag : Nat) (f : Context → Context) : (onCtx s tag f).wafer = s.wafer := rfl
@[simp] theorem onCtx_peerReqs (tag : Nat) (f : Context → Context) : (onCtx s tag f).peerReqs = s.peerReqs := rfl
@[simp] theorem onCtx_msi (tag : Nat) (f : Context → Context) : (onCtx s tag f).msi = s.msi := rfl
@[simp] theorem onCtx_msiPending (tag : Nat) (f : Context → Context) : (onCtx s tag f).msiPending = s.msiPending := rfl
@[simp] theorem onCtx_retry (tag : Nat) (f : Context → Context) : (onCtx s tag f).retry = s.retry := rfl
@[simp] theorem onCtx_scanRec (tag : Nat) (f : Context → Context) : (onCtx s tag f).scanRec = s.scanRec := rfl
@[simp] theorem onCtx_laserMap (tag : Nat) (f : Context → Context) : (onCtx s tag f).laserMap = s.laserMap := rfl
@[simp] theorem onCtx_liveMap (tag : Nat) (f : Context → Context) : (onCtx s tag f).liveMap = s.liveMap := rfl
@[simp] theorem onCtx_payments (tag : Nat) (f : Context → Context) : (onCtx s tag f).payments = s.payments := rfl
@[simp] theorem onCtx_spent (tag : Nat) (f : Context → Context) : (onCtx s tag f).spent = s.spent := rfl
@[simp] theorem onCtx_defects (tag : Nat) (f : Context → Context) : (onCtx s tag f).defects = s.defects := rfl
@[simp] theorem onLaunch_mem (key : Nat) (f : Launch → Launch) : (onLaunch s key f).mem = s.mem := rfl
@[simp] theorem onLaunch_teams (key : Nat) (f : Launch → Launch) : (onLaunch s key f).teams = s.teams := rfl
@[simp] theorem onLaunch_sites (key : Nat) (f : Launch → Launch) : (onLaunch s key f).sites = s.sites := rfl
@[simp] theorem onLaunch_cores (key : Nat) (f : Launch → Launch) : (onLaunch s key f).cores = s.cores := rfl
@[simp] theorem onLaunch_clusters (key : Nat) (f : Launch → Launch) : (onLaunch s key f).clusters = s.clusters := rfl
@[simp] theorem onLaunch_contexts (key : Nat) (f : Launch → Launch) : (onLaunch s key f).contexts = s.contexts := rfl
@[simp] theorem onLaunch_accs (key : Nat) (f : Launch → Launch) : (onLaunch s key f).accs = s.accs := rfl
@[simp] theorem onLaunch_remotes (key : Nat) (f : Launch → Launch) : (onLaunch s key f).remotes = s.remotes := rfl
@[simp] theorem onLaunch_packets (key : Nat) (f : Launch → Launch) : (onLaunch s key f).packets = s.packets := rfl
@[simp] theorem onLaunch_pendings (key : Nat) (f : Launch → Launch) : (onLaunch s key f).pendings = s.pendings := rfl
@[simp] theorem onLaunch_cyc (key : Nat) (f : Launch → Launch) : (onLaunch s key f).cyc = s.cyc := rfl
@[simp] theorem onLaunch_clk (key : Nat) (f : Launch → Launch) : (onLaunch s key f).clk = s.clk := rfl
@[simp] theorem onLaunch_steps (key : Nat) (f : Launch → Launch) : (onLaunch s key f).steps = s.steps := rfl
@[simp] theorem onLaunch_focused (key : Nat) (f : Launch → Launch) : (onLaunch s key f).focused = s.focused := rfl
@[simp] theorem onLaunch_ply (key : Nat) (f : Launch → Launch) : (onLaunch s key f).ply = s.ply := rfl
@[simp] theorem onLaunch_weave (key : Nat) (f : Launch → Launch) : (onLaunch s key f).weave = s.weave := rfl
@[simp] theorem onLaunch_team (key : Nat) (f : Launch → Launch) : (onLaunch s key f).team = s.team := rfl
@[simp] theorem onLaunch_errs (key : Nat) (f : Launch → Launch) : (onLaunch s key f).errs = s.errs := rfl
@[simp] theorem onLaunch_fabricQ (key : Nat) (f : Launch → Launch) : (onLaunch s key f).fabricQ = s.fabricQ := rfl
@[simp] theorem onLaunch_queues (key : Nat) (f : Launch → Launch) : (onLaunch s key f).queues = s.queues := rfl
@[simp] theorem onLaunch_graphs (key : Nat) (f : Launch → Launch) : (onLaunch s key f).graphs = s.graphs := rfl
@[simp] theorem onLaunch_nextId (key : Nat) (f : Launch → Launch) : (onLaunch s key f).nextId = s.nextId := rfl
@[simp] theorem onLaunch_faultQ (key : Nat) (f : Launch → Launch) : (onLaunch s key f).faultQ = s.faultQ := rfl
@[simp] theorem onLaunch_slots (key : Nat) (f : Launch → Launch) : (onLaunch s key f).slots = s.slots := rfl
@[simp] theorem onLaunch_wafer (key : Nat) (f : Launch → Launch) : (onLaunch s key f).wafer = s.wafer := rfl
@[simp] theorem onLaunch_peerReqs (key : Nat) (f : Launch → Launch) : (onLaunch s key f).peerReqs = s.peerReqs := rfl
@[simp] theorem onLaunch_msi (key : Nat) (f : Launch → Launch) : (onLaunch s key f).msi = s.msi := rfl
@[simp] theorem onLaunch_msiPending (key : Nat) (f : Launch → Launch) : (onLaunch s key f).msiPending = s.msiPending := rfl
@[simp] theorem onLaunch_retry (key : Nat) (f : Launch → Launch) : (onLaunch s key f).retry = s.retry := rfl
@[simp] theorem onLaunch_scanRec (key : Nat) (f : Launch → Launch) : (onLaunch s key f).scanRec = s.scanRec := rfl
@[simp] theorem onLaunch_laserMap (key : Nat) (f : Launch → Launch) : (onLaunch s key f).laserMap = s.laserMap := rfl
@[simp] theorem onLaunch_liveMap (key : Nat) (f : Launch → Launch) : (onLaunch s key f).liveMap = s.liveMap := rfl
@[simp] theorem onLaunch_payments (key : Nat) (f : Launch → Launch) : (onLaunch s key f).payments = s.payments := rfl
@[simp] theorem onLaunch_spent (key : Nat) (f : Launch → Launch) : (onLaunch s key f).spent = s.spent := rfl
@[simp] theorem onLaunch_defects (key : Nat) (f : Launch → Launch) : (onLaunch s key f).defects = s.defects := rfl
@[simp] theorem onGraph_mem (id : Nat) (f : Graph → Graph) : (onGraph s id f).mem = s.mem := rfl
@[simp] theorem onGraph_teams (id : Nat) (f : Graph → Graph) : (onGraph s id f).teams = s.teams := rfl
@[simp] theorem onGraph_sites (id : Nat) (f : Graph → Graph) : (onGraph s id f).sites = s.sites := rfl
@[simp] theorem onGraph_cores (id : Nat) (f : Graph → Graph) : (onGraph s id f).cores = s.cores := rfl
@[simp] theorem onGraph_clusters (id : Nat) (f : Graph → Graph) : (onGraph s id f).clusters = s.clusters := rfl
@[simp] theorem onGraph_contexts (id : Nat) (f : Graph → Graph) : (onGraph s id f).contexts = s.contexts := rfl
@[simp] theorem onGraph_launches (id : Nat) (f : Graph → Graph) : (onGraph s id f).launches = s.launches := rfl
@[simp] theorem onGraph_accs (id : Nat) (f : Graph → Graph) : (onGraph s id f).accs = s.accs := rfl
@[simp] theorem onGraph_remotes (id : Nat) (f : Graph → Graph) : (onGraph s id f).remotes = s.remotes := rfl
@[simp] theorem onGraph_packets (id : Nat) (f : Graph → Graph) : (onGraph s id f).packets = s.packets := rfl
@[simp] theorem onGraph_pendings (id : Nat) (f : Graph → Graph) : (onGraph s id f).pendings = s.pendings := rfl
@[simp] theorem onGraph_cyc (id : Nat) (f : Graph → Graph) : (onGraph s id f).cyc = s.cyc := rfl
@[simp] theorem onGraph_clk (id : Nat) (f : Graph → Graph) : (onGraph s id f).clk = s.clk := rfl
@[simp] theorem onGraph_steps (id : Nat) (f : Graph → Graph) : (onGraph s id f).steps = s.steps := rfl
@[simp] theorem onGraph_focused (id : Nat) (f : Graph → Graph) : (onGraph s id f).focused = s.focused := rfl
@[simp] theorem onGraph_ply (id : Nat) (f : Graph → Graph) : (onGraph s id f).ply = s.ply := rfl
@[simp] theorem onGraph_weave (id : Nat) (f : Graph → Graph) : (onGraph s id f).weave = s.weave := rfl
@[simp] theorem onGraph_team (id : Nat) (f : Graph → Graph) : (onGraph s id f).team = s.team := rfl
@[simp] theorem onGraph_errs (id : Nat) (f : Graph → Graph) : (onGraph s id f).errs = s.errs := rfl
@[simp] theorem onGraph_fabricQ (id : Nat) (f : Graph → Graph) : (onGraph s id f).fabricQ = s.fabricQ := rfl
@[simp] theorem onGraph_queues (id : Nat) (f : Graph → Graph) : (onGraph s id f).queues = s.queues := rfl
@[simp] theorem onGraph_nextId (id : Nat) (f : Graph → Graph) : (onGraph s id f).nextId = s.nextId := rfl
@[simp] theorem onGraph_faultQ (id : Nat) (f : Graph → Graph) : (onGraph s id f).faultQ = s.faultQ := rfl
@[simp] theorem onGraph_slots (id : Nat) (f : Graph → Graph) : (onGraph s id f).slots = s.slots := rfl
@[simp] theorem onGraph_wafer (id : Nat) (f : Graph → Graph) : (onGraph s id f).wafer = s.wafer := rfl
@[simp] theorem onGraph_peerReqs (id : Nat) (f : Graph → Graph) : (onGraph s id f).peerReqs = s.peerReqs := rfl
@[simp] theorem onGraph_msi (id : Nat) (f : Graph → Graph) : (onGraph s id f).msi = s.msi := rfl
@[simp] theorem onGraph_msiPending (id : Nat) (f : Graph → Graph) : (onGraph s id f).msiPending = s.msiPending := rfl
@[simp] theorem onGraph_retry (id : Nat) (f : Graph → Graph) : (onGraph s id f).retry = s.retry := rfl
@[simp] theorem onGraph_scanRec (id : Nat) (f : Graph → Graph) : (onGraph s id f).scanRec = s.scanRec := rfl
@[simp] theorem onGraph_laserMap (id : Nat) (f : Graph → Graph) : (onGraph s id f).laserMap = s.laserMap := rfl
@[simp] theorem onGraph_liveMap (id : Nat) (f : Graph → Graph) : (onGraph s id f).liveMap = s.liveMap := rfl
@[simp] theorem onGraph_payments (id : Nat) (f : Graph → Graph) : (onGraph s id f).payments = s.payments := rfl
@[simp] theorem onGraph_spent (id : Nat) (f : Graph → Graph) : (onGraph s id f).spent = s.spent := rfl
@[simp] theorem onGraph_defects (id : Nat) (f : Graph → Graph) : (onGraph s id f).defects = s.defects := rfl
@[simp] theorem onQueue_mem (id : Nat) (f : Queue → Queue) : (onQueue s id f).mem = s.mem := rfl
@[simp] theorem onQueue_teams (id : Nat) (f : Queue → Queue) : (onQueue s id f).teams = s.teams := rfl
@[simp] theorem onQueue_sites (id : Nat) (f : Queue → Queue) : (onQueue s id f).sites = s.sites := rfl
@[simp] theorem onQueue_cores (id : Nat) (f : Queue → Queue) : (onQueue s id f).cores = s.cores := rfl
@[simp] theorem onQueue_clusters (id : Nat) (f : Queue → Queue) : (onQueue s id f).clusters = s.clusters := rfl
@[simp] theorem onQueue_contexts (id : Nat) (f : Queue → Queue) : (onQueue s id f).contexts = s.contexts := rfl
@[simp] theorem onQueue_launches (id : Nat) (f : Queue → Queue) : (onQueue s id f).launches = s.launches := rfl
@[simp] theorem onQueue_accs (id : Nat) (f : Queue → Queue) : (onQueue s id f).accs = s.accs := rfl
@[simp] theorem onQueue_remotes (id : Nat) (f : Queue → Queue) : (onQueue s id f).remotes = s.remotes := rfl
@[simp] theorem onQueue_packets (id : Nat) (f : Queue → Queue) : (onQueue s id f).packets = s.packets := rfl
@[simp] theorem onQueue_pendings (id : Nat) (f : Queue → Queue) : (onQueue s id f).pendings = s.pendings := rfl
@[simp] theorem onQueue_cyc (id : Nat) (f : Queue → Queue) : (onQueue s id f).cyc = s.cyc := rfl
@[simp] theorem onQueue_clk (id : Nat) (f : Queue → Queue) : (onQueue s id f).clk = s.clk := rfl
@[simp] theorem onQueue_steps (id : Nat) (f : Queue → Queue) : (onQueue s id f).steps = s.steps := rfl
@[simp] theorem onQueue_focused (id : Nat) (f : Queue → Queue) : (onQueue s id f).focused = s.focused := rfl
@[simp] theorem onQueue_ply (id : Nat) (f : Queue → Queue) : (onQueue s id f).ply = s.ply := rfl
@[simp] theorem onQueue_weave (id : Nat) (f : Queue → Queue) : (onQueue s id f).weave = s.weave := rfl
@[simp] theorem onQueue_team (id : Nat) (f : Queue → Queue) : (onQueue s id f).team = s.team := rfl
@[simp] theorem onQueue_errs (id : Nat) (f : Queue → Queue) : (onQueue s id f).errs = s.errs := rfl
@[simp] theorem onQueue_fabricQ (id : Nat) (f : Queue → Queue) : (onQueue s id f).fabricQ = s.fabricQ := rfl
@[simp] theorem onQueue_graphs (id : Nat) (f : Queue → Queue) : (onQueue s id f).graphs = s.graphs := rfl
@[simp] theorem onQueue_nextId (id : Nat) (f : Queue → Queue) : (onQueue s id f).nextId = s.nextId := rfl
@[simp] theorem onQueue_faultQ (id : Nat) (f : Queue → Queue) : (onQueue s id f).faultQ = s.faultQ := rfl
@[simp] theorem onQueue_slots (id : Nat) (f : Queue → Queue) : (onQueue s id f).slots = s.slots := rfl
@[simp] theorem onQueue_wafer (id : Nat) (f : Queue → Queue) : (onQueue s id f).wafer = s.wafer := rfl
@[simp] theorem onQueue_peerReqs (id : Nat) (f : Queue → Queue) : (onQueue s id f).peerReqs = s.peerReqs := rfl
@[simp] theorem onQueue_msi (id : Nat) (f : Queue → Queue) : (onQueue s id f).msi = s.msi := rfl
@[simp] theorem onQueue_msiPending (id : Nat) (f : Queue → Queue) : (onQueue s id f).msiPending = s.msiPending := rfl
@[simp] theorem onQueue_retry (id : Nat) (f : Queue → Queue) : (onQueue s id f).retry = s.retry := rfl
@[simp] theorem onQueue_scanRec (id : Nat) (f : Queue → Queue) : (onQueue s id f).scanRec = s.scanRec := rfl
@[simp] theorem onQueue_laserMap (id : Nat) (f : Queue → Queue) : (onQueue s id f).laserMap = s.laserMap := rfl
@[simp] theorem onQueue_liveMap (id : Nat) (f : Queue → Queue) : (onQueue s id f).liveMap = s.liveMap := rfl
@[simp] theorem onQueue_payments (id : Nat) (f : Queue → Queue) : (onQueue s id f).payments = s.payments := rfl
@[simp] theorem onQueue_spent (id : Nat) (f : Queue → Queue) : (onQueue s id f).spent = s.spent := rfl
@[simp] theorem onQueue_defects (id : Nat) (f : Queue → Queue) : (onQueue s id f).defects = s.defects := rfl
@[simp] theorem setAcc_mem (a : Acc) : (setAcc s a).mem = s.mem := rfl
@[simp] theorem setAcc_teams (a : Acc) : (setAcc s a).teams = s.teams := rfl
@[simp] theorem setAcc_sites (a : Acc) : (setAcc s a).sites = s.sites := rfl
@[simp] theorem setAcc_cores (a : Acc) : (setAcc s a).cores = s.cores := rfl
@[simp] theorem setAcc_clusters (a : Acc) : (setAcc s a).clusters = s.clusters := rfl
@[simp] theorem setAcc_contexts (a : Acc) : (setAcc s a).contexts = s.contexts := rfl
@[simp] theorem setAcc_launches (a : Acc) : (setAcc s a).launches = s.launches := rfl
@[simp] theorem setAcc_remotes (a : Acc) : (setAcc s a).remotes = s.remotes := rfl
@[simp] theorem setAcc_packets (a : Acc) : (setAcc s a).packets = s.packets := rfl
@[simp] theorem setAcc_pendings (a : Acc) : (setAcc s a).pendings = s.pendings := rfl
@[simp] theorem setAcc_cyc (a : Acc) : (setAcc s a).cyc = s.cyc := rfl
@[simp] theorem setAcc_clk (a : Acc) : (setAcc s a).clk = s.clk := rfl
@[simp] theorem setAcc_steps (a : Acc) : (setAcc s a).steps = s.steps := rfl
@[simp] theorem setAcc_focused (a : Acc) : (setAcc s a).focused = s.focused := rfl
@[simp] theorem setAcc_ply (a : Acc) : (setAcc s a).ply = s.ply := rfl
@[simp] theorem setAcc_weave (a : Acc) : (setAcc s a).weave = s.weave := rfl
@[simp] theorem setAcc_team (a : Acc) : (setAcc s a).team = s.team := rfl
@[simp] theorem setAcc_errs (a : Acc) : (setAcc s a).errs = s.errs := rfl
@[simp] theorem setAcc_fabricQ (a : Acc) : (setAcc s a).fabricQ = s.fabricQ := rfl
@[simp] theorem setAcc_queues (a : Acc) : (setAcc s a).queues = s.queues := rfl
@[simp] theorem setAcc_graphs (a : Acc) : (setAcc s a).graphs = s.graphs := rfl
@[simp] theorem setAcc_nextId (a : Acc) : (setAcc s a).nextId = s.nextId := rfl
@[simp] theorem setAcc_faultQ (a : Acc) : (setAcc s a).faultQ = s.faultQ := rfl
@[simp] theorem setAcc_slots (a : Acc) : (setAcc s a).slots = s.slots := rfl
@[simp] theorem setAcc_wafer (a : Acc) : (setAcc s a).wafer = s.wafer := rfl
@[simp] theorem setAcc_peerReqs (a : Acc) : (setAcc s a).peerReqs = s.peerReqs := rfl
@[simp] theorem setAcc_msi (a : Acc) : (setAcc s a).msi = s.msi := rfl
@[simp] theorem setAcc_msiPending (a : Acc) : (setAcc s a).msiPending = s.msiPending := rfl
@[simp] theorem setAcc_retry (a : Acc) : (setAcc s a).retry = s.retry := rfl
@[simp] theorem setAcc_scanRec (a : Acc) : (setAcc s a).scanRec = s.scanRec := rfl
@[simp] theorem setAcc_laserMap (a : Acc) : (setAcc s a).laserMap = s.laserMap := rfl
@[simp] theorem setAcc_liveMap (a : Acc) : (setAcc s a).liveMap = s.liveMap := rfl
@[simp] theorem setAcc_payments (a : Acc) : (setAcc s a).payments = s.payments := rfl
@[simp] theorem setAcc_spent (a : Acc) : (setAcc s a).spent = s.spent := rfl
@[simp] theorem setAcc_defects (a : Acc) : (setAcc s a).defects = s.defects := rfl
@[simp] theorem dropAcc_mem (id : Nat) : (dropAcc s id).mem = s.mem := rfl
@[simp] theorem dropAcc_teams (id : Nat) : (dropAcc s id).teams = s.teams := rfl
@[simp] theorem dropAcc_sites (id : Nat) : (dropAcc s id).sites = s.sites := rfl
@[simp] theorem dropAcc_cores (id : Nat) : (dropAcc s id).cores = s.cores := rfl
@[simp] theorem dropAcc_clusters (id : Nat) : (dropAcc s id).clusters = s.clusters := rfl
@[simp] theorem dropAcc_contexts (id : Nat) : (dropAcc s id).contexts = s.contexts := rfl
@[simp] theorem dropAcc_launches (id : Nat) : (dropAcc s id).launches = s.launches := rfl
@[simp] theorem dropAcc_remotes (id : Nat) : (dropAcc s id).remotes = s.remotes := rfl
@[simp] theorem dropAcc_packets (id : Nat) : (dropAcc s id).packets = s.packets := rfl
@[simp] theorem dropAcc_pendings (id : Nat) : (dropAcc s id).pendings = s.pendings := rfl
@[simp] theorem dropAcc_cyc (id : Nat) : (dropAcc s id).cyc = s.cyc := rfl
@[simp] theorem dropAcc_clk (id : Nat) : (dropAcc s id).clk = s.clk := rfl
@[simp] theorem dropAcc_steps (id : Nat) : (dropAcc s id).steps = s.steps := rfl
@[simp] theorem dropAcc_focused (id : Nat) : (dropAcc s id).focused = s.focused := rfl
@[simp] theorem dropAcc_ply (id : Nat) : (dropAcc s id).ply = s.ply := rfl
@[simp] theorem dropAcc_weave (id : Nat) : (dropAcc s id).weave = s.weave := rfl
@[simp] theorem dropAcc_team (id : Nat) : (dropAcc s id).team = s.team := rfl
@[simp] theorem dropAcc_errs (id : Nat) : (dropAcc s id).errs = s.errs := rfl
@[simp] theorem dropAcc_fabricQ (id : Nat) : (dropAcc s id).fabricQ = s.fabricQ := rfl
@[simp] theorem dropAcc_queues (id : Nat) : (dropAcc s id).queues = s.queues := rfl
@[simp] theorem dropAcc_graphs (id : Nat) : (dropAcc s id).graphs = s.graphs := rfl
@[simp] theorem dropAcc_nextId (id : Nat) : (dropAcc s id).nextId = s.nextId := rfl
@[simp] theorem dropAcc_faultQ (id : Nat) : (dropAcc s id).faultQ = s.faultQ := rfl
@[simp] theorem dropAcc_slots (id : Nat) : (dropAcc s id).slots = s.slots := rfl
@[simp] theorem dropAcc_wafer (id : Nat) : (dropAcc s id).wafer = s.wafer := rfl
@[simp] theorem dropAcc_peerReqs (id : Nat) : (dropAcc s id).peerReqs = s.peerReqs := rfl
@[simp] theorem dropAcc_msi (id : Nat) : (dropAcc s id).msi = s.msi := rfl
@[simp] theorem dropAcc_msiPending (id : Nat) : (dropAcc s id).msiPending = s.msiPending := rfl
@[simp] theorem dropAcc_retry (id : Nat) : (dropAcc s id).retry = s.retry := rfl
@[simp] theorem dropAcc_scanRec (id : Nat) : (dropAcc s id).scanRec = s.scanRec := rfl
@[simp] theorem dropAcc_laserMap (id : Nat) : (dropAcc s id).laserMap = s.laserMap := rfl
@[simp] theorem dropAcc_liveMap (id : Nat) : (dropAcc s id).liveMap = s.liveMap := rfl
@[simp] theorem dropAcc_payments (id : Nat) : (dropAcc s id).payments = s.payments := rfl
@[simp] theorem dropAcc_spent (id : Nat) : (dropAcc s id).spent = s.spent := rfl
@[simp] theorem dropAcc_defects (id : Nat) : (dropAcc s id).defects = s.defects := rfl
@[simp] theorem setTs_mem (t : LineTs) : (setTs s t).mem = s.mem := rfl
@[simp] theorem setTs_teams (t : LineTs) : (setTs s t).teams = s.teams := rfl
@[simp] theorem setTs_sites (t : LineTs) : (setTs s t).sites = s.sites := rfl
@[simp] theorem setTs_cores (t : LineTs) : (setTs s t).cores = s.cores := rfl
@[simp] theorem setTs_clusters (t : LineTs) : (setTs s t).clusters = s.clusters := rfl
@[simp] theorem setTs_contexts (t : LineTs) : (setTs s t).contexts = s.contexts := rfl
@[simp] theorem setTs_launches (t : LineTs) : (setTs s t).launches = s.launches := rfl
@[simp] theorem setTs_accs (t : LineTs) : (setTs s t).accs = s.accs := rfl
@[simp] theorem setTs_remotes (t : LineTs) : (setTs s t).remotes = s.remotes := rfl
@[simp] theorem setTs_packets (t : LineTs) : (setTs s t).packets = s.packets := rfl
@[simp] theorem setTs_pendings (t : LineTs) : (setTs s t).pendings = s.pendings := rfl
@[simp] theorem setTs_cyc (t : LineTs) : (setTs s t).cyc = s.cyc := rfl
@[simp] theorem setTs_clk (t : LineTs) : (setTs s t).clk = s.clk := rfl
@[simp] theorem setTs_steps (t : LineTs) : (setTs s t).steps = s.steps := rfl
@[simp] theorem setTs_focused (t : LineTs) : (setTs s t).focused = s.focused := rfl
@[simp] theorem setTs_ply (t : LineTs) : (setTs s t).ply = s.ply := rfl
@[simp] theorem setTs_weave (t : LineTs) : (setTs s t).weave = s.weave := rfl
@[simp] theorem setTs_team (t : LineTs) : (setTs s t).team = s.team := rfl
@[simp] theorem setTs_errs (t : LineTs) : (setTs s t).errs = s.errs := rfl
@[simp] theorem setTs_fabricQ (t : LineTs) : (setTs s t).fabricQ = s.fabricQ := rfl
@[simp] theorem setTs_queues (t : LineTs) : (setTs s t).queues = s.queues := rfl
@[simp] theorem setTs_graphs (t : LineTs) : (setTs s t).graphs = s.graphs := rfl
@[simp] theorem setTs_nextId (t : LineTs) : (setTs s t).nextId = s.nextId := rfl
@[simp] theorem setTs_faultQ (t : LineTs) : (setTs s t).faultQ = s.faultQ := rfl
@[simp] theorem setTs_slots (t : LineTs) : (setTs s t).slots = s.slots := rfl
@[simp] theorem setTs_wafer (t : LineTs) : (setTs s t).wafer = s.wafer := rfl
@[simp] theorem setTs_peerReqs (t : LineTs) : (setTs s t).peerReqs = s.peerReqs := rfl
@[simp] theorem setTs_msi (t : LineTs) : (setTs s t).msi = s.msi := rfl
@[simp] theorem setTs_msiPending (t : LineTs) : (setTs s t).msiPending = s.msiPending := rfl
@[simp] theorem setTs_retry (t : LineTs) : (setTs s t).retry = s.retry := rfl
@[simp] theorem setTs_scanRec (t : LineTs) : (setTs s t).scanRec = s.scanRec := rfl
@[simp] theorem setTs_laserMap (t : LineTs) : (setTs s t).laserMap = s.laserMap := rfl
@[simp] theorem setTs_liveMap (t : LineTs) : (setTs s t).liveMap = s.liveMap := rfl
@[simp] theorem setTs_payments (t : LineTs) : (setTs s t).payments = s.payments := rfl
@[simp] theorem setTs_spent (t : LineTs) : (setTs s t).spent = s.spent := rfl
@[simp] theorem setTs_defects (t : LineTs) : (setTs s t).defects = s.defects := rfl
@[simp] theorem dropPending_mem (home fid : Nat) : (dropPending s home fid).mem = s.mem := rfl
@[simp] theorem dropPending_teams (home fid : Nat) : (dropPending s home fid).teams = s.teams := rfl
@[simp] theorem dropPending_sites (home fid : Nat) : (dropPending s home fid).sites = s.sites := rfl
@[simp] theorem dropPending_cores (home fid : Nat) : (dropPending s home fid).cores = s.cores := rfl
@[simp] theorem dropPending_clusters (home fid : Nat) : (dropPending s home fid).clusters = s.clusters := rfl
@[simp] theorem dropPending_contexts (home fid : Nat) : (dropPending s home fid).contexts = s.contexts := rfl
@[simp] theorem dropPending_launches (home fid : Nat) : (dropPending s home fid).launches = s.launches := rfl
@[simp] theorem dropPending_accs (home fid : Nat) : (dropPending s home fid).accs = s.accs := rfl
@[simp] theorem dropPending_remotes (home fid : Nat) : (dropPending s home fid).remotes = s.remotes := rfl
@[simp] theorem dropPending_packets (home fid : Nat) : (dropPending s home fid).packets = s.packets := rfl
@[simp] theorem dropPending_cyc (home fid : Nat) : (dropPending s home fid).cyc = s.cyc := rfl
@[simp] theorem dropPending_clk (home fid : Nat) : (dropPending s home fid).clk = s.clk := rfl
@[simp] theorem dropPending_steps (home fid : Nat) : (dropPending s home fid).steps = s.steps := rfl
@[simp] theorem dropPending_focused (home fid : Nat) : (dropPending s home fid).focused = s.focused := rfl
@[simp] theorem dropPending_ply (home fid : Nat) : (dropPending s home fid).ply = s.ply := rfl
@[simp] theorem dropPending_weave (home fid : Nat) : (dropPending s home fid).weave = s.weave := rfl
@[simp] theorem dropPending_team (home fid : Nat) : (dropPending s home fid).team = s.team := rfl
@[simp] theorem dropPending_errs (home fid : Nat) : (dropPending s home fid).errs = s.errs := rfl
@[simp] theorem dropPending_fabricQ (home fid : Nat) : (dropPending s home fid).fabricQ = s.fabricQ := rfl
@[simp] theorem dropPending_queues (home fid : Nat) : (dropPending s home fid).queues = s.queues := rfl
@[simp] theorem dropPending_graphs (home fid : Nat) : (dropPending s home fid).graphs = s.graphs := rfl
@[simp] theorem dropPending_nextId (home fid : Nat) : (dropPending s home fid).nextId = s.nextId := rfl
@[simp] theorem dropPending_faultQ (home fid : Nat) : (dropPending s home fid).faultQ = s.faultQ := rfl
@[simp] theorem dropPending_slots (home fid : Nat) : (dropPending s home fid).slots = s.slots := rfl
@[simp] theorem dropPending_wafer (home fid : Nat) : (dropPending s home fid).wafer = s.wafer := rfl
@[simp] theorem dropPending_peerReqs (home fid : Nat) : (dropPending s home fid).peerReqs = s.peerReqs := rfl
@[simp] theorem dropPending_msi (home fid : Nat) : (dropPending s home fid).msi = s.msi := rfl
@[simp] theorem dropPending_msiPending (home fid : Nat) : (dropPending s home fid).msiPending = s.msiPending := rfl
@[simp] theorem dropPending_retry (home fid : Nat) : (dropPending s home fid).retry = s.retry := rfl
@[simp] theorem dropPending_scanRec (home fid : Nat) : (dropPending s home fid).scanRec = s.scanRec := rfl
@[simp] theorem dropPending_laserMap (home fid : Nat) : (dropPending s home fid).laserMap = s.laserMap := rfl
@[simp] theorem dropPending_liveMap (home fid : Nat) : (dropPending s home fid).liveMap = s.liveMap := rfl
@[simp] theorem dropPending_payments (home fid : Nat) : (dropPending s home fid).payments = s.payments := rfl
@[simp] theorem dropPending_spent (home fid : Nat) : (dropPending s home fid).spent = s.spent := rfl
@[simp] theorem dropPending_defects (home fid : Nat) : (dropPending s home fid).defects = s.defects := rfl
@[simp] theorem postErr_mem (kind ctx unit ia lnum tix x y : Nat) : (postErr s kind ctx unit ia lnum tix x y).mem = s.mem := rfl
@[simp] theorem postErr_teams (kind ctx unit ia lnum tix x y : Nat) : (postErr s kind ctx unit ia lnum tix x y).teams = s.teams := rfl
@[simp] theorem postErr_sites (kind ctx unit ia lnum tix x y : Nat) : (postErr s kind ctx unit ia lnum tix x y).sites = s.sites := rfl
@[simp] theorem postErr_cores (kind ctx unit ia lnum tix x y : Nat) : (postErr s kind ctx unit ia lnum tix x y).cores = s.cores := rfl
@[simp] theorem postErr_clusters (kind ctx unit ia lnum tix x y : Nat) : (postErr s kind ctx unit ia lnum tix x y).clusters = s.clusters := rfl
@[simp] theorem postErr_contexts (kind ctx unit ia lnum tix x y : Nat) : (postErr s kind ctx unit ia lnum tix x y).contexts = s.contexts := rfl
@[simp] theorem postErr_launches (kind ctx unit ia lnum tix x y : Nat) : (postErr s kind ctx unit ia lnum tix x y).launches = s.launches := rfl
@[simp] theorem postErr_accs (kind ctx unit ia lnum tix x y : Nat) : (postErr s kind ctx unit ia lnum tix x y).accs = s.accs := rfl
@[simp] theorem postErr_remotes (kind ctx unit ia lnum tix x y : Nat) : (postErr s kind ctx unit ia lnum tix x y).remotes = s.remotes := rfl
@[simp] theorem postErr_packets (kind ctx unit ia lnum tix x y : Nat) : (postErr s kind ctx unit ia lnum tix x y).packets = s.packets := rfl
@[simp] theorem postErr_pendings (kind ctx unit ia lnum tix x y : Nat) : (postErr s kind ctx unit ia lnum tix x y).pendings = s.pendings := rfl
@[simp] theorem postErr_cyc (kind ctx unit ia lnum tix x y : Nat) : (postErr s kind ctx unit ia lnum tix x y).cyc = s.cyc := rfl
@[simp] theorem postErr_clk (kind ctx unit ia lnum tix x y : Nat) : (postErr s kind ctx unit ia lnum tix x y).clk = s.clk := rfl
@[simp] theorem postErr_steps (kind ctx unit ia lnum tix x y : Nat) : (postErr s kind ctx unit ia lnum tix x y).steps = s.steps := rfl
@[simp] theorem postErr_focused (kind ctx unit ia lnum tix x y : Nat) : (postErr s kind ctx unit ia lnum tix x y).focused = s.focused := rfl
@[simp] theorem postErr_ply (kind ctx unit ia lnum tix x y : Nat) : (postErr s kind ctx unit ia lnum tix x y).ply = s.ply := rfl
@[simp] theorem postErr_weave (kind ctx unit ia lnum tix x y : Nat) : (postErr s kind ctx unit ia lnum tix x y).weave = s.weave := rfl
@[simp] theorem postErr_team (kind ctx unit ia lnum tix x y : Nat) : (postErr s kind ctx unit ia lnum tix x y).team = s.team := rfl
@[simp] theorem postErr_fabricQ (kind ctx unit ia lnum tix x y : Nat) : (postErr s kind ctx unit ia lnum tix x y).fabricQ = s.fabricQ := rfl
@[simp] theorem postErr_queues (kind ctx unit ia lnum tix x y : Nat) : (postErr s kind ctx unit ia lnum tix x y).queues = s.queues := rfl
@[simp] theorem postErr_graphs (kind ctx unit ia lnum tix x y : Nat) : (postErr s kind ctx unit ia lnum tix x y).graphs = s.graphs := rfl
@[simp] theorem postErr_nextId (kind ctx unit ia lnum tix x y : Nat) : (postErr s kind ctx unit ia lnum tix x y).nextId = s.nextId := rfl
@[simp] theorem postErr_faultQ (kind ctx unit ia lnum tix x y : Nat) : (postErr s kind ctx unit ia lnum tix x y).faultQ = s.faultQ := rfl
@[simp] theorem postErr_slots (kind ctx unit ia lnum tix x y : Nat) : (postErr s kind ctx unit ia lnum tix x y).slots = s.slots := rfl
@[simp] theorem postErr_wafer (kind ctx unit ia lnum tix x y : Nat) : (postErr s kind ctx unit ia lnum tix x y).wafer = s.wafer := rfl
@[simp] theorem postErr_peerReqs (kind ctx unit ia lnum tix x y : Nat) : (postErr s kind ctx unit ia lnum tix x y).peerReqs = s.peerReqs := rfl
@[simp] theorem postErr_msi (kind ctx unit ia lnum tix x y : Nat) : (postErr s kind ctx unit ia lnum tix x y).msi = s.msi := rfl
@[simp] theorem postErr_msiPending (kind ctx unit ia lnum tix x y : Nat) : (postErr s kind ctx unit ia lnum tix x y).msiPending = s.msiPending := rfl
@[simp] theorem postErr_retry (kind ctx unit ia lnum tix x y : Nat) : (postErr s kind ctx unit ia lnum tix x y).retry = s.retry := rfl
@[simp] theorem postErr_scanRec (kind ctx unit ia lnum tix x y : Nat) : (postErr s kind ctx unit ia lnum tix x y).scanRec = s.scanRec := rfl
@[simp] theorem postErr_laserMap (kind ctx unit ia lnum tix x y : Nat) : (postErr s kind ctx unit ia lnum tix x y).laserMap = s.laserMap := rfl
@[simp] theorem postErr_liveMap (kind ctx unit ia lnum tix x y : Nat) : (postErr s kind ctx unit ia lnum tix x y).liveMap = s.liveMap := rfl
@[simp] theorem postErr_payments (kind ctx unit ia lnum tix x y : Nat) : (postErr s kind ctx unit ia lnum tix x y).payments = s.payments := rfl
@[simp] theorem postErr_spent (kind ctx unit ia lnum tix x y : Nat) : (postErr s kind ctx unit ia lnum tix x y).spent = s.spent := rfl
@[simp] theorem postErr_defects (kind ctx unit ia lnum tix x y : Nat) : (postErr s kind ctx unit ia lnum tix x y).defects = s.defects := rfl
@[simp] theorem postFabric_mem (kind site x y : Nat) : (postFabric s kind site x y).mem = s.mem := rfl
@[simp] theorem postFabric_teams (kind site x y : Nat) : (postFabric s kind site x y).teams = s.teams := rfl
@[simp] theorem postFabric_sites (kind site x y : Nat) : (postFabric s kind site x y).sites = s.sites := rfl
@[simp] theorem postFabric_cores (kind site x y : Nat) : (postFabric s kind site x y).cores = s.cores := rfl
@[simp] theorem postFabric_clusters (kind site x y : Nat) : (postFabric s kind site x y).clusters = s.clusters := rfl
@[simp] theorem postFabric_contexts (kind site x y : Nat) : (postFabric s kind site x y).contexts = s.contexts := rfl
@[simp] theorem postFabric_launches (kind site x y : Nat) : (postFabric s kind site x y).launches = s.launches := rfl
@[simp] theorem postFabric_accs (kind site x y : Nat) : (postFabric s kind site x y).accs = s.accs := rfl
@[simp] theorem postFabric_remotes (kind site x y : Nat) : (postFabric s kind site x y).remotes = s.remotes := rfl
@[simp] theorem postFabric_packets (kind site x y : Nat) : (postFabric s kind site x y).packets = s.packets := rfl
@[simp] theorem postFabric_pendings (kind site x y : Nat) : (postFabric s kind site x y).pendings = s.pendings := rfl
@[simp] theorem postFabric_cyc (kind site x y : Nat) : (postFabric s kind site x y).cyc = s.cyc := rfl
@[simp] theorem postFabric_clk (kind site x y : Nat) : (postFabric s kind site x y).clk = s.clk := rfl
@[simp] theorem postFabric_steps (kind site x y : Nat) : (postFabric s kind site x y).steps = s.steps := rfl
@[simp] theorem postFabric_focused (kind site x y : Nat) : (postFabric s kind site x y).focused = s.focused := rfl
@[simp] theorem postFabric_ply (kind site x y : Nat) : (postFabric s kind site x y).ply = s.ply := rfl
@[simp] theorem postFabric_weave (kind site x y : Nat) : (postFabric s kind site x y).weave = s.weave := rfl
@[simp] theorem postFabric_team (kind site x y : Nat) : (postFabric s kind site x y).team = s.team := rfl
@[simp] theorem postFabric_queues (kind site x y : Nat) : (postFabric s kind site x y).queues = s.queues := rfl
@[simp] theorem postFabric_graphs (kind site x y : Nat) : (postFabric s kind site x y).graphs = s.graphs := rfl
@[simp] theorem postFabric_nextId (kind site x y : Nat) : (postFabric s kind site x y).nextId = s.nextId := rfl
@[simp] theorem postFabric_faultQ (kind site x y : Nat) : (postFabric s kind site x y).faultQ = s.faultQ := rfl
@[simp] theorem postFabric_slots (kind site x y : Nat) : (postFabric s kind site x y).slots = s.slots := rfl
@[simp] theorem postFabric_wafer (kind site x y : Nat) : (postFabric s kind site x y).wafer = s.wafer := rfl
@[simp] theorem postFabric_peerReqs (kind site x y : Nat) : (postFabric s kind site x y).peerReqs = s.peerReqs := rfl
@[simp] theorem postFabric_msi (kind site x y : Nat) : (postFabric s kind site x y).msi = s.msi := rfl
@[simp] theorem postFabric_msiPending (kind site x y : Nat) : (postFabric s kind site x y).msiPending = s.msiPending := rfl
@[simp] theorem postFabric_retry (kind site x y : Nat) : (postFabric s kind site x y).retry = s.retry := rfl
@[simp] theorem postFabric_scanRec (kind site x y : Nat) : (postFabric s kind site x y).scanRec = s.scanRec := rfl
@[simp] theorem postFabric_laserMap (kind site x y : Nat) : (postFabric s kind site x y).laserMap = s.laserMap := rfl
@[simp] theorem postFabric_liveMap (kind site x y : Nat) : (postFabric s kind site x y).liveMap = s.liveMap := rfl
@[simp] theorem postFabric_payments (kind site x y : Nat) : (postFabric s kind site x y).payments = s.payments := rfl
@[simp] theorem postFabric_spent (kind site x y : Nat) : (postFabric s kind site x y).spent = s.spent := rfl
@[simp] theorem postFabric_defects (kind site x y : Nat) : (postFabric s kind site x y).defects = s.defects := rfl
@[simp] theorem useClass_mem (site cls res n : Nat) : (useClass s site cls res n).mem = s.mem := rfl
@[simp] theorem useClass_teams (site cls res n : Nat) : (useClass s site cls res n).teams = s.teams := rfl
@[simp] theorem useClass_cores (site cls res n : Nat) : (useClass s site cls res n).cores = s.cores := rfl
@[simp] theorem useClass_clusters (site cls res n : Nat) : (useClass s site cls res n).clusters = s.clusters := rfl
@[simp] theorem useClass_contexts (site cls res n : Nat) : (useClass s site cls res n).contexts = s.contexts := rfl
@[simp] theorem useClass_launches (site cls res n : Nat) : (useClass s site cls res n).launches = s.launches := rfl
@[simp] theorem useClass_accs (site cls res n : Nat) : (useClass s site cls res n).accs = s.accs := rfl
@[simp] theorem useClass_remotes (site cls res n : Nat) : (useClass s site cls res n).remotes = s.remotes := rfl
@[simp] theorem useClass_packets (site cls res n : Nat) : (useClass s site cls res n).packets = s.packets := rfl
@[simp] theorem useClass_pendings (site cls res n : Nat) : (useClass s site cls res n).pendings = s.pendings := rfl
@[simp] theorem useClass_cyc (site cls res n : Nat) : (useClass s site cls res n).cyc = s.cyc := rfl
@[simp] theorem useClass_clk (site cls res n : Nat) : (useClass s site cls res n).clk = s.clk := rfl
@[simp] theorem useClass_steps (site cls res n : Nat) : (useClass s site cls res n).steps = s.steps := rfl
@[simp] theorem useClass_focused (site cls res n : Nat) : (useClass s site cls res n).focused = s.focused := rfl
@[simp] theorem useClass_ply (site cls res n : Nat) : (useClass s site cls res n).ply = s.ply := rfl
@[simp] theorem useClass_weave (site cls res n : Nat) : (useClass s site cls res n).weave = s.weave := rfl
@[simp] theorem useClass_team (site cls res n : Nat) : (useClass s site cls res n).team = s.team := rfl
@[simp] theorem useClass_errs (site cls res n : Nat) : (useClass s site cls res n).errs = s.errs := rfl
@[simp] theorem useClass_fabricQ (site cls res n : Nat) : (useClass s site cls res n).fabricQ = s.fabricQ := rfl
@[simp] theorem useClass_queues (site cls res n : Nat) : (useClass s site cls res n).queues = s.queues := rfl
@[simp] theorem useClass_graphs (site cls res n : Nat) : (useClass s site cls res n).graphs = s.graphs := rfl
@[simp] theorem useClass_nextId (site cls res n : Nat) : (useClass s site cls res n).nextId = s.nextId := rfl
@[simp] theorem useClass_faultQ (site cls res n : Nat) : (useClass s site cls res n).faultQ = s.faultQ := rfl
@[simp] theorem useClass_slots (site cls res n : Nat) : (useClass s site cls res n).slots = s.slots := rfl
@[simp] theorem useClass_wafer (site cls res n : Nat) : (useClass s site cls res n).wafer = s.wafer := rfl
@[simp] theorem useClass_peerReqs (site cls res n : Nat) : (useClass s site cls res n).peerReqs = s.peerReqs := rfl
@[simp] theorem useClass_msi (site cls res n : Nat) : (useClass s site cls res n).msi = s.msi := rfl
@[simp] theorem useClass_msiPending (site cls res n : Nat) : (useClass s site cls res n).msiPending = s.msiPending := rfl
@[simp] theorem useClass_retry (site cls res n : Nat) : (useClass s site cls res n).retry = s.retry := rfl
@[simp] theorem useClass_scanRec (site cls res n : Nat) : (useClass s site cls res n).scanRec = s.scanRec := rfl
@[simp] theorem useClass_laserMap (site cls res n : Nat) : (useClass s site cls res n).laserMap = s.laserMap := rfl
@[simp] theorem useClass_liveMap (site cls res n : Nat) : (useClass s site cls res n).liveMap = s.liveMap := rfl
@[simp] theorem useClass_payments (site cls res n : Nat) : (useClass s site cls res n).payments = s.payments := rfl
@[simp] theorem useClass_defects (site cls res n : Nat) : (useClass s site cls res n).defects = s.defects := rfl
@[simp] theorem acquireAt_mem (c : CoreId) : (acquireAt s c).mem = s.mem := rfl
@[simp] theorem acquireAt_teams (c : CoreId) : (acquireAt s c).teams = s.teams := rfl
@[simp] theorem acquireAt_sites (c : CoreId) : (acquireAt s c).sites = s.sites := rfl
@[simp] theorem acquireAt_clusters (c : CoreId) : (acquireAt s c).clusters = s.clusters := rfl
@[simp] theorem acquireAt_contexts (c : CoreId) : (acquireAt s c).contexts = s.contexts := rfl
@[simp] theorem acquireAt_launches (c : CoreId) : (acquireAt s c).launches = s.launches := rfl
@[simp] theorem acquireAt_accs (c : CoreId) : (acquireAt s c).accs = s.accs := rfl
@[simp] theorem acquireAt_remotes (c : CoreId) : (acquireAt s c).remotes = s.remotes := rfl
@[simp] theorem acquireAt_packets (c : CoreId) : (acquireAt s c).packets = s.packets := rfl
@[simp] theorem acquireAt_pendings (c : CoreId) : (acquireAt s c).pendings = s.pendings := rfl
@[simp] theorem acquireAt_cyc (c : CoreId) : (acquireAt s c).cyc = s.cyc := rfl
@[simp] theorem acquireAt_clk (c : CoreId) : (acquireAt s c).clk = s.clk := rfl
@[simp] theorem acquireAt_steps (c : CoreId) : (acquireAt s c).steps = s.steps := rfl
@[simp] theorem acquireAt_focused (c : CoreId) : (acquireAt s c).focused = s.focused := rfl
@[simp] theorem acquireAt_ply (c : CoreId) : (acquireAt s c).ply = s.ply := rfl
@[simp] theorem acquireAt_weave (c : CoreId) : (acquireAt s c).weave = s.weave := rfl
@[simp] theorem acquireAt_team (c : CoreId) : (acquireAt s c).team = s.team := rfl
@[simp] theorem acquireAt_errs (c : CoreId) : (acquireAt s c).errs = s.errs := rfl
@[simp] theorem acquireAt_fabricQ (c : CoreId) : (acquireAt s c).fabricQ = s.fabricQ := rfl
@[simp] theorem acquireAt_queues (c : CoreId) : (acquireAt s c).queues = s.queues := rfl
@[simp] theorem acquireAt_graphs (c : CoreId) : (acquireAt s c).graphs = s.graphs := rfl
@[simp] theorem acquireAt_nextId (c : CoreId) : (acquireAt s c).nextId = s.nextId := rfl
@[simp] theorem acquireAt_faultQ (c : CoreId) : (acquireAt s c).faultQ = s.faultQ := rfl
@[simp] theorem acquireAt_slots (c : CoreId) : (acquireAt s c).slots = s.slots := rfl
@[simp] theorem acquireAt_wafer (c : CoreId) : (acquireAt s c).wafer = s.wafer := rfl
@[simp] theorem acquireAt_peerReqs (c : CoreId) : (acquireAt s c).peerReqs = s.peerReqs := rfl
@[simp] theorem acquireAt_msi (c : CoreId) : (acquireAt s c).msi = s.msi := rfl
@[simp] theorem acquireAt_msiPending (c : CoreId) : (acquireAt s c).msiPending = s.msiPending := rfl
@[simp] theorem acquireAt_retry (c : CoreId) : (acquireAt s c).retry = s.retry := rfl
@[simp] theorem acquireAt_scanRec (c : CoreId) : (acquireAt s c).scanRec = s.scanRec := rfl
@[simp] theorem acquireAt_laserMap (c : CoreId) : (acquireAt s c).laserMap = s.laserMap := rfl
@[simp] theorem acquireAt_liveMap (c : CoreId) : (acquireAt s c).liveMap = s.liveMap := rfl
@[simp] theorem acquireAt_payments (c : CoreId) : (acquireAt s c).payments = s.payments := rfl
@[simp] theorem acquireAt_spent (c : CoreId) : (acquireAt s c).spent = s.spent := rfl
@[simp] theorem acquireAt_defects (c : CoreId) : (acquireAt s c).defects = s.defects := rfl
@[simp] theorem passTime_steps : (passTime s).steps = s.steps + 1 := rfl
@[simp] theorem passTime_clk : (passTime s).clk = s.clk + Config.clkGap s.steps := rfl
@[simp] theorem passTime_cyc : (passTime s).cyc = s.cyc + Config.cycGap s.steps := rfl

end Fields

/-! ### Parking -/

@[simp] theorem park_focused (s : State) : (park s).focused = false := by
  unfold park; split <;> simp_all

theorem park_of_parked {s : State} (h : s.focused = false) : park s = s := by simp [park, h]

@[simp] theorem park_park (s : State) : park (park s) = park s := park_of_parked (park_focused s)

@[simp] theorem park_mem (s : State) : (park s).mem = s.mem := by unfold park; split <;> rfl
@[simp] theorem park_sites (s : State) : (park s).sites = s.sites := by unfold park; split <;> rfl
@[simp] theorem park_cores (s : State) : (park s).cores = s.cores := by unfold park; split <;> rfl
@[simp] theorem park_clusters (s : State) : (park s).clusters = s.clusters := by unfold park; split <;> rfl
@[simp] theorem park_contexts (s : State) : (park s).contexts = s.contexts := by unfold park; split <;> rfl
@[simp] theorem park_launches (s : State) : (park s).launches = s.launches := by unfold park; split <;> rfl
@[simp] theorem park_accs (s : State) : (park s).accs = s.accs := by unfold park; split <;> rfl
@[simp] theorem park_remotes (s : State) : (park s).remotes = s.remotes := by unfold park; split <;> rfl
@[simp] theorem park_packets (s : State) : (park s).packets = s.packets := by unfold park; split <;> rfl
@[simp] theorem park_pendings (s : State) : (park s).pendings = s.pendings := by unfold park; split <;> rfl
@[simp] theorem park_cyc (s : State) : (park s).cyc = s.cyc := by unfold park; split <;> rfl
@[simp] theorem park_clk (s : State) : (park s).clk = s.clk := by unfold park; split <;> rfl
@[simp] theorem park_steps (s : State) : (park s).steps = s.steps := by unfold park; split <;> rfl
@[simp] theorem park_errs (s : State) : (park s).errs = s.errs := by unfold park; split <;> rfl
@[simp] theorem park_fabricQ (s : State) : (park s).fabricQ = s.fabricQ := by unfold park; split <;> rfl
@[simp] theorem park_queues (s : State) : (park s).queues = s.queues := by unfold park; split <;> rfl
@[simp] theorem park_graphs (s : State) : (park s).graphs = s.graphs := by unfold park; split <;> rfl
@[simp] theorem park_faultQ (s : State) : (park s).faultQ = s.faultQ := by unfold park; split <;> rfl
@[simp] theorem park_nextId (s : State) : (park s).nextId = s.nextId := by unfold park; split <;> rfl
@[simp] theorem park_slots (s : State) : (park s).slots = s.slots := by unfold park; split <;> rfl
@[simp] theorem park_wafer (s : State) : (park s).wafer = s.wafer := by unfold park; split <;> rfl
@[simp] theorem park_peerReqs (s : State) : (park s).peerReqs = s.peerReqs := by unfold park; split <;> rfl
@[simp] theorem park_msi (s : State) : (park s).msi = s.msi := by unfold park; split <;> rfl
@[simp] theorem park_msiPending (s : State) : (park s).msiPending = s.msiPending := by unfold park; split <;> rfl
@[simp] theorem park_retry (s : State) : (park s).retry = s.retry := by unfold park; split <;> rfl
@[simp] theorem park_scanRec (s : State) : (park s).scanRec = s.scanRec := by unfold park; split <;> rfl
@[simp] theorem park_laserMap (s : State) : (park s).laserMap = s.laserMap := by unfold park; split <;> rfl
@[simp] theorem park_liveMap (s : State) : (park s).liveMap = s.liveMap := by unfold park; split <;> rfl
@[simp] theorem park_payments (s : State) : (park s).payments = s.payments := by unfold park; split <;> rfl
@[simp] theorem park_spent (s : State) : (park s).spent = s.spent := by unfold park; split <;> rfl
@[simp] theorem park_defects (s : State) : (park s).defects = s.defects := by unfold park; split <;> rfl

/-! ### Lookups -/

/-- Replacing the first element that satisfies p, and looking for one. -/
theorem find?_replaceFirst {α : Type} (p r : α → Bool) (x : α) (hx : r x = true) (xs : List α) (h : ∀ y, p y = r y) :
    (replaceFirst r (fun _ => x) xs).find? p = if xs.any r then some x else none := by
  induction xs with
  | nil => rfl
  | cons y rest ih =>
    by_cases hy : r y = true
    · simp [replaceFirst, hy, h, hx]
    · simp only [Bool.not_eq_true] at hy
      rw [replaceFirst, if_neg (by simp [hy]), List.find?_cons, h, hy, ih]; simp [hy]

theorem find?_replaceFirst_ne {α : Type} (p r : α → Bool) (x : α) (hx : p x = false) (xs : List α)
    (h : ∀ y, r y = true → p y = false) : (replaceFirst r (fun _ => x) xs).find? p = xs.find? p := by
  induction xs with
  | nil => rfl
  | cons y rest ih =>
    by_cases hy : r y = true
    · simp [replaceFirst, hy, h y hy, hx]
    · simp only [Bool.not_eq_true] at hy
      simp [replaceFirst, hy, List.find?_cons, ih]

theorem findSite_n (s : State) (n : Nat) : (findSite s n).n = n := by
  unfold findSite
  cases h : s.sites.find? (·.n == n) with
  | none => rfl
  | some x => simpa using List.find?_some h

theorem findSite_setSite (s : State) (x : Site) (n : Nat) :
    findSite (setSite s x) n = if n = x.n then x else findSite s n := by
  unfold setSite findSite
  dsimp only
  by_cases hn : n = x.n
  · subst hn
    by_cases hs : s.sites.any (·.n == x.n) = true
    · rw [if_pos hs, find?_replaceFirst _ _ _ (by simp) _ (fun _ => rfl), if_pos hs]; simp
    · rw [if_neg hs]
      simp only [Bool.not_eq_true, List.any_eq_false] at hs
      rw [List.find?_append, List.find?_eq_none.2 (fun y hy => by simp [hs y hy])]; simp
  · have h1 : (x.n == n) = false := by simp; exact fun h => hn h.symm
    rw [if_neg hn]
    by_cases hs : s.sites.any (·.n == x.n) = true
    · rw [if_pos hs, find?_replaceFirst_ne (fun y : Site => y.n == n) _ _ h1]
      intro y hy; simp at hy; simp [hy]; exact fun h => hn h.symm
    · rw [if_neg hs]; simp [List.find?_append, h1]

/-- A site after an update that keeps its number. -/
theorem findSite_onSite (s : State) (n m : Nat) (f : Site → Site) (hf : ∀ x, (f x).n = x.n) :
    findSite (onSite s n f) m = if m = n then f (findSite s n) else findSite s m := by
  unfold onSite; rw [findSite_setSite, hf, findSite_n]

theorem findCluster_ids (s : State) (site phys : Nat) :
    (findCluster s site phys).site = site ∧ (findCluster s site phys).phys = phys := by
  unfold findCluster
  cases h : s.clusters.find? (fun c => c.site == site && c.phys == phys) with
  | none => exact ⟨rfl, rfl⟩
  | some x => simpa using List.find?_some h

theorem findCluster_setCluster (s : State) (c : Cluster) (site phys : Nat) :
    findCluster (setCluster s c) site phys = if site = c.site ∧ phys = c.phys then c else findCluster s site phys := by
  unfold setCluster findCluster
  dsimp only
  by_cases hn : site = c.site ∧ phys = c.phys
  · obtain ⟨rfl, rfl⟩ := hn
    by_cases hs : s.clusters.any (fun d => d.site == c.site && d.phys == c.phys) = true
    · rw [if_pos hs, find?_replaceFirst _ _ _ (by simp) _ (fun _ => rfl), if_pos hs]; simp
    · rw [if_neg hs]
      simp only [Bool.not_eq_true, List.any_eq_false] at hs
      rw [List.find?_append, List.find?_eq_none.2 (fun y hy => by simp [hs y hy])]; simp
  · have h1 : (c.site == site && c.phys == phys) = false := by
      simp; exact fun a b => hn ⟨a.symm, b.symm⟩
    rw [if_neg hn]
    by_cases hs : s.clusters.any (fun d => d.site == c.site && d.phys == c.phys) = true
    · rw [if_pos hs, find?_replaceFirst_ne (fun d : Cluster => d.site == site && d.phys == phys) _ _ h1]
      intro y hy; simp at hy; simp [hy]; exact fun a b => hn ⟨a.symm, b.symm⟩
    · rw [if_neg hs]; simp [List.find?_append, h1]

/-- A cluster after an update that keeps its place. -/
theorem findCluster_onCluster (s : State) (site phys m p : Nat) (f : Cluster → Cluster)
    (hf : ∀ x, (f x).site = x.site ∧ (f x).phys = x.phys) :
    findCluster (onCluster s site phys f) m p = if m = site ∧ p = phys then f (findCluster s site phys)
      else findCluster s m p := by
  unfold onCluster; rw [findCluster_setCluster, (hf _).1, (hf _).2, (findCluster_ids s site phys).1, (findCluster_ids s site phys).2]

/-- Looking for an element by a key that an update of the matching elements keeps. -/
theorem find?_map_key {α : Type} (key : α → Nat) (k n : Nat) (f : α → α) (hf : ∀ x, key (f x) = key x) (xs : List α) :
    (xs.map (fun x => if key x == k then f x else x)).find? (fun x => key x == n) =
      (xs.find? (fun x => key x == n)).map (fun x => if n = k then f x else x) := by
  induction xs with
  | nil => rfl
  | cons y rest ih =>
    have hy : key (if (key y == k) = true then f y else y) = key y := by split <;> simp [hf]
    rw [List.map_cons, List.find?_cons, List.find?_cons, ih, hy]
    by_cases hn : key y = n
    · subst hn; simp
    · simp [show (key y == n) = false by simpa using hn]

theorem findTeam_onTeams (s : State) (uid n : Nat) (f : Team → Team) (hf : ∀ t, (f t).uid = t.uid) :
    findTeam (onTeams s (·.uid == uid) f) n = (findTeam s n).map (fun t => if n = uid then f t else t) :=
  find?_map_key Team.uid uid n f hf s.teams

theorem findLaunch_onLaunch (s : State) (key n : Nat) (f : Launch → Launch) (hf : ∀ l, (f l).key = l.key) :
    findLaunch (onLaunch s key f) n = (findLaunch s n).map (fun l => if n = key then f l else l) :=
  find?_map_key Launch.key key n f hf s.launches

theorem findGraph_onGraph (s : State) (id n : Nat) (f : Graph → Graph) (hf : ∀ g, (f g).id = g.id) :
    findGraph (onGraph s id f) n = (findGraph s n).map (fun g => if n = id then f g else g) :=
  find?_map_key Graph.id id n f hf s.graphs

theorem findWeave_onWeave (s : State) (uid windex u v : Nat) (f : Weave → Weave) (hf : ∀ w, (f w).windex = w.windex) :
    findWeave (onWeave s uid windex f) u v =
      (findWeave s u v).map (fun w => if u = uid ∧ v = windex then f w else w) := by
  unfold findWeave onWeave
  rw [findTeam_onTeams _ _ _ _ (fun t => by rfl)]
  cases findTeam s u with
  | none => rfl
  | some t =>
    by_cases hu : u = uid
    · simp only [Option.map_some, Option.bind_some, hu, if_true, true_and]
      exact find?_map_key Weave.windex windex v f hf t.weaves
    · simp [hu]

end Sys2Proof.Laws
end

