-- ==== Sys2Proof/Laws/Memory.lean ====
section
/-!
SUPPORT. What the writes of agents do to memory: the bytes that they write, or nothing where the table write is refused, and
the canonical form that they keep.
-/

namespace Sys2Proof.Laws

open Sys2Proof Sys2Proof.Machine

theorem foldl_mem {α : Type} (g : State → α → State) (h : ∀ s a, (g s a).mem = s.mem) (xs : List α) (s : State) :
    (xs.foldl g s).mem = s.mem := by
  induction xs generalizing s with
  | nil => rfl
  | cons x rest ih => rw [List.foldl_cons, ih, h]

@[simp] theorem clearPoison_mem (s : State) (key n : Nat) : (clearPoison s key n).mem = s.mem := rfl

@[simp] theorem stampLines_mem (s : State) (lines : List Nat) (ts : Nat) : (stampLines s lines ts).mem = s.mem :=
  foldl_mem (fun acc l => setTs acc ⟨l, ts, ts⟩) (fun _ _ => rfl) lines s

@[simp] theorem clearResv_mem (s : State) (lines : List Nat) (by_ : Option (Nat × Nat × Nat)) :
    (clearResv s lines by_).mem = s.mem := rfl

@[simp] theorem hitWatches_mem (s : State) (lines : List Nat) : (hitWatches s lines).mem = s.mem := rfl

@[simp] theorem gateStamp_mem (s : State) (site ts : Nat) : (gateStamp s site ts).mem = s.mem := rfl

@[simp] theorem setFbErr_mem (s : State) (part : Nat) : (setFbErr s part).mem = s.mem := rfl

theorem performWrite_mem (s : State) (key ia : Nat) (bytes : List Byte) (ts : Nat) (by_ : Option (Nat × Nat × Nat)) :
    (performWrite s key ia bytes ts by_).mem = cellWriteN s.mem key bytes := by
  simp [performWrite]

theorem storeBytes_mem (s : State) (key ia : Nat) (bytes : List Byte) (ts : Nat) (by_ : Option (Nat × Nat × Nat)) :
    (storeBytes s key ia bytes ts by_).mem =
      if refusedWrite s key bytes = none then cellWriteN s.mem key (tableBytes s key bytes) else s.mem := by
  unfold storeBytes
  split
  · rename_i h; simp [h]
  · rename_i h; simp [h, performWrite_mem]

/-- A write by an agent that is no ply. -/
theorem agentStore_mem (s : State) (key ia : Nat) (bytes : List Byte) :
    (agentStore s key ia bytes).mem = if refusedWrite s key bytes = none then cellWriteN s.mem key (tableBytes s key bytes) else s.mem := by
  unfold agentStore
  dsimp only
  split <;> simp [storeBytes_mem]

/-- Host memory and the memory of other modules hold no tables of this one. -/
theorem regionOff_outside (s : State) (key : Nat) (h : key / 2 ^ 52 ≠ s.wafer) : regionOff s key = none := by
  have h1 : (key / 2 ^ 52 != s.wafer) = true := bne_iff_ne.2 h
  unfold regionOff; dsimp only; rw [h1]; rfl

theorem refusedWrite_outside (s : State) (key : Nat) (bytes : List Byte) (h : key / 2 ^ 52 ≠ s.wafer) :
    refusedWrite s key bytes = none := by unfold refusedWrite; rw [regionOff_outside s key h]

theorem tableBytes_outside (s : State) (key : Nat) (bytes : List Byte) (h : key / 2 ^ 52 ≠ s.wafer) :
    tableBytes s key bytes = bytes := by unfold tableBytes; rw [regionOff_outside s key h]

theorem wf_storeBytes {s : State} (h : cellsWf s.mem = true) (key ia : Nat) (bytes : List Byte) (ts : Nat)
    (by_ : Option (Nat × Nat × Nat)) : cellsWf (storeBytes s key ia bytes ts by_).mem = true := by
  rw [storeBytes_mem]; split
  · exact wf_cellWriteN h key _
  · exact h

@[simp] theorem cacheWalk_mem (s : State) (used : List WalkEntry) : (cacheWalk s used).mem = s.mem := rfl
@[simp] theorem dropWalks_mem (s : State) (ctx lo hi : Nat) : (dropWalks s ctx lo hi).mem = s.mem := rfl
@[simp] theorem dropEntry_mem (s : State) (key : Nat) : (dropEntry s key).mem = s.mem := rfl

/-- What a slice still holds after an invalidate: the entries of other contexts, and those of other IAs (R354). -/
theorem mem_dropWalks (s : State) (ctx lo hi : Nat) (e : WalkEntry) :
    e ∈ (dropWalks s ctx lo hi).walkCache ↔ e ∈ s.walkCache ∧ (e.ctx ≠ ctx ∨ hi ≤ e.lo ∨ e.hi ≤ lo) := by
  simp only [dropWalks, List.mem_filter, Bool.not_eq_true', Bool.and_eq_false_iff, beq_eq_false_iff_ne, decide_eq_false_iff_not,
    Nat.not_lt, or_assoc, ne_eq]

theorem wf_openEngine {s : State} (h : cellsWf s.mem = true) (ctx site phys : Nat) :
    cellsWf (openEngine s ctx site phys).mem = true := by
  unfold openEngine
  split
  · exact h
  · dsimp only
    split
    · exact h
    · exact wf_cellWriteN h _ _

theorem wf_agentStore {s : State} (h : cellsWf s.mem = true) (key ia : Nat) (bytes : List Byte) :
    cellsWf (agentStore s key ia bytes).mem = true := by
  rw [agentStore_mem]; split
  · exact wf_cellWriteN h key _
  · exact h

end Sys2Proof.Laws
end

