-- ==== Sys2Proof/Tests/Slice0.lean ====
section
/-!
SUPPORT. Tests of the model on fixed values, and for each statement of Certificates/Slice0/Obligations.lean a concrete
state and operands that meet its hypotheses. Expected values are worked out by hand from the rules that the docstrings
name.
-/

namespace Sys2Proof.Tests

-- One theorem at a time: each kernel evaluation needs a stack of its own.
set_option Elab.async false

open Sys2Proof Sys2Proof.Machine Sys2Proof.Safety

/-! ### Small states -/

/-- A register map with v0, v1, … holding the given lanes and s0, s1, … the given values. -/
def regs (ss : List DWord) (vs : List (Nat → Nat)) : RegMap :=
  { v := ((List.range vs.length).zip vs).map (fun (k, x) => some ⟨k + 1, tabulate (fun j => BitVec.ofNat 32 (x j)), false⟩) ++
      List.replicate (192 - vs.length) none
    s := ((List.range ss.length).zip ss).map (fun (k, x) => some ⟨k + 65, x, false⟩) ++ List.replicate (48 - ss.length) none }

/-- The largest peaks, split (128, 256, 128), a claim of 124 KiB with slots of 128 bytes, no assay. -/
def kernel : Kernel := { d1 := 0x00C0003000000000#64, d2 := 0x0408041F03E00000#64 }

/-- One weave with one ply of lanes 0 to 3 at 0x10000, at user level. -/
def one (ss : List DWord) (vs : List (Nat → Nat)) : State :=
  { focused := true, nextId := 200
    ply := { pc := 0x10000#64, mask := 0xF#32 }
    weave := { map := regs ss vs }
    team := { uid := 1, ctx := 1, kernel := kernel } }

/-- The same at system level. -/
def sys (s : State) : State := { s with weave := { s.weave with pstat := 1#64 } }

/-- The same with a valid trap vector at 0x20000. -/
def vec (s : State) : State := { s with weave := { s.weave with tvec := 0x8000000000020000#64 } }

/-- The hypothesis `CanIssue` as a computation. -/
def can (s : State) (i : Instr) (f : Fields) : Bool :=
  i.wellFormed && s.ply.trapDue.isNone && (decide (opcodeOf i < 0xF8) || atSystem s) &&
  (latchNames (rowAt i) f).all (fun c => (latchWin s c).isSome) &&
  !windowClosed s && (hazards s (rowAt i) f).isEmpty &&
  (readNames (rowAt i) f).all (fun c => !isUnmapped s c) && (poisonedSources s (rowAt i) f).isEmpty

/-- The hypothesis `HasRoom` as a computation. -/
def room (s : State) (i : Instr) (f : Fields) (ws : List Write) : Bool :=
  !overPeak (afterReads s (rowAt i) f) ws && !overPool (afterHold s s (rowAt i) f) ws

/-- Both. -/
def issues (s : State) (i : Instr) (f : Fields) (ws : List Write) : Bool := can s i f && room s i f ws

theorem can_meets {s : State} {i : Instr} {f : Fields} (h : can s i f = true) : CanIssue s i f := by
  simp only [can, Bool.and_eq_true, Bool.or_eq_true, Bool.not_eq_true', decide_eq_true_eq, List.all_eq_true,
    Option.isNone_iff_eq_none, List.isEmpty_iff] at h
  obtain ⟨⟨⟨⟨⟨⟨⟨h1, h2⟩, h3⟩, h4⟩, h5⟩, h6⟩, h7⟩, h8⟩ := h
  exact ⟨h1, h2, h3, fun c hc => by simpa [Option.isSome_iff_ne_none] using h4 c hc, ⟨h5, h6⟩, h7, h8⟩

theorem room_meets {s : State} {i : Instr} {f : Fields} {ws : List Write} (h : room s i f ws = true) : HasRoom s i f ws := by
  simp only [room, Bool.and_eq_true, Bool.not_eq_true'] at h
  exact ⟨h.1, h.2⟩

/-- A next state satisfies p. -/
def nexts (o : Host.Outcome State Fault Refusal) (p : State → Bool) : Bool :=
  match o with
  | .next t => p t
  | _ => false

/-- `cyc` as a ply's site sees it lies within 2 cycles of the module's: 0 has come and 2^64 - 1 has not in the states
below. -/
theorem cycHere_near (s : State) : s.cyc ≤ cycHere s ∧ cycHere s ≤ s.cyc + 2 := by
  unfold cycHere cycAt
  omega

/-! ### Well-formed instructions -/

/-- A literal of fields by numbers: destination, A, B, C, type code, variant. -/
def fd (d a b c ty v : Nat) : Fields :=
  { Fields.base with d := BitVec.ofNat 8 d, a := BitVec.ofNat 8 a, b := BitVec.ofNat 8 b, c := BitVec.ofNat 8 c
                     type := BitVec.ofNat 4 ty, variant := BitVec.ofNat 5 v }

/-- The same in the 96-bit immediate form, in the modifier form with one modifier, and in the 128-bit form. -/
def withImm (f : Fields) (i : Word) : Fields := { f with ext := .imm i }
def withMod (f : Fields) (m : SrcMod) (k r : Nat) : Fields := { f with ext := .mod m (BitVec.ofNat 2 k) (BitVec.ofNat 3 r) }
def long (f : Fields) (r : Nat) (cl : Bool) (shape e x : Nat) : Fields :=
  { f with ext := .long SrcMod.none SrcMod.none SrcMod.none (BitVec.ofNat 3 r) cl (BitVec.ofNat 2 shape) (BitVec.ofNat 8 e) (BitVec.ofNat 8 x) }

/-- A rotation by 3 in segments of 8, from the example of R137. -/
def rot83 : SrcMod := ⟨1#2, 3#3, 3#5, false, false⟩

/-- Each check of R41, R44, R50, R129 to R138, R153 to R159 refuses an instruction that breaks it alone; the last line
holds well-formed neighbours. -/
theorem test_wellFormed :
    -- an absent operand that is not 0xF0; a type where none is named; a variant that is not defined (R130)
    ([Instr.eret (fd 0xF0 0xC0 0xF0 0xF0 0 0), .eret (fd 0xF0 0xF0 0xF0 0xF0 6 0), .eret (fd 0xF0 0xF0 0xF0 0xF0 0 1),
      -- the reserved type code 15 (R132); an element type outside the set of the opcode (R157)
      .add (fd 1 2 3 0 15 0), .add (fd 1 2 3 0 8 0), .fadd (fd 1 2 3 0xF0 2 0),
      -- an odd register for a pair (R39); a pair that begins at v191; a scalar pair at an odd name (R24)
      .add (fd 1 2 4 0 3 0), .add (fd 191 2 4 0 3 0), .brsNz (fd 0xC1 5 0xF0 2 0 0),
      -- a destination that is no vector name; k0 as a destination (R185)
      .add (fd 0xC1 2 3 0 2 0), .kand (fd 0 1 2 0xF0 0 0),
      -- a length or form that the row does not list (R154)
      .eret (withImm (fd 0xF0 0xF0 0xF0 0xF0 0 0) 0#32), .sadd (withMod (fd 0xC1 0xC2 0xC3 0 0 0) SrcMod.none 0 0),
      -- 0xFB in a form without an immediate (R41, R131)
      .sadd (fd 0xC1 0xFB 0xC3 0 0 0),
      -- a modifier on an absent source, on a scalar, with a distance beyond its segment (R133, R136); rounding code 6 (R135)
      .fsqrt (withMod (fd 1 2 0xF0 0xF0 10 0) rot83 1 0), .fsqrt (withMod (fd 1 0xC1 0xF0 0xF0 10 0) rot83 0 0),
      .fsqrt (withMod (fd 1 2 0xF0 0xF0 10 0) ⟨1#2, 2#3, 4#5, false, false⟩ 0 0), .fsqrt (withMod (fd 1 2 0xF0 0xF0 10 0) SrcMod.none 0 6),
      -- a matrix instruction without its shape, cl where it may not stand (R134)
      .mtr (long (fd 0xC1 0xC2 0xF0 0xC4 0 0) 0 false 0 0xC5 0xF0), .mtr (long (fd 0xC1 0xC2 0xF0 0xC4 0 0) 0 true 1 0xC5 0xF0),
      -- a prefix before an opcode that takes none, and one with a field that the opcode does not honour (R127, R159)
      .fence { fd 0xF0 0xF0 0xF0 0xF0 0 0 with pfx := some ⟨0#2, 0#3, 0#3, 0#3, 1#3⟩ },
      .lr { fd 1 2 0xF0 0 6 0 with pfx := some ⟨0#2, 1#3, 0#3, 0#3, 0#3⟩ },
      -- a reserved-opcode instruction whose opcode is defined
      .reservedOpcodeInstruction 0x38#64 0#64].all (fun i => i.wellFormed = false)) ∧
    [Instr.eret (fd 0xF0 0xF0 0xF0 0xF0 0 0), .add (fd 1 2 3 0 2 0), .fadd (fd 1 2 3 0xF0 10 0), .add (fd 2 4 6 0 3 0),
      .kand (fd 1 0 2 0xF0 0 0), .sadd (fd 0xC1 0xC2 0xC3 0 0 0), .fsqrt (withMod (fd 1 2 0xF0 0xF0 10 0) rot83 0 0),
      .lr { fd 1 2 0xF0 0 6 0 with pfx := some ⟨0#2, 0#3, 0#3, 1#3, 1#3⟩ }].all (·.wellFormed) := by
  decide +kernel

/-! ### Decoding: words written out field by field (R128, R133, R134, R154) -/

/-- A base word, its fields from bit 63 down as R128 lists them. -/
def base (variant : BitVec 5) (type : BitVec 4) (c b a d : BitVec 8) (ms : BitVec 1) (mask last : BitVec 3) (hold : BitVec 2)
    (la : BitVec 4) (op : BitVec 8) (len : BitVec 2) : DWord :=
  variant ++ type ++ c ++ b ++ a ++ d ++ ms ++ mask ++ last ++ hold ++ la ++ op ++ len

/-- The words read as the instruction i. -/
def reads (ws : List Word) (i : Instr) : Bool :=
  match decode ws with
  | .ok j => j == i
  | _ => false

/-- Control: `brs.nz` s2, v5, target +4 instructions of 4 bytes; `trap 9`. -/
theorem test_decode_control :
    reads (wordsOf (base 0#5 0#4 0x04#8 0xF0#8 0x05#8 0xC2#8 0#1 0#3 0#3 0#2 0#4 0x02#8 0#2)) (.brsNz (fd 0xC2 5 0xF0 4 0 0)) &&
    reads (wordsOf (base 0#5 0#4 0x09#8 0xF0#8 0xF0#8 0xF0#8 0#1 0#3 0#3 0#2 0#4 0x0C#8 0#2)) (.trap (fd 0xF0 0xF0 0xF0 9 0 0)) := by
  decide +kernel

/-- Scalar and masks: `scmp.lt.i64 s1, s2, s3` is variant 2, type 3; `kxor k2, k1, k3` is variant 2; `vote.cnt s4, v7`. -/
theorem test_decode_scalar :
    reads (wordsOf (base 2#5 3#4 0x00#8 0xC3#8 0xC2#8 0xC1#8 0#1 0#3 0#3 0#2 0#4 0x19#8 0#2)) (.scmp (fd 0xC1 0xC2 0xC3 0 3 2)) &&
    reads (wordsOf (base 2#5 0#4 0xF0#8 0x03#8 0x01#8 0x02#8 0#1 0#3 0#3 0#2 0#4 0x1E#8 0#2)) (.kxor (fd 2 1 3 0xF0 0 2)) &&
    reads (wordsOf (base 2#5 0#4 0xF0#8 0xF0#8 0x07#8 0xC4#8 0#1 0#3 0#3 0#2 0#4 0x1F#8 0#2)) (.voteCnt (fd 0xC4 7 0xF0 0xF0 0 2)) := by
  decide +kernel

/-- Vector integers: `mad.i64` is 0x44 and `rot.n32` 0x30 (R157); hold A (01), lookahead 5. -/
theorem test_decode_integer :
    reads (wordsOf (base 0#5 3#4 0x08#8 0x06#8 0x04#8 0x02#8 0#1 0#3 0#3 1#2 5#4 0x44#8 0#2))
      (.mad { fd 2 4 6 8 3 0 with hold := 1#2, la := 5#4 }) &&
    reads (wordsOf (base 0#5 6#4 0x00#8 0x03#8 0x02#8 0x01#8 1#1 3#3 0#3 0#2 0#4 0x30#8 0#2))
      (.rot { fd 1 2 3 0 6 0 with msense := true, mask := 3#3 }) := by
  decide +kernel

/-- Floating point: `fma.f32 v4, v8, v12<rot:8:3>, v16` of the example after R127: modifier form, starg 01 for B; and
`fdiv.f64` is 0x8A. -/
theorem test_decode_float :
    reads (wordsOf (base 0#5 10#4 0x10#8 0x0C#8 0x08#8 0x04#8 0#1 0#3 0#3 0#2 0#4 0x63#8 1#2) ++
        [(1#2 ++ 3#3 ++ 3#5 ++ 0#1 ++ 0#1) ++ 1#2 ++ 0#3 ++ 0#15])
      (.fma (withMod (fd 4 8 12 16 10 0) rot83 1 0)) &&
    reads (wordsOf (base 0#5 11#4 0xF0#8 0x06#8 0x04#8 0x02#8 0#1 0#3 0#3 0#2 0#4 0x8A#8 0#2)) (.fdiv (fd 2 4 6 0xF0 11 0)) := by
  decide +kernel

/-- Conversion: `cvt.i8.f32`: 0xA2, destination type 0, source type 10 in the variant; `qblk` with E and F (R134). -/
theorem test_decode_convert :
    reads (wordsOf (base 10#5 0#4 0xF0#8 0xF0#8 0x02#8 0x01#8 0#1 0#3 0#3 0#2 0#4 0xA2#8 0#2)) (.cvtFloatInt (fd 1 2 0xF0 0xF0 0 10)) &&
    reads (wordsOf (base 16#5 10#4 0xF0#8 0xF0#8 0x02#8 0x01#8 0#1 0#3 0#3 0#2 0#4 0xAD#8 2#2) ++
        wordsOf (0#12 ++ 0#12 ++ 0#12 ++ 0#3 ++ 0#1 ++ 0#2 ++ 0x05#8 ++ 0x06#8 ++ 0#6))
      (.qblk (long (fd 1 2 0xF0 0xF0 10 16) 0 false 0 5 6)) := by
  decide +kernel

/-- Memory: the pair of the example after R127, prefix `(acq wafer keep)` and `ld.b32 v3, s4, 16`: order 2, scope 3,
policy 1; and `sc`. -/
theorem test_decode_memory :
    reads (wordsOf (0#40 ++ 0#2 ++ 1#3 ++ 0#3 ++ 3#3 ++ 2#3 ++ 0#8 ++ 3#2) ++
        wordsOf (base 0#5 14#4 0x10#8 0xF0#8 0xC4#8 0x03#8 0#1 0#3 0#3 0#2 0#4 0xC0#8 0#2))
      (.ld { fd 3 0xC4 0xF0 16 14 0 with pfx := some ⟨0#2, 1#3, 0#3, 3#3, 2#3⟩ }) &&
    reads (wordsOf (base 0#5 6#4 0x00#8 0x04#8 0x02#8 0x01#8 0#1 0#3 0#3 0#2 0#4 0xCE#8 0#2)) (.sc (fd 1 2 4 0 6 0)) := by
  decide +kernel

/-- Synchronisation and the matrix group: `bar.team`; `mm.32` with cl, shape 10, E and F; `mwait s2`. -/
theorem test_decode_matrix :
    reads (wordsOf (base 0#5 0#4 0xF0#8 0xF0#8 0xF0#8 0xF0#8 0#1 0#3 0#3 0#2 0#4 0xD4#8 0#2)) (.barTeam (fd 0xF0 0xF0 0xF0 0xF0 0 0)) &&
    reads (wordsOf (base 0#5 0#4 0xC4#8 0xC3#8 0xC2#8 0xC1#8 0#1 0#3 0#3 0#2 0#4 0xE5#8 2#2) ++
        wordsOf (0#12 ++ 0#12 ++ 0#12 ++ 0#3 ++ 1#1 ++ 2#2 ++ 0xC5#8 ++ 0xC6#8 ++ 0#6))
      (.mm (long (fd 0xC1 0xC2 0xC3 0xC4 0 0) 0 true 2 0xC5 0xC6)) &&
    reads (wordsOf (base 0#5 0#4 0xF0#8 0xF0#8 0xC2#8 0xF0#8 0#1 0#3 0#3 0#2 0#4 0xEC#8 0#2)) (.mwait (fd 0xF0 0xC2 0xF0 0xF0 0 0)) := by
  decide +kernel

/-- Engines and the system group: `xwait.rn` is variant 1 of 0xF1; `evrec` in its immediate form; `assay.ctl.arm` is
variant 2 of 0xFE; `halt.core`. -/
theorem test_decode_system :
    reads (wordsOf (base 1#5 0#4 0xF0#8 0xF0#8 0xC2#8 0xC1#8 0#1 0#3 0#3 0#2 0#4 0xF1#8 0#2)) (.xwaitRn (fd 0xC1 0xC2 0xF0 0xF0 0 1)) &&
    reads (wordsOf (base 1#5 0#4 0x00#8 0xFB#8 0xC2#8 0xF0#8 0#1 0#3 0#3 0#2 0#4 0xF7#8 1#2) ++ [7#32])
      (.evrec (withImm (fd 0xF0 0xC2 0xFB 0 0 1) 7#32)) &&
    reads (wordsOf (base 2#5 0#4 0xF0#8 0xC3#8 0xC2#8 0xC1#8 0#1 0#3 0#3 0#2 0#4 0xFE#8 0#2)) (.assayCtlArm (fd 0xC1 0xC2 0xC3 0xF0 0 2)) &&
    reads (wordsOf (base 0#5 0#4 0xF0#8 0xF0#8 0xF0#8 0xF0#8 0#1 0#3 0#3 0#2 0#4 0xFF#8 0#2)) (.haltCore (fd 0xF0 0xF0 0xF0 0xF0 0 0)) := by
  decide +kernel

/-- R145: both forms of `nop`. R153: a word with opcode 0x58 is a reserved-opcode instruction. R127: two prefixes in a row,
and R125: 128 bits where only 96 are left in the block, are no instruction. -/
theorem test_decode_other :
    reads [0#32, 0#32] (.nop false) && reads [1#32, 0#32, 0#32] (.nop true) &&
    reads (wordsOf (base 0#5 0#4 0#8 0#8 0#8 0#8 0#1 0#3 0#3 0#2 0#4 0x58#8 0#2))
      (.reservedOpcodeInstruction (base 0#5 0#4 0#8 0#8 0#8 0#8 0#1 0#3 0#3 0#2 0#4 0x58#8 0#2) 0#64) &&
    decide (decode (wordsOf 3#64 ++ wordsOf 3#64) = .error (.prefixFault 3#64)) &&
    decide (decode (wordsOf (base 0#5 0#4 0#8 0#8 0#8 0#8 0#1 0#3 0#3 0#2 0#4 0xE5#8 2#2) ++ [0#32]) = .error .pastBlock) := by
  decide +kernel

/-- The example "five encodings" of 07, its opcode 0x39, and the `br.nz` of the example in 08. -/
theorem test_decode_examples :
    reads (wordsOf 0x050806040200418C#64) (.fma { fd 4 8 12 16 10 0 with hold := 1#2 }) &&
    decide (decode (wordsOf 0x050806040200420C#64) = .error (.illegal 0x83 0x050806040200420C#64)) &&
    reads (wordsOf 0x058806040200420C#64) (.fma { fd 4 8 12 16 11 0 with hold := 1#2 }) &&
    reads (wordsOf 0x050806040200418E#64 ++ wordsOf 0x00000000003C3C00#64) (.fma { long (fd 4 8 12 16 10 0) 0 false 0 0xF0 0xF0 with hold := 1#2 }) &&
    decide (decode (wordsOf 0x050806040200418E#64 ++ wordsOf 0#64) = .error (.illegal 0x63 0x050806040200418E#64)) &&
    decide (decode (wordsOf 0x0000000000086803#64 ++ wordsOf 0x050806040200418C#64) = .error (.prefixFault 0x0000000000086803#64)) &&
    reads (wordsOf 0xE4#64) (.reservedOpcodeInstruction 0xE4#64 0#64) &&
    reads (wordsOf 0x007E7861F8000004#64) (.brNz (fd 0xF0 0xC3 0xF0 0xFC 0 0)) := by
  decide +kernel

/-- Statement DecodeAndEncodeAgree: a well-formed instruction of each form, and words that decode. -/
theorem witness_decodeAndEncode :
    [Instr.sadd (fd 0xC1 0xC2 0xC3 0 0 0), .sadd (withImm (fd 0xC1 0xC2 0xFB 0 0 0) 9#32), .fsqrt (withMod (fd 1 2 0xF0 0xF0 10 0) rot83 0 3),
      .mm (long (fd 0xC1 0xC2 0xC3 0xC4 0 0) 0 true 2 0xC5 0xC6), .nop true].all (fun i => i.hasWords && i.wellFormed) ∧
    decode [0#32, 0#32] = .ok (.nop false) := by
  decide +kernel

/-! ### The step and fetching -/

/-- The state in which the bytes of x stand at the program counter, with the ply focused. -/
def code (x : Nat) : State := focusOn (State.reset.withFetchWord 224 x) 1 0 0

/-- The same with another program counter. -/
def codeAt (x pc : Nat) : State := { code x with ply := { (code x).ply with pc := BitVec.ofNat 64 pc } }

/-- Statement StepRunsDecoded: after reset the word of `sadd s1, s0, 7` is fetched, decoded and run. -/
theorem witness_stepRunsDecoded :
    let s := State.reset.withFetchWord 64 (base 0#5 0#4 7#8 0xF0#8 0xC0#8 0xC1#8 0#1 0#3 0#3 0#2 0#4 0x0E#8 0#2).toNat
    let p := refreshReady (park s)
    p.agenda = [] ∧ p.steps % 3 = 0 ∧
    (match chooseReady p with
     | none => false
     | some (c, _) =>
       let d := lowerTrap p c
       let v := focusOn (claimSlot p d (d.slot p)) d.uid d.windex d.n
       let u := mergeHere v
       !mergeWaits v && u.ply.trapDue.isNone &&
       (match fetch u with
        | .words ws => reads ws (.sadd (fd 0xC1 0xC0 0xF0 7 0 0))
        | _ => false)) = true := by
  decide +kernel

/-- The step of that state writes 7 to s1 and goes on 8 bytes later. -/
theorem test_step_sadd :
    nexts (step (State.reset.withFetchWord 64 (base 0#5 0#4 7#8 0xF0#8 0xC0#8 0xC1#8 0#1 0#3 0#3 0#2 0#4 0x0E#8 0#2).toNat))
      (fun t => sVal t 1 == 7#64 && t.ply.pc == 0x10008#64) := by
  decide +kernel

/-- R126: the example next_pc(0x0010, 12) = 0x0020. -/
theorem test_nextPc : nextPc 0x10#64 12 = 0x20#64 ∧ nextPc 0x20#64 12 = 0x2C#64 := by decide +kernel

/-- Statement FetchAndReservedOpcodes: a state for each of its clauses. -/
theorem witness_fetchTraps :
    ([codeAt 0 0x10002, codeAt 0 0x1001C, codeAt 0 0x100000].map (fun s =>
        let u := mergeHere s
        (!mergeWaits s && u.ply.trapDue.isNone, u.ply.pc.toNat % 4 == 0, u.ply.pc.toNat % 32 == 28, (translate u u.team.ctx u.ply.pc.toNat).isNone)) =
      [(true, false, false, false), (true, true, true, false), (true, true, false, true)]) ∧
    ([codeAt (2 * 2 ^ 160) 0x10014, code 3, code (3 * 2 ^ 64 + 3), code (4 * 255), code (4 * 8 + 2 ^ 63)].map (fun s =>
        match fetch (mergeHere s) with
        | .words ws => (match decode ws with | .error r => some r | .ok _ => none)
        | _ => none) =
      [some .pastBlock, some (.prefixFault 3#64), some (.prefixFault 3#64), some (.illegal 0xFF 0x3FC#64),
        some (.illegal 8 0x8000000000000020#64)]) ∧
    inTrap (vec (one [] [])) = false ∧ (vec (one [] [])).weave.tvec.getLsbD 63 = true := by
  decide +kernel

/-! ### Reset and traps -/

/-- R350, R384, R397: what the registers of site 27 read after reset; no memory is listed. -/
theorem test_reset :
    ctlRead State.reset 27 0x200 = 0x0000C81033000000#64 ∧ (ctlRead State.reset 27 0x208).extractLsb' 56 4 = 5#4 ∧ State.reset.mem = [] ∧
    Memory.wf State.reset.mem = true := by
  decide +kernel

/-- Statement EveryStepGoesOn: the state after reset is safe, and its step has a next state. -/
theorem witness_everyStepGoesOn : Memory.wf State.reset.mem = true ∧ goesOn (step State.reset) = true := by
  decide +kernel

/-- Statement TrapEntry: a state in which a trap is taken; one in a handler and one without a vector. -/
theorem witness_takeTrap :
    (let s := vec (one [] [])
     inTrap s = false ∧ s.weave.tvec.getLsbD 63 = true ∧ 0x11 < 256 ∧ s.ply.n < 4 ∧ 0xF#32 ≠ 0#32) ∧
    [{ vec (one [] []) with weave := { (vec (one [] [])).weave with pstat := 0x11#64 } }, one [] []].all (fun s =>
      s.focused && (inTrap s || !s.weave.tvec.getLsbD 63) && s.teams.all (fun u => u.uid != s.team.uid)) := by
  decide +kernel

/-- R301, R302: `trap 5` saves code 0x11, the lanes and the next address, and goes on at the vector at system level. -/
theorem test_trap :
    nexts (exec (.trap (fd 0xF0 0xF0 0xF0 5 0 0)) (vec (one [] []))) (fun t =>
      t.weave.tcause == 0x110000000000000F#64 && t.weave.epc == 0x10008#64 && t.weave.tinfo == [5#64, 0#64, 0#64, 0#64] &&
      t.ply.pc == 0x20000#64 && t.weave.pstat == 0x11#64) := by
  decide +kernel

/-! ### Issue, branches, plies -/

/-- Statement IssueChecks: an opcode from 0xF8 at user level; a source without a mapping; and the register peak. -/
theorem witness_issueChecks :
    (let f := fd 0xF0 0xF0 0xF0 0xF0 0 0
     fieldsOf (.eret f) = some f ∧ (rowOf (.eret f)).isSome = true ∧ (Instr.eret f).wellFormed = true ∧
     atSystem (one [] []) = false ∧ 0xF8 ≤ opcodeOf (.eret f)) ∧
    (let f := fd 0xC1 0xC2 0xC3 0 0 0
     let s := one [1#64, 2#64, 3#64] []
     (rowOf (.sadd f)).isSome = true ∧ (Instr.sadd f).wellFormed = true ∧ latchesFine s (rowAt (.sadd f)) f = true ∧
     hazards s (rowAt (.sadd f)) f = [] ∧ (readNames (rowAt (.sadd f)) f).find? (isUnmapped s) = some 0xC3) ∧
    (let f := fd 0xC5 0xF0 0xC1 0 0 0
     let s0 := one [1#64, 2#64, 3#64] []
     let s := { s0 with team := { s0.team with kernel := { kernel with d1 := 0x00C0000300000000#64 } } }
     can s (.smov f) f = true ∧ sget s 5 = none ∧ s.team.kernel.speak = s.weave.map.sCount) := by
  decide +kernel

/-- Registers for the control group: s1 holds 5, s2 and s3 zero, s4 an address; v0 holds the parity of its lane. -/
def sCtl : State := one [0#64, 5#64, 0#64, 0#64, 0x30000#64] [fun j => j % 2, fun _ => 1]

/-- Plies 1 to 3 beside the ply that issues. -/
def four (s : State) : State :=
  { s with weave := { s.weave with plies := (List.range 3).map (fun k => { n := k + 1, pc := 0x40000#64, mask := BitVec.ofNat 32 (0x10 * 16 ^ k) }) } }

/-- Statement Branches, JumpsAndNop: each instruction may issue. -/
theorem witness_branches :
    can sCtl (.brNz (fd 0xF0 0xC1 0xF0 4 0 0)) (fd 0xF0 0xC1 0xF0 4 0 0) && can sCtl (.brZ (fd 0xF0 0xC1 0xF0 4 0 1)) (fd 0xF0 0xC1 0xF0 4 0 1) &&
    can sCtl (.brAny (fd 0xF0 0xF0 0xF0 4 0 2)) (fd 0xF0 0xF0 0xF0 4 0 2) && can sCtl (.brAll (fd 0xF0 0xF0 0xF0 4 0 3)) (fd 0xF0 0xF0 0xF0 4 0 3) &&
    can sCtl (.jmp (fd 0xF0 0xC4 0xF0 4 0 0)) (fd 0xF0 0xC4 0xF0 4 0 0) && can sCtl (.ret (fd 0xF0 0xC4 0xF0 0xF0 0 0)) (fd 0xF0 0xC4 0xF0 0xF0 0 0) &&
    issues sCtl (.call (fd 0xC5 0xF0 0xF0 4 0 0)) (fd 0xC5 0xF0 0xF0 4 0 0) (sclWrite 0xC5#8 0#64) &&
    issues sCtl (.callReg (fd 0xC5 0xC4 0xF0 4 0 1)) (fd 0xC5 0xC4 0xF0 4 0 1) (sclWrite 0xC5#8 0#64) &&
    sCtl.ply.trapDue.isNone && !windowClosed sCtl := by
  decide +kernel

/-- R168: `br.nz` on a nonzero scalar goes to pc + 4·C, `br.z` falls through; R172: a call saves the next address. -/
theorem test_branch :
    nexts (exec (.brNz (fd 0xF0 0xC1 0xF0 0xFE 0 0)) sCtl) (fun t => t.ply.pc == 0xFFF8#64) &&
    nexts (exec (.brZ (fd 0xF0 0xC1 0xF0 0xFE 0 1)) sCtl) (fun t => t.ply.pc == 0x10008#64) &&
    nexts (exec (.call (fd 0xC5 0xF0 0xF0 4 0 0)) sCtl) (fun t => t.ply.pc == 0x10010#64 && sVal t 5 == 0x10008#64) := by
  decide +kernel

/-- Statement SplittingPlies: no active lane; a uniform condition; a split with one ply; with four plies and an empty or a
full pair, for both conditions. -/
theorem witness_splittingPlies :
    [true, false].all (fun nz =>
      let mk (f : Fields) : Instr := if nz then .brsNz f else .brsZ f
      let f (a : Nat) : Fields := fd 0xC2 a 0xF0 4 0 (if nz then 0 else 1)
      let off : Fields := { f 0 with msense := true }
      let full : State := { four sCtl with weave := { (four sCtl).weave with map := regs [0#64, 5#64, 0#64, 7#64] [fun j => j % 2] } }
      can sCtl (mk off) off && activeLanes sCtl off == 0#32 &&
      issues sCtl (mk (f 1)) (f 1) [.s 3 0#64] && (fallen sCtl (f 1) nz == 0#32 || taken sCtl (f 1) nz == 0#32) &&
      can sCtl (mk (f 0)) (f 0) && fallen sCtl (f 0) nz != 0#32 && taken sCtl (f 0) nz != 0#32 && decide ((allPlies sCtl).length < 4) &&
      (let s := stays sCtl (f 0) nz
       room { s with weave := { sCtl.weave with plies := insertPly (newPly sCtl (afterPc sCtl.ply.pc (f 0)) (fallen sCtl (f 0) nz)) [] } }
         (mk (f 0)) (f 0) [.s 3 0#64]) &&
      can (four sCtl) (mk (f 0)) (f 0) && decide (4 ≤ (allPlies (four sCtl)).length) && sVal (four sCtl) 3 == 0#64 &&
      room (stays (four sCtl) (f 0) nz) (mk (f 0)) (f 0) [.s 2 0#64, .s 3 0#64] &&
      can full (mk (f 0)) (f 0) && fallen full (f 0) nz != 0#32 && sVal full 3 != 0#64) := by
  decide +kernel

/-- Lanes held in s2 and s3, to go on at `pc`. -/
def sAway (pc : DWord) (mask : DWord) : State := one [0#64, 0#64, pc, mask] []

/-- A ply with an open `fence.spec`. -/
def openFence (s : State) : State :=
  { s with ply := { s.ply with fence := some { pc := s.ply.pc, mask := s.ply.mask, map := s.weave.map, scope := 0, lines := [], queued := [], mark := 1000, tagMark := 0 } } }

/-- Statements SplittingPlies, RejoiningPlies, Regions and TrapAndExit: with a `fence.spec` open the splits, the new ply,
the region and the leaving wait (log 91); two plies at one address of which one has it open do not merge. -/
theorem witness_fenceWaits :
    (let s := openFence sCtl
     let f := fd 0xC2 0 0xF0 4 0 0
     can s (.brsNz f) f && fallen s f true != 0#32 && taken s f true != 0#32 && decide ((allPlies s).length < 4) && s.ply.fence.isSome &&
     nexts (exec (.brsNz f) s) (fun t => t.ply.wait == .retry && t.weave.plies.isEmpty)) &&
    (let s := openFence (sAway 0x50000#64 0xF00#64)
     let f := fd 0xF0 0xC2 0xF0 0xF0 0 0
     can s (.resume f) f && (allPlies s).all (fun p => p.mask &&& 0xF00#32 == 0#32) && sVal s 2 != afterPc s.ply.pc f) &&
    (let f := fd 0xF0 0xF0 0xF0 0xF0 0 0
     let s := openFence { sCtl with weave := { sCtl.weave with plies := [{ n := 1, pc := 0x10000#64, mask := 0x10#32, wait := .meet none }] } }
     can s (.plysync f) f && s.weave.plies.all (fun p => p.pc == s.ply.pc && p.wait == .meet none) &&
     can (openFence sCtl) (.rgn f) f && can (openFence sCtl) (.exit f) f && activeLanes sCtl f != 0#32) := by
  decide +kernel

/-- R24: the odd lanes of `brs.nz` go on at the target; the even ones become ply 1 behind it. -/
theorem test_brs :
    nexts (exec (.brsNz (fd 0xC2 0 0xF0 4 0 0)) sCtl) (fun t =>
      t.ply.pc == 0x10010#64 && t.ply.mask == 0xA#32 && t.weave.plies.map (fun p => (p.n, p.pc, p.mask)) == [(1, 0x10008#64, 0x5#32)]) := by
  decide +kernel


/-- Statement RejoiningPlies: an empty pair; a lane that is in a ply; the next address; another address with room and with
four plies; and `plysync` alone, waiting and with all arrived. -/
theorem witness_rejoiningPlies :
    (let f := fd 0xF0 0xC2 0xF0 0xF0 0 0
     let i := Instr.resume f
     can (sAway 0#64 0#64) i f &&
     can (sAway 0#64 1#64) i f && (allPlies (sAway 0#64 1#64)).any (fun p => p.mask &&& 1#32 != 0#32) &&
     (let s := sAway 0x10008#64 0xF00#64
      can s i f && (allPlies s).all (fun p => p.mask &&& 0xF00#32 == 0#32) && sVal s 2 == afterPc s.ply.pc f &&
      room { s with ply := { s.ply with mask := 0xF0F#32 } } i f [.s 3 0#64]) &&
     (let s := sAway 0x50000#64 0xF00#64
      can s i f && sVal s 2 != afterPc s.ply.pc f &&
      room { s with weave := { s.weave with plies := insertPly (newPly s 0x50000#64 0xF00#32) s.weave.plies } } i f [.s 3 0#64]) &&
     (let s := four (sAway 0x50000#64 0xF0000#64)
      can s i f && (allPlies s).all (fun p => p.mask &&& 0xF0000#32 == 0#32) && decide (4 ≤ (allPlies s).length) &&
      room { s with ply := { s.ply with mask := 0xF0000#32 } } i f [.s 2 0#64, .s 3 0#64])) &&
    (let f := fd 0xF0 0xF0 0xF0 0xF0 0 0
     let met : State := { four sCtl with weave := { (four sCtl).weave with plies := (four sCtl).weave.plies.map (fun p => { p with wait := .meet none }) } }
     can sCtl (.plysync f) f && sCtl.weave.plies.isEmpty &&
     can (four sCtl) (.plysync f) f && (four sCtl).weave.plies.any (fun p => p.wait == .none) &&
     can met (.plysync f) f && met.weave.plies.all (fun p => p.wait == .meet none)) := by
  decide +kernel

/-- A sleeping weave: its latches, a copy with handle 1 and the wait of its ply. -/
def sSleep (w : Wait) (e : Bool) (promise : DWord) : State :=
  let s := one [0#64, 3#64, 4#64, 1#64, 0xFFFFFFFFFFFFFFFF#64] []
  { s with ply := { s.ply with wait := w }
           weave := { s.weave with evEngine := e, handles := [{ h := 1, copy := true, promise := promise }] } }

/-- Statement YieldAndSleeps: `sleep.until` in each of its cases (s0 has passed, s4 has not; handle 2 names no copy), and
`sleep.ev` woken, without an address, with a latch and without. -/
theorem witness_yieldAndSleeps :
    (let f := fd 0xF0 0xF0 0xF0 0xF0 0 0
     can sCtl (.yield f) f) &&
    (let f (a b : Nat) : Fields := fd 0xF0 a b 0xF0 0 0
     let s := sSleep .none false 0#64
     can s (.sleepUntil (f 0xC0 0xF0)) (f 0xC0 0xF0) && (scl s (f 0xC0 0xF0) 0xC0#8 == 0#64) &&
     can s (.sleepUntil (f 0xC4 0xF0)) (f 0xC4 0xF0) && (scl s (f 0xC4 0xF0) 0xC4#8 == 0xFFFFFFFFFFFFFFFF#64) &&
     can s (.sleepUntil (f 0xC4 0xC2)) (f 0xC4 0xC2) && (copyOut s 4).isNone &&
     can (sSleep (.woken 0) false 0#64) (.sleepUntil (f 0xC4 0xF0)) (f 0xC4 0xF0) &&
     [0#64, 0xFFFFFFFFFFFFFFFF#64].all (fun p => can (sSleep (.woken 2) false p) (.sleepUntil (f 0xC4 0xC3)) (f 0xC4 0xC3) &&
       (copyOut (sSleep (.woken 2) false p) 1).isSome)) &&
    (let f (a b : Nat) : Fields := fd 0xC5 a b 0xC0 0 0
     issues (sSleep (.woken 7) false 0#64) (.sleepEv (f 0xC1 0xF0)) (f 0xC1 0xF0) (sclWrite 0xC5#8 0#64) &&
     can (sSleep .none true 0#64) (.sleepEv (f 0xC2 0xF0)) (f 0xC2 0xF0) &&
     issues (sSleep .none true 0#64) (.sleepEv (f 0xC1 0xF0)) (f 0xC1 0xF0) (sclWrite 0xC5#8 0#64) &&
     can (sSleep .none false 0#64) (.sleepEv (f 0xC1 0xF0)) (f 0xC1 0xF0)) := by
  decide +kernel

/-- R175: the engine latch that was selected is returned and cleared. -/
theorem test_sleepEv :
    nexts (exec (.sleepEv (fd 0xC5 0xC1 0xF0 0xC0 0 0)) (sSleep .none true 0#64)) (fun t => sVal t 5 == 1#64 && !t.weave.evEngine) := by
  decide +kernel

/-- A weave inside an open region. -/
def sRegion : State :=
  { sCtl with weave := { sCtl.weave with rgnpc := 0x8000000000010000#64, region := some ⟨sCtl.weave.map, 0, 0xF#32, 1⟩ } }

/-- Statements Regions and TrapAndExit: inside and outside a region, with one ply and with others. -/
theorem witness_regions :
    (let f := fd 0xF0 0xF0 0xF0 0xF0 0 0
     let e := fd 0xF0 0xF0 0xF0 0xF0 0 1
     [sCtl, sRegion, four sCtl, four sRegion].all (fun s => can s (.rgn f) f && can s (.rgnEnd e) e) &&
     sCtl.weave.plies.isEmpty && sRegion.weave.plies.isEmpty && sRegion.weave.rgnpc.getLsbD 63 && !sCtl.weave.rgnpc.getLsbD 63 &&
     sCtl.ply.fence.isNone && (four sCtl).weave.plies.any (fun p => p.wait == .none)) &&
    (let t := fd 0xF0 0xF0 0xF0 9 0 0
     let off : Fields := { t with msense := true }
     can sCtl (.trap off) off && activeLanes sCtl off == 0#32 && can (vec sCtl) (.trap t) t && activeLanes (vec sCtl) t != 0#32 &&
     !inTrap (vec sCtl)) &&
    (let x := fd 0xF0 0xF0 0xF0 0xF0 0 0
     let k : Fields := { x with mask := 1#3 }
     can sCtl (.exit k) k && (sCtl.ply.mask &&& ~~~(activeLanes sCtl k)) != 0#32 &&
     can sCtl (.exit x) x && (sCtl.ply.mask &&& ~~~(activeLanes sCtl x)) == 0#32 && sCtl.focused && !sCtl.weave.ended &&
     sCtl.teams.isEmpty && sCtl.team.weaves.isEmpty) := by
  decide +kernel

/-- R18: the last lane leaves; the weave has ended. -/
theorem test_exit :
    nexts (exec (.exit (fd 0xF0 0xF0 0xF0 0xF0 0 0)) sCtl) (fun t => !t.focused && t.teams.all (fun u => u.weaves.all (·.ended))) := by
  decide +kernel

/-! ### Scalar and vector families -/

/-- s1 to s8 and v0 to v13 mapped; k1 holds lanes 0 and 2. -/
def sVec : State :=
  let s := one [0x7000#64, 0xFFFFFFFFFFFFFFFB#64, 9#64, 0#64, 0x8000000000000000#64, 63#64, 64#64, 0x18#64, 0x55#64]
    [fun j => 0x7FFFFFF0 + 8 * j, fun j => 3 * j, fun j => 0xFFFFFFFF - j, fun j => 0x3F800000 + 0x100000 * j, fun _ => 0x40000000,
     fun j => 0xBF800000 + j, fun j => j, fun _ => 0x3C003C00, fun _ => 1, fun _ => 0, fun _ => 0, fun _ => 0, fun _ => 0, fun _ => 0]
  { s with weave := { s.weave with kregs := [0#32, 5#32, 0#32, 0xC#32, 0#32, 0#32, 0#32, 0#32] } }

/-- Scalar, vector and mask destinations with room. -/
def sclOk (xs : List (Instr × Fields)) : Bool := xs.all (fun (i, f) => issues sVec i f (sDest sVec f) && activeLanes sVec f != 0#32)
def vecOk (xs : List (Instr × Fields)) : Bool := xs.all (fun (i, f) => issues sVec i f (vDest sVec f (wideType f)) && activeLanes sVec f != 0#32)
def maskOk (xs : List (Instr × Fields)) : Bool := xs.all (fun (i, f) => can sVec i f && activeLanes sVec f != 0#32)

/-- Statement ScalarInstructions: register and immediate forms, signed and natural comparisons of every code. -/
theorem witness_scalars :
    (let f := fd 0xC9 0xC1 0xC2 0 0 0
     let g := fd 0xC9 0xC1 0xF0 0x85 0 0
     sclOk [(.sadd f, f), (.ssub g, g), (.smul f, f), (.sand f, f), (.sor f, f), (.sxor g, g), (.sshl f, f), (.sshr f, f), (.ssra g, g)]) &&
    (let f (t v : Nat) := fd 0xC9 0xC1 0xC2 0 t v
     sclOk [(.smin (f 3 0), f 3 0), (.smax (f 7 1), f 7 1)] &&
     (List.range 6).all (fun v => [3, 7].all (fun t => sclOk [(.scmp (f t v), f t v)]))) &&
    (let f := fd 0xC9 0xC1 0xC2 0xC3 0 0
     sclOk [(.smad f, f), (.ssel f, f)]) &&
    (let f := fd 0xC9 0xF0 1 0 0 0
     let g := fd 0xF0 0xF0 0xC1 0 0 0
     sclOk [(.smov f, f)] && isV f.b.toNat && can sVec (.smov (fd 0xC9 0xF0 0xC1 0 0 0)) (fd 0xC9 0xF0 0xC1 0 0 0) && !(can sVec (.smov g) g)) := by
  decide +kernel

/-- R181, R182: −5 < 9 as i64 and not as n64; shifts by 64 give 0; the sign fills `ssra`. -/
theorem test_scalar :
    nexts (exec (.scmp (fd 0xC9 0xC1 0xC2 0 3 2)) sVec) (fun t => sVal t 9 == 1#64) &&
    nexts (exec (.scmp (fd 0xC9 0xC1 0xC2 0 7 2)) sVec) (fun t => sVal t 9 == 0#64) &&
    nexts (exec (.sshl (fd 0xC9 0xC1 0xC6 0 0 0)) sVec) (fun t => sVal t 9 == 0#64) &&
    nexts (exec (.ssra (fd 0xC9 0xC4 0xC6 0 0 0)) sVec) (fun t => sVal t 9 == 0xFFFFFFFFFFFFFFFF#64) &&
    nexts (exec (.sadd (fd 0xC9 0xC1 0xF0 0xFF 0 0)) sVec) (fun t => sVal t 9 == 0xFFFFFFFFFFFFFFFA#64) := by
  decide +kernel

/-- Statement SpecialRegisters: reads into both kinds of destination, the four writes, and a reserved value. -/
theorem witness_special :
    (let f := fd 0xC9 6 0xF0 0xF0 0 0
     let g := fd 10 0 0xF0 0xF0 0 0
     sclOk [(.rdsp f, f)] && issues sVec (.rdsp g) g (vDest sVec g false)) &&
    (let w (d a : Nat) := fd d a 0xF0 0xF0 0 0
     [0x11#64, 0xFFFFFFFFFFFFFC11#64].all (fun x => decide ((x.extractLsb' 7 3).toNat ≤ 4 ∧ (x.extractLsb' 5 2).toNat ≤ 2 ∧
       1 ≤ (x.extractLsb' 0 3).toNat ∧ (x.extractLsb' 0 3).toNat ≤ 5) && can (one [x] []) (.wrsp (w 6 0xC0)) (w 6 0xC0)) &&
     [0#64, 6#64, 0x61#64, 0x281#64].all (fun x => !decide ((x.extractLsb' 7 3).toNat ≤ 4 ∧ (x.extractLsb' 5 2).toNat ≤ 2 ∧
       1 ≤ (x.extractLsb' 0 3).toNat ∧ (x.extractLsb' 0 3).toNat ≤ 5) && can (one [x] []) (.wrsp (w 6 0xC0)) (w 6 0xC0)) && can (one [0x7000#64] []) (.wrsp (w 7 0xC0)) (w 7 0xC0) &&
     can sVec (.wrsp (w 9 0xC8)) (w 9 0xC8) && can sVec (.wrsp (w 10 0xC1)) (w 10 0xC1) && can sVec (.wrsp (w 9 0xC4)) (w 9 0xC4)) := by
  decide +kernel

/-- R20, R42, R184: a write of `fpflags` is read back and its reserved bits are ignored; order 6 in `memdef` traps with
code 1 and writes nothing. -/
theorem test_special :
    nexts (exec (.wrsp (fd 9 0xC8 0xF0 0xF0 0 0)) sVec) (fun t => t.weave.fpflags == 0x55#7) &&
    nexts (exec (.wrsp (fd 9 0xC4 0xF0 0xF0 0 0)) (vec sVec)) (fun t => t.weave.tcause == 0#64 && t.weave.fpflags == 0#7) &&
    nexts (exec (.wrsp (fd 6 0xC0 0xF0 0xF0 0 0)) (vec (one [6#64] []))) (fun t =>
      t.weave.tcause.extractLsb' 56 8 == 1#8 && t.weave.memdef == (one [] []).weave.memdef) := by
  decide +kernel

/-- Statement MasksAndVotes. -/
theorem witness_masks :
    (let f (v : Nat) := fd 2 1 3 0xF0 0 v
     let g (v : Nat) := fd 2 0 0xF0 0xF0 0 v
     maskOk [(.kand (f 0), f 0), (.kor (f 1), f 1), (.kxor (f 2), f 2), (.knot (g 3), g 3), (.kmov (g 4), g 4)]) &&
    (let f (v : Nat) := fd 0xC9 1 0xF0 0xF0 0 v
     sclOk [(.voteAny (f 0), f 0), (.voteAll (f 1), f 1), (.voteCnt (f 2), f 2)]) := by
  decide +kernel

/-- R185, R186: k1 and k3 are lanes 0, 2 and 2, 3; 3·j is nonzero in three of the four lanes. -/
theorem test_masks :
    nexts (exec (.kand (fd 2 1 3 0xF0 0 0)) sVec) (fun t => kMask t 2 == 4#32) &&
    nexts (exec (.kxor (fd 2 1 3 0xF0 0 2)) sVec) (fun t => kMask t 2 == 9#32) &&
    nexts (exec (.voteCnt (fd 0xC9 1 0xF0 0xF0 0 2)) sVec) (fun t => sVal t 9 == 3#64) &&
    nexts (exec (.voteAll (fd 0xC9 1 0xF0 0xF0 0 1)) sVec) (fun t => sVal t 9 == 0#64) := by
  decide +kernel

/-- Statements IntegerArithmetic and BitsAndComparisons: wrapping and saturating, single and paired forms. -/
theorem witness_integers :
    (let f := fd 20 0 2 0 2 0
     let g := fd 20 0 2 0 2 16
     let p := fd 20 2 4 0 3 0
     let u := fd 20 2 0xF0 0xF0 2 0
     let m := fd 20 0 1 2 6 0
     vecOk [(.add f, f), (.add g, g), (.sub p, p), (.mulLo f, f), (.mulHi f, f), (.mad m, m), (.abs u, u), (.neg u, u), (.min f, f), (.max p, p)]) &&
    (let f := fd 20 0 1 0 6 0
     let u := fd 20 2 0xF0 0xF0 6 0
     vecOk [(.and f, f), (.or f, f), (.xor f, f), (.not u, u), (.shl f, f), (.shr f, f), (.sra (fd 20 0 1 0 2 0), fd 20 0 1 0 2 0), (.rot f, f),
       (.popc u, u), (.clz u, u), (.brev u, u), (.bfx (fd 20 0 1 0xF0 6 0), fd 20 0 1 0xF0 6 0), (.bfi (fd 20 0 1 2 6 0), fd 20 0 1 2 6 0),
       (.sel (fd 20 0 1 3 6 0), fd 20 0 1 3 6 0)]) &&
    (List.range 6).all (fun v => maskOk [(.cmp (fd 2 0 2 0 2 v), fd 2 0 2 0 2 v)]) &&
    issues sVec (.dp4 (fd 20 0 1 2 0 16)) (fd 20 0 1 2 0 16) (vDest sVec (fd 20 0 1 2 0 16) false) := by
  decide +kernel

/-- R56, R57, R192: in lane 2 the sum of 0x80000000 and −3 wraps to 0x7FFFFFFD and clamps with the flag. -/
theorem test_integer :
    nexts (exec (.add (fd 20 0 2 0 2 0)) sVec) (fun t => vLane t 20 2 == 0x7FFFFFFD#32 && t.weave.fpflags == 0#7) &&
    nexts (exec (.add (fd 20 0 2 0 2 16)) sVec) (fun t => vLane t 20 2 == 0x80000000#32 && t.weave.fpflags == flSat) &&
    nexts (exec (.clz (fd 20 1 0xF0 0xF0 6 0)) sVec) (fun t => vLane t 20 0 == 32#32 && vLane t 20 3 == 28#32) &&
    nexts (exec (.brev (fd 20 1 0xF0 0xF0 6 0)) sVec) (fun t => vLane t 20 1 == 0xC0000000#32) &&
    nexts (exec (.cmp (fd 2 0 2 0 2 2)) sVec) (fun t => kMask t 2 == 0xC#32) := by
  decide +kernel

/-- Statements Floats, ConversionsAndReductions and BlockQuantisation. -/
theorem witness_floats :
    (let f := fd 20 3 4 0xF0 10 0
     let u := fd 20 3 0xF0 0xF0 10 0
     vecOk [(.fadd f, f), (.fsub f, f), (.fmul f, f), (.fma (fd 20 3 4 5 10 0), fd 20 3 4 5 10 0), (.fmin f, f), (.fmax f, f), (.fdiv f, f),
       (.frcp u, u), (.fsqrt u, u), (.frsq u, u), (.fexp2 u, u), (.flog2 u, u), (.fsin u, u), (.fcos u, u), (.frnd u, u), (.fclass u, u),
       (.fscale (fd 20 3 6 0xF0 10 0), fd 20 3 6 0xF0 10 0), (.fdot2 (fd 20 7 7 3 8 0), fd 20 7 7 3 8 0)]) &&
    maskOk [(.fcmp (fd 2 3 4 0xF0 10 7), fd 2 3 4 0xF0 10 7)] &&
    (let f (t v : Nat) := fd 20 3 0xF0 0xF0 t v
     vecOk [(.cvtIntInt (f 0 2), f 0 2), (.cvtIntFloat (f 10 2), f 10 2), (.cvtFloatInt (f 2 10), f 2 10), (.cvtFloatNarrow (f 8 10), f 8 10),
       (.cvtFloatWiden (fd 20 4 0xF0 0xF0 11 10), fd 20 4 0xF0 0xF0 11 10), (.cvtFp8 (f 12 10), f 12 10)]) &&
    vecOk [(.pack (fd 20 0 1 0xF0 1 0), fd 20 0 1 0xF0 1 0), (.unpack (fd 20 0 0xF0 0xF0 4 3), fd 20 0 0xF0 0xF0 4 3),
      (.perm (fd 20 0 6 0xF0 14 0), fd 20 0 6 0xF0 14 0), (.lscanAdd (fd 20 6 0xF0 0xF0 6 0), fd 20 6 0xF0 0xF0 6 0),
      (.lred (fd 20 6 0xF0 0xF0 6 0), fd 20 6 0xF0 0xF0 6 0)] &&
    sclOk [(.lred (fd 0xC9 6 0xF0 0xF0 6 0), fd 0xC9 6 0xF0 0xF0 6 0), (.lred (fd 0xC9 3 0xF0 0xF0 10 0), fd 0xC9 3 0xF0 0xF0 10 0)] &&
    vecOk [(.lscanAdd (fd 20 3 0xF0 0xF0 10 1), fd 20 3 0xF0 0xF0 10 1), (.lred (fd 20 3 0xF0 0xF0 10 0), fd 20 3 0xF0 0xF0 10 0)] &&
    (let f := { fd 20 3 0xF0 0xF0 10 0 with msense := true }
     can sVec (.lred f) f && issues sVec (.lscanAdd f) f (vDest sVec f false) && activeLanes sVec f == 0#32) &&
    (fF32.val 0x7FC00000).isNan && (fF32.val 0x7F800000).isInf && (fF32.val 0xFF800000).isNeg && (fF32.val 0).isZero := by
  decide +kernel

/-- The state of the example after R212: the eight values of R80 as f32 in v10, and an underflow count in v22. -/
def sQuant (u : Nat) : State :=
  let x : List Nat := [0x3C1374BC, 0xBBC49BA6, 0x3B03126F, 0, 0x3B9374BC, 0xBA902DE0, 0x3BF5C28F, 0x3B449BA6]
  let s := one [] []
  let v1 := s.weave.map.v.set 10 (some ⟨11, tabulate (fun j => BitVec.ofNat 32 (x.getD j 0)), false⟩)
  let v2 := v1.set 22 (some ⟨23, tabulate (fun _ => BitVec.ofNat 32 u), false⟩)
  { s with
    ply := { s.ply with mask := 0xFFFFFFFF#32 }
    weave := { s.weave with
      kregs := [0#32, 0xFF#32, 0#32, 0#32, 0#32, 0#32, 0#32, 0#32]
      map := { s.weave.map with v := v2 } } }

/-- `qblk.vb4.f32 v20, v10, fone, v21, v22 ?k1` and `dqblk.vb4.f32 v30, v20, fone, v21 ?k1` (format code 22). -/
def fQuant : Fields := { long (fd 20 10 0xF8 0xF0 10 22) 0 false 0 21 22 with mask := 1#3 }
def fDequant : Fields := { long (fd 30 20 0xF8 0xF0 10 22) 0 false 0 21 0xF0 with mask := 1#3 }

/-- Statement BlockQuantisation. -/
theorem witness_quantise :
    (let s := sQuant 0
     let w := maskOf (fun j => (blockOf s fQuant (activeLanes s fQuant) (mfmt 22) (j / (mfmt 22).L * (mfmt 22).L)).isSome)
     issues s (.qblk fQuant) fQuant [.v 20 w [], .v 21 w [], .v 22 w []] && activeLanes s fQuant != 0#32 && w == 0xFF#32) &&
    nexts (exec (.qblk fQuant) (sQuant 0)) (fun s =>
      let t := { s with weave := { s.weave with pends := [] } }
      issues t (.dqblk fDequant) fDequant (vDest t fDequant false)) := by
  decide +kernel

/-- The results of the example: pass 1 with count 0 and pass 2 with count 7. -/
theorem test_quantise :
    nexts (exec (.qblk fQuant) (sQuant 0)) (fun t =>
      vLane t 20 0 == 0x00800080#32 && vLane t 20 1 == 0#32 && vLane t 21 0 == 0#32 && vLane t 22 7 == 7#32 && vLane t 22 8 == 0#32) &&
    nexts (exec (.qblk fQuant) (sQuant 7)) (fun t =>
      vLane t 20 0 == 0x128101A2#32 && vLane t 20 7 == 0#32 && vLane t 21 3 == 1#32 && vLane t 22 0 == 1#32 && vLane t 22 8 == 7#32 &&
      -- `dqblk` gives 0.0078125, −0.0078125, 0.00390625, +0, 0.00390625, −0, 0.0078125, 0.00390625
      nexts (exec (.dqblk fDequant) { t with weave := { t.weave with pends := [] } }) (fun u =>
        (List.range 8).map (vLane u 30) == [0x3C000000#32, 0xBC000000#32, 0x3B800000#32, 0#32, 0x3B800000#32, 0x80000000#32, 0x3C000000#32,
          0x3B800000#32])) := by
  decide +kernel

/-- R60 to R62: 1 + 2 = 3 in lane 0; 1/3 rounds to nearest even with nx; the quotient by 2 is exact; ∞ − ∞ is invalid. -/
theorem test_float :
    nexts (exec (.fadd (fd 20 3 4 0xF0 10 0)) sVec) (fun t => vLane t 20 0 == 0x40400000#32 && t.weave.fpflags == 0#7) &&
    decide (fDiv fF32 ⟨.rne, 0⟩ 0x3F800000 0x40400000 = ⟨0x3EAAAAAB, flNx⟩) &&
    decide (fAdd fF32 ⟨.rne, 0⟩ 0x7F800000 0xFF800000 = ⟨fF32.nanCode, flNv⟩) &&
    decide ((fFma fF32 ⟨.rne, 0⟩ 0x40000000 0x40400000 0x3F800000).code = 0x40E00000) &&
    decide ((fSqrt fF32 ⟨.rne, 0⟩ 0x40800000).code = 0x40000000) := by
  decide +kernel

/-- R60, R208: a lone signalling NaN comes out canonical and sets nv. R61, R63, R65: 490 to e4m3 in mode sr lies between 448
and 512: with h = 0 it is 448 and inexact; with the largest h it overflows, and clamps with .sat. -/
theorem test_nanAndE4m3 :
    (let s := { one [] [fun _ => 0x7F800001] with ply := { (one [] []).ply with mask := 1#32 } }
     nexts (exec (.lscanAdd (fd 20 0 0xF0 0xF0 10 0)) s) (fun t => vLane t 20 0 == 0x7FC00000#32 && t.weave.fpflags == flNv) &&
     nexts (exec (.lred (fd 20 0 0xF0 0xF0 10 0)) s) (fun t => vLane t 20 0 == 0x7FC00000#32 && t.weave.fpflags == flNv)) &&
    decide (cvtFloatFloat .e4m3 .f32 false ⟨.sr, 0⟩ 0x43F50000 = ⟨0x7E, flNx⟩) &&
    decide ((cvtFloatFloat .e4m3 .f32 false ⟨.sr, 2 ^ 32 - 1⟩ 0x43F50000).flags &&& flOf = flOf) &&
    decide ((cvtFloatFloat .e4m3 .f32 true ⟨.sr, 2 ^ 32 - 1⟩ 0x43F50000).code = 0x7E) := by
  decide +kernel

/-- R205 to R209: the sum of the lane numbers 0 to 3 is 6; `pack` of 16-bit elements puts A low; `perm` with bit 5 gives 0. -/
theorem test_lanes :
    nexts (exec (.lred (fd 0xC9 6 0xF0 0xF0 6 0)) sVec) (fun t => sVal t 9 == 6#64) &&
    nexts (exec (.lscanAdd (fd 20 6 0xF0 0xF0 6 0)) sVec) (fun t => vLane t 20 2 == 3#32) &&
    nexts (exec (.perm (fd 20 1 1 0xF0 14 0)) sVec) (fun t => vLane t 20 1 == 9#32) &&
    nexts (exec (.pack (fd 20 1 6 0xF0 5 0)) sVec) (fun t => vLane t 20 3 == 0x00030009#32) &&
    nexts (exec (.cvtFloatInt (fd 20 4 0xF0 0xF0 2 10)) sVec) (fun t => vLane t 20 0 == 2#32) := by
  decide +kernel

/-! ### Memory -/

/-- The page at 0x10000 of context 1 in site 27, with every right at target 0; the bytes there are those given. -/
def paged (s : State) (bytes : List Byte) : State :=
  let t := codePage s bytes
  { t with mem := cellWriteN t.mem (regionKey t 27 0x200000) (toBytes 8 (2 ^ 63 + 15 * 2 ^ 54 + 2 ^ 32)) }

/-- s1 names offset 0x800 of the page (served by target 0, like offset 0), s2 scratch offset 0x40, s3 a stack address, s4 an address without a window, s5 one
that is no multiple of 4; v0 holds 4·j, v1 data, v2 with v3 addresses of lanes. The stack is 0x18000 to 0x18FFF. -/
def sMem : State :=
  let s := one [0#64, 0x10800#64, 0x40#64, 0x18000#64, 0x100000#64, 0x10802#64, 0x10802#64, 7#64, 0x1F000#64]
    [fun j => 4 * j, fun j => 0x11111111 * (j + 1), fun j => 0x10840 + 4 * j, fun _ => 0, fun j => 0x20 * j, fun _ => 0, fun j => 0x18040 + 8 * j, fun _ => 0]
  paged { s with weave := { s.weave with stklim := 0x18000#64, stkTop := 0x19000, cursor := 0x18800 } } []

/-- A prefix that names an address space: 1 global, 2 local, 3 scratch (R138). -/
def inSpace (f : Fields) (k : Nat) : Fields := { f with pfx := some ⟨0#2, 0#3, BitVec.ofNat 3 k, 0#3, 0#3⟩ }

/-- A near access of lane 0 to offset 0x800 of the page. -/
def acc (kind op : Nat) (data cmp : DWord) : Acc :=
  { id := 0, uid := 1, windex := 0, ply := 0, src := 27, unit := 27 * 1024, ctx := 1, tag := 0, lane := 0, kind := kind, va := 0x10800
    ia := 1 * 2 ^ 52 + 27 * 2 ^ 46 + 0x800, n := 4, data := data, cmp := cmp, op := op, type := 6, order := 1, scope := 2
    policy := 0, spec := false }

/-- `AtHome` for an access: near, small, in one line, the first of its ply there, and in one cell of a page that is not
host-biased. -/
def home (s : State) (a : Acc) : Option Nat :=
  match locate s (ctxMaster a.ctx) a.right a.src a.ia a.n with
  | .ok [⟨ia, n, .cell key attr⟩] => if isNear s a.src a.ia && ia == a.ia && n == a.n && 0 < n && n ≤ 8 && attr != 3 &&
      decide (a.ia % 128 + n ≤ 128) && !orderWaits { s with nextId := s.nextId + 1 } (numbered s a) &&
      (plyLog s a.uid a.windex a.ply).all (fun e => a.tag ≤ e.serial) then some key else none
  | _ => none

/-- A weave with a started load, a reservation of lane 0 on the line, and the line in the core's L1. -/
def sHome : State :=
  let line := iaLine (acc 0 0 0#64 0#64).ia
  let s := sMem
  { s with
    weave := { s.weave with
      loads := [{ tag := 0, ply := 0, pc := 0#64, dst := 5, type := 6, wide := false, mask := 1#32, data := List.replicate 32 none }]
      resv := [{ lane := 0, line := line }] }
    cores := [{ id := s.team.at_, l1 := [{ line := line, data := List.replicate 128 0x77#8, wts := 0, rts := 9 }] }] }

/-- Statements NearLoadsAndStores and AtomicPerformed: a load with and without a lease, a store, and atomics of each
operation code, `sc` with and without the reservation. -/
theorem witness_atHome :
    Memory.wf sHome.mem && (home sMem (acc 0 0 0#64 0#64)).isSome && (home sHome (acc 0 0 0#64 0#64)).isSome && l1May 0 0 &&
    ((findCore sHome (coreOf sHome 1)).l1.find? (fun c => c.line == iaLine (acc 0 0 0#64 0#64).ia && decide (ptsOf sHome (acc 0 0 0#64 0#64) ≤ c.rts))).isSome &&
    ((findCore sMem (coreOf sMem 1)).l1).isEmpty &&
    (home sHome (acc 1 0 0xAABBCCDD#64 0#64)).isSome && (plyLog sHome 1 0 0).isEmpty &&
    (match home sHome (acc 1 0 0xAABBCCDD#64 0#64) with
     | some key => refusedWrite sHome key (toBytes 4 0xAABBCCDD) == none && cellNat sHome.mem key 4 == 0
     | none => false) &&
    (List.range 11).all (fun op => (home sHome (acc 2 op 5#64 0#64)).isSome) && (List.range 8).all (fun op => (home sHome (acc 3 op 5#64 0#64)).isSome) &&
    (peekWeave sHome 1 0).isSome && holdsResv sHome (acc 2 10 5#64 0#64) && !holdsResv sMem (acc 2 10 5#64 0#64) := by
  decide +kernel

/-- R105, R226, R229: the store puts its bytes lowest first; `sc` with the reservation stores and answers 1, without it
answers 0; `add` gives the sum and the old value. -/
theorem test_atHome :
    (let t := submitAccess sHome (acc 1 0 0xAABBCCDD#64 0#64)
     match home sHome (acc 1 0 0#64 0#64) with
     | some key => byteAt t key == 0xDD#8 && byteAt t (key + 3) == 0xAA#8 && byteAt t (key + 4) == 0#8
     | none => false) &&
    (let t := submitAccess sHome (acc 2 10 5#64 0#64)
     match home sHome (acc 1 0 0#64 0#64) with
     | some key => byteAt t key == 5#8 && (t.weave.loads.map (fun l => l.data.getD 0 none)) == [some 1#64]
     | none => false) &&
    (let s := { sHome with weave := { sHome.weave with resv := [] } }
     let t := submitAccess s (acc 2 10 5#64 0#64)
     match home s (acc 1 0 0#64 0#64) with
     | some key => byteAt t key == 0#8 && (t.weave.loads.map (fun l => l.data.getD 0 none)) == [some 0#64]
     | none => false) := by
  decide +kernel

/-- Statement AccessFaultsOrTravels: a page that is not mapped, for a load and a store, and a far access. -/
theorem witness_faults :
    [0, 1].all (fun kind =>
      let a := { acc kind 0 5#64 0#64 with ia := 1 * 2 ^ 52 + 27 * 2 ^ 46 + 0x200000 }
      isNear sMem a.src a.ia && (plyLog sMem 1 0 0).isEmpty && !orderWaits { sMem with nextId := sMem.nextId + 1 } (numbered sMem a) && logRoom sMem 1 (logEntryOf (numbered sMem a) none).size &&
      (match locate sMem (ctxMaster 1) a.right a.src a.ia a.n with
       | .error e => (freeFid sMem e.home).isSome
       | .ok _ => false)) &&
    (let a := { acc 0 0 5#64 0#64 with ia := 1 * 2 ^ 52 + 36 * 2 ^ 46 + 0x100 }
     isFar sMem a.src a.ia && isSite (iaSite a.ia)) := by
  decide +kernel

/-- No lane is active. -/
def off (f : Fields) : Fields := { f with msense := true }

/-- The hypotheses of `LoadRule` for a form in an address space. -/
def loadMeets (s : State) (i : Instr) (f : Fields) (r : Resolved) (addr : Nat → DWord) : Bool :=
  let m := activeLanes s f
  let n := elemBytes f
  let lanes := laneAddrs m addr
  let parts := partsOf s n lanes
  let fits (u : State) := room u i f (mapOnly f (wideType f))
  can s i f && m != 0#32 && (lanesTrap s r.space n false lanes).isNone && s.focused &&
  (match r.space with
   | 0 => !specHolds s r parts && !logHolds s r.order parts && !orderHold s false r.order (parts.map (·.1)) &&
     fits (issueLoads f r s.ply.pc m lanes s)
   | 2 => !localHolds s r 2 n lanes && s.ply.fence.isNone &&
     fits (localLoad 2 f r s.ply.pc m lanes (fun s va => (scratchRead s va n, scratchBad s va n)) s)
   | _ => (match fillLanes lanes n s with
     | .ok s1 => !localHolds s r 1 n lanes && s.ply.fence.isNone && decide (stackUse s s.team.at_ + 64 ≤ (findCore s s.team.at_).split.2.2 * 8) &&
       fits (trimStacks (localLoad 1 f r s.ply.pc m lanes (fun s va => (stackRead s va n, none)) s1))
     | .error _ => false))

/-- `ld`, `st` with base s<a>, spread by lane, in an address space; `ldx`, `stx` with index v0; `lds`, `sts` at s2. -/
def fLd (a k : Nat) : Fields := inSpace (fd 5 (0xC0 + a) 0xF0 0 6 0) k
def fSt (a k : Nat) : Fields := inSpace (fd 0xF0 (0xC0 + a) 1 0 6 0) k
def fLdx (a k : Nat) : Fields := inSpace (fd 5 (0xC0 + a) 0 0 6 0) k
def fStx (a k : Nat) : Fields := inSpace (fd 0xF0 (0xC0 + a) 0 1 6 0) k
def fLds : Fields := fd 5 0xC2 0xF0 0 6 0
def fSts : Fields := fd 0xF0 0xC2 1 0 6 0

/-- Statement Loads: each instruction in each address space that it reaches, and with no active lane. -/
theorem witness_loads :
    [(1, 1), (3, 2), (2, 3)].all (fun (a, k) =>
      loadMeets sMem (.ld (fLd a k)) (fLd a k) (resolve sMem 0xC0 (fLd a k)) (addrMode sMem (fLd a k) 4) &&
      loadMeets sMem (.ldx (fLdx a k)) (fLdx a k) (resolve sMem 0xC2 (fLdx a k)) (addrIndexed sMem (fLdx a k) (memOffset (fLdx a k)))) &&
    loadMeets sMem (.lds fLds) fLds scratchPlain (addrScratch sMem fLds 4) &&
    [1, 2, 3].all (fun k => (resolve sMem 0xC0 (fLd 1 k)).space == k - 1) &&
    can sMem (.ld (off (fLd 1 1))) (off (fLd 1 1)) && can sMem (.ldx (off (fLdx 1 1))) (off (fLdx 1 1)) && can sMem (.lds (off fLds)) (off fLds) &&
    activeLanes sMem (off fLds) == 0#32 := by
  decide +kernel

/-- The hypotheses of `StoreRule`: in global memory also behind a speculative fence. -/
def storeMeets (s : State) (i : Instr) (f : Fields) (r : Resolved) (addr : Nat → DWord) : Bool :=
  let m := activeLanes s f
  let n := elemBytes f
  let lanes := laneAddrs m addr
  let parts := partsOf s n lanes
  can s i f && m != 0#32 && (lanesTrap s r.space n false lanes).isNone && cellsWf s.team.scratch && fenceClear s && (myLog s).isEmpty &&
  (if r.space == 0 then !orderHold s true r.order (parts.map (·.1)) && (!logsNow s rightW parts || logRoom s s.team.uid (logNeed parts))
   else !orderHold s true r.order [] && decide (stackUse s s.team.at_ + 64 ≤ (findCore s s.team.at_).split.2.2 * 8))

/-- The same weave with a speculative fence open. -/
abbrev fenced (s : State) : State := openFence s

/-- Statement Stores. -/
theorem witness_stores :
    [(1, 1), (3, 2), (2, 3)].all (fun (a, k) =>
      storeMeets sMem (.st (fSt a k)) (fSt a k) (resolve sMem 0xC1 (fSt a k)) (addrMode sMem (fSt a k) 4) &&
      storeMeets sMem (.stx (fStx a k)) (fStx a k) (resolve sMem 0xC3 (fStx a k)) (addrIndexed sMem (fStx a k) 0#64)) &&
    storeMeets sMem (.sts fSts) fSts scratchPlain (addrScratch sMem fSts 4) &&
    [1, 2, 3].all (fun k => can (fenced sMem) (.st (fSt k k)) (fSt k k)) && can (fenced sMem) (.sts fSts) fSts &&
    (fenced sMem).ply.fence.isSome && !fenceOpen (fenced sMem) && can sMem (.st (off (fSt 1 1))) (off (fSt 1 1)) &&
    can sMem (.stx (off (fStx 1 1))) (off (fStx 1 1)) && can sMem (.sts (off fSts)) (off fSts) := by
  decide +kernel

/-- R105, R218: lane j of the `st` stores v1's lane at s1 + 4·j; in scratch the bytes are read back by `lds`. -/
theorem test_stores :
    nexts (exec (.st (fSt 1 1)) sMem) (fun t =>
      match home sMem (acc 1 0 0#64 0#64) with
      | some key => cellNat t.mem key 4 == 0x11111111 && cellNat t.mem (key + 12) 4 == 0x44444444 && cellNat t.mem (key + 16) 4 == 0
      | none => false) &&
    nexts (exec (.sts fSts) sMem) (fun t => cellNat t.team.scratch 0x44 4 == 0x22222222 &&
      nexts (exec (.lds fLds) t) (fun u => (u.weave.loads.map (fun l => l.data.getD 3 none)) == [some 0x44444444#64])) := by
  decide +kernel

/-- The hypotheses of `AtomicRule`. -/
def atomicMeets (s : State) (i : Instr) (f : Fields) (addr : Nat → DWord) (op opc resType : Nat) (wide : Bool) (data cmp : Nat → DWord) (seq : Option Nat) : Bool :=
  let r := atomicFields s opc f
  let m := activeLanes s f
  let lanes := laneAddrs m addr
  let ias := if r.space = 0 then lanes.map (fun (_, va) => (translate s s.team.ctx va.toNat).getD 0) else []
  can s i f && m != 0#32 && (lanesTrap s r.space (elemBytes f) true lanes).isNone && fenceClear s && (myLog s).isEmpty &&
  !orderHold s false r.order ias && !orderHold s true r.order ias &&
  (match (if r.space = 1 then fillLanes lanes (elemBytes f) s else .ok s) with
   | .error _ => false
   | .ok s1 =>
     let u := issueAtomics f r op resType wide data cmp s.ply.pc m lanes s1
     let u := match seq with
       | none => u
       | some k => { u with ply := { u.ply with seqLeft := k } }
     room u i f (mapOnly f wide))

/-- Statement Atomics: each instruction in global memory and on the stack, `red` also in scratch and behind a fence. -/
theorem witness_atomics :
    [(2, 1), (6, 2)].all (fun (a, k) =>
      let f := inSpace (fd 5 a 1 0 6 0) k
      let c := inSpace (fd 5 a 1 1 6 0) k
      let l := inSpace (fd 5 a 0xF0 0 6 0) k
      let z : Nat → DWord := fun _ => 0#64
      atomicMeets sMem (.atom f) f (addrPlain sMem f) 0 0xCA 6 false (dataLane sMem f 1) z none &&
      atomicMeets sMem (.atomCas c) c (addrBase sMem c) 8 0xCB 6 false (dataLane sMem c 2) (dataLane sMem c 1) none &&
      atomicMeets sMem (.lr l) l (addrPlain sMem l) 9 0xCD 6 false z z (some 17) && atomicMeets sMem (.sc f) f (addrPlain sMem f) 10 0xCE 6 false (dataLane sMem f 1) z (some 0) &&
      (let g := inSpace (fd 0xF0 a 1 0 6 0) k
       storeMeets sMem (.red g) g (atomicFields sMem 0xCC g) (addrPlain sMem g) && can sMem (.red (off g)) (off g)) &&
      [Instr.atom (off f), .sc (off f), .lr (off l), .atomCas (off c)].all (fun i => can sMem i ((fieldsOf i).getD f))) := by
  decide +kernel

/-- A failing lane of each kind is found: a window miss, the stack limit, the end of the claim, an odd address. -/
theorem witness_laneTraps :
    laneTrap sMem 0 4 false 0 0x100000#64 == some (0x06, [0x100000#64, 0#64]) && laneTrap sMem 1 4 false 0 0x10800#64 == some (0x07, [0x10800#64, 0#64]) &&
    laneTrap sMem 2 4 false 0 126974#64 == some (0x08, [126974#64, 0#64]) && laneTrap sMem 0 4 true 0 0x10802#64 == some (0x09, [0x10802#64, 0#64]) &&
    (laneTrap sMem 2 4 false 0 126972#64).isNone && (laneTrap sMem 1 4 false 0 0x18FFC#64).isNone &&
    [Instr.ld (fLd 4 1), .ldx (fLdx 4 1), .lds (fd 5 0xC8 0xF0 0 6 0), .st (fSt 4 1), .stx (fStx 4 1), .sts (fd 0xF0 0xC8 1 0 6 0),
      .atom (fd 5 0xC5 1 0 6 0), .atomCas (fd 5 0xC5 1 1 6 0), .red (fd 0xF0 0xC5 1 0 6 0), .lr (fd 5 0xC5 0xF0 0 6 0), .sc (fd 5 0xC5 1 0 6 0)].all
      (fun i => can sMem i ((fieldsOf i).getD Fields.base)) := by
  decide +kernel

/-- R215: the trap names the lane's address and its number. -/
theorem test_laneTraps :
    nexts (exec (.ld (fLd 4 1)) (vec sMem)) (fun t => t.weave.tcause.extractLsb' 56 8 == 6#8 && t.weave.tinfo == [0x100000#64, 0#64, 0#64, 0#64]) &&
    nexts (exec (.atom (fd 5 0xC5 1 0 6 0)) (vec sMem)) (fun t => t.weave.tcause.extractLsb' 56 8 == 9#8) := by
  decide +kernel


/-- R214, R228: `atom.cas` takes the pair v2, v3 itself as the address, compares with v5 (zero) and stores v1's lane; a
compare with v1 fails and returns the zero it read. -/
theorem test_atomCas :
    (home sMem (acc 1 0 0#64 0#64)).any (fun key =>
      nexts (exec (.atomCas (fd 8 2 5 1 6 0)) sMem) (fun t => cellNat t.mem (key + 0x40) 4 == 0x11111111 && cellNat t.mem (key + 0x4C) 4 == 0x44444444) &&
      nexts (exec (.atomCas (fd 8 2 1 1 6 0)) sMem) (fun t => cellNat t.mem (key + 0x40) 4 == 0 &&
        (t.weave.loads.map (fun l => l.data.getD 1 none)) == [some 0#64])) := by
  decide +kernel

/-! ### Fences, prefetch, the tag table, the stack, barriers -/

/-- No operand. -/
def none_ : Fields := fd 0xF0 0xF0 0xF0 0xF0 0 0

/-- A ply of the parked `sMem` with its accesses. -/
def pending (s : State) : State := { s with accs := [acc 0 0 0#64 0#64] }

/-- A checkpoint at 0xF000 with lanes 0 to 7 that recorded line 5 with write timestamp `wts`. -/
def ckpt (lines : List (Nat × Nat)) : FenceCkpt := 
  { pc := 0xF000#64, mask := 0xFF#32, map := regs [9#64] [], scope := 2, lines := lines, queued := [], mark := 100, tagMark := 0, own := [(0xC0, 1#32)] }

/-- Statement Fences: `fence` and `fence.spec` that go on and that wait, and a validation with and without a change. -/
theorem witness_fences :
    can sMem (.fence none_) none_ && fenceClear sMem && allPerformed sMem && can (pending sMem) (.fence none_) none_ && !allPerformed (pending sMem) &&
    can (fenced sMem) (.fence none_) none_ && !fenceClear (fenced sMem) && can sMem (.fenceSpec none_) none_ && sMem.ply.fence.isNone &&
    !fenceOpen sMem && decide (sMem.ply.rolled < 2) && can (fenced sMem) (.fenceSpec none_) none_ &&
    (findWeave (park sMem) 1 0).any (fun w => w.map.v.length == 192 && w.map.s.length == 48) &&
    [([], true), ([(5, 7)], false)].all (fun (ls, holds) =>
      let c := ckpt ls
      let s := { sMem with ply := { sMem.ply with fence := some c } }
      (findWeave (park s) 1 0).any (fun w => w.plies.any (fun p => p.n == 0 && p.fence == some c && p.mask != 0#32) &&
        w.loads.all (fun l => decide (l.tag < c.tagMark))) &&
      fenceDone (park s) 1 0 0 c && c.lines.all (fun l => (tsOf (park s) l.1).wts == l.2) == holds) := by
  decide +kernel

/-- R116, R117, R230: a fence stays open behind an access under way; an invalid speculation returns to the fence with its registers. -/
theorem test_fences :
    nexts (exec (.fence none_) sMem) (fun t => t.ply.pc == 0x10008#64) &&
    nexts (exec (.fence none_) (pending sMem)) (fun t => t.ply.pc == 0x10008#64 && fenceOpen t && t.weave.pends.map (·.fence) == [some 200]) &&
    nexts (exec (.fenceSpec none_) sMem) (fun t => t.ply.pc == 0x10008#64 && (t.ply.fence.map (·.pc)) == some 0x10000#64) &&
    (let s := { sMem with ply := { sMem.ply with fence := some (ckpt [(5, 7)]) } }
     nexts (exec (.fenceSpecValidate 1 0 0) s) (fun t => (plyAt t 1 0 0).any (fun p => p.pc == 0xF000#64 && p.mask == 0xFF#32 && p.rolled == 1) &&
       ((findWeave t 1 0).map (fun w => weaveScalar w 0)) == some 9#64)) := by
  decide +kernel

/-- A load of v5 by lanes 0 and 1 whose data is there, and a pending entry of a long class. -/
def sLoad (wide : Bool) : State :=
  { sMem with weave := { sMem.weave with
      loads := [{ tag := 3, ply := 0, pc := 0#64, dst := 4, type := 6, wide := wide, mask := 3#32
                  data := [some 0x1122334455667788#64, some 2#64] ++ List.replicate 30 none }]
      pends := 
        [{ tag := 3, ply := 0, codes := [4], long := true, left := 4, timed := false }, { tag := 4, ply := 0, codes := [9], long := true, left := 4, timed := true },
          { tag := 5, ply := 0, codes := [], long := true, left := 4, timed := false, fence := some 0 }] } }

/-- Statement PrefetchAndResults. -/
theorem witness_prefetchAndResults :
    can sMem (.pref (fd 0xF0 0xC1 0xF0 0 0 0)) (fd 0xF0 0xC1 0xF0 0 0 0) &&
    [false, true].all (fun wide => (findWeave (park (sLoad wide)) 1 0).any (fun w => !w.plies.isEmpty && w.plies.all (·.mask != 0#32) &&
      !w.evicted && w.region.isNone && (w.loads.find? (·.tag == 3)).any (fun l => l.bad.isNone && l.more.isEmpty && isV l.dst && decide (l.dst + 1 < 192) && l.full))) &&
    (let s := sLoad false
     let s := { s with weave := { s.weave with loads := s.weave.loads.map (fun l => { l with bad := some 7 }) } }
     (findWeave (park s) 1 0).any (fun w => (w.loads.find? (·.tag == 3)).any (fun l => l.bad == some 7 && l.full))) := by
  decide +kernel

/-- R188, R216: the lanes that the load names are written, the pending entry goes; R52: so does a timed one. -/
theorem test_results :
    nexts (exec (.loadDataReturn 1 0 3) (sLoad true)) (fun t => (findWeave t 1 0).any (fun w =>
      weaveLane w 4 0 == 0x55667788#32 && weaveLane w 5 0 == 0x11223344#32 && weaveLane w 4 1 == 2#32 && weaveLane w 4 2 == 0x40#32 &&
      w.loads.isEmpty && w.pends.map (·.tag) == [4, 5])) &&
    nexts (exec (.longLatencyResultWrite 1 0 4) (sLoad true)) (fun t => (findWeave t 1 0).any (fun w => w.pends.map (·.tag) == [3, 5])) &&
    nexts (exec (.longLatencyResultWrite 1 0 5) (sLoad true)) (fun t => (findWeave t 1 0).any (fun w => w.pends.map (·.tag) == [3, 4])) := by
  decide +kernel

/-- The table with an entry for the address of lane 1 of v2, v3. -/
def sTags : State := { sMem with team := { sMem.team with tags := [(2, 0x8000000000010800#64)], tagAge := [2] } }

def fTlook : Fields := fd 8 0xC1 0xF0 0xF0 0 0
def fTset : Fields := fd 8 2 0 0xF0 0 1
def fTinv : Fields := fd 8 0 0xF0 0xF0 0 0

/-- The index register holds 512, one beyond the table. -/
def sFar : State := { sTags with weave := { sTags.weave with map := regs [] [fun j => 511 + j, fun _ => 0, fun _ => 0x10800, fun _ => 0] } }

/-- Statement TagTable: a hit and a miss; `tset` and `tinv` within and beyond the table. -/
theorem witness_tagTable :
    [sTags, sMem].all (fun s => issues s (.tlook fTlook) fTlook (vDest s fTlook false) && s.team.kernel.tagEntries == 512) &&
    (tagFind sTags.team (tagKey sTags.team 0x10801#64)) == some 2 && (tagFind sMem.team (tagKey sMem.team 0x10801#64)).isNone &&
    [Instr.tset fTset, .tinv fTinv].all (fun i =>
      let f := (fieldsOf i).getD fTset
      can sTags i f && activeLanes sTags f != 0#32 && (List.range 32).all (fun j => low32 sTags f 0 j < 512) && room sTags i f (vecWrite f.d true (activeLanes sTags f) []) &&
      can sFar i f && decide (low32 sFar f 0 0 < 512) && low32 sFar f 0 1 == 512) := by
  decide +kernel

/-- R222 to R224: the hit gives the entry; the miss suggests entry 0, which is invalid; `tset` of four lanes with one key
leaves one entry valid with it; `tinv` returns the entry and clears v and d. -/
theorem test_tagTable :
    nexts (exec (.tlook fTlook) sTags) (fun t => (List.range 4).all (fun j => weaveLane t.weave 8 j == 2#32)) &&
    nexts (exec (.tlook fTlook) sMem) (fun t => weaveLane t.weave 8 0 == 0x80000000#32) &&
    nexts (exec (.tset fTset) sTags) (fun t => tagAt t.team 0 == 0x0000000000010800#64 && tagAt t.team 12 == 0xC000000000010800#64 &&
      tagAt t.team 2 == 0x10800#64 && weaveLane t.weave 8 0 == 0#32) &&
    nexts (exec (.tset fTset) (vec sFar)) (fun t => t.weave.tinfo == [512#64, 1#64, 0#64, 0#64]) := by
  decide +kernel

/-- Statement StackAndMove: `salloc` and `sfree` inside the region, at its ends and beyond; `spmove` in the claim and beyond. -/
theorem witness_stackAndMove :
    [(Instr.salloc (fd 0xC5 0xF0 0xF0 0x80 0 0), true), (.salloc (fd 0xC5 0xF0 0xC1 0 0 0), false),
     (.sfree (fd 0xC5 0xF0 0xF0 0x80 0 0), true), (.sfree (fd 0xC5 0xF0 0xC1 0 0 0), false)].all (fun (i, inside) =>
      let f := (fieldsOf i).getD none_
      let size := stackSize f (activeLanes sMem f) sMem
      can sMem i f && activeLanes sMem f != 0#32 && room sMem i f (sclWrite f.d 0#64) && (decide (0x18000 + size ≤ 0x18800) == inside) &&
      (decide (0x18800 + size ≤ 0x19000) == inside)) &&
    [0x40#64, 126976#64].all (fun d =>
      let s := { sMem with weave := { sMem.weave with map := regs [d, 0x44#64, 16#64] [] } }
      let f := fd 0xF0 0xC0 0xC1 0xC2 0 0
      can s (.spmove f) f && fenceClear s && (myLog s).isEmpty && !orderHold s true 1 [] && s.team.kernel.claim == 126976) := by
  decide +kernel

/-- R232: the cursor moves down to the limit by 0x80 units of 16 bytes and D has it; beyond it the trap names it. R225: an
overlapping move. -/
theorem test_stackAndMove :
    nexts (exec (.salloc (fd 0xC5 0xF0 0xF0 0x80 0 0)) sMem) (fun t => t.weave.cursor == 0x18000 && sVal t 5 == 0x18000#64) &&
    nexts (exec (.salloc (fd 0xC5 0xF0 0xF0 0x81 0 0)) (vec sMem)) (fun t => t.weave.tcause.extractLsb' 56 8 == 7#8 && t.weave.tinfo.getD 0 0#64 == 0x17FF0#64) &&
    (let s := { sMem with weave := { sMem.weave with map := regs [0x44#64, 0x40#64, 8#64] [] }
                          team := { sMem.team with scratch := cellWriteN [] 0x40 [1#8, 2#8, 3#8, 4#8, 5#8, 6#8, 7#8, 8#8] } }
     nexts (exec (.spmove (fd 0xF0 0xC0 0xC1 0xC2 0 0)) s) (fun t => cellNat t.team.scratch 0x40 4 == 0x04030201 && cellNat t.team.scratch 0x44 8 == 0x0807060504030201)) := by
  decide +kernel

/-- A team with a second weave whose plies stand at the barrier or not, and a crew of teams 0 and 1 in slot 0; team 1 is
resident. -/
def sCrew (w : Wait) (c : Crew) (cnt : Word) : State :=
  let s := one [0#64, 0#64, 0x40#64] [fun j => 4 * j, fun j => 0x11111111 * (j + 1)]
  { s with
    weave := { s.weave with crewCnt := [cnt, 0#32, 0#32, 0#32] }
    team := { s.team with crews := 0x100000000#64, weaves := [{ windex := 1, plies := [{ n := 0, pc := 0x10000#64, mask := 1#32, wait := w }] }] }
    teams := [{ uid := 2, lix := 1, kernel := kernel }]
    launches := [{ crews := [c] }] }

/-- Both teams belong to it. -/
def crew2 : Crew := { members := [0, 1], resident := true }

def fArr : Fields := fd 0xC5 0xF0 0xF0 0 0 0
def fWait : Fields := fd 0xF0 0xF0 0xC0 0 0 0

/-- Statement Barriers: the last ply and one that is not the last; an arrival, one too far ahead, a phase complete and
not, a broken crew and one that is not listed. -/
theorem witness_barriers :
    (let s := { sCrew .none crew2 0#32 with accs := [acc 0 0 0#64 0#64] }
     can s (.barTeam none_) none_ && !allPerformed s) && !fenceOpen (sCrew .none crew2 0#32) &&
    [Wait.barTeam, .none].all (fun w => can (sCrew w crew2 0#32) (.barTeam none_) none_ && fenceClear (sCrew w crew2 0#32) && allPerformed (sCrew w crew2 0#32)) &&
    [0#32, 255#32].all (fun cnt =>
      let s := sCrew .none crew2 cnt
      can s (.arriveCrew fArr) fArr && crewSlot s 0 == some 0 && (crewOf s 0).isSome && s.weave.plies.isEmpty && crewOperand fArr (activeLanes s fArr) s == 0 &&
      room s (.arriveCrew fArr) fArr (sclWrite fArr.d 0#64)) &&
    [{ crew2 with done := 1#32 }, crew2, { crew2 with broken := true }].all (fun c =>
      let s := sCrew .none c 0#32
      can s (.waitCrew fWait) fWait && crewOf s 0 == some c) &&
    (let s := { sCrew .none crew2 0#32 with team := {} }
     (crewSlot s 0).isNone) &&
    can (one [0#64] []) (.arriveCrew fArr) fArr && can (one [0#64] []) (.waitCrew fWait) fWait && (crewSlot (one [0#64] []) 0).isNone := by
  decide +kernel

/-- R233, R234: the barrier releases both weaves; an arrival answers the old count; too far ahead it waits. -/
theorem test_barriers :
    nexts (exec (.barTeam none_) (sCrew .barTeam crew2 0#32)) (fun t => t.ply.pc == 0x10008#64 &&
      t.team.weaves.all (fun w => w.plies.all (fun p => p.wait == .none && p.pc == 0x10008#64))) &&
    nexts (exec (.barTeam none_) (sCrew .none crew2 0#32)) (fun t => t.ply.pc == 0x10000#64 && t.ply.wait == .barTeam) &&
    nexts (exec (.arriveCrew fArr) (sCrew .none crew2 7#32)) (fun t => sVal t 5 == 7#64 && t.weave.crewCnt.getD 0 0#32 == 8#32) &&
    nexts (exec (.arriveCrew fArr) (sCrew .none crew2 255#32)) (fun t => t.ply.pc == 0x10000#64) &&
    nexts (exec (.waitCrew fWait) (sCrew .none { crew2 with done := 1#32 } 0#32)) (fun t => t.ply.pc == 0x10008#64) := by
  decide +kernel

def fMst : Fields := fd 0xF0 0xC0 0xC2 1 6 0

/-- Statement MulticastStore. -/
theorem witness_multicastStore :
    let s := sCrew .none crew2 0#32
    (can s (.mst fMst) fMst && activeLanes s fMst != 0#32 && fenceClear s && (myLog s).isEmpty && !orderHold s true (resolve s 0xD7 fMst).order [] &&
      cellsWf s.team.scratch && s.teams.all (fun u => cellsWf u.scratch)) = true := by
  decide +kernel

/-- R236: both members of the crew take the lane's word. -/
theorem test_multicastStore :
    nexts (exec (.mst fMst) (sCrew .none crew2 0#32)) (fun t => cellNat t.team.scratch 0x4C 4 == 0x44444444 && t.teams.all (fun u => cellNat u.scratch 0x4C 4 == 0x44444444)) := by
  decide +kernel

/-! ### The matrix engine -/

/-- Dwords 0 and 1 of a record: format, pitch in 16-byte units, first unit; 32 lines of 32 elements. -/
def rec0 (fmt pitch base : Nat) : DWord := BitVec.ofNat 64 (fmt * 2 ^ 59 + pitch * 2 ^ 43 + 2 ^ 31 + base * 2 ^ 20)
def rec1 : DWord := 0x0020002000000000#64

def resn (id fmt pitch base : Nat) (bytes : List Byte) : Resn :=
  { id := id, d0 := rec0 fmt pitch base, d1 := rec1, tscale := 0#32, base := base, data := cellWriteN [] 0 bytes }

/-- Handle 0: a binary32 accumulator whose element (0, 0) is 1; handle 1: binary16 lines that begin with 1.5; handle 2:
binary16 lines that begin with 2. -/
def sMat : State :=
  let s := one [rec0 5 4 8, rec1, 0#64, 1#64, 2#64, 0xFFFFFFFFFFFFFFFF#64, 0x40#64, 16#64, 5#64, 0x10800#64, 0x80#64, 0x0002000000000403#64, 0x0001000000000000#64]
    [fun j => j]
  paged { s with
    weave := { s.weave with handle := 3 }
    team := { s.team with
      resns := [some (resn 10 1 8 0 (toBytes 4 0x3F800000)), some (resn 11 5 4 1 (toBytes 2 0x3E00)),
        some (resn 12 5 4 2 (toBytes 2 0x4000))] ++ List.replicate 13 none } } []

def fRes (h : Nat) : Fields := long (fd 0xC7 0xC0 0xC1 0xF0 0 h) 0 false 0 0xF0 0xF0
def fRel (h : Nat) : Fields := fd 0xC7 0xF0 0xF0 0xF0 0 h

/-- A command of the team that reads handle 1. -/
def busyCmd (op : EngOp) : EngCmd := { id := 50, uid := 1, owners := [(1, 0)], op := op, reads := [1], rd := 10, ra := 11, rb := 12 }

def withCmds (s : State) (cs : List EngCmd) : State := { s with clusters := [{ site := 27, phys := 0, cmds := cs }] }

/-- Statement MatrixReservationsAndWaits: `obres` of a free handle, of a free handle with a busy range, of a live one, and
of a record without lines; `obrel`; a clear set and one that is not; and both forms of `mstat`. -/
theorem witness_reservations :
    (let r : Resn := { id := sMat.nextId, d0 := rec0 5 4 8, d1 := rec1, base := 8, data := [], tscale := 0#32 }
     r.recordOk && !(mfmt r.fmt).tensor && !{ r with d1 := 0#64 }.recordOk && scl sMat (fRes 3) 0xC0#8 == r.d0 && r.base == 8) &&
    [0, 3].all (fun h => issues sMat (.obres (fRes h)) (fRes h) (sclWrite 0xC7#8 0#64) && (liveRes sMat.team h).isSome == (h == 0) &&
      issues sMat (.obrel (fRel h)) (fRel h) (sclWrite 0xC7#8 0#64)) &&
    !rangeBusy sMat sMat.team.at_ 8 1 && rangeBusy sMat sMat.team.at_ 2 1 && sMat.focused && sMat.team.resns.length == 16 &&
    [0xC2, 0xC4].all (fun a =>
      let s := withCmds sMat [busyCmd .mm]
      let f := fd 0xF0 a 0xF0 0xF0 0 0
      let g := fd 0xC7 a 0xF0 0xF0 0 0
      can s (.mwait f) f && (stillOut s (waitSet (scl s f f.a))).isEmpty == (a == 0xC2) && issues s (.mpoll g) g (sclWrite 0xC7#8 0#64)) &&
    [.mm, .accSt].all (fun op =>
      let s := withCmds sMat [busyCmd op]
      let v := fd 8 0xF0 0xF0 0xF0 0 0
      let c := fd 0xC7 0xF0 0xF0 0xF0 0 1
      issues s (.mstat v) v (vDest s v false) && issues s (.mstat c) c (sclWrite 0xC7#8 0#64)) := by
  decide +kernel

/-- R241, R242, R249, R263: the statuses, and the status dword with one entry held that names handle 1. -/
theorem test_reservations :
    nexts (exec (.obres (fRes 3)) sMat) (fun t => sVal t 7 == 0#64 && (liveRes t.team 3).isSome) &&
    nexts (exec (.obres (fRes 0)) sMat) (fun t => sVal t 7 == 2#64) &&
    nexts (exec (.obrel (fRel 1)) sMat) (fun t => sVal t 7 == 0#64 && (liveRes t.team 1).isNone && (liveRes t.team 0).isSome) &&
    nexts (exec (.obrel (fRel 3)) sMat) (fun t => sVal t 7 == 3#64) &&
    (let s := withCmds sMat [busyCmd .mm]
     nexts (exec (.mwait (fd 0xF0 0xC4 0xF0 0xF0 0 0)) s) (fun t => t.ply.pc == 0x10000#64) &&
     nexts (exec (.mpoll (fd 0xC7 0xC5 0xF0 0xF0 0 0)) s) (fun t => sVal t 7 == 2#64) &&
     nexts (exec (.mstat (fd 0xC7 0xF0 0xF0 0xF0 0 1)) s) (fun t => sVal t 7 == 0x100002#64)) := by
  decide +kernel

/-- The whole gang of weaves 3 and 4; weave 4 has not arrived. -/
def sGang (g : DWord) : State :=
  { sMat with weave := { sMat.weave with gang := g }
              team := { sMat.team with weaves := [{ windex := 1, handle := 4, gang := g, plies := [{ n := 0, mask := 1#32 }] }] } }

def takes (s : State) : Bool := commandReady s && mayPost s && !(clusterHere s).waiting.any (·.uid == s.team.uid) && decide ((clusterHere s).cmds.length < 32) && (clusterHere s).scan == .serve && s.focused

/-- The engines' access table lost the entry of context 1. -/
def sShut : State :=
  { sMat with mem := cellWriteN sMat.mem (regionKey sMat 27 (accTableOff (engineTarget 0))) (List.replicate 8 0#8) }

def fLoad (sp : Bool) (ref : Nat) : Fields := fd 0xF0 (if sp then 0xC6 else 0xC9) ref 0xC7 0 (if sp then 1 else 0)
def fGath : Fields := long (fd 0xF0 0xC3 0 0xF0 0 8) 0 false 1 0xF0 0xF0
def fGang (a : Nat) : Fields := fd 0xC7 a 0xF0 0xF0 0 0
def fJoint (b x : Nat) : Fields := long (fd 0xC2 0xC3 b 0xC5 0 0) 0 false 1 0xC5 x
def fMove (sp : Bool) (d : Nat) : Fields := long (fd d (if sp then 0xC6 else 0xC9) 0xCA 0xC5 10 (if sp then 1 else 0)) 0 false 1 0xC5 0xF0

/-- Statement MatrixCommands. -/
theorem witness_matrixCommands :
    takes sMat && (sMat.weave.gang.extractLsb' 48 3 == 0#3) && sMat.team.leaving.isNone &&
    can sMat (.obload (fLoad true 0xC3)) (fLoad true 0xC3) && can sMat (.obload (fLoad false 0xC3)) (fLoad false 0xC3) &&
    (windowMiss (winsHere sMat) 0x10800 16).isNone && can sMat (.obload (fLoad true 0xC8)) (fLoad true 0xC8) && (liveRes sMat.team 5).isNone &&
    can sMat (.obgath fGath) fGath && (gatherList sMat fGath (activeLanes sMat fGath)).toOption.isSome &&
    [0xCC, 0xCB, 0xC2].all (fun a => issues (sGang 0#64) (.gangSet (fGang a)) (fGang a) (sclWrite 0xC7#8 0#64)) &&
    !gangLayout 0x0001000000000000#64 3 && gangLayout 0x0002000000000403#64 3 && gangLayout 0#64 3 &&
    (gangMembers 0x0002000000000403#64).all (fun h => (weaveByHandle (sGang 0#64) h).any (fun x => x.1.launch == 0)) &&
    (weaveByHandle sMat 4).isNone && issues sMat (.gangSet (fGang 0xCB)) (fGang 0xCB) (sclWrite 0xC7#8 0#64) &&
    room (setGang (sGang 0#64) 0x0002000000000403#64) (.gangSet (fGang 0xCB)) (fGang 0xCB) (sclWrite 0xC7#8 0#64) &&
    [(Instr.mm (fJoint 0xC4 0xC5), EngOp.mm), (.mtr (fJoint 0xF0 0xF0), .mtr), (.mperm (fJoint 0 0xF0), .mperm), (.mrsum (fJoint 0xF0 0xC5), .mrsum)].all
      (fun (i, op) =>
        let f := (fieldsOf i).getD none_
        let cmd (s : State) := jointCmd s.team f op (opcodeOf i) s.team.kernel.recomb (jointVals s f (activeLanes s f) op)
        let dead := { sMat with team := { sMat.team with resns := List.replicate 16 none } }
        let g : DWord := 0x0002000000000403#64
        can sMat i f && (cmd sMat).toOption.isSome && can dead i f && (cmd dead).toOption.isNone &&
        can (sGang g) i f && commandReady (sGang g) && (clusterHere (sGang g)).latch.isEmpty &&
        (gangMembers g).all (fun h => (weaveByHandle (sGang g) h).any (fun (x : Team × Weave) => x.2.gang == g)) && (gangMembers g).length == 2) &&
    [0xC2, 0xC8].all (fun a => can sMat (.accZero (fd 0xF0 a 0xF0 0xF0 0 0)) (fd 0xF0 a 0xF0 0xF0 0 0)) &&
    (can sShut (.accZero (fd 0xF0 0xC2 0xF0 0xF0 0 0)) (fd 0xF0 0xC2 0xF0 0xF0 0 0) && commandReady sShut && !mayPost sShut && freeFid sShut 27 == some 0) &&
    [true, false].all (fun sp =>
      let f := fMove sp 0xC2
      let d := fMove sp 0xC8
      can sMat (.accLd f) f && can sMat (.accSt f) f && can sMat (.accLd d) d && can sMat (.accSt d) d && tileOk 0#64 false && tileOk 5#64 false &&
      tyOf f == accTy 1 && (accStTypes 1).contains (tyOf f) &&
      (let e : EngCmd := { op := .accLd, rd := 10, d := 0#64, a := scl sMat f f.a, b := 0x80#64, rows := scl sMat f f.c, cols := scl sMat f f.e, shape := 16, sp := sp }
       (accRangeTrap sMat (activeLanes sMat f) e (resn 10 1 8 0 []) 4).isNone)) := by
  decide +kernel

/-- R246, R248: alone, the command enters the table; in a gang the first member waits; R239: a dead handle traps. -/
theorem test_joint :
    nexts (exec (.mm (fJoint 0xC4 0xC5)) sMat) (fun t => t.ply.pc == 0x10010#64 && (clusterHere t).cmds.map (fun e => (e.op, e.writes, e.reads)) == [(.mm, [0], [1, 2])]) &&
    nexts (exec (.mm (fJoint 0xC4 0xC5)) (sGang 0x0002000000000403#64)) (fun t => t.ply.wait == .rendezvous && (clusterHere t).cmds.isEmpty) &&
    nexts (exec (.accZero (fd 0xF0 0xC2 0xF0 0xF0 0 0)) sShut) (fun t => t.ply.wait == .fetch && (clusterHere t).cmds.isEmpty &&
      t.pendings.map (fun (p : Pending) => (p.home, p.kind)) == [(27, 3)]) &&
    nexts (exec (.accZero (fd 0xF0 0xC8 0xF0 0xF0 0 0)) (vec sMat)) (fun t => t.weave.tcause.extractLsb' 56 8 == 0x0A#8 && t.weave.tinfo.getD 0 0#64 == 5#64) &&
    nexts (exec (.gangSet (fGang 0xCB)) (sGang 0#64)) (fun t => t.weave.gang == 0x0002000000000403#64 && sVal t 7 == 0#64) := by
  decide +kernel

/-- The table with one command, started or not. -/
def sRun (e : EngCmd) : State := withCmds sMat [e]

/-- A multiplication, and transfers, of the team. -/
def mm16 (started : Bool) : EngCmd :=
  { busyCmd .mm with d := 0#64, a := 1#64, b := 2#64, rows := 0xFFFF#64, cols := 0xFFFF#64, depth := 0xFFFF#64, shape := 16, writes := [0], started := started }

def load16 : EngCmd := { busyCmd .obload with rd := 11, reads := [], writes := [1], a := 0x40#64, b := 1#64, depth := 16#64, sp := true, started := true }

/-- Statement MatrixWork: grants, a promotion, the end of a pass and of a transfer; and the hypotheses of the product. -/
theorem witness_matrixWork :
    chooseGrant [mm16 false, load16] == some (mm16 false) && (chooseGrant [busyCmd .obgath]).isSome &&
    [mm16 false, busyCmd .obgath].all (fun e =>
      let q := park (sRun e)
      let c := findCluster q 27 0
      c.scan == .serve && c.waiting.isEmpty && q.teams.all (fun t => t.leaving.isNone) && chooseGrant c.cmds == some e && e.glist.isNone) &&
    [mm16 true, load16, { busyCmd .accZero with started := true }].all (fun e =>
      let q := park (sRun e)
      ((findCluster q 27 0).cmds.find? (fun x => x.started && x.op.isPass == e.op.isPass && x.fid.isNone)) == some e &&
      (findTeam q 1).isSome && (findRes q 1 e.rd).isSome && (findRes q 1 11).isSome &&
      !passBad e (resn 10 1 8 0 []) (resn 11 5 4 1 []) (resn 12 5 4 2 [])) &&
    isAccFmt (resn 10 1 8 0 []).fmt && (resn 10 1 8 0 []).recordOk && cellsWf (resn 10 1 8 0 (toBytes 4 0x3F800000)).data := by
  decide +kernel

/-- R251, R252: 1 + 1.5 · 2 is 4 in element (0, 0), the others stay 0; the command leaves the table and the weave has the
event; R243: the transfer brings the claim's bytes. -/
theorem test_matrixWork :
    nexts (exec (.matrixPassEnd 27 0) (sRun (mm16 true))) (fun t => (findCluster t 27 0).cmds.isEmpty &&
      (findWeave t 1 0).any (·.evEngine) && (findTeam t 1).any (fun u => (u.resns.getD 0 none).any (fun r =>
        accCode r (tileRef 0#64) 0 0 == 0x40800000 && accCode r (tileRef 0#64) 0 1 == 0 && accCode r (tileRef 0#64) 1 0 == 0))) &&
    (let s := { sRun load16 with team := { sMat.team with scratch := cellWriteN [] 0x40 (toBytes 4 0xDEADBEEF) } }
     nexts (exec (.transferEnd 27 0) s) (fun t => (findTeam t 1).any (fun u => (u.resns.getD 1 none).any (fun r => cellNat r.data 0 8 == 0xDEADBEEF)))) &&
    nexts (exec (.engineGrant 27 0) (sRun (mm16 false))) (fun t => (findCluster t 27 0).cmds.map (·.started) == [true]) &&
    nexts (exec (.commandAgePromotion 27 0 50) { sRun (mm16 false) with cyc := 16384 }) (fun t => (findCluster t 27 0).cmds.map (·.promoted) == [true]) := by
  decide +kernel

/-! ### Copies, remote operations, launches, signals, system instructions -/

/-- The claim holds at 0x40 a copy of three 4-byte elements from 0x100 to 0x104 with strides of 4 (R267), and 0xA, 0xB,
0xC, 0xD at 0x100. -/
def sCopy : State :=
  let s := one [0x40#64, 0x41#64, 0x10800#64, 0x100#64, 16#64, 0#64, 1#64, 0xFFFFFFFF#64, 0x4000000000010800#64, 0#64, 8#64] [fun j => 0x10800 + j, fun _ => 0]
  let desc := toBytes 8 (2 ^ 59 + 2 ^ 58 + 2 * 2 ^ 55) ++ toBytes 8 0x100 ++ toBytes 8 0x104 ++ toBytes 8 (3 * 2 ^ 40 + 4) ++ toBytes 8 4
  let words := toBytes 4 0xA ++ toBytes 4 0xB ++ toBytes 4 0xC ++ toBytes 4 0xD
  paged { s with team := { s.team with scratch := cellWriteN (cellWriteN [] 0x40 desc) 0x100 words }, launches := [{ nx := 2 }] } []

def fCopy (a : Nat) : Fields := fd 0xCC a 0xF0 0xF0 0 1
def fXw (a : Nat) : Fields := fd 0xF0 a 0xF0 0xF0 0 0
def fRn (a : Nat) : Fields := fd 0xCC a 0xF0 0xF0 0 1

/-- A copy with handle 1 of the weave, promised for `p`. -/
def sOut (p : DWord) : State :=
  { sCopy with weave := { sCopy.weave with handles := [⟨1, true, p⟩], nextHandle := 2 }
               clusters := [{ site := 27, phys := 0, copies := [{ id := 30, uid := 1, h := 1, dims := [⟨3, 4, 4⟩], lgel := 2, ssp := true, dsp := true, promise := p }] }] }

/-- Statement Copies: an accepted copy, a descriptor that is not aligned, no handle outstanding, one with its promise ahead
and one with its promise missed, and a fresh promise. -/
theorem witness_copies :
    (let f := fCopy 0xC0
     let m := activeLanes sCopy f
     can sCopy (.xcopy f) f && m != 0#32 && commandReady sCopy && mayPost sCopy && (scl sCopy f f.a == 0x40#64) &&
     (match readDwords sCopy true m 0x40 1, readDwords sCopy true m 0x40 5 with
      | .ok _ d0, .ok s1 d => ((d0.getD 0 0#64).extractLsb' 60 4 == 0#4) && (copyTrap s1 m 0x40#64 d (copyOf d)).isNone &&
          room (acceptCopy (spoilCopy s1 (copyOf d)) f (copyOf d)).1 (.xcopy f) f [.s 12 0#64, .s 13 0#64]
      | _, _ => false)) &&
    can sCopy (.xcopy (fCopy 0xC1)) (fCopy 0xC1) &&
    can sCopy (.xwait (fXw 0xC7)) (fXw 0xC7) && (xwaitSet sCopy (fXw 0xC7) (activeLanes sCopy (fXw 0xC7))).isEmpty &&
    [0xC6, 0xC7].all (fun a => [0xFFFFFFFFFFFFFFFF#64, 0#64].all (fun p =>
      can (sOut p) (.xwait (fXw a)) (fXw a) && xwaitSet (sOut p) (fXw a) 0xF#32 == [1])) &&
    issues sCopy (.xwaitRn (fRn 0xC6)) (fRn 0xC6) (sclWrite 0xCC#8 0#64) && (findCopy sCopy 1 0 1).isNone &&
    (match findCopy (sOut 0#64) 1 0 1 with
     | some (k, c) => can (sOut 0#64) (.xwaitRn (fRn 0xC6)) (fRn 0xC6) && room (renewCopy (sOut 0#64) k c).1 (.xwaitRn (fRn 0xC6)) (fRn 0xC6) (sclWrite 0xCC#8 0#64)
     | none => false) := by
  decide +kernel

/-- R265, R268: the first handle is 1, and the copy stands at the engine; R268: an address that is no multiple of 8 raises
engine-operand. -/
theorem test_copies :
    nexts (exec (.xcopy (fCopy 0xC0)) sCopy) (fun t => sVal t 13 == 1#64 && t.ply.pc == 0x10008#64 &&
      (clusterHere t).copies.map (fun c => (c.h, c.dims, c.sbase, c.dbase)) == [(1, [⟨3, 4, 4⟩], 0x100#64, 0x104#64)]) &&
    nexts (exec (.xcopy (fCopy 0xC1)) (vec sCopy)) (fun t => t.weave.tcause.extractLsb' 56 8 == 0x0B#8 && t.weave.tinfo.getD 0 0#64 == 0x41#64) := by
  decide +kernel

/-- The four remote operations with their operands; `bad` has 8 as the control word, cas. -/
def fRem (k : Nat) (bad : Bool) : Instr × Fields :=
  let c := if bad then 0xCA else 0xC5
  match k with
  | 0 => (.xput (long (fd 0xCC 0xC2 0xC3 0xC4 0 1) 0 false 0 0xF0 c), long (fd 0xCC 0xC2 0xC3 0xC4 0 1) 0 false 0 0xF0 c)
  | 1 => (.xget (long (fd 0xCC 0xC3 0xC2 0xC4 0 1) 0 false 0 0xF0 c), long (fd 0xCC 0xC3 0xC2 0xC4 0 1) 0 false 0 0xF0 c)
  | 2 => (.xred (long (fd 0xCC 0xC2 0xC3 0xC4 6 1) 0 false 0 0xF0 c), long (fd 0xCC 0xC2 0xC3 0xC4 6 1) 0 false 0 0xF0 c)
  | _ => (.xatom (long (fd 0xCC 0xC2 0xC4 0xF0 (if bad then 10 else 6) 1) 0 false 0 0xC3 c), long (fd 0xCC 0xC2 0xC4 0xF0 (if bad then 10 else 6) 1) 0 false 0 0xC3 c)

/-- Statement RemoteOperations. -/
theorem witness_remoteOperations :
    (List.range 4).all (fun k =>
      let (i, f) := fRem k false
      let x := remoteArgs sCopy f k
      let count := if k == 3 then 0#64 else scl sCopy f f.c
      let (j, g) := fRem k true
      let full := { sCopy with weave := { sCopy.weave with handles := (List.range 32).map (fun h => ⟨h + 1, false, 0#64⟩) } }
      can sCopy i f && commandReady sCopy && (remoteTrap sCopy f 0xF#32 x count).isNone &&
      room (postRemote (spoil sCopy) f x).1 i f (sclWrite f.d 0#64) &&
      can sCopy j g && (remoteTrap sCopy g 0xF#32 (remoteArgs sCopy g k) count).isSome && can full i f) := by
  decide +kernel

/-- R273: each takes handle 1 and stands at the endpoint; a control word that it may not have raises engine-operand. -/
theorem test_remoteOperations :
    (List.range 4).all (fun k =>
      nexts (exec (fRem k false).1 sCopy) (fun t => sVal t 12 == 1#64 && t.remotes.map (fun o => (o.kind, o.h)) == [(k, 1)]) &&
      nexts (exec (fRem k true).1 (vec sCopy)) (fun t => t.weave.tcause.extractLsb' 56 8 == 0x0B#8)) := by
  decide +kernel

def fLw : Fields := fd 0xCC 0xC2 0xC3 0xF0 0 0
def fLl : Fields := fd 4 0 0 0xF0 0 1
def fSig (a : Nat) : Fields := fd 0xCC a 0xC6 0xF0 0 0
def fEvrec : Fields := fd 0xF0 0xC2 0xC6 0xF0 0 1

/-- The owner's answer: lane 0 child 5, lanes 1 to 3 rejected for reason 2. -/
def answered (perLane : Bool) : State :=
  { sCopy with launchAns := [{ req := { site := 27, uid := 1, windex := 0, ply := 0, tag := 90, parent := 0, perLane := perLane, items := [], fields := fLw }
                               limit := false, results := [(0, 5, 0), (1, 0xFFFFFFFF, 2), (2, 0xFFFFFFFF, 2), (3, 0xFFFFFFFF, 2)] }] }

/-- The same on site 26, from which the page is far. -/
def sAfar : State := { sCopy with team := { sCopy.team with at_ := ⟨26, 0, 0⟩ } }

/-- Statement LaunchesAndSignals. -/
theorem witness_launchesAndSignals :
    [(Instr.launchW fLw, false), (.launchL fLl, true)].all (fun (i, perLane) =>
      let f := (fieldsOf i).getD fLw
      can sCopy i f && commandReady sCopy && decide (requestsOf sCopy 27 + (launchLanes perLane 0xF#32).length ≤ 64) &&
      !overPeak sCopy (launchDst f perLane) && !overPool sCopy (launchDst f perLane) && !(launchCodes f perLane).isEmpty &&
      can (answered perLane) i f && ((answered perLane).launchAns.find? (fun x => x.req.mine (answered perLane))).any (fun ans =>
        room (answered perLane) i f (launchWrites f 0xF#32 ans))) &&
    issues sCopy (.launchW (off fLw)) (off fLw) (sclWrite 0xCC#8 0#64) && activeLanes sCopy (off fLw) == 0#32 && can sCopy (.launchL (off fLl)) (off fLl) &&
    [0xC5, 0xC6, 0xC4].all (fun a => issues sCopy (.gsig (fSig a)) (fSig a) (sclWrite 0xCC#8 0#64) &&
      room (signalTeam (spoil sCopy) 0).1 (.gsig (fSig a)) (fSig a) (sclWrite 0xCC#8 0#64)) &&
    can sCopy (.gsig (fSig 0xC8)) (fSig 0xC8) && (windowMiss (winsHere sCopy) 0x10800 52).isNone && (findLaunch sCopy 0).any (fun l => l.nx == 2) &&
    room (signalNode (spoil sCopy) 0xF#32 0x10800 1#64) (.gsig (fSig 0xC8)) (fSig 0xC8) (sclWrite 0xCC#8 0#64) &&
    can sCopy (.evrec fEvrec) fEvrec &&
    [(sCopy, true), (sAfar, false)].all (fun (s, near) =>
      let a := (scl s fEvrec 0xC2#8).toNat
      can s (.evrec fEvrec) fEvrec && a % 16 == 0 && (windowMiss (winsHere s) a 16).isNone && commandReady s &&
      evPerformed (storeDword (spoil s) 0xF#32 (a + 8) 0#64 1) 1 0 0 == near) &&
    evDue (park sCopy) == [] && evDue (park { sCopy with ply := { sCopy.ply with wait := .evrec 0x10800 fEvrec } }) == [(1, 0, 0)] := by
  decide +kernel

/-- R277: the request, and both answers; R282: no such team is 1, the own team takes the signal; R283: the tag with the
site in dword 1, and the ply stands until it is performed. -/
theorem test_launchesAndSignals :
    nexts (exec (.launchW fLw) sCopy) (fun t => t.ply.wait == .launch && t.launchReqs.map (·.items) == [[(0, 0x10800#64, 0x100#64)]]) &&
    nexts (exec (.launchW fLw) (answered false)) (fun t => sVal t 12 == 5#64) &&
    nexts (exec (.launchL fLl) (answered true)) (fun t => weaveLane t.weave 4 0 == 5#32 && weaveLane t.weave 5 0 == 0#32 && weaveLane t.weave 4 1 == 0xFFFFFFFF#32 && weaveLane t.weave 5 1 == 2#32) &&
    nexts (exec (.gsig (fSig 0xC4)) sCopy) (fun t => sVal t 12 == 1#64) &&
    nexts (exec (.gsig (fSig 0xC5)) sCopy) (fun t => sVal t 12 == 0#64 && t.weave.evSignal) &&
    nexts (exec (.evrec fEvrec) sCopy) (fun t => t.ply.pc == 0x10008#64) &&
    nexts (exec (.evrec fEvrec) sAfar) (fun t => t.ply.wait == .evrec 0x10800 fEvrec && t.ply.pc == 0x10000#64 &&
      t.accs.map (fun a => (a.va, a.data)) == [(0x10808, 0x11A000000#64)]) := by
  decide +kernel

/-- At system level: s0 a handler address, s1 one that is not a multiple of 4, s2 the selector of wva 3, s3 a reserved
selector, s4 of wia 3, s5 of wset 0. -/
def sPriv : State :=
  sys (one [0x8000000000020000#64, 0x8000000000020002#64, 3#64, 0x40#64, 0x13#64, 0x20#64, 0x8000000000000000#64] [])

/-- In a handler entered from user level, with another ply stopped. -/
def sTrap : State :=
  { sPriv with weave := { sPriv.weave with pstat := 0x11#64, epc := 0x10040#64, plies := [{ n := 1, mask := 0x10#32, stopped := true }] } }

/-- Site 26 hosts the context too; a window write may be under way. -/
def sHosts (w : Option WinWrite) : State :=
  { sPriv with contexts := [{ tag := 1, part := 0, bound := [(0, 27, 0), (1, 26, 0)], winWrite := w }] }

/-- The write of window 3 by the ply at its `rwin.wr`. -/
def write3 (done : Bool) : WinWrite :=
  { id := 5, uid := 1, windex := 0, ply := 0, pc := 0x10000#64, site := 27, n := 3, win := {}, left := if done then [] else [26], done := done }

/-- Statement PrivilegedRegisters: `rwin.wr` where another site hosts the context, with its write under way and finished. -/
theorem witness_windowWrites :
    (let w := fd 0xF0 0xC4 0xC0 0xF0 0 1
     [none, some (write3 false), some (write3 true)].all (fun x => can (sHosts x) (.rwinWr w) w && (findCtx (sHosts x) 1).winWrite == x && otherHosts (sHosts x) == [26]) &&
     otherHosts sPriv == [] && (findCtx sPriv 1).winWrite.isNone && (write3 true).own (sHosts none) &&
     (winWrite ((findCtx (sHosts none) 1).windows.getD 3 {}) 1 0x8000000000020000#64).isSome) &&
    -- R312: the new value goes to site 26 in class 6, and the ply waits; once acknowledged it goes on
    nexts (exec (.rwinWr (fd 0xF0 0xC4 0xC0 0xF0 0 1)) (sHosts none)) (fun t => t.ply.wait == .retry && t.packets.map (fun (p : Packet) => (p.cls, p.src, p.dst)) == [(6, 27, 26)] &&
      (findCtx t 1).winWrite.isSome) &&
    nexts (exec (.rwinWr (fd 0xF0 0xC4 0xC0 0xF0 0 1)) (sHosts (some (write3 true)))) (fun t => t.ply.pc == 0x10008#64 && (findCtx t 1).winWrite.isNone) := by
  decide +kernel

/-- Statement PrivilegedRegisters. -/
theorem witness_privilegedRegisters :
    (List.range 12).all (fun n => n == 0 || issues sPriv (.rdpv (fd 0xCC n 0xF0 0xF0 0 0)) (fd 0xCC n 0xF0 0xF0 0 0) (sclWrite 0xCC#8 0#64)) &&
    [1, 2, 8, 9].all (fun n => can sPriv (.wrpv (fd n 0xC0 0xF0 0xF0 0 0)) (fd n 0xC0 0xF0 0xF0 0 0)) && tvecOk 0x8000000000020000#64 &&
    can sPriv (.wrpv (fd 1 0xC1 0xF0 0xF0 0 0)) (fd 1 0xC1 0xF0 0xF0 0 0) && !tvecOk 0x8000000000020002#64 &&
    can sTrap (.eret none_) none_ && can sPriv (.eret none_) none_ && sTrap.weave.pstat.getLsbD 4 && !sPriv.weave.pstat.getLsbD 4 &&
    [0xC2, 0xC4, 0xC5].all (fun a =>
      let r := fd 0xCC a 0xF0 0xF0 0 0
      let w := fd 0xF0 a 0xC0 0xF0 0 1
      issues sPriv (.rwinRd r) r (sclWrite 0xCC#8 0#64) && can sPriv (.rwinWr w) w && (winSelect (scl sPriv r r.a)).isSome) &&
    (winWrite {} 1 0x20000#64).isSome && (winWrite { wva := 0x8000000000000000#64 } 1 0#64).isNone &&
    can sPriv (.rwinRd (fd 0xCC 0xC3 0xF0 0xF0 0 0)) (fd 0xCC 0xC3 0xF0 0xF0 0 0) && (winSelect 0x40#64).isNone := by
  decide +kernel

/-- R301, R303: `eret` goes on at `epc` at user level and the stopped ply may issue; R311: a written window register reads
back. -/
theorem test_privileged :
    nexts (exec (.eret none_) sTrap) (fun t => t.ply.pc == 0x10040#64 && t.weave.pstat == 0#64 && t.weave.plies.all (fun p => !p.stopped)) &&
    nexts (exec (.rwinWr (fd 0xF0 0xC4 0xC0 0xF0 0 1)) sPriv) (fun t =>
      nexts (exec (.rwinRd (fd 0xCC 0xC4 0xF0 0xF0 0 0)) t) (fun u => sVal u 12 == 0x8000000000020000#64)) &&
    nexts (exec (.wrpv (fd 1 0xC1 0xF0 0xF0 0 0)) (vec sPriv)) (fun t => t.weave.tcause.extractLsb' 56 8 == 1#8) := by
  decide +kernel

/-- Every target of the page has an access entry for context 1 and one for the core's own activity (R345). -/
def opened (s : State) : State :=
  let ia := 1 * 2 ^ 52 + 27 * 2 ^ 46
  let entry (master : Nat) : List Byte := toBytes 8 (2 ^ 63 + 15 * 2 ^ 54 + master) ++ toBytes 8 ia ++ toBytes 8 (ia + 65536) ++ toBytes 8 0
  { s with mem := (List.range 16).foldl (fun m t =>
      cellWriteN m (regionKey s 27 (accTableOff t)) (entry (2 ^ 32) ++ entry (2 ^ 58 + 0x6C00 * 2 ^ 32))) s.mem }

/-- At system level, with another team of the launch beside it, without a claim: handle 9, one ply. s0 is where the image
goes, s1 its handle, s2 its own, s3 an address that is no multiple of 4,096, s4 the unit of the core, s5 that of the engine,
s6 a cluster that does not exist, s7 a score. -/
def sUnits (leaving : Option Nat) : State :=
  let s := one [0x14000#64, 9#64, 3#64, 0x14008#64, 0x6C00#64, 0x6C20#64, 0xFC00#64, 48#64] []
  let w : Weave := { windex := 0, handle := 9, plies := [{ n := 0, pc := 0x10040#64, mask := 1#32 }] }
  let other : Team := { uid := 2, ctx := 1, lix := 1, team := 1#64, kernel := { kernel with d2 := 0x0408040003E00000#64 }, weaves := [w], leaving := leaving }
  sys (opened (paged { s with weave := { s.weave with handle := 3 }, teams := [other], launches := [{ nx := 2 }] } []))

def fSv (a b : Nat) : Fields := fd 0xCC a b 0xF0 0 0
def fLd1 (a : Nat) : Fields := fd 0xCC a 0xF0 0xF0 0 1

/-- Statement SystemUnits: each clause but those on the result of a scan, which Config leaves open. -/
theorem witness_systemUnits :
    (let a := fun x : Except Nat Team => match x with | .error n => n | .ok _ => 0
     a (ctxsvTarget (sUnits none) 0x14008 9) == 1 && a (ctxsvTarget (sUnits none) 0x14000 8) == 2 && a (ctxsvTarget (sUnits none) 0x14000 3) == 3 &&
     a (ctxsvTarget (sUnits none) 0x14000 9) == 0) &&
    [(0xC3, 0xC1), (0xC0, 0xC7), (0xC0, 0xC2), (0xC0, 0xC1)].all (fun (x, y) => issues (sUnits none) (.ctxsv (fSv x y)) (fSv x y) (sclWrite 0xCC#8 0#64)) &&
    can (sUnits (some 3)) (.ctxsv (fSv 0xC0 0xC1)) (fSv 0xC0 0xC1) && (findTeam (sUnits (some 3)) 2).any (fun u => u.leaving == some 3 && teamQuiet (sUnits (some 3)) u) &&
    issues (sUnits none) (.ctxld (fLd1 0xC3)) (fLd1 0xC3) (sclWrite 0xCC#8 0#64) &&
    [(0xC4, true, false), (0xC5, true, true), (0xC6, false, false)].all (fun (a, live, engine) =>
      let s := sUnits none
      let f (v : Nat) : Fields := fd 0xCC a 0xC7 0xF0 0 v
      let x := scl s (f 0) (BitVec.ofNat 8 a)
      let u := unitIdOf x.toNat
      !unitReserved x && u.engine == engine && (unitExists u && unitScan s u != .quarantined) == live &&
      [Instr.assayCtlRd (f 0), .assayCtlWr (f 1), .assayCtlArm (f 2), .assayCtlDisarm (f 3)].all (fun i =>
        issues s i ((fieldsOf i).getD (f 0)) (sclWrite 0xCC#8 0#64) && issues { s with hookEnabled := true } i ((fieldsOf i).getD (f 0)) (sclWrite 0xCC#8 0#64)) &&
      room (whileParked s (fun t => changeScore t u 48)) (.assayCtlWr (f 1)) (f 1) (sclWrite 0xCC#8 0#64)) &&
    [Instr.scanpassCore (fd 0xCC 0xC1 0xF0 0xF0 0 0), .scanpassEngine (fd 0xCC 0xC1 0xF0 0xF0 0 1)].all (fun i =>
      issues (sUnits none) i ((fieldsOf i).getD none_) (sclWrite 0xCC#8 0#64) && room (tick (sUnits none)) i ((fieldsOf i).getD none_) (sclWrite 0xCC#8 0#64)) &&
    (let s := { sUnits none with teams := [] }
     can s (.haltCore none_) none_ && (coreWeaves s s.team.at_).isEmpty && s.team.weaves.isEmpty && s.focused && !s.weave.ended) &&
    can (sUnits none) (.haltCore none_) none_ && !(coreWeaves (sUnits none) (sUnits none).team.at_).isEmpty := by
  decide +kernel

/-- R316: the score is written and read; the hook arms where `pstat.hook` is set; R317: the core leaves service. -/
theorem test_units :
    nexts (exec (.assayCtlWr (fd 0xCC 0xC4 0xC7 0xF0 0 1)) (sUnits none)) (fun t =>
      nexts (exec (.assayCtlRd (fd 0xCD 0xC4 0xC7 0xF0 0 0)) { t with weave := { t.weave with pends := [] } }) (fun u => sVal u 13 == 48#64 && u.errs.map (fun (e : ErrRec) => e.kind) == [8])) &&
    nexts (exec (.assayCtlArm (fd 0xCC 0xC4 0xC7 0xF0 0 2)) (sUnits none)) (fun t => sVal t 12 == 1#64) &&
    nexts (exec (.assayCtlArm (fd 0xCC 0xC4 0xC7 0xF0 0 2)) { sUnits none with hookEnabled := true }) (fun t => sVal t 12 == 0#64 && (findCore t {}).hook == some 48#32) &&
    nexts (exec (.haltCore none_) { sUnits none with teams := [] }) (fun t => (findCore t {}).halted && !t.focused) := by
  decide +kernel

/-! ### Steps between instructions: plies, weaves, copies, admission -/

/-- The ply waits so; its weave has the engine latch, a copy with handle 1 that was promised for clock p. -/
def sPly (w : Wait) (p : DWord) : State :=
  let s := one [] []
  { s with ply := { s.ply with wait := w, passed := 32, ptsAt := 0 }, cyc := 256
           weave := { s.weave with evEngine := true, handles := [⟨1, true, p⟩], fpflags := 3#7 } }

/-- `Stands` for ply 0 of weave 0 of team 1. -/
def stands (s : State) (p : Ply) : Bool :=
  (findTeam (park s) 1).any (fun t => (t.weaves.find? (·.windex == 0)).any (fun w => w.plies.find? (·.n == 0) == some p))

/-- Statement PlyTurnsAndWaits: each wait, before and after its condition; the two bounds on `cyc` as a site sees it. -/
theorem witness_plyTurnsAndWaits :
    [Wait.none, .yield 0, .yield 1, .sleepUntil 0#64 none, .sleepUntil 0xFFFFFFFFFFFFFFFF#64 (some 1), .sleepUntil 0xFFFFFFFFFFFFFFFF#64 (some 2),
      .sleepEv 1 0 none 0xF0#8, .sleepEv 2 (2 ^ 64) (some 5) 0xF0#8, .xwait [1]].all (fun w => stands (sPly w 0#64) (sPly w 0#64).ply) &&
    (sPly .none 0#64).ply.isReady && (sPly .none 0#64).ply.dueAt.isNone && (sPly .none 0#64).ply.ptsAt + 256 == (sPly .none 0#64).cyc &&
    stands (one [] []) (one [] []).ply && decide ((one [] []).ply.passed < 32) && decide ((one [] []).cyc < (one [] []).ply.ptsAt + 256) &&
    !watchHit (park (sPly .none 0#64)) 1 0 0 := by
  decide +kernel

/-- `cyc` as a site sees it lies between 256 and 258 there: the deadlines 0 and 0 of a wake have passed, those of 2^64 - 1
and 2^64 have not, and the promise 0 of the copy is missed. -/
theorem witness_deadlines (site : Nat) : (0#64).toNat ≤ cycAt (park (sPly .none 0#64)) site ∧
    cycAt (park (sPly .none 0#64)) site < (0xFFFFFFFFFFFFFFFF#64).toNat := by
  have h : cycAt (park (sPly .none 0#64)) site = 256 + Config.skew site % 3 := rfl
  rw [h]
  exact ⟨Nat.zero_le _, by show 256 + Config.skew site % 3 < 18446744073709551615; omega⟩

/-- R27: due after 32; R173: the yield ends at its clock and not before; R175: exactly the selected latch is cleared. -/
theorem test_plyTurns :
    nexts (exec (.plyDue 1 0 0) (sPly .none 0#64)) (fun t => (plyAt t 1 0 0).any (fun p => p.dueAt == some 0)) &&
    nexts (exec (.yieldExpiry 1 0 0) (sPly (.yield 0) 0#64)) (fun t => (plyAt t 1 0 0).any (fun p => p.wait == .none)) &&
    nexts (exec (.yieldExpiry 1 0 0) (sPly (.yield 1) 0#64)) (fun t => (plyAt t 1 0 0).any (fun p => p.wait == .yield 1)) &&
    nexts (exec (.sleepEvWake 1 0 0) (sPly (.sleepEv 1 0 none 0xF0#8) 0#64)) (fun t => (plyAt t 1 0 0).any (fun p => p.wait == .woken 1) &&
      (findWeave t 1 0).any (fun w => !w.evEngine)) &&
    nexts (exec (.sleepEvWake 1 0 0) (sPly (.sleepEv 2 0 none 0xF0#8) 0#64)) (fun t => (plyAt t 1 0 0).any (fun p => p.wait != .woken 1) &&
      (findWeave t 1 0).any (fun w => w.evEngine)) &&
    nexts (exec (.ptsAgeTick 1 0 0) (sPly .none 0#64)) (fun t => (plyAt t 1 0 0).any (fun p => p.pts == 1 && p.ptsAt == 256)) := by
  decide +kernel

/-- Weave 0 stalls for a scalar, or is spilled, its stack cache holding the lines of its area; weaves 1 and 3
hold two and wait; weave 2 is spilled; the deferral of weave 0 has lasted. -/
def sPool (evicted : Bool) (stalled : Bool) (since : Nat) : State :=
  let s := one [0#64] []
  let sleeping (k adm : Nat) (ev : Bool) : Weave :=
    { windex := k, map := regs [0#64, 0#64] [], admitted := adm, evicted := ev, plies := [{ n := 0, mask := 1#32, wait := .barTeam, ready := false }] }
  let area : List Host.Cell := (List.range 31).map (fun k => (0x20000 + 128 * k, 0#8)) ++ [(0x20000 + areaScalars, 42#8)]
  { s with
    cyc := 16384
    weave := { s.weave with stalled := if stalled then some ⟨0, false, true⟩ else none, evicted := evicted,
                            stkTop := 0x20000, stack := if evicted then area else [], defer := some ⟨0, since⟩ }
    team := { s.team with kernel := { kernel with d2 := 0x0408041F0BE00000#64, d1 := 0x00C0003000000000#64 }, weaves := [sleeping 1 5 false, sleeping 2 7 true, sleeping 3 6 false] } }

/-- Statement RegisterPools: the victim is weave 3, admitted last of the two that hold more than their floor. -/
theorem witness_registerPools :
    (let q := park (sPool false true 0)
     (findTeam q 1).any (fun t => (findWeave q 1 0).any (fun w => (residents q t.at_).any (fun u => u.uid == 1) &&
       w.stalled.any (fun st => (t.live.filter (fun v => isVictim t t w v st)).map (·.windex) == [1, 3])))) &&
    (findWeave (park (sPool false false 0)) 1 0).any (fun w => w.stalled.isNone && !w.evicted && w.defer == some ⟨0, 0⟩) &&
    (let q := park (sPool true false 0)
     (findTeam q 1).any (fun t => (findWeave q 1 0).any (fun w => w.evicted &&
       decide ((otherTaken q t w).1 + max t.kernel.vfloor (vHeld w w.plies) ≤ vPoolSize) &&
       decide ((otherTaken q t w).2 + max t.kernel.sfloor (sHeld w w.plies) ≤ sPoolSize) &&
       (match readArea q t w with
        | .ok (u, _) => (findWeave u 1 0).isSome
        | .error _ => false)))) := by
  decide +kernel

/-- R48, R53, R93: weave 3 is spilled; weave 0 comes back; a map in the area with s0 in slot 0 gives it the slot's dword. -/
theorem test_registerPools :
    (findTeam (evictWeave (park (sPool false true 0)) 1 3) 1).any (fun u => (u.weaves.filter (·.evicted)).map (·.windex) == [2, 3]) &&
    (findWeave (refillWeave (park (sPool true false 0)) 1 0) 1 0).any (fun w => !w.evicted) &&
    ((readMap [] [5] 0 (padTo 520 (List.replicate 384 0#8 ++ [0#8, 0x80#8]) ++ toBytes 8 42) 0 512 520).s.getD 0 none).map (·.val) == some 42#64 &&
    nexts (exec (.volatileDeferralEnd 1 0) (sPool false false 0)) (fun t => (findWeave t 1 0).any (fun w => w.defer.isNone)) := by
  decide +kernel

/-- The overlapping copy of three words in the claim, two of which have moved, with handle 1; or all three. -/
def sMoved (pos : Nat) : State :=
  let s := one [] []
  { s with
    weave := { s.weave with handles := [⟨1, true, 9#64⟩, ⟨2, false, 0#64⟩] }
    team := { s.team with scratch := cellWriteN [] 0x100 (toBytes 4 0xA ++ toBytes 4 0xA ++ toBytes 4 0xA ++ toBytes 4 0xD) }
    clusters := [{ site := 27, phys := 0, copies := [{ id := 30, uid := 1, h := 1, dims := [⟨3, 4, 4⟩], lgel := 2, ssp := true, dsp := true,
                                                       sbase := 0x100#64, dbase := 0x104#64, pos := pos, handed := 3 }] }] }

/-- A remote operation with handle 2 whose one line is performed. -/
def sDone : State :=
  { sMoved 0 with remotes := [{ id := 40, uid := 1, site := 27, h := 2, begun := true, lines := [{ id := 41, va := 0, ia := 0, loc := 0, len := 4, stage := .done }] }], clusters := [] }

/-- Statement CopyAndRemoteCompletion. -/
theorem witness_completion :
    [2, 3].all (fun k =>
      let q := park (sMoved k)
      q.remotes.isEmpty && ((findCluster q 27 0).copies.find? (·.id == 30)).any (fun c => c.fid.isNone && c.total == 3 && c.handed == 3 && c.pos == k && (assoc? c.pos c.out).isNone && (findWeave q c.uid c.windex).isSome) &&
      (findTeam q 1).any (fun t => cellsWf t.scratch)) &&
    (park sDone).remotes.all (fun o => o.complete && (findWeave (park sDone) o.uid o.windex).isSome) := by
  decide +kernel

/-- 04, after R104: the third word of the overlapping copy in the claim goes to 0x10C; R265: the handle is free and the
event set; so for the remote operation. -/
theorem test_completion :
    nexts (exec (.copyComplete 27 0 30) (sMoved 2)) (fun t => (findTeam t 1).any (fun u => cellNat u.scratch 0x10C 4 == 0xA) &&
      (findWeave t 1 0).any (fun w => w.handles.map (·.h) == [2] && w.evEngine) && (findCluster t 27 0).copies.isEmpty) &&
    nexts (exec (.remoteOpComplete 40) sDone) (fun t => t.remotes.isEmpty && (findWeave t 1 0).any (fun w => w.handles.map (·.h) == [1] && w.evEngine)) := by
  decide +kernel

/-! ### Steps between instructions: admission -/

/-- Context 1 is bound to cluster 0 of site 27 by affinity bit 0. -/
def bound (s : State) : State := onCtx s 1 (fun c => { c with bound := [(0, 27, 0)] })

/-- A launch of two teams of one weave at site 27, one stack slot each. -/
def launch1 : Launch :=
  { ctx := 1, kernel := { kernel with addr := 0x10000, d0 := 0x40#64 }, nx := 2, nslots := 4, stkbase := 0x400000, stksz := 16, aff := [0], dealt := [(0, 27, 0)]
    args := 0x5000#64, seed := 7#64, lnum := 1, prio := 3, runs := [{ site := 27, first := 0, count := 2, since := 0 }] }

/-- It waits; the subject of the step is site 27. -/
def sWait (l : Launch) (cyc : Nat) : State := bound { launches := [l], subject := [27, 0, 0], cyc := cyc }

/-- Statements StartOfTeam and Admission: one group that fits, and none when no core serves; aging. -/
theorem witness_admission :
    (let q := park (sWait launch1 0)
     let gs := waitingGroups q 27
     gs.map (·.lixs) == [[0]] && (firstFit q 27 gs gs).isSome &&
     gs.all (fun g => g.uids.isEmpty && (match placeGroup q 27 gs g with | .placed _ => true | _ => false) &&
       (findLaunch q g.launch).any (fun l => l.frozen.isEmpty && freeStack l l.kernel.wcount == some [0] &&
         chooseCore q (fun c => !keptFree q gs g c) 27 (l.clustersAt 27) l.kernel l.kernel.wcount == some ({}, [0])))) &&
    (let q := park (sWait { launch1 with dealt := [] } 0)
     let gs := waitingGroups q 27
     !gs.isEmpty && (firstFit q 27 gs gs).isNone) &&
    (findLaunch (park (sWait launch1 (2 ^ 20))) 0).isSome := by
  decide +kernel

/-- Statement Admission: a suspended team whose image does not fit it, and one whose image lies in a page that is not
mapped: neither is placed, and the step is what the mishap calls for. -/
theorem witness_mishaps :
    [([], true), ([1 * 2 ^ 52 + 27 * 2 ^ 46], false)].all (fun (pages, misfit) =>
      let back : Suspended := { uid := 50, lix := 0, site := 27, pages := pages, pool := true, run := .original, since := 0, wdog := none
                                kept := { uid := 50, ctx := 1, kernel := launch1.kernel, weaves := [{ plies := [{ n := 0, mask := 1#32 }] }] } }
      let q := park (sWait { launch1 with runs := [], suspended := [back] } 0)
      let gs := waitingGroups q 27
      gs.map (·.uids) == [[50]] && gs.all (fun g => match placeGroup q 27 gs g with
        | .instead uid m => uid == 50 && decide ((m = .misfit) = (misfit = true))
        | _ => false)) := by
  decide +kernel

/-- R18, R20, R38, R329: team 0 starts on core 0 with its ply of 32 lanes at the entry, s0 the argument block; team 1 still
waits; a run that has waited for 2^20 ticks is aged. -/
theorem test_admission :
    nexts (exec .teamAdmission (sWait launch1 0)) (fun t =>
      t.teams.map (fun (u : Team) => (u.at_, u.lix, u.prio)) == [({}, 0, 3)] && t.launches.map (fun l => l.runs.map (fun r => (r.first, r.count))) == [[(1, 1)]] &&
      t.teams.all (fun u => u.weaves.all (fun w => weaveScalar w 0 == 0x5000#64 && w.srseed == 7#64 && w.cursor == 0x400100 &&
        w.plies.map (fun (p : Ply) => (p.pc, p.mask)) == [(0x10040#64, 0xFFFFFFFF#32)]))) &&
    nexts (exec (.priorityAging 0 1) (sWait launch1 (2 ^ 20))) (fun t => t.launches.map (fun l => l.runs.map (·.aged)) == [[1]]) := by
  decide +kernel

/-- A resident team that takes the whole claim of core 0 with priority `prio`, and the other cores out of service. -/
def sFull (prio : Nat) (split : Bool) : State :=
  let s := sWait launch1 2048
  let t : Team := { uid := 50, ctx := 1, launch := 9, prio := prio, kernel := { kernel with d2 := 0x0408042003E00000#64 }
                    weaves := [{ plies := [{ n := 0, mask := 1#32 }] }] }
  { s with teams := if split then [] else [t]
           cores := [1, 2, 3].map (fun k => { id := ⟨27, 0, k⟩, halted := true }) ++ (if split then [{ id := {}, split := (64, 288, 160) }] else []) }

/-- Core 0 in a state of a split change. -/
def sSplit (st : SplitState) (wanted : Bool) (configAt : Nat) : State :=
  { sWait launch1 100 with launches := if wanted then [launch1] else []
                           cores := [{ id := {}, split := (64, 288, 160), wanted := (128, 256, 128), splitState := st, configAt := configAt }] }

/-- Statement StarvationAndSplit. -/
theorem witness_starvation :
    (let q := park (sFull 1 false)
     (starving q 27).map (·.lixs) == [[0]] && (starving q 27).all (fun g => (preemptFor q 27 (waitingGroups q 27) g).isSome)) &&
    (let q := park (sFull 1 true)
     (starving q 27).map (·.lixs) == [[0]] && (starving q 27).all (fun g => (requestSplit q 27 g).isSome && (preemptFor q 27 (waitingGroups q 27) g).isNone)) &&
    (starving (park (sWait launch1 0)) 27).isEmpty &&
    [SplitState.serve, .drain, .flush, .config].all (fun st => (findCore (park (sSplit st true 36)) {}).splitState == st) &&
    splitWanted (park (sSplit .drain true 0)) {} && !splitWanted (park (sSplit .drain false 0)) {} && (residents (park (sSplit .drain true 0)) {}).isEmpty &&
    !(residents (park (sFull 1 false)) {}).isEmpty && (36 + 64 ≤ 100) && (findCore (park (sSplit .config true 36)) {}).configAt == 36 := by
  decide +kernel

/-- R330: the team of lower priority is asked to leave, or the core drains for the wanted split; R309: its steps. -/
theorem test_starvation :
    nexts (exec .admissionStarvation (sFull 1 false)) (fun t => t.teams.map (·.leaving) == [some 0]) &&
    nexts (exec .admissionStarvation (sFull 3 false)) (fun t => t.teams.map (·.leaving) == [none]) &&
    nexts (exec .splitChangeRequest (sFull 1 true)) (fun t => (findCore t {}).splitState == .drain && (findCore t {}).wanted == (128, 256, 128)) &&
    nexts (exec .splitChangeCancel (sSplit .drain false 0)) (fun t => (findCore t {}).splitState == .serve) &&
    nexts (exec .splitFlush (sSplit .drain true 0)) (fun t => (findCore t {}).splitState == .flush) &&
    nexts (exec .splitConfig (sSplit .flush true 0)) (fun t => (findCore t {}).split == (128, 256, 128) && (findCore t {}).configAt == 100) &&
    nexts (exec .splitServe (sSplit .config true 36)) (fun t => (findCore t {}).splitState == .serve) &&
    nexts (exec .splitServe (sSplit .config true 37)) (fun t => (findCore t {}).splitState == .config) := by
  decide +kernel

/-! ### Steps between instructions: leaving, migration, budgets -/

/-- A team whose load waits for a home fault since clock 0; `leaving` as given; a watchdog of 2 that expires at 3000. -/
def sFault (leaving : Option Nat) (cyc : Nat) : State :=
  let s := one [0#64] []
  { s with
    cyc := cyc, accs := [{ acc 0 0 0#64 0#64 with stage := .fault }]
    pendings := [{ home := 27, fid := 0, unit := 27 * 1024, ctx := 1, page := 0, acc := 0, kind := 3, lvl := 0, ia := 0, lnum := 0, tix := 0, lanes := 1, at_ := 0
                   waiters := [.acc 0] }]
    team := { s.team with leaving := leaving, wdogAt := some 3000 }
    launches := [{ wdog := 2 }] }

/-- Statement LeavingAndWatchdog, but for a save that succeeds, which is too long for the kernel: a team that is not quiet,
one with and without a fault, before and after the bound, and the watchdog on both sides. -/
theorem witness_leaving :
    [(some 0, 0), (some 1, 0), (none, 8191), (none, 8192), (none, 2999), (none, 3000)].all (fun (leaving, cyc) =>
      let q := park (sFault leaving cyc)
      (findTeam q 1).any (fun t => (findLaunch q t.launch).isSome && unitOf q 1 == [1] && q.teams.length == 1 && t.leaving == leaving && teamQuiet q t &&
        faultSince q t == some 0 && !inResidentCrew q t && !coreWanted q t && watchPly t == some (0, 0) && (plyAt q 1 0 0).isSome)) &&
    (findTeam (park (one [] [])) 1).any (fun t => (faultSince (park (one [] [])) t).isNone && !teamQuiet (park (pending (one [] []))) t) := by
  decide +kernel

/-- R331: the bound of 8,192; R332: the trap is due and the watchdog starts anew with 2 · 1,024 ticks. -/
theorem test_leaving :
    nexts (exec (.faultSwapOut 1) (sFault none 8191)) (fun t => t.teams.map (·.leaving) == [none]) &&
    nexts (exec (.faultSwapOut 1) (sFault none 8192)) (fun t => t.teams.map (·.leaving) == [some 1]) &&
    nexts (exec (.watchdogExpiry 1) (sFault none 2999)) (fun t => (plyAt t 1 0 0).any (·.trapDue.isNone)) &&
    nexts (exec (.watchdogExpiry 1) (sFault none 3000)) (fun t => (plyAt t 1 0 0).any (fun p => p.trapDue == some (0x12, 2048#64)) &&
      t.teams.map (·.wdogAt) == [some 5048]) := by
  decide +kernel

/-- Two cycles before its end a window is the same at every site, whatever their skew. -/
theorem inWindow (s : State) (site : Nat) (h : s.cyc % 16384 < 16382) : windowOf s site = s.cyc / 16384 := by
  have := Nat.mod_lt (Config.skew site) (show 3 > 0 by decide)
  unfold windowOf cycAt
  omega

/-- In a window in which a site has used nothing yet, a class may use what its caps allow. -/
theorem mayUse_fresh (s : State) (site cls : Nat) (u : Use) (h : s.cyc % 16384 < 16382)
    (ha : ((findSite s site).actW != s.cyc / 16384) = true) (hb : ((findSite s site).bgtW == s.cyc / 16384) = false)
    (hu : ((List.range 4).all fun r => u.of r == 0 ||
      decide (u.of r ≤ capacityOf s site r * shareOf ((effShares (findSite s site)).getD cls 0#64) r / 256)) = true) :
    mayUse s site cls u = true := by
  simp only [mayUse, spentOf, classCap, sharesNow, inWindow s site h, ha, hb, if_true, Nat.zero_add]
  revert hu
  simp only [List.all_eq_true, Bool.or_eq_true]
  intro hu r hr
  exact .inl (hu r hr)

/-- An activity that a fresh window pays for in full. -/
theorem payOn_fresh (s : State) (key : Nat × Nat × Nat) (site cls : Nat) (need : Use) (h : s.cyc % 16384 < 16382)
    (hp : paidFor s key = {}) (ha : ((findSite s site).actW != s.cyc / 16384) = true) (hb : ((findSite s site).bgtW == s.cyc / 16384) = false)
    (hu : ((List.range 4).all fun r => decide (need.of r ≤ capacityOf s site r * shareOf ((effShares (findSite s site)).getD cls 0#64) r / 256)) = true) :
    payOn s key site cls need = ({ spend s site cls need with payments := (key, need) :: s.payments.filter (·.1 != key) }, true) := by
  have a : need.minus {} = need := rfl
  have c : Use.plus {} need = need := by cases need; simp [Use.plus]
  have g : usable s site cls need = need := by
    simp only [usable, spentOf, classCap, sharesNow, inWindow s site h, ha, hb, if_true, Nat.sub_zero]
    simp only [List.all_eq_true, decide_eq_true_eq, List.mem_range] at hu
    have h0 := hu 0 (by decide); have h1 := hu 1 (by decide); have h2 := hu 2 (by decide); have h3 := hu 3 (by decide)
    cases need
    simp only [Use.mk.injEq]
    refine ⟨?_, ?_, ?_, ?_⟩ <;> split <;> first | rfl | exact Nat.min_eq_left ‹_›
  have d : (need.minus need == {}) = true := by cases need; simp [Use.minus]
  simp only [payOn, hp, a, g, c, d]

/-- The window keeps the shares of its first cycle. -/
def sharesFixed (s : State) (site : Nat) : State := onSite s site (fun x =>
  if x.bgtW == s.cyc / 16384 then x else { x with bgtW := s.cyc / 16384, bgtNow := effShares x })

/-- What a change of shares within a window is, away from its first and last cycles. -/
theorem changeShares_within (s : State) (site : Nat) (f : State → State) (h : (1 ≤ s.cyc % 16384 && s.cyc % 16384 < 16382) = true)
    (hf : ((f (sharesFixed s site)).cyc == s.cyc) = true) :
    changeShares s site f = onSite (f (sharesFixed s site)) site id := by
  have hk := Nat.mod_lt (Config.skew site) (show 3 > 0 by decide)
  simp only [Bool.and_eq_true, decide_eq_true_eq] at h
  have a : windowOf s site = s.cyc / 16384 := by unfold windowOf cycAt; omega
  have b : (cycAt s site % 16384 == 0) = false := by unfold cycAt; simp; omega
  have e : fixShares s site = sharesFixed s site := by simp only [fixShares, sharesFixed, a, b, Bool.or_false]
  have c : (cycAt (f (sharesFixed s site)) site % 16384 == 0) = false := by unfold cycAt; rw [eq_of_beq hf]; simp; omega
  simp only [changeShares, e, settleShares, c, Bool.false_and]
  rfl

/-- A launch with two waiting teams at site 27; site 28 advertises slots for its split; the context is bound to both. -/
def sMig (offers : List Offer) : State :=
  { sWait launch1 16384 with
    adverts := [(27, 28, (128, 256, 128), 5)], subject := [if offers.isEmpty then 27 else 60], offers := offers
    contexts := [{ tag := 1, part := 0, bound := [(0, 27, 0), (0, 28, 0)] }]
    launches := [{ launch1 with dealt := [(0, 27, 0), (0, 28, 0)], runs := if offers.isEmpty then launch1.runs else [{ site := 27, first := 0, count := 2, since := 0, offered := some 60 }] }] }

def offer1 (answer : Option Bool) (arrived : Bool) : Offer :=
  { id := 60, src := 27, dst := 28, launch := 0, kind := 1, first := 0, count := 2, image := 0, answer := answer, arrived := arrived }

/-- Statement Migration: an offer, one that has arrived and not, and both answers. -/
theorem witness_migration :
    (park (sMig [])).launches.length == 1 && (park (sMig [])).launches.all (fun l => (offerOf (park (sMig [])) 27 l).isSome) &&
    [(none, true), (none, false), (some true, true), (some false, true)].all (fun (a, arrived) =>
      let q := park (sMig [offer1 a arrived])
      findOffer q 60 == some (offer1 a arrived) && (findLaunch q 0).isSome && decide (2 ≤ freeTeamSlots q 28 (128, 256, 128)) &&
      (findLaunch q 0).all (fun l => !(l.clustersAt 28).isEmpty)) := by
  decide +kernel

/-- Statement Migration: the migrate budget of the window is untouched. -/
theorem meets_migrateLeft : migrateLeft (park (sMig [])) 27 = true :=
  mayUse_fresh _ 27 3 { mesh := 2 } (by decide +kernel) (by decide +kernel) (by decide +kernel) (by decide +kernel)

/-- R333: the offer of the two teams. -/
theorem test_migrationOffer :
    nexts (exec .migrationOffer (sMig [])) (fun t => t.offers.map (fun (o : Offer) => (o.src, o.dst, o.first, o.count, o.answer)) == [(27, 28, 0, 2, none)]) = true := by
  show nexts (migrationOfferAt 27 (sMig [])) _ = true
  unfold migrationOfferAt event
  simp only [meets_migrateLeft]
  decide +kernel

/-- R334: the acceptance of the offer; the teams go to the target, or stay. -/
theorem test_migration :
    nexts (exec .migrationOfferReceive (sMig [offer1 none true])) (fun t => t.offers.map (·.answer) == [some true]) &&
    [(true, 28), (false, 27)].all (fun (a, dst) =>
      nexts (exec .migrationAnswerReceive (sMig [offer1 (some a) true])) (fun t => t.offers.isEmpty &&
        t.launches.map (fun l => l.runs.map (fun (r : TeamRun) => (r.site, r.offered))) == [[(dst, none)]])) := by
  decide +kernel

/-- Statements Migration and BudgetWindows: at clock 16384 a new advertisement and a new window are due at every site, at
clock 0 none is. -/
theorem witness_windows (site : Nat) :
    (findSite (park { cyc := 16384 }) site).advW < cycAt (park { cyc := 16384 }) site / 4096 ∧
    (findSite (park { cyc := 16384 }) site).bgtW < cycAt (park { cyc := 16384 }) site / 16384 ∧
    cycAt (park {}) site / 4096 ≤ (findSite (park {}) site).advW ∧ cycAt (park {}) site / 16384 ≤ (findSite (park {}) site).bgtW := by
  have h : cycAt (park { cyc := 16384 }) site = 16384 + Config.skew site % 3 := rfl
  have h0 : cycAt (park {}) site = 0 + Config.skew site % 3 := rfl
  have a : (findSite (park { cyc := 16384 }) site).advW = 0 := rfl
  have b : (findSite (park { cyc := 16384 }) site).bgtW = 0 := rfl
  have c : (findSite (park {}) site).advW = 0 := rfl
  have d : (findSite (park {}) site).bgtW = 0 := rfl
  rw [h, h0, a, b, c, d]
  omega

/-- R337: a retraining port takes its reserve from the copies; refresh and scan keep at least 1. -/
theorem test_shares :
    let x : Site := { bgt := [0#64, 0#64, 0x40404040#64, 0#64, 0#64, 0#64, 0#64, 0x10101010#64] }
    (effShare x 2 1 == 64 && effShare { x with dark := 1#16 } 2 1 == 48 && effShare x 4 0 == 1 && effShare x 0 0 == 0) = true := by
  decide +kernel

/-! ### Steps between instructions: ends, requests, queues -/

/-- Little-endian dwords. -/
def dws (xs : List Nat) : List Byte := xs.flatMap (toBytes 8)

/-- Bytes at an offset of the page at 0x10000 (served by target 0 in the first line of each 2 KiB). -/
def put (off : Nat) (bytes : List Byte) (s : State) : State := { s with mem := cellWriteN s.mem (regionKey s 27 0x410000 + off) bytes }

/-- The IA of an offset of the page. -/
def pageIa (off : Nat) : Nat := 1 * 2 ^ 52 + 27 * 2 ^ 46 + off

/-- The end of a team: one with its last weave ended, one that still runs; `sampled` and `eligible` as given. -/
def sEnd (ended sampled eligible ending : Bool) (l : Launch) : State :=
  { teams := [{ uid := 1, launch := 0, sampled := sampled, eligible := eligible, ending := ending, slots := [2], kernel := kernel, weaves := [{ ended := ended }] }]
    launches := [l] }

/-- A launch whose two teams have ended, poisoned or not, with a record or none. -/
def allEnded (poisoned : Bool) (crec : Option (Nat × Nat)) : Launch := { nx := 2, ended := [0, 1], usedSlots := [1], num := 5, poisoned := poisoned, crec := crec }

/-- Statement EndsOfTeamsAndLaunches. -/
theorem witness_ends :
    [(true, false, true, false), (true, true, false, false), (true, true, true, true), (true, true, true, false), (false, false, true, false)].all (fun (e, sa, el, en) =>
      let q := park (sEnd e sa el en { nx := 2, usedSlots := [1, 2] })
      (findTeam q 1).any (fun t => t.run == .original && (findLaunch q t.launch).any (fun l => l.state == 0) && q.pendings.isEmpty && teamDone q t == e &&
        t.sampled == sa && t.eligible == el && t.ending == en)) &&
    [allEnded false none, allEnded true none, allEnded false (some (pageIa 0, pageIa 8))].all (fun l => !l.completed && l.ended.length == l.teams && !l.windowOpen) &&
    { nx := 2 : Launch }.ended.length != { nx := 2 : Launch }.teams := by
  decide +kernel

/-- R179, R364, R366: the slot is free and the team ended; an ineligible sampled one is skipped, an eligible one waits for
its re-run; R281: provisional and assured at once where nothing is open, or poisoned. -/
theorem test_ends :
    nexts (exec (.teamEnd 1) (sEnd true true false false { nx := 2, usedSlots := [1, 2] })) (fun t => t.teams.isEmpty &&
      t.launches.map (fun (l : Launch) => (l.ended, l.usedSlots, l.skipped, l.trials.length)) == [([0], [1], 1, 0)]) &&
    nexts (exec (.teamEnd 1) (sEnd true true true false { nx := 2, usedSlots := [1, 2] })) (fun t =>
      t.launches.map (fun (l : Launch) => (l.skipped, l.trials.map (·.lix))) == [(0, [0])]) &&
    nexts (exec (.teamEnd 1) (sEnd false false true false { nx := 2 })) (fun t => t.teams.length == 1) &&
    nexts (exec (.launchCompletion 0) { launches := [allEnded false none] }) (fun t => t.launches.map (fun (l : Launch) => (l.completed, l.state)) == [(true, 2)]) &&
    nexts (exec (.launchCompletion 0) { launches := [allEnded true none] }) (fun t => t.launches.map (fun (l : Launch) => (l.completed, l.state)) == [(true, 3)]) := by
  decide +kernel

/-- A descriptor (R278) of two teams with priority 3 on affinity bit 0, its header of one weave (R148), and a second
descriptor with a reserved bit. -/
def descriptor : List Byte := dws [0x11000, 2 ^ 32, 3 * 2 ^ 61 + 0x400000, 32 * 2 ^ 32 + 4, 7, 0, 0, 1, 0, 0, 0, 0, 0, 0, 0, 0]
def header : List Byte := dws [0x5A4B010000000040, 0x00C0003000000000, 0x0408041F03E00000, 0, 0, 0, 0, 0]
def sDesc : State :=
  let s := paged {} []
  let c (s : State) : State := onCtx s 1 (fun c => { c with granted := [0], bound := [(0, 27, 0)] })
  c (put 0x3000 (dws [1]) (put 0x1000 header (put 0x800 descriptor { s with nextId := 200 })))

/-- A request of one lane for a child, under a parent that has made n children. -/
def sReq (d : DWord) (n : Nat) : State :=
  { sDesc with launches := [{ key := 0, ctx := 1, nextChild := n, pcap := 7, aff := [0], prio := 7 }], launchCount := 9
               launchReqs := [{ site := 27, uid := 1, windex := 0, ply := 0, tag := 90, parent := 0, perLane := false, items := [(0, d, 0x5000#64)], fields := fLw }] }

/-- The answer for a ply that stands at its `launch.w`, or has gone on. -/
def sAns (w : Wait) : State :=
  { answered false with ply := { sCopy.ply with wait := w } }

/-- Statement LaunchRequests: a child accepted, one beyond the limit, one refused; an answer for a ply that waits and for
one that does not. -/
theorem witness_launchRequests :
    [(0x10800#64, 4), (0x10800#64, 0xFFFFFFFF), (0x13000#64, 4)].all (fun (d, n) =>
      let q := park (sReq d n)
      (q.launchReqs.find? (·.tag == 90)).any (fun r => !readWaits q 90 && !readLost q 90 && requestNext q r && r.order.isNone && (findLaunch q r.parent).any (fun l =>
        !(l.takenAt.1 == q.clk && r.site < l.takenAt.2) && ((reachOwner q r l).launchReqs.find? (·.tag == 90)).any (fun r1 => requestFirst (reachOwner q r l) r1) &&
        l.nextChild == n && l.key != q.nextId && (match checkLaunch (holdReads (forgetRead q 90) (childSubmit l 0x5000#64) (d.toNat % 2 ^ 56)) (childSubmit l 0x5000#64) (d.toNat % 2 ^ 56) with
          | .ok _ => d == 0x10800#64
          | .error (.reject c) => d == 0x13000#64 && c == 3
          | .error (.fault _) => false)))) &&
    [Wait.launch, .none].all (fun w => ((park (sAns w)).launchAns.find? (·.req.tag == 90)).isSome && stands (sAns w) (sAns w).ply && !(sAns w).ply.stopped &&
      (findTeam (park (sAns w)) 1).any (·.leaving.isNone) &&
      nexts (exec (.launchW fLw) (focusOn (park (sAns w)) 1 0 0)) (fun _ => true)) := by
  decide +kernel

/-- Statement LaunchRequests: a request behind one of its site, one that has reached its owner, one of a lower site in the
clock of a higher one, and lanes whose read was cancelled. -/
theorem witness_requestOrder :
    (let s := sReq 0x10800#64 4
     let r : LaunchReq := { site := 27, uid := 1, windex := 0, ply := 1, tag := 89, parent := 0, perLane := false, items := [(0, 0x10800#64, 0#64)], fields := fLw }
     let behind := park { s with launchReqs := r :: s.launchReqs }
     let reached := park { s with launchReqs := { r with order := some 3 } :: s.launchReqs.map (fun x => { x with order := some 4 }) }
     let later := park { s with launches := s.launches.map (fun l => { l with takenAt := (s.clk, 28) }) }
     behind.launchReqs.any (fun x => x.tag == 90 && !requestNext behind x) &&
     reached.launchReqs.any (fun x => x.tag == 90 && x.order == some 4 && !requestFirst reached x) &&
     later.launches.all (fun l => l.takenAt.1 == later.clk && decide (27 < l.takenAt.2)) &&
     nexts (exec (.launchRequest 90) { s with launchReqs := s.launchReqs.map (fun x => { x with lost := [0] }) }) (fun t =>
       t.launchAns.map (·.results) == [[(0, 0xFFFFFFFF, 7)]])) = true := by
  decide +kernel

/-- R280: the child has number 4, two teams to deal to site 27, and status 0; the refused one code 3; R277: the answer
completes the instruction. -/
theorem test_launchRequests :
    nexts (exec (.launchRequest 90) (sReq 0x10800#64 4)) (fun t => t.launchAns.map (·.results) == [[(0, 4, 0)]] && t.launchCount == 10 &&
      t.launches.map (fun (l : Launch) => (l.num, l.nextChild, l.nx, l.prio, l.seed, l.runs.map (fun (r : TeamRun) => (r.site, r.first, r.count)))) ==
        [(0, 5, 1, 7, 0#64, []), (4, 0, 2, 3, 7#64, [(27, 0, 2)])]) &&
    nexts (exec (.launchRequest 90) (sReq 0x13000#64 4)) (fun t => t.launchAns.map (·.results) == [[(0, 0xFFFFFFFF, 3)]]) &&
    nexts (exec (.launchAnswer 90) (sAns .launch)) (fun t => (plyAt t 1 0 0).any (fun p => p.pc == 0x10008#64 && p.wait == .none) &&
      (findWeave t 1 0).any (fun w => weaveScalar w 12 == 5#64)) := by
  decide +kernel

/-- The record of queue 3 (R318): ring, tail and head in the page, context 1, priority 5, 2^4 entries; `bad` sets a
reserved bit, `valid` as given. The head dword is 0 and the tail dword `tail`. -/
def sQrec (valid bad : Bool) (tail : Nat) (qs : List Queue) : State :=
  let rec_ := dws [pageIa 0x1800, pageIa 0x2000, pageIa 0x2800, (if valid then 2 ^ 63 else 0) + 5 * 2 ^ 59 + 2 ^ 32 + (if bad then 2 ^ 5 else 0) + 4, 0, 0, 0, 0]
  { put 0x2000 (dws [tail]) { sDesc with mem := cellWriteN sDesc.mem (regionKey sDesc 27 (0x100000 + 64 * 3)) rec_ } with queues := qs, subject := [27, 3] }

/-- The queue in service with one entry, or none, to take. -/
def queue1 (seen : Nat) : Queue :=
  { id := 70, site := 27, q := 3, ring := pageIa 0x1800, tail := pageIa 0x2000, head := pageIa 0x2800, level := false, pcap := 5, ctx := 1, lgn := 4, tvec := 0#64
    seenTail := seen }

/-- The first entry of the ring. -/
def sEntry (e : List Nat) (pcap : Nat) : State := put 0x1800 (dws e) (sQrec true false 1 [{ queue1 1 with pcap := pcap }])

/-- A graph of one wait node at 0x13000 without predecessors; with a bad magic; with a wrong in-edge count. -/
def sGraphIn (magic npred : Nat) (gs : List Graph) : State :=
  { put 0x3000 (dws [magic * 2 ^ 48 + 2 ^ 40 + 1, 0, 0, 0, 0, 0, 0, 0, 5 * 2 ^ 60 + npred * 2 ^ 32, 2 ^ 64 - 1, 1, 0, 0, 0, 0, 0]) (sEntry [2 * 2 ^ 60 + 0x13000, 0, 0, 0, 0, 0, 0, 0] 5)
    with graphs := gs }

def running : Graph := { id := 400, site := 27, q := 3, ctx := 1, level := false, pcap := 7, tvec := 0#64, hdr := 0x13000, prio := 0, crec := none, nodes := [] }

/-- Statement SubmissionQueues: records valid, ill-formed and not valid; tails within and beyond the ring; an entry of each
kind and for each code. -/
theorem witness_queues :
    [(true, false), (true, true), (false, false)].all (fun (v, b) =>
      let q := park (sQrec v b 0 [])
      (findQueue q 27 3).isNone && ((queueRecord q 27 3).getD 3 0#64).getLsbD 63 == v && recordOk (queueRecord q 27 3) == !b &&
      (match gpWord q 27 1 (pageIa 0x2800) with | .ok x => x == 0#64 | .error _ => false)) &&
    [(true, 16), (true, 17), (false, 0)].all (fun (v, tail) =>
      let q := park (sQrec v false tail [queue1 0])
      (findQueue q 27 3).any (fun x => !readWaits q x.tailId && !x.overflow && !x.tailHeld && !x.begun && (match masterGet q (graphMaster 27 x.ctx) 27 x.tail 8 with
         | .ok (_, bytes, _) => ofBytes bytes == tail
         | .error _ => false))) &&
    (findQueue (park (sQrec true false 0 [{ queue1 0 with tailHeld := true }])) 27 3).any (·.tailHeld) &&
    (findQueue (park (sQrec false false 0 [{ queue1 0 with begun := true }])) 27 3).any (·.begun) &&
    (findQueue (park (sQrec false false 0 [{ queue1 0 with begun := true, overflow := true }])) 27 3).any (·.overflow) &&
    [([3 * 2 ^ 60, 0, 0, 0, 0, 0, 0, 0], false), ([0, 0, 0, 0, 0, 0, 0, 0], true), ([2 ^ 60 + 0x10800, 0, 0, 0, 0, 0, 0, 0], true)].all (fun (e, ok) =>
      match entryInHand (beginEntry (park (sEntry e 5)) 27 3) 27 3 with
      | .ok (_, x, d) => entryOk d == ok && x.id == 70
      | .error _ => false) &&
    [(0x10800, 5, true), (0x10800, 2, true), (0x13000, 5, false)].all (fun (va, pcap, ok) =>
      let q := park (sEntry [2 ^ 60 + va, 0, 0, 0, 0, 0, 0, 0] pcap)
      let q := holdReads q (queueSubmit { queue1 1 with pcap := pcap } 0#64) va
      match checkLaunch q (queueSubmit { queue1 1 with pcap := pcap } 0#64) va with
      | .ok _ => ok && askedPrio q { queue1 1 with pcap := pcap } va == 3
      | .error (.reject c) => !ok && c == 3
      | .error (.fault _) => false) &&
    [(0x4752, 0, true, true), (0x4753, 0, false, true), (0x4752, 1, true, false)].all (fun (magic, np, hok, sok) =>
      let q := gpHold (gpHold (park (sGraphIn magic np [])) ⟨27, 1⟩ 0x13000 64) ⟨27, 1⟩ 0x13040 64
      match gpDwords q ⟨27, 1⟩ 0x13000 8, gpDwords q ⟨27, 1⟩ 0x13040 8 with
      | .ok h, .ok ws => graphHeaderOk q 1 0x13000 h == hok && structureOk [ws] == sok && (findGraph q q.nextId).isNone
      | _, _ => false) := by
  decide +kernel

/-- The codes of dword 7 of the entry as its write is posted (R320, R323): 8 for a reserved kind, 0 for a launch, 10 for a
graph that runs already; R319: a tail 17 ahead of
a ring of 16 overflows. -/
theorem test_queues :
    let code (o : Host.Outcome State Fault Refusal) : Option Nat := match o with
      | .next t => ((t.recWrites.find? (fun (w : RecWrite) => w.ia == pageIa 0x1838)).map (fun w => ofBytes w.bytes % 2 ^ 63)).orElse (fun _ =>
          (home t { acc 0 0 0#64 0#64 with ia := pageIa 0x1838, n := 8 }).bind (fun key => if cellNat t.mem key 8 == 0 then none else some (cellNat t.mem key 8 % 2 ^ 63)))
      | _ => none
    (code (exec .queueEntryNop (sEntry [3 * 2 ^ 60, 0, 0, 0, 0, 0, 0, 0] 5)) == some 8 &&
     code (exec .queueEntryLaunch (sEntry [2 ^ 60 + 0x10800, 0, 0, 0, 0, 0, 0, 0] 5)) == some 0 &&
     code (exec .queueEntryGraph (sGraphIn 0x4752 0 [running])) == some 10 &&
     nexts (exec .queueTailObserved (sQrec true false 17 [queue1 0])) (fun t => t.queues.map (·.overflow) == [true]) &&
     nexts (exec .queueTailObserved (sQrec true false 16 [queue1 0])) (fun t => t.queues.map (·.seenTail) == [16]) &&
     nexts (exec .queueRecordService (sQrec true false 0 [])) (fun t => t.queues.map (fun (x : Queue) => (x.pcap, x.ctx, x.lgn)) == [(5, 1, 4)])) = true := by
  decide +kernel

/-! ### Steps between instructions: graphs, assay -/

/-- Dwords 0 to 5 of a node: kind, in-edges, successor 1 in slot 0, argument, and for a test `value == cmp`. -/
def nodeD (kind npred arg cmp d5 : Nat) : List DWord :=
  [BitVec.ofNat 64 (kind * 2 ^ 60 + npred * 2 ^ 32), 0xFFFFFFFFFFFF0001#64, BitVec.ofNat 64 arg, 0xFFFFFFFFFFFFFFFF#64, BitVec.ofNat 64 cmp, BitVec.ofNat 64 d5]

/-- A graph of a node and its successor; the subject of the step is node 0. -/
def sGraph (x : GNode) (ts : List (Nat × Bool)) (f : Graph → Graph) : State :=
  { put 0x3070 (dws [5]) sDesc with
    subject := [400, 0]
    graphs := [f { running with nodes := [x, { d := nodeD 5 1 1 0 0 }], tokens := ts }] }

/-- Node 0 runs with the given dwords. -/
def sNode (kind arg cmp d5 : Nat) (f : Graph → Graph) : State := sGraph { d := nodeD kind 0 arg cmp d5, state := 1 } [] f

/-- A launch that has come to its end in a state. -/
def sKernelEnd (state : Nat) : State :=
  { sGraph { d := nodeD 1 0 0x10800 0 0, state := 1, launch := some 7 } [] id with launches := [{ key := 7, completed := true, state := state }] }

/-- Statement Graphs: tokens that are not the last, that skip and that run; a condition and loop on a dword 5, a launch
accepted and refused, launches at their end, a wait on a count of 5, and the ends of a graph. -/
theorem witness_graphs :
    [(2, false), (1, false), (1, true)].all (fun (np, run) =>
      let q := park (sGraph { d := nodeD 5 np 0 0 0 } [(0, run)] id)
      (findGraph q 400).any (fun g => g.starts.isEmpty && g.tokens.find? (·.1 == 0) == some (0, run) &&
        (g.nodes[0]?).any (fun x => !x.gotRun && nodePred x.d == np && nodeKind x.d == 5))) &&
    [(sNode 3 0x13070 5 0 id, 3), (sNode 4 0x13070 5 0x100010000 id, 4), (sNode 5 5 0 0 id, 5), (sNode 5 6 0 0 id, 5)].all (fun (s, kind) =>
      let q := park s
      (findGraph q 400).any (fun g => g.tokens.isEmpty && !readWaits q (nodeId g 0) && bodyIdle g 0 && (translate q g.ctx (g.hdr + 64 + 48)).isSome &&
        (g.nodes[0]?).any (fun x => x.state == 1 && nodeKind x.d == kind && (kind != 4 || decide (0 < (loopBody x.d).1))) &&
        (match nodeRead q g 0 0x13070 with | .ok v => v == 5#64 | .error _ => false))) &&
    [5, 6].all (fun n =>
      match masterRmw (park (sNode 5 n 0 0 id)) (graphMaster 27 1) 27 (pageIa 0x3070) 4 n false true (subTarget (BitVec.ofNat 32 n)) with
      | .ok (_, old, _) => (subTarget (BitVec.ofNat 32 n) old).isSome == (n == 5)
      | .error _ => false) &&
    [(0x10800, true), (0x13000, false)].all (fun (va, ok) =>
      let q := park (sNode 1 va 0 0 id)
      (findGraph q 400).any (fun g => !readLost q (nodeId g 0) && (g.nodes[0]?).any (fun x => x.launch.isNone &&
        (match checkLaunch (holdReads q (nodeSubmit g 0 x.d) va) (nodeSubmit g 0 x.d) va with
          | .ok _ => ok
          | .error (.reject _) => !ok
          | .error (.fault _) => false)))) &&
    [2, 3].all (fun st => (findLaunch (park (sKernelEnd st)) 7).any (fun l => l.completed && l.state == st)) &&
    (findGraph (park (sGraph { d := nodeD 5 0 1 0 0, state := 2 } [] id)) 400).any (fun g => g.nodes.all (fun x => x.state != 1) && !g.completed && g.starts.isEmpty &&
      g.tokens.isEmpty && g.crec.isNone && graphAssured (park (sKernelEnd 2)) g && !graphAssured (park (sKernelEnd 1)) { g with launches := [7] }) := by
  decide +kernel

/-- The states of the nodes and the tokens of the graph. -/
def shape (o : Host.Outcome State Fault Refusal) : List (List Nat × List (Nat × Bool) × Bool) :=
  match o with
  | .next t => t.graphs.map (fun (g : Graph) => (g.nodes.map (·.state), g.tokens, g.poisoned))
  | _ => []

/-- R324 to R327: a skip goes on as a skip; a true condition sends run to s0, a false one skip; a launch refused fails the
node and poisons the graph; a loop whose test fails is done; a wait whose count is at its target leaves the difference 0. -/
theorem test_graphs :
    (shape (exec .graphToken (sGraph { d := nodeD 5 1 0 0 0 } [(0, false)] id)) == [([3, 0], [(1, false)], false)] &&
     shape (exec .graphToken (sGraph { d := nodeD 5 1 0 0 0 } [(0, true)] id)) == [([2, 0], [(1, true)], false)] &&
     shape (exec .graphToken (sNode 3 0x13070 5 0 id)) == [([2, 0], [(1, true)], false)] &&
     shape (exec .graphToken (sNode 3 0x13070 6 0 id)) == [([2, 0], [(1, false)], false)] &&
     shape (exec .graphToken (sNode 1 0x13000 0 0 id)) == [([4, 0], [(1, false)], true)] &&
     shape (exec .graphToken (sNode 1 0x10800 0 0 id)) == [([1, 0], [], false)] &&
     shape (exec .graphToken (sKernelEnd 3)) == [([4, 0], [(1, false)], true)] &&
     shape (exec .nodeLoop (sNode 4 0x13070 6 0x100010000 id)) == [([2, 0], [(1, true)], false)] &&
     shape (exec .nodeWait (sNode 5 6 0 0 id)) == [([1, 0], [], false)] &&
     nexts (exec .nodeLoop (sNode 4 0x13070 5 0x100010000 id)) (fun t => t.graphs.map (fun (g : Graph) => (g.nodes.map (·.aux), g.tokens)) == [([1, 0], [])]) &&
     nexts (exec .nodeWait (sNode 5 5 0 0 id)) (fun t => shape (.next t) == [([2, 0], [(1, true)], false)]) &&
     nexts (exec .graphCompletion (sGraph { d := nodeD 5 0 1 0 0, state := 2 } [] id)) (fun t => t.graphs.map (fun (g : Graph) => (g.completed, g.state)) == [(true, 2)]) &&
     nexts (exec .graphCompletion (sGraph { d := nodeD 5 0 1 0 0, state := 2 } [] (fun g => { g with poisoned := true }))) (fun t =>
       t.graphs.map (fun (g : Graph) => (g.completed, g.state)) == [(true, 3)])) = true := by
  decide +kernel

/-- A run on core 0 of a cluster. -/
def runAt (cluster : Nat) (digest : DWord) : TrialRun := { core := { cluster := cluster }, digest := digest, engine := false }

/-- A trial of team 0 with its runs so far, in a partition of site 27 alone whose other clusters are quarantined. -/
def sTrial (clusters : List Nat) (runs : List TrialRun) (running : Bool) (ts : List Team) : State :=
  { onSite {} 27 (fun x => { x with part := 3 }) with
    clusters := ((List.range 9).filter (fun k => !clusters.contains k)).map (fun k => { site := 27, phys := k, scan := .quarantined })
    teams := ts, launches := [{ launch1 with site := 27, trials := [{ lix := 0, runs := runs, running := running }], runs := [] }] }

/-- The run under way, ended, with its digest. -/
def rerun (digest : DWord) (ok ended ending : Bool) : Team :=
  { uid := 50, ctx := 1, lix := 0, run := .rerun, at_ := { cluster := 1 }, digest := digest, eligible := ok, ending := ending, kernel := kernel, weaves := [{ ended := ended }] }

/-- Statement Assay. -/
theorem witness_assay :
    (let q := park (sTrial [0] [runAt 0 5#64] false [])
     (findLaunch q 0).any (fun l => l.state == 0 && (l.trials.find? (·.lix == 0)).any (fun t => (trialClusters q t (findSite q l.site).part).isEmpty))) &&
    (let q := park (sTrial [0, 1] [runAt 0 5#64] false [])
     (findLaunch q 0).any (fun l => (freeStack l l.kernel.wcount).isSome && (l.trials.find? (·.lix == 0)).any (fun t =>
       (trialCore q l t (findSite q l.site).part).isSome))) &&
    [(5#64, true, true, false), (6#64, true, true, false), (5#64, false, true, false), (5#64, true, false, false), (5#64, true, true, true)].all (fun (d, ok, ended, ending) =>
      let q := park (sTrial [0, 1] [runAt 0 5#64] true [rerun d ok ended ending])
      q.pendings.isEmpty && (findLaunch q 0).any (fun (l : Launch) => l.suspended.isEmpty) && (trialTeam q 0 0).any (fun z => teamDone q z == ended && z.ending == ending &&
        z.eligible == ok && z.digest == d)) &&
    [(1, false), (2, true)].all (fun (skipped, close) =>
      let q := park { launches := [{ launch1 with kernel := { kernel with d2 := 0#64 }, windowOpen := true, skipped := skipped }] }
      (findLaunch q 0).any (fun l => l.windowOpen && !stateHeld q 0 && (l.skipped + l.matched + l.mismatched == sampledTotal l) == close)) := by
  decide +kernel

/-- R366, R368: skipped without a second cluster, admitted to it else; R370: matched, recorded, row 1 (third run as the
original), row 3 (three digests) and row 4 (the third run not eligible). -/
theorem test_assay :
    (let counts (o : Host.Outcome State Fault Refusal) : List (Nat × Nat × Nat × Bool × Nat) := match o with
      | .next t => t.launches.map (fun (l : Launch) => (l.skipped, l.matched, l.mismatched, l.poisoned, (l.trials.map (·.runs.length)).sum))
      | _ => []
     counts (exec (.assayRerunAdmission 0 0) (sTrial [0] [runAt 0 5#64] false [])) == [(1, 0, 0, false, 0)] &&
     nexts (exec (.assayRerunAdmission 0 0) (sTrial [0, 1] [runAt 0 5#64] false [])) (fun t => t.teams.map (fun (z : Team) => (z.at_.cluster, z.run)) == [(1, .rerun)]) &&
     counts (exec (.assayRunEnd 0 0) (sTrial [0, 1] [runAt 0 5#64] true [rerun 5#64 true true false])) == [(0, 1, 0, false, 0)] &&
     counts (exec (.assayRunEnd 0 0) (sTrial [0, 1] [runAt 0 5#64] true [rerun 6#64 true true false])) == [(0, 0, 0, false, 2)] &&
     counts (exec (.assayRunEnd 0 0) (sTrial [0, 1] [runAt 0 5#64] true [rerun 5#64 true true true])) == [(1, 0, 0, false, 0)] &&
     counts (exec (.assayRunEnd 0 0) (sTrial [0, 1] [runAt 0 5#64, runAt 1 6#64] true [rerun 5#64 true true false])) == [(0, 0, 1, false, 0)] &&
     counts (exec (.assayRunEnd 0 0) (sTrial [0, 1] [runAt 0 5#64, runAt 1 6#64] true [rerun 7#64 true true false])) == [(0, 0, 1, true, 0)] &&
     counts (exec (.assayRunEnd 0 0) (sTrial [0, 1] [runAt 0 5#64, runAt 1 6#64] true [rerun 5#64 false true false])) == [(1, 0, 0, true, 0)]) = true := by
  decide +kernel

/-! ### Steps between instructions: fault buffers, control registers, the service ring, errors -/

/-- Host memory (04, node field). -/
def host : Nat := 0xFFF * 2 ^ 52

/-- Site 27 is partition 3 alone; all host ports are up; the subject of the step is the partition. -/
def sPart (f : Site → Site) (s : State) : State :=
  { onSite s 27 (fun x => f { x with part := 3 }) with hostUp := [true, true, true, true], subject := [3] }

/-- One record at clock 0 for a ring of 64 records at 0x100000 in host memory whose third record comes next. -/
def sBatch (cyc : Nat) (ports : Bool) (masked : Bool := false) (get : Nat := 0) : State :=
  let s := sPart (fun x => { x with fbbase := 0xFFF0000000100000#64, fbctl := 0xC000000000060007#64, fbidx := BitVec.ofNat 64 (get * 2 ^ 32 + 2) }) {}
  { s with msix := [(0x70, 0x5000#64), (0x78, if masked then 0x100000009#64 else 9#64)], cyc := cyc, hostUp := List.replicate 4 ports, faultQ := [{ part := 3, dwords := [1#64, 2#64, 3#64, 4#64, 5#64, 6#64, 7#64, 8#64], at_ := 0 }] }

/-- Statement FaultBufferAndRegisters. -/
theorem witness_faultBuffer :
    [(2999, true), (3000, true), (3000, false)].all (fun (cyc, ports) =>
      let q := park (sBatch cyc ports)
      headSite q 3 == 27 && (nearestHostPort q 27).isSome == ports && (faultRing (findSite q 27)).enabled && decide (1 ≤ (faultRing (findSite q 27)).room) && !msixMasked q 7 &&
      batchDue q 3 q.faultQ == decide (3000 ≤ cyc) && !batchDue q 3 q.fabricQ && cellsWf q.mem) &&
    msixMasked (park (sBatch 3000 true true)) 7 && (faultRing (findSite (park (sBatch 3000 true false (2 ^ 32 - 62))) 27)).room == 0 && !isSite 0 &&
    host / 2 ^ 52 != 1 && headSite (park {}) 0 != 27 &&
    [(0x40404040#64, true), (0xFFFFFFFF#64, false)].all (fun (v, fits) =>
      let new := (findSite (park {}) 27).bgt.set 0 (v &&& 0xFFFFFFFF#64)
      (List.range 4).all (fun res => decide (((List.range 7).map (fun c => shareOf (new.getD c 0#64) res)).sum ≤ 256)) == fits) &&
    (findSite (park (sPart (fun x => { x with up := true }) {})) 27).opctl.getLsbD 63 := by
  decide +kernel

/-- R350: the record lies in slot 2, `put` is 3 and message 7 leaves; R336, R384: the error bits; R384: the port goes down. -/
theorem test_faultBuffer :
    nexts (exec .faultBatchPost (sBatch 2999 true)) (fun t => t.faultQ.length == 1) &&
    nexts (exec .faultBatchPost (sBatch 3000 true)) (fun t => cellNat t.mem (host + 0x100080) 8 == 1 && cellNat t.mem (host + 0x1000B8) 8 == 8 && cellNat t.mem (host + 0x1000C0) 8 == 0 &&
      (findSite t 27).fbidx == 3#64 && t.faultQ.isEmpty && t.msi.map (fun m => (m.addr, m.data)) == [(0x5000, 9)] && t.msiPending.isEmpty) &&
    nexts (exec .faultBatchPost (sBatch 3000 true true)) (fun t => t.msi.isEmpty && t.msiPending.map (·.1) == [7] &&
      nexts (exec (.registerWrite 64 0x78 9#64) t) (fun u => u.msiPending.isEmpty && u.msi.length == 1)) &&
    nexts (exec .faultBatchPost (sBatch 3000 true false (2 ^ 32 - 62))) (fun t => t.faultQ.length == 1 && (findSite t 27).fbctl.getLsbD 61) &&
    nexts (exec (.bgtWrite 27 0 0xFFFFFFFF#64) {}) (fun t => (findSite t 27).bgtErr && (findSite t 27).bgt.getD 0 0#64 == 0x20202020#64) &&
    nexts (exec (.opctlWrite 27 0xF500000000000000#64) {}) (fun t => (findSite t 27).opErr && (findSite t 27).opctl == 0xB500000000000000#64) &&
    nexts (exec (.opctlWrite 27 0x3500000000000000#64) (sPart (fun x => { x with up := true }) {})) (fun t => !(findSite t 27).up) := by
  decide +kernel

/-- R336: shares that fit take effect. -/
theorem test_bgtWrite :
    nexts (exec (.bgtWrite 27 0 0x10101010#64) { cyc := 100 }) (fun t => !(findSite t 27).bgtErr && (findSite t 27).bgt.getD 0 0#64 == 0x10101010#64) = true := by
  have e : exec (.bgtWrite 27 0 0x10101010#64) { cyc := 100 } = .next (changeShares (park { cyc := 100 }) 27
    (fun s => onSite s 27 (fun x => { x with bgt := (findSite (park { cyc := 100 }) 27).bgt.set 0 0x10101010#64 }))) := by rfl
  rw [e, changeShares_within _ _ _ (by decide +kernel) (by decide +kernel)]
  decide +kernel

/-- A service ring of 16 entries at 0x200000 in host memory with one new entry. The context entry of context 1 is of
partition 3; fault 5 of site 27 is pending with a fetch. -/
def sServe (e : List Nat) : State :=
  let s := sPart (fun x => { x with svbase := 0xFFF0000000200000#64, svtail := 0xFFF0000000300000#64, svctl := 0x8000000000000004#64, svSeen := 1 }) {}
  let s := paged s []
  { s with
    cyc := 16484
    mem := cellWriteN (cellWriteN s.mem (host + 0x200000) (dws e)) (host + 0x500008) [1#8]
    pendings := [{ home := 27, fid := 5, unit := 27 * 1024, ctx := 1, page := pageIa 0 / 65536, acc := 2, kind := 3, lvl := 0, ia := pageIa 0, lnum := 0, tix := 0, lanes := 1, at_ := 0
                   waiters := [.fetch 1 0 0] }]
    teams := [{ uid := 1, ctx := 1, kernel := kernel, weaves := [{ plies := [{ n := 0, mask := 1#32, wait := .fetch }] }] }] }

/-- The op and context field of an entry. -/
def op (n : Nat) : Nat := n * 2 ^ 60 + 2 ^ 32

/-- Entries that are served: op, dwords 1 and 2, and what they ask for. -/
def served : List (List Nat) :=
  [[op 0], [op 1 + 5 * 2 ^ 16 + 27], [op 1 + 6 * 2 ^ 16 + 27], [op 2 + 5 * 2 ^ 16 + 27], [op 3, pageIa 0, 65536], [op 4, pageIa 0, 65536], [op 4 + 2 ^ 59, pageIa 0, 65536],
   [op 5 + 2 ^ 58, pageIa 0, 65536], [op 5 + 2 ^ 58, pageIa 0x10000, 65536], [op 6, host + 0x400000, 77], [op 7, host + 0x500000, 0], [op 5, pageIa 0, 65536]].map (fun e => (e ++ [0, 0, 0]).take 4)

/-- Entries that are refused: a reserved bit, a site and a context of another partition, a length of 0, a reserved op. -/
def refused_ : List (List Nat) :=
  [[op 0 + 2 ^ 50], [op 1 + 26], [op 3 + 2 ^ 33, pageIa 0, 65536], [op 4, pageIa 0, 0], [op 9]].map (fun e => (e ++ [0, 0, 0]).take 4)

/-- The ring before its tail, at IA `a`, is read; `held`: its line is held and was read as 1. -/
def sTail (held : Bool) (a : Nat) : State :=
  onSite { sServe [] with cyc := 0 } 27 (fun x => { x with svtail := BitVec.ofNat 64 a, svHeld := held })

/-- An invalidate under way since clock 0 on a line that a ply of timestamp `pts` may hold to 10. -/
def sLapse (pts cyc : Nat) : State :=
  let s := sPart (fun x => { x with svbase := 0xFFF0000000200000#64, svctl := 0x8000000000000004#64, svBusy := some (0, pageIa 0, 65536) }) {}
  { s with cyc := cyc, lineTs := [{ line := pageIa 0 / 128, wts := 0, rts := 10 }]
           teams := [{ uid := 1, ctx := 1, kernel := kernel, weaves := [{ plies := [{ n := 0, mask := 1#32, pts := pts }] }] }] }

/-- A flip to DB of which some bytes are done. -/
def sFlip (done : Nat) : State := onSite (sServe (served.getD 7 [])) 27 (fun x => { x with svPage := done })

/-- A flip to HB whose first page waits for the leases on its lines. -/
def sHold (pts : Nat) : State :=
  let s := onSite (sServe (served.getD 11 [])) 27 (fun x => { x with svBusy := some (16484, pageIa 0, 65536), svHold := some (1, pageIa 0, 65536) })
  { s with lineTs := [{ line := pageIa 0 / 128, wts := 0, rts := 10 }]
           teams := [{ uid := 1, ctx := 1, kernel := kernel, weaves := [{ plies := [{ n := 0, mask := 1#32, pts := pts }] }] }] }

/-- Statement ServiceRing: every op is served and refused, a fault that is pending and one that is not, a range with and
without its leaf, an invalidate before and after its leases lapse. -/
theorem witness_serviceRing :
    served.all (fun e =>
      let q := park (sServe e)
      (nextService q 3).any (fun (_, d) => svFieldsOk d && ctxInPart q 3 (svArgs d).ctx && ((svArgs d).site == 27 || (svArgs d).site == 0))) &&
    (let q := park { sServe (served.getD 7 []) with hbHeld := [(27, pageIa 0 / 128)] }
     q.accs.isEmpty && q.hostReqs.isEmpty && (nextService q 3).isSome && (leafOf q 1 (pageIa 0)).isSome) &&
    [7, 11].all (fun k => (nextService (park (sServe (served.getD k []))) 3).any (fun (x, d) => x.svPage == 0 && !flipBad (park (sServe (served.getD k []))) (svArgs d) && (svArgs d).toBias == (k == 7))) &&
    (nextService (park (sServe (served.getD 8 []))) 3).any (fun (_, d) => flipBad (park (sServe (served.getD 8 []))) (svArgs d)) &&
    (let q := park (sFlip 0x10000); let h := findSite q (headSite q 3)
     h.svBusy.isNone && h.svPage != 0 && decide ((svArgs (svEntry q h)).len ≤ h.svPage)) &&
    [(10, false), (11, true)].all (fun (pts, ok) => let q := park (sHold pts)
      (findSite q 27).svHold == some (1, pageIa 0, 65536) && leasesLapsed q 16484 (pageIa 0) 65536 == ok && (leafOf q 1 (pageIa 0)).isSome) &&
    (findPending (park (sServe [])) 27 5).any (fun p => p.acc != 6 && (p.fails (openReplay (park (sServe [])) p) (ctxMaster p.tag)).isNone &&
      (p.fails (openReplay { park (sServe []) with mem := [] } p) (ctxMaster p.tag)).isSome) &&
    (findPending (park (sServe [])) 27 6).isNone && (plyAt (park (sServe [])) 1 0 0).any (·.wait == .fetch) &&
    refused_.all (fun e =>
      let q := park (sServe e)
      (nextService q 3).any (fun (_, d) => let a := svArgs d
        8 ≤ a.op || !svFieldsOk d || ((a.op == 1 || a.op == 2) && !(sitesOf q 3).contains a.site) || !ctxInPart q 3 a.ctx)) &&
    readGrant (park (sServe [])) (grantMaster 1) 27 (host + 0x500000) == some [64] &&
    (readGrant (park (sServe [])) (grantMaster 1) 27 (pageIa 0x10000)).isNone &&
    (nextService (park (sPart id {})) 3).isNone && svOpen (park (sServe [])) (findSite (park (sServe [])) 27) && !svOpen (park (sPart id {})) (findSite (park (sPart id {})) 27) &&
    [(false, host + 0x300000), (true, host + 0x300000), (false, pageIa 0)].all (fun (held, a) =>
      let q := park (sTail held a)
      svOpen q (findSite q (headSite q 3)) && (findSite q (headSite q 3)).svHeld == held && (iaNode a == 0xFFF || !held)) &&
    [(10, 0), (11, 0), (10, 4096)].all (fun (pts, cyc) => (findSite (park (sLapse pts cyc)) 27).svBusy.isSome) := by
  decide +kernel

/-- The status of the entry, once it is answered (R351). -/
def status (o : Host.Outcome State Fault Refusal) : Option Nat := match o with
  | .next t => if (findSite t 27).svNext == 1 then some (cellNat t.mem (host + 0x200018) 8) else none
  | _ => none

/-- Statements SystemUnits, LeavingAndWatchdog, ServiceRing and ScanAndTime, where a budget has no room: with no share of a
resource a class may use it only in the clocks that nobody else wants, which is a free value; so each of its clauses is met
in a machine whose free value says so. -/
theorem witness_noShare : mayUse (onSite { cyc := 16484 } 27 (fun x => { x with bgt := [] })) 27 0 { issue := 1 } = Config.idleClocks 0 3 := by
  have w : windowOf (onSite { cyc := 16484 } 27 (fun x => { x with bgt := [] })) 27 = 1 := inWindow _ 27 (by decide +kernel)
  simp only [mayUse, spentOf, classCap, sharesNow, w]
  have h : ∀ b, ((List.range 4).all fun r => ({ issue := 1 } : Use).of r == 0 || decide (0 + ({ issue := 1 } : Use).of r ≤ 0) || (r == 3 && b)) = b := by decide +kernel
  refine Eq.trans ?_ (h _)
  rfl

/-- Statement ServiceRing: the replay budget of the window pays for the replay of an entry. -/
theorem meets_replay (k : Nat) (hk : k = 1 ∨ k = 4) : let q := park (sServe (served.getD k []))
    ∃ p, q.pendings = [p] ∧ payReplay q [p] = ({ spend q 27 4 p.replayUse with payments := [((3, 27, 5), p.replayUse)] }, true) := by
  refine ⟨_, rfl, ?_⟩
  rcases hk with rfl | rfl
  all_goals
    simp only [payReplay, List.foldl]
    erw [payOn_fresh _ _ _ _ _ (by decide +kernel) (by decide +kernel) (by decide +kernel) (by decide +kernel) (by decide +kernel)]
    rfl

/-- R352: a replay lets the fetch go on, in either form; one whose walk fails again leaves it waiting. -/
theorem test_replays : [1, 4].all (fun k =>
    let q := park (sServe (served.getD k []))
    q.pendings.all (fun p =>
      let u := replayEntry { q with payments := [((3, 27, 5), p.replayUse)] } p
      u.pendings.isEmpty && u.payments.isEmpty && (plyAt u 1 0 0).any (·.wait == .none) &&
      (let v := replayEntry { q with mem := [] } p
       v.pendings.map (·.fid) != [5] && v.pendings.length == 1 && (plyAt v 1 0 0).any (·.wait == .fetch)))) = true := by
  decide +kernel

/-- R351 to R354, R358: the statuses; a replay lets the fetch go on; a marker is stored; an invalidate with the drop bit
waits for the leases until they lapse or 4,096 cycles are over. -/
theorem test_serviceRing :
    (let run (i : Instr) (k : Nat) : Host.Outcome State Fault Refusal := exec i (sServe (served.getD k []))
     let refuse (i : Instr) (k : Nat) : Host.Outcome State Fault Refusal := exec i (sServe (refused_.getD k []))
     status (run .serviceNop 0) == some (2 ^ 63) && status (run .replayFault 2) == some (2 ^ 63 + 1) &&
     status (run .cancelFault 3) == some (2 ^ 63) && status (run .invalidate 5) == some (2 ^ 63) &&
     status (run .invalidate 6) == none && status (run .flip 7) == none && status (exec .flip (sFlip 0x10000)) == some (2 ^ 63) && status (run .flip 8) == some (2 ^ 63 + 3) && status (run .marker 9) == some (2 ^ 63) &&
     status (run .grant 10) == some (2 ^ 63) && status (run .marker 0) == none &&
     nexts (run .flip 7) (fun t => (findSite t 27).svPage == 65536 && (leafOf t 1 (pageIa 0)).any (fun l => l.2.1.extractLsb' 59 3 == 4#3)) &&
     nexts (run .flip 11) (fun t => (findSite t 27).svHold == some (1, pageIa 0, 65536)) &&
     nexts (exec .flip (sHold 10)) (fun t => (findSite t 27).svHold.isSome) && nexts (exec .flip (sHold 11)) (fun t => (findSite t 27).svHold.isNone && (findSite t 27).svPage == 65536) &&
     nexts (run .marker 9) (fun t => cellNat t.mem (host + 0x400000) 8 == 77) &&
     status (refuse .serviceNop 0) == some (2 ^ 63 + 2) && status (refuse .replayFault 1) == some (2 ^ 63 + 2) && status (refuse .replayRange 2) == some (2 ^ 63 + 2) &&
     status (refuse .invalidate 3) == some (2 ^ 63 + 2) && status (refuse .serviceNop 4) == some (2 ^ 63 + 2) &&
     nexts (refuse .serviceNop 4) (fun t => (findSite t 27).fbctl.getLsbD 60) &&
     status (exec .invalidateLeaseLapse (sLapse 10 0)) == none && status (exec .invalidateLeaseLapse (sLapse 11 0)) == some (2 ^ 63) &&
     status (exec .invalidateLeaseLapse (sLapse 10 4096)) == some (2 ^ 63) &&
     nexts (exec .serviceTailObserved (sTail false 0xFFF0000000300000)) (fun t => (findSite t 27).svHeld && t.hbShared == [(27, (host + 0x300000) / 128)]) &&
     nexts (exec .serviceTailObserved (sTail true 0xFFF0000000300000)) (fun t => (findSite t 27).svSeen == 1)) = true := by
  decide +kernel

/-- An access that found the table full at clock 0. -/
def sFullTable (cyc : Nat) : State :=
  { sMem with cyc := cyc, accs := [{ acc 0 0 0#64 0#64 with stage := .full 0 }] }

/-- A core with a line, and a unit whose corrected errors were last reported at clock 0. -/
def sErrs (cyc : Nat) : State :=
  { one [] [fun _ => 7] with cyc := cyc, corrected := [(27648, 2, 0)], cores := [{ id := {}, l1 := [{ line := 9, data := List.replicate 128 0#8, wts := 0, rts := 9 }] }] }

/-- Statement RetriesAndErrors. -/
theorem witness_errors :
    ((park { sMem with accs := [{ acc 0 0 0#64 0#64 with stage := .held }] }).accs.find? (·.id == 0)).any (·.stage == .held) &&
    [1023, 1024].all (fun cyc => ((park (sFullTable cyc)).accs.find? (·.id == 0)).any (·.stage == .full 0)) &&
    ((park { sMem with accs := [acc 0 0 0#64 0#64] }).accs.find? (·.id == 0)).any (fun a => match a.stage with | .full _ => false | _ => true) &&
    (findWeave (park (sErrs 0)) 1 0).any (fun w => (w.map.v.getD 0 none).isSome && w.map.v.length == 192) &&
    (park (sErrs 0)).corrected.find? (fun (u, _, _) => u == 27648) == some (27648, 2, 0) := by
  decide +kernel

/-- R359, R373: the register is poisoned and the record has kind 2; the clean line goes without one; the third corrected
error is reported after 2^24 cycles. -/
theorem test_errors :
    nexts (exec (.uncorrectableErrorFound 1 1 0 0) (sErrs 0)) (fun t => (findWeave t 1 0).any (fun w => (w.map.v.getD 0 none).any (·.poison)) &&
      t.errs.map (fun (e : ErrRec) => (e.kind, e.unit)) == [(2, 27648)]) &&
    nexts (exec (.uncorrectableErrorFound 10 27648 0 9) (sErrs 0)) (fun t => t.errs.isEmpty && t.cores.all (·.l1.isEmpty)) &&
    nexts (exec (.correctedError 27648) (sErrs (2 ^ 24 - 1))) (fun t => t.errs.isEmpty && t.corrected == [(27648, 3, 0)]) &&
    nexts (exec (.correctedError 27648) (sErrs (2 ^ 24))) (fun t => t.errs.map (fun (e : ErrRec) => (e.kind, e.x)) == [(1, 3)] && t.corrected == [(27648, 0, 2 ^ 24)]) &&
    nexts (exec (.pendingTableRetry 0) (sFullTable 1023)) (fun t => t.accs.length == 1) := by
  decide +kernel

/-! ### Steps between instructions: scan, time, mesh, links, ports -/

/-- Core 0 of cluster 0 at site 27 as a unit identifier, in a scan state since clock 0, with a team on it or none. -/
def sScan (st : ScanState) (team : Bool) (cyc : Nat) : State :=
  { cores := [{ id := {}, scan := st }], cyc := cyc, subject := [27648]
    teams := if team then [{ uid := 50, ctx := 1, kernel := kernel, weaves := [{ plies := [{ n := 0, mask := 1#32 }] }] }] else [] }

/-- Site 27 with its next turn at a unit. -/
def sTurn (turn : Nat) (busy : Bool) : State :=
  { onSite (sScan (if busy then .drain else .serve) false 16484) 27 (fun x => { x with turn := turn }) with subject := [27] }

/-- Statement ScanAndTime, but for which sets pass, which is a free value: a turn that starts over, one that goes on, one
that waits, and the drain of an empty and of a full core on both sides of its bound. -/
theorem witness_scan :
    [0, 27650, 28671].all (fun turn =>
      let q := park (sTurn turn false)
      (siteUnits q 27).all (fun w => unitScan q w == .serve && unitLive q w) && (findSite q 27).turn == turn) &&
    (siteUnits (park (sTurn 0 true)) 27).any (fun w => unitScan (park (sTurn 0 true)) w == .drain) &&
    [(true, 2 ^ 22 - 1), (true, 2 ^ 22), (false, 0)].all (fun (team, cyc) =>
      let q := park (sScan .drain team cyc)
      let u := unitIdOf (subject (sScan .drain team cyc) 0)
      unitScan q u == .drain && unitEmpty q u == !team && scanSince q u == 0 && !u.engine) &&
    unitScan (park (sScan .scan false 0)) (unitIdOf 27648) == .scan &&
    [1499999, 1500000].all (fun cyc => (park { cyc := cyc }).ptp.cyc == 0) := by
  decide +kernel

/-- Statement ScanAndTime: the scan budget of the window is untouched. -/
theorem meets_scanBudget (turn : Nat) (h : turn = 0 ∨ turn = 27650 ∨ turn = 28671) : scanBudget (park (sTurn turn false)) 27 = true := by
  rcases h with rfl | rfl | rfl <;>
    exact mayUse_fresh _ 27 0 { issue := 1 } (by decide +kernel) (by decide +kernel) (by decide +kernel) (by decide +kernel)

/-- Statement ScanAndTime: a set that has had all the core-cycles that it takes. -/
theorem meets_scanPaid (s : State) (k set site : Nat) :
    (payOn { s with payments := [((4, k, set), { issue := Config.scanCycles k set })] } (4, k, set) site 0 { issue := Config.scanCycles k set }).2 = true := by
  simp [payOn, paidFor, Use.minus, Use.plus]

/-- R362: the unit after the last one, in ascending identifier and then over again. -/
theorem test_scanTurn (turn v : Nat) (h : (turn, v) = (27650, 27650) ∨ (turn, v) = (28671, 27648)) :
    nexts (exec .scanTurn (sTurn turn false)) (fun t => (findSite t 27).turn == v + 1 && unitScan t (unitIdOf v) == .drain) = true := by
  have e : exec .scanTurn (sTurn turn false) = .next (let s := park (sTurn turn false)
    if (siteUnits s 27).any (unitDraining s) || !scanBudget s 27 then s
    else match turnUnit s 27 with
      | some u => onSite (setUnitScan s u .drain) 27 (fun x => { x with turn := u.unit + 1 })
      | none => s) := rfl
  rw [e]
  rcases h with h | h <;> cases h <;> simp only [meets_scanBudget, true_or, or_true] <;> decide +kernel

/-- R362: a unit drains alone; R307: the teams of a full core leave
after 2^22 cycles; R373: a sample after 1,500,000 ticks; lock below 1,000 ns. -/
theorem test_scan :
    nexts (exec .scanTurn (sTurn 0 true)) (fun t => (findSite t 27).turn == 0) &&
    nexts (exec .scanDrainDone (sScan .drain false 9)) (fun t => unitScan t (unitIdOf 27648) == .scan) &&
    nexts (exec .scanDrainTimeout (sScan .drain true (2 ^ 22 - 1))) (fun t => t.teams.map (·.leaving) == [none]) &&
    nexts (exec .scanDrainTimeout (sScan .drain true (2 ^ 22))) (fun t => t.teams.map (·.leaving) == [some 0]) &&
    nexts (exec (.ptpSample 77) { cyc := 1500000 }) (fun t => t.ptp.ns == 77) && nexts (exec (.ptpSample 77) { cyc := 1499999 }) (fun t => t.ptp.ns == 0) &&
    nexts (exec (.ptpSyncMessage 999) {}) (fun t => t.ptp.lock) && nexts (exec (.ptpSyncMessage 1000) {}) (fun t => !t.ptp.lock) := by
  decide +kernel

/-- A far access from site 26 to site 27 with its packet; `f` changes the packet, `g` the access. -/
def sPkt (f : Packet → Packet) (g : Acc → Acc) : State :=
  { sMem with accs := [g { acc 0 0 0#64 0#64 with id := 90, src := 26, unit := 26 * 1024 }]
              packets := [f { id := 91, src := 26, dst := 27, cls := 2, pseq := 5, acc := 90, segs := [{ input := (27, 26), chan := (classChannels 2).1, n := 1 }], left := 0 }] }

/-- It is still where it was injected. -/
def waiting (p : Packet) : Packet := { p with segs := [], left := 1 }

/-- It is on the external plane, at the site by whose port it leaves; the ports of both sites are up or down. -/
def sExternal (up : Bool) : State :=
  let s := sPkt (fun p => { p with ext := true, segs := [], got := 1 }) id
  onSite (onSite s 26 (fun x => { x with up := up })) 27 (fun x => { x with up := up })

/-- A packet towards node 9 through the port of site 27, on standard mode and in secure domain 4. -/
def sOutward (f : Packet → Packet) : State :=
  let s := sPkt (fun p => f { p with cls := 3, ia := 9 * 2 ^ 52 }) (fun a => { a with ia := 9 * 2 ^ 52 })
  { s with mem := cellWriteN s.mem (regionKey s 27 (0x110000 + 16 * 9)) (toBytes 8 4) }

/-- Statement Packets: a stomped, an accepted and a known packet, one that cannot arrive, one in a secure domain before and
after its seventh failure, one on the external plane, and the gate with and without an earlier request. -/
theorem witness_packets :
    (let q := park (sPkt id id)
     q.packets.all (fun p => !p.stomp && p.settled q && !(findSite q p.dst).seen.contains (p.src, p.cls, p.pseq) && p.cls == 2 && (p.node q).isNone) &&
     (q.accs.find? (·.id == 90)).any (fun a => a.stage == .mesh)) &&
    (park (sPkt (fun p => { p with stomp := true }) id)).packets.all (·.stomp) &&
    (let q := park (sPkt waiting id)
     q.packets.all (fun p => !p.settled q && (nextHop q p).isSome && p.at_ != p.goal q && p.segs.isEmpty)) &&
    (let q := park (sPkt (fun p => { p with flits := 3, left := 2 }) id)
     q.packets.all (fun p => !p.settled q && p.at_ == p.goal q && p.segs.length == 1)) &&
    (let q := park (sPkt waiting id)
     let q := { q with deadLinks := (List.range 4).map (fun k => (26, 27, k, 0)) }
     q.packets.all (fun p => (nextHop q p).isNone)) &&
    [false, true].all (fun up => let q := park (sExternal up)
     q.packets.all (fun p => p.settled q && (p.node q).isNone && p.ext && p.entry.isNone && (exitSite q p.src).isSome == up && (entrySite q p.dst).isSome == up)) &&
    (let s := sPkt id id
     let q := park (onSite s 27 (fun x => { x with seen := [(26, 2, 5)] }))
     q.packets.all (fun p => p.settled q && (findSite q p.dst).seen.contains (p.src, p.cls, p.pseq))) &&
    [6, 7].all (fun n =>
      let q := park (sOutward (fun p => { p with fails := n }))
      q.packets.all (fun p => p.settled q && !portFull q p.dst && p.domain q == 4 && p.node q == some 9 && p.fails == n && (findSite q p.dst).mode == 1)) &&
    [(true, false), (false, false), (false, true)].all (fun (before, rlx) =>
      let s := sPkt id (fun a => { a with stage := .gate, order := if rlx then 5 else 1 })
      let q := park { s with accs := (if before then [{ acc 0 0 0#64 0#64 with id := 80, src := 26, stage := .gate }] else []) ++ s.accs }
      (q.accs.find? (·.id == 90)).any (fun a => a.stage == .gate && gateBefore q a == before && isRlx a.order == rlx)) := by
  decide +kernel

/-- R381: a stomped packet goes; R374, R375: one hop takes a packet from site 26 to the input of site 27; the accepted request stands at the gate and its number is kept; R391: a forged one stays
with one failure more, and the eighth ends it; R378: the gate keeps its order. -/
theorem test_packets :
    nexts (exec (.meshPacketArrival 91 false) (sPkt (fun p => { p with stomp := true }) id)) (fun t => t.packets.isEmpty && t.accs.all (·.stage == .mesh)) &&
    nexts (exec (.meshPacketArrival 91 false) (sPkt id id)) (fun t => t.packets.isEmpty && t.accs.all (·.stage == .gate) && (findSite t 27).seen == [(26, 2, 5)]) &&
    nexts (exec (.meshPacketArrival 91 false) (sPkt waiting id)) (fun t =>
      t.packets.map (fun (p : Packet) => (p.segs.map (fun x => (x.input, x.n)), p.left)) == [([((27, 26), 1)], 0)] && t.accs.all (·.stage == .mesh)) &&
    nexts (exec (.meshPacketArrival 91 false) (sPkt (fun p => { waiting p with flits := 3, left := 3 }) id)) (fun t => t.packets.map (fun p => (flitsOf p, p.left)) == [(3, 0)]) &&
    nexts (exec (.meshPacketArrival 91 false) (sPkt (fun p => { p with flits := 3, left := 2 }) id)) (fun t =>
      t.packets.map (fun p => (p.segs.map (·.n), p.left, p.got)) == [([0], 0, 3)]) &&
    nexts (exec (.meshPacketArrival 91 false) (sExternal true)) (fun t => t.packets.map (fun (p : Packet) => (p.entry, p.left, p.got)) == [(some 27, 1, 0)]) &&
    nexts (exec (.meshPacketArrival 91 true) (sOutward id)) (fun t => t.packets.map (·.fails) == [1] && t.errs.map (fun (e : ErrRec) => e.kind) == [0x19]) &&
    nexts (exec (.meshPacketArrival 91 true) (sOutward (fun p => { p with fails := 7 }))) (fun t => t.packets.isEmpty && t.pendings.map (·.kind) == [5]) &&
    nexts (exec (.ultraEthernetRetransmission 91) (sOutward id)) (fun t => t.packets.map (·.fails) == [1]) &&
    nexts (exec (.gateRequestArrival 90) (let s := sPkt id (fun a => { a with stage := .gate })
      { s with accs := [{ acc 0 0 0#64 0#64 with id := 80, src := 26, stage := .gate }] ++ s.accs })) (fun t => t.accs.map (·.id) == [80, 90]) := by
  decide +kernel

/-- The seam of sites 26 and 27 with links that are dead and one that has failed; the subject of the step is the seam. -/
def sSeam (dead n : Nat) (detour : Bool) : State :=
  { deadLinks := (List.range dead).map (fun k => (26, 27, k, 0)), linkFails := [(26, 27, 3, n)], detours := if detour then [(26, 27)] else []
    subject := [26, 27] }

/-- The port of site 27: up or down, its mode, its live wavelengths, and when they changed. -/
def sPort (up : Bool) (mode : Nat) (live : BitVec 16) (cyc : Nat) : State :=
  { onSite {} 27 (fun x => { x with up := up, opctl := BitVec.ofNat 64 (2 ^ 63 + mode * 2 ^ 61 + 5 * 2 ^ 56), live := live, handover := up, proxied := !up }) with
    cyc := cyc, subject := [27] }

/-- Statement LinksAndPorts: a seam with a link of 15 and of 16 failures, with three and with four dead links; a port up with
enough wavelengths, without, and within the bound of striped mode; down with and without a proxy. -/
theorem witness_links :
    isSeam 26 27 && [15, 16].all (fun n => (park (sSeam 3 n false)).deadLinks.all (fun e => e.2.2.1 != 3) && replays (park (sSeam 3 n false)) 26 27 3 == n) &&
    [(3, false), (4, false), (4, true)].all (fun (d, x) => (deadOf (park (sSeam d 0 x)) 26 27).length == d && (park (sSeam d 0 x)).detours.contains (26, 27) == x) &&
    [(1, 0xFF00#16, true), (1, 0x7F7F#16, false), (2, 0x000F#16, true), (2, 0x0007#16, false)].all (fun (mode, live, ok) =>
      let x := findSite (park (sPort true mode live 0)) 27
      x.up && x.mode == mode && lanesSuffice x == ok && x.lowAt == 0) &&
    (let q := park (sPort false 1 0#16 0)
     let x := findSite q 27
     !x.up && (proxyOf q 27).isNone && x.joined && x.opctl.getLsbD 63 && x.mode == 1 && x.dark == 0#16 && x.rtv.isNone && x.waitRetrain.isEmpty) &&
    (proxyOf (park (onSite (sPort false 1 0#16 0) 26 (fun x => { x with up := true }))) 27).isSome &&
    [74999, 75000].all (fun cyc => (findSite (park (sPort true 1 0xFFFF#16 cyc)) 27).handover && (findSite (park (sPort true 1 0xFFFF#16 cyc)) 27).upAt == 0) := by
  decide +kernel

/-- R379: at clock 1,024 an advertisement is due, at clock 0 it is not. -/
theorem witness_portQueue (site : Nat) :
    (findSite (park { cyc := 1024 }) site).lpW < cycAt (park { cyc := 1024 }) site / 1024 ∧
    cycAt (park {}) site / 1024 ≤ (findSite (park {}) site).lpW := by
  have h : cycAt (park { cyc := 1024 }) site = 1024 + Config.skew site % 3 := rfl
  have h0 : cycAt (park {}) site = 0 + Config.skew site % 3 := rfl
  have a : (findSite (park { cyc := 1024 }) site).lpW = 0 := rfl
  have b : (findSite (park {}) site).lpW = 0 := rfl
  rw [h, h0, a, b]
  omega

/-- R380, R381: the sixteenth failure makes the link dead; detours come with the fourth; R383, R384: the bounds of 15,000
and 75,000 cycles, the record of a port that goes down, and the one of a port that comes up after 2 µs. -/
theorem test_links :
    nexts (exec (.flitCrcError 26 27 3 true) (sSeam 0 15 false)) (fun t => replays t 26 27 3 == 16) && nexts (exec (.flitCrcError 26 27 3 false) (sSeam 0 15 false)) (fun t => replays t 26 27 3 == 0) &&
    nexts (exec (.linkDead 26 27 3 false [] []) (sSeam 3 15 false)) (fun t => t.deadLinks.length == 3) && nexts (exec (.linkDead 26 27 3 false [] []) (sSeam 3 16 false)) (fun t => t.deadLinks.length == 4) &&
    nexts (exec .detourTablesLoaded (sSeam 3 0 false)) (fun t => t.detours.isEmpty) && nexts (exec .detourTablesLoaded (sSeam 4 0 false)) (fun t => t.detours == [(26, 27)]) &&
    nexts (exec .portDown (sPort true 1 0x7F7F#16 0)) (fun t => !(findSite t 27).up && t.errs.map (fun (e : ErrRec) => e.kind) == [0x15]) &&
    nexts (exec .portDown (sPort true 2 0x0007#16 14999)) (fun t => (findSite t 27).up) && nexts (exec .portDown (sPort true 2 0x0007#16 15000)) (fun t => !(findSite t 27).up) &&
    nexts (exec (.portUp 27 9) (sPort false 2 0#16 3000)) (fun t => (findSite t 27).up && (findSite t 27).live == 0xFFFF#16 && (findSite t 27).peer == some 9 &&
      t.errs.map (fun (e : ErrRec) => (e.kind, e.y)) == [(0x16, 2)]) &&
    nexts (exec .proxyHandbackEnd (sPort true 1 0xFFFF#16 74999)) (fun t => (findSite t 27).handover) && nexts (exec .proxyHandbackEnd (sPort true 1 0xFFFF#16 75000)) (fun t => !(findSite t 27).handover) := by
  decide +kernel

/-! ### Steps between instructions: wavelengths, the striped link, hosts, firmware -/

/-- A port up in a mode with some dark wavelengths and one that retrains after a number of failed attempts. -/
def sWave (mode : Nat) (dark : BitVec 16) (rtv : Option Nat) (tries : Nat) : State :=
  onSite { cyc := 100 } 27 (fun x => { x with up := true, opctl := BitVec.ofNat 64 (2 ^ 63 + mode * 2 ^ 61 + 5 * 2 ^ 56), live := ~~~dark, dark := dark, rtv := rtv, tries := tries })

/-- A striped port that has sent the flits 0 to 9, of which 4 are acknowledged, expects 3, and keeps its timers; the subject
of the step is the site. -/
def sLink (held : List (Nat × List Byte)) (count : Nat) (gap : Option Nat) (cyc : Nat) : State :=
  { onSite (sWave 2 0#16 none 0) 27 (fun x => { x with stripe := { txNext := 10, txAck := 4, kept := (List.range 6).map (fun i => (4 + i, [])), rxNext := 3, rxHeld := held, rxCount := count, rxGap := gap } }) with
    cyc := cyc, subject := [27] }

/-- The link of site 27 afterwards. -/
def link (o : Host.Outcome State Fault Refusal) : Stripe := match o with
  | .next t => (findSite t 27).stripe
  | _ => {}

/-- The bytes of a flit that acknowledges up to 4; its payload begins a packet of 1,024 bytes. -/
def flit (kind seq : Nat) (lset : BitVec 16 := 0#16) (ack : Nat := 4) : List Byte :=
  ({ kind := kind, seq := seq, ack := ack, lset := lset, payload := toBytes 8 (15 * 2 ^ 38) } : LinkFlit).bytes

/-- A flit of which a bit was lost on the way. -/
def badFlit (kind seq : Nat) : List Byte := (flit kind seq).set 100 1#8

/-- A flit's bytes arrive at site 27. -/
def recvFlit (wave : Nat) (bs : List Byte) (s : State) : Host.Outcome State Fault Refusal :=
  let field (at_ n : Nat) : Nat := ofBytes ((bs.drop at_).take n)
  exec (.stripedFlitReceive 27 wave (BitVec.ofNat 64 (field 0 8)) ((bs.drop 8).take 240) (BitVec.ofNat 16 (field 254 2))
    (BitVec.ofNat 16 (field 252 2)) (BitVec.ofNat 32 (field 248 4))) s

/-- The CRC of a flit's bytes holds (R385). -/
def crcOk (bs : List Byte) : Bool := crc32 (bs.take 248 ++ (bs.drop 252).take 4) == BitVec.ofNat 32 (ofBytes ((bs.drop 248).take 4))

/-- IEEE 802.3: the check value of CRC-32 for the digits 1 to 9. -/
theorem test_crc : crc32 ((List.range 9).map (fun k => BitVec.ofNat 8 (0x31 + k))) = 0xCBF43926#32 := by
  decide +kernel

/-- FIPS 180-4: the digest of the empty message begins with these bytes. -/
theorem test_sha : (sha512 []).take 4 = [0xcf#8, 0x83#8, 0xe1#8, 0x35#8] := by
  decide +kernel

/-- Statement OpticalPorts: error counts on both sides of the berth of 10^-5, attempts before and after the second, modules
dark and not, and each case of a flit, an acknowledgement, a lane-set flit and a gap. -/
theorem witness_optics :
    [(10737, false), (10738, true)].all (fun (n, over_) => decide (2 ^ 30 < n * 10 ^ 5) == over_) &&
    (let x := findSite (park (sWave 2 0#16 none 0)) 27
     x.up && x.mode == 2 && x.live.getLsbD 5 && x.rtv.isNone && x.waitRetrain.isEmpty && (x.opctl.extractLsb' 56 4).toNat == 5) &&
    [1, 2].all (fun n => let x := findSite (park (sWave 1 0#16 (some 5) n)) 27; x.rtv == some 5 && x.tries == n && x.waitRetrain.isEmpty) &&
    (findSite (park (sWave 2 0x00F0#16 none 0)) 27).dark.getLsbD 5 && !(findSite (park (sWave 2 0x00F0#16 none 0)) 27).dark.getLsbD 9 &&
    [([], 14, none, 299), ([(5, [])], 16, some 0, 299), ([(5, [])], 0, some 0, 300)].all (fun (held, count, gap, cyc) =>
      let q := park (sLink held count gap cyc)
      let k := (findSite q 27).stripe
      k.rxNext == 3 && k.rxHeld == held && k.rxCount == count && k.rxGap == gap && q.cyc == cyc && k.rxAckAt == 0 && k.kept.length == 6 &&
      k.rxBytes.isEmpty && k.rxBase == 0 && k.rxLive == 0xFFFF#16) &&
    [(0, 3), (0, 5), (0, 2), (1, 3), (3, 6)].all (fun (kind, seq) => let bs := flit kind seq
      bs.length == 256 && crcOk bs && ofBytes ((bs.drop 1).take 1) / 16 == kind && ofBytes ((bs.drop 5).take 3) == seq) &&
    !crcOk (badFlit 0 3) && (badFlit 0 3).length == 256 &&
    [(0xFFDF#16, none), (0xFF0F#16, some 1)].all (fun (lset, m) => lostModule 0xFFFF#16 lset == m &&
      BitVec.ofNat 16 (ofBytes (((flit 2 3 lset).drop 254).take 2)) == lset) &&
    ofBytes (toBytes 8 (26 * 2 ^ 58 + 3 * 2 ^ 48)) / 2 ^ 58 == 26 := by
  decide +kernel

/-- A wavelength retrains in a window in which the site has used nothing yet. -/
def sRetrain (n : Nat) : State := { sWave 1 0#16 (some 5) n with cyc := 16484 }

/-- Statement OpticalPorts: the retrain budget of a window is untouched; the attempt ends. -/
theorem meets_retrain (ok : Bool) (n : Nat) (h : n = 1 ∨ n = 2) : mayUse (park (sRetrain n)) 27 7 { mesh := 1 } = true ∧
    exec (.retrainResult 27 ok) (sRetrain n) = .next (changeShares (spend (park (sRetrain n)) 27 7 { mesh := 1 }) 27 (retrained 27 5 ok)) := by
  have m : mayUse (park (sRetrain n)) 27 7 { mesh := 1 } = true := by
    rcases h with rfl | rfl <;>
      exact mayUse_fresh _ 27 7 { mesh := 1 } (by decide +kernel) (by decide +kernel) (by decide +kernel) (by decide +kernel)
  refine ⟨m, ?_⟩
  change Host.Outcome.next (if !mayUse (park (sRetrain n)) 27 7 { mesh := 1 } then _ else _) = _
  rw [m]
  rfl

/-- R388: withdrawn above the berth, live again, dark after the third attempt; R387: module 1 goes dark, whichever side
declares it; R389: a dark wavelength is restored. -/
theorem test_wavelengths :
    nexts (.next (changeShares (park (sWave 1 0#16 none 0)) 27 (withdrawWave 27 5 10738))) (fun t => (findSite t 27).live == 0xFFDF#16 && (findSite t 27).rtv == some 5) = true ∧
    nexts (.next (changeShares (park (sWave 1 0x20#16 (some 5) 0)) 27 (retrained 27 5 true))) (fun t => (findSite t 27).live == 0xFFFF#16 && (findSite t 27).rtv.isNone) ∧
    nexts (.next (changeShares (park (sWave 1 0#16 (some 5) 2)) 27 (retrained 27 5 false))) (fun t => (findSite t 27).dark == 0x20#16 && (findSite t 27).rtv.isNone) ∧
    [false, true].all (fun r => nexts (.next (changeShares (park (sWave 2 0#16 none 0)) 27 (darken 27 1 r))) (fun t => (findSite t 27).dark == 0x00F0#16 && (findSite t 27).live == 0xFF0F#16 &&
      t.errs.map (fun (e : ErrRec) => e.kind) == [0x12, 0x14])) ∧
    nexts (exec (.restoreDarkWavelength 27 5 true) (sWave 2 0x00F0#16 none 0)) (fun t => t.mgmt == [(3, 0)] && (findSite t 27).dark == 0x00D0#16) := by
  have e : exec (.restoreDarkWavelength 27 5 true) (sWave 2 0x00F0#16 none 0) =
    .next (answerMgmt (changeShares (park (sWave 2 0x00F0#16 none 0)) 27 (relight 27 5)) 3 false) := by rfl
  rw [e]
  refine ⟨?_, ?_, ?_, ?_, ?_⟩
  · rw [changeShares_within _ _ _ (by decide +kernel) (by decide +kernel)]; decide +kernel
  · rw [changeShares_within _ _ _ (by decide +kernel) (by decide +kernel)]; decide +kernel
  · rw [changeShares_within _ _ _ (by decide +kernel) (by decide +kernel)]; decide +kernel
  · simp only [List.all_cons, List.all_nil]
    rw [changeShares_within _ _ _ (by decide +kernel) (by decide +kernel), changeShares_within _ _ _ (by decide +kernel) (by decide +kernel)]; decide +kernel
  · rw [changeShares_within _ _ _ (by decide +kernel) (by decide +kernel)]; decide +kernel

/-- R388: below the berth a wavelength stays; R389: a wavelength that is not dark is not restored; R385, R386: a nak for flit 3,
flit 3 delivered and the one held behind it, flit 2 and one on another wavelength discarded, flits 6 to 9 sent again, an
acknowledgement and a nak after 300 cycles. -/
theorem test_optics :
    nexts (exec (.berWindow 27 5 10737) (sWave 1 0#16 none 0)) (fun t => (findSite t 27).live == 0xFFFF#16) &&
    nexts (exec (.restoreDarkWavelength 27 9 true) (sWave 2 0x00F0#16 none 0)) (fun t => t.mgmt == [(3, 1)]) &&
    (link (recvFlit 3 (badFlit 0 3) (sLink [] 14 none 0))).sent == [{ kind := 3, seq := 3, ack := 3 }] &&
    (let k := link (recvFlit 3 (flit 0 3 0#16 6) (sLink [] 14 none 0))
     k.rxNext == 4 && k.txAck == 6 && k.kept.length == 4 && k.rxBytes.length == 240) &&
    (link (recvFlit 3 (flit 0 3) (sLink [(4, [8#8])] 0 (some 0) 0))).rxBytes.length == 241 &&
    (link (recvFlit 2 (flit 0 2) (sLink [] 14 none 0))).rxBytes == [] &&
    (link (recvFlit 4 (flit 0 3) (sLink [] 14 none 0))).rxBytes == [] &&
    (link (exec (.nakReceive 27 6 4) (sLink [] 0 none 0))).sent == [6, 7, 8, 9].map (fun n => { kind := 0, seq := n, ack := 3, wave := n }) &&
    (link (exec .stripedAckTimer (sLink [] 14 none 299))).sent == [] && (link (exec .stripedAckTimer (sLink [] 14 none 300))).sent == [{ kind := 1, seq := 0, ack := 3 }] &&
    (link (exec .stripedGapTimeout (sLink [(5, [])] 0 (some 0) 299))).sent == [] && (link (exec .stripedGapTimeout (sLink [(5, [])] 0 (some 0) 300))).sent == [{ kind := 3, seq := 3, ack := 3 }] := by
  decide +kernel

/-- R374, R418: a peer's write to site 26 goes to it in class 3 from the port's site. -/
theorem test_handPeer :
    (let u := handPeer (park (sLink [] 0 none 0)) 27 (toBytes 8 (26 * 2 ^ 58 + 3 * 2 ^ 48) ++ toBytes 8 0x1234 ++ List.replicate 48 0#8)
     u.packets.map (fun (p : Packet) => (p.src, p.dst, p.cls)) == [(27, 26, 3)] && u.peerReqs.map (fun (r : PeerReq) => (r.port, r.home, r.ia)) == [(27, 26, 0x1234)]) = true := by
  decide +kernel

/-- Host port 0 is up at site 24 with a decoder onto the page of context 1 at site 27. -/
def sHostPort : State :=
  let s := onSite sMem 24 (fun x => { x with hdxia := [BitVec.ofNat 64 (pageIa 0), 0#64, 0#64, 0#64], hdxctx := [1#64, 0#64, 0#64, 0#64] })
  let s := put 0x800 (dws [0x1122334455667788]) { s with hostUp := [true, false, true, true], nextId := 200 }
  { s with mem := cellWriteN s.mem (regionKey s 27 0x2000A0) (dws [2 ^ 63 + 2 * 2 ^ 58 + 15 * 2 ^ 54, pageIa 0, pageIa 0x10000, 0]) }

/-- Statement HostPorts: a port up and one down, a decoder whose access is served, and a line held. -/
theorem witness_hostPorts :
    let q := park sHostPort
    let v : State := { q with nextId := 201, hostReqs := [{ id := 200, port := 0, ctx := 1, ia := pageIa 0x800, n := 8, write := false, bytes := [] }] }
    (portUp q 0 && !portUp q 1 && q.hostUp.length == 4 && q.hostReqs.isEmpty && q.accs.all (fun a => match a.stage with | .host _ => false | _ => true) && !flipping v 1 (pageIa 0x800) && q.cores.all (·.log.isEmpty) && iaNode (pageIa 0x800) == 1 &&
     [rightR, rightW].all (fun r => (place q (hostMaster 0 1) r 24 (pageIa 0x800)).1.attr != 3) &&
     (match masterGet v (hostMaster 0 1) 24 (pageIa 0x800) 8 with | .ok (u, _, _) => u.hostReqs == v.hostReqs | .error _ => false) &&
     (match masterPut v (hostMaster 0 1) 24 (pageIa 0x800) [1#8] false with | .ok u => u.hostReqs == v.hostReqs | .error _ => false) &&
     (let w := park { sHostPort with accs := [{ acc 0 0 0#64 0#64 with stage := .host 24, asked := true, src := 24 }] }
      nearestHostPort w 24 == some 24 && w.accs.length == 1 && w.accs.all (fun a => a.stage == .host 24 && a.asked && a.src == 24 && !a.writes)) &&
     (nearestHostPort q 27).isSome && (nearestHostPort (park {}) 27).isSome == ({} : State).hostUp.any id && (findSite q 24).joined) = true := by
  decide +kernel

/-- R395: the host reads the bytes of the page and writes them; R396: its link goes down and up; R100, R357: a line is
granted, kept for reading only and given up. -/
theorem test_hostPorts :
    nexts (exec (.hostCxlMemAccess 0 0 0x800 8 false []) sHostPort) (fun t => t.hostReqs.map (fun (r : HostReq) => (r.done, ofBytes r.bytes)) == [(true, 0x1122334455667788)]) &&
    nexts (exec (.hostCxlMemAccess 0 0 0x800 0 true [0x99#8]) sHostPort) (fun t =>
      nexts (exec (.hostCxlMemAccess 0 0 0x800 8 false []) t) (fun u => (u.hostReqs.map (fun (r : HostReq) => ofBytes r.bytes)).getLast? == some 0x1122334455667799)) &&
    nexts (exec (.hostCxlMemAccess 1 0 0x800 8 false []) sHostPort) (fun t => t.hostReqs.isEmpty) &&
    nexts (exec (.hostLinkDown 0) sHostPort) (fun t => t.hostUp == [false, false, true, true]) && nexts (exec (.hostLinkUp 1) sHostPort) (fun t => t.hostUp == [true, true, true, true]) &&
    nexts (exec (.hostLineGrant 27 9 false) { sHostPort with hbHeld := [(26, 9)], cores := [{ id := { site := 26 }, l1 := [{ line := 9, data := [], wts := 0, rts := 0 }] }] }) (fun t =>
      t.hbHeld == [(27, 9)] && t.cores.all (·.l1.isEmpty)) &&
    nexts (exec (.hostLineGrant 27 9 false) sHostPort) (fun t => t.hbHeld == [(27, 9)] &&
      nexts (exec (.hostSnoop 27 9 true) t) (fun u => u.hbHeld == [] && u.hbShared == [(27, 9)] && nexts (exec (.hostSnoop 27 9 false) u) (fun v => v.hbShared == []))) := by
  decide +kernel

/-- R342, R395: a decoder whose node is not the module's fails as no home; R396: what waits for the host at a port that goes
down fails as host abort. -/
theorem test_hostFaults :
    nexts (exec (.hostCxlMemAccess 0 0 0x800 8 false []) (onSite sHostPort 24 (fun x => { x with hdxia := [BitVec.ofNat 64 (9 * 2 ^ 52), 0#64, 0#64, 0#64] })))
      (fun t => t.pendings.map (fun (p : Pending) => (p.kind, p.waiters)) == [(5, [.host 200])]) &&
    nexts (exec (.hostLinkDown 0) { sHostPort with accs := [{ acc 0 0 0#64 0#64 with stage := .host 24, asked := true, src := 24 }] })
      (fun t => t.pendings.map (·.kind) == [6]) := by
  decide +kernel

/-- A module that runs a team and holds a score, a defect and memory of its own and of the host. -/
def sRunning : State :=
  { one [] [] with cyc := 77, defects := [(27, 3)], cores := [{ id := { core := 1 }, score := 9 }], mem := cellWriteN (cellWriteN [] host [5#8]) (2 ^ 52) [6#8] }

/-- Statement Firmware: its resets and commands; which bytes verify, digests and which sets pass are free values. -/
theorem witness_firmware :
    (let q := park sRunning
     cellsWf q.mem && q.cores.all (·.score == 9) && q.defects == [(27, 3)] && q.teams.any (fun t => t.at_.site == 27 && (findCtx q t.ctx).part == 0)) &&
    unitExists (unitIdOf 27648) && !unitExists (unitIdOf 0) && ({} : State).clkMhz == 1500 := by
  decide +kernel

/-- R8, R400, R404: a cold reset begins `cyc` anew and empties the module's memory but keeps the score, the defect map and the
host's bytes; a warm one keeps `cyc`; R406: limits and answers; R407: steps of 25 MHz. -/
theorem test_firmware :
    nexts (exec (.coldReset [] [] [] 0) sRunning) (fun t => t.teams.isEmpty && t.cyc == 0 && byteAt t host == 5#8 && byteAt t (2 ^ 52) == 0#8 &&
      t.flash.map recKind == [8] && decide (t.powerLimit ≤ 48000) &&
      t.cores.map (·.score) == [9] && t.defects == [(27, 3)] && (findSite t 27).sta.getLsbD 55) &&
    nexts (exec (.warmReset [] [] [] true) sRunning) (fun t => t.teams.isEmpty && t.cyc == 77 && t.mgmt == [(7, 0)]) &&
    nexts (exec (.coldReset [] [] [] 5) sRunning) (fun t => t.bootStop == 5 && t.hostUp == List.replicate 4 false) &&
    [(7999, 1), (8000, 0), (48000, 0), (48001, 1)].all (fun (w, code) => nexts (exec (.setPowerLimit w) {}) (fun t => t.mgmt == [(1, code)])) &&
    [(0, 1), (1, 0), (255, 0), (256, 1)].all (fun (d, code) => nexts (exec (.writeDomainKey d []) {}) (fun t => t.mgmt == [(4, code)])) &&
    nexts (exec (.writeSitepart 27 3) sRunning) (fun t => t.mgmt == [(5, 1)]) && nexts (exec (.writeSitepart 26 3) sRunning) (fun t => t.mgmt == [(5, 0)] && (findSite t 26).part == 3) &&
    nexts (exec (.powerClockAdjust true) {}) (fun t => t.clkMhz == 1500) && nexts (exec (.powerClockAdjust false) {}) (fun t => t.clkMhz == 1475) &&
    nexts (exec (.getVersion 0) {}) (fun t => t.spdm == [(0, .version 0x12)]) && nexts (exec (.negotiateAlgorithms 0 true false) {}) (fun t => t.spdm == [(0, .unsupportedRequest)]) := by
  decide +kernel

end Sys2Proof.Tests
end

