-- ==== Sys2Proof/Proofs/MemoryKept.lean ====
section
/-!
SUPPORT. Which functions of the state leave the bytes of memory alone: for each of them one equation `(f s …).mem = s.mem`,
tagged for `simp`, and for one that answers with an option or a refusal the same equation at each answer it gives.
-/

namespace Sys2Proof.Laws
open Sys2Proof Sys2Proof.Machine

/-! ### Folds -/

/-- `foldl_mem` with the step, the list and the state left to unification. -/
theorem mem_foldl {α : Type} {g : State → α → State} {xs : List α} {s : State} (h : ∀ s a, (g s a).mem = s.mem) :
    (xs.foldl g s).mem = s.mem :=
  foldl_mem g h xs s

theorem mem_foldl_fst {α β : Type} {g : State × β → α → State × β} {xs : List α} {x : State × β}
    (h : ∀ x a, (g x a).1.mem = x.1.mem) : (xs.foldl g x).1.mem = x.1.mem :=
  List.foldlRecOn (motive := fun y => y.1.mem = x.1.mem) xs g rfl fun y hy a _ => (h y a).trans hy

/-- What each step of a fold that may fail keeps, a fold that ends well has kept. -/
theorem foldl_ok_induction {ε α β : Type} (P : β → Prop) {g : Except ε β → α → Except ε β}
    (herr : ∀ e a, g (.error e) a = .error e) (hok : ∀ b a b', P b → g (.ok b) a = .ok b' → P b')
    {xs : List α} {b b' : β} (hb : P b) (h : xs.foldl g (.ok b) = .ok b') : P b' := by
  refine List.foldlRecOn (motive := fun r => ∀ c, r = .ok c → P c) xs g (fun c hc => ?_) (fun r hr x _ c hc => ?_) b' h
  · cases hc; exact hb
  · cases r with
    | error e => rw [herr] at hc; cases hc
    | ok b => exact hok b x c (hr b rfl) hc

/-! ### Machine/Ops -/

@[simp] theorem focusOn_mem (s0 : State) (uid windex ply : Nat) : (focusOn s0 uid windex ply).mem = s0.mem := by
  unfold focusOn; dsimp only
  repeat' split
  all_goals simp

@[simp] theorem whileParked_mem (s : State) {f : State → State} (hf : ∀ u, (f u).mem = u.mem) :
    (whileParked s f).mem = s.mem := by
  unfold whileParked; split <;> simp [hf]

@[simp] theorem setCore_mem (s : State) (c : Core) : (setCore s c).mem = s.mem := rfl
@[simp] theorem setCluster_mem (s : State) (c : Cluster) : (setCluster s c).mem = s.mem := rfl
@[simp] theorem setMap_mem (s : State) (m : RegMap) : (setMap s m).mem = s.mem := rfl
@[simp] theorem snapLatches_mem (s : State) (id : Nat) (vals : LaneVec) : (snapLatches s id vals).mem = s.mem := rfl
@[simp] theorem snapScalar_mem (s : State) (r : SReg) : (snapScalar s r).mem = s.mem := rfl

@[simp] theorem unmapV_mem (s : State) (n : Nat) : (unmapV s n).mem = s.mem := by
  unfold unmapV; split <;> rfl

@[simp] theorem unmapS_mem (s : State) (n : Nat) : (unmapS s n).mem = s.mem := by
  unfold unmapS; split <;> rfl

@[simp] theorem writeV_mem (s : State) (n : Nat) (m : LaneMask) (vals : LaneVec) : (writeV s n m vals).mem = s.mem := by
  unfold writeV
  repeat' split
  all_goals simp

@[simp] theorem writeS_mem (s : State) (n : Nat) (x : DWord) : (writeS s n x).mem = s.mem := by
  unfold writeS
  repeat' split
  all_goals simp

@[simp] theorem writeK_mem (s : State) (k : Nat) (m x : LaneMask) : (writeK s k m x).mem = s.mem := rfl
@[simp] theorem orFlags_mem (s : State) (fl : Flags) : (orFlags s fl).mem = s.mem := rfl

@[simp] theorem divergeLatch_mem (s : State) (site phys : Nat) (hit : Arrival → Bool) :
    (divergeLatch s site phys hit).mem = s.mem :=
  mem_foldl fun _ _ => rfl

@[simp] theorem fatalParked_mem (s : State) (uid : Nat) : (fatalParked s uid).mem = s.mem := by
  unfold fatalParked
  repeat' split
  all_goals simp

@[simp] theorem fatalTeam_mem (s0 : State) (uid code : Nat) (info : List DWord) :
    (fatalTeam s0 uid code info).mem = s0.mem := by
  unfold fatalTeam; dsimp only; split <;> simp

@[simp] theorem takeTrap_mem (s : State) (code : Nat) (epc : DWord) (info : List DWord) (mask : LaneMask) :
    (takeTrap s code epc info mask).mem = s.mem := by
  unfold takeTrap
  repeat' split
  all_goals simp

@[simp] theorem returnFromTrap_mem (s : State) : (returnFromTrap s).mem = s.mem := rfl

@[simp] theorem crewReport_mem (s : State) (t : Team) (ws : List Weave) : (crewReport s t ws).mem = s.mem := by
  unfold crewReport; split <;> rfl

@[simp] theorem consumeError_mem (s : State) (info : DWord) (ia : Nat) : (consumeError s info ia).mem = s.mem := by
  unfold consumeError
  repeat' split
  all_goals simp

/-! ### Machine/Home -/

@[simp] theorem setSite_mem (s : State) (x : Site) : (setSite s x).mem = s.mem := rfl

@[simp] theorem afterWalks_mem (s : State) (m : Master) (right src ia n : Nat) :
    (afterWalks s m right src ia n).mem = s.mem :=
  mem_foldl fun _ _ => rfl

@[simp] theorem poisonWords_mem (s : State) (key n : Nat) : (poisonWords s key n).mem = s.mem := rfl

/-! ### Machine/Memory -/

@[simp] theorem updWeave_mem (s : State) (uid windex : Nat) (f : Weave → Weave) :
    (updWeave s uid windex f).mem = s.mem := by
  unfold updWeave
  repeat' split
  all_goals simp

@[simp] theorem updAllWeaves_mem (s : State) (f : Nat → Weave → Weave) : (updAllWeaves s f).mem = s.mem := rfl

@[simp] theorem updPly_mem (s : State) (uid windex n : Nat) (f : Ply → Ply) :
    (updPly s uid windex n f).mem = s.mem := by
  unfold updPly; split <;> simp

@[simp] theorem updTeam_mem (s : State) (uid : Nat) (f : Team → Team) : (updTeam s uid f).mem = s.mem := by
  unfold updTeam; split <;> rfl

@[simp] theorem stampOnly_mem (s : State) (ia n ts : Nat) : (stampOnly s ia n ts).mem = s.mem := by simp [stampOnly]

@[simp] theorem agentRead_mem (s : State) (key ia n : Nat) : (agentRead s key ia n).1.mem = s.mem := by
  unfold agentRead
  grind [mem_foldl, setTs_mem, gateStamp_mem]

@[simp] theorem loadTs_mem (s : State) (pts : Nat) (lines : List Nat) : (loadTs s pts lines).1.mem = s.mem :=
  mem_foldl fun _ _ => rfl

@[simp] theorem sendMsi_mem (s : State) (src vec : Nat) : (sendMsi s src vec).mem = s.mem := by
  unfold sendMsi
  repeat' split
  all_goals simp

/-! ### Machine/Registers -/

@[simp] theorem portGoesDown_mem (s : State) (site : Nat) : (portGoesDown s site).mem = s.mem := by
  unfold portGoesDown; split <;> rfl

@[simp] theorem portComesUp_mem (s : State) (site : Nat) : (portComesUp s site).mem = s.mem := by
  unfold portComesUp; dsimp only; split <;> simp

@[simp] theorem writeOpctl_mem (s : State) (site : Nat) (v : DWord) : (writeOpctl s site v).mem = s.mem := by
  unfold writeOpctl; dsimp only
  repeat' split
  all_goals simp

@[simp] theorem fixShares_mem (s : State) (site : Nat) : (fixShares s site).mem = s.mem := rfl
@[simp] theorem settleShares_mem (s : State) (site : Nat) : (settleShares s site).mem = s.mem := rfl

@[simp] theorem changeShares_mem (s : State) (site : Nat) {f : State → State} (hf : ∀ u, (f u).mem = u.mem) :
    (changeShares s site f).mem = s.mem := by
  simp [changeShares, hf]

@[simp] theorem writeBgt_mem (s : State) (site k : Nat) (v : DWord) : (writeBgt s site k v).mem = s.mem := by
  unfold writeBgt
  grind [changeShares_mem, onSite_mem]

@[simp] theorem spend_mem (s : State) (site cls : Nat) (u : Use) : (spend s site cls u).mem = s.mem := by
  unfold spend
  exact mem_foldl fun _ _ => by split <;> simp

@[simp] theorem payOn_mem (s : State) (key : Nat × Nat × Nat) (site cls : Nat) (need : Use) :
    (payOn s key site cls need).1.mem = s.mem := by
  simp [payOn]

@[simp] theorem endPayment_mem (s : State) (key : Nat × Nat × Nat) : (endPayment s key).mem = s.mem := rfl

@[simp] theorem plainWrite_mem (s : State) (site off : Nat) (v : DWord) : (plainWrite s site off v).mem = s.mem := by
  simp only [plainWrite, apply_ite State.mem, onSite_mem, ite_self]

/-! ### Machine/Mesh -/

@[simp] theorem takePseq_mem (s : State) (src dst cls : Nat) : (takePseq s src dst cls).1.mem = s.mem := rfl

@[simp] theorem sendPacket_mem (s : State) (src dst cls acc : Nat) (ext : Bool) (cmd : List Nat) :
    (sendPacket s src dst cls acc ext cmd).mem = s.mem :=
  rfl

@[simp] theorem putOut_mem (s : State) (port node : Nat) (p : Packet) (cmd : List DWord) (data : List Byte) :
    (putOut s port node p cmd data).mem = s.mem :=
  rfl

@[simp] theorem portOut_mem (s : State) (port src ia ctx cls : Nat) (data : List Byte) :
    (portOut s port src ia ctx cls data).mem = s.mem :=
  rfl

@[simp] theorem leaveDistant_mem (s : State) (src ia ctx : Nat) (data : List Byte) :
    (leaveDistant s src ia ctx data).mem = s.mem := by
  unfold leaveDistant
  repeat' split
  all_goals simp

/-! ### Machine/Digest -/

@[simp] theorem onAnyTeam_mem (s : State) (uid : Nat) (f : Team → Team) : (onAnyTeam s uid f).mem = s.mem := by
  unfold onAnyTeam; split <;> simp

@[simp] theorem hookStore_mem (s : State) (t : Team) (a : Acc) : (hookStore s t a).1.mem = s.mem := by
  unfold hookStore; dsimp only
  repeat' split
  all_goals simp

/-! ### Machine/Access -/

@[simp] theorem joinPending_mem (s : State) (e : Failure) (r : Requester) (w : Waiter) :
    (joinPending s e r w).1.mem = s.mem := by
  unfold joinPending; dsimp only
  repeat' split
  all_goals simp

@[simp] theorem holdPending_mem (s : State) (e : Failure) (r : Requester) (w : Waiter) :
    (holdPending s e r w).1.mem = s.mem := by
  unfold holdPending
  grind [joinPending_mem]

@[simp] theorem pushLog_mem (s : State) (e : LogEntry) : (pushLog s e).mem = s.mem := rfl

@[simp] theorem faultAccess_mem (s : State) (a : Acc) (e : Failure) : (faultAccess s a e).mem = s.mem := by
  unfold faultAccess; dsimp only
  repeat' split
  all_goals simp

@[simp] theorem deliver_mem (s : State) (uid windex tag ln : Nat) (x : DWord) (bad : Option Nat) (sh : Nat) :
    (deliver s uid windex tag ln x bad sh).mem = s.mem := by
  simp [deliver]

@[simp] theorem raisePts_mem (s : State) (a : Acc) (ts : Nat) : (raisePts s a ts).mem = s.mem := by simp [raisePts]

@[simp] theorem recordSpec_mem (s : State) (a : Acc) (lines : List (Nat × Nat)) :
    (recordSpec s a lines).mem = s.mem := by
  unfold recordSpec; split <;> simp

@[simp] theorem l1Fill_mem (s : State) (core : CoreId) (key ia attr policy : Nat) :
    (l1Fill s core key ia attr policy).mem = s.mem := by
  unfold l1Fill; split <;> rfl

@[simp] theorem l1Read_mem (s : State) (core : CoreId) (pts key ia n attr policy : Nat) :
    (l1Read s core pts key ia n attr policy).1.mem = s.mem := by
  unfold l1Read; dsimp only; split <;> simp

@[simp] theorem loadPiece_mem (s : State) (a : Acc) (p : Piece) : (loadPiece s a p).1.mem = s.mem := by
  unfold loadPiece
  cases p.place with
  | ctl site off => rfl
  | fail h k l => rfl
  | cell key attr =>
    dsimp only
    split
    · simp
    · simp

@[simp] theorem loadPieces_mem (s : State) (a : Acc) (ps : List Piece) : (loadPieces s a ps).1.mem = s.mem := by
  induction ps generalizing s with
  | nil => rfl
  | cons p rest ih => exact (ih _).trans (loadPiece_mem s a p)

@[simp] theorem spoilWords_mem (s : State) (key n : Nat) (bad : Bool) : (spoilWords s key n bad).mem = s.mem := by
  unfold spoilWords; split <;> rfl

@[simp] theorem dropResv_mem (s : State) (a : Acc) : (dropResv s a).mem = s.mem := by simp [dropResv]

@[simp] theorem stampFailed_mem (s0 : State) (a : Acc) (p : Piece) : (stampFailed s0 a p).mem = s0.mem := by
  unfold stampFailed; dsimp only
  repeat' split
  all_goals simp

@[simp] theorem spoilUc_mem (s : State) (uid : Nat) (ps : List Place) : (spoilUc s uid ps).mem = s.mem := by
  unfold spoilUc; split <;> simp

@[simp] theorem answered_mem (s : State) (a : Acc) (x : DWord) (bad : Option Nat) :
    (answered s a x bad).mem = s.mem := by
  unfold answered; split <;> simp

@[simp] theorem answerAccess_mem (s : State) (a : Acc) (x : DWord) (bad : Option Nat) (from_ : Nat) :
    (answerAccess s a x bad from_).mem = s.mem := by
  unfold answerAccess; split <;> simp

@[simp] theorem holdAcc_mem (s : State) (a : Acc) : (holdAcc s a).mem = s.mem := rfl

@[simp] theorem askHost_mem (s : State) (a : Acc) : (askHost s a).mem = s.mem := by
  unfold askHost
  repeat' split
  all_goals simp

@[simp] theorem leavePort_mem (s : State) (a : Acc) : (leavePort s a).mem = s.mem := by
  unfold leavePort; split <;> rfl

@[simp] theorem takeGseq_mem (s : State) (a : Acc) : (takeGseq s a).1.mem = s.mem := by
  unfold takeGseq; split <;> simp

/-! ### Machine/Agents -/

@[simp] theorem giveUpLine_mem (s : State) (site line : Nat) : (giveUpLine s site line).mem = s.mem := rfl

@[simp] theorem othersGiveUp_mem (s : State) (site line : Nat) : (othersGiveUp s site line).mem = s.mem :=
  mem_foldl fun _ _ => rfl

@[simp] theorem holdLine_mem (s : State) (site line : Nat) (shared : Bool) :
    (holdLine s site line shared).mem = s.mem := by
  unfold holdLine; dsimp only
  repeat' split
  all_goals simp

@[simp] theorem takeHostLine_mem (s : State) (m : Master) (src attr ia : Nat) (only : Bool) :
    (takeHostLine s m src attr ia only).mem = s.mem := by
  unfold takeHostLine; split <;> simp

theorem masterGet_mem {s : State} {m : Master} {src ia n : Nat} {t : State} {bs : List Byte} {bad : Bool}
    (h : masterGet s m src ia n = .ok (t, bs, bad)) : t.mem = s.mem := by
  unfold masterGet at h
  grind [agentRead_mem, takeHostLine_mem, leaveDistant_mem, cacheWalk_mem]

theorem agentGet_mem {s : State} {ctx src ia n : Nat} {t : State} {bs : List Byte} {bad : Bool}
    (h : agentGet s ctx src ia n = .ok (t, bs, bad)) : t.mem = s.mem := by
  unfold agentGet at h
  grind [masterGet_mem]

theorem agentGetAll_mem {s : State} {ctx src : Nat} {wins : List Window} {va n : Nat} {t : State} {bs : List Byte}
    {bad : Bool} (h : agentGetAll s ctx src wins va n = .ok (t, bs, bad)) : t.mem = s.mem := by
  refine foldl_ok_induction (fun x => x.1.mem = s.mem) (fun _ _ => rfl) ?_ rfl h
  rintro ⟨s1, bs, bad⟩ ⟨a, len⟩ b hs hb
  grind [agentGet_mem]

theorem teamGetAll_mem {s : State} {uid ctx src : Nat} {wins : List Window} {va n : Nat} {t : State} {bs : List Byte}
    {bad : Bool} (h : teamGetAll s uid ctx src wins va n = .ok (t, bs, bad)) : t.mem = s.mem := by
  unfold teamGetAll at h
  cases hg : agentGetAll s ctx src wins va n with
  | error e => rw [hg] at h; cases h
  | ok x =>
    rw [hg] at h
    cases h
    simpa using agentGetAll_mem hg

@[simp] theorem readScratch_mem (s : State) (uid a n : Nat) : (readScratch s uid a n).mem = s.mem := by
  simp [readScratch]

@[simp] theorem putScratch_mem (s0 : State) (uid a : Nat) (bytes : List Byte) (bad : Bool) :
    (putScratch s0 uid a bytes bad).mem = s0.mem := by
  unfold putScratch; dsimp only
  repeat' split
  all_goals simp

@[simp] theorem engineEvent_mem (s : State) (uid windex : Nat) : (engineEvent s uid windex).mem = s.mem := by
  unfold engineEvent; split <;> simp

@[simp] theorem dropHandle_mem (s : State) (uid windex h : Nat) : (dropHandle s uid windex h).mem = s.mem := by
  unfold dropHandle; split <;> simp

@[simp] theorem spoilRange_mem (s : State) (va n : Nat) : (spoilRange s va n).mem = s.mem := by
  unfold spoilRange; dsimp only; split <;> simp

/-! ### Machine/Records -/

@[simp] theorem noteState_mem (s : State) (w : RecWrite) : (noteState s w).mem = s.mem := by
  unfold noteState; split <;> rfl

@[simp] theorem dropRecord_mem (s : State) (id : Nat) : (dropRecord s id).mem = s.mem := by
  unfold dropRecord
  grind [mem_foldl, noteState_mem]

@[simp] theorem noteWork_mem (s : State) (launch unit : Nat) : (noteWork s launch unit).mem = s.mem := rfl

/-! ### Machine/Issue -/

@[simp] theorem applyWrite_mem (s : State) (w : Write) : (applyWrite s w).mem = s.mem := by
  unfold applyWrite; split <;> simp

@[simp] theorem applyWrites_mem (s : State) (ws : List Write) : (applyWrites s ws).mem = s.mem := by
  unfold applyWrites
  exact mem_foldl fun _ _ => by simp

@[simp] theorem unmapName_mem (s : State) (c : Nat) : (unmapName s c).mem = s.mem := by
  unfold unmapName; split <;> simp

@[simp] theorem closeLatches_mem (s : State) (r : Row) (f : Fields) : (closeLatches s r f).mem = s.mem := by
  unfold closeLatches
  exact mem_foldl fun _ _ => by split <;> simp

@[simp] theorem countLatches_mem (s : State) : (countLatches s).mem = s.mem := rfl

@[simp] theorem openLatch_mem (s : State) (slot : Slot) (w : Option LatchWin) : (openLatch s slot w).mem = s.mem := by
  unfold openLatch; split <;> rfl

@[simp] theorem countIssue_mem (before : List Ply) (s : State) : (countIssue before s).mem = s.mem := rfl

@[simp] theorem markPending_mem (s : State) (r : Row) (f : Fields) (ws : List Write) :
    (markPending s r f ws).mem = s.mem := by
  unfold markPending; dsimp only; split <;> simp

@[simp] theorem countSr_mem (s : State) (r : Row) (f : Fields) (m : LaneMask) : (countSr s r f m).mem = s.mem := by
  unfold countSr; split <;> rfl

@[simp] theorem stand_mem (s : State) (w : Wait) : (stand s w).mem = s.mem := rfl
@[simp] theorem stallAt_mem (s : State) (short : Bool × Bool) : (stallAt s short).mem = s.mem := rfl

@[simp] theorem spoilCyc_mem (s : State) (r : Row) (f : Fields) : (spoilCyc s r f).mem = s.mem := by
  unfold spoilCyc; split <;> rfl

@[simp] theorem afterReads_mem (s : State) (r : Row) (f : Fields) : (afterReads s r f).mem = s.mem := by
  unfold afterReads
  simp [mem_foldl]

@[simp] theorem noteNames_mem (s : State) (names : List (Nat × LaneMask)) : (noteNames s names).mem = s.mem := rfl

@[simp] theorem complete_mem (s0 : State) (r : Row) (f : Fields) (a : DWord) (m : LaneMask) (s : State)
    (ws : List Write) (fl : Flags) (next : Option DWord) : (complete s0 r f a m s ws fl next).mem = s.mem := by
  simp [complete]

@[simp] theorem afterHold_mem (s0 s : State) (r : Row) (f : Fields) : (afterHold s0 s r f).mem = s.mem := by
  simp [afterHold]

theorem finish_mem_or (s0 : State) (r : Row) (f : Fields) (a : DWord) (m : LaneMask) (s : State) (ws : List Write)
    (fl : Flags) (next : Option DWord) :
    (finish s0 r f a m s ws fl next).mem = s0.mem ∨ (finish s0 r f a m s ws fl next).mem = s.mem := by
  unfold finish
  repeat' split
  all_goals simp

@[simp] theorem withdrawArrival_mem (s : State) : (withdrawArrival s).mem = s.mem := rfl

@[simp] theorem issueBlocked_mem (s : State) (r : Row) (op : Nat) (f : Fields) (a : DWord) (m : LaneMask) :
    (issueBlocked s r op f a m).mem = s.mem := by
  unfold issueBlocked
  repeat' split
  all_goals simp

/-! ### Machine/Lanes -/

theorem fillStack_mem {s : State} {va n : Nat} {t : State} (h : fillStack s va n = .ok t) : t.mem = s.mem := by
  refine foldl_ok_induction (fun x => x.mem = s.mem) (fun _ _ => rfl) ?_ rfl h
  intro s1 k b hs hb
  dsimp only at hb
  repeat' split at hb
  all_goals cases hb <;> simp [hs]

@[simp] theorem clearLocal_mem (s : State) (space a n : Nat) : (clearLocal s space a n).mem = s.mem := rfl
@[simp] theorem stampLoad_mem (s : State) (space a n : Nat) : (stampLoad s space a n).mem = s.mem := by simp [stampLoad]

@[simp] theorem stampStore_mem (s : State) (space a n : Nat) (atomic : Bool) :
    (stampStore s space a n atomic).mem = s.mem := by
  simp [stampStore]

@[simp] theorem scratchWrite_mem (s0 : State) (a : Nat) (bytes : List Byte) : (scratchWrite s0 a bytes).mem = s0.mem :=
  rfl

@[simp] theorem poisonLocal_mem (s : State) (space w : Nat) : (poisonLocal s space w).mem = s.mem := by
  unfold poisonLocal; split <;> rfl

@[simp] theorem startLoad_mem (s : State) (f : Fields) (a : DWord) (m : LaneMask) (type : Nat) (wide acq : Bool)
    (more : List Nat) (mem : Bool) : (startLoad s f a m type wide acq more mem).1.mem = s.mem :=
  rfl

@[simp] theorem deliverHere_mem (s : State) (tag i : Nat) (x : DWord) (bad : Option Nat) (sh : Nat) :
    (deliverHere s tag i x bad sh).mem = s.mem := by
  simp [deliverHere]

/-! ### Machine/MemInstr -/

@[simp] theorem spoilRead_mem (s : State) (va ia n : Nat) : (spoilRead s va ia n).mem = s.mem := by
  unfold spoilRead; dsimp only
  repeat' split
  all_goals simp

@[simp] theorem readFault_mem (s : State) (e : Failure) (va : Nat) (all : List (Nat × DWord)) :
    (readFault s e va all).mem = s.mem := by
  simp [readFault]

theorem fillLanes_mem {lanes : List (Nat × DWord)} {n : Nat} {s : State} {t : State} (h : fillLanes lanes n s = .ok t) :
    t.mem = s.mem := by
  refine foldl_ok_induction (fun x => x.mem = s.mem) (fun _ _ => rfl) ?_ (spend_mem _ _ _ _) h
  rintro s1 ⟨i, va⟩ b hs hb
  exact (fillStack_mem hb).trans hs

@[simp] theorem recordLocal_mem (s : State) (space a n : Nat) : (recordLocal s space a n).mem = s.mem := rfl

@[simp] theorem localLoad_mem (space : Nat) (f : Fields) (r : Resolved) (a : DWord) (m : LaneMask)
    (lanes : List (Nat × DWord)) (value : State → Nat → Nat × Option Nat) (s : State) :
    (localLoad space f r a m lanes value s).mem = s.mem := by
  unfold localLoad
  refine (mem_foldl ?_).trans ?_
  · rintro acc ⟨i, va⟩
    dsimp only
    split <;> simp
  · dsimp only
    split <;> simp

@[simp] theorem takeSerial_mem (s : State) : (takeSerial s).mem = s.mem := rfl

@[simp] theorem queueStores_mem (accs : List Acc) (c : FenceCkpt) (s : State) : (queueStores accs c s).mem = s.mem :=
  rfl

@[simp] theorem prefetchLine_mem (s : State) (ia policy : Nat) : (prefetchLine s ia policy).mem = s.mem := by
  unfold prefetchLine; dsimp only
  repeat' split
  all_goals simp

/-! ### Machine/Engine -/

@[simp] theorem setRes_mem (s : State) (uid : Nat) (r : Resn) : (setRes s uid r).mem = s.mem := by simp [setRes]

theorem postCmd_mem {s : State} {e : EngCmd} {t : State} (h : postCmd s e = some t) : t.mem = s.mem := by
  unfold postCmd at h
  grind [mem_foldl, setCluster_mem, updTeam_mem]

@[simp] theorem freeReleased_mem (s : State) (uid site phys : Nat) : (freeReleased s uid site phys).mem = s.mem := by
  simp [freeReleased]

@[simp] theorem noteEngine_mem (s : State) (site phys : Nat) (e : EngCmd) : (noteEngine s site phys e).mem = s.mem := by
  unfold noteEngine
  grind [mem_foldl, noteWork_mem]

@[simp] theorem completeCmd_mem (s : State) (site phys : Nat) (e : EngCmd) :
    (completeCmd s site phys e).mem = s.mem := by
  unfold completeCmd
  simp [mem_foldl]

@[simp] theorem setCmd_mem (s : State) (site phys : Nat) (e : EngCmd) : (setCmd s site phys e).mem = s.mem := rfl

@[simp] theorem faultCmd_mem (s : State) (site phys : Nat) (e : EngCmd) (f : Failure) (acc : Nat) :
    (faultCmd s site phys e f acc).mem = s.mem := by
  simp [faultCmd]

theorem stageRows_mem {s : State} {site : Nat} {e : EngCmd} {g : GatherList} {base : Nat} {ra : Resn} {t : State}
    {rows : List (Option (List Byte))} {bad : Bool} (h : stageRows s site e g base ra = .ok (t, rows, bad)) :
    t.mem = s.mem := by
  refine foldl_ok_induction (fun x => x.1.mem = s.mem) (fun _ _ => rfl) ?_ rfl h
  rintro ⟨s1, rows, bad⟩ i b hs hb
  grind [teamGetAll_mem]

@[simp] theorem grantCmd_mem (s : State) (site phys : Nat) (e : EngCmd) : (grantCmd s site phys e).mem = s.mem := by
  unfold grantCmd
  repeat' split
  all_goals simp
  rename_i h
  exact stageRows_mem h

@[simp] theorem consumeAt_mem (s : State) (uid windex : Nat) (info : DWord) :
    (consumeAt s uid windex info).mem = s.mem := by
  unfold consumeAt; split <;> simp

@[simp] theorem endPass_mem (s : State) (site phys : Nat) (e : EngCmd) : (endPass s site phys e).mem = s.mem := by
  unfold endPass
  grind [mem_foldl, consumeAt_mem, completeCmd_mem, setRes_mem]

theorem obloadPiece_mem {s : State} {site : Nat} {e : EngCmd} {a n : Nat} {t : State}
    (h : obloadPiece s site e a n = .ok t) : t.mem = s.mem := by
  unfold obloadPiece at h
  grind [teamGetAll_mem, readScratch_mem, setRes_mem]

theorem accLdPiece_mem {s : State} {site : Nat} {e : EngCmd} {r : Resn} {i j : Nat} {t : State}
    (h : accLdPiece s site e r i j = .ok t) : t.mem = s.mem := by
  unfold accLdPiece at h
  grind [teamGetAll_mem, readScratch_mem, setRes_mem]

/-! ### Machine/Spill -/

theorem getLines_mem {s : State} {m : Team} {w : Weave} {va n : Nat} {t : State} {bs : List Byte}
    (h : getLines s m w va n = .ok (t, bs)) : t.mem = s.mem := by
  refine foldl_ok_induction (fun x => x.1.mem = s.mem) (fun _ _ => rfl) ?_ rfl h
  rintro ⟨s1, bs⟩ ⟨a, len⟩ b hs hb
  grind [masterGet_mem]

theorem readArea_mem {s : State} {m : Team} {w : Weave} {t : State} {bs : List Byte}
    (h : readArea s m w = .ok (t, bs)) : t.mem = s.mem := by
  refine foldl_ok_induction (fun x => x.1.mem = s.mem) (fun _ _ => rfl) ?_ rfl h
  rintro ⟨s1, bs⟩ ⟨off, n⟩ b hs hb
  grind [getLines_mem]

@[simp] theorem refillWeave_mem (s : State) (uid windex : Nat) : (refillWeave s uid windex).mem = s.mem := by
  unfold refillWeave
  repeat' split
  all_goals simp
  rename_i h
  exact readArea_mem h

/-! ### Machine/Save -/

theorem readPages_mem {s : State} {m : Master} {src : Nat} {pages : List Nat} {t : State} {bs : List Byte}
    {bad : Bool} (h : readPages s m src pages = .ok (t, bs, bad)) : t.mem = s.mem := by
  refine foldl_ok_induction (fun x => x.1.mem = s.mem) (fun _ _ => rfl) ?_ rfl h
  rintro ⟨s1, bs, bad⟩ k b hs hb
  grind [masterGet_mem]

@[simp] theorem rollFence_mem (s : State) (uid windex n : Nat) (again : Bool) :
    (rollFence s uid windex n again).mem = s.mem := by
  unfold rollFence
  repeat' split
  all_goals simp

@[simp] theorem rollTeam_mem (s : State) (t : Team) : (rollTeam s t).mem = s.mem := by
  unfold rollTeam
  simp [mem_foldl]

@[simp] theorem endSuspended_mem (s : State) (launch uid code : Nat) (info : List DWord) :
    (endSuspended s launch uid code info).mem = s.mem := by
  unfold endSuspended
  repeat' split
  all_goals simp

@[simp] theorem regang_mem (s : State) (x : Suspended) : (regang s x).mem = s.mem := mem_foldl fun _ _ => rfl

/-! ### Machine/CopyEngine -/

@[simp] theorem takeHandle_mem (s : State) (copy : Bool) (promise : DWord) :
    (takeHandle s copy promise).1.mem = s.mem :=
  rfl

theorem readElem_mem {s : State} {site : Nat} {c : Copy} {k : Nat} {t : State} {bs : List Byte} {bad : Bool}
    (h : readElem s site c k = .ok (t, bs, bad)) : t.mem = s.mem := by
  unfold readElem at h
  grind [teamGetAll_mem, readScratch_mem]

@[simp] theorem setCopy_mem (s : State) (site phys : Nat) (c : Copy) : (setCopy s site phys c).mem = s.mem := rfl

@[simp] theorem handElem_mem (site : Nat) (x : State × Copy) (k : Nat) : (handElem site x k).1.mem = x.1.mem := by
  unfold handElem
  grind [readElem_mem, leaveDistant_mem]

@[simp] theorem handElems_mem (s : State) (site phys n : Nat) (c : Copy) : (handElems s site phys n c).mem = s.mem := by
  rw [handElems, setCopy_mem, spend_mem]
  exact mem_foldl_fst fun x k => handElem_mem site x (c.handed + k)

@[simp] theorem handBytes_mem (site phys : Nat) (cs : List Copy) (left : Nat) (s : State) :
    (handBytes site phys cs left s).mem = s.mem := by
  induction cs generalizing left s with
  | nil => rfl
  | cons c rest ih =>
    unfold handBytes
    rw [ih]
    simp only [apply_ite State.mem, handElems_mem, ite_self]

@[simp] theorem setRemote_mem (s : State) (o : RemoteOp) : (setRemote s o).mem = s.mem := rfl

@[simp] theorem holdRemote_mem (s : State) (o : RemoteOp) (l : RLine) (f : Failure) (acc : Nat) :
    (holdRemote s o l f acc).mem = s.mem := by
  simp [holdRemote]

@[simp] theorem logRemote_mem (s : State) (o : RemoteOp) (l : RLine) (f : Failure) :
    (logRemote s o l f).mem = s.mem := by
  unfold logRemote
  grind [mem_foldl, joinPending_mem, setRemote_mem, holdRemote_mem, pushLog_mem]

theorem readLocal_mem {s : State} {o : RemoteOp} {l : RLine} {t : State} {bs : List Byte} {bad : Bool}
    (h : readLocal s o l = .ok (t, bs, bad)) : t.mem = s.mem := by
  unfold readLocal at h
  grind [agentGetAll_mem, readScratch_mem]

/-! ### Machine/Control -/

@[simp] theorem addPly_mem (s : State) (p : Ply) : (addPly s p).mem = s.mem := rfl

@[simp] theorem renamePlies_mem (s : State) (u w : Nat) (old : List Nat) (n : Nat) :
    (renamePlies s u w old n).mem = s.mem :=
  rfl

theorem meetPlies_mem {s : State} {t : State} (h : meetPlies s = some t) : t.mem = s.mem := by
  unfold meetPlies at h
  grind [mem_foldl, renamePlies_mem]

@[simp] theorem weaveEnded_mem (s : State) : (weaveEnded s).mem = s.mem := by simp [weaveEnded]

@[simp] theorem endLanes_mem (m : LaneMask) (s : State) : (endLanes m s).mem = s.mem := by
  unfold endLanes; dsimp only; split <;> simp

/-! ### Machine/Sync -/

theorem meetTeam_mem {s : State} {t : State} (h : meetTeam s = some t) : t.mem = s.mem := by
  unfold meetTeam at h
  grind [mem_foldl, renamePlies_mem]

@[simp] theorem stampMst_mem (s : State) (t : Team) (off n : Nat) : (stampMst s t off n).mem = s.mem := by
  unfold stampMst; split <;> simp

@[simp] theorem mstLane_mem (s : State) (crew : Crew) (off : Nat) (bytes : List Byte) :
    (mstLane s crew off bytes).mem = s.mem := by
  unfold mstLane
  grind [mem_foldl, stampStore_mem, scratchWrite_mem, stampMst_mem, onLaunch_mem]

/-! ### Machine/RemoteInstr -/

@[simp] theorem stampPlain_mem (s : State) (a n : Nat) : (stampPlain s a n).mem = s.mem := by
  unfold stampPlain
  grind [mem_foldl, loadTs_mem]

@[simp] theorem acceptCopy_mem (s : State) (f : Fields) (c : Copy) : (acceptCopy s f c).1.mem = s.mem := rfl

@[simp] theorem spoilCopy_mem (s : State) (c : Copy) : (spoilCopy s c).mem = s.mem := by
  unfold spoilCopy
  grind [mem_foldl, spoilRange_mem]

@[simp] theorem renewCopy_mem (s : State) (k : Cluster) (c : Copy) : (renewCopy s k c).1.mem = s.mem := rfl

@[simp] theorem reserveDst_mem (f : Fields) (perLane : Bool) (s : State) : (reserveDst f perLane s).mem = s.mem := by
  simp [reserveDst]

@[simp] theorem releaseDst_mem (f : Fields) (perLane : Bool) (s : State) : (releaseDst f perLane s).mem = s.mem := rfl
@[simp] theorem dropAnswer_mem (ans : LaunchAns) (s : State) : (dropAnswer ans s).mem = s.mem := rfl

@[simp] theorem signalTeam_mem (s : State) (lix : Nat) : (signalTeam s lix).1.mem = s.mem := by
  unfold signalTeam
  repeat' split
  all_goals simp

/-! ### Machine/Sleep -/

theorem armLoad_mem {s : State} {ia : Nat} {t : State} {bs : List Byte} {bad : Bool}
    (h : armLoad s ia = some (.ok (t, bs, bad))) : t.mem = s.mem := by
  unfold armLoad at h
  grind [agentGet_mem]

/-! ### Machine/Sched -/

theorem whenPly_mem (s : State) (uid windex n : Nat) {f : Team → Weave → Ply → State}
    (hf : ∀ t w p, (f t w p).mem = s.mem) : (whenPly s uid windex n f).mem = s.mem := by
  unfold whenPly
  repeat' split
  all_goals simp [hf]

@[simp] theorem dropWatch_mem (s : State) (uid windex n : Nat) : (dropWatch s uid windex n).mem = s.mem := rfl
@[simp] theorem returnLoad_mem (s : State) (l : LoadReq) : (returnLoad s l).mem = s.mem := by simp [returnLoad]
@[simp] theorem fillTable_mem (s : State) (site phys : Nat) : (fillTable s site phys).mem = s.mem := rfl

/-! ### Machine/Faults -/

@[simp] theorem setHostReq_mem (s : State) (r : HostReq) : (setHostReq s r).mem = s.mem := rfl

@[simp] theorem hostFails_mem (s : State) (r : HostReq) (e : Failure) : (hostFails s r e).mem = s.mem := by
  simp [hostFails]

@[simp] theorem answerPeer_mem (s : State) (r : PeerReq) : (answerPeer s r).mem = s.mem := rfl

@[simp] theorem holdPeer_mem (s : State) (r : PeerReq) (f : Failure) : (holdPeer s r f).mem = s.mem := by
  simp [holdPeer]

@[simp] theorem serviceSuspended_mem (s : State) (key : Nat × Nat) : (serviceSuspended s key).mem = s.mem := rfl

@[simp] theorem payReplay_mem (s : State) (ps : List Pending) : (payReplay s ps).1.mem = s.mem :=
  mem_foldl_fst fun _ _ => payOn_mem _ _ _ _ _

@[simp] theorem openReplay_mem (s : State) (p : Pending) : (openReplay s p).mem = s.mem := rfl

@[simp] theorem cancelTeam_mem (s : State) (uid : Nat) (info : List DWord) : (cancelTeam s uid info).mem = s.mem := by
  unfold cancelTeam
  repeat' split
  all_goals simp

@[simp] theorem cancelWaiter_mem (s : State) (w : Waiter) : (cancelWaiter s w).mem = s.mem := by
  cases w with
  | engine id =>
    simp only [cancelWaiter]
    split
    · rename_i c _
      cases c.cmds.find? (·.id == id) <;> simp
    · rfl
  | copy id => simp only [cancelWaiter]; split <;> rfl
  | peer id => simp only [cancelWaiter]; split <;> simp
  | record id => simp [cancelWaiter]
  | _ => rfl

@[simp] theorem poisonStack_mem (s : State) (uid windex n : Nat) : (poisonStack s uid windex n).mem = s.mem := by
  unfold poisonStack
  repeat' split
  all_goals simp

@[simp] theorem poisonPacket_mem (s : State) (acc : Nat) : (poisonPacket s acc).mem = s.mem := rfl

@[simp] theorem markPoison_mem (s : State) (place uid windex n : Nat) :
    (markPoison s place uid windex n).mem = s.mem := by
  unfold markPoison; split <;> simp

/-! ### Machine/Scan -/

@[simp] theorem setUnitScore_mem (s : State) (u : UnitId) (x : Nat) : (setUnitScore s u x).mem = s.mem := by
  unfold setUnitScore; split <;> rfl

@[simp] theorem setUnitScan_mem (s : State) (u : UnitId) (x : ScanState) : (setUnitScan s u x).mem = s.mem := by
  unfold setUnitScan; split <;> rfl

@[simp] theorem setScanSet_mem (s : State) (u : UnitId) (k : Nat) : (setScanSet s u k).mem = s.mem := by
  unfold setScanSet; split <;> rfl

@[simp] theorem askLeave_mem (s : State) (p : Team → Bool) (rs : Nat) : (askLeave s p rs).mem = s.mem := rfl
@[simp] theorem markDead_mem (s : State) (u : UnitId) (dead : Bool) : (markDead s u dead).mem = s.mem := rfl

@[simp] theorem passesAll_mem (u : UnitId) (sets : List Nat) (s : State) : (passesAll u sets s).1.mem = s.mem := by
  induction sets generalizing s with
  | nil => rfl
  | cons set rest ih =>
    unfold passesAll
    split
    · rfl
    · exact ih _

/-! ### Machine/Launch -/

@[simp] theorem gpHold_mem (s : State) (g : Gp) (va n : Nat) : (gpHold s g va n).mem = s.mem := by
  unfold gpHold
  grind [mem_foldl, takeHostLine_mem]

@[simp] theorem holdReads_mem (s : State) (sub : Submit) (va : Nat) : (holdReads s sub va).mem = s.mem := by
  unfold holdReads
  exact mem_foldl fun _ _ => by simp

@[simp] theorem enterLaunch_mem (s : State) (l : Launch) (num : Option Nat) : (enterLaunch s l num).mem = s.mem := rfl

@[simp] theorem waitGp_mem (s : State) (site ctx : Nat) (e : Failure) (w : Waiter) (acc : Nat) :
    (waitGp s site ctx e w acc).1.mem = s.mem := by
  simp [waitGp]

/-! ### Machine/Admit -/

@[simp] theorem startTeam_mem (s : State) (l : Launch) (lix : Nat) (run : RunKind) (core : CoreId)
    (parts slots : List Nat) : (startTeam s l lix run core parts slots).mem = s.mem :=
  rfl

theorem placeFresh_mem {s : State} {ok : CoreId → Bool} {site key : Nat} {lixs : List Nat} {t : State}
    (h : placeFresh s ok site key lixs = some t) : t.mem = s.mem := by
  induction lixs generalizing s with
  | nil => cases h; rfl
  | cons lix rest ih =>
    unfold placeFresh at h
    grind [startTeam_mem, onLaunch_mem]

@[simp] theorem Mishap_apply_mem (s : State) (key uid : Nat) (x : Mishap) : (Mishap.apply s key uid x).mem = s.mem := by
  unfold Mishap.apply; split <;> simp

theorem splitOn_mem {s : State} {l : Launch} {clusters : List (Nat × Nat)} {t : State}
    (h : splitOn s l clusters = some t) : t.mem = s.mem := by
  unfold splitOn at h
  dsimp only at h
  split at h
  · cases h
  · obtain ⟨c, -, rfl⟩ := Option.map_eq_some_iff.1 h
    rfl

theorem requestSplit_mem {s : State} {site : Nat} {g : Group} {t : State} (h : requestSplit s site g = some t) :
    t.mem = s.mem := by
  obtain ⟨x, -, hx⟩ := Option.bind_eq_some_iff.1 h
  exact splitOn_mem hx

theorem trialSplit_mem {s : State} {site : Nat} {t : State} (h : trialSplit s site = some t) : t.mem = s.mem := by
  obtain ⟨x, -, hx⟩ := List.exists_of_findSome?_eq_some h
  exact splitOn_mem hx

/-! ### Machine/Service -/

@[simp] theorem msixWrite_mem (s : State) (off : Nat) (v : DWord) : (msixWrite s off v).mem = s.mem := by
  unfold msixWrite; dsimp only
  repeat' split
  all_goals simp

@[simp] theorem dropLines_mem (s : State) (lo hi : Nat) : (dropLines s lo hi).mem = s.mem := rfl

/-! ### Machine/Assay -/

@[simp] theorem releaseTeam_mem (s : State) (t : Team) : (releaseTeam s t).mem = s.mem := rfl

@[simp] theorem decayScores_mem (s : State) : (decayScores s).mem = s.mem := by
  unfold decayScores
  simp [mem_foldl]

@[simp] theorem countDecided_mem (s : State) : (countDecided s).mem = s.mem := by
  unfold countDecided; dsimp only; split <;> simp

/-! ### Machine/Leave -/

@[simp] theorem sendOffer_mem (s : State) (o : Offer) : (sendOffer s o).mem = s.mem := rfl

theorem offerOf_mem {s : State} {site : Nat} {l : Launch} {t : State} (h : offerOf s site l = some t) :
    t.mem = s.mem := by
  obtain ⟨dst, -, h⟩ := Option.bind_eq_some_iff.1 h
  dsimp only at h
  repeat' split at h
  all_goals cases h <;> simp

/-! ### Machine/Fabric -/

@[simp] theorem noteLink_mem (s : State) (id : Nat) (src dst n : Nat) : (noteLink s id src dst n).mem = s.mem := by
  unfold noteLink; split <;> rfl

@[simp] theorem pullBody_mem (s : State) (p : Packet) : (pullBody s p).1.mem = s.mem := by
  unfold pullBody
  grind [mem_foldl, noteLink_mem]

theorem moveHeader_mem {s : State} {p : Packet} {t : State} {y : Packet} (h : moveHeader s p = some (t, y)) :
    t.mem = s.mem := by
  obtain ⟨x, -, hx⟩ := Option.map_eq_some_iff.1 h
  cases hx
  exact noteLink_mem _ _ _ _ _

@[simp] theorem setPacket_mem (s : State) (p : Packet) : (setPacket s p).mem = s.mem := rfl

@[simp] theorem forwardPacket_mem (s : State) (p : Packet) : (forwardPacket s p).mem = s.mem := by
  unfold forwardPacket
  dsimp only
  repeat' split
  all_goals simp
  rename_i h
  simpa using moveHeader_mem h

@[simp] theorem crossPlane_mem (s : State) (p : Packet) : (crossPlane s p).mem = s.mem := by
  unfold crossPlane; split <;> rfl

@[simp] theorem failLine_mem (s : State) (o : RemoteOp) (l : RLine) (f : Failure) : (failLine s o l f).mem = s.mem := by
  unfold failLine; split <;> simp

@[simp] theorem dropPacket_mem (s : State) (id : Nat) : (dropPacket s id).mem = s.mem := rfl

@[simp] theorem failPacket_mem (s : State) (p : Packet) : (failPacket s p).mem = s.mem := by
  unfold failPacket; dsimp only; split <;> simp

@[simp] theorem deliveryFailed_mem (s : State) (p : Packet) : (deliveryFailed s p).mem = s.mem := by
  unfold deliveryFailed; split <;> simp

@[simp] theorem notePacket_mem (s : State) (p : Packet) : (notePacket s p).mem = s.mem := rfl

@[simp] theorem moveToMesh_mem (s : State) (n : Nat) : (moveToMesh s n).mem = s.mem := by
  unfold moveToMesh; split <;> rfl

@[simp] theorem hearPort_mem (s : State) (at_ site lp : Nat) (up : Bool) : (hearPort s at_ site lp up).mem = s.mem := by
  unfold hearPort; split <;> simp

@[simp] theorem reinject_mem (s : State) (cut dup : List Nat) : (reinject s cut dup).mem = s.mem := by
  unfold reinject
  exact mem_foldl fun _ _ => by split <;> simp

/-! ### Machine/Optics -/

@[simp] theorem onStripe_mem (s : State) (site : Nat) (f : BitVec 16 → Stripe → Stripe) :
    (onStripe s site f).mem = s.mem := by
  unfold onStripe; dsimp only; split <;> simp

@[simp] theorem setLive_mem (s : State) (site : Nat) (live : BitVec 16) (planned : Bool) :
    (setLive s site live planned).mem = s.mem := by
  unfold setLive; dsimp only; split <;> simp

@[simp] theorem nextRetrain_mem (s : State) (site : Nat) : (nextRetrain s site).mem = s.mem := rfl

@[simp] theorem upIfReady_mem (s : State) (site : Nat) : (upIfReady s site).mem = s.mem := by
  unfold upIfReady; dsimp only; split <;> simp

@[simp] theorem withdrawWave_mem (site w errors : Nat) (s : State) : (withdrawWave site w errors s).mem = s.mem := by
  simp [withdrawWave]

@[simp] theorem retrained_mem (site w : Nat) (ok : Bool) (s : State) : (retrained site w ok s).mem = s.mem := by
  unfold retrained; dsimp only
  repeat' split
  all_goals simp

@[simp] theorem darken_mem (site module : Nat) (byReceiver : Bool) (s : State) :
    (darken site module byReceiver s).mem = s.mem := by
  simp [darken]

@[simp] theorem loseLight_mem (s : State) (site module : Nat) (byReceiver : Bool) :
    (loseLight s site module byReceiver).mem = s.mem := by
  unfold loseLight; dsimp only; split <;> simp

@[simp] theorem answerMgmt_mem (s : State) (code : Nat) (refused : Bool) : (answerMgmt s code refused).mem = s.mem :=
  rfl

@[simp] theorem relight_mem (site w : Nat) (s : State) : (relight site w s).mem = s.mem := rfl

/-! ### Machine/Firmware -/

@[simp] theorem answerSpdm_mem (s : State) (port : Nat) (a : SpdmAnswer) : (answerSpdm s port a).mem = s.mem := rfl

/-! ### Machine/Graph -/

@[simp] theorem forgetRead_mem (s : State) (id : Nat) : (forgetRead s id).mem = s.mem := rfl

@[simp] theorem acceptItems_mem (s : State) (next : Nat) (xs : List (Nat × Except Nat Launch)) :
    (acceptItems s next xs).1.mem = s.mem := by
  induction xs generalizing s next with
  | nil => rfl
  | cons x rest ih =>
    obtain ⟨lane, n | l⟩ := x
    · exact ih s next
    · exact (ih _ _).trans (enterLaunch_mem s l (some next))

@[simp] theorem judgeRequest_mem (s : State) (r : LaunchReq) (l : Launch) (xs : List (Nat × Except Nat Launch)) :
    (judgeRequest s r l xs).mem = s.mem := by
  unfold judgeRequest
  dsimp only
  split <;> simp

@[simp] theorem setRequest_mem (s : State) (r : LaunchReq) : (setRequest s r).mem = s.mem := rfl

@[simp] theorem reachOwner_mem (s : State) (r : LaunchReq) (l : Launch) : (reachOwner s r l).mem = s.mem := by
  unfold reachOwner; split <;> rfl

@[simp] theorem takeRequest_mem (s : State) (r : LaunchReq) (l : Launch) : (takeRequest s r l).mem = s.mem := by
  unfold takeRequest
  dsimp only
  split
  · simp [mem_foldl]
  · simp [mem_foldl]

@[simp] theorem queueWait_mem (s : State) (x : Queue) (e : Failure) : (queueWait s x e).mem = s.mem := by
  simp [queueWait]

@[simp] theorem beginEntry_mem (s : State) (site q : Nat) : (beginEntry s site q).mem = s.mem := by
  unfold beginEntry
  repeat' split
  all_goals simp

@[simp] theorem sendTokens_mem (s : State) (id n : Nat) (runs : List Bool) : (sendTokens s id n runs).mem = s.mem := rfl

/-! ### Machine/HostPort -/

@[simp] theorem allGiveUp_mem (s : State) (line : Nat) : (allGiveUp s line).mem = s.mem := by simp [allGiveUp]

@[simp] theorem abortLog_mem (s : State) (portSite : Nat) (core : CoreId) : (abortLog s portSite core).mem = s.mem := by
  unfold abortLog
  repeat' split
  all_goals simp

/-! ### Machine/MatrixInstr -/

@[simp] theorem spoilGather_mem (s : State) (g : GatherList) : (spoilGather s g).mem = s.mem := by
  unfold spoilGather
  grind [mem_foldl, spoilRange_mem]

@[simp] theorem setGang_mem (s : State) (g : DWord) : (setGang s g).mem = s.mem := by simp [setGang]

@[simp] theorem releaseMember_mem (f : Fields) (i : Instr) (s : State) (a : Arrival) :
    (releaseMember f i s a).mem = s.mem := by
  unfold releaseMember
  dsimp only
  split
  · simp
  · rename_i r _
    rw [park_mem]
    exact ((or_self_iff.1 (finish_mem_or _ r f a.pc _ _ [] 0#7 none)).trans (focusOn_mem s a.uid a.windex a.ply))

@[simp] theorem trapMembers_mem (s : State) (as : List Arrival) (code : Nat) (info : DWord) :
    (trapMembers s as code info).mem = s.mem := by
  unfold trapMembers
  exact mem_foldl fun _ _ => by simp

@[simp] theorem divergeMembers_mem (s : State) (as : List Arrival) : (divergeMembers s as).mem = s.mem := by
  unfold divergeMembers
  exact mem_foldl fun _ _ => by simp

@[simp] theorem clearLatch_mem (s : State) (g : DWord) : (clearLatch s g).mem = s.mem := rfl

@[simp] theorem spoilGang_mem (s : State) (as : List Arrival) : (spoilGang s as).mem = s.mem := by
  unfold spoilGang
  grind [mem_foldl, updTeam_mem, spoil_mem]

/-! ### Machine/Scalar -/

theorem setSpecial_mem {s : State} {n : Nat} {x : DWord} {t : State} (h : setSpecial s n x = some t) :
    t.mem = s.mem := by
  unfold setSpecial at h
  grind

/-! ### Machine/System -/

@[simp] theorem writePv_mem (s : State) (n : Nat) (x : DWord) : (writePv s n x).mem = s.mem := by
  unfold writePv; split <;> rfl

@[simp] theorem eretFrames_mem (s : State) : (eretFrames s).mem = s.mem := rfl

/-! ### Machine/Fetch -/

@[simp] theorem mergeHere_mem (s : State) : (mergeHere s).mem = s.mem := by
  unfold mergeHere; dsimp only; split <;> simp

@[simp] theorem afterFetch_mem (s : State) : (afterFetch s).mem = s.mem := by
  unfold afterFetch; dsimp only
  repeat' split
  all_goals simp

@[simp] theorem fetchFault_mem (s : State) (e : Failure) : (fetchFault s e).mem = s.mem := by simp [fetchFault]

@[simp] theorem claimSlot_mem (s : State) (c : Cand) (slot : Nat) : (claimSlot s c slot).mem = s.mem := by
  unfold claimSlot; split <;> rfl

@[simp] theorem rejectTrap_mem (s : State) (r : Reject) : (rejectTrap s r).mem = s.mem := by
  unfold rejectTrap
  repeat' split
  all_goals simp

/-! ### Machine/Run -/

@[simp] theorem endClock_mem (s : State) (ready : Bool) : (endClock s ready).mem = s.mem := by
  unfold endClock; split <;> rfl

end Sys2Proof.Laws
end
-- ==== Sys2Proof/Proofs/MemoryForm.lean ====
section
/-!
SUPPORT. The functions of the state that do write memory keep its canonical form (log 7): each writes through the
byte writes of Laws/Cells.lean, so each keeps the form that those keep. `memAfter` names the memory that an instruction's
result hands on.
-/

namespace Sys2Proof.Laws
open Sys2Proof Sys2Proof.Machine

/-! ### Folds -/

theorem wf_foldl {α : Type} {g : State → α → State} {xs : List α} {s : State}
    (hg : ∀ s a, cellsWf s.mem = true → cellsWf (g s a).mem = true) (h : cellsWf s.mem = true) :
    cellsWf (xs.foldl g s).mem = true :=
  List.foldlRecOn (motive := fun t => cellsWf t.mem = true) xs g h (fun s hs a _ => hg s a hs)

theorem wf_foldl_fst {α β : Type} {g : State × β → α → State × β} {xs : List α} {x : State × β}
    (hg : ∀ x a, cellsWf x.1.mem = true → cellsWf (g x a).1.mem = true) (h : cellsWf x.1.mem = true) :
    cellsWf (xs.foldl g x).1.mem = true :=
  List.foldlRecOn (motive := fun x => cellsWf x.1.mem = true) xs g h (fun x hx a _ => hg x a hx)

theorem wf_findSome?_getD {α : Type} {f : α → Option State} {xs : List α} {s : State}
    (hf : ∀ a t, f a = some t → cellsWf t.mem = true) (h : cellsWf s.mem = true) :
    cellsWf ((xs.findSome? f).getD s).mem = true := by
  cases hx : xs.findSome? f with
  | none => exact h
  | some t =>
    obtain ⟨a, -, ha⟩ := List.exists_of_findSome?_eq_some hx
    exact hf a t ha

/-! ### Machine/Ops -/

theorem wf_whileParked {s : State} {f : State → State} (hf : ∀ u, cellsWf u.mem = true → cellsWf (f u).mem = true)
    (h : cellsWf s.mem = true) : cellsWf (whileParked s f).mem = true := by
  unfold whileParked
  split
  · simpa using hf (park s) (by simpa using h)
  · exact hf s h

/-! ### Machine/Memory -/

@[simp] theorem wf_performWrite {s : State} (h : cellsWf s.mem = true) (key ia : Nat) (bytes : List Byte) (ts : Nat)
    (by_ : Option (Nat × Nat × Nat)) : cellsWf (performWrite s key ia bytes ts by_).mem = true := by
  rw [performWrite_mem]; exact wf_cellWriteN h key bytes

@[simp] theorem wf_hostStore {s : State} (h : cellsWf s.mem = true) (ia : Nat) (bytes : List Byte) :
    cellsWf (hostStore s ia bytes).mem = true := by
  simp [hostStore, h, wf_agentStore]

@[simp] theorem wf_fillRing {s : State} (h : cellsWf s.mem = true) (head : Nat) (r : Ring) (recs : List FaultRec) :
    cellsWf (fillRing s head r recs).1.mem = true := by
  unfold fillRing
  dsimp only
  split
  · rw [sendMsi_mem]; exact wf_foldl (fun _ _ hs => wf_hostStore hs _ _) h
  · exact wf_foldl (fun _ _ hs => wf_hostStore hs _ _) h

@[simp] theorem wf_postBatch {s : State} (h : cellsWf s.mem = true) (part : Nat) (fabric : Bool) :
    cellsWf (postBatch s part fabric).mem = true := by
  unfold postBatch
  extract_lets head q mine r
  clear_value head mine r
  split
  · exact h
  · have hs := wf_fillRing h head r (mine.take 32)
    generalize fillRing s head r (mine.take 32) = x at hs ⊢
    obtain ⟨s1, r1, held⟩ := x
    cases fabric <;> exact hs

/-! ### Machine/Registers -/

@[simp] theorem wf_writeGet {s : State} (h : cellsWf s.mem = true) (site : Nat) (fabric : Bool) (v : DWord) :
    cellsWf (writeGet s site fabric v).mem = true := by
  unfold writeGet; dsimp only
  repeat' split
  all_goals simp [h]

@[simp] theorem wf_ctlWrite {s : State} (h : cellsWf s.mem = true) (site off : Nat) (v : DWord) :
    cellsWf (ctlWrite s site off v).mem = true := by
  unfold ctlWrite
  repeat' split
  all_goals simp [h]

/-! ### Machine/Access -/

@[simp] theorem wf_storePiece {s : State} (h : cellsWf s.mem = true) (a : Acc) (p : Piece) (bytes : List Byte)
    (atomic : Bool) : cellsWf (storePiece s a p bytes atomic).mem = true := by
  unfold storePiece
  repeat' split
  all_goals simp [h, wf_storeBytes]

@[simp] theorem wf_storePieces {s : State} (h : cellsWf s.mem = true) (a : Acc) (atomic : Bool) (ps : List Piece)
    (bytes : List Byte) : cellsWf (storePieces s a atomic ps bytes).mem = true := by
  induction ps generalizing s bytes with
  | nil => exact h
  | cons p rest ih => exact ih (wf_storePiece h a p _ atomic) _

@[simp] theorem wf_performAtomic {s : State} (h : cellsWf s.mem = true) (a : Acc) (ps : List Piece) :
    cellsWf (performAtomic s a ps).1.mem = true := by
  unfold performAtomic
  grind [wf_foldl, mem_foldl, wf_storePieces, dropResv_mem, loadPieces_mem, updWeave_mem, stampFailed_mem]

@[simp] theorem wf_performAccess {s : State} (h : cellsWf s.mem = true) (a : Acc) (ps : List Piece) :
    cellsWf (performAccess s a ps).1.mem = true := by
  unfold performAccess; dsimp only
  repeat' split
  all_goals simp [h]

@[simp] theorem wf_tryHome {s : State} (h : cellsWf s.mem = true) (a : Acc) : cellsWf (tryHome s a).mem = true := by
  unfold tryHome
  repeat' split
  all_goals simp [h]

@[simp] theorem wf_arriveHome {s : State} (h : cellsWf s.mem = true) (a : Acc) :
    cellsWf (arriveHome s a).mem = true := by
  unfold arriveHome
  repeat' split
  all_goals simp [h]

@[simp] theorem wf_submitAccess {s : State} (h : cellsWf s.mem = true) (a0 : Acc) :
    cellsWf (submitAccess s a0).mem = true := by
  unfold submitAccess; dsimp only
  repeat' split
  all_goals simp [h]

/-! ### Machine/Agents -/

theorem wf_masterPut {s : State} (h : cellsWf s.mem = true) {m : Master} {src ia : Nat} {bytes : List Byte}
    {bad : Bool} {sent : Bool} {t : State} (hr : masterPut s m src ia bytes bad sent = .ok t) :
    cellsWf t.mem = true := by
  unfold masterPut at hr
  grind [wf_ctlWrite, wf_agentStore, cacheWalk_mem, leaveDistant_mem, agentStore_mem, takeHostLine_mem, poisonWords_mem]

theorem wf_agentPut {s : State} (h : cellsWf s.mem = true) {ctx src ia : Nat} {bytes : List Byte} {bad : Bool}
    {sent : Bool} {t : State} (hr : agentPut s ctx src ia bytes bad sent = .ok t) : cellsWf t.mem = true := by
  unfold agentPut at hr
  grind [wf_masterPut]

theorem wf_masterRmw {s : State} (h : cellsWf s.mem = true) {m : Master} {src ia n : Nat} {operand : Nat}
    {bad mixes : Bool} {f : Nat → Option Nat} {t : State} {y : Nat} {z : Bool}
    (hr : masterRmw s m src ia n operand bad mixes f = .ok (t, y, z)) : cellsWf t.mem = true := by
  unfold masterRmw at hr
  grind [wf_agentStore, takeHostLine_mem, leaveDistant_mem, cacheWalk_mem, agentStore_mem, poisonWords_mem, agentRead_mem,
    clearResv_mem]

theorem wf_agentRmw {s : State} (h : cellsWf s.mem = true) {ctx src ia n : Nat} {operand : Nat} {bad mixes : Bool}
    {f : Nat → Option Nat} {t : State} {y : Nat} {z : Bool}
    (hr : agentRmw s ctx src ia n operand bad mixes f = .ok (t, y, z)) : cellsWf t.mem = true := by
  unfold agentRmw at hr
  grind [wf_masterRmw]

@[simp] theorem wf_agentPutAll {s : State} (h : cellsWf s.mem = true) (ctx src : Nat) (wins : List Window) (va : Nat)
    (bytes : List Byte) (bad sent : Bool) : cellsWf (agentPutAll s ctx src wins va bytes bad sent).1.mem = true := by
  refine wf_foldl_fst ?_ h
  rintro ⟨s1, e⟩ ⟨a, len⟩ hs
  grind [wf_agentPut]

/-! ### Machine/Records -/

@[simp] theorem wf_tryRecord {s : State} (h : cellsWf s.mem = true) (w : RecWrite) :
    cellsWf (tryRecord s w).mem = true := by
  unfold tryRecord
  grind [wf_masterPut, noteState_mem, holdPending_mem]

@[simp] theorem wf_pumpRecords {s : State} (h : cellsWf s.mem = true) : cellsWf (pumpRecords s).mem = true := by
  unfold pumpRecords
  exact wf_foldl (fun _ _ hs => by simp [hs]) h

@[simp] theorem wf_postRecord {s : State} (h : cellsWf s.mem = true) (key site ctx lnum : Nat)
    (ws : List (Nat × List Byte)) (note : Option Nat) :
    cellsWf (postRecord s key site ctx lnum ws note).mem = true := by
  simp [postRecord, h]

@[simp] theorem wf_rewriteState {s : State} (h : cellsWf s.mem = true) (l : Launch) (new : Nat) :
    cellsWf (rewriteState s l new).mem = true := by
  unfold rewriteState
  repeat' split
  all_goals simp [h]

@[simp] theorem wf_settleLaunch {s : State} (h : cellsWf s.mem = true) (key : Nat) :
    cellsWf (settleLaunch s key).mem = true := by
  unfold settleLaunch
  repeat' split
  all_goals simp [h]

@[simp] theorem wf_poisonLaunch {s : State} (h : cellsWf s.mem = true) (key : Nat) :
    cellsWf (poisonLaunch s key).mem = true := by
  simp [poisonLaunch, h]

@[simp] theorem wf_settleAll {s : State} (h : cellsWf s.mem = true) : cellsWf (settleAll s).mem = true := by
  unfold settleAll
  exact wf_foldl (fun _ _ hs => by simp [hs]) h

/-- The memory of the state that a result hands on; that of the state at issue where it hands on none. -/
def memAfter (s : State) : Result → Memory
  | .wait _ t => t.mem
  | .done t _ _ _ => t.mem
  | .doneWait t _ => t.mem
  | .trap _ _ => s.mem
  | .poison _ _ => s.mem

/-! ### Machine/Issue -/

theorem settle_mem_or (s : State) (r : Row) (f : Fields) (a : DWord) (m : LaneMask) (res : Result) :
    (settle s r f a m res).mem = s.mem ∨ (settle s r f a m res).mem = memAfter s res := by
  cases res with
  | wait w t => exact .inr (stand_mem t w)
  | done t ws fl next => exact finish_mem_or s r f a m t ws fl next
  | doneWait t w => simpa [settle, memAfter] using finish_mem_or s r f a m t [] 0#7 none
  | trap code info =>
    left
    unfold settle
    dsimp only
    split <;> simp
  | poison info ia => left; simp [settle]

theorem wf_settle {s : State} (h : cellsWf s.mem = true) (r : Row) (f : Fields) (a : DWord) (m : LaneMask)
    {res : Result} (hr : cellsWf (memAfter s res) = true) : cellsWf (settle s r f a m res).mem = true := by
  rcases settle_mem_or s r f a m res with e | e <;> rw [e] <;> assumption

theorem wf_issueRow {s : State} (h : cellsWf s.mem = true) (r : Row) (op : Nat) (f : Fields)
    {body : DWord → LaneMask → State → Result} (hb : ∀ a m, cellsWf (memAfter s (body a m s)) = true) :
    cellsWf (issueRow s r op f body).mem = true := by
  unfold issueRow
  dsimp only
  split
  · exact wf_settle h r f _ _ (hb _ _)
  · simpa using h

theorem wf_resume {s : State} (h : cellsWf s.mem = true) (i : Instr) (f : Fields) (m : LaneMask) {res : Result}
    (hr : cellsWf (memAfter s res) = true) : cellsWf (Machine.resume i f m s res).mem = true := by
  unfold Machine.resume
  split
  · exact wf_settle h _ f _ m hr
  · exact h

/-! ### Machine/Lanes -/

@[simp] theorem wf_putCells {s : State} (h : cellsWf s.mem = true) (ctx src : Nat) (bad : List Nat)
    (cells : List Host.Cell) : cellsWf (putCells s ctx src bad cells).1.mem = true := by
  refine wf_foldl_fst ?_ h
  rintro ⟨acc, left⟩ ⟨va, bytes⟩ hs
  dsimp only
  split
  · rename_i hp
    obtain ⟨ia, -, hia⟩ := Option.map_eq_some_iff.1 hp
    exact wf_masterPut hs hia
  · exact hs

theorem wf_spillOne {s : State} (h : cellsWf s.mem = true) {t : Team} {w : Weave} {line : Nat} {u : State}
    (hr : spillOne s t w line = some u) : cellsWf u.mem = true := by
  unfold spillOne at hr
  grind [wf_putCells, spend_mem, updWeave_mem]

@[simp] theorem wf_trimLoop {s : State} (h : cellsWf s.mem = true) (core : CoreId) (n : Nat) :
    cellsWf (trimLoop core n s).mem = true := by
  induction n generalizing s with
  | zero => exact h
  | succ n ih =>
    unfold trimLoop
    dsimp only
    split
    · exact h
    · split
      · rename_i hs
        obtain ⟨x, -, hx⟩ := List.exists_of_findSome?_eq_some hs
        obtain ⟨line, -, hl⟩ := Option.bind_eq_some_iff.1 hx
        exact ih (wf_spillOne h hl)
      · exact h

@[simp] theorem wf_trimStacks {s : State} (h : cellsWf s.mem = true) : cellsWf (trimStacks s).mem = true := by
  simp [trimStacks, h]

@[simp] theorem wf_stackWrite {s0 : State} (h : cellsWf s0.mem = true) (va : Nat) (bytes : List Byte) :
    cellsWf (stackWrite s0 va bytes).mem = true := by
  simp [stackWrite, h]

/-! ### Machine/MemInstr -/

@[simp] theorem wf_loadLane {s : State} (h : cellsWf s.mem = true) (a : Acc) : cellsWf (loadLane s a).mem = true := by
  unfold loadLane
  repeat' split
  all_goals simp [h]

@[simp] theorem wf_issueLoads {s : State} (h : cellsWf s.mem = true) (f : Fields) (r : Resolved) (a : DWord)
    (m : LaneMask) (lanes : List (Nat × DWord)) : cellsWf (issueLoads f r a m lanes s).mem = true := by
  unfold issueLoads
  grind [wf_foldl, mem_foldl, wf_loadLane, startLoad_mem, spoilRead_mem]

@[simp] theorem wf_localStore {s : State} (h : cellsWf s.mem = true) (space va : Nat) (bytes : List Byte) :
    cellsWf (localStore s space va bytes).mem = true := by
  unfold localStore
  repeat' split
  all_goals simp [h]

@[simp] theorem wf_releaseStore {s : State} (h : cellsWf s.mem = true) (a : Acc) (hooked : Bool) :
    cellsWf (releaseStore s a hooked).mem = true := by
  unfold releaseStore; dsimp only
  repeat' split
  all_goals simp [h]

@[simp] theorem wf_issueStores {s : State} (h : cellsWf s.mem = true) (accs : List Acc) (hooked : Bool) :
    cellsWf (issueStores accs hooked s).mem = true := by
  unfold issueStores
  exact wf_foldl (fun _ _ hs => by simp [hs]) h

@[simp] theorem wf_localStores {s : State} (h : cellsWf s.mem = true) (space n : Nat) (lanes : List (Nat × DWord))
    (data : Nat → DWord) : cellsWf (localStores space n lanes data s).mem = true := by
  unfold localStores
  exact wf_foldl (fun _ _ hs => by simp [hs]) h

@[simp] theorem wf_localAtomic {s : State} (h : cellsWf s.mem = true) (space op n : Nat) (t : Ty) (i : Nat)
    (va data cmp : DWord) : cellsWf (localAtomic s space op n t i va data cmp).1.mem = true := by
  have spoilt {u : State} (o : Option Nat) : ((o.map (poisonLocal u space)).getD u).mem = u.mem := by cases o <;> simp
  unfold localAtomic
  dsimp only
  repeat' split
  all_goals simp [h, spoilt]

@[simp] theorem wf_issueAtomics {s : State} (h : cellsWf s.mem = true) (f : Fields) (r : Resolved) (op resType : Nat)
    (resWide : Bool) (data cmp : Nat → DWord) (a : DWord) (m : LaneMask) (lanes : List (Nat × DWord)) :
    cellsWf (issueAtomics f r op resType resWide data cmp a m lanes s).mem = true := by
  unfold issueAtomics
  grind [wf_foldl, mem_foldl, wf_submitAccess, wf_localAtomic, startLoad_mem, spoil_mem, acquireAt_mem, deliverHere_mem]

@[simp] theorem wf_localReductions {s : State} (h : cellsWf s.mem = true) (f : Fields) (r : Resolved)
    (lanes : List (Nat × DWord)) (s0 : State) : cellsWf (localReductions f r lanes s0 s).mem = true :=
  wf_foldl (fun _ _ hs => wf_localAtomic hs _ _ _ _ _ _ _ _) h

@[simp] theorem wf_prefetchLane {s : State} (h : cellsWf s.mem = true) (r : Resolved) (va : DWord) :
    cellsWf (prefetchLane s r va).mem = true := by
  unfold prefetchLane
  grind [wf_trimStacks, fillStack_mem, spend_mem, prefetchLine_mem]

/-! ### Machine/Engine -/

@[simp] theorem wf_accStPiece {s : State} (h : cellsWf s.mem = true) (site : Nat) (e : EngCmd) (r : Resn) (i j : Nat) :
    cellsWf (accStPiece s site e r i j).1.mem = true := by
  unfold accStPiece; dsimp only
  repeat' split
  all_goals simp [h]

@[simp] theorem wf_runPieces {s : State} (h : cellsWf s.mem = true) (site phys : Nat) (e : EngCmd)
    (ps : List (Nat × Nat)) : cellsWf (runPieces s site phys e ps).1.mem = true := by
  induction ps generalizing s e with
  | nil => exact h
  | cons p rest ih =>
    obtain ⟨x, y⟩ := p
    unfold runPieces
    cases findRes s e.uid e.rd with
    | none => exact h
    | some r =>
      dsimp only
      split
      · split
        · exact h
        · rename_i hp; exact ih (by rw [obloadPiece_mem hp]; exact h) _
      · split
        · exact h
        · rename_i hp; exact ih (by rw [accLdPiece_mem hp]; exact h) _
      · have hs := wf_accStPiece h site e r x y
        split
        · rename_i hp; rw [hp] at hs; exact hs
        · rename_i hp; rw [hp] at hs; exact ih hs _

@[simp] theorem wf_endTransfer {s : State} (h : cellsWf s.mem = true) (site phys : Nat) (e : EngCmd) :
    cellsWf (endTransfer s site phys e).mem = true := by
  unfold endTransfer; dsimp only
  repeat' split
  all_goals simp [h]

/-! ### Machine/Spill -/

@[simp] theorem wf_putLines {s : State} (h : cellsWf s.mem = true) (t : Team) (va : Nat) (bytes : List Byte) :
    cellsWf (putLines s t va bytes).1.mem = true := by
  refine wf_foldl_fst ?_ h
  rintro ⟨acc, left⟩ ⟨a, len⟩ hs
  dsimp only
  split
  · rename_i hp
    obtain ⟨ia, -, hia⟩ := Option.map_eq_some_iff.1 hp
    exact wf_masterPut hs hia
  · exact hs

@[simp] theorem wf_evictWeave {s : State} (h : cellsWf s.mem = true) (uid windex : Nat) :
    cellsWf (evictWeave s uid windex).mem = true := by
  unfold evictWeave
  split
  · rw [onWeave_mem]
    exact wf_foldl_fst (fun _ _ hx => wf_putLines hx _ _ _) h
  · exact h

/-! ### Machine/Save -/

theorem wf_writePages {s : State} (h : cellsWf s.mem = true) {m : Master} {src : Nat} {pages : List Nat}
    {bytes : List Byte} {bad : List Nat} {t : State} (hr : writePages s m src pages bytes bad = .ok t) :
    cellsWf t.mem = true := by
  refine foldl_ok_induction (fun x => cellsWf x.mem = true) (fun _ _ => rfl) ?_ h hr
  intro s1 k b hs hb
  dsimp only at hb
  split at hb
  · cases hb
  · rename_i hp
    exact foldl_ok_induction (fun x => cellsWf x.mem = true) (fun _ _ => rfl) (fun _ _ _ h1 h2 => wf_masterPut h1 h2)
      (wf_masterPut hs hp) hb

@[simp] theorem wf_flushStack {s : State} (h : cellsWf s.mem = true) (t : Team) (w : Weave) :
    cellsWf (flushStack s t w).1.mem = true := by
  simp [flushStack, h]

@[simp] theorem wf_readySave {s : State} (h : cellsWf s.mem = true) (uid : Nat) (vol : Bool) :
    cellsWf (readySave s uid vol).1.mem = true := by
  unfold readySave
  split
  · exact h
  · dsimp only
    split
    · rw [onCluster_mem, rollTeam_mem]
      exact wf_foldl (fun _ _ hs => by split <;> simp [hs]) h
    · refine wf_foldl_fst (fun _ _ hx => wf_flushStack hx _ _) ?_
      rw [onCluster_mem, rollTeam_mem]
      exact wf_foldl (fun _ _ hs => by split <;> simp [hs]) h

theorem wf_saveImage {s : State} (h : cellsWf s.mem = true) {uid : Nat} {vol : Bool} {x : SaveImage}
    (hr : saveImage s uid vol = some x) : cellsWf x.s.mem = true := by
  obtain ⟨t, -, rfl⟩ := Option.map_eq_some_iff.1 hr
  exact wf_readySave h uid vol

@[simp] theorem wf_paySave {s : State} (h : cellsWf s.mem = true) (uid : Nat) (vol : Bool) :
    cellsWf (paySave s uid vol).1.mem = true := by
  unfold paySave
  repeat' split
  all_goals simp [h]

@[simp] theorem wf_saveTo {s : State} (h : cellsWf s.mem = true) (uid rs : Nat) (unit : List Nat)
    (gangs : List (Nat × List (Nat × Nat))) (pool : Bool) (pagesOf : State → Nat → Option (List Nat)) :
    cellsWf (saveTo s uid rs unit gangs pool pagesOf).1.mem = true := by
  unfold saveTo
  split
  · exact h
  · rename_i hi
    have hs := wf_saveImage h hi
    split
    · exact h
    · split
      · simpa using h
      · rename_i hp
        simpa using wf_writePages hs hp

@[simp] theorem wf_saveUnit {s : State} (h : cellsWf s.mem = true) (uids : List Nat) (rs : Nat) :
    cellsWf (saveUnit s uids rs).mem = true := by
  unfold saveUnit
  dsimp only
  split
  · refine wf_foldl_fst ?_ h
    rintro ⟨acc, ok⟩ u hs
    dsimp only
    split
    · exact hs
    · exact wf_saveTo hs _ _ _ _ _ _
  · exact h

theorem wf_restoreTeam {s : State} (h : cellsWf s.mem = true) {l : Launch} {x : Suspended} {core : CoreId}
    {parts : List Nat} {u : State} (hr : restoreTeam s l x core parts = .done u) : cellsWf u.mem = true := by
  unfold restoreTeam at hr
  split at hr
  · cases hr
  · rename_i hp
    dsimp only at hr
    split at hr
    · cases hr
    · split at hr
      · cases hr
      · split at hr
        · cases hr
        · cases hr
          rw [onLaunch_mem]
          exact wf_foldl (fun _ _ hs => wf_evictWeave hs _ _) (by rw [onCluster_mem, onCore_mem, readPages_mem hp]; exact h)

/-! ### Machine/CopyEngine -/

@[simp] theorem wf_copyElem {s : State} (h : cellsWf s.mem = true) (site : Nat) (c : Copy) :
    cellsWf (copyElem s site c).1.mem = true := by
  unfold copyElem
  grind [wf_agentPutAll, onAnyTeam_mem, putScratch_mem, readElem_mem]

@[simp] theorem wf_copyElems {s : State} (h : cellsWf s.mem = true) (site n : Nat) (c : Copy) :
    cellsWf (copyElems site n s c).1.mem = true := by
  induction n generalizing s c with
  | zero => exact h
  | succ n ih =>
    unfold copyElems
    have hs := wf_copyElem h site c
    grind

@[simp] theorem wf_advanceCopy {s : State} (h : cellsWf s.mem = true) (site phys n : Nat) (c : Copy) :
    cellsWf (advanceCopy s site phys n c).1.mem = true := by
  unfold advanceCopy
  grind [wf_copyElems, setCopy_mem, holdPending_mem]

@[simp] theorem wf_performSome {s : State} (h : cellsWf s.mem = true) (site phys id : Nat) :
    cellsWf (performSome s site phys id).mem = true := by
  unfold performSome; dsimp only
  repeat' split
  all_goals simp [h]

@[simp] theorem wf_paceEngine {s : State} (h : cellsWf s.mem = true) (now : Nat) (k : Cluster) :
    cellsWf (paceEngine s now k).mem = true := by
  unfold paceEngine
  grind [wf_foldl, mem_foldl, wf_performSome, handBytes_mem, onCluster_mem]

@[simp] theorem wf_paceEngines {s : State} (h : cellsWf s.mem = true) (gap : Nat) :
    cellsWf (paceEngines s gap).mem = true := by
  unfold paceEngines
  exact wf_foldl (fun _ _ hs => by simp [hs]) h

theorem wf_reduceLine {s : State} (h : cellsWf s.mem = true) {o : RemoteOp} {l : RLine} {t : State}
    (hr : reduceLine s o l = .ok t) : cellsWf t.mem = true := by
  refine foldl_ok_induction (fun x => cellsWf x.mem = true) (fun _ _ => rfl) ?_ h hr
  intro s1 k b hs hb
  grind [wf_agentRmw]

@[simp] theorem wf_finishLine {s : State} (h : cellsWf s.mem = true) (o : RemoteOp) (l : RLine) :
    cellsWf (finishLine s o l).mem = true := by
  unfold finishLine
  grind [wf_agentPutAll, setRemote_mem, putScratch_mem, holdRemote_mem]

@[simp] theorem wf_answerLine {s : State} (h : cellsWf s.mem = true) (o : RemoteOp) (l : RLine) (from_ : Nat) :
    cellsWf (answerLine s o l from_).mem = true := by
  unfold answerLine
  repeat' split
  all_goals simp [h]

@[simp] theorem wf_performLine {s : State} (h : cellsWf s.mem = true) (o : RemoteOp) (l : RLine) :
    cellsWf (performLine s o l).mem = true := by
  unfold performLine
  grind [wf_agentPut, wf_answerLine, wf_reduceLine, wf_agentRmw, logRemote_mem, agentGet_mem, holdRemote_mem]

@[simp] theorem wf_sendLine {s : State} (h : cellsWf s.mem = true) (o : RemoteOp) (l0 : RLine) :
    cellsWf (sendLine s o l0).mem = true := by
  unfold sendLine; dsimp only
  repeat' split
  all_goals simp [h]

@[simp] theorem wf_startLine {s : State} (h : cellsWf s.mem = true) (id line : Nat) :
    cellsWf (startLine s id line).mem = true := by
  unfold startLine
  grind [wf_sendLine, wf_finishLine, readLocal_mem, holdRemote_mem]

@[simp] theorem wf_driveRemote {s : State} (h : cellsWf s.mem = true) (o : RemoteOp) :
    cellsWf (driveRemote s o).mem = true := by
  unfold driveRemote
  exact wf_foldl (fun _ _ hs => by simp [hs]) h

@[simp] theorem wf_pumpRemotes {s : State} (h : cellsWf s.mem = true) : cellsWf (pumpRemotes s).mem = true := by
  unfold pumpRemotes
  grind [wf_foldl, mem_foldl, wf_driveRemote, setRemote_mem]

@[simp] theorem wf_completeRemote {s : State} (h : cellsWf s.mem = true) (o : RemoteOp) :
    cellsWf (completeRemote s o).mem = true := by
  simp [completeRemote, h]

@[simp] theorem wf_completeCopy {s : State} (h : cellsWf s.mem = true) (site phys : Nat) (c : Copy) :
    cellsWf (completeCopy s site phys c).mem = true := by
  simp [completeCopy, h]

/-! ### Machine/RemoteInstr -/

@[simp] theorem wf_postRemote {s0 : State} (h : cellsWf s0.mem = true) (f : Fields) (x : RemoteArgs) :
    cellsWf (postRemote s0 f x).1.mem = true := by
  unfold postRemote; dsimp only
  repeat' split
  all_goals simp [h]

@[simp] theorem wf_signalNode {s : State} (h : cellsWf s.mem = true) (m : LaneMask) (a : Nat) (v : DWord) :
    cellsWf (signalNode s m a v).mem = true := by
  simp [signalNode, h]

@[simp] theorem wf_storeDword {s : State} (h : cellsWf s.mem = true) (m : LaneMask) (a : Nat) (x : DWord)
    (order : Nat) : cellsWf (storeDword s m a x order).mem = true := by
  simp [storeDword, h]

@[simp] theorem wf_sampleEvs {s : State} (h : cellsWf s.mem = true) : cellsWf (sampleEvs s).mem = true := by
  unfold sampleEvs
  split
  · exact h
  · refine wf_foldl ?_ (by simpa using h)
    rintro acc ⟨uid, windex, n⟩ hs
    dsimp only
    split
    · rw [park_mem]
      exact wf_resume (by simpa using hs) _ _ _ (wf_storeDword (by simpa using hs) _ _ _ _)
    · exact hs

/-! ### Machine/Sched -/

theorem wf_whenPly {s : State} (h : cellsWf s.mem = true) (uid windex n : Nat) {f : Team → Weave → Ply → State}
    (hf : ∀ t w p, cellsWf (f t w p).mem = true) : cellsWf (whenPly s uid windex n f).mem = true := by
  unfold whenPly
  repeat' split
  all_goals simp [h, hf]

@[simp] theorem wf_releaseQueued {s : State} (h : cellsWf s.mem = true) (as : List Acc) :
    cellsWf (releaseQueued as s).1.mem = true := by
  induction as generalizing s with
  | nil => exact h
  | cons a rest ih =>
    unfold releaseQueued
    split
    · exact ih (wf_releaseStore h a true)
    · exact h

@[simp] theorem wf_releaseFence {s : State} (h : cellsWf s.mem = true) (uid windex n : Nat) (c : FenceCkpt) :
    cellsWf (releaseFence s uid windex n c).mem = true := by
  unfold releaseFence; dsimp only
  repeat' split
  all_goals simp [h]

/-! ### Machine/Faults -/

theorem wf_performEntry {s : State} (h : cellsWf s.mem = true) {core : CoreId} {e : LogEntry} {t : State}
    (hr : performEntry s core e = .done t) : cellsWf t.mem = true := by
  unfold performEntry at hr
  grind [wf_agentPut, wf_reduceLine, setRemote_mem, afterWalks_mem, wf_performAccess]

@[simp] theorem wf_replayLog {s : State} (h : cellsWf s.mem = true) (core : CoreId) (n : Nat) :
    cellsWf (replayLog core n s).mem = true := by
  induction n generalizing s with
  | zero => exact h
  | succ n ih =>
    unfold replayLog
    split
    · exact h
    · split
      · exact h
      · split
        · split <;> simp [h]
        · rename_i hp
          exact ih (by simpa using wf_performEntry h hp)
        · simp [h]

@[simp] theorem wf_pumpLog {s : State} (h : cellsWf s.mem = true) (core : CoreId) :
    cellsWf (pumpLog s core).mem = true := by
  simp [pumpLog, h]

@[simp] theorem wf_pumpLogs {s : State} (h : cellsWf s.mem = true) : cellsWf (pumpLogs s).mem = true := by
  unfold pumpLogs
  exact wf_foldl (fun _ _ hs => by simp [hs]) h

@[simp] theorem wf_serveHost {s : State} (h : cellsWf s.mem = true) (r : HostReq) :
    cellsWf (serveHost s r).mem = true := by
  unfold serveHost
  grind [wf_masterPut, hostFails_mem, setHostReq_mem, masterGet_mem]

@[simp] theorem wf_performPeer {s : State} (h : cellsWf s.mem = true) (r : PeerReq) :
    cellsWf (performPeer s r).mem = true := by
  unfold performPeer
  grind [wf_agentRmw, wf_agentPut, answerPeer_mem, sendPacket_mem, holdPeer_mem, agentGet_mem]

@[simp] theorem wf_recheck {s : State} (h : cellsWf s.mem = true) (p : Pending) (w : Waiter) (fails : Option Failure)
    {go : State → State} (hgo : cellsWf (go s).mem = true) : cellsWf (recheck s p w fails go).mem = true := by
  unfold recheck
  split <;> simp [h, hgo]

@[simp] theorem wf_replayWaiter {s : State} (h : cellsWf s.mem = true) (p : Pending) (w : Waiter) :
    cellsWf (replayWaiter s p w).mem = true := by
  unfold replayWaiter; dsimp only
  repeat' split
  all_goals simp [h]

@[simp] theorem wf_replayEntry {s : State} (h : cellsWf s.mem = true) (p : Pending) :
    cellsWf (replayEntry s p).mem = true := by
  unfold replayEntry
  exact wf_foldl (fun _ _ hs => by simp [hs]) h

@[simp] theorem wf_replayAll {s : State} (h : cellsWf s.mem = true) (hit : Pending → Bool) :
    cellsWf (replayAll s hit).mem = true := by
  unfold replayAll
  exact wf_foldl (fun _ _ hs => by simp [hs]) h

@[simp] theorem wf_cancelEntry {s : State} (h : cellsWf s.mem = true) (p : Pending) :
    cellsWf (cancelEntry s p).mem = true := by
  unfold cancelEntry
  grind [wf_foldl, mem_foldl, wf_pumpRemotes, wf_pumpRecords, wf_pumpLogs, dropPending_mem, cancelWaiter_mem, cancelTeam_mem]

/-! ### Machine/Scan -/

@[simp] theorem wf_endRound {s : State} (h : cellsWf s.mem = true) (site : Nat) :
    cellsWf (endRound s site).mem = true := by
  unfold endRound; dsimp only
  repeat' split
  all_goals simp [h]

@[simp] theorem wf_rebindCluster {s : State} (h : cellsWf s.mem = true) (site phys : Nat) :
    cellsWf (rebindCluster s site phys).mem = true := by
  unfold rebindCluster
  grind [wf_foldl, mem_foldl, wf_openEngine]

@[simp] theorem wf_quarantine {s : State} (h : cellsWf s.mem = true) (u : UnitId) (byScan : Bool) :
    cellsWf (quarantine s u byScan).mem = true := by
  unfold quarantine; dsimp only
  repeat' split
  all_goals simp [h]

@[simp] theorem wf_changeScore {s : State} (h : cellsWf s.mem = true) (u : UnitId) (new : Nat) :
    cellsWf (changeScore s u new).mem = true := by
  unfold changeScore; dsimp only
  repeat' split
  all_goals simp [h]

@[simp] theorem wf_poisonByUnit {s : State} (h : cellsWf s.mem = true) (u : UnitId) (lastPass : Nat) :
    cellsWf (poisonByUnit s u lastPass).mem = true := by
  unfold poisonByUnit
  exact wf_foldl (fun _ _ hs => by split <;> simp [hs]) h

@[simp] theorem wf_scanFailed {s : State} (h : cellsWf s.mem = true) (u : UnitId) (set pattern : Nat) :
    cellsWf (scanFailed s u set pattern).mem = true := by
  unfold scanFailed
  grind [wf_endRound, wf_poisonByUnit, wf_quarantine, postErr_mem]

@[simp] theorem wf_scanPassed {s : State} (h : cellsWf s.mem = true) (u : UnitId) :
    cellsWf (scanPassed s u).mem = true := by
  unfold scanPassed
  repeat' split
  all_goals simp [h]

/-! ### Machine/Launch -/

@[simp] theorem wf_installFrozen {s : State} (h : cellsWf s.mem = true) (l : Launch) :
    cellsWf (installFrozen s l).mem = true := by
  unfold installFrozen
  rw [onLaunch_mem]
  refine wf_foldl ?_ h
  rintro acc ⟨n, lo, hi⟩ hs
  refine wf_foldl (fun acc t hs => ?_) hs
  split <;> simp [hs, wf_cellWriteN]

@[simp] theorem wf_removeFrozen {s : State} (h : cellsWf s.mem = true) (l : Launch) :
    cellsWf (removeFrozen s l).mem = true := by
  unfold removeFrozen
  rw [onLaunch_mem]
  refine wf_foldl ?_ h
  rintro acc ⟨n, lo, hi⟩ hs
  exact wf_foldl (fun acc t hs => wf_foldl (fun acc k hs => by simp [hs, wf_cellWriteN]) hs) hs

/-! ### Machine/Admit -/

theorem wf_placeOne {s : State} (h : cellsWf s.mem = true) {ok : CoreId → Bool} {site key : Nat} {clusters : List Nat}
    {uid : Nat} {t : State} (hr : placeOne s ok site key clusters uid = .placed t) : cellsWf t.mem = true := by
  unfold placeOne at hr
  split at hr
  · cases hr
  · split at hr
    · cases hr; exact h
    · dsimp only at hr
      split at hr
      · cases hr
      · split at hr
        · rename_i hp
          cases hr
          exact wf_pumpLog (by simpa using wf_restoreTeam h hp) _
        all_goals cases hr

theorem wf_placeSome {s : State} (h : cellsWf s.mem = true) {ok : CoreId → Bool} {site key : Nat}
    {clusters uids : List Nat} {t : State} (hr : placeSome s ok site key clusters uids = .placed t) :
    cellsWf t.mem = true := by
  induction uids generalizing s with
  | nil => cases hr; exact h
  | cons u rest ih =>
    unfold placeSome at hr
    split at hr
    · rename_i hp; exact ih (wf_placeOne h hp) hr
    · rename_i hp; exact absurd hr (hp _)

theorem wf_placeUnit {s : State} (h : cellsWf s.mem = true) {ok : CoreId → Bool} {site key : Nat}
    {clusters uids : List Nat} {t : State} (hr : placeUnit s ok site key clusters uids = .placed t) :
    cellsWf t.mem = true := by
  unfold placeUnit at hr
  split at hr
  · exact wf_placeSome h hr
  · refine List.foldlRecOn (motive := fun r => ∀ t, r = Attempt.placed t → cellsWf t.mem = true) clusters _
      (fun _ hc => by cases hc) ?_ t hr
    intro r hr c _ t ht
    split at ht
    · exact wf_placeSome h ht
    · exact hr t ht

theorem wf_placeUnits {s : State} (h : cellsWf s.mem = true) {ok : CoreId → Bool} {site key : Nat}
    {clusters : List Nat} {units : List (List Nat)} {t : State}
    (hr : placeUnits s ok site key clusters units = .placed t) : cellsWf t.mem = true := by
  induction units generalizing s with
  | nil => cases hr; exact h
  | cons u rest ih =>
    unfold placeUnits at hr
    split at hr
    · rename_i hp; exact ih (wf_placeUnit h hp) hr
    · rename_i hp; exact absurd hr (hp _)

theorem wf_placeBack {s : State} (h : cellsWf s.mem = true) {ok : CoreId → Bool} {site key : Nat} {uids : List Nat}
    {t : State} (hr : placeBack s ok site key uids = .placed t) : cellsWf t.mem = true := by
  unfold placeBack at hr
  split at hr
  · cases hr
  · split at hr
    · rename_i hp
      cases hr
      rw [mem_foldl (fun _ _ => regang_mem _ _)]
      exact wf_placeUnits h hp
    · rename_i hp; exact absurd hr (hp _)

theorem wf_placeGroup {s : State} (h : cellsWf s.mem = true) {site : Nat} {all : List Group} {g : Group} {t : State}
    (hr : placeGroup s site all g = .placed t) : cellsWf t.mem = true := by
  unfold placeGroup at hr
  grind [wf_installFrozen, placeFresh_mem, wf_placeBack]

theorem wf_firstFit {s : State} (h : cellsWf s.mem = true) {site : Nat} {all gs : List Group} {g : Group} {t : State}
    (hr : firstFit s site all gs = some (g, t)) : cellsWf t.mem = true := by
  induction gs with
  | nil => cases hr
  | cons x rest ih =>
    unfold firstFit at hr
    split at hr
    · rename_i hp; cases hr; exact wf_placeGroup h hp
    · cases hr; simpa using h
    · exact ih hr

theorem wf_preemptFor {s : State} (h : cellsWf s.mem = true) {site : Nat} {all : List Group} {g : Group} {t : State}
    (hr : preemptFor s site all g = some t) : cellsWf t.mem = true := by
  obtain ⟨x, -, hx⟩ := Option.bind_eq_some_iff.1 hr
  obtain ⟨us, -, rfl⟩ := Option.map_eq_some_iff.1 hx
  simpa using h

/-! ### Machine/Service -/

@[simp] theorem wf_endService {s : State} (h : cellsWf s.mem = true) (x : Site) (status : Nat) :
    cellsWf (endService s x status).mem = true := by
  simp [endService, h]

@[simp] theorem wf_refuseService {s : State} (h : cellsWf s.mem = true) (x : Site) :
    cellsWf (refuseService s x).mem = true := by
  simp [refuseService, h]

theorem wf_serve {s : State} (h : cellsWf s.mem = true) (part op : Nat) (local_ : SvArgs → Bool)
    {f : Site → SvArgs → State} (hf : ∀ x a, cellsWf (f x a).mem = true) :
    cellsWf (serve s part op local_ f).mem = true := by
  unfold serve
  dsimp only
  repeat' split
  all_goals simp [h, hf]

@[simp] theorem wf_withOldTables {s : State} (h : cellsWf s.mem = true) (ctx : Nat) :
    cellsWf (withOldTables s ctx).mem = true :=
  List.foldlRecOn (motive := fun m => cellsWf m = true) _ _ h (fun _ hm _ _ => wf_cellWriteN hm _ _)

@[simp] theorem wf_spillStacks {s : State} (h : cellsWf s.mem = true) (ctx lo hi : Nat) :
    cellsWf (spillStacks s ctx lo hi).mem = true := by
  refine wf_foldl (fun acc t hs => ?_) h
  split
  · exact hs
  · refine wf_foldl (fun acc w hs => wf_foldl ?_ hs) hs
    rintro acc ⟨va, bytes⟩ hs
    dsimp only
    repeat' split
    all_goals simp [hs, wf_agentStore]

@[simp] theorem wf_setAttr {s : State} (h : cellsWf s.mem = true) (key : Nat) (e : DWord) (attr : Nat) :
    cellsWf (setAttr s key e attr).mem = true := by
  simp [setAttr, h, wf_agentStore]

@[simp] theorem wf_releaseWaits {s : State} (h : cellsWf s.mem = true) (ctx lo hi : Nat) :
    cellsWf (releaseWaits s ctx lo hi).mem = true := by
  unfold releaseWaits
  grind [wf_foldl, mem_foldl, wf_arriveHome, wf_serveHost]

@[simp] theorem wf_endPage {s : State} (h : cellsWf s.mem = true) (x : Site) (ctx lo page key : Nat) (e : DWord)
    (attr : Nat) : cellsWf (endPage s x ctx lo page key e attr).mem = true := by
  simp [endPage, h]

@[simp] theorem wf_flipPage {s : State} (h : cellsWf s.mem = true) (x : Site) (a : SvArgs) (lo key page : Nat)
    (e : DWord) : cellsWf (flipPage s x a lo key page e).mem = true := by
  unfold flipPage
  grind [wf_foldl, mem_foldl, wf_endPage, wf_spillStacks, giveUpLine_mem, dropLines_mem, onSite_mem]

@[simp] theorem wf_writeGrant {s : State} (h : cellsWf s.mem = true) (m : Master) (src ia : Nat)
    (bound : List (Nat × Nat × Nat)) : cellsWf (writeGrant s m src ia bound).mem = true := by
  unfold writeGrant
  grind [wf_foldl, mem_foldl, wf_masterPut]

/-! ### Machine/Assay -/

@[simp] theorem wf_closeWindow {s : State} (h : cellsWf s.mem = true) (key : Nat) :
    cellsWf (closeWindow s key).mem = true := by
  unfold closeWindow
  grind [wf_replayAll, wf_removeFrozen, wf_settleLaunch, payReplay_mem, onLaunch_mem, postErr_mem]

@[simp] theorem wf_endOriginal {s : State} (h : cellsWf s.mem = true) (t : Team) :
    cellsWf (endOriginal s t).mem = true := by
  simp [endOriginal, h]

@[simp] theorem wf_scoreRun {s : State} (h : cellsWf s.mem = true) (n : Nat) (r : TrialRun) :
    cellsWf (scoreRun s n r).mem = true := by
  unfold scoreRun
  exact wf_foldl (fun _ _ hs => by simp [hs]) h

@[simp] theorem wf_applyRow {s : State} (h : cellsWf s.mem = true) (l : Launch) (t : Trial) (d2 : DWord) (row : Nat)
    (scores : List (TrialRun × Nat)) (poison : Bool) : cellsWf (applyRow s l t d2 row scores poison).mem = true := by
  unfold applyRow
  grind [wf_foldl, mem_foldl, wf_scoreRun, wf_poisonLaunch, wf_closeWindow, postErr_mem, countDecided_mem, onLaunch_mem]

@[simp] theorem wf_abandonTrial {s : State} (h : cellsWf s.mem = true) (l : Launch) (t : Trial) :
    cellsWf (abandonTrial s l t).mem = true := by
  unfold abandonTrial
  repeat' split
  all_goals simp [h]

@[simp] theorem wf_judge {s : State} (h : cellsWf s.mem = true) (l : Launch) (t : Trial) (r : TrialRun) :
    cellsWf (judge s l t r).mem = true := by
  unfold judge
  repeat' split
  all_goals simp [h]

/-! ### Machine/Leave -/

@[simp] theorem wf_leaveUnit {s : State} (h : cellsWf s.mem = true) (uid rs : Nat) :
    cellsWf (leaveUnit s uid rs).mem = true := by
  have paid : cellsWf ((unitOf s uid).foldl (fun
    (x : State × Bool) u => ((paySave x.1 u (rs == 0)).1, x.2 && (paySave x.1 u (rs == 0)).2)) (s, true)).1.mem = true :=
    wf_foldl_fst (fun _ _ hx => wf_paySave hx _ _) h
  unfold leaveUnit
  dsimp only
  split
  · simpa using h
  · split
    · split
      · exact wf_saveUnit paid _ _
      · exact paid
    · exact h

/-! ### Machine/Fabric -/

@[simp] theorem wf_handPeer {s : State} (h : cellsWf s.mem = true) (port : Nat) (flits : List Byte) :
    cellsWf (handPeer s port flits).mem = true := by
  unfold handPeer; dsimp only
  repeat' split
  all_goals simp [h]

@[simp] theorem wf_acceptPacket {s : State} (h : cellsWf s.mem = true) (p : Packet) :
    cellsWf (acceptPacket s p).mem = true := by
  unfold acceptPacket
  repeat' split
  all_goals simp [h]

@[simp] theorem wf_settlePacket {s : State} (h : cellsWf s.mem = true) (p : Packet) (forged : Bool) :
    cellsWf (settlePacket s p forged).mem = true := by
  unfold settlePacket
  repeat' split
  all_goals simp [h]

/-! ### Machine/Optics -/

@[simp] theorem wf_handPackets {s : State} (h : cellsWf s.mem = true) (site n : Nat) :
    cellsWf (handPackets site n s).mem = true := by
  induction n generalizing s with
  | zero => exact h
  | succ n ih =>
    unfold handPackets
    dsimp only
    split
    · exact h
    · exact ih (by simp [h])

/-! ### Machine/Firmware -/

@[simp] theorem wf_boot {s : State} (h : cellsWf s.mem = true) (t : Tests) (stop : Nat) (warm : Bool) :
    cellsWf (boot s t stop warm).mem = true := by
  unfold boot
  dsimp only
  split
  · exact wf_filter _ h
  · rw [postErr_mem]; exact wf_filter _ h

@[simp] theorem wf_warmBoot {s : State} (h : cellsWf s.mem = true) (t : Tests) : cellsWf (warmBoot s t).mem = true := by
  simp [warmBoot, h]

/-! ### Machine/Graph -/

@[simp] theorem wf_answerPly {f : State} (h : cellsWf f.mem = true) (a : LaunchAns) :
    cellsWf (answerPly a f).mem = true := by
  unfold answerPly
  dsimp only
  generalize (if a.req.perLane = true then Instr.launchL _ else _) = i
  split
  · simpa using h
  · split
    · exact h
    · refine wf_resume (by simpa using h) _ _ _ ?_
      unfold takeAnswer
      dsimp only
      split <;> simpa [memAfter, Result.regs] using h

@[simp] theorem wf_consumeEntry {s : State} (h : cellsWf s.mem = true) (x : Queue) (code : Nat)
    (launch graph : Option Nat) : cellsWf (consumeEntry s x code launch graph).mem = true := by
  simp [consumeEntry, h]

theorem wf_entryInHand {s : State} (h : cellsWf s.mem = true) {site q : Nat} {t : State} {x : Queue} {d : List DWord}
    (hr : entryInHand s site q = .ok (t, x, d)) : cellsWf t.mem = true := by
  unfold entryInHand at hr
  grind [takeHostLine_mem]

theorem wf_entryInHand_error {s : State} (h : cellsWf s.mem = true) {site q : Nat} {t : State}
    (hr : entryInHand s site q = .error t) : cellsWf t.mem = true := by
  unfold entryInHand at hr
  grind [takeHostLine_mem, wf_consumeEntry, queueWait_mem]

theorem wf_takeEntry {s : State} (h : cellsWf s.mem = true) (site q kind : Nat)
    {f : State → Queue → List DWord → State} (hf : ∀ s x d, cellsWf s.mem = true → cellsWf (f s x d).mem = true) :
    cellsWf (takeEntry s site q kind f).mem = true := by
  unfold takeEntry
  dsimp only
  have hb : cellsWf (beginEntry s site q).mem = true := by simpa using h
  split
  · rename_i hp; exact wf_entryInHand_error hb hp
  · rename_i hp
    have ht := wf_entryInHand hb hp
    repeat' split
    all_goals simp [ht, hf]

@[simp] theorem wf_writeNode {s : State} (h : cellsWf s.mem = true) (id n : Nat) :
    cellsWf (writeNode s id n).mem = true := by
  unfold writeNode
  repeat' split
  all_goals simp [h]

@[simp] theorem wf_onNode {s : State} (h : cellsWf s.mem = true) (id n : Nat) (f : GNode → GNode) :
    cellsWf (onNode s id n f).mem = true := by
  simp [onNode, h]

@[simp] theorem wf_startGraph {s : State} (h : cellsWf s.mem = true) (x : Queue) (va : Nat) (h0 : List DWord)
    (ns : List (List DWord)) : cellsWf (startGraph s x va h0 ns).mem = true := by
  unfold startGraph
  exact wf_foldl (fun _ _ hs => by simp [hs]) h

@[simp] theorem wf_nodeDone {s : State} (h : cellsWf s.mem = true) (id n : Nat) :
    cellsWf (nodeDone s id n).mem = true := by
  simp [nodeDone, h]

@[simp] theorem wf_nodeSkipped {s : State} (h : cellsWf s.mem = true) (id n : Nat) :
    cellsWf (nodeSkipped s id n).mem = true := by
  simp [nodeSkipped, h]

@[simp] theorem wf_nodeFailed {s : State} (h : cellsWf s.mem = true) (id n : Nat) :
    cellsWf (nodeFailed s id n).mem = true := by
  simp [nodeFailed, h]

theorem wf_nodeRead_error {s : State} (h : cellsWf s.mem = true) {g : Graph} {n va : Nat} {t : State}
    (hr : nodeRead s g n va = .error t) : cellsWf t.mem = true := by
  unfold nodeRead at hr
  grind [wf_nodeFailed, forgetRead_mem, waitGp_mem]

@[simp] theorem wf_runKernel {s : State} (h : cellsWf s.mem = true) (g : Graph) (n : Nat) (d : List DWord) :
    cellsWf (runKernel s g n d).mem = true := by
  unfold runKernel; dsimp only
  repeat' split
  all_goals simp [h]

@[simp] theorem wf_runCopy {s : State} (h : cellsWf s.mem = true) (g : Graph) (n : Nat) (d : List DWord) :
    cellsWf (runCopy s g n d).mem = true := by
  unfold runCopy; dsimp only
  repeat' split
  all_goals simp [h]

@[simp] theorem wf_runSignal {s : State} (h : cellsWf s.mem = true) (g : Graph) (n : Nat) (d : List DWord) :
    cellsWf (runSignal s g n d).mem = true := by
  unfold runSignal
  repeat' split
  all_goals simp [h]

@[simp] theorem wf_runCondition {s : State} (h : cellsWf s.mem = true) (g : Graph) (n : Nat) (d : List DWord) :
    cellsWf (runCondition s g n d).mem = true := by
  unfold runCondition
  split
  · rename_i hp; exact wf_nodeRead_error h hp
  · simp [h]

@[simp] theorem wf_driveNode {s : State} (h : cellsWf s.mem = true) (g : Graph) (n : Nat) :
    cellsWf (driveNode s g n).mem = true := by
  unfold driveNode; dsimp only
  repeat' split
  all_goals simp [h]

@[simp] theorem wf_runNode {s : State} (h : cellsWf s.mem = true) (id n : Nat) :
    cellsWf (runNode s id n).mem = true := by
  unfold runNode; dsimp only
  repeat' split
  all_goals simp [h]

@[simp] theorem wf_takeToken {s : State} (h : cellsWf s.mem = true) (id n : Nat) (run : Bool) :
    cellsWf (takeToken s id n run).mem = true := by
  unfold takeToken; dsimp only
  repeat' split
  all_goals simp [h]

@[simp] theorem wf_startBody {s : State} (h : cellsWf s.mem = true) (g : Graph) (loop : Nat) :
    cellsWf (startBody s g loop).mem = true := by
  unfold startBody
  grind [wf_foldl, mem_foldl, wf_onNode, onGraph_mem]

/-! ### Machine/HostPort -/

@[simp] theorem wf_grantAcc {s : State} (h : cellsWf s.mem = true) (site line : Nat) (a : Acc) :
    cellsWf (grantAcc s site line a).mem = true := by
  unfold grantAcc
  repeat' split
  all_goals simp [h]

/-! ### Machine/Run -/

@[simp] theorem wf_refreshReady {s : State} (h : cellsWf s.mem = true) : cellsWf (refreshReady s).mem = true := by
  simp [refreshReady, h]

@[simp] theorem wf_passTime {s : State} (h : cellsWf s.mem = true) : cellsWf (passTime s).mem = true := by
  simp [passTime, h]

end Sys2Proof.Laws
end
-- ==== Sys2Proof/Proofs/ResultForm.lean ====
section
/-!
SUPPORT. The shared bodies of instructions answer with a result; the memory it hands on (`memAfter`) is in canonical form
when the one before is.
-/

namespace Sys2Proof.Laws
open Sys2Proof Sys2Proof.Machine

@[simp] theorem memAfter_wait (s t : State) (w : Wait) : memAfter s (.wait w t) = t.mem := rfl

@[simp] theorem memAfter_done (s t : State) (ws : List Write) (fl : Flags) (next : Option DWord) :
    memAfter s (.done t ws fl next) = t.mem :=
  rfl

@[simp] theorem memAfter_doneWait (s t : State) (w : Wait) : memAfter s (.doneWait t w) = t.mem := rfl
@[simp] theorem memAfter_trap (s : State) (code : Nat) (info : List DWord) : memAfter s (.trap code info) = s.mem := rfl
@[simp] theorem memAfter_poison (s : State) (info : DWord) (ia : Nat) : memAfter s (.poison info ia) = s.mem := rfl

@[simp] theorem memAfter_regs (s t : State) (ws : List Write) (fl : Flags) : memAfter s (Result.regs t ws fl) = t.mem :=
  rfl

/-! ### Machine/Issue -/

@[simp] theorem memAfter_whenActive (s : State) (m : LaneMask) (r : Result) :
    memAfter s (whenActive m s r) = if m == 0#32 then s.mem else memAfter s r := by
  unfold whenActive
  split <;> rfl

/-! ### Machine/MemInstr -/

@[simp] theorem wf_globalLoad {s : State} (h : cellsWf s.mem = true) (f : Fields) (r : Resolved) (a : DWord)
    (m : LaneMask) (lanes : List (Nat × DWord)) : cellsWf (memAfter s (globalLoad f r a m lanes s)) = true := by
  unfold globalLoad; dsimp only
  repeat' split
  all_goals simp [h]

@[simp] theorem wf_stackLoad {s : State} (h : cellsWf s.mem = true) (f : Fields) (r : Resolved) (a : DWord)
    (m : LaneMask) (lanes : List (Nat × DWord)) : cellsWf (memAfter s (stackLoad f r a m lanes s)) = true := by
  unfold stackLoad
  grind [memAfter, wf_trimStacks, fillLanes_mem, readFault_mem, localLoad_mem, Result.regs]

@[simp] theorem memAfter_scratchLoad (s : State) (f : Fields) (r : Resolved) (a : DWord) (m : LaneMask)
    (lanes : List (Nat × DWord)) : memAfter s (scratchLoad f r a m lanes s) = s.mem := by
  unfold scratchLoad; dsimp only
  repeat' split
  all_goals simp

@[simp] theorem wf_loadBody {s : State} (h : cellsWf s.mem = true) (f : Fields) (r : Resolved) (addr : Nat → DWord)
    (a : DWord) (m : LaneMask) : cellsWf (memAfter s (loadBody f r addr a m s)) = true := by
  unfold loadBody; dsimp only
  repeat' split
  all_goals simp [h]

@[simp] theorem wf_globalStore {s : State} (h : cellsWf s.mem = true) (r : Resolved) (kind op type n : Nat)
    (hooked : Bool) (lanes : List (Nat × DWord)) (data : Nat → DWord) :
    cellsWf (memAfter s (globalStore r kind op type n hooked lanes data s)) = true := by
  unfold globalStore; dsimp only
  repeat' split
  all_goals simp [h]

@[simp] theorem wf_localStoreBody {s : State} (h : cellsWf s.mem = true) (r : Resolved) (n : Nat)
    (lanes : List (Nat × DWord)) (data : Nat → DWord) :
    cellsWf (memAfter s (localStoreBody r n lanes data s)) = true := by
  unfold localStoreBody
  repeat' split
  all_goals simp [h]

@[simp] theorem wf_storeBody {s : State} (h : cellsWf s.mem = true) (f : Fields) (r : Resolved) (hooked : Bool)
    (addr data : Nat → DWord) (m : LaneMask) : cellsWf (memAfter s (storeBody f r hooked addr data m s)) = true := by
  unfold storeBody; dsimp only
  repeat' split
  all_goals simp [h]

theorem wf_withStack {s : State} (h : cellsWf s.mem = true) (space n : Nat) (lanes : List (Nat × DWord))
    {go : State → Result} (hg : ∀ t, cellsWf t.mem = true → cellsWf (memAfter s (go t)) = true) :
    cellsWf (memAfter s (withStack s space n lanes go)) = true := by
  unfold withStack
  split
  · exact hg s h
  · split
    · exact h
    · split
      · simpa using h
      · rename_i hf; exact hg _ (by rw [fillLanes_mem hf]; exact h)

@[simp] theorem wf_atomicBody {s : State} (h : cellsWf s.mem = true) (f : Fields) (addr : Nat → DWord) (op opc : Nat)
    (resType : Nat) (resWide : Bool) (data cmp : Nat → DWord) (a : DWord) (m : LaneMask) :
    cellsWf (memAfter s (atomicBody f addr op opc resType resWide data cmp a m s)) = true := by
  unfold atomicBody
  grind [memAfter, wf_withStack, wf_issueAtomics, Result.regs]

@[simp] theorem memAfter_plainFence (s : State) (f : Fields) : memAfter s (plainFence f s) = s.mem := by
  unfold plainFence
  split <;> rfl

/-! ### Machine/Control -/

@[simp] theorem memAfter_branch (s : State) (taken : Bool) (f : Fields) (a : DWord) :
    memAfter s (branch taken f a s) = s.mem :=
  rfl

@[simp] theorem memAfter_splitPly (s : State) (f : Fields) (a : DWord) (m : LaneMask) (cond : Nat → Bool) :
    memAfter s (splitPly f a m s cond) = s.mem := by
  unfold splitPly; dsimp only
  repeat' split
  all_goals simp

@[simp] theorem memAfter_resumeLanes (s : State) (f : Fields) (a : DWord) : memAfter s (resumeLanes f a s) = s.mem := by
  unfold resumeLanes; dsimp only
  repeat' split
  all_goals simp

@[simp] theorem memAfter_regionTrap (s t : State) (w : DWord) : memAfter s (regionTrap t w) = t.mem := rfl

/-! ### Machine/Sync -/

@[simp] theorem memAfter_moveCursor (s : State) (f : Fields) (m : LaneMask) (c : Int) (out : Bool) :
    memAfter s (moveCursor f m s c out) = s.mem := by
  unfold moveCursor
  split <;> rfl

theorem wf_crewChecked {s : State} (h : cellsWf s.mem = true) (f : Fields) (op : Nat) (m : LaneMask)
    {go : Nat → Nat → Crew → Result} (hg : ∀ c k crew, cellsWf (memAfter s (go c k crew)) = true) :
    cellsWf (memAfter s (crewChecked f op m s go)) = true := by
  unfold crewChecked
  dsimp only
  repeat' split
  all_goals simp [h, hg]

@[simp] theorem memAfter_offerCommand (s t : State) (r : Result) :
    memAfter s (offerCommand t r) = if mayPost t then memAfter s r else t.mem := by
  unfold offerCommand
  dsimp only
  split <;> simp

/-! ### Machine/RemoteInstr -/

@[simp] theorem wf_remoteBody {s : State} (h : cellsWf s.mem = true) (f : Fields) (m : LaneMask) (x : RemoteArgs)
    (count : DWord) : cellsWf (memAfter s (remoteBody f m s x count)) = true := by
  unfold remoteBody; dsimp only
  repeat' split
  all_goals simp [h]

@[simp] theorem memAfter_postLaunch (s : State) (f : Fields) (m : LaneMask) (perLane : Bool) :
    memAfter s (postLaunch f m perLane s) = s.mem := by
  unfold postLaunch; dsimp only
  repeat' split
  all_goals simp

@[simp] theorem memAfter_takeAnswer (s : State) (f : Fields) (m : LaneMask) (ans : LaunchAns) :
    memAfter s (takeAnswer f m ans s) = s.mem := by
  unfold takeAnswer
  split <;> rfl

@[simp] theorem memAfter_launchBody (s : State) (perLane : Bool) (f : Fields) (m : LaneMask) :
    memAfter s (launchBody perLane f m s) = s.mem := by
  unfold launchBody
  repeat' split
  all_goals simp

@[simp] theorem wf_finishEv {s : State} (h : cellsWf s.mem = true) (m : LaneMask) (a : Nat) :
    cellsWf (memAfter s (finishEv m a s)) = true := by
  simp [finishEv, h]

/-! ### Machine/Sleep -/

@[simp] theorem memAfter_wakeUntil (s : State) (h : Option Nat) : memAfter s (wakeUntil s h) = s.mem := by
  unfold wakeUntil
  repeat' split
  all_goals simp

@[simp] theorem memAfter_wakeEvents (s t : State) (f : Fields) (ev : Nat) : memAfter s (wakeEvents f t ev) = t.mem := by
  unfold wakeEvents
  split <;> rfl

@[simp] theorem memAfter_armWatch (s : State) (f : Fields) (m : LaneMask) (sel : Nat) :
    memAfter s (armWatch f m s sel) = s.mem := by
  unfold armWatch
  dsimp only
  split
  · rfl
  · split
    · rfl
    · simp
    · rename_i hl
      have hm := armLoad_mem hl
      repeat' split
      all_goals simp [hm]

/-! ### Machine/MatrixInstr -/

theorem memAfter_postAlone {s t : State} (h : t.mem = s.mem) (e : EngCmd) : memAfter s (postAlone t e) = s.mem := by
  unfold postAlone
  split
  · exact h
  · rw [memAfter_offerCommand]
    split
    · split
      · exact h
      · rename_i hp; exact (postCmd_mem hp).trans h
    · exact h

theorem wf_openRendezvous {s t : State} (h : cellsWf s.mem = true) (ht : cellsWf t.mem = true) (f : Fields)
    (i : Instr) (op : EngOp) (opc : Nat) (v : JointVals) (me : Arrival) (others : List Arrival) :
    cellsWf (memAfter s (openRendezvous t f i op opc v me others)) = true := by
  unfold openRendezvous
  dsimp only
  split
  · exact h
  · split
    · simpa using ht
    · split
      · exact ht
      · rename_i hp
        simpa [mem_foldl, postCmd_mem hp] using ht

@[simp] theorem wf_joint {s : State} (h : cellsWf s.mem = true) (i : Instr) (op : EngOp) (f : Fields) (a : DWord)
    (m : LaneMask) : cellsWf (memAfter s (joint i op f a m s)) = true := by
  unfold joint
  dsimp only
  split
  · exact h
  · split
    · split
      · exact h
      · rw [memAfter_postAlone rfl]; exact h
    · rw [memAfter_offerCommand]
      split
      · split
        · simpa using h
        · split
          · simpa using h
          · split
            · exact wf_openRendezvous h (by simpa using h) _ _ _ _ _ _ _
            · simpa using h
      · exact h

@[simp] theorem memAfter_accMove (s : State) (f : Fields) (m : LaneMask) (op : EngOp) :
    memAfter s (accMove f m s op) = s.mem := by
  unfold accMove
  extract_lets d t acc
  clear_value acc
  split
  · rfl
  · split
    · rfl
    · extract_lets e
      clear_value e
      generalize (if op == .accSt then _ else _) = wrongType
      split
      · rfl
      · split
        · rfl
        · split
          · rfl
          · split
            · exact memAfter_postAlone (mem_foldl fun _ _ => spoilRange_mem _ _ _) _
            · exact memAfter_postAlone rfl _

/-! ### Machine/VecInt -/

@[simp] theorem memAfter_lanewise (s : State) (f : Fields) (m : LaneMask) (t : Ty) (op : Nat → Rounded) :
    memAfter s (lanewise f m s t op) = s.mem := by
  simp [lanewise]

@[simp] theorem memAfter_intBinary (s : State) (f : Fields) (m : LaneMask) (op : Int → Int → Int) :
    memAfter s (intBinary f m s op) = s.mem := by
  simp [intBinary]

@[simp] theorem memAfter_intUnary (s : State) (f : Fields) (m : LaneMask) (op : Int → Int) :
    memAfter s (intUnary f m s op) = s.mem := by
  simp [intUnary]

@[simp] theorem memAfter_bitBinary (s : State) (f : Fields) (m : LaneMask) (op : Nat → Nat → Nat → Nat) :
    memAfter s (bitBinary f m s op) = s.mem := by
  simp [bitBinary]

@[simp] theorem memAfter_bitUnary (s : State) (f : Fields) (m : LaneMask) (op : Nat → Nat → Nat) :
    memAfter s (bitUnary f m s op) = s.mem := by
  simp [bitUnary]

/-! ### Machine/VecFloat -/

@[simp] theorem memAfter_floatUnary (s : State) (f : Fields) (m : LaneMask) (op : FloatFmt → RndCtx → Nat → Rounded) :
    memAfter s (floatUnary f m s op) = s.mem := by
  simp [floatUnary]

@[simp] theorem memAfter_floatBinary (s : State) (f : Fields) (m : LaneMask)
    (op : FloatFmt → RndCtx → Nat → Nat → Rounded) : memAfter s (floatBinary f m s op) = s.mem := by
  simp [floatBinary]

/-! ### Machine/VecMove -/

@[simp] theorem memAfter_convert (s : State) (f : Fields) (m : LaneMask) (op : RndCtx → Nat → Rounded) :
    memAfter s (convert f m s op) = s.mem := by
  simp [convert]

/-! ### Machine/Scalar -/

@[simp] theorem memAfter_scalarOp (s : State) (f : Fields) (m : LaneMask) (x : DWord) :
    memAfter s (scalarOp f m s x) = s.mem := by
  simp [scalarOp]

@[simp] theorem memAfter_maskOp (s : State) (f : Fields) (m : LaneMask) (x : LaneMask) :
    memAfter s (maskOp f m s x) = s.mem := by
  simp [maskOp]

/-! ### Machine/System -/

@[simp] theorem memAfter_sendWindow (s : State) (n : Nat) (w : Window) : memAfter s (sendWindow s n w) = s.mem := by
  unfold sendWindow
  dsimp only
  split
  · simp
  · exact mem_foldl (fun _ _ => sendPacket_mem _ _ _ _ _ _ _)

@[simp] theorem wf_scanpass {s : State} (h : cellsWf s.mem = true) (f : Fields) (m : LaneMask) (u : UnitId)
    (drained : Bool) : cellsWf (memAfter s (scanpass f m s u drained)) = true := by
  unfold scanpass
  dsimp only
  repeat' split
  all_goals simp [h]
  exact wf_whileParked (fun _ hu => wf_scanFailed hu _ _ _) (by simpa using h)

theorem wf_assayBody {s : State} (h : cellsWf s.mem = true) (f : Fields) (op : Nat) (m : LaneMask)
    {act : UnitId → Result} (ha : ∀ u, cellsWf (memAfter s (act u)) = true) :
    cellsWf (memAfter s (assayBody f op m s act)) = true := by
  unfold assayBody
  dsimp only
  repeat' split
  all_goals simp [h, ha]

end Sys2Proof.Laws
end
-- ==== Sys2Proof/Proofs/ExecGoesOn.lean ====
section
/-!
SUPPORT. R8, R15: every instruction and every event has a next state, and keeps the memory's canonical form. Each
meaning goes through the issue of an instruction (`goes_issue`) or the frame of an event (`goes_event`); one that needs more than
the tagged rules has a lemma of its own, and `goes_exec` puts them together.
-/

namespace Sys2Proof.Laws
open Sys2Proof Sys2Proof.Machine Sys2Proof.Safety

/-- The outcome is a next state, and a safe one when the step began in a safe state. -/
def GoesOnSafe (s : State) (o : Host.Outcome State Fault Refusal) : Prop := ∃ t, o = .next t ∧ (Safe s → Safe t)

theorem goes_next {s t : State} (h : cellsWf s.mem = true → cellsWf t.mem = true) : GoesOnSafe s (.next t) :=
  ⟨t, rfl, h⟩

/-! ### The issue of an instruction, and an event -/

theorem goes_issue {i : Instr} {s : State} {body : Fields → DWord → LaneMask → State → Result}
    (hb : ∀ f a m, cellsWf s.mem = true → cellsWf (memAfter s (body f a m s)) = true) :
    GoesOnSafe s (issue i s body) := by
  unfold issue
  split
  · exact goes_next fun h => wf_issueRow h _ _ _ fun a m => hb _ a m h
  · exact goes_next id

theorem goes_event {s : State} {g : State → State} (hg : ∀ q, cellsWf q.mem = true → cellsWf (g q).mem = true) :
    GoesOnSafe s (event s g) :=
  goes_next fun h => hg (park s) (by simpa using h)

theorem goes_event_of {s : State} {g : State → State}
    (hg : ∀ q t, g q = t → cellsWf q.mem = true → cellsWf t.mem = true) : GoesOnSafe s (event s g) :=
  goes_event fun q h => hg q _ rfl h

/-! ### Machine/MemInstr -/

theorem goes_execLr (f : Fields) (s : State) : GoesOnSafe s (execLr f s) := goes_issue fun _ _ _ h => by
  grind [memAfter, wf_atomicBody]

theorem goes_execSc (f : Fields) (s : State) : GoesOnSafe s (execSc f s) := goes_issue fun _ _ _ h => by
  grind [memAfter, wf_atomicBody]

theorem goes_execRed (f : Fields) (s : State) : GoesOnSafe s (execRed f s) := goes_issue fun _ _ _ h => by
  grind [memAfter, wf_globalStore, wf_withStack, wf_localReductions, Result.regs]

theorem goes_execPref (f : Fields) (s : State) : GoesOnSafe s (execPref f s) := goes_issue fun _ _ _ h =>
  wf_foldl (fun _ _ hs => wf_prefetchLane hs _ _) h

/-! ### Machine/Control -/

theorem goes_execNop (wide : Bool) (s : State) : GoesOnSafe s (execNop wide s) := by
  unfold execNop
  repeat' split
  all_goals exact goes_next fun h => by simp [h]

theorem goes_execReservedOpcodeInstruction (base _ext : DWord) (s : State) :
    GoesOnSafe s (execReservedOpcodeInstruction base _ext s) :=
  goes_next fun h => by simp [h]

theorem goes_execPlysync (f : Fields) (s : State) : GoesOnSafe s (execPlysync f s) := goes_issue fun _ _ _ h => by
  grind [memAfter, meetPlies_mem]

theorem goes_execRgn (f : Fields) (s : State) : GoesOnSafe s (execRgn f s) := goes_issue fun f a m h => by
  dsimp only
  split
  · exact h
  · rename_i hm
    have ht : cellsWf _ = true := (meetPlies_mem hm).symm ▸ h
    repeat' split
    all_goals simp [h, ht]

theorem goes_execRgnEnd (f : Fields) (s : State) : GoesOnSafe s (execRgnEnd f s) := goes_issue fun f a m h => by
  dsimp only
  split
  · exact h
  · rename_i hm
    have ht : cellsWf _ = true := (meetPlies_mem hm).symm ▸ h
    repeat' split
    all_goals simp [h, ht]

theorem mem_endedWeave (s t : State) :
    (if t.weave.ended && t.focused == s.focused && !s.weave.ended then weaveEnded t else t).mem = t.mem := by
  rw [apply_ite State.mem, weaveEnded_mem, ite_self]

theorem goes_execExit (f : Fields) (s : State) : GoesOnSafe s (execExit f s) := by
  unfold execExit
  generalize ho : issue _ _ _ = o
  have hs : GoesOnSafe s o := ho ▸ goes_issue fun _ _ _ h => by split <;> simp [h]
  obtain ⟨t, rfl, ht⟩ := hs
  exact goes_next fun h => by rw [mem_endedWeave]; exact ht h

/-! ### Machine/Sync -/

theorem goes_execBarTeam (f : Fields) (s : State) : GoesOnSafe s (execBarTeam f s) := goes_issue fun _ _ _ h => by
  grind [memAfter, meetTeam_mem, acquireAt_mem, Result.regs]

theorem goes_execArriveCrew (f : Fields) (s : State) :
    GoesOnSafe s (execArriveCrew f s) := goes_issue fun _ _ _ h => wf_crewChecked h _ _ _ fun _ _ _ => by
  dsimp only
  repeat' split
  all_goals simp [h]

theorem goes_execWaitCrew (f : Fields) (s : State) :
    GoesOnSafe s (execWaitCrew f s) := goes_issue fun _ _ _ h => wf_crewChecked h _ _ _ fun _ _ _ => by
  dsimp only
  repeat' split
  all_goals simp [h]

theorem goes_execMst (f : Fields) (s : State) : GoesOnSafe s (execMst f s) := goes_issue fun f _ m h => by
  dsimp only
  generalize (if (f.b == 0xFB#8) = true then f.imm32.toNat else _) = base
  split
  · exact h
  · split
    · split
      · exact h
      · split
        · exact h
        · split
          · exact h
          · rw [memAfter_regs]
            split <;> simpa [mem_foldl (fun _ _ => mstLane_mem _ _ _ _)] using h
    · exact h

/-! ### Machine/RemoteInstr -/

theorem readDwords_mem {s : State} {sp : Bool} {m : LaneMask} {a n : Nat} {t : State} {d : List DWord}
    (h : readDwords s sp m a n = .ok t d) : t.mem = s.mem := by
  unfold readDwords at h
  grind [stampLoad_mem, agentGetAll_mem, spoilRange_mem, stampPlain_mem]

theorem memAfter_readDwords {u s : State} (hu : u.mem = s.mem) {sp : Bool} {m : LaneMask} {a n : Nat} {r : Result}
    (h : readDwords s sp m a n = .stop r) : memAfter u r = s.mem := by
  unfold readDwords at h
  grind [memAfter, readFault_mem]

theorem goes_execXcopy (f : Fields) (s : State) : GoesOnSafe s (execXcopy f s) := goes_issue fun f _ m h => by
  dsimp only
  split
  · exact h
  · split
    · exact h
    · split
      · exact h
      · split
        · rename_i hp; rw [memAfter_readDwords rfl hp]; exact h
        · rename_i hp
          have h0 := readDwords_mem hp
          split
          · rename_i hq; rw [memAfter_readDwords h0.symm hq, h0]; exact h
          · rename_i hq
            have h1 := (readDwords_mem hq).trans h0
            split <;> simp [h1, h]

theorem goes_execEvrec (f : Fields) (s : State) : GoesOnSafe s (execEvrec f s) := goes_issue fun f _ m h => by
  dsimp only
  repeat' split
  all_goals simp [h, finishEv]

/-! ### Machine/Sched -/

theorem goes_execPlyDue (uid windex n : Nat) (s : State) :
    GoesOnSafe s (execPlyDue uid windex n s) := goes_event fun _ h => wf_whenPly h _ _ _ fun _ _ _ => by
  split <;> simp [h]

theorem goes_execYieldExpiry (uid windex n : Nat) (s : State) :
    GoesOnSafe s (execYieldExpiry uid windex n s) := goes_event fun _ h => by
  grind [wf_whenPly, whenPly_mem, onPly_mem]

theorem goes_execSleepUntilWake (uid windex n : Nat) (s : State) :
    GoesOnSafe s (execSleepUntilWake uid windex n s) := goes_event fun _ h => by
  grind [wf_whenPly, whenPly_mem, onPly_mem]

theorem goes_execSleepEvWake (uid windex n : Nat) (s : State) :
    GoesOnSafe s (execSleepEvWake uid windex n s) := goes_event fun q h =>
  wf_whenPly h _ _ _ fun _ w p => by
    split
    · dsimp only
      generalize latchBits w _ + _ = ev
      split <;> simp [h]
    · exact h

theorem goes_execSleepEvTimeout (uid windex n : Nat) (s : State) :
    GoesOnSafe s (execSleepEvTimeout uid windex n s) := goes_event fun _ h => by
  grind [wf_whenPly, whenPly_mem, onPly_mem, dropWatch_mem]

theorem goes_execVolatileDeferralEnd (uid windex : Nat) (s : State) :
    GoesOnSafe s (execVolatileDeferralEnd uid windex s) := goes_event fun _ h => by
  grind [onWeave_mem]

theorem goes_execFenceSpecValidate (uid windex n : Nat) (s : State) :
    GoesOnSafe s (execFenceSpecValidate uid windex n s) := goes_event fun _ h => by
  grind [wf_whenPly, wf_releaseFence, whenPly_mem, rollFence_mem]

theorem goes_execPtsAgeTick (uid windex n : Nat) (s : State) :
    GoesOnSafe s (execPtsAgeTick uid windex n s) := goes_event fun _ h => wf_whenPly h _ _ _ fun _ _ _ => by
  split <;> simp [h]

theorem goes_execPromiseMissed (uid windex n : Nat) (s : State) :
    GoesOnSafe s (execPromiseMissed uid windex n s) := goes_event fun q h =>
  wf_whenPly h _ _ _ fun _ w p => by
    split
    · dsimp only
      split
      · split <;> simp [h]
      · exact h
    · exact h

/-! ### Machine/Faults -/

theorem goes_execPendingTableRetry (id : Nat) (s : State) :
    GoesOnSafe s (execPendingTableRetry id s) := goes_event fun _ h => by
  grind [wf_replayEntry, wf_arriveHome]

/-! ### Machine/Admit -/

theorem goes_teamAdmissionAt (site : Nat) (s : State) :
    GoesOnSafe s (teamAdmissionAt site s) := goes_event fun _ h => by
  grind [wf_firstFit]

theorem goes_execContextRestore (site uid : Nat) (s : State) :
    GoesOnSafe s (execContextRestore site uid s) := goes_event fun _ h => by
  grind [wf_firstFit]

theorem wf_requestOrTrial {s : State} (h : cellsWf s.mem = true) (site : Nat) (gs : List Group) :
    cellsWf (((gs.findSome? (requestSplit s site)).orElse (fun _ => trialSplit s site)).getD s).mem = true := by
  cases hx : gs.findSome? (requestSplit s site) with
  | some t =>
    obtain ⟨g, -, hg⟩ := List.exists_of_findSome?_eq_some hx
    simpa [requestSplit_mem hg] using h
  | none =>
    cases hy : trialSplit s site with
    | some t => simpa [hy, trialSplit_mem hy] using h
    | none => simpa [hy] using h

theorem goes_admissionStarvationAt (site : Nat) (s : State) :
    GoesOnSafe s (admissionStarvationAt site s) := goes_event fun q h => by
  dsimp only
  split
  · rename_i hp
    obtain ⟨g, -, hg⟩ := List.exists_of_findSome?_eq_some hp
    exact wf_preemptFor h hg
  · exact wf_requestOrTrial h site _

theorem goes_splitChangeRequestAt (site : Nat) (s : State) : GoesOnSafe s (splitChangeRequestAt site s) :=
  goes_event fun _ h => wf_requestOrTrial h site _

theorem goes_splitChangeCancelAt (site phys core : Nat) (s : State) :
    GoesOnSafe s (splitChangeCancelAt site phys core s) := goes_event fun _ h => by
  dsimp only
  repeat' split
  all_goals simp [h]

theorem goes_splitFlushAt (site phys core : Nat) (s : State) :
    GoesOnSafe s (splitFlushAt site phys core s) := goes_event fun _ h => by
  dsimp only
  repeat' split
  all_goals simp [h]

theorem goes_splitConfigAt (site phys core : Nat) (s : State) :
    GoesOnSafe s (splitConfigAt site phys core s) := goes_event fun _ h => by
  dsimp only
  repeat' split
  all_goals simp [h]

theorem goes_splitServeAt (site phys core : Nat) (s : State) :
    GoesOnSafe s (splitServeAt site phys core s) := goes_event fun _ h => by
  dsimp only
  repeat' split
  all_goals simp [h]

/-! ### Machine/Service -/

theorem goes_faultBatchPostAt (part : Nat) (s : State) :
    GoesOnSafe s (faultBatchPostAt part s) := goes_event fun _ h => by
  dsimp only
  repeat' split
  all_goals simp [h]

theorem goes_execRegisterWrite (site off : Nat) (v : DWord) (s : State) :
    GoesOnSafe s (execRegisterWrite site off v s) := goes_event fun _ h => by
  grind [plainWrite_mem, msixWrite_mem]

theorem goes_serviceTailObservedAt (part : Nat) (s : State) :
    GoesOnSafe s (serviceTailObservedAt part s) := goes_event fun _ h => by
  dsimp only
  repeat' split
  all_goals simp [h]

theorem goes_serviceNopAt (part : Nat) (s : State) : GoesOnSafe s (serviceNopAt part s) := goes_event fun _ h => by
  dsimp only
  repeat' split
  all_goals simp [h]

theorem goes_replayFaultAt (part : Nat) (s : State) :
    GoesOnSafe s (replayFaultAt part s) := goes_event fun _ h => wf_serve h _ _ _ fun _ _ => by
  dsimp only
  repeat' split
  all_goals simp [h]

theorem goes_cancelFaultAt (part : Nat) (s : State) :
    GoesOnSafe s (cancelFaultAt part s) := goes_event fun _ h => wf_serve h _ _ _ fun _ _ => by
  split <;> simp [h]

theorem goes_replayRangeAt (part : Nat) (s : State) :
    GoesOnSafe s (replayRangeAt part s) := goes_event fun _ h => wf_serve h _ _ _ fun _ _ => by
  dsimp only
  repeat' split
  all_goals simp [h]

theorem goes_markerAt (part : Nat) (s : State) : GoesOnSafe s (markerAt part s) := goes_event fun _ h => by
  grind [wf_serve, wf_endService, wf_agentStore, agentStore_mem]

theorem goes_invalidateAt (part : Nat) (s : State) :
    GoesOnSafe s (invalidateAt part s) := goes_event fun _ h => wf_serve h _ _ _ fun _ _ => by
  split <;> simp [h]

theorem goes_invalidateLeaseLapseAt (part : Nat) (s : State) :
    GoesOnSafe s (invalidateLeaseLapseAt part s) := goes_event fun _ h => by
  dsimp only
  repeat' split
  all_goals simp [h]

theorem goes_flipAt (part : Nat) (s : State) : GoesOnSafe s (flipAt part s) := goes_event fun _ h => by
  grind [wf_endPage, wf_endService, wf_serve, wf_flipPage, onSite_mem]

theorem goes_grantAt (part : Nat) (s : State) : GoesOnSafe s (grantAt part s) := goes_event fun _ h => by
  grind [wf_foldl, mem_foldl, wf_refuseService, wf_openEngine, wf_endService, wf_writeGrant, onCtx_mem]

/-! ### Machine/Assay -/

theorem goes_execTeamEnd (uid : Nat) (s : State) : GoesOnSafe s (execTeamEnd uid s) := goes_event fun _ h => by
  grind [wf_endOriginal]

theorem goes_execLaunchCompletion (key : Nat) (s : State) :
    GoesOnSafe s (execLaunchCompletion key s) := goes_event fun _ h => by
  grind [wf_closeWindow, wf_postRecord, wf_settleLaunch, onLaunch_mem]

/-! ### Machine/Leave -/

theorem goes_execPreemption (uid : Nat) (s : State) : GoesOnSafe s (execPreemption uid s) := goes_event fun _ h => by
  grind [wf_leaveUnit]

theorem goes_migrationAdvertisementAt (site : Nat) (s : State) :
    GoesOnSafe s (migrationAdvertisementAt site s) := goes_event fun _ h => by
  grind [wf_foldl, mem_foldl, onSite_mem, sendPacket_mem]

theorem goes_migrationOfferAt (site : Nat) (s : State) :
    GoesOnSafe s (migrationOfferAt site s) := goes_event fun q h => by
  split
  · exact h
  · exact wf_findSome?_getD (fun _ _ hl => by rw [offerOf_mem hl]; exact h) h

theorem goes_migrationOfferReceiveAt (id : Nat) (s : State) :
    GoesOnSafe s (migrationOfferReceiveAt id s) := goes_event fun _ h => by
  dsimp only
  repeat' split
  all_goals simp [h]

theorem goes_migrationAnswerReceiveAt (id : Nat) (s : State) :
    GoesOnSafe s (migrationAnswerReceiveAt id s) := goes_event fun _ h => by
  dsimp only
  repeat' split
  all_goals simp [h]

theorem goes_budgetWindowStartAt (site : Nat) (s : State) :
    GoesOnSafe s (budgetWindowStartAt site s) := goes_event fun _ h => by
  dsimp only
  repeat' split
  all_goals simp [h]

/-! ### Machine/Fabric -/

theorem goes_execMeshPacketArrival (id : Nat) (forged : Bool) (s : State) :
    GoesOnSafe s (execMeshPacketArrival id forged s) := goes_event fun _ h => by
  grind [wf_settlePacket, forwardPacket_mem]

theorem goes_execGateRequestArrival (id : Nat) (s : State) :
    GoesOnSafe s (execGateRequestArrival id s) := goes_event fun _ h => by
  grind [wf_arriveHome]

theorem goes_detourTablesLoadedAt (a b : Nat) (s : State) :
    GoesOnSafe s (detourTablesLoadedAt a b s) := goes_event fun _ h => by
  dsimp only
  repeat' split
  all_goals simp [h]

theorem goes_execPortQueueAdvertisement (site flits : Nat) (s : State) :
    GoesOnSafe s (execPortQueueAdvertisement site flits s) := goes_event fun _ h => by
  grind [wf_foldl, mem_foldl, onSite_mem, sendPacket_mem, moveToMesh_mem]

theorem goes_portDownAt (site : Nat) (s : State) : GoesOnSafe s (portDownAt site s) := goes_event fun _ h => by
  dsimp only
  repeat' split
  all_goals simp [h]

theorem goes_proxyAnnounceAt (site : Nat) (s : State) :
    GoesOnSafe s (proxyAnnounceAt site s) := goes_event fun _ h => by
  split <;> simp [h]

theorem goes_proxyHandbackEndAt (site : Nat) (s : State) :
    GoesOnSafe s (proxyHandbackEndAt site s) := goes_event fun _ h => by
  dsimp only
  repeat' split
  all_goals simp [h]

/-! ### Machine/Optics -/

theorem goes_execRetrainResult (site : Nat) (ok : Bool) (s : State) :
    GoesOnSafe s (execRetrainResult site ok s) := goes_event fun _ h => by
  grind [changeShares_mem, spend_mem, retrained_mem]

theorem goes_execRestoreDarkWavelength (site w : Nat) (light : Bool) (s : State) :
    GoesOnSafe s (execRestoreDarkWavelength site w light s) := goes_event fun _ h => by
  grind [answerMgmt_mem, changeShares_mem, relight_mem]

theorem goes_execStripedFlitReceive (site wave : Nat) (d0 : DWord) (body : List Byte) (lset rest : BitVec 16)
    (crc : Word) (s : State) :
    GoesOnSafe s (execStripedFlitReceive site wave d0 body lset rest crc s) := goes_event fun q h => by
  dsimp only
  split
  · exact h
  · split
    · simpa using h
    · rename_i fl _
      split
      · cases lostModule (findSite q site).stripe.rxLive fl.lset <;> simpa using h
      · split <;> simp [h]

theorem goes_execStripedAckTimer (s : State) : GoesOnSafe s (execStripedAckTimer s) := goes_next fun h => by simp [h]

theorem goes_execStripedGapTimeout (s : State) : GoesOnSafe s (execStripedGapTimeout s) :=
  goes_next fun h => by simp [h]

/-! ### Machine/Rotation -/

theorem goes_scanTurnAt (site : Nat) (s : State) : GoesOnSafe s (scanTurnAt site s) := goes_event fun _ h => by
  grind [onSite_mem, setUnitScan_mem]

theorem goes_scanDrainDoneAt (unit : Nat) (s : State) :
    GoesOnSafe s (scanDrainDoneAt unit s) := goes_event fun _ h => by
  dsimp only
  repeat' split
  all_goals simp [h]

theorem goes_scanDrainTimeoutAt (unit : Nat) (s : State) :
    GoesOnSafe s (scanDrainTimeoutAt unit s) := goes_event fun _ h => by
  dsimp only
  repeat' split
  all_goals simp [h]

theorem goes_scanCompleteAt (unit : Nat) (s : State) : GoesOnSafe s (scanCompleteAt unit s) := goes_event fun _ h => by
  dsimp only
  repeat' split
  all_goals simp [h]

theorem goes_execPtpSample (ns : Nat) (s : State) :
    GoesOnSafe s (execPtpSample ns s) := goes_event_of fun q t ht h => by
  split at ht <;> (subst ht; exact h)

/-! ### Machine/Graph -/

theorem goes_execLaunchAnswer (tag : Nat) (s : State) :
    GoesOnSafe s (execLaunchAnswer tag s) := goes_event fun q h => by
  split
  · exact h
  · refine wf_whenPly h _ _ _ fun t w p => ?_
    split <;> simp [h]

theorem goes_queueRecordServiceAt (site q : Nat) (s : State) :
    GoesOnSafe s (queueRecordServiceAt site q s) := goes_event fun _ h => by
  dsimp only
  repeat' split
  all_goals simp [h]

theorem goes_queueTailObservedAt (site q : Nat) (s : State) :
    GoesOnSafe s (queueTailObservedAt site q s) := goes_event_of fun s t ht h => by
  split at ht
  · subst ht; exact h
  · split at ht
    · subst ht; exact h
    · split at ht
      · subst ht; simpa using h
      · rename_i hp
        dsimp only at ht
        split at ht <;> (subst ht; simp [masterGet_mem hp, h])

theorem goes_queueEntryNopAt (site q : Nat) (s : State) : GoesOnSafe s (queueEntryNopAt site q s) :=
  goes_event fun _ h => wf_takeEntry h _ _ _ fun _ _ _ h => by simp [h]

theorem goes_queueEntryLaunchAt (site q : Nat) (s : State) :
    GoesOnSafe s (queueEntryLaunchAt site q s) := goes_event fun _ h => wf_takeEntry h _ _ _ fun _ _ _ h => by
  dsimp only
  repeat' split
  all_goals simp [h]

theorem goes_queueEntryGraphAt (site q : Nat) (s : State) :
    GoesOnSafe s (queueEntryGraphAt site q s) := goes_event fun _ h => wf_takeEntry h _ _ _ fun _ _ _ h => by
  dsimp only
  repeat' split
  all_goals simp [h]

theorem goes_graphTokenAt (graph node : Nat) (s : State) :
    GoesOnSafe s (graphTokenAt graph node s) := goes_event fun _ h => by
  grind [wf_runNode, wf_takeToken, wf_driveNode, onGraph_mem]

theorem goes_nodeLoopAt (graph node : Nat) (s : State) :
    GoesOnSafe s (nodeLoopAt graph node s) := goes_event fun q h => by
  split
  · exact h
  · dsimp only
    split
    · exact h
    · split
      · simp [h]
      · split
        · rename_i hp; exact wf_nodeRead_error h hp
        · split <;> simp [h]

theorem goes_nodeWaitAt (graph node : Nat) (s : State) :
    GoesOnSafe s (nodeWaitAt graph node s) := goes_event fun q h => by
  split
  · exact h
  · dsimp only
    split
    · exact h
    · split
      · split
        · exact h
        · split
          · rename_i hp
            have hm := wf_masterRmw h hp
            split <;> simp [hm]
          · simpa using h
      · rename_i hp; exact wf_nodeRead_error h hp
      · simp [h]

theorem goes_graphCompletionAt (graph : Nat) (s : State) :
    GoesOnSafe s (graphCompletionAt graph s) := goes_event fun _ h => by
  dsimp only
  repeat' split
  all_goals simp [h]

/-! ### Machine/HostPort -/

theorem goes_execHostLinkDown (port : Nat) (s : State) :
    GoesOnSafe s (execHostLinkDown port s) := goes_event fun _ h => by
  grind [wf_foldl, mem_foldl, abortLog_mem, faultAccess_mem]

theorem goes_execHostLineGrant (site line : Nat) (shared : Bool) (s : State) :
    GoesOnSafe s (execHostLineGrant site line shared s) := goes_event fun _ h => by
  grind [wf_foldl, mem_foldl, wf_pumpLogs, wf_grantAcc, holdLine_mem]

theorem goes_execHostSnoop (site line : Nat) (shared : Bool) (s : State) :
    GoesOnSafe s (execHostSnoop site line shared s) := goes_event fun _ h => by
  grind [giveUpLine_mem]

/-! ### Machine/MatrixInstr -/

theorem goes_execObload (f : Fields) (s : State) : GoesOnSafe s (execObload f s) := goes_issue fun _ _ _ h => by
  grind [memAfter, memAfter_postAlone, spoilRange_mem, Result.regs]

theorem goes_execObgath (f : Fields) (s : State) : GoesOnSafe s (execObgath f s) := goes_issue fun _ _ _ h => by
  dsimp only
  split
  · exact h
  · split
    · exact h
    · split
      · exact h
      · rw [memAfter_offerCommand]
        split
        · split
          · exact h
          · rename_i hp; simpa [postCmd_mem hp] using h
        · exact h

theorem goes_execAccZero (f : Fields) (s : State) : GoesOnSafe s (execAccZero f s) := goes_issue fun _ _ _ h => by
  grind [memAfter, memAfter_postAlone, Result.regs]

theorem goes_execMwait (f : Fields) (s : State) : GoesOnSafe s (execMwait f s) := goes_issue fun _ _ _ h => by
  grind [memAfter, acquireAt_mem, Result.regs]

/-! ### Machine/Scalar -/

theorem goes_execWrsp (f : Fields) (s : State) : GoesOnSafe s (execWrsp f s) := goes_issue fun _ _ _ h => by
  grind [memAfter, memAfter_whenActive, setSpecial_mem, Result.regs]

/-! ### Machine/System -/

theorem goes_execRwinRd (f : Fields) (s : State) : GoesOnSafe s (execRwinRd f s) := goes_issue fun _ _ _ h => by
  grind [memAfter, Result.regs]

theorem goes_execCtxsv (f : Fields) (s : State) : GoesOnSafe s (execCtxsv f s) := goes_issue fun _ _ _ h => by
  grind [memAfter, wf_paySave, wf_saveTo, askLeave_mem, onTeams_mem, Result.regs]

theorem goes_execCtxld (f : Fields) (s : State) : GoesOnSafe s (execCtxld f s) := goes_issue fun _ _ _ h => by
  dsimp only
  split
  · exact h
  · split
    · exact h
    · split
      · rename_i hp
        obtain ⟨ps, -, hr⟩ := Option.map_eq_some_iff.1 hp
        have h1 := readPages_mem hr
        split
        · rename_i hp2
          obtain ⟨ps2, -, hr2⟩ := Option.map_eq_some_iff.1 hp2
          have h2 := readPages_mem (Prod.mk.inj hr2).2
          repeat' split
          all_goals simp [h2, h1, h]
        · simpa [h1] using h
      · exact h

theorem goes_execAssayCtlRd (f : Fields) (s : State) : GoesOnSafe s (execAssayCtlRd f s) :=
  goes_issue fun _ _ _ h => wf_assayBody h _ _ _ fun _ => by simp [h]

theorem goes_execAssayCtlWr (f : Fields) (s : State) : GoesOnSafe s (execAssayCtlWr f s) := goes_issue fun _ _ _ h => by
  grind [memAfter, wf_assayBody, wf_whileParked, wf_changeScore, whileParked_mem, Result.regs]

theorem goes_execAssayCtlArm (f : Fields) (s : State) :
    GoesOnSafe s (execAssayCtlArm f s) := goes_issue fun _ _ _ h => by
  grind [memAfter, wf_assayBody, onCore_mem, Result.regs]

theorem goes_execAssayCtlDisarm (f : Fields) (s : State) :
    GoesOnSafe s (execAssayCtlDisarm f s) := goes_issue fun _ _ _ h => wf_assayBody h _ _ _ fun _ => by
  split <;> simp [h]

theorem goes_execHaltCore (f : Fields) (s : State) : GoesOnSafe s (execHaltCore f s) := by
  unfold execHaltCore
  generalize ho : issue _ _ _ = o
  have hs : GoesOnSafe s o := ho ▸ goes_issue fun _ _ _ h => by
    repeat' split
    all_goals simp [h]
  obtain ⟨t, rfl, ht⟩ := hs
  exact goes_next fun h => by rw [mem_endedWeave]; exact ht h

/-! ### Machine/Dispatch -/

/-- R8, R15: an instruction whose body hands on the memory through functions that keep it goes on by the rules of issue; the
others, and the events, by a lemma of their own above. -/
theorem goes_exec (i : Instr) (s : State) : GoesOnSafe s (exec i s) := by
  unfold exec
  cases i with
  | brNz | brZ | brAny | brAll | brsNz | brsZ | resume | jmp | call | callReg | ret | yield | sadd | ssub | smul
  | smad | sand | sor | sxor | sshl | sshr | ssra | smin | smax | scmp | ssel | smov | kand | kor | kxor | knot
  | kmov | voteAny | voteAll | voteCnt | add | sub | mulLo | mulHi | mad | abs | neg | min | max | and | or | xor
  | not | shl | shr | sra | rot | popc | clz | brev | bfx | bfi | cmp | sel | dp4 | fadd | fsub | fmul | fma | fmin
  | fmax | fcmp | frcp | frsq | fsqrt | fdiv | fexp2 | flog2 | fsin | fcos | frnd | fclass | fscale | fdot2
  | cvtIntInt | cvtIntFloat | cvtFloatInt | cvtFloatNarrow | cvtFloatWiden | cvtFp8 | pack | unpack | perm | lscanAdd
  | lred | qblk | dqblk | ld | st | ldx | stx | lds | sts | atom | atomCas | fence | salloc | sfree | mm | mtr
  | mperm | mrsum | accLd | accSt | xput | xget | xred | xatom | launchW | launchL | rdpv | scanpassCore
  | scanpassEngine =>
    exact goes_issue fun _ _ _ h => by simp [h]
  | trap | fenceSpec | eret =>
    exact goes_issue fun _ _ _ h => by split <;> simp [h]
  | sleepUntil | sleepEv | rdsp | tlook | tset | tinv | spmove | obres | obrel | gangSet | mpoll | mstat | xwait
  | xwaitRn | gsig | wrpv | rwinWr =>
    exact goes_issue fun _ _ _ h => by
      dsimp only
      repeat' split
      all_goals simp [h]
  | commandAgePromotion | priorityAging | fbidxWrite | errorRecordResend | opctlWrite | nakReceive | getVersion
  | getCapabilities | negotiateAlgorithms | getDigests | getCertificate | challenge | coldReset | powerClockAdjust
  | ptpSyncMessage | spdmUnsupportedRequest =>
    exact goes_event fun _ h => by simp [h]
  | matrixPassEnd | transferEnd | bgtWrite | flitCrcError | lossOfLight | setPowerLimit | writeDomainKey
  | writeSitepart | writeRecord | warmReset | hostLinkUp =>
    exact goes_event fun _ h => by split <;> simp [h]
  | registerAllocationStall | refillWeave | loadDataReturn | engineGrant | copyComplete | remoteOpComplete
  | launchRequest | faultSwapOut | watchdogExpiry | uncorrectableErrorFound | assayRerunAdmission | assayRunEnd
  | linkDead | portUp | berWindow | hostCxlMemAccess | getMeasurements | returnUnitToService | longLatencyResultWrite
  | ultraEthernetRetransmission | correctedError =>
    exact goes_event fun _ h => by
      dsimp only
      repeat' split
      all_goals simp [h]
  | nop wide => exact goes_execNop wide s
  | plysync f => exact goes_execPlysync f s
  | plyDue uid windex n => exact goes_execPlyDue uid windex n s
  | yieldExpiry uid windex n => exact goes_execYieldExpiry uid windex n s
  | sleepUntilWake uid windex n => exact goes_execSleepUntilWake uid windex n s
  | sleepEvWake uid windex n => exact goes_execSleepEvWake uid windex n s
  | sleepEvTimeout uid windex n => exact goes_execSleepEvTimeout uid windex n s
  | rgn f => exact goes_execRgn f s
  | rgnEnd f => exact goes_execRgnEnd f s
  | exit f => exact goes_execExit f s
  | wrsp f => exact goes_execWrsp f s
  | volatileDeferralEnd uid windex => exact goes_execVolatileDeferralEnd uid windex s
  | red f => exact goes_execRed f s
  | lr f => exact goes_execLr f s
  | sc f => exact goes_execSc f s
  | fenceSpecValidate uid windex n => exact goes_execFenceSpecValidate uid windex n s
  | pref f => exact goes_execPref f s
  | barTeam f => exact goes_execBarTeam f s
  | arriveCrew f => exact goes_execArriveCrew f s
  | waitCrew f => exact goes_execWaitCrew f s
  | mst f => exact goes_execMst f s
  | ptsAgeTick uid windex n => exact goes_execPtsAgeTick uid windex n s
  | obload f => exact goes_execObload f s
  | obgath f => exact goes_execObgath f s
  | accZero f => exact goes_execAccZero f s
  | mwait f => exact goes_execMwait f s
  | xcopy f => exact goes_execXcopy f s
  | promiseMissed uid windex n => exact goes_execPromiseMissed uid windex n s
  | launchAnswer tag => exact goes_execLaunchAnswer tag s
  | evrec f => exact goes_execEvrec f s
  | rwinRd f => exact goes_execRwinRd f s
  | ctxsv f => exact goes_execCtxsv f s
  | ctxld f => exact goes_execCtxld f s
  | assayCtlRd f => exact goes_execAssayCtlRd f s
  | assayCtlWr f => exact goes_execAssayCtlWr f s
  | assayCtlArm f => exact goes_execAssayCtlArm f s
  | assayCtlDisarm f => exact goes_execAssayCtlDisarm f s
  | haltCore f => exact goes_execHaltCore f s
  | teamEnd uid => exact goes_execTeamEnd uid s
  | launchCompletion key => exact goes_execLaunchCompletion key s
  | teamAdmission => exact goes_teamAdmissionAt _ _
  | admissionStarvation => exact goes_admissionStarvationAt _ _
  | preemption uid => exact goes_execPreemption uid s
  | contextRestore site uid => exact goes_execContextRestore site uid s
  | splitChangeRequest => exact goes_splitChangeRequestAt _ _
  | splitChangeCancel => exact goes_splitChangeCancelAt _ _ _ _
  | splitFlush => exact goes_splitFlushAt _ _ _ _
  | splitConfig => exact goes_splitConfigAt _ _ _ _
  | splitServe => exact goes_splitServeAt _ _ _ _
  | migrationAdvertisement => exact goes_migrationAdvertisementAt _ _
  | migrationOffer => exact goes_migrationOfferAt _ _
  | migrationOfferReceive => exact goes_migrationOfferReceiveAt _ _
  | migrationAnswerReceive => exact goes_migrationAnswerReceiveAt _ _
  | queueRecordService => exact goes_queueRecordServiceAt _ _ _
  | queueTailObserved => exact goes_queueTailObservedAt _ _ _
  | queueEntryNop => exact goes_queueEntryNopAt _ _ _
  | queueEntryLaunch => exact goes_queueEntryLaunchAt _ _ _
  | queueEntryGraph => exact goes_queueEntryGraphAt _ _ _
  | graphToken => exact goes_graphTokenAt _ _ _
  | nodeLoop => exact goes_nodeLoopAt _ _ _
  | nodeWait => exact goes_nodeWaitAt _ _ _
  | graphCompletion => exact goes_graphCompletionAt _ _
  | budgetWindowStart => exact goes_budgetWindowStartAt _ _
  | faultBatchPost => exact goes_faultBatchPostAt _ _
  | pendingTableRetry id => exact goes_execPendingTableRetry id s
  | serviceTailObserved => exact goes_serviceTailObservedAt _ _
  | serviceNop => exact goes_serviceNopAt _ _
  | replayFault => exact goes_replayFaultAt _ _
  | cancelFault => exact goes_cancelFaultAt _ _
  | replayRange => exact goes_replayRangeAt _ _
  | invalidate => exact goes_invalidateAt _ _
  | invalidateLeaseLapse => exact goes_invalidateLeaseLapseAt _ _
  | flip => exact goes_flipAt _ _
  | marker => exact goes_markerAt _ _
  | grant => exact goes_grantAt _ _
  | scanTurn => exact goes_scanTurnAt _ _
  | scanDrainDone => exact goes_scanDrainDoneAt _ _
  | scanDrainTimeout => exact goes_scanDrainTimeoutAt _ _
  | scanComplete => exact goes_scanCompleteAt _ _
  | ptpSample ns => exact goes_execPtpSample ns s
  | meshPacketArrival id forged => exact goes_execMeshPacketArrival id forged s
  | gateRequestArrival id => exact goes_execGateRequestArrival id s
  | detourTablesLoaded => exact goes_detourTablesLoadedAt _ _ _
  | portQueueAdvertisement site flits => exact goes_execPortQueueAdvertisement site flits s
  | portDown => exact goes_portDownAt _ _
  | proxyAnnounce => exact goes_proxyAnnounceAt _ _
  | proxyHandbackEnd => exact goes_proxyHandbackEndAt _ _
  | retrainResult site ok => exact goes_execRetrainResult site ok s
  | stripedFlitReceive site wave d0 body lset rest crc => exact goes_execStripedFlitReceive site wave d0 body lset rest crc s
  | stripedAckTimer => exact goes_execStripedAckTimer s
  | stripedGapTimeout => exact goes_execStripedGapTimeout s
  | hostLinkDown port => exact goes_execHostLinkDown port s
  | restoreDarkWavelength site w light => exact goes_execRestoreDarkWavelength site w light s
  | registerWrite site off v => exact goes_execRegisterWrite site off v s
  | reservedOpcodeInstruction base ext => exact goes_execReservedOpcodeInstruction base ext s
  | hostLineGrant site line shared => exact goes_execHostLineGrant site line shared s
  | hostSnoop site line shared => exact goes_execHostSnoop site line shared s

end Sys2Proof.Laws
end
-- ==== Sys2Proof/Proofs/StepGoesOn.lean ====
section
/-!
Settles O6: the turn of the machine carries what every instruction keeps to a whole step.
-/

namespace Sys2Proof.Laws
open Sys2Proof Sys2Proof.Machine Sys2Proof.Safety

theorem GoesOnSafe.of_mem {s u : State} {o : Host.Outcome State Fault Refusal} (hu : u.mem = s.mem) (h : GoesOnSafe u o) :
    GoesOnSafe s o := by
  obtain ⟨t, ho, ht⟩ := h
  exact ⟨t, ho, fun hs => ht (by unfold Safe; rw [hu]; exact hs)⟩

theorem goes_issueHere (s : State) : GoesOnSafe s (issueHere s) := by
  unfold issueHere
  split
  · exact goes_next fun h => by simpa using h
  · dsimp only
    split
    · exact goes_next fun h => by simpa using h
    · split
      · exact goes_next fun h => by simpa using h
      · exact goes_next fun h => by simpa using h
      · exact goes_next fun h => by simpa using h
      · split
        · exact (goes_exec _ _).of_mem (by simp)
        · exact goes_next fun h => by simpa using h

theorem goes_issueCand {s u : State} (hu : u.mem = s.mem) (c : Cand) : GoesOnSafe s (issueCand u c) :=
  (goes_issueHere _).of_mem ((focusOn_mem u c.uid c.windex c.n).trans hu)

theorem goes_firstOf {s u : State} (hu : u.mem = s.mem) {xs : List (Option (Host.Outcome State Fault Refusal))}
    (h : ∀ x ∈ xs, ∀ o, x = some o → GoesOnSafe s o) : GoesOnSafe s (firstOf xs u) := by
  unfold firstOf
  cases hx : xs.findSome? id with
  | none => exact goes_next fun hs => by rw [hu]; exact hs
  | some o =>
    obtain ⟨x, hm, ho⟩ := List.exists_of_findSome?_eq_some hx
    exact h x hm o ho

theorem goes_ready {s u : State} (hu : u.mem = s.mem) (choice : Option (Cand × Nat)) :
    ∀ o, choice.map (fun (c, _) =>
      let d := lowerTrap u c
      issueCand (claimSlot u d (d.slot u)) d) = some o → GoesOnSafe s o := by
  intro o ho
  obtain ⟨x, -, hx⟩ := Option.map_eq_some_iff.1 ho
  rw [← hx]
  exact goes_issueCand ((claimSlot_mem u _ _).trans hu) _

theorem goes_due {s u : State} (hu : u.mem = s.mem) (due : Option (Instr × List Nat)) :
    ∀ o, due.map (fun (i, about) => exec i { u with subject := about }) = some o → GoesOnSafe s o := by
  intro o ho
  obtain ⟨x, -, hx⟩ := Option.map_eq_some_iff.1 ho
  rw [← hx]
  exact (goes_exec x.1 { u with subject := x.2 }).of_mem hu

theorem goes_retry {s u : State} (hu : u.mem = s.mem) (c : Option Cand) : ∀ o, c.map (issueCand u) = some o → GoesOnSafe s o := by
  intro o ho
  obtain ⟨x, -, hx⟩ := Option.map_eq_some_iff.1 ho
  rw [← hx]
  exact goes_issueCand hu x

theorem goes_turn (s : State) : GoesOnSafe s (turn s) := by
  unfold turn
  extract_lets s1 choice u ready due retry
  have hu : u.mem = s.mem := by simp [u, s1, refreshReady]
  have hready : ∀ o, ready = some o → GoesOnSafe s o := goes_ready hu choice
  have hdue : ∀ o, due = some o → GoesOnSafe s o := goes_due hu _
  have hretry : ∀ o, retry = some o → GoesOnSafe s o := goes_retry hu _
  clear_value ready due retry u
  split
  all_goals
    refine goes_firstOf hu fun x hx => ?_
    simp only [List.mem_cons, List.not_mem_nil, or_false] at hx
    rcases hx with rfl | rfl | rfl <;> assumption

theorem goes_thenTime {s : State} {o : Host.Outcome State Fault Refusal} (h : GoesOnSafe s o) : GoesOnSafe s (thenTime o) := by
  obtain ⟨t, rfl, ht⟩ := h
  exact goes_next fun hs => wf_passTime (wf_sampleEvs (ht hs))

theorem goes_step (s : State) : GoesOnSafe s (step s) := by
  unfold step runStep
  dsimp only
  split
  · exact (goes_thenTime (goes_turn _)).of_mem (park_mem s)
  · refine goes_thenTime ?_
    split
    · exact goes_next fun h => by simpa using h
    · exact (goes_exec _ _).of_mem (park_mem s)

/-- Settles O6: every instruction and every event of another agent has a next state and keeps the canonical form. -/
theorem everyStepGoesOn : Obligations.EveryStepGoesOn := by
  unfold Obligations.EveryStepGoesOn Rules.StepGoesOn Rules.StepKeepsMemory
  constructor
  · intro s
    obtain ⟨t, ht, -⟩ := goes_step s
    rw [ht]; rfl
  · intro s t hs ht
    obtain ⟨u, hu, hsafe⟩ := goes_step s
    rw [hu] at ht
    cases ht
    exact hsafe hs
end Sys2Proof.Laws
end
-- ==== Sys2Proof/Proofs/Firmware.lean ====
section
/-!
Settles O60: what the management controller answers, does at a reset and does at a command.
-/

namespace Sys2Proof.Laws
open Sys2Proof Sys2Proof.Machine Sys2Proof.Safety

/-! ### Attestation (R401) -/

/-- Each request is an event that puts one answer at the end of the list of answers, by the definition of its meaning. -/
theorem attestation : Rules.Attestation := by
  intro s port nonce q answers chain digest
  refine ⟨rfl, rfl, rfl, ?refusedOffer, rfl, ?certificate, rfl, rfl, ?oneBlock, rfl, ?noBlock, rfl⟩
  case refusedOffer =>
    rintro a b (rfl | rfl)
    · rfl
    · cases a <;> rfl
  case certificate =>
    intro off len
    simp only [answers, chain]
    rw [← List.length_drop]
    rfl
  case oneBlock =>
    intro k hk hk'
    have hall : (k == 0xFF) = false := by simpa using (by omega : k ≠ 0xFF)
    have hone : (decide (1 ≤ k) && decide (k ≤ 6)) = true := by simp [hk, hk']
    simp only [answers, exec, execGetMeasurements, event, hall, hone]
    simp [answerSpdm, q]
  case noBlock =>
    intro k hk hall
    simp [answers, exec, execGetMeasurements, event, hall, answerSpdm, q]
    omega

/-! ### Memory at a reset -/

theorem cellRead_filter {m : List Host.Cell} (h : cellsWf m = true) (keep : Nat → Bool) (a : Nat) :
    cellRead (m.filter (fun c => keep c.1)) a = if keep a = true then cellRead m a else 0#8 := by
  suffices key : ∀ lo, cellsAbove lo m = true →
      cellRead (m.filter (fun c => keep c.1)) a = if keep a = true then cellRead m a else 0#8 from key 0 h
  clear h
  induction m with
  | nil => intro lo _; simp [cellRead]
  | cons c rest ih =>
    obtain ⟨k, b⟩ := c
    intro lo h
    have hrest : cellsAbove (k + 1) rest = true := by simp_all [cellsAbove]
    have ih := ih _ hrest
    rw [List.filter_cons]
    by_cases hka : k = a
    · subst hka
      by_cases hk : keep k = true
      · simp [hk, cellRead]
      · rw [if_neg hk, ih, if_neg hk, if_neg hk]
    · have hne : (k == a) = false := by simpa using hka
      by_cases hk : keep k = true
      · by_cases hlt : a < k
        · simp [hk, cellRead, hne, hlt]
        · simp [hk, cellRead, hne, hlt, ih]
      · by_cases hlt : a < k
        · rw [if_neg hk, ih, cellRead_above hrest (by omega)]
          simp [cellRead, hne, hlt]
        · simp [hk, cellRead, hne, hlt, ih]

theorem outside_pair (v w key : Nat) : outside [v, w] key = true ↔ key / 2 ^ 52 ≠ v ∧ key / 2 ^ 52 ≠ w := by
  unfold outside
  generalize key / 2 ^ 52 = k
  simp

/-! ### What a boot leaves -/

section Boot
variable (s : State) (t : Tests) (stop : Nat) (warm : Bool)

@[simp] theorem boot_teams : (boot s t stop warm).teams = [] := by unfold boot; dsimp only; split <;> rfl
@[simp] theorem boot_accs : (boot s t stop warm).accs = [] := by unfold boot; dsimp only; split <;> rfl
@[simp] theorem boot_launches : (boot s t stop warm).launches = [] := by unfold boot; dsimp only; split <;> rfl
@[simp] theorem boot_pendings : (boot s t stop warm).pendings = [] := by unfold boot; dsimp only; split <;> rfl
@[simp] theorem boot_remotes : (boot s t stop warm).remotes = [] := by unfold boot; dsimp only; split <;> rfl
@[simp] theorem boot_packets : (boot s t stop warm).packets = [] := by unfold boot; dsimp only; split <;> rfl
@[simp] theorem boot_cyc : (boot s t stop warm).cyc = if warm then s.cyc else 0 := by unfold boot; dsimp only; split <;> rfl
@[simp] theorem boot_bootStop : (boot s t stop warm).bootStop = stop % 7 := by unfold boot; dsimp only; split <;> rfl
@[simp] theorem boot_defects : (boot s t stop warm).defects = if 6 ≤ stop then newDefects s t else s.defects := by
  unfold boot; dsimp only; split <;> simp

@[simp] theorem boot_cores : (boot s t stop warm).cores = bootCores s (if 6 ≤ stop then t else ⟨[], [], []⟩) := by
  unfold boot; dsimp only; split <;> simp

@[simp] theorem boot_mem : (boot s t stop warm).mem =
    s.mem.filter (fun c => outside [s.wafer, (boot s t stop warm).wafer] c.1) := by
  unfold boot; dsimp only; split <;> simp

theorem boot_powerLimit_le : (boot s t stop warm).powerLimit ≤ 48000 := by
  unfold boot; dsimp only; split
  · exact Nat.min_le_left _ _
  · exact Nat.min_le_left _ _

/-- A boot that goes through ends with the record of the map that it leaves. -/
theorem boot_flash_of_through (h : 6 ≤ stop) : (boot s t stop warm).flash =
    s.flash ++ [mapRecord s.flash (mapBody (boot s t stop warm).defects (fun n => (findSite (boot s t stop warm) n).sta))] := by
  unfold boot; dsimp only
  split
  · simp [h, findSite]
  · simp [h, findSite, postErr]

theorem boot_flash_of_stops (h : stop ≤ 5) : (boot s t stop warm).flash = s.flash := by
  have h6 : ¬ 6 ≤ stop := by omega
  unfold boot; dsimp only; split <;> simp [h6, postErr]

theorem boot_portUp_of_stops (h : stop ≠ 7) (p : Nat) : portUp (boot s t stop warm) p = false := by
  have h7 : (stop == 7) = false := by simpa using h
  unfold boot portUp; dsimp only
  simp [h7, postErr, List.getD_eq_getElem?_getD]

theorem boot_errs_of_stops (h : stop ≠ 7) : ∃ r ∈ (boot s t stop warm).errs, r.kind = (Config.bootReport stop).1 := by
  have h7 : (stop == 7) = false := by simpa using h
  unfold boot; dsimp only
  simp only [h7]
  simp [postErr]

end Boot

theorem mem_newDefects {s : State} {t : Tests} {d : Nat × Nat} (h : d ∈ s.defects) : d ∈ newDefects s t := by
  unfold newDefects
  refine List.foldlRecOn (motive := fun acc => d ∈ acc) _ _ h fun acc hacc e _ => ?_
  split
  · exact hacc
  · exact List.mem_append_left _ hacc

/-! ### The scores that a boot keeps -/

/-- The list has the core, and every entry of it has this score. -/
def ScoreHeld (id : CoreId) (x : Nat) (cs : List Core) : Prop := (∃ d ∈ cs, d.id = id) ∧ ∀ d ∈ cs, d.id = id → d.score = x

theorem ScoreHeld.score_find? {id : CoreId} {x : Nat} {cs : List Core} (h : ScoreHeld id x cs) :
    ((cs.find? (·.id == id)).getD { id := id }).score = x := by
  obtain ⟨⟨d, hd, hid⟩, hall⟩ := h
  cases hf : cs.find? (·.id == id) with
  | none => simpa [hid] using List.find?_eq_none.1 hf d hd
  | some c => exact hall c (List.mem_of_find?_eq_some hf) (by simpa using List.find?_some hf)

/-- Another entry in the place of a core's entries; the entry of this core carries the score. -/
theorem ScoreHeld.renew {id other : CoreId} {x : Nat} {cs : List Core} (h : ScoreHeld id x cs) {c : Core} (hc : c.id = other)
    (hx : other = id → c.score = x) : ScoreHeld id x (cs.filter (·.id != other) ++ [c]) := by
  subst hc
  obtain ⟨⟨d, hd, hid⟩, hall⟩ := h
  constructor
  · by_cases h1 : c.id = id
    · exact ⟨c, by simp, h1⟩
    · exact ⟨d, by simp [hd, hid, Ne.symm h1], hid⟩
  · intro e he
    rcases List.mem_append.1 he with he | he
    · exact hall e (List.mem_of_mem_filter he)
    · rw [List.mem_singleton.1 he]; exact hx

theorem bootCores_score {s : State} {c : Core} (t : Tests) (hc : c ∈ s.cores) (h0 : c.score ≠ 0)
    (hone : ∀ d ∈ s.cores, d.id = c.id → d = c) : ∃ d ∈ bootCores s t, d.id = c.id ∧ d.score = c.score := by
  suffices h : ScoreHeld c.id c.score (bootCores s t) by
    obtain ⟨⟨d, hd, hid⟩, hall⟩ := h
    exact ⟨d, hd, hid, hall d hd hid⟩
  unfold bootCores
  refine List.foldlRecOn (motive := ScoreHeld c.id c.score) _ _ ⟨?_, ?_⟩ fun acc hacc u _ => ?_
  · exact ⟨_, List.mem_filterMap.2 ⟨c, hc, if_neg (by simp [h0])⟩, rfl⟩
  · intro d hd hid
    obtain ⟨e, he, hed⟩ := List.mem_filterMap.1 hd
    split at hed
    · cases hed
    · cases hed
      rw [hone e he hid]
  · dsimp only
    split
    · exact hacc
    · exact hacc.renew (findCore_id { cores := acc } _) fun h => by rw [h]; exact hacc.score_find?

/-! ### Resets (R6, R8, R399, R400, R404) -/

/-- What a reset that goes through leaves of the state before it, with the count of cycles that it begins with. -/
def Restarted (s u : State) (cyc : Nat) : Prop :=
  u.teams = [] ∧ u.accs = [] ∧ u.launches = [] ∧ u.pendings = [] ∧ u.remotes = [] ∧ u.packets = [] ∧ u.powerLimit ≤ 48000 ∧
  u.flash = s.flash ++ [mapRecord s.flash (mapBody u.defects (fun n => (findSite u n).sta))] ∧
  (∀ d ∈ s.defects, d ∈ u.defects) ∧ u.bootStop = 0 ∧ u.cyc = cyc ∧
  (∀ c ∈ s.cores, c.score ≠ 0 → (∀ d ∈ s.cores, d.id = c.id → d = c) → ∃ d ∈ u.cores, d.id = c.id ∧ d.score = c.score) ∧
  (∀ a, a / 2 ^ 52 = s.wafer → cellsWf s.mem = true → byteAt u a = 0#8) ∧
  (∀ a, a / 2 ^ 52 ≠ s.wafer → a / 2 ^ 52 ≠ u.wafer → cellsWf s.mem = true → byteAt u a = byteAt s a)

theorem restarted_boot (s : State) (t : Tests) (warm : Bool) :
    Restarted s (boot s t 7 warm) (if warm then s.cyc else 0) := by
  refine ⟨by simp, by simp, by simp, by simp, by simp, by simp, boot_powerLimit_le .., boot_flash_of_through _ _ _ _ (by decide),
    ?defects,
    by simp, by simp, ?scores, ?inside, ?outside⟩
  case defects =>
    intro d hd
    simpa using mem_newDefects hd
  case scores =>
    intro c hc h0 hone
    simpa using bootCores_score t hc h0 hone
  case inside =>
    intro a ha hwf
    rw [byteAt, boot_mem, cellRead_filter hwf, if_neg (by simp only [outside_pair]; exact fun h => h.1 ha)]
  case outside =>
    intro a ha hb hwf
    rw [byteAt, boot_mem, cellRead_filter hwf, if_pos ((outside_pair _ _ _).2 ⟨ha, hb⟩), byteAt]

/-! ### A unit's return to service (R406) -/

@[simp] theorem passesAll_cores (u : UnitId) (sets : List Nat) (s : State) : (passesAll u sets s).1.cores = s.cores := by
  induction sets generalizing s with
  | nil => rfl
  | cons set rest ih =>
    unfold passesAll
    split
    · rfl
    · exact ih (tick s)

@[simp] theorem passesAll_clusters (u : UnitId) (sets : List Nat) (s : State) :
    (passesAll u sets s).1.clusters = s.clusters := by
  induction sets generalizing s with
  | nil => rfl
  | cons set rest ih =>
    unfold passesAll
    split
    · rfl
    · exact ih (tick s)

@[simp] theorem passesAll_mgmt (u : UnitId) (sets : List Nat) (s : State) : (passesAll u sets s).1.mgmt = s.mgmt := by
  induction sets generalizing s with
  | nil => rfl
  | cons set rest ih =>
    unfold passesAll
    split
    · rfl
    · exact ih (tick s)

theorem passesAll_of_results_zero {u : UnitId} {sets : List Nat} (s : State)
    (h : ∀ set ∈ sets, ∀ j, Config.scanResult j u.unit set % 65537 = 0) : (passesAll u sets s).2 = true := by
  induction sets generalizing s with
  | nil => rfl
  | cons set rest ih =>
    have hset : scanRun s u set = 0 := h set List.mem_cons_self _
    simp only [passesAll, hset]
    exact ih _ fun set hmem => h set (List.mem_cons_of_mem _ hmem)

theorem passesAll_of_result_nonzero {u : UnitId} {sets : List Nat} {set : Nat} (s : State) (hset : set ∈ sets)
    (h : ∀ j, Config.scanResult j u.unit set % 65537 ≠ 0) : (passesAll u sets s).2 = false := by
  induction sets generalizing s with
  | nil => cases hset
  | cons first rest ih =>
    unfold passesAll
    split
    · rfl
    · rename_i hpass
      rcases List.mem_cons.1 hset with rfl | hmem
      · exact absurd (h s.freeCtr) (by simpa [scanRun] using hpass)
      · exact ih _ hmem

theorem unitScore_setUnitScan (s : State) (u : UnitId) (x : ScanState) : unitScore (setUnitScan s u x) u = unitScore s u := by
  unfold unitScore setUnitScan
  split
  · simp [findCluster_onCluster]
  · simp [onCore, findCore_setCore, findCore_id]

theorem unitScore_setUnitScore (s : State) (u : UnitId) (x : Nat) : unitScore (setUnitScore s u x) u = x := by
  unfold unitScore setUnitScore
  split
  · simp [findCluster_onCluster]
  · simp [onCore, findCore_setCore, findCore_id]

theorem unitScan_setUnitScan (s : State) (u : UnitId) (x : ScanState) : unitScan (setUnitScan s u x) u = x := by
  unfold unitScan setUnitScan
  split
  · simp [findCluster_onCluster]
  · simp [onCore, findCore_setCore, findCore_id]

theorem unitScore_congr {s v : State} (u : UnitId) (hc : v.cores = s.cores) (hk : v.clusters = s.clusters) :
    unitScore v u = unitScore s u := by
  simp [unitScore, findCore, findCluster, hc, hk]

theorem unitScan_congr {s v : State} (u : UnitId) (hc : v.cores = s.cores) (hk : v.clusters = s.clusters) :
    unitScan v u = unitScan s u := by
  simp [unitScan, findCore, findCluster, hc, hk]

@[simp] theorem setUnitScore_mgmt (s : State) (u : UnitId) (x : Nat) : (setUnitScore s u x).mgmt = s.mgmt := by
  unfold setUnitScore; split <;> rfl

@[simp] theorem setUnitScan_mgmt (s : State) (u : UnitId) (x : ScanState) : (setUnitScan s u x).mgmt = s.mgmt := by
  unfold setUnitScan; split <;> rfl

@[simp] theorem onCore_mgmt (s : State) (c : CoreId) (f : Core → Core) : (onCore s c f).mgmt = s.mgmt := rfl

@[simp] theorem markDead_mgmt (s : State) (u : UnitId) (dead : Bool) : (markDead s u dead).mgmt = s.mgmt := rfl

@[simp] theorem markDead_cores (s : State) (u : UnitId) (dead : Bool) : (markDead s u dead).cores = s.cores := rfl

@[simp] theorem markDead_clusters (s : State) (u : UnitId) (dead : Bool) : (markDead s u dead).clusters = s.clusters := rfl

@[simp] theorem postErr_mgmt (s : State) (kind ctx unit ia lnum tix x y : Nat) :
    (postErr s kind ctx unit ia lnum tix x y).mgmt = s.mgmt := rfl

/-- The unit as a return to service leaves it: no score, in service, and its core no longer halted. -/
def Served (v : State) (u : UnitId) : Prop :=
  unitScore v u = 0 ∧ unitScan v u = .serve ∧ (u.engine = false → (findCore v u.coreId).halted = false)

theorem Served.of_units {s v : State} {u : UnitId} (h : Served s u) (hc : v.cores = s.cores) (hk : v.clusters = s.clusters) :
    Served v u := by
  obtain ⟨hscore, hscan, hhalted⟩ := h
  refine ⟨(unitScore_congr u hc hk).trans hscore, (unitScan_congr u hc hk).trans hscan, fun he => ?_⟩
  simpa [findCore, hc] using hhalted he

theorem served_of_cleared (s : State) (u : UnitId) :
    Served (if u.engine then setUnitScan (setUnitScore s u 0) u .serve
      else onCore (setUnitScan (setUnitScore s u 0) u .serve) u.coreId (fun c => { c with halted := false })) u := by
  cases he : u.engine with
  | true =>
    refine ⟨?_, ?_, by simp [he]⟩
    · simp [unitScore_setUnitScan, unitScore_setUnitScore]
    · simp [unitScan_setUnitScan]
  | false =>
    have hscore := (unitScore_setUnitScan (setUnitScore s u 0) u .serve).trans (unitScore_setUnitScore s u 0)
    have hscan := unitScan_setUnitScan (setUnitScore s u 0) u .serve
    simp only [unitScore, unitScan, he] at hscore hscan
    refine ⟨?_, ?_, ?_⟩
    · simpa [unitScore, he, onCore, findCore_setCore, findCore_id] using hscore
    · simpa [unitScan, he, onCore, findCore_setCore, findCore_id] using hscan
    · simp [onCore, findCore_setCore, findCore_id]

theorem returnUnitToService_of_passes (k : Nat) (s : State) (hu : unitExists (unitIdOf k) = true)
    (hp : (passesAll (unitIdOf k) (requiredSets (park s) (unitIdOf k)) (park s)).2 = true) :
    ∃ u, exec (.returnUnitToService k) s = .next u ∧ u.mgmt = (park s).mgmt ++ [(2, 0)] ∧ Served u (unitIdOf k) ∧
      u.mem = (park s).mem := by
  refine ⟨_, rfl, ?_⟩
  dsimp only
  simp only [hu, hp, Bool.not_true, Bool.or_self, Bool.false_eq_true, if_false]
  generalize hs1 : (passesAll (unitIdOf k) (requiredSets (park s) (unitIdOf k)) (park s)).1 = s1
  have hmem : s1.mem = (park s).mem := by simp [← hs1]
  have hmgmt : s1.mgmt = (park s).mgmt := by simp [← hs1]
  have hserved := served_of_cleared s1 (unitIdOf k)
  refine ⟨?_, hserved.of_units ?_ ?_, ?_⟩
  all_goals
    repeat' split
    all_goals simp [answerMgmt, hmem, hmgmt]

theorem returnUnitToService_of_refused (k : Nat) (s : State)
    (h : unitExists (unitIdOf k) = false ∨
      (passesAll (unitIdOf k) (requiredSets (park s) (unitIdOf k)) (park s)).2 = false) :
    ∃ u, exec (.returnUnitToService k) s = .next u ∧ u.mgmt = (park s).mgmt ++ [(2, 1)] ∧ u.cores = (park s).cores ∧
      u.clusters = (park s).clusters := by
  refine ⟨_, rfl, ?_⟩
  have hr : (!unitExists (unitIdOf k) || !(passesAll (unitIdOf k) (requiredSets (park s) (unitIdOf k)) (park s)).2) = true := by
    rcases h with h | h <;> simp [h]
  dsimp only
  rw [if_pos hr]
  simp [answerMgmt]

/-! ### The other commands (R406), and the clock (R407) -/

section Commands
variable {s : State}

theorem setPowerLimit_done {watts : Nat} (hlo : 8000 ≤ watts) (hhi : watts ≤ 48000) :
    exec (.setPowerLimit watts) s = .next (answerMgmt { park s with powerLimit := watts } 1 false) := by
  have h : ¬ (decide (48000 < watts) || decide (watts < 8000)) = true := by simp; omega
  exact congrArg Host.Outcome.next (if_neg h)

theorem setPowerLimit_refused {watts : Nat} (h : watts < 8000 ∨ 48000 < watts) :
    exec (.setPowerLimit watts) s = .next (answerMgmt (park s) 1 true) := by
  have h : (decide (48000 < watts) || decide (watts < 8000)) = true := by simp; omega
  exact congrArg Host.Outcome.next (if_pos h)

theorem writeDomainKey_done {d : Nat} (key : List Byte) (hlo : 1 ≤ d) (hhi : d ≤ 255) : exec (.writeDomainKey d key) s =
    .next (answerMgmt { park s with domainKeys := (d, key.take 32) :: (park s).domainKeys.filter (·.1 != d) } 4 false) := by
  have h : ¬ (d == 0 || decide (255 < d)) = true := by simp; omega
  exact congrArg Host.Outcome.next (if_neg h)

theorem writeDomainKey_refused {d : Nat} (key : List Byte) (h : d = 0 ∨ 255 < d) :
    exec (.writeDomainKey d key) s = .next (answerMgmt (park s) 4 true) := by
  have h : (d == 0 || decide (255 < d)) = true := by simpa using h
  exact congrArg Host.Outcome.next (if_pos h)

theorem siteHeld_iff (q : State) (site part : Nat) :
    siteHeld q site part = true ↔ ∃ t ∈ q.teams, t.at_.site = site ∧ (findCtx q t.ctx).part ≠ part := by
  simp [siteHeld]

theorem writeSitepart_done {site part : Nat} (hsite : isSite site = true) (h : ¬ siteHeld (park s) site (part % 16) = true) :
    exec (.writeSitepart site part) s =
      .next (answerMgmt (onSite (park s) site (fun x => { x with part := part % 16 })) 5 false) := by
  have h : ¬ (!isSite site || siteHeld (park s) site (part % 16)) = true := by simp [hsite, h]
  exact congrArg Host.Outcome.next (if_neg h)

theorem writeSitepart_refused {site part : Nat} (h : isSite site = false ∨ siteHeld (park s) site (part % 16) = true) :
    exec (.writeSitepart site part) s = .next (answerMgmt (park s) 5 true) := by
  have h : (!isSite site || siteHeld (park s) site (part % 16)) = true := by simpa using h
  exact congrArg Host.Outcome.next (if_pos h)

theorem writeRecord_done {bytes : List Byte} (hsig : recSigned (park s).flash bytes = true)
    (hsvn : svnFloor (park s).flash (recKind bytes) ≤ recSvn bytes) :
    exec (.writeRecord bytes) s = .next (answerMgmt { park s with flash := (park s).flash ++ [bytes] } 6 false) := by
  have h : (recSigned (park s).flash bytes && decide (svnFloor (park s).flash (recKind bytes) ≤ recSvn bytes)) = true := by
    simp [hsig, hsvn]
  exact congrArg Host.Outcome.next (if_pos h)

theorem writeRecord_refused {bytes : List Byte}
    (h : ¬ (recSigned (park s).flash bytes = true ∧ svnFloor (park s).flash (recKind bytes) ≤ recSvn bytes)) :
    exec (.writeRecord bytes) s = .next (answerMgmt (park s) 6 true) := by
  have h : ¬ (recSigned (park s).flash bytes && decide (svnFloor (park s).flash (recKind bytes) ≤ recSvn bytes)) = true := by
    simpa using h
  exact congrArg Host.Outcome.next (if_neg h)

theorem powerClockAdjust_raise (h : (park s).clkMhz ≤ 1500) :
    exec (.powerClockAdjust true) s = .next { park s with clkMhz := min 1500 ((park s).clkMhz + 25) } := by
  rw [← show max (park s).clkMhz (min 1500 ((park s).clkMhz + 25)) = min 1500 ((park s).clkMhz + 25) by omega]
  rfl

theorem powerClockAdjust_lower (h : 750 ≤ (park s).clkMhz) :
    exec (.powerClockAdjust false) s = .next { park s with clkMhz := max 750 ((park s).clkMhz - 25) } := by
  rw [← show min (park s).clkMhz (max 750 ((park s).clkMhz - 25)) = max 750 ((park s).clkMhz - 25) by omega]
  rfl

theorem coldReset_stops (units dram seams : List Nat) {stop : Nat} (h : 1 ≤ stop) :
    exec (.coldReset units dram seams stop) s = .next (boot (park s) ⟨units, dram, seams⟩ (min stop 6)) := by
  have h0 : ¬ (stop == 0) = true := by simp; omega
  exact congrArg (fun k => Host.Outcome.next (boot (park s) ⟨units, dram, seams⟩ k)) (if_neg h0)

end Commands

/-! ### The statement -/

theorem resetsAndCommands : Rules.ResetsAndCommands := by
  intro s units dram seams q refused done
  refine ⟨?reset, ?stops, ?powerLimit, ?returned, ?scanFails, ?noUnit, ?domainKey, ?sitepart, ?record, ?clock⟩
  case reset =>
    have hwafer : q.wafer = s.wafer := park_wafer s
    rintro e (rfl | ⟨c, rfl⟩)
    · refine ⟨boot q ⟨units, dram, seams⟩ 7 false, rfl, ?_⟩
      rw [if_pos rfl, ← hwafer]
      exact restarted_boot q ⟨units, dram, seams⟩ false
    · have h : Restarted q (boot q ⟨units, dram, seams⟩ 7 true) q.cyc := restarted_boot q ⟨units, dram, seams⟩ true
      cases c with
      | false =>
        refine ⟨boot q ⟨units, dram, seams⟩ 7 true, rfl, ?_⟩
        rw [if_neg (by simp), ← hwafer]
        exact h
      | true =>
        refine ⟨answerMgmt { boot q ⟨units, dram, seams⟩ 7 true with mgmt := q.mgmt } 7 false, rfl, ?_⟩
        rw [if_neg (by simp), ← hwafer]
        exact h
  case stops =>
    intro stop h1
    have h7 : min stop 6 ≠ 7 := by omega
    refine ⟨_, coldReset_stops units dram seams h1, ?_, by simp, by simp, boot_portUp_of_stops _ _ _ _ h7, ?_,
      boot_errs_of_stops _ _ _ _ h7⟩
    · rw [boot_bootStop]; omega
    · intro h5
      exact ⟨boot_flash_of_stops _ _ _ _ (by omega), by rw [boot_defects, if_neg (by omega)]⟩
  case powerLimit => exact fun watts => ⟨setPowerLimit_done, setPowerLimit_refused⟩
  case returned =>
    intro k hu hsets
    obtain ⟨u, hx, hmgmt, ⟨hscore, hscan, hhalted⟩, hmem⟩ :=
      returnUnitToService_of_passes k s hu (passesAll_of_results_zero q hsets)
    exact ⟨u, hx, hmgmt, hscore, hscan, hhalted, hmem⟩
  case scanFails =>
    intro k set hset hfail
    exact returnUnitToService_of_refused k s (.inr (passesAll_of_result_nonzero q hset hfail))
  case noUnit => exact fun k hu => returnUnitToService_of_refused k s (.inl hu)
  case domainKey => exact fun d key => ⟨writeDomainKey_done key, writeDomainKey_refused key⟩
  case sitepart =>
    intro site part held
    have hheld := siteHeld_iff q site (part % 16)
    exact ⟨fun hsite hno => writeSitepart_done hsite fun h => hno (hheld.1 h),
      fun h => writeSitepart_refused (h.imp_right hheld.2)⟩
  case record => exact fun bytes => ⟨fun ⟨hsig, hsvn⟩ => writeRecord_done hsig hsvn, writeRecord_refused⟩
  case clock => exact fun hlo hhi => ⟨powerClockAdjust_raise hhi, powerClockAdjust_lower hlo⟩

/-- Settles O60: the controller's answers are read off its events; a boot that goes through keeps scores, defects and the
memory of others, one that stops is reported; a command is answered as its guard says. -/
theorem firmware : Obligations.Firmware := ⟨attestation, resetsAndCommands⟩

end Sys2Proof.Laws
end
-- ==== Sys2Proof/Proofs/IssueTraps.lean ====
section
/-!
Settles O8: the checks at issue and their traps, and the register peak.
-/

namespace Sys2Proof.Laws
open Sys2Proof Sys2Proof.Machine Sys2Proof.Safety

/-! ### What holds an instruction back -/

/-- An instruction with a row that is not clear to issue takes the consequence of the first check that fails (R162). -/
theorem issue_of_not_clear {s : State} {i : Instr} {f : Fields} {r : Row} (hf : fieldsOf i = some f) (hr : rowOf i = some r)
    (h : clearToIssue s r (opcodeOf i) f = false) (body : Fields → DWord → LaneMask → State → Result) :
    issue i s body = .next (issueBlocked s r (opcodeOf i) f s.ply.pc (activeLanes s f)) := by
  simp only [issue, hr, hf, issueRow, h, Bool.false_eq_true, if_false]

theorem rowAt_of_rowOf {i : Instr} {r : Row} (hr : rowOf i = some r) : rowAt i = r := by
  rw [rowAt, hr, Option.getD_some]

theorem issue_privileged {s : State} {i : Instr} {f : Fields} {r : Row} (hf : fieldsOf i = some f) (hr : rowOf i = some r)
    (hw : i.wellFormed = true) (htrap : s.ply.trapDue = none) (hop : 0xF8 ≤ opcodeOf i) (hlev : atSystem s = false)
    (body : Fields → DWord → LaneMask → State → Result) :
    issue i s body = .next (takeTrap s 0x02 s.ply.pc [baseWord (opcodeOf i) f] (activeLanes s f)) := by
  have hpfx : prefixFine (opcodeOf i) f = true := (legal_of_wellFormed hw hf hr).2
  have hopen : (decide (opcodeOf i < 0xF8) || atSystem s) = false := by simp [hlev, hop]
  rw [issue_of_not_clear hf hr (by simp [clearToIssue, hopen])]
  simp [issueBlocked, htrap, hpfx, hopen]

theorem issue_unmapped {s : State} {i : Instr} {f : Fields} {r : Row} (hf : fieldsOf i = some f) (hr : rowOf i = some r)
    (hw : i.wellFormed = true) (htrap : s.ply.trapDue = none) (hop : opcodeOf i < 0xF8) (hlatch : latchesFine s r f = true)
    (hwin : windowClosed s = false) (hhaz : hazards s r f = []) {c : Nat}
    (hc : (readNames r f).find? (isUnmapped s) = some c) (body : Fields → DWord → LaneMask → State → Result) :
    issue i s body = .next (takeTrap s 0x04 s.ply.pc [BitVec.ofNat 64 c] (activeLanes s f)) := by
  obtain ⟨hlegal, hpfx⟩ := legal_of_wellFormed hw hf hr
  have hany : (readNames r f).any (isUnmapped s) = true :=
    List.any_eq_true.2 ⟨c, List.mem_of_find?_eq_some hc, List.find?_some hc⟩
  rw [issue_of_not_clear hf hr (by simp [clearToIssue, hany])]
  simp [issueBlocked, htrap, hpfx, hop, hlegal, hlatch, hwin, hhaz, hc]

theorem issueTraps : Rules.IssueTraps := by
  intro s i f hf hrow hw htrap
  obtain ⟨r, hr⟩ := Option.isSome_iff_exists.1 hrow
  rw [rowAt_of_rowOf hr]
  exact ⟨fun hop hlev body => issue_privileged hf hr hw htrap hop hlev body,
    fun hop hlatch hwin hhaz c hc body => issue_unmapped hf hr hw htrap hop hlatch hwin hhaz hc body⟩

/-! ### The register peak (R46) -/

theorem length_filter_isSome_setAt {α : Type} {xs : List (Option α)} {n : Nat} (x : α) (h : xs.getD n none = none) :
    ((setAt none xs n (some x)).filter Option.isSome).length = (xs.filter Option.isSome).length + 1 := by
  induction n generalizing xs with
  | zero =>
    cases xs with
    | nil => rfl
    | cons y ys =>
      have hy : y = none := h
      simp [setAt, hy]
  | succ n ih =>
    cases xs with
    | nil => simpa [setAt] using ih (xs := []) rfl
    | cons y ys =>
      have hys : ys.getD n none = none := by simpa using h
      cases y <;> simp [setAt, ih hys]

/-- A write to an unmapped scalar name maps one name more. -/
theorem sCount_writeS_of_unmapped {s : State} {n : Nat} (x : DWord) (h : sget s n = none) :
    (writeS s n x).weave.map.sCount = s.weave.map.sCount + 1 := by
  simp only [writeS, h]
  exact length_filter_isSome_setAt _ h

theorem lastRead_of_lastrd_zero {f : Fields} (h : f.lastrd = 0#3) (k : Nat) : f.lastRead k = false := by
  simp [Fields.lastRead, h]

theorem afterReads_of_lastrd_zero {f : Fields} (s : State) (r : Row) (h : f.lastrd = 0#3) : afterReads s r f = s := by
  have hnames : lastReadNames r f = [] := by
    rw [lastReadNames, List.flatMap_eq_nil_iff]
    intro k _
    rw [lastRead_of_lastrd_zero h, if_neg (by simp)]
  simp [afterReads, hnames, closeLatches, distinct, lastRead_of_lastrd_zero h]

/-- R46: at the kernel's peak a write to an unmapped scalar name is too much. -/
theorem overPeak_scalar {s : State} {n : Nat} (x : DWord) (h : sget s n = none)
    (hpeak : s.team.kernel.speak = s.weave.map.sCount) : overPeak s [.s n x] = true := by
  have hcount := sCount_writeS_of_unmapped 0#64 h
  have hteam : (writeS s n 0#64).team = s.team := by simp only [writeS, h]; rfl
  simp [overPeak, applyWrites, Write.blank, applyWrite, hcount, hteam, hpeak]

/-- An instruction whose writes go above the peak raises register-peak in the state at issue (R46). -/
theorem issue_over_peak {s u : State} {i : Instr} {f : Fields} {r : Row} {body : Fields → DWord → LaneMask → State → Result}
    {ws : List Write} {fl : Flags} {next : Option DWord} (h : CanIssue s i f) (hf : fieldsOf i = some f) (hr : rowOf i = some r)
    (hbody : body f s.ply.pc (activeLanes s f) s = .done u ws fl next) (hover : overPeak (afterReads u r f) ws = true) :
    issue i s body = .next (takeTrap s 0x05 s.ply.pc [f.d.setWidth 64] (activeLanes s f)) := by
  rw [issue_eq h hf hr, hbody]
  simp only [finish, hover, if_true]

theorem registerPeak : Rules.RegisterPeak := by
  intro s f h hd hm hlast hget hpeak
  have hbody : ∀ x, scalarOp f (activeLanes s f) s x = .done s [.s (f.d.toNat - 0xC0) x] 0#7 none := fun x => by
    simp only [scalarOp, whenActive, beq_iff_eq, hm, if_false, Result.regs, sclWrite, hd, if_true]
  show execSmov f s = _
  refine issue_over_peak h rfl rfl (by exact hbody _) ?_
  rw [afterReads_of_lastrd_zero s _ hlast]
  exact overPeak_scalar _ hget hpeak

/-- Settles O8: each trap is the first check that fails at an instruction that is not clear to issue; a write to an
unmapped name at the peak maps one name too many. -/
theorem issueChecks : Obligations.IssueChecks := ⟨issueTraps, registerPeak⟩

end Sys2Proof.Laws
end

