-- ==== Sys2Proof/Proofs/Lookups.lean ====
section
/-!
SUPPORT. Where a weave and a ply are found: in a parked state, after an update of it, with the ply issuing, and after it is
put back.
-/

namespace Sys2Proof.Laws
open Sys2Proof Sys2Proof.Machine Sys2Proof.Safety

/-! ### Lookups -/

theorem findTeam_uid {s : State} {uid : Nat} {t : Team} (h : findTeam s uid = some t) : t.uid = uid := by
  simpa using List.find?_some h

theorem findTeam_of_findWeave {s : State} {uid windex : Nat} {w : Weave} (h : findWeave s uid windex = some w) :
    ∃ t, findTeam s uid = some t ∧ t.weaves.find? (·.windex == windex) = some w :=
  Option.bind_eq_some_iff.1 h

/-- The weave that an update concerns, after it. -/
theorem findWeave_onWeave_self (s : State) (uid windex : Nat) {f : Weave → Weave} (hf : ∀ w, (f w).windex = w.windex) :
    findWeave (onWeave s uid windex f) uid windex = (findWeave s uid windex).map f := by
  rw [findWeave_onWeave _ _ _ _ _ _ hf]
  congr 1
  funext w
  rw [if_pos ⟨rfl, rfl⟩]

/-- Lookups of weaves read the resident teams only. -/
theorem findWeave_congr {s u : State} (h : u.teams = s.teams) (uid windex : Nat) :
    findWeave u uid windex = findWeave s uid windex := by
  unfold findWeave findTeam; rw [h]

/-- A lookup of a cluster reads the clusters only. -/
theorem findCluster_congr {s u : State} (h : u.clusters = s.clusters) (site phys : Nat) :
    findCluster u site phys = findCluster s site phys := by
  unfold findCluster; rw [h]

/-! ### Parked states -/

theorem updWeave_of_parked {s : State} (hp : s.focused = false) (uid windex : Nat) (f : Weave → Weave) :
    updWeave s uid windex f = onWeave s uid windex f := by
  simp [updWeave, hp]

theorem updTeam_of_parked {s : State} (hp : s.focused = false) (uid : Nat) (f : Team → Team) :
    updTeam s uid f = onTeams s (·.uid == uid) f := by
  simp [updTeam, hp]

theorem peekTeam_of_parked {s : State} (hp : s.focused = false) (uid : Nat) : peekTeam s uid = findTeam s uid := by
  simp [peekTeam, hp]

theorem findTeam_onWeave (s : State) (uid windex u : Nat) (f : Weave → Weave) :
    findTeam (onWeave s uid windex f) u = (findTeam s u).map fun t =>
      if u = uid then { t with weaves := t.weaves.map fun w => if w.windex == windex then f w else w } else t :=
  findTeam_onTeams s uid u _ fun _ => rfl

/-! ### Focus and parking (log 4) -/

theorem focusOn_of_found {s : State} {uid windex n : Nat} {t : Team} {w : Weave} {p : Ply} (hp : s.focused = false)
    (ht : findTeam s uid = some t) (hw : t.weaves.find? (·.windex == windex) = some w)
    (hn : w.plies.find? (·.n == n) = some p) :
    focusOn s uid windex n = { s with
      focused := true, ply := p, weave := { w with plies := w.plies.filter (·.n != n) }
      team := { t with weaves := t.weaves.filter (·.windex != windex) }, teams := s.teams.filter (·.uid != uid) } := by
  have ht' : s.teams.find? (·.uid == uid) = some t := ht
  unfold focusOn
  rw [park_of_parked hp]
  simp only [ht', hw, hn]

/-- The issuing ply, weave and team stand under names that no other one of their lists has. -/
structure Apart (s : State) : Prop where
  focused : s.focused = true
  team : ∀ u ∈ s.teams, u.uid ≠ s.team.uid
  weave : ∀ v ∈ s.team.weaves, v.windex ≠ s.weave.windex
  ply : ∀ p ∈ s.weave.plies, p.n ≠ s.ply.n

/-- A ply that is taken out of its lists stands apart. -/
theorem apart_focusOn {s : State} {uid windex n : Nat} {t : Team} {w : Weave} {p : Ply} (hp : s.focused = false)
    (ht : findTeam s uid = some t) (hw : t.weaves.find? (·.windex == windex) = some w)
    (hn : w.plies.find? (·.n == n) = some p) : Apart (focusOn s uid windex n) := by
  have huid : t.uid = uid := findTeam_uid ht
  have hwin : w.windex = windex := by simpa using List.find?_some hw
  have hply : p.n = n := by simpa using List.find?_some hn
  rw [focusOn_of_found hp ht hw hn]
  refine ⟨rfl, fun u hu => ?_, fun v hv => ?_, fun x hx => ?_⟩
  · simpa [huid] using (List.mem_filter.1 hu).2
  · simpa [hwin] using (List.mem_filter.1 hv).2
  · simpa [hply] using (List.mem_filter.1 hx).2

theorem mem_insertTeam {t u : Team} {ts : List Team} : u ∈ insertTeam t ts ↔ u = t ∨ u ∈ ts := by
  induction ts with
  | nil => simp [insertTeam]
  | cons v rest ih =>
    unfold insertTeam
    split
    · simp
    · simp [ih, or_left_comm]

theorem mem_insertWeave {w v : Weave} {ws : List Weave} : v ∈ insertWeave w ws ↔ v = w ∨ v ∈ ws := by
  induction ws with
  | nil => simp [insertWeave]
  | cons x rest ih =>
    unfold insertWeave
    split
    · simp
    · simp [ih, or_left_comm]

theorem mem_insertPly {p x : Ply} {ps : List Ply} : x ∈ insertPly p ps ↔ x = p ∨ x ∈ ps := by
  induction ps with
  | nil => simp [insertPly]
  | cons y rest ih =>
    unfold insertPly
    split
    · simp
    · simp [ih, or_left_comm]

/-- The only element under a key is the one that is found. -/
theorem find?_of_unique_key {α : Type} {key : α → Nat} {x : α} {xs : List α} (hx : x ∈ xs)
    (h : ∀ y ∈ xs, key y = key x → y = x) : xs.find? (key · == key x) = some x := by
  obtain ⟨y, hy⟩ := Option.isSome_iff_exists.1 (List.find?_isSome (p := (key · == key x)).2 ⟨x, hx, by simp⟩)
  rw [hy, h y (List.mem_of_find?_eq_some hy) (by simpa using List.find?_some hy)]

/-- The issuing weave as `park` puts it back. -/
def parkedWeave (s : State) : Weave :=
  let ps := if s.ply.mask == 0#32 then s.weave.plies else insertPly s.ply s.weave.plies
  { s.weave with plies := ps, ended := ps.isEmpty
                 latches := if s.ply.mask == 0#32 then s.weave.latches.filter (fun l => l.ply % 4 != s.ply.n) else s.weave.latches }

theorem park_of_focused {s : State} (h : s.focused = true) :
    park s = { s with
      focused := false, ply := {}, weave := {}, team := {}
      teams := insertTeam { s.team with weaves := insertWeave (parkedWeave s) s.team.weaves } s.teams } := by
  unfold park
  rw [h]
  rfl

theorem findWeave_park {s : State} (h : Apart s) : findWeave (park s) s.team.uid s.weave.windex = some (parkedWeave s) := by
  rw [park_of_focused h.focused]
  let t : Team := { s.team with weaves := insertWeave (parkedWeave s) s.team.weaves }
  have ht : (insertTeam t s.teams).find? (·.uid == s.team.uid) = some t :=
    find?_of_unique_key (key := Team.uid) (x := t) (mem_insertTeam.2 (.inl rfl)) fun u hu hk =>
      (mem_insertTeam.1 hu).resolve_right fun hin => h.team u hin hk
  have hw : (insertWeave (parkedWeave s) s.team.weaves).find? (·.windex == s.weave.windex) = some (parkedWeave s) :=
    find?_of_unique_key (key := Weave.windex) (x := parkedWeave s) (mem_insertWeave.2 (.inl rfl)) fun v hv hk =>
      (mem_insertWeave.1 hv).resolve_right fun hin => h.weave v hin hk
  exact Option.bind_eq_some_iff.2 ⟨t, ht, hw⟩

theorem plyAt_park {s : State} (h : Apart s) (hm : s.ply.mask ≠ 0#32) :
    plyAt (park s) s.team.uid s.weave.windex s.ply.n = some s.ply := by
  have hps : (parkedWeave s).plies = insertPly s.ply s.weave.plies := by simp [parkedWeave, hm]
  rw [plyAt, findWeave_park h, Option.bind_some, hps]
  exact find?_of_unique_key (key := Ply.n) (mem_insertPly.2 (.inl rfl)) fun x hx hk =>
    (mem_insertPly.1 hx).resolve_right fun hin => h.ply x hin hk

end Sys2Proof.Laws
end

