-- ==== Sys2Proof/Proofs/PoolsAndCopies.lean ====
section
/-!
Settles O44: spills, refills and deferrals of weaves, and the completion of copies and remote operations.
-/

namespace Sys2Proof.Laws
open Sys2Proof Sys2Proof.Machine Sys2Proof.Safety

/-! ### The victim of a spill (R48) -/

/-- The later of two candidates by the step of admission, the second of two admitted together. -/
def laterOf (acc : Option (Nat × Nat × Nat)) (x : Nat × Nat × Nat) : Option (Nat × Nat × Nat) :=
  match acc with
  | none => some x
  | some y => if y.2.2 ≤ x.2.2 then some x else some y

/-- The weaves that may be spilled for w: team, weave and the step of admission. -/
def victims (q : State) (t : Team) (w : Weave) (st : Stall) : List (Nat × Nat × Nat) :=
  (residents q t.at_).flatMap fun u => (u.live.filter fun v => isVictim t u w v st).map fun v => (u.uid, v.windex, v.admitted)

theorem chooseVictim_eq (q : State) (t : Team) (w : Weave) (st : Stall) :
    chooseVictim q t w st = ((victims q t w st).foldl laterOf none).map fun x => (x.1, x.2.1) := by
  rfl

theorem mem_victims {q : State} {t : Team} {w : Weave} {st : Stall} {x : Nat × Nat × Nat} :
    x ∈ victims q t w st ↔
      ∃ u ∈ residents q t.at_, ∃ v ∈ u.live, isVictim t u w v st = true ∧ x = (u.uid, v.windex, v.admitted) := by
  simp only [victims, List.mem_flatMap, List.mem_map, List.mem_filter, and_assoc, eq_comm (a := x)]

/-- A fold over candidates ends with one of them that is no earlier than any. -/
theorem foldl_laterOf (xs : List (Nat × Nat × Nat)) (acc : Option (Nat × Nat × Nat)) (h : acc.toList ++ xs ≠ []) :
    ∃ y ∈ acc.toList ++ xs, xs.foldl laterOf acc = some y ∧ ∀ x ∈ acc.toList ++ xs, x.2.2 ≤ y.2.2 := by
  induction xs generalizing acc with
  | nil =>
    cases acc with
    | none => exact absurd rfl h
    | some y => exact ⟨y, by simp, rfl, by simp⟩
  | cons x xs ih =>
    obtain ⟨y, hy, hfold, hmax⟩ := ih (laterOf acc x) (by cases acc <;> simp [laterOf]; split <;> simp)
    refine ⟨y, ?_, hfold, ?_⟩ <;> cases acc <;> simp only [laterOf] at hy hmax
    · simpa using hy
    · rename_i z
      split at hy <;> simp at hy ⊢ <;> tauto
    · simpa using hmax
    · rename_i z
      intro a ha
      simp only [Option.toList_some, List.cons_append, List.nil_append, List.mem_cons] at ha
      split at hmax <;> rename_i hz <;> simp only [Option.toList_some, List.cons_append, List.nil_append, List.mem_cons,
        forall_eq_or_imp] at hmax <;> obtain ⟨h1, h2⟩ := hmax <;> rcases ha with rfl | rfl | ha
      · omega
      · exact h1
      · exact h2 a ha
      · exact h1
      · omega
      · exact h2 a ha

/-- The victim is the candidate admitted after every other one. -/
theorem chooseVictim_of_latest {q : State} {t u : Team} {w v : Weave} {st : Stall} (hu : u ∈ residents q t.at_) (hv : v ∈ u.live)
    (hvic : isVictim t u w v st = true)
    (hmax : ∀ u' ∈ residents q t.at_, ∀ v' ∈ u'.live, isVictim t u' w v' st = true →
      v'.admitted < v.admitted ∨ (u'.uid = u.uid ∧ v'.windex = v.windex)) :
    chooseVictim q t w st = some (u.uid, v.windex) := by
  have hmem : (u.uid, v.windex, v.admitted) ∈ victims q t w st := mem_victims.2 ⟨u, hu, v, hv, hvic, rfl⟩
  obtain ⟨y, hy, hfold, hle⟩ := foldl_laterOf (victims q t w st) none (List.ne_nil_of_mem hmem)
  obtain ⟨u', hu', v', hv', hvic', rfl⟩ := mem_victims.1 hy
  have hadm : v.admitted ≤ v'.admitted := hle _ hmem
  obtain ⟨huid, hwin⟩ := (hmax u' hu' v' hv' hvic').resolve_left (by omega)
  rw [chooseVictim_eq, hfold, Option.map_some, huid, hwin]

theorem isVictim_spec {t u : Team} {w v : Weave} {st : Stall} (h : isVictim t u w v st = true) :
    v.ended = false ∧ v.evicted = false ∧ ¬ (u.uid = t.uid ∧ v.windex = w.windex) ∧
      (v.stalled ≠ none ∨ ∀ p ∈ v.plies, p.isReady = false) ∧
      ((st.vec = true ∧ v.part = w.part ∧ u.kernel.vfloor < vHeld v v.plies) ∨
        (st.scl = true ∧ u.kernel.sfloor < sHeld v v.plies)) := by
  simp only [isVictim, Bool.and_eq_true, Bool.or_eq_true, Bool.not_eq_true', Bool.and_eq_false_iff, beq_iff_eq,
    beq_eq_false_iff_ne, decide_eq_true_eq, Option.isSome_iff_ne_none, List.any_eq_false, Bool.not_eq_true, and_assoc] at h
  obtain ⟨hended, hevicted, hother, hidle, hover⟩ := h
  exact ⟨hended, hevicted, by tauto, hidle, hover⟩

/-! ### Spills and refills (R48, R93, R337) -/

section Pools

variable {s : State} {uid windex : Nat} {t : Team} {w : Weave}
  (ht : findTeam (park s) uid = some t) (hw : findWeave (park s) uid windex = some w)

include ht hw

theorem registerAllocationStall_of_victim {st : Stall} {u v : Nat} (hst : w.stalled = some st)
    (hv : chooseVictim (park s) t w st = some (u, v)) :
    exec (.registerAllocationStall uid windex) s = .next (paid (park s) (1, u, v) t.at_.site 5
      ((((findWeave (park s) u v).map areaSpans).getD []).foldl (fun acc x => acc + x.2) 0) (fun x => evictWeave x u v)) := by
  show execRegisterAllocationStall uid windex s = _
  simp only [execRegisterAllocationStall, event, ht, hw, hst, hv]
  rfl

theorem registerAllocationStall_of_none (hst : w.stalled = none) :
    exec (.registerAllocationStall uid windex) s = .next (park s) := by
  show execRegisterAllocationStall uid windex s = _
  simp only [execRegisterAllocationStall, event, ht, hw, hst]

theorem refillWeave_of_room (hev : w.evicted = true)
    (hroom : (otherTaken (park s) t w).1 + max t.kernel.vfloor (vHeld w w.plies) ≤ vPoolSize ∧
      (otherTaken (park s) t w).2 + max t.kernel.sfloor (sHeld w w.plies) ≤ sPoolSize) :
    exec (.refillWeave uid windex) s = .next (paid (park s) (2, uid, windex) t.at_.site 5
      ((areaSpans w).foldl (fun acc x => acc + x.2) 0) (fun x => refillWeave x uid windex)) := by
  show execRefillWeave uid windex s = _
  simp only [execRefillWeave, event, ht, hw, hev, hroom.1, hroom.2, decide_true, Bool.and_self, if_true]
  rfl

theorem refillWeave_of_no_room (h : w.evicted = false ∨
    ¬ ((otherTaken (park s) t w).1 + max t.kernel.vfloor (vHeld w w.plies) ≤ vPoolSize ∧
      (otherTaken (park s) t w).2 + max t.kernel.sfloor (sHeld w w.plies) ≤ sPoolSize)) :
    exec (.refillWeave uid windex) s = .next (park s) := by
  show execRefillWeave uid windex s = _
  simp only [execRefillWeave, event, ht, hw]
  rw [if_neg]
  simp only [Bool.and_eq_true, decide_eq_true_eq]
  rintro ⟨⟨hev, hv⟩, hs⟩
  rcases h with h | h
  · exact absurd (hev.symm.trans h) (by simp)
  · exact h ⟨hv, hs⟩

theorem volatileDeferralEnd_eq {d : Deferral} (hd : w.defer = some d) : exec (.volatileDeferralEnd uid windex) s =
    .next (if volMapped t.kernel w = false ∨ 256 ≤ d.issued ∨ d.since + 16384 ≤ (park s).cyc then
      onWeave (park s) uid windex (fun x => { x with defer := none }) else park s) := by
  show execVolatileDeferralEnd uid windex s = _
  simp only [execVolatileDeferralEnd, event, ht, hw, hd, Bool.or_eq_true, Bool.not_eq_true', decide_eq_true_eq, or_assoc]

end Pools

/-- A weave that is evicted waits for its refill. -/
theorem evicted_of_evictWeave {q : State} {uid k : Nat} {x y : Weave} (hx : findWeave q uid k = some x)
    (hy : findWeave (evictWeave q uid k) uid k = some y) : y.evicted = true := by
  obtain ⟨t, ht, -⟩ := findTeam_of_findWeave hx
  simp only [evictWeave, ht, hx] at hy
  rw [findWeave_onWeave_self] at hy
  · obtain ⟨z, -, rfl⟩ := Option.map_eq_some_iff.1 hy
    rfl
  · exact fun _ => rfl

/-- A refilled weave holds what its area holds (R93). -/
theorem findWeave_refillWeave {q u : State} {uid windex : Nat} {t : Team} {w x : Weave} {img : List Byte}
    (ht : findTeam q uid = some t) (hw : findWeave q uid windex = some w) (hr : readArea q t w = .ok (u, img))
    (hx : findWeave u uid windex = some x) :
    findWeave (refillWeave q uid windex) uid windex = some (fromArea x u.nextId img) := by
  simp only [refillWeave, ht, hw, hr]
  refine (findWeave_congr (s := onWeave u uid windex fun x => fromArea x u.nextId img) rfl uid windex).trans ?_
  rw [findWeave_onWeave_self, hx, Option.map_some]
  exact fun _ => rfl

theorem registerPools : Rules.RegisterPools := by
  intro s uid windex t w q area ht hw
  refine ⟨fun st hst u hu v hv hvic hmax => ?_, fun u k x hx y hy => evicted_of_evictWeave hx hy,
    fun u v st hvic => isVictim_spec hvic, registerAllocationStall_of_none ht hw,
    ⟨refillWeave_of_room ht hw, refillWeave_of_no_room ht hw, fun u img x hr hx => findWeave_refillWeave ht hw hr hx⟩,
    fun n img => ⟨rfl, rfl⟩, fun d hd => ⟨fun hover => ?_, fun hover => ?_⟩⟩
  · exact registerAllocationStall_of_victim ht hw hst (chooseVictim_of_latest hu hv hvic hmax)
  · rw [volatileDeferralEnd_eq ht hw hd, if_pos hover]
  · rw [volatileDeferralEnd_eq ht hw hd, if_neg hover]

/-! ### The end of a copy or remote operation (R103, R265, R275) -/

/-- A weave whose operation with handle h is over: the handle is free and the engine event is set. -/
def endHandle (h : Nat) (w : Weave) : Weave := { w with handles := w.handles.filter (·.h != h), evEngine := true }

/-- The state in which an operation of a weave is over. -/
def freeHandle (s : State) (uid windex h : Nat) : State := engineEvent (dropHandle s uid windex h) uid windex

theorem freeHandle_eq {s : State} {uid windex : Nat} {t : Team} (hp : s.focused = false) (ht : findTeam s uid = some t) (h : Nat) :
    freeHandle s uid windex h =
      onWeave (onWeave s uid windex fun w => { w with handles := w.handles.filter (·.h != h) }) uid windex
        fun w => { w with evEngine := true } := by
  have hdrop : dropHandle s uid windex h = onWeave s uid windex fun w => { w with handles := w.handles.filter (·.h != h) } := by
    rw [dropHandle, peekTeam_of_parked hp, ht, Option.isSome_some, if_pos rfl, updWeave_of_parked hp]
  rw [freeHandle, hdrop, engineEvent, peekTeam_of_parked (by exact hp), findTeam_onWeave, ht, Option.map_some,
    Option.isSome_some, if_pos rfl, updWeave_of_parked (by exact hp)]

section FreeHandle

variable {s : State} {uid windex : Nat} {t : Team} (hp : s.focused = false) (ht : findTeam s uid = some t) (h : Nat)

include hp ht

theorem freeHandle_clusters : (freeHandle s uid windex h).clusters = s.clusters := by rw [freeHandle_eq hp ht]; rfl

theorem freeHandle_remotes : (freeHandle s uid windex h).remotes = s.remotes := by rw [freeHandle_eq hp ht]; rfl

theorem freeHandle_mem : (freeHandle s uid windex h).mem = s.mem := by rw [freeHandle_eq hp ht]; rfl

theorem findWeave_freeHandle : findWeave (freeHandle s uid windex h) uid windex = (findWeave s uid windex).map (endHandle h) := by
  rw [freeHandle_eq hp ht, findWeave_onWeave_self, findWeave_onWeave_self, Option.map_map]
  · rfl
  · exact fun _ => rfl
  · exact fun _ => rfl

/-- The claim of the team stands. -/
theorem scratch_freeHandle : ∃ u, findTeam (freeHandle s uid windex h) uid = some u ∧ u.scratch = t.scratch := by
  rw [freeHandle_eq hp ht, findTeam_onWeave, findTeam_onWeave, ht]
  simp

end FreeHandle

theorem pumpRemotes_of_nil {s : State} (h : s.remotes = []) : pumpRemotes s = s := by
  rw [pumpRemotes, h]; rfl

theorem mem_endHandle (h : Nat) (w : Weave) (x : Handle) : x ∈ (endHandle h w).handles ↔ x ∈ w.handles ∧ x.h ≠ h := by
  simp [endHandle]

/-! ### Copies (R103, R419) -/

/-- The state after a copy of a weave has left its engine. -/
def copyGone (s : State) (site phys id : Nat) : State :=
  onCluster s site phys fun k => { k with copies := k.copies.filter (·.id != id) }

theorem completeCopy_eq {s : State} {c : Copy} {t : Team} (hp : s.focused = false) (hr : s.remotes = [])
    (ht : findTeam s c.uid = some t) (site phys : Nat) :
    completeCopy s site phys c = freeHandle (copyGone s site phys c.id) c.uid c.windex c.h := by
  refine pumpRemotes_of_nil ?_
  exact (freeHandle_remotes (s := copyGone s site phys c.id) hp ht c.h).trans hr

theorem copies_copyGone (s : State) (site phys id : Nat) :
    ∀ x ∈ (findCluster (copyGone s site phys id) site phys).copies, x.id ≠ id := by
  intro x hx
  rw [copyGone, findCluster_onCluster, if_pos ⟨rfl, rfl⟩] at hx
  · simpa using (List.mem_filter.1 hx).2
  · exact fun _ => ⟨rfl, rfl⟩

theorem copyComplete_eq {s : State} {site phys id : Nat} {c : Copy}
    (hc : (findCluster (park s) site phys).copies.find? (·.id == id) = some c) :
    exec (.copyComplete site phys id) s = .next (if c.handed < c.total then park s else
      let x := advanceCopy (park s) site phys (c.total - c.pos) c
      if x.2.pos < x.2.total || x.2.fid.isSome then x.1 else completeCopy x.1 site phys x.2) := by
  show execCopyComplete site phys id s = _
  simp only [execCopyComplete, event, hc]

/-- The last element of a copy within the scratchpad: its bytes go from the source to the destination. -/
def lastMoved (q : State) (c : Copy) : State :=
  putScratch (readScratch q c.uid (c.src c.pos) (2 ^ c.lgel)) c.uid (c.dst c.pos)
    (teamScratch q c.uid (c.src c.pos) (2 ^ c.lgel)) (teamScratchBad q c.uid (c.src c.pos) (2 ^ c.lgel))

/-- The copy after its element in hand. -/
def Copy.stepped (c : Copy) : Copy := { c with pos := c.pos + 1, out := c.out.filter (·.1 != c.pos) }

theorem copyElem_scratch {q : State} {c : Copy} (site : Nat) (hout : assoc? c.pos c.out = none) (hs : c.ssp = true)
    (hd : c.dsp = true) : copyElem q site c = (lastMoved q c, Copy.stepped c, none) := by
  have hread : readElem q site c c.pos = .ok (readScratch q c.uid (c.src c.pos) (2 ^ c.lgel),
      teamScratch q c.uid (c.src c.pos) (2 ^ c.lgel), teamScratchBad q c.uid (c.src c.pos) (2 ^ c.lgel)) := by
    rw [readElem, if_pos hs]
  have hchosen : ∀ read, chosenBytes c (c.src c.pos) read = read := fun read => by simp [chosenBytes, hs]
  simp only [copyElem, hout, hread, hchosen]
  rw [if_pos hd]
  rfl

theorem advanceCopy_last {q : State} {c : Copy} (site phys : Nat) (hfid : c.fid = none) (hpos : c.total = c.pos + 1)
    (hout : assoc? c.pos c.out = none) (hs : c.ssp = true) (hd : c.dsp = true) :
    advanceCopy q site phys (c.total - c.pos) c = (setCopy (lastMoved q c) site phys (Copy.stepped c), Copy.stepped c) := by
  have hn : c.total - c.pos = 1 := by omega
  have hle : ¬ c.total ≤ c.pos := by omega
  rw [hn]
  simp only [advanceCopy, hfid, Option.isSome_none, Bool.false_eq_true, if_false, copyElems, hle, copyElem_scratch site hout hs hd]

theorem advanceCopy_none {q : State} {c : Copy} (site phys : Nat) (hfid : c.fid = none) (hpos : c.total ≤ c.pos) :
    advanceCopy q site phys (c.total - c.pos) c = (setCopy q site phys c, c) := by
  have hn : c.total - c.pos = 0 := by omega
  rw [hn]
  simp only [advanceCopy, hfid, Option.isSome_none, Bool.false_eq_true, if_false, copyElems]

/-- R103, R419: a copy that has been handed over and has moved as a whole leaves the engine. -/
theorem copyComplete_of_moved {s : State} {site phys id : Nat} {c : Copy} {w : Weave} (hr : (park s).remotes = [])
    (hc : (findCluster (park s) site phys).copies.find? (·.id == id) = some c) (hfid : c.fid = none)
    (hw : findWeave (park s) c.uid c.windex = some w) (hhand : c.total ≤ c.handed) (hpos : c.total ≤ c.pos) :
    ∃ u, exec (.copyComplete site phys id) s = .next u ∧ (∀ x ∈ (findCluster u site phys).copies, x.id ≠ id) ∧
      findWeave u c.uid c.windex = some (endHandle c.h w) ∧ u.mem = (park s).mem := by
  have hid : c.id = id := by simpa using List.find?_some hc
  obtain ⟨t, ht, -⟩ := findTeam_of_findWeave hw
  let v := copyGone (setCopy (park s) site phys c) site phys id
  have hp : v.focused = false := park_focused s
  have ht' : findTeam v c.uid = some t := ht
  refine ⟨freeHandle v c.uid c.windex c.h, ?_, ?_, ?_, ?_⟩
  · have hstop : ¬ (c.pos < c.total || c.fid.isSome) = true := by simp [hfid, hpos]
    rw [copyComplete_eq hc, if_neg (by omega), advanceCopy_none site phys hfid hpos]
    dsimp only
    rw [if_neg hstop, completeCopy_eq (s := setCopy (park s) site phys c) (park_focused s) hr ht, hid]
  · rw [findCluster_congr (freeHandle_clusters hp ht' c.h)]
    exact copies_copyGone _ site phys id
  · have hw' : findWeave v c.uid c.windex = some w := hw
    rw [findWeave_freeHandle hp ht', hw', Option.map_some]
  · exact freeHandle_mem hp ht' c.h

/-- A fold of timestamps changes only the timestamps. -/
theorem foldl_setTs (g : State → Nat → LineTs) (xs : List Nat) (s : State) :
    ∃ ts, xs.foldl (fun acc l => setTs acc (g acc l)) s = { s with lineTs := ts } := by
  induction xs generalizing s with
  | nil => exact ⟨s.lineTs, rfl⟩
  | cons x xs ih =>
    obtain ⟨ts, h⟩ := ih (setTs s (g s x))
    exact ⟨ts, h⟩

/-- An agent's read of a claim moves timestamps only. -/
theorem readScratch_eq (s : State) (uid a n : Nat) :
    ∃ ts sites, readScratch s uid a n = { s with lineTs := ts, sites := sites } := by
  have hload : ∀ pts lines, ∃ ts, (loadTs s pts lines).1 = { s with lineTs := ts } := fun pts lines => foldl_setTs _ lines s
  obtain ⟨ts, h⟩ := hload (findSite s (coreOf s uid).site).gateTs (localLines 2 uid 0 a n)
  refine ⟨ts, (readScratch s uid a n).sites, ?_⟩
  unfold readScratch
  dsimp only
  rw [h]
  rfl

/-- An agent's write of a claim: the team holds the bytes, and nothing else here changes. -/
theorem putScratch_spec {s : State} {t : Team} {uid : Nat} (hp : s.focused = false) (ht : findTeam s uid = some t) (a : Nat)
    (bytes : List Byte) (bad : Bool) : let u := putScratch s uid a bytes bad
    (∃ t', findTeam u uid = some t' ∧ t'.scratch = cellWriteN t.scratch a bytes) ∧ u.focused = false ∧ u.remotes = s.remotes := by
  intro u
  have hstamp : ∀ lines ts, ∃ l, stampLines s lines ts = { s with lineTs := l } :=
    fun lines ts => foldl_setTs (fun _ l => ⟨l, ts, ts⟩) lines s
  obtain ⟨l, hl⟩ := hstamp (localLines 2 uid 0 a bytes.length)
    (storeTs s (findSite s (coreOf s uid).site).gateTs (localLines 2 uid 0 a bytes.length) false)
  have hfree : ∀ site ts f, (updTeam (gateStamp { s with lineTs := l } site ts) uid f) =
      onTeams (gateStamp { s with lineTs := l } site ts) (·.uid == uid) f :=
    fun site ts f => updTeam_of_parked (s := gateStamp { s with lineTs := l } site ts) hp uid f
  have hoff : ∀ site ts f, ((onTeams (gateStamp { s with lineTs := l } site ts) (·.uid == uid) f).focused &&
      (onTeams (gateStamp { s with lineTs := l } site ts) (·.uid == uid) f).team.uid == uid) = false := fun site ts f => by
    simp [gateStamp, hp]
  have hteam : ∀ site ts, findTeam (gateStamp { s with lineTs := l } site ts) uid = some t := fun _ _ => ht
  simp only [u, putScratch, hl, hfree, hoff, Bool.false_eq_true, if_false]
  refine ⟨?_, hp, rfl⟩
  rw [findTeam_onTeams, hteam, Option.map_some, if_pos rfl]
  · exact ⟨_, rfl, rfl⟩
  · exact fun _ => rfl

/-- The last element moves within the scratchpad: the team's claim holds the source's bytes at the destination. -/
theorem lastMoved_spec {q : State} {c : Copy} {t : Team} (hp : q.focused = false) (ht : findTeam q c.uid = some t) :
    (∃ t', findTeam (lastMoved q c) c.uid = some t' ∧
      t'.scratch = cellWriteN t.scratch (c.dst c.pos) (teamScratch q c.uid (c.src c.pos) (2 ^ c.lgel))) ∧
      (lastMoved q c).focused = false ∧ (lastMoved q c).remotes = q.remotes := by
  obtain ⟨ts, sites, hread⟩ := readScratch_eq q c.uid (c.src c.pos) (2 ^ c.lgel)
  rw [lastMoved, hread]
  exact putScratch_spec (s := { q with lineTs := ts, sites := sites }) hp ht _ _ _

theorem teamScratch_of_parked {q : State} (hp : q.focused = false) {uid : Nat} {t : Team} (ht : findTeam q uid = some t)
    (a n : Nat) : teamScratch q uid a n = cellReadN t.scratch a n := by
  rw [teamScratch, peekTeam_of_parked hp, ht]; rfl

/-- Bytes copied within canonical cells: the destination reads as the source did, every other byte as before. -/
theorem cellRead_copied {m : List Host.Cell} (h : cellsWf m = true) (src dst n a : Nat) :
    cellRead (cellWriteN m dst (cellReadN m src n)) a =
      if dst ≤ a ∧ a < dst + n then cellRead m (src + (a - dst)) else cellRead m a := by
  have hlen : (cellReadN m src n).length = n := by simp [cellReadN]
  rw [cellRead_cellWriteN h, hlen]
  split
  · rename_i ha
    have hk : a - dst < n := by omega
    simp [cellReadN, hk]
  · rfl

/-- R103, R419: the last element of a copy within the scratchpad carries its bytes, and the copy is over. -/
theorem copyComplete_of_last {s : State} {site phys id : Nat} {c : Copy} {t : Team} (hr : (park s).remotes = [])
    (hc : (findCluster (park s) site phys).copies.find? (·.id == id) = some c) (hfid : c.fid = none)
    (ht : findTeam (park s) c.uid = some t) (hhand : c.total ≤ c.handed) (hpos : c.total = c.pos + 1)
    (hout : assoc? c.pos c.out = none) (hs : c.ssp = true) (hd : c.dsp = true) :
    ∃ u t', exec (.copyComplete site phys id) s = .next u ∧ findTeam u c.uid = some t' ∧ u.mem = (park s).mem ∧
      (∀ x ∈ (findCluster u site phys).copies, x.id ≠ id) ∧
      t'.scratch = cellWriteN t.scratch (c.dst c.pos) (cellReadN t.scratch (c.src c.pos) (2 ^ c.lgel)) := by
  have hid : c.id = id := by simpa using List.find?_some hc
  have hp : (park s).focused = false := park_focused s
  obtain ⟨⟨t1, ht1, hcells⟩, hlp, hlr⟩ := lastMoved_spec hp ht
  rw [teamScratch_of_parked hp ht] at hcells
  let v := setCopy (lastMoved (park s) c) site phys (Copy.stepped c)
  have hvp : v.focused = false := hlp
  have hvr : v.remotes = [] := hlr.trans hr
  have hvm : v.mem = (park s).mem := by
    show (lastMoved (park s) c).mem = _
    rw [lastMoved, putScratch_mem, readScratch_mem]
  have hvt : findTeam v c.uid = some t1 := ht1
  obtain ⟨t', ht', hscratch⟩ := scratch_freeHandle (s := copyGone v site phys c.id) (windex := c.windex) hvp hvt c.h
  refine ⟨freeHandle (copyGone v site phys c.id) c.uid c.windex c.h, t', ?_, ht', ?_, ?_, ?_⟩
  · have hstop : ¬ ((Copy.stepped c).pos < (Copy.stepped c).total || (Copy.stepped c).fid.isSome) = true := by
      have hpos' : (Copy.stepped c).pos = c.pos + 1 := rfl
      have htot : (Copy.stepped c).total = c.total := rfl
      have hf : (Copy.stepped c).fid = c.fid := rfl
      simp [hpos', htot, hf, hfid, hpos]
    rw [copyComplete_eq hc, if_neg (by omega), advanceCopy_last site phys hfid hpos hout hs hd]
    dsimp only
    rw [if_neg hstop, completeCopy_eq (s := v) (c := Copy.stepped c) hvp hvr hvt]
    rfl
  · exact (freeHandle_mem (s := copyGone v site phys c.id) hvp hvt c.h).trans hvm
  · rw [findCluster_congr (freeHandle_clusters (s := copyGone v site phys c.id) hvp hvt c.h), hid]
    exact copies_copyGone _ site phys id
  · rw [hscratch, hcells]

/-! ### Remote operations (R265, R275) -/

/-- An operation that has begun is not begun again. -/
theorem pumpRemotes_of_begun {s : State} {o : RemoteOp} (hr : s.remotes = [o]) (hb : o.begun = true) : pumpRemotes s = s := by
  simp [pumpRemotes, hr, hb]

theorem remoteOpComplete_of_complete {s : State} {o : RemoteOp} {w : Weave} (hr : (park s).remotes = [o])
    (hdone : o.complete = true) (hw : findWeave (park s) o.uid o.windex = some w) :
    ∃ u, exec (.remoteOpComplete o.id) s = .next u ∧ u.remotes = [] ∧
      findWeave u o.uid o.windex = some (endHandle o.h w) ∧ u.mem = (park s).mem := by
  have hb : o.begun = true := by
    simp only [RemoteOp.complete, Bool.and_eq_true] at hdone
    exact hdone.1.1
  have hfind : (park s).remotes.find? (·.id == o.id) = some o := by rw [hr]; simp
  obtain ⟨t, ht, -⟩ := findTeam_of_findWeave hw
  let v : State := { park s with remotes := (park s).remotes.filter (·.id != o.id) }
  have hv : v.remotes = [] := by
    show (park s).remotes.filter (·.id != o.id) = []
    rw [hr]; simp
  have hp : v.focused = false := park_focused s
  have ht' : findTeam v o.uid = some t := ht
  have hrem : (freeHandle v o.uid o.windex o.h).remotes = [] := (freeHandle_remotes hp ht' o.h).trans hv
  refine ⟨freeHandle v o.uid o.windex o.h, ?_, hrem, ?_, freeHandle_mem hp ht' o.h⟩
  · show execRemoteOpComplete o.id s = _
    simp only [execRemoteOpComplete, event, pumpRemotes_of_begun hr hb, hfind, hdone, if_true]
    exact congrArg _ (pumpRemotes_of_nil hrem)
  · have hw' : findWeave v o.uid o.windex = some w := hw
    rw [findWeave_freeHandle hp ht', hw', Option.map_some]

theorem copyAndRemoteCompletion : Rules.CopyAndRemoteCompletion := by
  intro s
  refine ⟨fun site phys id c w hr hc hfid hw => ⟨fun hhand => ?_, fun hhand hpos => ?_,
    fun hhand hpos hout hs hd t ht hwf => ?_⟩, fun o w hr hdone hw => ?_⟩
  · rw [copyComplete_eq hc, if_pos hhand]
  · obtain ⟨u, hexec, hgone, hweave, hmem⟩ := copyComplete_of_moved hr hc hfid hw hhand hpos
    exact ⟨u, endHandle c.h w, hexec, hgone, hweave, mem_endHandle c.h w, rfl, rfl, hmem⟩
  · obtain ⟨u, t', hexec, hteam, hmem, hgone, hscratch⟩ := copyComplete_of_last hr hc hfid ht hhand hpos hout hs hd
    refine ⟨u, t', hexec, hteam, hmem, hgone, fun a => ?_⟩
    rw [hscratch, cellRead_copied hwf]
  · obtain ⟨u, hexec, hrem, hweave, hmem⟩ := remoteOpComplete_of_complete hr hdone hw
    exact ⟨u, endHandle o.h w, hexec, hrem, hweave, mem_endHandle o.h w, rfl, rfl, hmem⟩

/-- Settles O44: the victim of a spill is the last of a fold over the candidates, each step of a pool is the branch that its
guard takes, and an operation that is over frees its handle with no other one left to begin. -/
theorem poolsCopiesRemotes : Obligations.PoolsCopiesRemotes := ⟨registerPools, copyAndRemoteCompletion⟩

end Sys2Proof.Laws
end

