-- ==== Sys2Proof/Proofs/QuietEffects.lean ====
section
/-!
SUPPORT. Instructions whose effect writes no register: what they complete in, and what is pending after them.
-/

namespace Sys2Proof.Laws
open Sys2Proof Sys2Proof.Machine Sys2Proof.Safety

/-! ### An effect that writes no register -/

theorem finish_nil (s0 s : State) (r : Row) (f : Fields) (a : DWord) (m : LaneMask) (fl : Flags) (next : Option DWord) :
    finish s0 r f a m s [] fl next = complete s0 r f a m s [] fl next := by
  have hpeak : overPeak (afterReads s r f) [] = false := by simp [overPeak, applyWrites]
  have hpool : overPool (afterHold s0 s r f) [] = false := overPool_same rfl rfl
  simp [finish, hpeak, hpool]

/-- An instruction whose effect changes the state to u and writes no register completes there. -/
theorem issue_of_regs_nil {s u : State} {i : Instr} {f : Fields} {r : Row} {body : Fields → DWord → LaneMask → State → Result}
    (h : CanIssue s i f) (hf : fieldsOf i = some f) (hr : rowOf i = some r)
    (hbody : body f s.ply.pc (activeLanes s f) s = Result.regs u []) :
    issue i s body = .next (complete s (rowAt i) f s.ply.pc (activeLanes s f) u [] 0#7 none) := by
  rw [issue_eq h hf hr, hbody, rowAt_of_rowOf hr]
  exact congrArg _ (finish_nil ..)

end Sys2Proof.Laws
end

