-- ==== Sys2Proof/Proofs/Fences.lean ====
section
/-!
Settles O31: `fence`, `fence.spec` and its validation.
-/

namespace Sys2Proof.Laws
open Sys2Proof Sys2Proof.Machine Sys2Proof.Safety

/-! ### The pending results after an issue (R52) -/

/-- What every part of unmapping names and closing windows keeps, they keep. -/
theorem afterReads_keeps {γ : Type} (p : State → γ) (hm : ∀ s m, p (setMap s m) = p s)
    (hv : ∀ s id v, p (snapLatches s id v) = p s) (hs : ∀ s r, p (snapScalar s r) = p s)
    (hl : ∀ s ls, p { s with weave := { s.weave with latches := ls } } = p s) (s : State) (r : Row) (f : Fields) :
    p (afterReads s r f) = p s := by
  have hclose : ∀ b : State, p (closeLatches b r f) = p b := fun b => foldl_keeps p _ (fun b k => by
    dsimp only
    split
    · exact hl ..
    · rfl) _ _
  rw [afterReads, hclose, foldl_keeps p _ (unmapName_keeps p hm hv hs)]

/-- The pending results of the weave after an instruction of its issuing ply: written ones are gone, and the ply's open
windows have counted it. -/
def countedPends (s : State) : List Pend :=
  (s.weave.pends.filter (·.live s.clk)).map (fun p => if p.ply == s.ply.n && p.long then { p with left := p.left - 1 } else p)

theorem pends_complete_nil (s0 s : State) (r : Row) (f : Fields) (a : DWord) (m : LaneMask) (fl : Flags) (next : Option DWord) :
    (complete s0 r f a m s [] fl next).weave.pends = countedPends s := by
  have hlatch : ∀ (b : State) sl w, (openLatch b sl w).weave.pends = b.weave.pends := fun b sl w => by
    unfold openLatch; split <;> rfl
  have hsr : ∀ b : State, (countSr b r f m).weave.pends = b.weave.pends := fun b => by unfold countSr; split <;> rfl
  have hcyc : ∀ b : State, countedPends (spoilCyc b r f) = countedPends b := fun b => by unfold spoilCyc; split <;> rfl
  have hmark : ∀ b : State, markPending b r f [] = b := fun b => by simp [markPending]
  rw [complete_eq]
  refine (hlatch _ _ _).trans ?_
  show (markPending (countSr (countIssue _ _) r f m) r f []).weave.pends = _
  rw [hmark, hsr]
  refine (hcyc _).trans ?_
  exact afterReads_keeps countedPends (fun _ _ => rfl) (fun _ _ _ => rfl) (fun _ _ => rfl) (fun _ _ => rfl) s r f

theorem plyN_complete (s0 s : State) (r : Row) (f : Fields) (a : DWord) (m : LaneMask) (ws : List Write) (fl : Flags)
    (next : Option DWord) : (complete s0 r f a m s ws fl next).ply.n = s.ply.n := by
  have h := congrArg (fun u : State => u.ply.n) (rest_complete s0 s r f a m ws fl next)
  exact h

/-- No instruction opens a fence but the fence itself. -/
theorem fenceOpen_complete_of_closed (s0 : State) {s : State} (r : Row) (f : Fields) (a : DWord) (m : LaneMask) (fl : Flags)
    (next : Option DWord) (h : fenceOpen s = false) : fenceOpen (complete s0 r f a m s [] fl next) = false := by
  simp only [fenceOpen, List.any_eq_false] at h ⊢
  rw [pends_complete_nil, plyN_complete]
  intro p hp
  obtain ⟨x, hx, rfl⟩ := List.mem_map.1 hp
  have := h x (List.mem_filter.1 hx).1
  split <;> exact this

/-! ### `fence` (R116, R230) -/

/-- The state in which a fence of the ply is open. -/
def fenceOpened (f : Fields) (s : State) : State :=
  { s with
    ply := { s.ply with rolled := 0 }
    weave := { s.weave with
      nextTag := s.weave.nextTag + 1
      pends := s.weave.pends ++ [{ tag := s.weave.nextTag, ply := s.ply.n, codes := [], long := true, left := f.la.toNat + 1,
                                   timed := false, fence := some s.nextId }] } }

theorem plainFence_of_done {s : State} (f : Fields) (hclear : fenceClear s = true) (hperf : allPerformed s = true)
    (hopen : fenceOpen s = false) :
    plainFence f s = Result.regs { acquireAt s s.team.at_ with ply := { s.ply with rolled := 0 } } [] := by
  simp only [plainFence, hclear, hperf, hopen]
  rfl

theorem plainFence_of_not_done {s : State} (f : Fields)
    (h : fenceClear s = false ∨ allPerformed s = false ∨ fenceOpen s = true) :
    plainFence f s = Result.regs (fenceOpened f s) [] := by
  have hnot : (fenceClear s && allPerformed s && !fenceOpen s) = false := by
    rcases h with h | h | h <;> simp [h]
  simp only [plainFence, hnot]
  rfl

/-- The pending entry of a fence that has just opened has counted no instruction of its ply yet. -/
theorem fence_mem_pends (s0 s : State) (r : Row) (f : Fields) (a : DWord) (m : LaneMask) :
    ∃ p ∈ (complete s0 r f a m (fenceOpened f s) [] 0#7 none).weave.pends,
      p.tag = s.weave.nextTag ∧ p.ply = s.ply.n ∧ p.fence = some s.nextId ∧ p.left = f.la.toNat := by
  rw [pends_complete_nil]
  refine ⟨_, List.mem_map.2 ⟨_, List.mem_filter.2 ⟨List.mem_append_right _ (List.mem_singleton_self _), ?_⟩, rfl⟩, ?_⟩
  · rfl
  · simp [fenceOpened]

/-- An instruction that does what a plain `fence` does. -/
theorem fenceRule_of_plainFence {s : State} {i : Instr} {f : Fields}
    (hexec : ∀ u, plainFence f s = Result.regs u [] →
      exec i s = .next (complete s (rowAt i) f s.ply.pc (activeLanes s f) u [] 0#7 none)) : FenceRule s i f := by
  refine ⟨fun hclear hperf hopen => ?_, fun hnot => ?_⟩
  · exact ⟨_, hexec _ (plainFence_of_done f hclear hperf hopen), fenceOpen_complete_of_closed s _ f _ _ _ _ hopen,
      done_complete ..⟩
  · refine ⟨_, hexec _ (plainFence_of_not_done f hnot), ?_, ?_, fence_mem_pends s s (rowAt i) f _ _⟩
    · obtain ⟨goes, keeps⟩ := done_complete s (fenceOpened f s) i f s.ply.pc (activeLanes s f) none
      exact ⟨⟨goes.pc, goes.ready, goes.flags, goes.counts, goes.memory, goes.others, goes.cores⟩,
        ⟨keeps.vector, keeps.scalar, keeps.masks⟩⟩
    · obtain ⟨p, hp, -, hply, hfence, -⟩ := fence_mem_pends s s (rowAt i) f s.ply.pc (activeLanes s f)
      rw [fenceOpen, List.any_eq_true]
      refine ⟨p, hp, ?_⟩
      rw [plyN_complete, hply, hfence]
      simp [fenceOpened]

/-! ### `fence.spec` (R117) -/

/-- The state in which the ply has taken the checkpoint of a `fence.spec`. -/
def fenceTaken (f : Fields) (s : State) : State :=
  { acquireAt s s.team.at_ with ply := { s.ply with
      fence := some { pc := s.ply.pc, mask := s.ply.mask, map := s.weave.map, scope := f.variant.toNat % 4
                      lines := [], queued := [], mark := s.nextId, tagMark := s.weave.nextTag } } }

/-- An open checkpoint stands after an instruction but for the names that it notes. -/
theorem fence_complete {s0 s : State} {c : FenceCkpt} (r : Row) (f : Fields) (a : DWord) (m : LaneMask) (ws : List Write)
    (fl : Flags) (next : Option DWord) (hc : s.ply.fence = some c) :
    ∃ d, (complete s0 r f a m s ws fl next).ply.fence = some d ∧
      { d with own := [], others := [] } = { c with own := [], others := [] } := by
  have h : (complete s0 r f a m s ws fl next).ply.fence.map (fun c => { c with own := [], others := [] }) =
      s.ply.fence.map (fun c => { c with own := [], others := [] }) := by
    have h := congrArg (fun u : State => u.ply.fence) (rest_complete s0 s r f a m ws fl next)
    exact h
  rw [hc] at h
  exact Option.map_eq_some_iff.1 h

theorem fenceSpec_takes_checkpoint {s : State} {f : Fields} (h : CanIssue s (.fenceSpec f) f) (hfence : s.ply.fence = none)
    (hrolled : s.ply.rolled < 2) :
    exec (.fenceSpec f) s =
      .next (complete s (rowAt (.fenceSpec f)) f s.ply.pc (activeLanes s f) (fenceTaken f s) [] 0#7 none) := by
  have hfree : (s.ply.fence.isSome || decide (2 ≤ s.ply.rolled)) = false := by simp [hfence, hrolled]
  show execFenceSpec f s = _
  refine issue_of_regs_nil h rfl rfl ?_
  simp only [hfree]
  rfl

theorem fenceSpec_rule {s : State} {f : Fields} (h : CanIssue s (.fenceSpec f) f)
    (hbusy : s.ply.fence ≠ none ∨ 2 ≤ s.ply.rolled) : FenceRule s (.fenceSpec f) f := by
  have hplain : (s.ply.fence.isSome || decide (2 ≤ s.ply.rolled)) = true := by
    rw [Bool.or_eq_true, decide_eq_true_eq, Option.isSome_iff_ne_none]; exact hbusy
  refine fenceRule_of_plainFence fun u hu => ?_
  show execFenceSpec f s = _
  refine issue_of_regs_nil h rfl rfl ?_
  simp only [hplain, if_true, hu]

theorem fence_rule {s : State} {f : Fields} (h : CanIssue s (.fence f) f) : FenceRule s (.fence f) f := by
  refine fenceRule_of_plainFence fun u hu => ?_
  show execFence f s = _
  exact issue_of_regs_nil h rfl rfl hu

/-! ### The validation of a `fence.spec` (R117) -/

theorem whenPly_of_found {s : State} {uid windex n : Nat} {t : Team} {w : Weave} {p : Ply} (ht : findTeam s uid = some t)
    (hw : t.weaves.find? (·.windex == windex) = some w) (hn : w.plies.find? (·.n == n) = some p)
    (g : Team → Weave → Ply → State) : whenPly s uid windex n g = g t w p := by
  simp only [whenPly, ht, hw, hn]

section Validate

variable {s : State} {uid windex n : Nat} {w : Weave} {p : Ply} {c : FenceCkpt}
  (hw : findWeave (park s) uid windex = some w) (hn : w.plies.find? (·.n == n) = some p) (hc : p.fence = some c)
  (hdone : fenceDone (park s) uid windex n c = true)
  (hloads : ∀ l ∈ w.loads, l.ply = n → c.tagMark ≤ l.tag → l.full = true)

include hw hn hc hdone hloads

/-- With everything before the fence performed, the checkpoint is released where its lines stand, else the ply rolls back. -/
theorem fenceSpecValidate_eq : exec (.fenceSpecValidate uid windex n) s =
    .next (if c.done = true ∨ fenceValid (park s) c = true then releaseFence (park s) uid windex n c
      else rollFence (park s) uid windex n true) := by
  obtain ⟨t, ht, hwt⟩ := findTeam_of_findWeave hw
  have hwait : w.loads.any (fun l => l.ply == n && decide (c.tagMark ≤ l.tag) && !l.full) = false := by
    rw [List.any_eq_false]
    intro l hl hbad
    simp only [Bool.and_eq_true, beq_iff_eq, decide_eq_true_eq, Bool.not_eq_true'] at hbad
    obtain ⟨⟨hply, htag⟩, hfull⟩ := hbad
    exact absurd ((hloads l hl hply htag).symm.trans hfull) (by simp)
  show execFenceSpecValidate uid windex n s = _
  rw [execFenceSpecValidate, event, whenPly_of_found ht hwt hn]
  simp only [hc, hdone, hwait, Bool.not_true, Bool.or_self, Bool.false_eq_true, if_false]
  by_cases h1 : c.done = true
  · simp [h1]
  · by_cases h2 : fenceValid (park s) c = true <;> simp [h1, h2]

end Validate

/-- A release with no queued store: the ply goes on without its checkpoint. -/
theorem plyAt_releaseFence {s : State} {uid windex n : Nat} {t : Team} {w : Weave} {p : Ply} {c : FenceCkpt}
    (hp : s.focused = false) (ht : findTeam s uid = some t) (hw : t.weaves.find? (·.windex == windex) = some w)
    (hn : w.plies.find? (·.n == n) = some p) (hq : c.queued = []) (hm : p.mask ≠ 0#32) :
    plyAt (releaseFence s uid windex n c) uid windex n = some { p with fence := none, rolled := 0 } ∧
      (releaseFence s uid windex n c).mem = s.mem := by
  have hapart := apart_focusOn hp ht hw hn
  have hfocus := focusOn_of_found hp ht hw hn
  have huid : t.uid = uid := findTeam_uid ht
  have hwin : w.windex = windex := by simpa using List.find?_some hw
  have hply : p.n = n := by simpa using List.find?_some hn
  let v : State := { focusOn s uid windex n with ply := { p with fence := none, rolled := 0 } }
  have hv : Apart v := by
    refine ⟨hapart.focused, hapart.team, hapart.weave, fun x hx => ?_⟩
    have := hapart.ply x hx
    rw [hfocus] at this
    exact this
  have hrel : releaseFence s uid windex n c = onWeave (park v) uid windex (fun w => { w with pends := w.pends.map (fun p =>
      if p.ply == n && p.fence.isSome then { p with fence := some (park v).nextId } else p) }) := by
    have hs0 : (focusOn s uid windex n).ply = p := by rw [hfocus]
    simp only [releaseFence, hq, releaseQueued, List.isEmpty_nil, if_true, hs0]
    rfl
  have hat : plyAt (park v) uid windex n = some v.ply := by
    have := plyAt_park hv hm
    have hn1 : v.ply.n = n := hply
    have hw1 : v.weave.windex = windex := by simp only [v, hfocus]; exact hwin
    have ht1 : v.team.uid = uid := by simp only [v, hfocus]; exact huid
    rwa [hn1, hw1, ht1] at this
  constructor
  · obtain ⟨w', hw', hp'⟩ := Option.bind_eq_some_iff.1 hat
    rw [hrel, plyAt, findWeave_onWeave_self, hw', Option.map_some]
    · exact hp'
    · exact fun _ => rfl
  · rw [hrel, onWeave_mem, park_mem]
    exact focusOn_mem s uid windex n

/-- Two lists taken together by position. -/
theorem getD_map_zip_range {α : Type} (g : Nat → Option α → Option α) {xs : List (Option α)} {len k : Nat}
    (hlen : xs.length = len) (hk : k < len) :
    (((List.range len).zip xs).map (fun x => g x.1 x.2)).getD k none = g k (xs.getD k none) := by
  subst hlen
  simp [List.getD_eq_getElem?_getD, hk]

theorem rollMap_v (c : FenceCkpt) {m : RegMap} (hlen : m.v.length = 192) {k : Nat} (hk : k < 192) :
    (c.rollMap m).v.getD k none = c.rollV k (m.v.getD k none) :=
  getD_map_zip_range c.rollV hlen hk

theorem rollMap_s (c : FenceCkpt) {m : RegMap} (hlen : m.s.length = 48) {k : Nat} (hk : k < 48) :
    (c.rollMap m).s.getD k none = c.rollS k (m.s.getD k none) :=
  getD_map_zip_range c.rollS hlen hk

theorem rollV_of_none {c : FenceCkpt} {k : Nat} (h : assoc? k c.own = none) (cur : Option VReg) : c.rollV k cur = cur := by
  simp [FenceCkpt.rollV, h]

theorem rollV_of_own {c : FenceCkpt} {k : Nat} (h : assoc? k c.own ≠ none) (hother : k ∉ c.others) (cur : Option VReg) :
    c.rollV k cur = c.map.v.getD k none := by
  obtain ⟨m, hm⟩ := Option.ne_none_iff_exists'.1 h
  simp [FenceCkpt.rollV, hm, hother]

theorem rollS_eq (c : FenceCkpt) (k : Nat) (cur : Option SReg) :
    c.rollS k cur = if assoc? (0xC0 + k) c.own = none then cur else c.map.s.getD k none := by
  unfold FenceCkpt.rollS
  cases assoc? (0xC0 + k) c.own <;> simp

/-- The ply after a failed validation. -/
def Ply.backAt (c : FenceCkpt) (p : Ply) : Ply :=
  { p with pc := c.pc, mask := c.mask, fence := none, wait := .none, rolled := p.rolled + 1 }

/-- A weave and its ply after a failed validation. -/
theorem findWeave_rollFence {s : State} {uid windex n : Nat} {w : Weave} {p : Ply} {c : FenceCkpt}
    (hw : findWeave s uid windex = some w) (hn : w.plies.find? (·.n == n) = some p) (hc : p.fence = some c)
    (hdone : c.done = false) :
    ∃ w', findWeave (rollFence s uid windex n true) uid windex = some w' ∧ w'.map = c.rollMap w.map ∧
      w'.plies.find? (·.n == n) = some (Ply.backAt c p) ∧ (rollFence s uid windex n true).mem = s.mem := by
  have hfind : (findWeave s uid windex).bind (fun w => w.plies.find? (·.n == n)) = some p := by rw [hw, Option.bind_some, hn]
  have hafter : ∀ g : Weave → Weave, (∀ v, (g v).windex = v.windex) → ∀ as,
      findWeave { onWeave s uid windex g with accs := as } uid windex = some (g w) := fun g hg as => by
    have h := findWeave_onWeave_self s uid windex hg
    rw [hw, Option.map_some] at h
    exact h
  have hback : ∀ g : Ply → Ply, (∀ q, (g q).n = q.n) →
      (w.plies.map fun q => if q.n == n then g q else q).find? (·.n == n) = some (g p) := fun g hg => by
    rw [find?_map_key Ply.n n n g hg, hn, Option.map_some, if_pos rfl]
  simp only [rollFence, hfind, hc, hdone, Bool.false_eq_true, if_false]
  refine ⟨_, hafter _ ?_ _, rfl, hback _ ?_, rfl⟩
  · exact fun _ => rfl
  · exact fun _ => rfl

/-- The checkpoint's lines carry the timestamps that it recorded. -/
theorem fenceValid_iff (s : State) (c : FenceCkpt) : fenceValid s c = true ↔ ∀ l ∈ c.lines, (tsOf s l.1).wts = l.2 := by
  simp only [fenceValid, List.all_eq_true, beq_iff_eq]

/-- Settles O31: a fence is complete or leaves a pending entry behind; a `fence.spec` leaves its checkpoint; its validation
releases the checkpoint or goes back to it. -/
theorem fences : Obligations.Fences := by
  intro s f
  refine ⟨fence_rule, fun h => ⟨fun hfence hrolled => ?_, fenceSpec_rule h⟩, ?_⟩
  · obtain ⟨c, hc, hsame⟩ := fence_complete (s0 := s) (s := fenceTaken f s) (rowAt (.fenceSpec f)) f s.ply.pc (activeLanes s f)
      [] 0#7 none rfl
    simp only [FenceCkpt.mk.injEq] at hsame
    obtain ⟨hpc, hmask, hmap, -, hlines, hqueued, -⟩ := hsame
    obtain ⟨goes, keeps⟩ := done_complete s (fenceTaken f s) (.fenceSpec f) f s.ply.pc (activeLanes s f) none
    exact ⟨_, c, fenceSpec_takes_checkpoint h hfence hrolled, goes.pc, hc, hpc, hmask, hmap, hlines, hqueued,
      ⟨keeps.vector, keeps.scalar, keeps.masks⟩, goes.memory⟩
  · intro uid windex n w p c q hw hn hc hdone hloads
    obtain ⟨t, ht, hwt⟩ := findTeam_of_findWeave hw
    refine ⟨fun hvalid hqueued hmask => ?_, fun hchanged hopen hv hs => ?_⟩
    · obtain ⟨hply, hmem⟩ := plyAt_releaseFence (park_focused s) ht hwt hn hqueued hmask
      rw [fenceSpecValidate_eq hw hn hc hdone hloads, if_pos (.inr ((fenceValid_iff q c).2 hvalid))]
      exact ⟨_, _, rfl, hply, rfl, rfl, rfl, rfl, hmem⟩
    · have hinvalid : ¬ (c.done = true ∨ fenceValid q c = true) := by
        rw [fenceValid_iff, hopen]
        obtain ⟨l, hl, hts⟩ := hchanged
        exact fun h => hts (h.resolve_left (by simp) l hl)
      obtain ⟨w', hw', hmap, hply, hmem⟩ := findWeave_rollFence hw hn hc hopen
      rw [fenceSpecValidate_eq hw hn hc hdone hloads, if_neg hinvalid]
      refine ⟨_, Ply.backAt c p, w', rfl, by rw [plyAt, hw', Option.bind_some, hply], hw', fun k hk => ?_, fun k hk => ?_,
        rfl, rfl, rfl, rfl, hmem⟩
      · rw [hmap, rollMap_v c hv hk]
        exact ⟨fun h => rollV_of_none h _, fun h hother => rollV_of_own h hother _⟩
      · rw [hmap, rollMap_s c hs hk, rollS_eq]

end Sys2Proof.Laws
end

