-- ==== Sys2Proof/Proofs/StackRoom.lean ====
section
/-!
SUPPORT. What a spill and a fill of the stack cache leave alone: the registers always, and every byte of memory where the
cache has room.
-/

namespace Sys2Proof.Laws
open Sys2Proof Sys2Proof.Machine Sys2Proof.Safety

/-! ### The registers of the issuing weave -/

/-- What reads of the issuing weave's registers, masks and flags depend on. -/
def weaveRegs (s : State) : RegMap × List LaneMask × Flags := (s.weave.map, s.weave.kregs, s.weave.fpflags)

theorem weaveRegs_of_weave {s t : State} (h : t.weave = s.weave) : weaveRegs t = weaveRegs s := by
  simp only [weaveRegs, h]

theorem weaveRegs_foldl {α : Type} {g : State → α → State} {xs : List α} {s : State}
    (hg : ∀ b a, weaveRegs (g b a) = weaveRegs b) : weaveRegs (xs.foldl g s) = weaveRegs s :=
  foldl_keeps weaveRegs g hg xs s

theorem weave_foldl {α : Type} {g : State → α → State} {xs : List α} {s : State}
    (hg : ∀ b a, (g b a).weave = b.weave) : (xs.foldl g s).weave = s.weave :=
  foldl_keeps State.weave g hg xs s

/-! ### Writes to memory and to the control space -/

@[simp] theorem weaveRegs_performWrite (s : State) (key ia : Nat) (bytes : List Byte) (ts : Nat)
    (by_ : Option (Nat × Nat × Nat)) : weaveRegs (performWrite s key ia bytes ts by_) = weaveRegs s := by
  have hstamp : ∀ (b : State) lines ts, weaveRegs (stampLines b lines ts) = weaveRegs b :=
    fun b lines ts => weaveRegs_foldl (fun _ _ => rfl)
  exact (hstamp _ _ _ : weaveRegs (stampLines _ _ _) = _)

@[simp] theorem weaveRegs_agentStore (s : State) (key ia : Nat) (bytes : List Byte) :
    weaveRegs (agentStore s key ia bytes) = weaveRegs s := by
  have hstore : ∀ b : State, ∀ ts, weaveRegs (storeBytes b key ia bytes ts none) = weaveRegs b := fun b ts => by
    unfold storeBytes
    split
    · rfl
    · exact weaveRegs_performWrite ..
  unfold agentStore
  dsimp only
  split
  · exact hstore ..
  · exact hstore ..

@[simp] theorem sendMsi_weave (s : State) (src vec : Nat) : (sendMsi s src vec).weave = s.weave := by
  unfold sendMsi
  split
  · split <;> rfl
  · rfl

@[simp] theorem weaveRegs_fillRing (s : State) (head : Nat) (r : Ring) (recs : List FaultRec) :
    weaveRegs (fillRing s head r recs).1 = weaveRegs s := by
  unfold fillRing
  dsimp only
  split
  · exact (weaveRegs_of_weave (sendMsi_weave ..)).trans (weaveRegs_foldl (fun b x => weaveRegs_agentStore ..))
  · exact weaveRegs_foldl (fun b x => weaveRegs_agentStore ..)

@[simp] theorem weaveRegs_postBatch (s : State) (part : Nat) (fabric : Bool) :
    weaveRegs (postBatch s part fabric) = weaveRegs s := by
  unfold postBatch
  extract_lets head q mine r
  clear_value head mine r
  split
  · rfl
  · have hfill := weaveRegs_fillRing s head r (mine.take 32)
    generalize fillRing s head r (mine.take 32) = x at hfill ⊢
    obtain ⟨s1, r1, held⟩ := x
    cases fabric <;> exact hfill

theorem weaveRegs_writeGet (s : State) (site : Nat) (fabric : Bool) (v : DWord) :
    weaveRegs (writeGet s site fabric v) = weaveRegs s := by
  unfold writeGet
  extract_lets part s1 held
  split
  · rfl
  · split
    · exact weaveRegs_postBatch s1 part fabric
    · rfl

theorem writeBgt_weave (s : State) (site k : Nat) (v : DWord) : (writeBgt s site k v).weave = s.weave := by
  unfold writeBgt
  dsimp only
  split <;> rfl

theorem writeOpctl_weave (s : State) (site : Nat) (v : DWord) : (writeOpctl s site v).weave = s.weave := by
  have hdown : (portGoesDown s site).weave = s.weave := by unfold portGoesDown; split <;> rfl
  unfold writeOpctl
  dsimp only
  split
  · rfl
  · split
    · exact hdown
    · rfl

theorem plainWrite_weave (s : State) (site off : Nat) (v : DWord) : (plainWrite s site off v).weave = s.weave := by
  simp only [plainWrite, apply_ite State.weave, onSite_weave, ite_self]

@[simp] theorem weaveRegs_ctlWrite (s : State) (site off : Nat) (v : DWord) :
    weaveRegs (ctlWrite s site off v) = weaveRegs s := by
  unfold ctlWrite
  repeat' split
  · rfl
  · exact weaveRegs_of_weave (writeBgt_weave ..)
  · exact weaveRegs_of_weave (writeOpctl_weave ..)
  · exact weaveRegs_writeGet ..
  · exact weaveRegs_writeGet ..
  · exact weaveRegs_of_weave (plainWrite_weave ..)

/-! ### Accesses of an agent -/

@[simp] theorem leaveDistant_weave (s : State) (src ia ctx : Nat) (data : List Byte) :
    (leaveDistant s src ia ctx data).weave = s.weave := by
  unfold leaveDistant
  repeat' split
  all_goals rfl

@[simp] theorem takeHostLine_weave (s : State) (m : Master) (src attr ia : Nat) (only : Bool) :
    (takeHostLine s m src attr ia only).weave = s.weave := by
  have hothers : ∀ site line, (othersGiveUp s site line).weave = s.weave := fun _ _ => weave_foldl (fun _ _ => rfl)
  unfold takeHostLine holdLine
  dsimp only
  repeat' split
  all_goals simp [hothers]

theorem weaveRegs_masterPut {s : State} {m : Master} {src ia : Nat} {bytes : List Byte} {bad sent : Bool} {t : State}
    (h : masterPut s m src ia bytes bad sent = .ok t) : weaveRegs t = weaveRegs s := by
  have hstore : ∀ u : State, u.weave = s.weave → ∀ key attr,
      weaveRegs (agentStore (takeHostLine u m src attr ia false) key ia bytes) = weaveRegs s := fun u hu key attr =>
    (weaveRegs_agentStore ..).trans (weaveRegs_of_weave ((takeHostLine_weave ..).trans hu))
  unfold masterPut at h
  dsimp only at h
  split at h
  · cases h
  · cases h
    split
    · exact weaveRegs_ctlWrite ..
    · rfl
  · cases h
    have hsent : ∀ used, (if sent then cacheWalk s used else leaveDistant (cacheWalk s used) src ia m.ctx bytes).weave = s.weave := by
      intro used
      split
      · rfl
      · exact leaveDistant_weave ..
    split
    · exact hstore _ (hsent _) _ _
    · exact hstore _ (hsent _) _ _

/-! ### Spills and fills of the stack cache (R92) -/

@[simp] theorem spend_weave (s : State) (site cls : Nat) (u : Use) : (spend s site cls u).weave = s.weave :=
  weave_foldl (fun _ _ => by split <;> rfl)

theorem weaveRegs_updWeave (s : State) (uid windex : Nat) {g : Weave → Weave}
    (hg : ∀ w, ((g w).map, (g w).kregs, (g w).fpflags) = (w.map, w.kregs, w.fpflags)) :
    weaveRegs (updWeave s uid windex g) = weaveRegs s := by
  unfold updWeave
  repeat' split
  · exact hg _
  · rfl
  · rfl

theorem weaveRegs_putCells (s : State) (ctx src : Nat) (bad : List Nat) (cells : List Host.Cell) :
    weaveRegs (putCells s ctx src bad cells).1 = weaveRegs s := by
  refine foldl_keeps (fun x : State × List Host.Cell => weaveRegs x.1) _ ?_ (cellRuns bad cells) (s, [])
  rintro ⟨acc, left⟩ ⟨va, bytes⟩
  dsimp only
  split
  · rename_i hp
    obtain ⟨ia, -, hia⟩ := Option.map_eq_some_iff.1 hp
    exact weaveRegs_masterPut hia
  · rfl

theorem weaveRegs_spillOne {s : State} {u : Team} {w : Weave} {line : Nat} {t : State} (h : spillOne s u w line = some t) :
    weaveRegs t = weaveRegs s := by
  have hput := weaveRegs_putCells s u.ctx u.at_.site w.stackBad (w.stack.filter (fun c => c.1 / 128 == line))
  unfold spillOne at h
  dsimp only at h
  split at h
  · cases h
  · split at h
    · rename_i hcells
      rw [hcells] at hput
      cases h
      exact (weaveRegs_updWeave _ _ _ (by exact fun _ => rfl)).trans ((weaveRegs_of_weave (spend_weave ..)).trans hput)
    · cases h

@[simp] theorem weaveRegs_trimLoop (core : CoreId) (n : Nat) (s : State) : weaveRegs (trimLoop core n s) = weaveRegs s := by
  induction n generalizing s with
  | zero => rfl
  | succ n ih =>
    unfold trimLoop
    dsimp only
    split
    · rfl
    · split
      · rename_i hs
        obtain ⟨x, -, hx⟩ := List.exists_of_findSome?_eq_some hs
        obtain ⟨line, -, hl⟩ := Option.bind_eq_some_iff.1 hx
        exact (ih _).trans (weaveRegs_spillOne hl)
      · rfl

theorem weaveRegs_fillStack {s : State} {va n : Nat} {t : State} (h : fillStack s va n = .ok t) :
    weaveRegs t = weaveRegs s := by
  refine foldl_ok_induction (fun x => weaveRegs x = weaveRegs s) (fun _ _ => rfl) ?_ rfl h
  intro s1 k b hs hb
  dsimp only at hb
  repeat' split at hb
  all_goals cases hb
  · exact hs
  · exact (congrArg (fun w : Weave => (w.map, w.kregs, w.fpflags)) (takeHostLine_weave ..)).trans hs
  · exact (congrArg (fun w : Weave => (w.map, w.kregs, w.fpflags)) (takeHostLine_weave ..)).trans hs
  · exact hs

/-! ### Prefetches (R231) -/

@[simp] theorem l1Read_weave (s : State) (core : CoreId) (pts key ia n attr policy : Nat) :
    (l1Read s core pts key ia n attr policy).1.weave = s.weave := by
  unfold l1Read l1Fill
  dsimp only
  repeat' split
  all_goals rfl

@[simp] theorem prefetchLine_weave (s : State) (ia policy : Nat) : (prefetchLine s ia policy).weave = s.weave := by
  unfold prefetchLine
  dsimp only
  split
  · repeat' split
    · rfl
    · rfl
    · rfl
    · rfl
    · exact l1Read_weave ..
    · rfl
  · rfl

theorem weaveRegs_prefetchLane (s : State) (r : Resolved) (va : DWord) : weaveRegs (prefetchLane s r va) = weaveRegs s := by
  unfold prefetchLane
  dsimp only
  split
  · rfl
  · split
    · split
      · rfl
      · split
        · rename_i hfill
          exact ((weaveRegs_trimLoop ..).trans (weaveRegs_fillStack hfill)).trans (weaveRegs_of_weave (spend_weave ..))
        · rfl
    · exact weaveRegs_of_weave (prefetchLine_weave ..)

/-! ### What a core's stack cache holds -/

/-- What the use of the stack caches depends on, beside the stack bytes of the issuing weave: the teams and each core's
split. -/
def stackView (s : State) : Bool × Team × List Team × (CoreId → Nat × Nat × Nat) :=
  (s.focused, s.team, s.teams, fun c => (findCore s c).split)

theorem stackUse_le {s t : State} {k : Nat} (hview : stackView t = stackView s)
    (hlines : t.weave.stackLines.length ≤ s.weave.stackLines.length + k) (core : CoreId) :
    stackUse t core ≤ stackUse s core + k := by
  simp only [stackView, Prod.mk.injEq] at hview
  obtain ⟨hfocused, hteam, hteams, -⟩ := hview
  simp only [stackUse, coreStacks, hfocused, hteam, hteams, ← List.sum_eq_foldl, List.map_append, List.sum_append]
  split
  · simp only [List.map_cons, List.sum_cons]
    omega
  · simp

theorem nodup_distinct (xs : List Nat) : (distinct xs).Nodup := by
  refine List.foldlRecOn (motive := List.Nodup) xs _ List.nodup_nil (fun acc hacc x _ => ?_)
  split
  · exact hacc
  · rename_i hx
    exact List.nodup_append.2 ⟨hacc, List.nodup_singleton x, by simpa using fun a ha (e : a = x) => hx (by simpa [e] using ha)⟩

/-- A weave whose lines are those of another and one more line at most. -/
theorem stackLines_length_le {v w : Weave} {l : Nat} (h : ∀ x ∈ v.stackLines, x ∈ w.stackLines ∨ x = l) :
    v.stackLines.length ≤ w.stackLines.length + 1 := by
  have hsub : v.stackLines ⊆ l :: w.stackLines := fun x hx => List.mem_cons.2 (h x hx).symm
  exact (List.subperm_of_subset (nodup_distinct _) hsub).length_le

theorem mem_stackLines {w : Weave} {x : Nat} : x ∈ w.stackLines ↔ ∃ c ∈ w.stack, c.1 / 128 = x := by
  simp [Weave.stackLines, mem_distinct]

@[simp] theorem stackView_spend (s : State) (site cls : Nat) (u : Use) : stackView (spend s site cls u) = stackView s :=
  foldl_keeps stackView _ (fun _ _ => by split <;> rfl) _ s

theorem stackView_giveUpLine (s : State) (site line : Nat) : stackView (giveUpLine s site line) = stackView s := by
  have hsplit : ∀ c, (findCore (giveUpLine s site line) c).split = (findCore s c).split := fun c => by
    have hid : ∀ x : Core, (if x.id.site == site then { x with l1 := x.l1.filter (·.line != line) } else x).id = x.id :=
      fun x => by split <;> rfl
    have hsp : ∀ x : Core, (if x.id.site == site then { x with l1 := x.l1.filter (·.line != line) } else x).split = x.split :=
      fun x => by split <;> rfl
    simp only [findCore, giveUpLine, List.find?_map, Function.comp_def, hid]
    cases s.cores.find? (·.id == c) with
    | none => rfl
    | some x => exact hsp x
  simp only [stackView, Prod.mk.injEq]
  exact ⟨rfl, rfl, rfl, funext hsplit⟩

@[simp] theorem stackView_takeHostLine (s : State) (m : Master) (src attr ia : Nat) (only : Bool) :
    stackView (takeHostLine s m src attr ia only) = stackView s := by
  have hothers : ∀ site line, stackView (othersGiveUp s site line) = stackView s := fun _ _ =>
    foldl_keeps stackView _ (fun b n => stackView_giveUpLine b n _) _ s
  unfold takeHostLine holdLine
  dsimp only
  repeat' split
  · rfl
  · rfl
  · rfl
  · rfl
  · exact hothers ..

/-- t is s but for stack bytes of one line that have come in, and what memory and the caches beside it know of them. -/
structure FillsLine (s t : State) (line : Nat) : Prop where
  view : stackView t = stackView s
  lines : ∀ x ∈ t.weave.stackLines, x ∈ s.weave.stackLines ∨ x = line

theorem FillsLine.put {s t u : State} {line a : Nat} {b : Byte} (h : FillsLine s t line) (hview : stackView u = stackView t)
    (hstack : u.weave.stack = t.weave.stack ++ [(a, b)]) (ha : a / 128 = line) : FillsLine s u line := by
  refine ⟨hview.trans h.view, fun x hx => ?_⟩
  obtain ⟨c, hc, rfl⟩ := mem_stackLines.1 hx
  rw [hstack, List.mem_append, List.mem_singleton] at hc
  rcases hc with hc | rfl
  · exact h.lines _ (mem_stackLines.2 ⟨c, hc, rfl⟩)
  · exact .inr ha

/-- What each successful step of a fold over results keeps, for the elements folded over. -/
theorem foldl_ok_induction_mem {ε α β : Type} (P : β → Prop) {g : Except ε β → α → Except ε β} {xs : List α} {b b' : β}
    (herr : ∀ e a, g (.error e) a = .error e) (hok : ∀ b a b', a ∈ xs → P b → g (.ok b) a = .ok b' → P b')
    (hb : P b) (h : xs.foldl g (.ok b) = .ok b') : P b' := by
  refine List.foldlRecOn (motive := fun r => ∀ c, r = .ok c → P c) xs g (fun c hc => ?_) (fun r hr x hx c hc => ?_) b' h
  · cases hc
    exact hb
  · cases r with
    | error e => cases (herr e x).symm.trans hc
    | ok b => exact hok b x c hx (hr b rfl) hc

theorem fillsLine_fillStack {s t : State} {va n line : Nat} (hline : ∀ k < n, (va + k) / 128 = line)
    (h : fillStack s va n = .ok t) : FillsLine s t line := by
  refine foldl_ok_induction_mem (FillsLine s · line) (fun _ _ => rfl) ?_ ⟨rfl, fun _ hx => .inl hx⟩ h
  intro s1 k b hk hs hb
  have hthis := hline k (List.mem_range.1 hk)
  dsimp only at hb
  repeat' split at hb
  all_goals cases hb
  · exact hs
  · exact hs.put (stackView_takeHostLine ..) (congrArg (·.stack ++ _) (takeHostLine_weave ..)) hthis
  · exact hs.put (stackView_takeHostLine ..) (congrArg (·.stack ++ _) (takeHostLine_weave ..)) hthis
  · exact hs.put rfl rfl hthis

/-- A stack cache that has room spills nothing (R92). -/
theorem trimStacks_of_room {s : State} (h : stackUse s s.team.at_ ≤ (findCore s s.team.at_).split.2.2 * 8) :
    trimStacks s = s := by
  unfold trimStacks trimLoop
  split
  · rfl
  · exact if_pos h

/-! ### Prefetches and memory (R231) -/

/-- What the stack cache takes in for a lane lies in the lane's line. -/
theorem prefetchLane_stack (s : State) {r : Resolved} (hr : r.space = 1) (va : DWord) :
    prefetchLane s r va = s ∨
    ∃ u, FillsLine s u (va.toNat / 128) ∧ u.mem = s.mem ∧ prefetchLane s r va = trimStacks u := by
  unfold prefetchLane
  rw [hr]
  dsimp only
  split
  · exact .inl rfl
  · rw [if_pos (beq_self_eq_true 1)]
    split
    · exact .inl rfl
    · split
      · rename_i u hfill
        obtain ⟨view, lines⟩ := fillsLine_fillStack (line := va.toNat / 128) (by intro k hk; omega) hfill
        exact .inr ⟨u, ⟨view.trans (stackView_spend ..), fun x hx => spend_weave s _ _ _ ▸ lines x hx⟩,
          (fillStack_mem hfill).trans (spend_mem ..), rfl⟩
      · exact .inl rfl

/-- The cache of the issuing team's core has room for n lines more. -/
def StackFits (s : State) (n : Nat) : Prop := stackUse s s.team.at_ + n ≤ (findCore s s.team.at_).split.2.2 * 8

/-- A lane's prefetch writes no memory where the cache has room for its line, which is all that it takes. -/
theorem prefetchLane_of_room {s : State} {r : Resolved} {n : Nat} (hr : r.space = 1) (va : DWord) (h : StackFits s (n + 1)) :
    (prefetchLane s r va).mem = s.mem ∧ StackFits (prefetchLane s r va) n := by
  unfold StackFits at *
  rcases prefetchLane_stack s hr va with hsame | ⟨u, hfills, hmem, htrim⟩
  · rw [hsame]
    exact ⟨rfl, by omega⟩
  · have huse := stackUse_le hfills.view (stackLines_length_le hfills.lines) s.team.at_
    have hview := hfills.view
    simp only [stackView, Prod.mk.injEq] at hview
    obtain ⟨-, hteam, -, hsplit⟩ := hview
    have hfit : stackUse u u.team.at_ + n ≤ (findCore u u.team.at_).split.2.2 * 8 := by
      rw [hteam, congrFun hsplit s.team.at_]
      omega
    rw [htrim, trimStacks_of_room (by omega)]
    exact ⟨hmem, hfit⟩

theorem prefetchLane_mem_of_not_stack (s : State) {r : Resolved} (hr : r.space ≠ 1) (va : DWord) :
    (prefetchLane s r va).mem = s.mem := by
  unfold prefetchLane
  split
  · rfl
  · rw [if_neg (by simpa using hr)]
    exact prefetchLine_mem ..

/-- The lanes of a prefetch, one after another. -/
def prefetchLanes (s : State) (r : Resolved) (lanes : List (Nat × DWord)) : State :=
  lanes.foldl (fun acc x => prefetchLane acc r x.2) s

theorem weaveRegs_prefetchLanes (s : State) (r : Resolved) (lanes : List (Nat × DWord)) :
    weaveRegs (prefetchLanes s r lanes) = weaveRegs s :=
  weaveRegs_foldl (fun b x => weaveRegs_prefetchLane b r x.2)

theorem prefetchLanes_mem {s : State} {r : Resolved} {lanes : List (Nat × DWord)}
    (h : r.space ≠ 1 ∨ StackFits s lanes.length) : (prefetchLanes s r lanes).mem = s.mem := by
  by_cases hr : r.space = 1
  · replace h := h.resolve_left (fun hn => hn hr)
    induction lanes generalizing s with
    | nil => rfl
    | cons x rest ih =>
      obtain ⟨hmem, hfits⟩ := prefetchLane_of_room hr x.2 h
      exact (ih hfits).trans hmem
  · exact mem_foldl fun b x => prefetchLane_mem_of_not_stack b hr x.2

theorem laneAddrs_length_le (m : LaneMask) (addr : Nat → DWord) : (laneAddrs m addr).length ≤ 32 := by
  rw [laneAddrs, List.length_map, lanesOf]
  exact (List.length_filter_le _ _).trans (by simp)

end Sys2Proof.Laws
end

