-- ==== Sys2Proof/Proofs/PrefetchAndResults.lean ====
section
/-!
Settles O32: prefetches, and the results that arrive after their instruction has issued.
-/

namespace Sys2Proof.Laws
open Sys2Proof Sys2Proof.Machine Sys2Proof.Safety

/-! ### `pref` (R231) -/

/-- `pref` completes in the state that its lanes' prefetches leave. -/
theorem pref_completes {s : State} {f : Fields} (h : CanIssue s (.pref f) f) :
    exec (.pref f) s = .next (complete s (rowAt (.pref f)) f s.ply.pc (activeLanes s f)
      (prefetchLanes s (resolve s 0xD1 f) (laneAddrs (activeLanes s f) (addrPlain s f))) [] 0#7 none) := by
  show execPref f s = _
  exact issue_of_regs_nil h rfl rfl rfl

theorem pref_rule {s : State} {f : Fields} (h : CanIssue s (.pref f) f) :
    ∃ t, exec (.pref f) s = .next t ∧ t.ply.pc = afterPc s.ply.pc f ∧
      t.weave.fpflags = s.weave.fpflags ∧ KeepsRegs s t (.pref f) f [] [] [] ∧
      ((resolve s 0xD1 f).space ≠ 1 ∨ stackRoom s → ∀ a, byteAt t a = byteAt s a) := by
  refine ⟨_, pref_completes h, ?_⟩
  have hregs := weaveRegs_prefetchLanes s (resolve s 0xD1 f) (laneAddrs (activeLanes s f) (addrPlain s f))
  have hmem : (resolve s 0xD1 f).space ≠ 1 ∨ stackRoom s → (prefetchLanes s (resolve s 0xD1 f)
      (laneAddrs (activeLanes s f) (addrPlain s f))).mem = s.mem := fun hroom => by
    have hlen := laneAddrs_length_le (activeLanes s f) (addrPlain s f)
    exact prefetchLanes_mem (hroom.imp_right fun hr => by unfold stackRoom at hr; unfold StackFits; omega)
  generalize prefetchLanes s (resolve s 0xD1 f) (laneAddrs (activeLanes s f) (addrPlain s f)) = u at hregs hmem ⊢
  simp only [weaveRegs, Prod.mk.injEq] at hregs
  obtain ⟨hmap, hkregs, hflags⟩ := hregs
  obtain ⟨vector, scalar, masks⟩ := keepsRegs_nil s u (.pref f) f s.ply.pc (activeLanes s f) 0#7 none [] [] []
  refine ⟨(ply_complete ..).1, ?_, ⟨?_, ?_, ?_⟩, fun hroom a => ?_⟩
  · rw [(fpflags_complete ..).1, BitVec.or_zero, hflags]
  · simpa only [vget, hmap] using vector
  · simpa only [sget, hmap] using scalar
  · simpa only [kMask, hkregs] using masks
  · rw [byteAt, complete_mem, hmem hroom, byteAt]

/-! ### Results that are written later (R52, R156) -/

/-- A pending result that is written now: at the cycle of its class, or as a fence whose conditions hold. -/
def written (s : State) (uid windex tag : Nat) (p : Pend) : Bool :=
  p.tag == tag && ((p.timed && p.due ≤ s.clk) || pendingFenceDone s uid windex p)

/-- The weave without its pending results that are written now. -/
def withoutWritten (s : State) (uid windex tag : Nat) (w : Weave) : Weave :=
  { w with pends := w.pends.filter (fun p => !written s uid windex tag p) }

theorem longLatencyResultWrite_rule {s : State} {uid windex : Nat} (tag : Nat) {w : Weave}
    (hw : findWeave (park s) uid windex = some w) :
    ∃ t, exec (.longLatencyResultWrite uid windex tag) s = .next t ∧
      findWeave t uid windex = some (withoutWritten (park s) uid windex tag w) ∧ t.mem = (park s).mem := by
  let u := onWeave (park s) uid windex (withoutWritten (park s) uid windex tag)
  have hu : findWeave u uid windex = some (withoutWritten (park s) uid windex tag w) := by
    rw [findWeave_onWeave_self, hw, Option.map_some]
    exact fun _ => rfl
  refine ⟨if w.pends.any (fun p => written (park s) uid windex tag p && p.fence.isSome) then acquireAt u (coreOf (park s) uid)
    else u, ?_, ?_, ?_⟩
  · show execLongLatencyResultWrite uid windex tag s = _
    simp only [execLongLatencyResultWrite, event, hw, Option.map_some, Option.getD_some]
    rfl
  · split
    · rwa [findWeave_congr (acquireAt_teams ..)]
    · exact hu
  · split
    · exact acquireAt_mem ..
    · rfl

theorem mem_withoutWritten {s : State} {uid windex tag : Nat} {w : Weave} {x : Pend} :
    x ∈ (withoutWritten s uid windex tag w).pends ↔ x ∈ w.pends ∧
      ¬ (x.tag = tag ∧ ((x.timed = true ∧ x.due ≤ s.clk) ∨ pendingFenceDone s uid windex x = true)) := by
  have hnow : written s uid windex tag x = true ↔
      x.tag = tag ∧ ((x.timed = true ∧ x.due ≤ s.clk) ∨ pendingFenceDone s uid windex x = true) := by simp [written]
  rw [withoutWritten, List.mem_filter, Bool.not_eq_true', ← Bool.not_eq_true, hnow]

/-! ### The end of a team (R304) -/

/-- Every resident team under the name has ended. -/
def TeamEnding (s : State) (uid : Nat) : Prop := ∀ u ∈ s.teams, u.uid = uid → u.ending = true

theorem teamEnding_onPly {s : State} {uid : Nat} (h : TeamEnding s uid) (v windex n : Nat) (g : Ply → Ply) :
    TeamEnding (onPly s v windex n g) uid := by
  intro u hu huid
  obtain ⟨x, hx, rfl⟩ := List.mem_map.1 hu
  split at huid
  · rename_i hv
    rw [if_pos hv]
    exact h x hx huid
  · rename_i hv
    rw [if_neg hv]
    exact h x hx huid

theorem teamEnding_divergeLatch {s : State} {uid : Nat} (h : TeamEnding s uid) (site phys : Nat) (hit : Arrival → Bool) :
    TeamEnding (divergeLatch s site phys hit) uid := by
  unfold divergeLatch
  exact List.foldlRecOn (motive := fun b => TeamEnding b uid) _ _ h (fun _ hb _ _ => teamEnding_onPly hb _ _ _ _)

theorem divergeLatch_focused (s : State) (site phys : Nat) (hit : Arrival → Bool) :
    (divergeLatch s site phys hit).focused = s.focused :=
  (foldl_keeps State.focused _ (by exact fun _ _ => rfl) _ _).trans rfl

theorem teamEnding_fatalParked (s : State) (uid : Nat) : TeamEnding (fatalParked s uid) uid := by
  unfold fatalParked
  split
  · rename_i hnone
    intro u hu huid
    exact absurd huid (by simpa using List.find?_eq_none.1 hnone u hu)
  · refine teamEnding_divergeLatch ?_ _ _ _
    intro u hu huid
    have hteams : u ∈ (s.teams.map fun t => if t.uid == uid then { t with ending := true, weaves := t.weaves.map (fun w =>
        { w with plies := [], ended := true, handles := [], loads := [], pends := [] }) } else t) := by
      split at hu <;> exact hu
    obtain ⟨x, hx, rfl⟩ := List.mem_map.1 hteams
    split at huid
    · rename_i hv
      rw [if_pos hv]
    · rename_i hne
      exact absurd huid (by simpa using hne)

theorem fatalParked_focused (s : State) (uid : Nat) : (fatalParked s uid).focused = s.focused := by
  unfold fatalParked
  split
  · rfl
  · refine (divergeLatch_focused ..).trans ?_
    split <;> rfl

/-- An uncorrectable error that is consumed outside a region ends the team (R360). -/
theorem teamEnding_consumeError {s : State} (h : s.weave.region = none) (info : DWord) (ia : Nat) :
    TeamEnding (park (consumeError s info ia)) s.team.uid := by
  have hparked : (consumeError s info ia).focused = false := by
    unfold consumeError fatalTeam
    simp only [h]
    refine (fatalParked_focused ..).trans ?_
    split
    · exact park_focused _
    · exact park_focused _
  rw [park_of_parked hparked]
  unfold consumeError fatalTeam
  simp only [h]
  exact teamEnding_fatalParked _ _

/-! ### What the return of a load leaves alone -/

/-- What a write of registers leaves alone, of what lookups and parking read. -/
def placeView (s : State) : Bool × Team × List Team × Ply × Nat × List Ply × List LoadReq × List Pend :=
  (s.focused, s.team, s.teams, s.ply, s.weave.windex, s.weave.plies, s.weave.loads, s.weave.pends)

theorem placeView_applyWrites (s : State) (ws : List Write) : placeView (applyWrites s ws) = placeView s := by
  have hv : ∀ (b : State) n m vals, placeView (writeV b n m vals) = placeView b := fun b n m vals => by
    unfold writeV
    split
    · dsimp only
      split <;> rfl
    · rfl
  refine foldl_keeps placeView _ (fun b w => ?_) _ _
  cases w with
  | v n m vals => exact hv ..
  | pair n m vals => exact (hv ..).trans (hv ..)
  | s n x =>
    show placeView (writeS b n x) = _
    unfold writeS
    split
    · dsimp only
      split <;> rfl
    · rfl
  | k n m x => rfl

/-- The load has gone into registers: t is s with the load's writes, and with the plies and the rest of the weave in
their places. -/
structure LoadTaken (s t : State) (ws : List Write) : Prop where
  apart : Apart t
  team : t.team.uid = s.team.uid
  windex : t.weave.windex = s.weave.windex
  mask : t.ply.mask = s.ply.mask
  loads : t.weave.loads = s.weave.loads
  pends : t.weave.pends = s.weave.pends
  map : ∃ u, u.weave.map = s.weave.map ∧ t.weave.map = (applyWrites u ws).weave.map
  mem : t.mem = s.mem

theorem loadTaken_returnLoad {s : State} (h : Apart s) (l : LoadReq) : LoadTaken s (returnLoad s l) l.writes := by
  obtain ⟨focused, team, weave, ply⟩ := h
  have hplace : ∀ u : State, placeView (applyWrites u l.writes) = placeView u := fun u => placeView_applyWrites u l.writes
  simp only [placeView, Prod.mk.injEq] at hplace
  unfold returnLoad
  extract_lets codes young keep w0 u v note back
  obtain ⟨hfocused, hteam, hteams, -, hwindex, -, hloads, hpends⟩ := hplace u
  refine ⟨⟨hfocused.trans focused, fun x hx => ?_, fun x hx => ?_, fun x hx => ?_⟩, congrArg Team.uid hteam, hwindex, rfl,
    hloads, hpends, ⟨u, rfl, rfl⟩, applyWrites_mem ..⟩
  · rw [show x ∈ v.teams ↔ x ∈ s.teams by rw [hteams]] at hx
    exact fun e => team x hx (e.trans (congrArg Team.uid hteam))
  · have hx' : x ∈ s.team.weaves := hteam ▸ hx
    exact fun e => weave x hx' (e.trans hwindex)
  · obtain ⟨y, hy, rfl⟩ := List.mem_map.1 hx
    exact ply y hy

/-! ### The registers of a load (R188, R216) -/

/-- What a load returns in one lane, as its type reads it. -/
def loadValue (l : LoadReq) (x : DWord) : DWord := if l.wide then x else (Ty.ofCodeD l.type).extend x.toNat

theorem writes_of_isV {l : LoadReq} (hv : isV l.dst = true) :
    l.writes =
      if l.wide then [.pair l.dst l.mask (tabulate fun i => loadValue l ((l.data.getD i none).getD 0#64))]
      else [.v l.dst l.mask (tabulate fun i =>
        (lane (tabulate fun i => loadValue l ((l.data.getD i none).getD 0#64)) i).setWidth 32)] := by
  have hdst : (BitVec.ofNat 8 l.dst).toNat = l.dst := by
    simp only [isV, decide_eq_true_eq] at hv
    rw [BitVec.toNat_ofNat]
    omega
  rw [LoadReq.writes, vecWrite, hdst, hv]
  rfl

/-- The registers of w' are those of w but for the active lanes of a load's destination, which hold what it returns. -/
structure LoadWritten (w w' : Weave) (l : LoadReq) : Prop where
  low : ∀ j < 32, weaveLane w' l.dst j =
    if inMask l.mask j then (loadValue l ((l.data.getD j none).getD 0#64)).setWidth 32 else weaveLane w l.dst j
  high : l.wide = true → ∀ j < 32, inMask l.mask j = true →
    weaveLane w' (l.dst + 1) j = (loadValue l ((l.data.getD j none).getD 0#64)).extractLsb' 32 32
  vector : ∀ n j, n ≠ l.dst → (l.wide = true → n ≠ l.dst + 1) → weaveLane w' n j = weaveLane w n j
  scalar : ∀ n, weaveScalar w' n = weaveScalar w n

theorem LoadWritten.of_map {v v' w w' : Weave} {l : LoadReq} (h : LoadWritten v v' l) (hw : w.map = v.map)
    (hw' : w'.map = v'.map) : LoadWritten w w' l := by
  obtain ⟨low, high, vector, scalar⟩ := h
  simp only [weaveLane, weaveScalar, ← hw, ← hw'] at low high vector scalar
  exact ⟨low, high, vector, scalar⟩

theorem weaveLane_writeV (s : State) (n j : Nat) (m : LaneMask) (vals : LaneVec) (hj : j < 32) :
    weaveLane (writeV s n m vals).weave n j = if inMask m j then lane vals j else weaveLane s.weave n j :=
  vLane_writeV s n j m vals hj

theorem weaveLane_writeV_ne (s : State) (n k j : Nat) (m : LaneMask) (vals : LaneVec) (h : k ≠ n) :
    weaveLane (writeV s n m vals).weave k j = weaveLane s.weave k j := by
  have hget : (writeV s n m vals).weave.map.v.getD k none = s.weave.map.v.getD k none := vget_writeV_ne s n k m vals h
  rw [weaveLane, hget, weaveLane]

theorem weaveScalar_writeV (s : State) (n k : Nat) (m : LaneMask) (vals : LaneVec) :
    weaveScalar (writeV s n m vals).weave k = weaveScalar s.weave k := by
  have hget : (writeV s n m vals).weave.map.s.getD k none = s.weave.map.s.getD k none := sget_writeV s n k m vals
  rw [weaveScalar, hget, weaveScalar]

theorem loadWritten_applyWrites (s : State) {l : LoadReq} (hv : isV l.dst = true) :
    LoadWritten s.weave (applyWrites s l.writes).weave l := by
  rw [writes_of_isV hv]
  cases hw : l.wide with
  | false =>
    refine ⟨fun j hj => ?_, fun h => ?_, fun n j hn _ => weaveLane_writeV_ne _ _ _ _ _ _ hn, fun n => weaveScalar_writeV ..⟩
    · refine (weaveLane_writeV _ _ _ _ _ hj).trans ?_
      rw [lane_tabulate _ hj, lane_tabulate _ hj]
    · cases hw.symm.trans h
  | true =>
    refine ⟨fun j hj => ?_, fun _ j hj hin => ?_, fun n j hn hn' => ?_, fun n => ?_⟩
    · refine (weaveLane_writeV_ne _ _ _ _ _ _ (Nat.ne_of_lt l.dst.lt_succ_self)).trans
        ((weaveLane_writeV _ _ _ _ _ hj).trans ?_)
      rw [lane_tabulate _ hj, lane_tabulate _ hj]
    · refine (weaveLane_writeV _ _ _ _ _ hj).trans ?_
      rw [if_pos hin, lane_tabulate _ hj, lane_tabulate _ hj]
    · exact (weaveLane_writeV_ne _ _ _ _ _ _ (hn' hw)).trans (weaveLane_writeV_ne _ _ _ _ _ _ hn)
    · exact (weaveScalar_writeV ..).trans (weaveScalar_writeV ..)

/-! ### The return of a load (R216, R360) -/

/-- The weave without the load and its pending result. -/
def withoutLoad (tag : Nat) (w : Weave) : Weave :=
  { w with loads := w.loads.filter (·.tag != tag), pends := w.pends.filter (·.tag != tag) }

/-- The ply that takes a load: its own, or the first of the weave where that one is no longer there. -/
def takingPly (w : Weave) (l : LoadReq) : Nat :=
  ((w.plies.find? (·.n == l.ply)).map (·.n)).getD ((w.plies.head?.map (·.n)).getD 0)

theorem find?_takingPly {w : Weave} (l : LoadReq) (h : w.plies ≠ []) :
    ∃ p ∈ w.plies, w.plies.find? (·.n == takingPly w l) = some p := by
  have hmem : ∃ p ∈ w.plies, p.n = takingPly w l := by
    unfold takingPly
    cases hfind : w.plies.find? (·.n == l.ply) with
    | some p => exact ⟨p, List.mem_of_find?_eq_some hfind, rfl⟩
    | none =>
      obtain ⟨p, rest, hps⟩ := List.exists_cons_of_ne_nil h
      exact ⟨p, by simp [hps], by simp [hps]⟩
  obtain ⟨x, hx, hn⟩ := hmem
  obtain ⟨p, hp⟩ := Option.isSome_iff_exists.1
    (List.find?_isSome (p := (·.n == takingPly w l)).2 ⟨x, hx, by simpa using hn⟩)
  exact ⟨p, List.mem_of_find?_eq_some hp, hp⟩

/-- The state in which the ply that takes the load issues, the load and its pending result gone. -/
def loadFocus (q : State) (uid windex tag : Nat) (w : Weave) (l : LoadReq) : State :=
  focusOn (onWeave q uid windex (withoutLoad tag)) uid windex (takingPly w l)

/-- What holds of that state: the ply, weave and team stand apart, under their names. -/
structure LoadFocused (q u : State) (uid windex tag : Nat) (w : Weave) : Prop where
  apart : Apart u
  team : u.team.uid = uid
  windex : u.weave.windex = windex
  mask : u.ply.mask ≠ 0#32
  loads : u.weave.loads = w.loads.filter (·.tag != tag)
  pends : u.weave.pends = w.pends.filter (·.tag != tag)
  map : u.weave.map = w.map
  region : u.weave.region = w.region
  mem : u.mem = q.mem

theorem loadFocused {q : State} {uid windex tag : Nat} {w : Weave} {l : LoadReq} (hq : q.focused = false)
    (hw : findWeave q uid windex = some w) (hplies : w.plies ≠ []) (hmasks : ∀ p ∈ w.plies, p.mask ≠ 0#32) :
    LoadFocused q (loadFocus q uid windex tag w l) uid windex tag w := by
  obtain ⟨p, hp, hfind⟩ := find?_takingPly l hplies
  have hw' : findWeave (onWeave q uid windex (withoutLoad tag)) uid windex = some (withoutLoad tag w) := by
    rw [findWeave_onWeave_self, hw, Option.map_some]
    exact fun _ => rfl
  obtain ⟨t, ht, hwt⟩ := findTeam_of_findWeave hw'
  have hfocus := focusOn_of_found (s := onWeave q uid windex (withoutLoad tag)) hq ht hwt hfind
  have hapart := apart_focusOn (s := onWeave q uid windex (withoutLoad tag)) hq ht hwt hfind
  have hwin : (withoutLoad tag w).windex = windex := by simpa using List.find?_some hwt
  have huid : t.uid = uid := findTeam_uid ht
  rw [loadFocus, hfocus]
  exact ⟨hfocus ▸ hapart, huid, hwin, hmasks p hp, rfl, rfl, rfl, rfl, rfl⟩

/-- What becomes of the state when the ply has the load's data. -/
def loadResult (u : State) (l : LoadReq) : State :=
  match l.bad with
  | some word =>
    park (consumeError u (BitVec.ofNat 64 (4 * word)) (if l.mem then (translate u u.team.ctx (4 * word)).getD 0 else 0))
  | none => park (if l.acquire then acquireAt (returnLoad u l) (returnLoad u l).team.at_ else returnLoad u l)

theorem exec_loadDataReturn {s : State} {uid windex tag : Nat} {w : Weave} {l : LoadReq}
    (hw : findWeave (park s) uid windex = some w) (hplies : w.plies ≠ [])
    (hmasks : ∀ p ∈ w.plies, p.mask ≠ 0#32) (hev : w.evicted = false) (hl : w.loads.find? (·.tag == tag) = some l)
    (hmore : l.more = []) (hdata : ∀ j < 32, inMask l.mask j = true → (l.data.getD j none).isSome = true) :
    exec (.loadDataReturn uid windex tag) s = .next (loadResult (loadFocus (park s) uid windex tag w l) l) := by
  have hfull : l.full = true := by
    simp only [LoadReq.full, hmore, List.isEmpty_nil, Bool.true_and, List.all_eq_true]
    intro j hj
    obtain ⟨hj, hin⟩ := List.mem_filter.1 hj
    exact hdata j (List.mem_range.1 hj) hin
  have hfocused := (loadFocused (l := l) (tag := tag) (park_focused s) hw hplies hmasks).apart.focused
  have hnot : ¬ (!(loadFocus (park s) uid windex tag w l).focused) = true := by simp [hfocused]
  show execLoadDataReturn uid windex tag s = _
  simp only [execLoadDataReturn, event, hw, hl, hfull, hev, Bool.not_true, Bool.or_false, Bool.false_eq_true, if_false]
  exact congrArg _ (if_neg hnot)

/-- Data with an uncorrectable error ends the team outside a region (R360). -/
theorem loadResult_of_bad {u : State} {l : LoadReq} (hbad : l.bad ≠ none) (hregion : u.weave.region = none) :
    TeamEnding (loadResult u l) u.team.uid := by
  obtain ⟨word, hword⟩ := Option.ne_none_iff_exists'.1 hbad
  simp only [loadResult, hword]
  exact teamEnding_consumeError hregion _ _

theorem LoadTaken.acquireAt {s t : State} {ws : List Write} (h : LoadTaken s t ws) (c : CoreId) :
    LoadTaken s (acquireAt t c) ws :=
  ⟨⟨h.apart.focused, h.apart.team, h.apart.weave, h.apart.ply⟩, h.team, h.windex, h.mask, h.loads, h.pends, h.map, h.mem⟩

theorem loadResult_of_good {u : State} {l : LoadReq} (hu : Apart u) (hbad : l.bad = none) :
    ∃ t, loadResult u l = park t ∧ LoadTaken u t l.writes := by
  have htaken := loadTaken_returnLoad hu l
  simp only [loadResult, hbad]
  split
  · exact ⟨_, rfl, htaken.acquireAt _⟩
  · exact ⟨_, rfl, htaken⟩

/-- A complete load writes its destination, is no longer pending, and leaves memory alone (R216). -/
theorem loadDataReturn_of_good {s : State} {uid windex tag : Nat} {w : Weave} {l : LoadReq}
    (hw : findWeave (park s) uid windex = some w) (hplies : w.plies ≠ [])
    (hmasks : ∀ p ∈ w.plies, p.mask ≠ 0#32) (hbad : l.bad = none) (hv : isV l.dst = true) :
    ∃ w', findWeave (loadResult (loadFocus (park s) uid windex tag w l) l) uid windex = some w' ∧
      w'.loads = w.loads.filter (·.tag != tag) ∧ w'.pends = w.pends.filter (·.tag != tag) ∧
      (loadResult (loadFocus (park s) uid windex tag w l) l).mem = (park s).mem ∧ LoadWritten w w' l := by
  have hfocus := loadFocused (l := l) (tag := tag) (park_focused s) hw hplies hmasks
  obtain ⟨t, hresult, htaken⟩ := loadResult_of_good hfocus.apart hbad
  obtain ⟨v, hvmap, htmap⟩ := htaken.map
  have hfound := findWeave_park htaken.apart
  rw [htaken.team, htaken.windex, hfocus.team, hfocus.windex] at hfound
  refine ⟨parkedWeave t, hresult ▸ hfound, htaken.loads.trans hfocus.loads, htaken.pends.trans hfocus.pends, ?_, ?_⟩
  · rw [hresult, park_mem, htaken.mem, hfocus.mem]
  · exact (loadWritten_applyWrites v hv).of_map (hfocus.map.symm.trans hvmap.symm) htmap

/-- Settles O32: prefetches write no register and, while the stack cache has room, no memory; a load's return and a later
result are the update of their weave's entries, the load's with its register writes. -/
theorem prefetchAndResults : Obligations.PrefetchAndResults := by
  unfold Obligations.PrefetchAndResults
  intro s f
  refine ⟨pref_rule, fun uid windex tag w l => ?_, fun uid windex tag w => ?_⟩
  · intro q hw hplies hmasks hev hl hmore hdata
    have hexec := exec_loadDataReturn hw hplies hmasks hev hl hmore hdata
    refine ⟨fun hbad hregion => ⟨_, hexec, ?_⟩, fun hbad hv _ => ?_⟩
    · have hfocus := loadFocused (l := l) (tag := tag) (park_focused s) hw hplies hmasks
      have hend := loadResult_of_bad hbad (hfocus.region.trans hregion)
      rwa [hfocus.team] at hend
    · obtain ⟨w', hw', hloads, hpends, hmem, hwritten⟩ := loadDataReturn_of_good (tag := tag) hw hplies hmasks hbad hv
      refine ⟨_, w', hexec, hw', fun x hx => ?_, fun x hx => ?_, hmem, fun j hj hin x hx => ?_, hwritten.vector,
        hwritten.scalar, fun j hj hin => ?_⟩
      · rw [hloads] at hx
        simpa using (List.mem_filter.1 hx).2
      · rw [hpends] at hx
        simpa using (List.mem_filter.1 hx).2
      · have low := hwritten.low j hj
        have high := fun hwide => hwritten.high hwide j hj hin
        rw [if_pos hin, hx] at low
        rw [hx] at high
        exact ⟨low, high⟩
      · rw [hwritten.low j hj, hin]
        rfl
  · intro q hw
    obtain ⟨t, ht, htw, hmem⟩ := longLatencyResultWrite_rule tag hw
    exact ⟨t, _, ht, htw, fun x => mem_withoutWritten, rfl, hmem⟩

end Sys2Proof.Laws
end

