-- ==== Sys2Proof/Proofs/Floats.lean ====
section
/-!
Settles O21: vector floating-point arithmetic lane by lane, its comparison, and what NaNs and infinities give.
-/

namespace Sys2Proof.Laws
open Sys2Proof Sys2Proof.Machine Sys2Proof.Safety

/-! ### Instructions that compute lane by lane (R152) -/

/-- Flags ORed over the listed lanes are those of the mask's lanes. -/
theorem foldl_lanesOf (m : LaneMask) (fl : Nat → Flags) :
    (lanesOf m).foldl (fun acc j => acc ||| fl j) 0#7 = laneFlags m fl := by
  rw [lanesOf, List.foldl_filter, laneFlags]
  congr 1
  funext acc j
  split <;> simp

/-- The flags that an instruction without an active lane sets are those of its lanes. -/
theorem ite_laneFlags (m : LaneMask) (fl : Nat → Flags) : (if m = 0#32 then 0#7 else laneFlags m fl) = laneFlags m fl := by
  split
  · next h => rw [h, laneFlags_zero]
  · rfl

section Lanewise

variable {s : State} {i : Instr} {f : Fields} {r : Row} {body : Fields → DWord → LaneMask → State → Result}
  (hexec : exec i s = issue i s body) (hf : fieldsOf i = some f) (hr : rowOf i = some r)

include hexec hf hr

/-- An instruction whose effect is `lanewise` delivers the rounded result of each active lane. -/
theorem roundRule_of_lanewise {t : Ty} {op : Nat → Rounded}
    (hbody : body f s.ply.pc (activeLanes s f) s = lanewise f (activeLanes s f) s t op) : RoundRule s i f t op :=
  fun h hroom => hexec ▸ issue_lanewise h hf hr hroom hbody

/-- An instruction that writes a mask ORs in the flags of its active lanes. -/
theorem maskRule_of_lanes {x : LaneMask} {fl : Nat → Flags}
    (hbody : body f s.ply.pc (activeLanes s f) s = whenActive (activeLanes s f) s (Result.regs s
      (maskWrite f.d (activeLanes s f) x) ((lanesOf (activeLanes s f)).foldl (fun acc j => acc ||| fl j) 0#7))) :
    MaskRule s i f x fl := by
  rw [foldl_lanesOf] at hbody
  intro h
  have hdone := issue_mask h hf hr hbody
  rwa [ite_laneFlags, ← hexec] at hdone

end Lanewise

/-- Every operation but the comparison is a rounded result of each active lane. -/
theorem floatArithmetic : Rules.FloatArithmetic := by
  intro s f
  refine ⟨?fadd, ?fsub, ?fmul, ?fma, ?fmin, ?fmax, ?fdiv, ?frcp, ?fsqrt, ?frsq, ?fexp2, ?flog2, ?fsin, ?fcos, ?frnd, ?fscale,
    ?fclass, ?fdot2, ?fcmp⟩
  case fcmp => apply maskRule_of_lanes <;> rfl
  all_goals apply roundRule_of_lanewise <;> rfl

/-! ### NaNs and infinities (R60, R61) -/

section Specials

variable {m : FloatFmt} (r : RndCtx) {x y : Nat}

theorem snanFlag_pair (m : FloatFmt) (x y : Nat) : snanFlag m [x, y] = if m.isSnan x || m.isSnan y then flNv else 0#7 := by
  simp [snanFlag]

theorem fAdd_of_nan (h : (m.val x).isNan = true ∨ (m.val y).isNan = true) : fAdd m r x y = ⟨m.nanCode, snanFlag m [x, y]⟩ :=
  if_pos (by simpa using h)

theorem fMul_of_nan (h : (m.val x).isNan = true ∨ (m.val y).isNan = true) : fMul m r x y = ⟨m.nanCode, snanFlag m [x, y]⟩ :=
  if_pos (by simpa using h)

/-- The sum of opposite infinities is invalid. -/
theorem fAdd_of_opposite_infs (hx : (m.val x).isNan = false) (hy : (m.val y).isNan = false) (hix : (m.val x).isInf = true)
    (hiy : (m.val y).isInf = true) (hs : (m.val x).isNeg ≠ (m.val y).isNeg) : fAdd m r x y = ⟨m.nanCode, flNv⟩ := by
  simp [fAdd, invalid, hx, hy, hix, hiy, hs]

theorem mul_of_zero_of_inf {a b : Machine.Num} (ha : a.isZero = true) (hb : b.isInf = true) : a.mul b = .nan := by
  cases a with
  | nan => cases ha
  | inf => cases ha
  | fin n m e =>
    cases b with
    | nan => cases hb
    | inf k => exact if_pos ha
    | fin => cases hb

theorem not_isNan_of_isZero {a : Machine.Num} (h : a.isZero = true) : a.isNan = false := by
  cases a with
  | nan => cases h
  | inf => rfl
  | fin => rfl

theorem not_isNan_of_isInf {a : Machine.Num} (h : a.isInf = true) : a.isNan = false := by
  cases a with
  | nan => cases h
  | inf => rfl
  | fin => rfl

/-- Zero times an infinity is invalid. -/
theorem fMul_of_zero_of_inf (hx : (m.val x).isZero = true) (hy : (m.val y).isInf = true) : fMul m r x y = ⟨m.nanCode, flNv⟩ := by
  simp [fMul, invalid, not_isNan_of_isZero hx, not_isNan_of_isInf hy, mul_of_zero_of_inf hx hy]

theorem fFma_of_zero_of_inf (hx : (m.val x).isZero = true) (hy : (m.val y).isInf = true) (z : Nat) :
    fFma m r x y z = ⟨m.nanCode, flNv⟩ := by
  simp [fFma, invalid, hx, hy]

end Specials

theorem floatSpecials : Rules.FloatSpecials := by
  intro m r x y
  refine ⟨fun h => ?_, fAdd_of_opposite_infs r, fun hx hy => ⟨fMul_of_zero_of_inf r hx hy, fFma_of_zero_of_inf r hx hy⟩⟩
  rw [fAdd_of_nan r h, fMul_of_nan r h]
  exact ⟨rfl, rfl, snanFlag_pair m x y⟩

/-- Settles O21: each instruction is an operation on the elements of its lanes, and the special operands take the first
branches of those operations. -/
theorem floats : Obligations.Floats := ⟨floatArithmetic, floatSpecials⟩

end Sys2Proof.Laws
end

