-- ==== Sys2Proof/Proofs/LaneSums.lean ====
section
/-!
Sums of lanes in an integer type: the running sum of R208 and the tree of R209 give the wrapped sum of the elements.
-/

namespace Sys2Proof.Laws
open Sys2Proof Sys2Proof.Machine Sys2Proof.Safety

/-! ### Wrapped numbers (R56) -/

theorem low_lt (w x : Nat) : low w x < 2 ^ w := Nat.mod_lt _ (Nat.two_pow_pos w)

theorem low_low (w x : Nat) : low w (low w x) = low w x := Nat.mod_mod _ _

theorem low_of_lt {w x : Nat} (h : x < 2 ^ w) : low w x = x := Nat.mod_eq_of_lt h

theorem wrapNat_lt (w : Nat) (x : Int) : wrapNat w x < 2 ^ w := by
  have hpos : (0 : Int) < (2 ^ w : Nat) := by exact_mod_cast Nat.two_pow_pos w
  have := Int.emod_lt_of_pos x hpos
  have := Int.emod_nonneg x hpos.ne'
  unfold wrapNat
  omega

theorem wrapNat_congr {w : Nat} {x y : Int} (h : x ≡ y [ZMOD (2 ^ w : Nat)]) : wrapNat w x = wrapNat w y :=
  congrArg Int.toNat h

/-- The code of a wrapped number stands for the number. -/
theorem wrapNat_modEq (w : Nat) (x : Int) : (wrapNat w x : Int) ≡ x [ZMOD (2 ^ w : Nat)] := by
  have hne : ((2 ^ w : Nat) : Int) ≠ 0 := by exact_mod_cast (Nat.two_pow_pos w).ne'
  rw [wrapNat, Int.toNat_of_nonneg (Int.emod_nonneg x hne)]
  exact Int.mod_modEq _ _

theorem wrapNat_natCast {w x : Nat} (h : x < 2 ^ w) : wrapNat w (x : Int) = x := by
  rw [wrapNat, ← Int.natCast_emod, Nat.mod_eq_of_lt h, Int.toNat_natCast]

/-- The number of a code, signed or not, is the code up to a multiple of 2^w. -/
theorem intVal_modEq (t : Ty) (x : Nat) : t.intVal x ≡ x [ZMOD (2 ^ t.width : Nat)] := by
  have hlow : ((x % 2 ^ t.width : Nat) : Int) ≡ x [ZMOD (2 ^ t.width : Nat)] := by
    rw [Int.natCast_emod]
    exact Int.mod_modEq _ _
  unfold Ty.intVal signed low
  dsimp only
  split
  · split
    · exact hlow
    · exact (Int.modEq_iff_dvd.2 ⟨1, by ring⟩ : _ ≡ ((x % 2 ^ t.width : Nat) : Int) [ZMOD _]).trans hlow
  · exact hlow

theorem wrapNat_intVal {t : Ty} {x : Nat} (h : x < 2 ^ t.width) : wrapNat t.width (t.intVal x) = x :=
  (wrapNat_congr (intVal_modEq t x)).trans (wrapNat_natCast h)

theorem intVal_wrapNat_modEq (t : Ty) (x : Int) : t.intVal (wrapNat t.width x) ≡ x [ZMOD (2 ^ t.width : Nat)] :=
  (intVal_modEq t _).trans (wrapNat_modEq _ x)

/-- One addition of an integer type is the wrapped sum and sets no flag (R208). -/
theorem addStep_of_not_float {t : Ty} (ht : t.isFloat = false) (f : Fields) (x y : Nat) :
    addStep f t x y = ⟨wrapNat t.width (t.intVal x + t.intVal y), 0#7⟩ := by
  simp [addStep, ht]

theorem snanLanes_of_not_float {t : Ty} (ht : t.isFloat = false) (m : LaneMask) (code : Nat → Nat) :
    snanLanes t m code = 0#7 := by
  simp [snanLanes, ht]

theorem arithElem_of_not_float {t : Ty} (ht : t.isFloat = false) (x : Nat) : arithElem t x = x := by
  simp [arithElem, ht]

theorem not_float_of_int {t : Ty} (h : t.isInt = true) : t.isFloat = false := by
  cases t <;> simp_all [Ty.isInt, Ty.isSigned, Ty.isNatural, Ty.isFloat]

/-! ### The running sum (R208) -/

/-- The running sum of a scan with one element more. -/
def runStep (step : Nat → Nat → Rounded) (x : Nat) : Option Nat → Rounded
  | none => ⟨x, 0#7⟩
  | some y => step y x

theorem scanLanes_cons (step : Nat → Nat → Rounded) (i x : Nat) (xs : List (Nat × Nat)) (run : Option Nat) (fl : Flags)
    (out : List (Nat × Nat)) :
    scanLanes step false ((i, x) :: xs) run fl out =
      scanLanes step false xs (some (runStep step x run).code) (fl ||| (runStep step x run).flags)
        ((i, (runStep step x run).code) :: out) := by
  cases run <;> rfl

/-- The running sum of a scan stands for the number b. -/
def RunsAt (t : Ty) (b : Int) : Option Nat → Prop
  | none => b = 0
  | some y => y = wrapNat t.width b

theorem runStep_of_runsAt {t : Ty} (ht : t.isFloat = false) (f : Fields) {x : Nat} (hx : x < 2 ^ t.width) {b : Int} :
    ∀ {run : Option Nat}, RunsAt t b run → runStep (addStep f t) x run = ⟨wrapNat t.width (b + t.intVal x), 0#7⟩
  | none, hrun => by
    rw [show b = 0 from hrun, zero_add, wrapNat_intVal hx]
    rfl
  | some y, hrun => by
    rw [show y = _ from hrun]
    rw [runStep, addStep_of_not_float ht, wrapNat_congr ((intVal_wrapNat_modEq t b).add_right _)]

theorem sum_filter_le_cons {i j : Nat} {is : List Nat} (v : Nat → Int) (hij : i ≤ j) :
    (((i :: is).filter (· ≤ j)).map v).sum = v i + ((is.filter (· ≤ j)).map v).sum := by
  simp [hij]

/-- The inclusive scan of lanes in ascending order, from a running sum that stands for b. -/
theorem scanLanes_spec {t : Ty} (ht : t.isFloat = false) (f : Fields) (c : Nat → Nat) (hc : ∀ i, c i < 2 ^ t.width)
    {is : List Nat} (his : is.Pairwise (· < ·)) {b : Int} {run : Option Nat} (hrun : RunsAt t b run) (out : List (Nat × Nat)) :
    (scanLanes (addStep f t) false (is.map fun i => (i, c i)) run 0#7 out).2 = 0#7 ∧
    ∀ j, assoc? j (scanLanes (addStep f t) false (is.map fun i => (i, c i)) run 0#7 out).1 =
      if j ∈ is then some (wrapNat t.width (b + ((is.filter (· ≤ j)).map fun i => t.intVal (c i)).sum)) else assoc? j out := by
  induction is generalizing b run out with
  | nil => simp [scanLanes]
  | cons i is ih =>
    obtain ⟨hlt, his⟩ := List.pairwise_cons.1 his
    simp only [List.map_cons, scanLanes_cons, runStep_of_runsAt ht f (hc i) hrun, BitVec.or_zero]
    obtain ⟨hfl, hout⟩ := ih his (b := b + t.intVal (c i)) (run := some (wrapNat t.width (b + t.intVal (c i)))) rfl
      ((i, wrapNat t.width (b + t.intVal (c i))) :: out)
    refine ⟨hfl, fun j => (hout j).trans ?_⟩
    by_cases hj : j ∈ is
    · rw [if_pos hj, if_pos (List.mem_cons_of_mem i hj), sum_filter_le_cons _ (hlt j hj).le, add_assoc]
    · by_cases hij : i = j
      · subst hij
        have hnone : is.filter (· ≤ i) = [] := by simpa using hlt
        rw [if_neg hj, if_pos List.mem_cons_self, sum_filter_le_cons _ le_rfl, hnone]
        simp [assoc?]
      · simp [assoc?, hj, hij, Ne.symm hij]

/-! ### The tree (R209) -/

section Tree

/-- The number that a place of the tree holds; an inactive lane adds nothing. -/
def placeVal (t : Ty) (p : Option Nat) : Int := (p.map t.intVal).getD 0

/-- Two places of a level become one of the next. -/
def joinPlaces (comb : Nat → Nat → Rounded) : Option Nat → Option Nat → Option Nat × Flags
  | none, q => (q, 0#7)
  | p, none => (p, 0#7)
  | some a, some b => (some (comb a b).code, (comb a b).flags)

theorem foldLevel_cons (comb : Nat → Nat → Rounded) (p q : Option Nat) (xs : List (Option Nat)) :
    foldLevel comb (p :: q :: xs) =
      ((joinPlaces comb p q).1 :: (foldLevel comb xs).1, (foldLevel comb xs).2 ||| (joinPlaces comb p q).2) := by
  cases p <;> cases q <;> simp [foldLevel, joinPlaces]

theorem length_foldLevel (comb : Nat → Nat → Rounded) :
    ∀ xs : List (Option Nat), (foldLevel comb xs).1.length = (xs.length + 1) / 2
  | [] => rfl
  | [_] => by simp [foldLevel]
  | p :: q :: xs => by
    rw [foldLevel_cons, List.length_cons, length_foldLevel comb xs]
    simp only [List.length_cons]
    omega

/-- The places of a level hold codes of the type that sum to b. -/
structure SumsTo (t : Ty) (b : Int) (xs : List (Option Nat)) : Prop where
  narrow : ∀ y, some y ∈ xs → y < 2 ^ t.width
  sum : (xs.map (placeVal t)).sum ≡ b [ZMOD (2 ^ t.width : Nat)]

theorem length_foldTree (comb : Nat → Nat → Rounded) {n : Nat} {xs : List (Option Nat)} (fl : Flags) (h : xs.length = 2 ^ n) :
    (foldTree comb n xs fl).1.length = 1 := by
  induction n generalizing xs fl with
  | zero => exact h
  | succ n ih =>
    refine ih _ ?_
    rw [length_foldLevel, h]
    omega

variable {t : Ty}

/-- The one place that is left holds the wrapped sum; without an active lane it holds nothing. -/
theorem SumsTo.head {b : Int} {p : Option Nat} (h : SumsTo t b [p]) : p.getD 0 = wrapNat t.width b := by
  have hsum : wrapNat t.width (placeVal t p) = wrapNat t.width b := wrapNat_congr (by simpa using h.sum)
  rw [← hsum]
  cases p with
  | none => simp [placeVal, wrapNat]
  | some y => exact (wrapNat_intVal (h.narrow y (by simp))).symm

/-- The elements of the lanes of a mask in the places of the tree. -/
theorem sumsTo_lanes (m : LaneMask) {c : Nat → Nat} (hc : ∀ i, c i < 2 ^ t.width) :
    SumsTo t ((lanesOf m).map fun i => t.intVal (c i)).sum
      ((List.range 32).map fun j => if inMask m j then some (c j) else none) := by
  refine ⟨fun y hy => ?_, ?_⟩
  · obtain ⟨j, -, hj⟩ := List.mem_map.1 hy
    split at hj
    · cases hj; exact hc j
    · cases hj
  · rw [lanesOf]
    induction List.range 32 with
    | nil => rfl
    | cons j js ih =>
      by_cases hj : inMask m j = true
      · simpa [hj, placeVal] using ih.add_left (t.intVal (c j))
      · simpa [hj, placeVal] using ih

variable (ht : t.isFloat = false) (f : Fields)

include ht

/-- A place of the next level stands for the sum of its two. -/
theorem joinPlaces_addStep {p q : Option Nat} {xs : List (Option Nat)} (h : ∀ y, some y ∈ p :: q :: xs → y < 2 ^ t.width) :
    (joinPlaces (addStep f t) p q).2 = 0#7 ∧ (∀ y, (joinPlaces (addStep f t) p q).1 = some y → y < 2 ^ t.width) ∧
    placeVal t (joinPlaces (addStep f t) p q).1 ≡ placeVal t p + placeVal t q [ZMOD (2 ^ t.width : Nat)] := by
  cases p with
  | none => exact ⟨rfl, fun y hy => h y (by simp [← hy, joinPlaces]), by simp [joinPlaces, placeVal]⟩
  | some a =>
    cases q with
    | none => exact ⟨rfl, fun y hy => h y (by simp [← hy, joinPlaces]), by simp [joinPlaces, placeVal]⟩
    | some c =>
      simp only [joinPlaces, addStep_of_not_float ht, Option.some.injEq, placeVal, Option.map_some, Option.getD_some]
      exact ⟨trivial, fun y hy => hy ▸ wrapNat_lt _ _, intVal_wrapNat_modEq t _⟩

theorem foldLevel_addStep : ∀ {xs : List (Option Nat)} {b : Int}, SumsTo t b xs →
    (foldLevel (addStep f t) xs).2 = 0#7 ∧ SumsTo t b (foldLevel (addStep f t) xs).1
  | [], _, h => ⟨rfl, h⟩
  | [_], _, h => by simpa [foldLevel] using h
  | p :: q :: xs, b, h => by
    obtain ⟨hfl, hlt, hval⟩ := joinPlaces_addStep ht f h.narrow
    obtain ⟨hfls, hrest⟩ := foldLevel_addStep (xs := xs) ⟨fun y hy => h.narrow y (by simp [hy]), rfl⟩
    rw [foldLevel_cons, hfl, hfls]
    refine ⟨rfl, fun y hy => ?_, ?_⟩
    · exact (List.mem_cons.1 hy).elim (fun e => hlt y e.symm) (hrest.narrow y)
    · have hsum := h.sum
      simp only [List.map_cons, List.sum_cons, ← add_assoc] at hsum ⊢
      exact (hval.add hrest.sum).trans hsum

theorem foldTree_addStep (n : Nat) {xs : List (Option Nat)} {b : Int} (h : SumsTo t b xs) :
    (foldTree (addStep f t) n xs 0#7).2 = 0#7 ∧ SumsTo t b (foldTree (addStep f t) n xs 0#7).1 := by
  induction n generalizing xs with
  | zero => exact ⟨rfl, h⟩
  | succ n ih =>
    obtain ⟨hfl, hlevel⟩ := foldLevel_addStep ht f h
    have hstep : foldTree (addStep f t) (n + 1) xs 0#7 = foldTree (addStep f t) n (foldLevel (addStep f t) xs).1 0#7 :=
      congrArg (foldTree _ n _) ((BitVec.zero_or).trans hfl)
    rw [hstep]
    exact ih hlevel

/-- The tree over all lanes delivers the wrapped sum of the active ones. -/
theorem foldTree_lanes (m : LaneMask) {c : Nat → Nat} (hc : ∀ i, c i < 2 ^ t.width) :
    let fold := foldTree (addStep f t) 5 ((List.range 32).map fun j => if inMask m j then some (c j) else none) 0#7
    fold.2 = 0#7 ∧ (fold.1.headD none).getD 0 = wrapNat t.width ((lanesOf m).map fun i => t.intVal (c i)).sum := by
  intro fold
  obtain ⟨hfl, hsum⟩ := foldTree_addStep ht f 5 (sumsTo_lanes (t := t) m hc)
  obtain ⟨p, hp⟩ : ∃ p, fold.1 = [p] := List.length_eq_one_iff.1 (length_foldTree _ _ (by simp))
  rw [show foldTree _ _ _ _ = fold from rfl, hp] at hsum
  exact ⟨hfl, by rw [hp]; exact hsum.head⟩

end Tree
end Sys2Proof.Laws
end

