-- ==== Sys2Proof/Proofs/Conversions.lean ====
section
/-!
Settles O22: conversions, moves across lanes, and the scans and reductions of every type.
-/

namespace Sys2Proof.Laws
open Sys2Proof Sys2Proof.Machine Sys2Proof.Safety

/-- An instruction whose effect is a vector result that it gives lane by lane. -/
theorem vecDone_of_tabulate {s : State} {i : Instr} {f : Fields} {r : Row} {body : Fields → DWord → LaneMask → State → Result}
    {wide : Bool} {val : Nat → DWord} {fl : Flags} (hexec : exec i s = issue i s body) (hf : fieldsOf i = some f)
    (hr : rowOf i = some r) (hbody : body f s.ply.pc (activeLanes s f) s =
      whenActive (activeLanes s f) s (Result.regs s (vecWrite f.d wide (activeLanes s f) (tabulate val)) fl)) :
    CanIssue s i f → HasRoom s i f (vDest s f wide) →
    ∃ t, exec i s = .next t ∧ VecDone s t i f wide val (if activeLanes s f = 0#32 then 0#7 else fl) := by
  intro h hroom
  obtain ⟨t, ht, hdone⟩ := issue_vec h hf hr hroom hbody
  exact ⟨t, hexec.trans ht, hdone.congr (fun j hj _ => lane_tabulate _ hj) rfl⟩

/-! ### Conversions and moves (R205 to R207) -/

/-- A bitwise result is a rounded one that sets no flag. -/
theorem bitRule_of_roundRule {s : State} {i : Instr} {f : Fields} {res : Nat → Nat}
    (h : RoundRule s i f (tyOf f) fun j => ⟨low (tyOf f).width (res j), 0#7⟩) : BitRule s i f res := h

theorem pack_rule (s : State) (f : Fields) :
    RoundRule s (.pack f) f .n32 (fun j => packLane (tyOf f) (satBit f)
      (if (tyOf f).width = 16 then [single s f .n32 0 j, single s f .n32 1 j]
       else [single s f .n32 0 j, single s f .n32 1 j, single s f .n32 2 j, extSingle s f .n32 j])) := by
  simp only [← beq_iff_eq (a := (tyOf f).width)]
  apply roundRule_of_lanewise <;> rfl

theorem bit_eq_testBit (x i : Nat) : bit x i = x.testBit i := by
  rw [Nat.testBit_eq_decide_div_mod_eq]
  rfl

/-- R207: the lane that the index names, or zero. -/
theorem perm_rule (s : State) (f : Fields) :
    BitRule s (.perm f) f (fun j =>
      if (single s f .n32 1 j).testBit 5 then 0 else elemOf s f (tyOf f) 0 (single s f .n32 1 j % 32)) := by
  have hop : (fun j => (⟨low (tyOf f).width (if (single s f .n32 1 j).testBit 5 then 0
        else elemOf s f (tyOf f) 0 (single s f .n32 1 j % 32)), 0#7⟩ : Rounded)) = fun j =>
      if bit (single s f .n32 1 j) 5 then ⟨0, 0#7⟩ else ⟨elemOf s f (tyOf f) 0 (single s f .n32 1 j % 32), 0#7⟩ := by
    funext j
    rw [bit_eq_testBit]
    split
    · rw [low_of_lt (Nat.two_pow_pos _)]
    · rw [elemOf, low_low]
  apply bitRule_of_roundRule
  rw [hop]
  apply roundRule_of_lanewise <;> rfl

/-! ### Scans (R208) -/

/-- The scan of a source's active lanes: what each of them receives, and the flags. -/
def scanOf (s : State) (f : Fields) : List (Nat × Nat) × Flags :=
  scanLanes (addStep f (tyOf f)) (f.variant == 1#5) ((lanesOf (activeLanes s f)).map fun j => (j, scanned s f j)) none
    (snanLanes (tyOf f) (activeLanes s f) (elemOf s f (tyOf f) 0)) []

theorem lanesOf_zero : lanesOf 0#32 = [] := by simp [lanesOf, inMask]

theorem snanLanes_zero (t : Ty) (code : Nat → Nat) : snanLanes t 0#32 code = 0#7 := by
  simp [snanLanes, lanesOf_zero, snanFlag]

/-- Without an active lane a scan sets no flag. -/
theorem scanOf_flags_of_inactive {s : State} {f : Fields} (h : activeLanes s f = 0#32) : (scanOf s f).2 = 0#7 := by
  rw [scanOf, h, lanesOf_zero, List.map_nil, scanLanes, snanLanes_zero]

theorem lscanAdd_done (s : State) (f : Fields) :
    CanIssue s (.lscanAdd f) f → HasRoom s (.lscanAdd f) f (vDest s f (wideType f)) →
    ∃ u, exec (.lscanAdd f) s = .next u ∧ VecDone s u (.lscanAdd f) f (wideType f)
      (fun j => (tyOf f).extend ((assoc? j (scanOf s f).1).getD 0)) (scanOf s f).2 := by
  have hflags : (if activeLanes s f = 0#32 then 0#7 else (scanOf s f).2) = (scanOf s f).2 := by
    split
    · next hm => exact (scanOf_flags_of_inactive hm).symm
    · rfl
  rw [← hflags]
  apply vecDone_of_tabulate <;> rfl

/-- Lanes are listed in ascending order. -/
theorem lanesOf_pairwise (m : LaneMask) : (lanesOf m).Pairwise (· < ·) := List.pairwise_lt_range.filter _

theorem mem_lanesOf {m : LaneMask} {j : Nat} (hj : j < 32) : j ∈ lanesOf m ↔ inMask m j = true := by
  simp [lanesOf, hj]

theorem scanned_of_not_float {f : Fields} (ht : (tyOf f).isFloat = false) (s : State) (j : Nat) :
    scanned s f j = elemOf s f (tyOf f) 0 j := arithElem_of_not_float ht _

/-- R208: the inclusive scan of an integer type. -/
theorem laneFlags_none (m : LaneMask) : laneFlags m (fun _ => 0#7) = 0#7 := by
  simp [laneFlags]

theorem lscanAdd_rule (s : State) {f : Fields} (hv : f.variant = 0#5) (ht : (tyOf f).isFloat = false) :
    BitRule s (.lscanAdd f) f (fun j => wrapNat (tyOf f).width
      (((lanesOf (activeLanes s f)).filter (· ≤ j)).map fun i => (tyOf f).intVal (elemOf s f (tyOf f) 0 i)).sum) := by
  intro h hroom
  obtain ⟨u, hu, hdone⟩ := lscanAdd_done s f h hroom
  have hscan : scanOf s f = scanLanes (addStep f (tyOf f)) false
      ((lanesOf (activeLanes s f)).map fun j => (j, elemOf s f (tyOf f) 0 j)) none 0#7 [] := by
    simp only [scanOf, hv, snanLanes_of_not_float ht, scanned_of_not_float ht]
    rfl
  obtain ⟨hfl, hout⟩ := scanLanes_spec ht f (elemOf s f (tyOf f) 0) (fun i => low_lt _ _)
    (lanesOf_pairwise (activeLanes s f)) (b := 0) (run := none) rfl []
  rw [← hscan] at hfl hout
  refine ⟨u, hu, hdone.congr (fun j hj hm => ?_) ?_⟩
  · rw [hout j, if_pos ((mem_lanesOf hj).2 hm), zero_add, low_of_lt (wrapNat_lt _ _)]
    rfl
  · rw [hfl, laneFlags_none]

theorem convertAndMove : Rules.ConvertAndMove := by
  intro s f
  refine ⟨?intInt, ?intFloat, ?floatInt, ?narrow, ?widen, ?fp8, pack_rule s f, bitRule_of_roundRule ?unpack, perm_rule s f,
    fun hv ht => lscanAdd_rule s hv ht⟩
  all_goals apply roundRule_of_lanewise <;> rfl

/-! ### Reductions (R209) -/

/-- The tree of a reduction over the active lanes of source A: its last level, and the flags. -/
def lredFold (s : State) (f : Fields) : List (Option Nat) × Flags :=
  foldTree (combStep f (tyOf f)) 5 ((List.range 32).map fun j => if inMask (activeLanes s f) j then some (scanned s f j) else none)
    (snanLanes (tyOf f) (activeLanes s f) (elemOf s f (tyOf f) 0))

/-- What a reduction delivers. -/
def lredValue (s : State) (f : Fields) : DWord := (tyOf f).extend (((lredFold s f).1.headD none).getD 0)

/-- The effect of `lred`: its value in a scalar register, or in each active lane of a vector one. -/
theorem lred_issue (s : State) (f : Fields) : ∃ body, exec (.lred f) s = issue (.lred f) s body ∧
    body f s.ply.pc (activeLanes s f) s = whenActive (activeLanes s f) s (Result.regs s
      (if isS f.d.toNat then sclWrite f.d (lredValue s f)
       else vecWrite f.d (wideType f) (activeLanes s f) (tabulate fun _ => lredValue s f)) (lredFold s f).2) := by
  apply Exists.intro
  apply And.intro <;> rfl

section Complete

variable {s0 s : State} {i : Instr} {f : Fields} {a : DWord} {m : LaneMask} {ws : List Write} {fl : Flags} (fl' : Flags)
  {next : Option DWord}

/-- The registers after an instruction do not depend on the flags that it sets. -/
theorem keepsRegs_complete_of_flags {vs ss ks : List Nat} (h : KeepsRegs s (complete s0 (rowAt i) f a m s ws fl next) i f vs ss ks) :
    KeepsRegs s (complete s0 (rowAt i) f a m s ws fl' next) i f vs ss ks :=
  ⟨fun n hn hne => ((vget_complete ..).trans (vget_complete ..).symm).trans (h.vector n hn hne),
    fun n hn hne => ((sget_complete ..).trans (sget_complete ..).symm).trans (h.scalar n hn hne),
    fun n hne => ((kMask_complete ..).trans (kMask_complete ..).symm).trans (h.masks n hne)⟩

theorem sVal_complete_of_flags (n : Nat) :
    sVal (complete s0 (rowAt i) f a m s ws fl next) n = sVal (complete s0 (rowAt i) f a m s ws fl' next) n := by
  rw [sVal, sVal, sget_complete, sget_complete]

end Complete

/-- An instruction with a scalar result that sets flags. -/
theorem issue_scl_of_flags {s : State} {i : Instr} {f : Fields} {r : Row} {body : Fields → DWord → LaneMask → State → Result}
    {x : DWord} {fl : Flags} (h : CanIssue s i f) (hf : fieldsOf i = some f) (hr : rowOf i = some r)
    (hd : isS f.d.toNat = true) (hm : activeLanes s f ≠ 0#32) (hroom : HasRoom s i f (sDest s f))
    (hbody : body f s.ply.pc (activeLanes s f) s = whenActive (activeLanes s f) s (Result.regs s (sclWrite f.d x) fl)) :
    ∃ t, issue i s body = .next t ∧ GoesOn s t f (afterPc s.ply.pc f) fl ∧ sVal t (f.d.toNat - 0xC0) = x ∧
      KeepsRegs s t i f [] [f.d.toNat - 0xC0] [] := by
  rw [sDest, if_neg hm] at hroom
  have hdone := sclDone_complete s i f x hm
  have hkeeps := hdone.keeps
  rw [if_pos hd] at hkeeps
  refine ⟨_, issue_regs (fl := fl) (next := none) h hf hr hroom (sclWrite_blank f.d x) ?_, goesOn_complete .., ?_,
    keepsRegs_complete_of_flags fl hkeeps⟩
  · rw [hbody, whenActive, if_neg (by simpa using hm)]
    rfl
  · rw [sVal_complete_of_flags 0#7]
    exact hdone.result hd hm

theorem lred_vector {s : State} {f : Fields} (hd : isS f.d.toNat = false) :
    CanIssue s (.lred f) f → HasRoom s (.lred f) f (vDest s f (wideType f)) →
    ∃ u, exec (.lred f) s = .next u ∧ VecDone s u (.lred f) f (wideType f) (fun _ => lredValue s f)
      (if activeLanes s f = 0#32 then 0#7 else (lredFold s f).2) := by
  obtain ⟨body, hexec, hbody⟩ := lred_issue s f
  rw [if_neg (by simp [hd])] at hbody
  exact vecDone_of_tabulate hexec rfl rfl hbody

theorem lred_scalar {s : State} {f : Fields} (hd : isS f.d.toNat = true) (hm : activeLanes s f ≠ 0#32)
    (h : CanIssue s (.lred f) f) (hroom : HasRoom s (.lred f) f (sDest s f)) :
    ∃ u, exec (.lred f) s = .next u ∧ GoesOn s u f (afterPc s.ply.pc f) (lredFold s f).2 ∧
      sVal u (f.d.toNat - 0xC0) = lredValue s f ∧ KeepsRegs s u (.lred f) f [] [f.d.toNat - 0xC0] [] := by
  obtain ⟨body, hexec, hbody⟩ := lred_issue s f
  rw [if_pos hd] at hbody
  rw [hexec]
  exact issue_scl_of_flags h rfl rfl hd hm hroom hbody

/-- Without an active lane nothing is reduced and nothing written (R129). -/
theorem lred_inactive {s : State} {f : Fields} (hm : activeLanes s f = 0#32) :
    DoneRule s (.lred f) f s (afterPc s.ply.pc f) := by
  intro h
  obtain ⟨body, hexec, hbody⟩ := lred_issue s f
  refine ⟨_, hexec.trans (issue_of_regs_nil (u := s) h rfl rfl ?_), done_complete ..⟩
  rw [hbody, whenActive, hm]
  rfl

theorem scansAndFolds : Rules.ScansAndFolds := by
  intro s f
  refine ⟨lscanAdd_done s f, fun hm h => ⟨fun hd hroom => lred_scalar hd hm h hroom, fun hd hroom => ?_⟩, lred_inactive⟩
  obtain ⟨u, hu, hdone⟩ := lred_vector hd h hroom
  exact ⟨u, hu, hdone.congr (fun _ _ _ => rfl) (if_neg hm)⟩

/-- The sum of the active lanes in an integer type sets no flag. -/
theorem lredFold_of_int {s : State} {f : Fields} (hv : f.variant = 0#5) (ht : (tyOf f).isInt = true) :
    (lredFold s f).2 = 0#7 ∧ lredValue s f = (tyOf f).extend (wrapNat (tyOf f).width
      ((lanesOf (activeLanes s f)).map fun i => (tyOf f).intVal (elemOf s f (tyOf f) 0 i)).sum) := by
  have hfloat := not_float_of_int ht
  have hcomb : combStep f (tyOf f) = addStep f (tyOf f) := by
    funext x y
    rw [combStep, hv]
    rfl
  have hfold : lredFold s f = foldTree (addStep f (tyOf f)) 5
      ((List.range 32).map fun j => if inMask (activeLanes s f) j then some (elemOf s f (tyOf f) 0 j) else none) 0#7 := by
    simp only [lredFold, hcomb, snanLanes_of_not_float hfloat, scanned_of_not_float hfloat]
  obtain ⟨hfl, hval⟩ := foldTree_lanes hfloat f (activeLanes s f) (c := elemOf s f (tyOf f) 0) fun i => low_lt _ _
  rw [← hfold] at hfl hval
  exact ⟨hfl, congrArg (tyOf f).extend hval⟩

theorem laneReduction : Rules.LaneReduction := by
  intro s f hv ht h
  obtain ⟨hfl, hval⟩ := lredFold_of_int (s := s) hv ht
  dsimp only
  rw [← hval]
  refine ⟨fun hd hroom => ?_, fun hd hroom => ?_⟩
  · obtain ⟨body, hexec, hbody⟩ := lred_issue s f
    rw [if_pos hd, hfl] at hbody
    rw [hexec]
    exact issue_scl h rfl rfl hroom hbody
  · obtain ⟨u, hu, hdone⟩ := lred_vector hd h hroom
    exact ⟨u, hu, hdone.congr (fun _ _ _ => rfl) (by rw [hfl, ite_self])⟩

/-- Settles O22: conversions and moves lane by lane; scans by induction on the active lanes; reductions by induction on the
levels of the tree. -/
theorem conversionsAndReductions : Obligations.ConversionsAndReductions := ⟨convertAndMove, scansAndFolds, laneReduction⟩

end Sys2Proof.Laws
end

