-- ==== Sys2Proof/Proofs/Arbiter.lean ====
section
/-!
SUPPORT. The arbiter of R248: its choice is the first of the grantable commands that have the highest rank.
-/

namespace Sys2Proof.Laws
open Sys2Proof Sys2Proof.Machine Sys2Proof.Safety

/-- The places of a request table that may be granted, with their commands. -/
def candidates (cmds : List EngCmd) : List (Nat × EngCmd) :=
  ((List.range cmds.length).zip cmds).filter fun (k, e) => grantable cmds k e

theorem mem_candidates {cmds : List EngCmd} {k : Nat} {e : EngCmd} :
    (k, e) ∈ candidates cmds ↔ cmds[k]? = some e ∧ grantable cmds k e = true := by
  have hzip : (k, e) ∈ (List.range cmds.length).zip cmds ↔ cmds[k]? = some e := by
    simp only [List.mem_iff_getElem?, List.getElem?_zip_eq_some]
    constructor
    · rintro ⟨i, hi, he⟩
      obtain ⟨-, rfl⟩ := List.getElem?_eq_some_iff.1 hi
      simpa using he
    · intro he
      obtain ⟨hk, -⟩ := List.getElem?_eq_some_iff.1 he
      exact ⟨k, by simp [hk], he⟩
  simp [candidates, hzip]

/-- The candidates stand in the order of their places. -/
theorem candidates_pairwise (cmds : List EngCmd) : (candidates cmds).Pairwise (·.1 < ·.1) := by
  have hfst : ((List.range cmds.length).zip cmds).map Prod.fst = List.range cmds.length := List.map_fst_zip (by simp)
  have hrange : (((List.range cmds.length).zip cmds).map Prod.fst).Pairwise (· < ·) := by
    rw [hfst]
    exact List.pairwise_lt_range
  exact (List.pairwise_map.1 hrange).filter _

/-- In a list that rises under a key the earlier of two members has the lesser key. -/
theorem idxOf_le_iff_of_pairwise {α : Type} [DecidableEq α] {key : α → Nat} {xs : List α} (h : xs.Pairwise (key · < key ·))
    {x y : α} (hx : x ∈ xs) (hy : y ∈ xs) : xs.idxOf x ≤ xs.idxOf y ↔ key x ≤ key y := by
  have hlt : ∀ {x y : α}, x ∈ xs → y ∈ xs → xs.idxOf x < xs.idxOf y → key x < key y := fun {x y} hx hy hxy => by
    have := List.pairwise_iff_getElem.1 h _ _ (List.idxOf_lt_length_of_mem hx) (List.idxOf_lt_length_of_mem hy) hxy
    simpa using this
  constructor
  · intro hle
    rcases hle.lt_or_eq with hlt' | heq
    · exact (hlt hx hy hlt').le
    · rw [(List.idxOf_inj hx).1 heq]
  · intro hle
    by_contra hgt
    exact absurd (hlt hy hx (by omega)) (by omega)

/-- The better of the choice so far and one more candidate. -/
def betterGrant (acc : Option EngCmd) (x : Nat × EngCmd) : Option EngCmd :=
  match acc with
  | none => some x.2
  | some b => if b.rank < x.2.rank then some x.2 else some b

theorem chooseGrant_eq_foldl (cmds : List EngCmd) : chooseGrant cmds = (candidates cmds).foldl betterGrant none := rfl

/-- The fold of the arbiter keeps the first command of the highest rank. -/
theorem chooseGrant_eq (cmds : List EngCmd) : chooseGrant cmds = ((candidates cmds).argmax (·.2.rank)).map Prod.snd := by
  rw [chooseGrant_eq_foldl, List.argmax]
  refine List.foldl_hom (init := none) (Option.map Prod.snd) fun acc x => ?_
  cases acc with
  | none => rfl
  | some b =>
    simp only [List.argAux, Option.map_some, betterGrant]
    split <;> rfl

/-- R248: highest rank first, then the oldest. -/
theorem chooseGrant_iff (cmds : List EngCmd) (e : EngCmd) : chooseGrant cmds = some e ↔ granted cmds e := by
  rw [chooseGrant_eq, Option.map_eq_some_iff]
  constructor
  · rintro ⟨⟨k, x⟩, hx, rfl⟩
    obtain ⟨hmem, hmax, hfirst⟩ := List.argmax_eq_some_iff.1 hx
    obtain ⟨hk, hg⟩ := mem_candidates.1 hmem
    refine ⟨k, hk, hg, fun j y hy hgy => ?_⟩
    have hjy := mem_candidates.2 ⟨hy, hgy⟩
    rcases (hmax _ hjy).lt_or_eq with hlt | heq
    · exact .inl hlt
    · exact .inr ⟨heq, (idxOf_le_iff_of_pairwise (candidates_pairwise cmds) hmem hjy).1 (hfirst _ hjy heq.ge)⟩
  · rintro ⟨k, hk, hg, hbest⟩
    have hmem := mem_candidates.2 ⟨hk, hg⟩
    refine ⟨(k, e), List.argmax_eq_some_iff.2 ⟨hmem, fun x hx => ?_, fun x hx hle => ?_⟩, rfl⟩
    · obtain ⟨hj, hgj⟩ := mem_candidates.1 hx
      have := hbest _ _ hj hgj
      dsimp only
      omega
    · obtain ⟨hj, hgj⟩ := mem_candidates.1 hx
      have := hbest _ _ hj hgj
      exact (idxOf_le_iff_of_pairwise (candidates_pairwise cmds) hmem hx).2 (by dsimp only at *; omega)

end Sys2Proof.Laws
end

