-- ==== Sys2Proof/Proofs/EngineSteps.lean ====
section
/-!
The steps of the matrix engine (R248 to R250): grants, promotions, and the ends of passes and transfers.
-/

namespace Sys2Proof.Laws
open Sys2Proof Sys2Proof.Machine Sys2Proof.Safety

/-! ### The launches an engine works for (R363) -/

theorem noteEngine_keeps {γ : Type} (p : State → γ) (hp : ∀ s key g, p (onLaunch s key g) = p s) (s : State) (site phys : Nat)
    (e : EngCmd) : p (noteEngine s site phys e) = p s := by
  refine foldl_keeps p _ (fun u o => ?_) _ _
  dsimp only
  split
  · exact hp ..
  · rfl

@[simp] theorem noteEngine_clusters (s : State) (site phys : Nat) (e : EngCmd) : (noteEngine s site phys e).clusters = s.clusters :=
  noteEngine_keeps State.clusters (fun _ _ _ => rfl) s site phys e

@[simp] theorem noteEngine_teams (s : State) (site phys : Nat) (e : EngCmd) : (noteEngine s site phys e).teams = s.teams :=
  noteEngine_keeps State.teams (fun _ _ _ => rfl) s site phys e

@[simp] theorem noteEngine_focused (s : State) (site phys : Nat) (e : EngCmd) : (noteEngine s site phys e).focused = s.focused :=
  noteEngine_keeps State.focused (fun _ _ _ => rfl) s site phys e

/-! ### The engine event of a weave (R249) -/

@[simp] theorem updWeave_clusters (s : State) (uid windex : Nat) (f : Weave → Weave) :
    (updWeave s uid windex f).clusters = s.clusters := by
  unfold updWeave; repeat' split
  all_goals rfl

@[simp] theorem updWeave_focused (s : State) (uid windex : Nat) (f : Weave → Weave) :
    (updWeave s uid windex f).focused = s.focused := by
  unfold updWeave; repeat' split
  all_goals rfl

@[simp] theorem engineEvent_clusters (s : State) (uid windex : Nat) : (engineEvent s uid windex).clusters = s.clusters := by
  unfold engineEvent; split <;> simp

@[simp] theorem engineEvent_focused (s : State) (uid windex : Nat) : (engineEvent s uid windex).focused = s.focused := by
  unfold engineEvent; split <;> simp

theorem findTeam_congr {s u : State} (h : u.teams = s.teams) (uid : Nat) : findTeam u uid = findTeam s uid := by
  unfold findTeam; rw [h]

section Parked

variable {s : State} (hp : s.focused = false)

include hp

/-- The weaves of a parked state after an engine event: the one that it concerns has it. -/
theorem findWeave_engineEvent (uid windex u v : Nat) : findWeave (engineEvent s uid windex) u v =
    (findWeave s u v).map fun w => if u = uid ∧ v = windex then { w with evEngine := true } else w := by
  unfold engineEvent
  rw [peekTeam_of_parked hp]
  split
  · rw [updWeave_of_parked hp]
    exact findWeave_onWeave s uid windex u v _ fun _ => rfl
  · next hnone =>
    have hsame : findWeave { s with launches := s.launches.map fun l => { l with suspended := l.suspended.map fun x =>
        if x.uid == uid then { x with evEngine := distinct (x.evEngine ++ [windex]) } else x } } u v = findWeave s u v :=
      findWeave_congr (s := s) rfl u v
    rw [hsame]
    by_cases huv : u = uid ∧ v = windex
    · have habsent : findWeave s u v = none := by
        rw [findWeave, huv.1, Option.not_isSome_iff_eq_none.1 hnone, Option.bind_none]
      rw [habsent, Option.map_none]
    · simp [huv]

/-- The reservations of a team are the same after an engine event. -/
theorem resns_engineEvent (uid windex u : Nat) :
    (findTeam (engineEvent s uid windex) u).map Team.resns = (findTeam s u).map Team.resns := by
  unfold engineEvent
  split
  · rw [updWeave_of_parked hp, findTeam_onWeave, Option.map_map]
    congr 1
    funext t
    dsimp only [Function.comp]
    split <;> rfl
  · exact congrArg (Option.map Team.resns) (findTeam_congr (s := s) rfl u)

end Parked

/-- The engine events of the weaves that posted a command. -/
def engineEvents (s : State) (owners : List (Nat × Nat)) : State := owners.foldl (fun acc (u, w) => engineEvent acc u w) s

theorem engineEvents_clusters (s : State) (owners : List (Nat × Nat)) : (engineEvents s owners).clusters = s.clusters :=
  foldl_keeps State.clusters _ (fun _ _ => engineEvent_clusters ..) _ _

theorem resns_engineEvents (owners : List (Nat × Nat)) {s : State} (hp : s.focused = false) (u : Nat) :
    (findTeam (engineEvents s owners) u).map Team.resns = (findTeam s u).map Team.resns := by
  induction owners generalizing s with
  | nil => rfl
  | cons o owners ih =>
    exact (ih (s := engineEvent s o.1 o.2) (by simpa using hp)).trans (resns_engineEvent hp ..)

/-- An engine event that a weave has stays. -/
theorem evEngine_engineEvents_of_set (owners : List (Nat × Nat)) {s : State} (hp : s.focused = false) {u v : Nat}
    (h : ∀ w, findWeave s u v = some w → w.evEngine = true) :
    ∀ w, findWeave (engineEvents s owners) u v = some w → w.evEngine = true := by
  induction owners generalizing s with
  | nil => exact h
  | cons o owners ih =>
    refine ih (s := engineEvent s o.1 o.2) (by simpa using hp) fun w hw => ?_
    rw [findWeave_engineEvent hp] at hw
    obtain ⟨x, hx, rfl⟩ := Option.map_eq_some_iff.1 hw
    split
    · rfl
    · exact h x hx

/-- Every weave that posted the command has the event. -/
theorem evEngine_engineEvents {owners : List (Nat × Nat)} {s : State} (hp : s.focused = false) :
    ∀ o ∈ owners, ∀ w, findWeave (engineEvents s owners) o.1 o.2 = some w → w.evEngine = true := by
  induction owners generalizing s with
  | nil => exact fun o ho => absurd ho List.not_mem_nil
  | cons x owners ih =>
    intro o ho
    have hp' : (engineEvent s x.1 x.2).focused = false := by simpa using hp
    rcases List.mem_cons.1 ho with rfl | ho
    · refine evEngine_engineEvents_of_set owners hp' fun w hw => ?_
      rw [findWeave_engineEvent hp] at hw
      obtain ⟨y, -, rfl⟩ := Option.map_eq_some_iff.1 hw
      rw [if_pos ⟨rfl, rfl⟩]
    · exact ih hp' o ho

/-! ### The completion of a command (R249) -/

section Complete

variable {s : State} (hp : s.focused = false) (site phys : Nat) (e : EngCmd)

/-- The state in which a command's entry is free and its released reservations are gone, before the events. -/
def entryFreed (s : State) (site phys : Nat) (e : EngCmd) : State :=
  freeReleased (onCluster (noteEngine s site phys e) site phys fun c => { c with cmds := c.cmds.filter (·.id != e.id) })
    e.uid site phys

theorem completeCmd_eq (s : State) (site phys : Nat) (e : EngCmd) :
    completeCmd s site phys e = engineEvents (entryFreed s site phys e) e.owners := rfl

@[simp] theorem updTeam_clusters (s : State) (uid : Nat) (f : Team → Team) : (updTeam s uid f).clusters = s.clusters := by
  unfold updTeam; split <;> rfl

@[simp] theorem updTeam_focused (s : State) (uid : Nat) (f : Team → Team) : (updTeam s uid f).focused = s.focused := by
  unfold updTeam; split <;> rfl

theorem entryFreed_focused : (entryFreed s site phys e).focused = s.focused := by
  simp [entryFreed, freeReleased]

/-- The command is out of the table. -/
theorem cmds_completeCmd :
    (findCluster (completeCmd s site phys e) site phys).cmds = (findCluster s site phys).cmds.filter (·.id != e.id) := by
  rw [completeCmd_eq, findCluster_congr (engineEvents_clusters ..), entryFreed, freeReleased,
    findCluster_congr (updTeam_clusters ..), findCluster_onCluster, if_pos ⟨rfl, rfl⟩,
    findCluster_congr (noteEngine_clusters ..)]
  exact fun _ => ⟨rfl, rfl⟩

include hp

theorem resns_completeCmd (u : Nat) :
    (findTeam (completeCmd s site phys e) u).map Team.resns = (findTeam s u).map Team.resns := by
  rw [completeCmd_eq, resns_engineEvents _ (by rw [entryFreed_focused, hp]), entryFreed, freeReleased,
    updTeam_of_parked (by simpa using hp), findTeam_onTeams, Option.map_map, findTeam_congr (s := s) (by simp)]
  · congr 1
    funext t
    dsimp only [Function.comp]
    split <;> rfl
  · exact fun _ => rfl

theorem evEngine_completeCmd :
    ∀ o ∈ e.owners, ∀ w, findWeave (completeCmd s site phys e) o.1 o.2 = some w → w.evEngine = true :=
  evEngine_engineEvents ((entryFreed_focused ..).trans hp)

end Complete

/-! ### Reservations with new contents -/

theorem getD_map_none {α : Type} (g : Option α → Option α) (hg : g none = none) (xs : List (Option α)) (h : Nat) :
    (xs.map g).getD h none = g (xs.getD h none) := by
  simp only [List.getD_eq_getElem?_getD, List.getElem?_map]
  cases xs[h]? with
  | none => exact hg.symm
  | some x => rfl

/-- The reservation of a handle after it took new contents. -/
theorem resns_setRes {s : State} {uid h : Nat} {team : Team} {r r' : Resn} (hp : s.focused = false)
    (hteam : findTeam s uid = some team) (hr : team.resns.getD h none = some r) (hid : r'.id = r.id) :
    ∃ rs, (findTeam (setRes s uid r') uid).map Team.resns = some rs ∧ rs.getD h none = some r' := by
  rw [setRes, updTeam_of_parked hp, findTeam_onTeams, hteam]
  · refine ⟨_, rfl, ?_⟩
    beta_reduce
    rw [if_pos rfl]
    refine (getD_map_none (Option.map fun x : Resn => if x.id == r'.id then r' else x) rfl team.resns h).trans ?_
    rw [hr, Option.map_some, hid, beq_self_eq_true, if_pos rfl]
  · exact fun _ => rfl

@[simp] theorem setRes_clusters (s : State) (uid : Nat) (r : Resn) : (setRes s uid r).clusters = s.clusters := updTeam_clusters ..

@[simp] theorem setRes_focused (s : State) (uid : Nat) (r : Resn) : (setRes s uid r).focused = s.focused := updTeam_focused ..

/-- A command completes after the reservation of a handle took new contents (R249, R250). -/
theorem completeCmd_setRes {s : State} {h : Nat} {team : Team} {r r' : Resn} {e : EngCmd} (hp : s.focused = false)
    (hteam : findTeam s e.uid = some team) (hr : team.resns.getD h none = some r) (hid : r'.id = r.id) (site phys : Nat) :
    let t := completeCmd (setRes s e.uid r') site phys e
    t.mem = s.mem ∧ (findCluster t site phys).cmds = (findCluster s site phys).cmds.filter (·.id != e.id) ∧
    (∃ u, findTeam t e.uid = some u ∧ u.resns.getD h none = some r') ∧
    ∀ o ∈ e.owners, ∀ w, findWeave t o.1 o.2 = some w → w.evEngine = true := by
  intro t
  have hp' : (setRes s e.uid r').focused = false := by simpa using hp
  obtain ⟨rs, hrs, hget⟩ := resns_setRes hp hteam hr hid
  rw [← resns_completeCmd hp' site phys e] at hrs
  obtain ⟨u, hu, rfl⟩ := Option.map_eq_some_iff.1 hrs
  refine ⟨by simp [t], ?_, ⟨u, hu, hget⟩, evEngine_completeCmd hp' site phys e⟩
  rw [cmds_completeCmd, findCluster_congr (setRes_clusters ..)]

/-! ### Grants and promotions (R244, R248) -/

section Grant

variable {q : State} {site phys : Nat} {e : EngCmd}

/-- With no command waiting for an entry the table stays as it is. -/
theorem findCluster_fillTable (h : (findCluster q site phys).waiting = []) :
    findCluster (fillTable q site phys) site phys = findCluster q site phys := by
  rw [fillTable, findCluster_onCluster, if_pos ⟨rfl, rfl⟩]
  · split
    · rfl
    · rw [h]
      simp only [List.take_nil, List.drop_nil, List.append_nil]
      rw [← h]
  · intro c
    dsimp only
    split <;> exact ⟨rfl, rfl⟩

/-- A grant of the chosen command, where no team is leaving. -/
theorem exec_engineGrant {s : State} (hscan : (findCluster (park s) site phys).scan ≠ .quarantined)
    (hwait : (findCluster (park s) site phys).waiting = []) (hleave : ∀ t ∈ (park s).teams, t.leaving = none)
    (he : chooseGrant (findCluster (park s) site phys).cmds = some e) :
    exec (.engineGrant site phys) s = .next (noteEngine (grantCmd (fillTable (park s) site phys) site phys e) site phys e) := by
  have hstay : ∀ x : EngCmd, (fillTable (park s) site phys).teams.any (fun t =>
      t.leaving.isSome && (t.uid == x.uid || x.owners.any (·.1 == t.uid))) = false := fun x =>
    List.any_eq_false.2 fun t ht => by simp [hleave t ht]
  have hscan' : ((findCluster (park s) site phys).scan == .quarantined) = false := by simpa using hscan
  show execEngineGrant site phys s = _
  simp only [execEngineGrant, event, findCluster_fillTable hwait, hscan', hstay, Bool.false_eq_true, if_false, Bool.not_false,
    Bool.or_true, List.filter_true, he]

/-- A command that reads no gather list starts. -/
theorem grantCmd_of_no_list (hlist : e.glist = none) (hop : e.op ≠ .obgath) :
    grantCmd q site phys e = setCmd q site phys { e with started := true } := by
  simp [grantCmd, hlist, hop]

theorem grantCmd_of_list (hop : e.op = .obgath) : grantCmd q site phys e = completeCmd q site phys e := by
  simp [grantCmd, hop]

theorem cmds_setCmd : (findCluster (setCmd q site phys e) site phys).cmds =
    (findCluster q site phys).cmds.map fun x => if x.id = e.id then e else x := by
  rw [setCmd, findCluster_onCluster, if_pos ⟨rfl, rfl⟩]
  · simp only [beq_iff_eq]
  · exact fun _ => ⟨rfl, rfl⟩

/-- R248: a command that has waited 16,384 cycles ranks highest. -/
theorem commandAgePromotion_rule (s : State) (site phys id : Nat) :
    ∃ t, exec (.commandAgePromotion site phys id) s = .next t ∧ t.mem = (park s).mem ∧
      (findCluster t site phys).cmds = (findCluster (park s) site phys).cmds.map fun e =>
        if e.id = id ∧ e.started = false ∧ e.posted + 16384 ≤ (park s).cyc then { e with promoted := true } else e := by
  refine ⟨_, rfl, rfl, ?_⟩
  rw [findCluster_onCluster, if_pos ⟨rfl, rfl⟩]
  · simp only [Bool.and_eq_true, beq_iff_eq, Bool.not_eq_true', decide_eq_true_eq, and_assoc]
  · exact fun _ => ⟨rfl, rfl⟩

end Grant

/-! ### Passes and transfers (R250, R253) -/

theorem writeAcc_id (r : Resn) (t : TileRef) (new : List ((Nat × Nat) × Nat)) : (writeAcc r t new).id = r.id := rfl

theorem passResult_id (e : EngCmd) (rd ra rb : Resn) : (passResult e rd ra rb).id = rd.id := by
  unfold passResult
  dsimp only
  split <;> rfl

theorem zeroAcc_id (r : Resn) : (zeroAcc r).id = r.id := by
  unfold zeroAcc
  dsimp only
  rw [foldl_keeps Resn.id]
  exact fun _ _ => rfl

theorem findRes_id {s : State} {uid id : Nat} {r : Resn} (h : findRes s uid id = some r) : r.id = id := by
  obtain ⟨t, -, ht⟩ := Option.bind_eq_some_iff.1 h
  simpa using List.find?_some ht

/-- The end of a pass without poison. -/
theorem endPass_of_clean {s : State} {site phys : Nat} {e : EngCmd} {rd ra : Resn} (hrd : findRes s e.uid e.rd = some rd)
    (hra : (e.source.orElse fun _ => findRes s e.uid e.ra) = some ra)
    (hbad : passBad e rd ra ((findRes s e.uid e.rb).getD ra) = false) :
    endPass s site phys e =
      completeCmd (setRes s e.uid (passResult e rd ra ((findRes s e.uid e.rb).getD ra))) site phys e := by
  simp only [endPass, hrd, hra, hbad, Bool.false_eq_true, if_false]

section Transfer

variable {s : State} {site phys : Nat} {e : EngCmd} {r : Resn} (hr : findRes s e.uid e.rd = some r)

include hr

theorem endTransfer_accZero (hop : e.op = .accZero) :
    endTransfer s site phys e = completeCmd (setRes s e.uid (zeroAcc r)) site phys e := by
  simp [endTransfer, hr, hop]

/-- A transfer from the scratchpad is one piece. -/
theorem endTransfer_obload (hop : e.op = .obload) (hsp : e.sp = true) (hlen : e.depth ≠ 0#64) (hpos : e.pos = 0)
    {team : Team} (hp : s.focused = false) (hteam : findTeam s e.uid = some team) :
    ∃ u, endTransfer s site phys e = completeCmd (setRes u e.uid (r.put (e.b.extractLsb' 32 32).toNat
        (cellReadN team.scratch e.a.toNat e.depth.toNat) (teamScratchBad s e.uid e.a.toNat e.depth.toNat))) site phys
        { e with pos := 1 } ∧ ∃ ts sites, u = { s with lineTs := ts, sites := sites } := by
  obtain ⟨ts, sites, hread⟩ := readScratch_eq s e.uid e.a.toNat e.depth.toNat
  have hsame : findRes { s with lineTs := ts, sites := sites } e.uid e.rd = some r := hr
  have hbytes : teamScratch s e.uid e.a.toNat e.depth.toNat = cellReadN team.scratch e.a.toNat e.depth.toNat := by
    rw [teamScratch, peekTeam_of_parked hp, hteam]
    rfl
  refine ⟨_, ?_, ts, sites, rfl⟩
  simp [endTransfer, transferPieces, runPieces, obloadPiece, hr, hop, hsp, hlen, hpos, hread, hsame, hbytes]

end Transfer

theorem matrixEngine : Rules.MatrixEngine := by
  intro s site phys q c cl
  have hp : q.focused = false := park_focused s
  refine ⟨chooseGrant_iff, fun hscan hwait hleave e he hlist hop => ?_, fun hscan hwait hleave e he hop => ?_,
    commandAgePromotion_rule s site phys, fun e team h rd ra he hteam hget hrd hra hbad => ?_,
    fun e team h r he hteam hget hr hop => ?_⟩
  · refine ⟨_, exec_engineGrant hscan hwait hleave he, by simp [fillTable, q], ?_⟩
    dsimp only [cl]
    rw [findCluster_congr (noteEngine_clusters ..), grantCmd_of_no_list hlist hop, cmds_setCmd, findCluster_fillTable hwait]
  · refine ⟨_, exec_engineGrant hscan hwait hleave he, by simp [fillTable, q], ?_⟩
    dsimp only [cl]
    rw [findCluster_congr (noteEngine_clusters ..), grantCmd_of_list hop, cmds_completeCmd, findCluster_fillTable hwait]
  · have hexec : exec (.matrixPassEnd site phys) s = .next (endPass q site phys e) := by
      show execMatrixPassEnd site phys s = _
      simp only [execMatrixPassEnd, event]
      rw [he]
    obtain ⟨hmem, hcmds, ⟨u, hu, hnew⟩, hev⟩ := completeCmd_setRes hp hteam hget (passResult_id e rd ra _) site phys
    exact ⟨_, u, hexec.trans (congrArg _ (endPass_of_clean hrd hra hbad)), hmem, hcmds, hu, hnew, hev⟩
  · have hexec : exec (.transferEnd site phys) s = .next (endTransfer q site phys e) := by
      show execTransferEnd site phys s = _
      simp only [execTransferEnd, event]
      rw [he]
    rcases hop with hop | ⟨hop, hsp, hlen, hpos⟩
    · obtain ⟨hmem, hcmds, ⟨u, hu, hnew⟩, hev⟩ := completeCmd_setRes hp hteam hget (zeroAcc_id r) site phys
      rw [if_pos hop]
      exact ⟨_, u, hexec.trans (congrArg _ (endTransfer_accZero hr hop)), hmem, hcmds, hu, hnew, hev⟩
    · obtain ⟨v, hend, ts, sites, rfl⟩ := endTransfer_obload (site := site) (phys := phys) hr hop hsp hlen hpos hp hteam
      obtain ⟨hmem, hcmds, ⟨u, hu, hnew⟩, hev⟩ := completeCmd_setRes (s := { q with lineTs := ts, sites := sites })
        (e := { e with pos := 1 }) hp hteam hget (r' := r.put _ _ _) rfl site phys
      rw [if_neg (by simp [hop])]
      exact ⟨_, u, hexec.trans (congrArg _ hend), hmem, hcmds, hu, hnew, hev⟩

end Sys2Proof.Laws
end

