-- ==== Sys2Proof/Proofs/MatrixProduct.lean ====
section
/-!
Settles O37: the classical product of R75, R76, R251 and R252, and with it the work of the matrix engine.
-/

namespace Sys2Proof.Laws
open Sys2Proof Sys2Proof.Machine Sys2Proof.Safety

/-! ### Little-endian numbers in stored bytes (R10) -/

theorem ofBytes_toBytes (n x : Nat) : ofBytes (toBytes n x) = x % 256 ^ n := by
  induction n generalizing x with
  | zero => simp [toBytes, ofBytes, Nat.mod_one]
  | succ n ih =>
    have hcons : toBytes (n + 1) x = BitVec.ofNat 8 x :: toBytes n (x / 256) := by
      simp only [toBytes, List.range_succ_eq_map, List.map_cons, List.map_map, Nat.mul_zero, Nat.pow_zero, Nat.div_one]
      congr 2
      funext k
      rw [Function.comp_apply, Nat.div_div_eq_div_mul, Nat.mul_succ, Nat.pow_add, Nat.mul_comm (2 ^ (8 * k))]
    rw [hcons, ofBytes, ih, BitVec.toNat_ofNat, Nat.pow_succ' (m := 256), Nat.mod_mul (a := 256)]

theorem length_toBytes (n x : Nat) : (toBytes n x).length = n := by simp [toBytes]

section Cells

variable {m : List Host.Cell} (hm : cellsWf m = true) (n a x : Nat)

include hm

/-- A number reads back as written, cut to its bytes. -/
theorem cellNat_write_same : cellNat (cellWriteN m a (toBytes n x)) a n = x % 256 ^ n := by
  rw [cellNat, ← ofBytes_toBytes]
  congr 1
  refine List.ext_getElem (by simp [cellReadN, toBytes]) fun k hk _ => ?_
  have hkn : k < n := by simpa [cellReadN] using hk
  simp [cellReadN, cellRead_cellWriteN hm, hkn, toBytes]

/-- A number apart from a write stays. -/
theorem cellNat_write_apart {b : Nat} (h : b + n ≤ a ∨ a + n ≤ b) : cellNat (cellWriteN m a (toBytes n x)) b n = cellNat m b n := by
  rw [cellNat, cellNat]
  congr 1
  refine List.map_congr_left fun k hk => ?_
  rw [List.mem_range] at hk
  rw [cellRead_cellWriteN hm, length_toBytes, if_neg (by omega)]

end Cells

/-! ### Elements of an accumulator (R95, R96) -/

theorem writeAcc_fmt (r : Resn) (t : TileRef) (new : List ((Nat × Nat) × Nat)) : (writeAcc r t new).fmt = r.fmt := rfl

/-- A line of an accumulator fits into its pitch. -/
theorem lineBytes_le_pitch {r : Resn} (hf : isAccFmt r.fmt = true) (hok : r.recordOk = true) : r.kdim * accBytes r.fmt ≤ r.pitch := by
  have hpitch : ceilDiv (r.kdim * (mfmt r.fmt).elem.width) 8 ≤ r.pitch := by
    simp only [Resn.recordOk, Bool.and_eq_true, decide_eq_true_eq] at hok
    exact hok.1.1.1.2
  have hwidth : (mfmt r.fmt).elem.width = 8 * accBytes r.fmt := by
    simp only [isAccFmt, Bool.or_eq_true, beq_iff_eq] at hf
    rcases hf with (((h | h) | h) | h) | h <;> rw [h] <;> rfl
  rw [hwidth, ceilDiv, Nat.mul_left_comm] at hpitch
  omega

/-- The position lies in the accumulator. -/
def Within (r : Resn) (t : TileRef) (p : Nat × Nat) : Prop := t.lor + p.1 < r.nlines ∧ t.kor + p.2 < r.kdim

/-- Two elements of an accumulator do not share a byte. -/
theorem accOff_apart {r : Resn} (hline : r.kdim * accBytes r.fmt ≤ r.pitch) {t : TileRef} {p p' : Nat × Nat}
    (hp : Within r t p) (hp' : Within r t p') (hne : p ≠ p') :
    accOff r t p.1 p.2 + accBytes r.fmt ≤ accOff r t p'.1 p'.2 ∨ accOff r t p'.1 p'.2 + accBytes r.fmt ≤ accOff r t p.1 p.2 := by
  have hend : ∀ k < r.kdim, k * accBytes r.fmt + accBytes r.fmt ≤ r.pitch := fun k hk =>
    (Nat.succ_mul k _ ▸ Nat.mul_le_mul_right _ hk : k * accBytes r.fmt + accBytes r.fmt ≤ r.kdim * accBytes r.fmt).trans hline
  have hnext : ∀ n {k l : Nat}, k < l → k * n + n ≤ l * n := fun n {k l} hkl => Nat.succ_mul k n ▸ Nat.mul_le_mul_right n hkl
  have he := hend _ hp.2
  have he' := hend _ hp'.2
  unfold accOff
  rcases Nat.lt_trichotomy p.1 p'.1 with hlt | heq | hlt
  · have := hnext r.pitch (Nat.add_lt_add_left hlt t.lor)
    omega
  · rw [heq]
    rcases Nat.lt_trichotomy p.2 p'.2 with hlt | heq' | hlt
    · have := hnext (accBytes r.fmt) (Nat.add_lt_add_left hlt t.kor)
      omega
    · exact absurd (Prod.ext heq heq') hne
    · have := hnext (accBytes r.fmt) (Nat.add_lt_add_left hlt t.kor)
      omega
  · have := hnext r.pitch (Nat.add_lt_add_left hlt t.lor)
    omega

/-- The element at a position after new codes at others: its own new code, or the old one. -/
theorem accCode_writeAcc {r : Resn} (hline : r.kdim * accBytes r.fmt ≤ r.pitch) (hwf : cellsWf r.data = true) {t : TileRef}
    {els : List (Nat × Nat)} (hels : ∀ p ∈ els, Within r t p) (g : Nat × Nat → Nat) {p : Nat × Nat} (hp : Within r t p) :
    accCode (writeAcc r t (els.map fun q => (q, g q))) t p.1 p.2 =
      if p ∈ els then g p % 256 ^ accBytes r.fmt else accCode r t p.1 p.2 := by
  have key : ∀ m : List Host.Cell, cellsWf m = true →
      cellNat ((els.map fun q => (q, g q)).foldl (fun m x => cellWriteN m (accOff r t x.1.1 x.1.2) (toBytes (accBytes r.fmt) x.2)) m)
        (accOff r t p.1 p.2) (accBytes r.fmt) =
      if p ∈ els then g p % 256 ^ accBytes r.fmt else cellNat m (accOff r t p.1 p.2) (accBytes r.fmt) := by
    induction els with
    | nil => intro m _; rfl
    | cons q els ih =>
      intro m hm
      rw [List.map_cons, List.foldl_cons, ih (fun x hx => hels x (List.mem_cons_of_mem q hx)) _ (wf_cellWriteN hm _ _)]
      by_cases hin : p ∈ els
      · rw [if_pos hin, if_pos (List.mem_cons_of_mem q hin)]
      · rw [if_neg hin]
        by_cases hpq : p = q
        · subst hpq
          rw [if_pos List.mem_cons_self, cellNat_write_same hm]
        · rw [if_neg (by simp [hpq, hin]),
            cellNat_write_apart hm _ _ _ (accOff_apart hline hp (hels q List.mem_cons_self) hpq)]
  exact key r.data hwf

/-! ### The classical product (R75, R251, R252) -/

theorem mem_admitted {r : Resn} {t : TileRef} {n : Nat} {rows cols : DWord} {p : Nat × Nat} :
    p ∈ admitted r t n rows cols ↔ p.1 < n ∧ p.2 < n ∧ rows.getLsbD p.1 = true ∧ cols.getLsbD p.2 = true ∧ Within r t p := by
  obtain ⟨i, j⟩ := p
  simp only [admitted, List.mem_flatMap, List.mem_range, Within]
  constructor
  · rintro ⟨i', hi, h⟩
    split at h
    · next hrow =>
      obtain ⟨j', hj, hcol⟩ := List.mem_filterMap.1 h
      split at hcol
      · next hc =>
        cases hcol
        simp only [Bool.and_eq_true, decide_eq_true_eq, List.mem_range] at hrow hc hj
        exact ⟨hi, hj, hrow.1, hc.1, hrow.2, hc.2⟩
      · cases hcol
    · cases h
  · rintro ⟨hi, hj, hrow, hcol, hl, hk⟩
    refine ⟨i, hi, ?_⟩
    rw [if_pos (by simp [hrow, hl])]
    exact List.mem_filterMap.2 ⟨j, List.mem_range.2 hj, if_pos (by simp [hcol, hk])⟩

theorem getD_map_range {α : Type} (d : α) (g : Nat → α) {n i : Nat} (h : i < n) : ((List.range n).map g).getD i d = g i := by
  simp [h]

/-- The products of a row and a column of two windows. -/
theorem lineProducts_map (k n : Nat) (g h : Nat → Nat → Machine.Num) {i j : Nat} (hi : i < n) (hj : j < n) :
    lineProducts k ((List.range n).map fun i => (List.range n).map (g i)) ((List.range n).map fun j => (List.range n).map (h j)) i j =
      (List.range n).map fun x => product k (g i x) (h j x) := by
  rw [lineProducts, getD_map_range _ _ hi, getD_map_range _ _ hj, List.zip_map', List.map_map]
  rfl

/-- A position of depth that the mask and both sources admit. -/
def depthAdmitted (ra rb : Resn) (ta tb : TileRef) (depth : DWord) (k : Nat) : Bool :=
  depth.getLsbD k && ta.kor + k < ra.kdim && tb.kor + k < rb.kdim

/-- A row and a column that their masks and their sources admit. -/
def rowAdmitted (ra : Resn) (ta : TileRef) (rows : DWord) (i : Nat) : Bool := rows.getLsbD i && ta.lor + i < ra.nlines
def colAdmitted (rb : Resn) (tb : TileRef) (cols : DWord) (j : Nat) : Bool := cols.getLsbD j && tb.lor + j < rb.nlines

section Product

variable (rd ra rb : Resn) (td ta tb : TileRef) (n : Nat) (rows cols depth : DWord) (mode : Mode)

/-- The elements that a multiplication writes. -/
def productEls : List (Nat × Nat) :=
  (admitted rd td n rows cols).filter fun (i, j) => rowAdmitted ra ta rows i && colAdmitted rb tb cols j

/-- The new code of a written element: its old one and the products of its row and column, chunk by chunk. -/
def newCode (p : Nat × Nat) : Nat :=
  accumulate rd.fmt mode (pairRow ra.fmt).2 (accCode rd td p.1 p.2) (lineProducts (splitOf ra.fmt rb.fmt)
    (ra.window ta n (rowAdmitted ra ta rows) (depthAdmitted ra rb ta tb depth)) (rb.window tb n (colAdmitted rb tb cols) (depthAdmitted ra rb ta tb depth))
    p.1 p.2)

theorem mmResult_classical : mmResult rd ra rb none [] td ta tb n rows cols depth mode false =
    writeAcc rd td ((productEls rd ra rb td ta tb n rows cols).map fun p => (p, newCode rd ra rb td ta tb n rows cols depth mode p)) := rfl

variable {rd ra rb td ta tb n rows cols depth}

theorem mem_productEls {p : Nat × Nat} : p ∈ productEls rd ra rb td ta tb n rows cols ↔
    p.1 < n ∧ p.2 < n ∧ rows.getLsbD p.1 = true ∧ cols.getLsbD p.2 = true ∧ td.lor + p.1 < rd.nlines ∧ td.kor + p.2 < rd.kdim ∧
      ta.lor + p.1 < ra.nlines ∧ tb.lor + p.2 < rb.nlines := by
  simp only [productEls, List.mem_filter, mem_admitted, Within, rowAdmitted, colAdmitted, Bool.and_eq_true, decide_eq_true_eq]
  tauto

/-- A written element takes up the products along depth, a masked or outside position counting as +0. -/
theorem newCode_of_mem {p : Nat × Nat} (hp : p ∈ productEls rd ra rb td ta tb n rows cols) {x y : Nat → Machine.Num}
    (hin : ∀ k < n, depthAdmitted ra rb ta tb depth k = true →
      x k = ra.value (ta.lor + p.1) (ta.kor + k) ∧ y k = rb.value (tb.lor + p.2) (tb.kor + k))
    (hout : ∀ k < n, depthAdmitted ra rb ta tb depth k = false → x k = Machine.Num.zero ∧ y k = Machine.Num.zero) :
    newCode rd ra rb td ta tb n rows cols depth mode p = accumulate rd.fmt mode (pairRow ra.fmt).2 (accCode rd td p.1 p.2)
      ((List.range n).map fun k => product (splitOf ra.fmt rb.fmt) (x k) (y k)) := by
  obtain ⟨hi, hj, hrow, hcol, -, -, hla, hlb⟩ := mem_productEls.1 hp
  rw [newCode, Resn.window, Resn.window, lineProducts_map _ _ _ _ hi hj]
  congr 1
  refine List.map_congr_left fun k hk => ?_
  rw [List.mem_range] at hk
  cases hdep : depthAdmitted ra rb ta tb depth k with
  | true =>
    obtain ⟨hx, hy⟩ := hin k hk hdep
    simp only [depthAdmitted, Bool.and_eq_true, decide_eq_true_eq] at hdep
    simp [rowAdmitted, colAdmitted, hrow, hcol, hla, hlb, hdep, hx, hy]
  | false =>
    obtain ⟨hx, hy⟩ := hout k hk hdep
    simp [hx, hy]

end Product

theorem matrixProduct : Rules.MatrixProduct := by
  intro rd ra rb td ta tb n rows cols depth mode hf hok hwf r dep inside
  have hcode : ∀ i j, Within rd td (i, j) → accCode r td i j =
      if (i, j) ∈ productEls rd ra rb td ta tb n rows cols
      then newCode rd ra rb td ta tb n rows cols depth mode (i, j) % 256 ^ accBytes rd.fmt else accCode rd td i j := fun i j hij =>
    accCode_writeAcc (lineBytes_le_pitch hf hok) hwf (fun p hp => by
      obtain ⟨-, -, -, -, hl, hk, -⟩ := mem_productEls.1 hp
      exact ⟨hl, hk⟩) _ hij
  have hdep : ∀ k, depthAdmitted ra rb ta tb depth k = true ↔ dep k := fun k => by
    simp only [depthAdmitted, dep, Bool.and_eq_true, decide_eq_true_eq, and_assoc]
  refine ⟨fun i j hin x y hxy => ?_, fun i j hout hl hk => ?_⟩
  · have hw : (i, j) ∈ productEls rd ra rb td ta tb n rows cols := mem_productEls.2 hin
    obtain ⟨-, -, -, -, hl, hk, -⟩ := mem_productEls.1 hw
    rw [hcode i j ⟨hl, hk⟩, if_pos hw]
    congr 1
    exact newCode_of_mem mode hw (fun k hk h => (hxy k hk).1 ((hdep k).1 h))
      fun k hk h => (hxy k hk).2 fun hd => by simp [(hdep k).2 hd] at h
  · rw [hcode i j ⟨hl, hk⟩, if_neg fun hw => hout (mem_productEls.1 hw)]

/-- Settles O37: the arbiter's fold, the completion of a command as one lemma for passes and transfers, and the write of
elements that share no byte. -/
theorem matrixWork : Obligations.MatrixWork := ⟨matrixEngine, matrixProduct⟩

end Sys2Proof.Laws
end

