-- ==== Sys2Proof/Proofs/HostPorts.lean ====
section
/-!
Settles O59: host accesses through decoders, the links of host ports, and lines granted and snooped.
-/

namespace Sys2Proof.Laws
open Sys2Proof Sys2Proof.Machine Sys2Proof.Safety

/-! ### Folds and logs without effect -/

theorem foldl_of_fixed {α β : Type} {g : β → α → β} {xs : List α} {b : β} (h : ∀ a ∈ xs, g b a = b) : xs.foldl g b = b := by
  induction xs with
  | nil => rfl
  | cons x rest ih =>
    rw [List.foldl_cons, h x List.mem_cons_self]
    exact ih fun a ha => h a (List.mem_cons_of_mem x ha)

/-- Where every log is empty, so is that of the core that a lookup gives, listed or not. -/
theorem findCore_log_of_nil {s : State} (h : ∀ c ∈ s.cores, c.log = []) (id : CoreId) : (findCore s id).log = [] := by
  unfold findCore
  cases hfind : s.cores.find? (·.id == id) with
  | none => rfl
  | some c => exact h c (List.mem_of_find?_eq_some hfind)

theorem pumpLogs_of_logs_nil {s : State} (h : ∀ c ∈ s.cores, c.log = []) : pumpLogs s = s :=
  foldl_of_fixed fun c _ => by
    unfold pumpLog
    rw [findCore_log_of_nil h]
    rfl

theorem abortLog_of_logs_nil {s : State} (h : ∀ c ∈ s.cores, c.log = []) (site : Nat) (core : CoreId) :
    abortLog s site core = s := by
  simp [abortLog, findCore_log_of_nil h]

/-! ### Failing accesses wait in an entry (R348) -/

/-- The waiter stands in a pending entry of the fault kind. -/
def WaitsFor (s : State) (kind : Nat) (w : Waiter) : Prop := ∃ p ∈ s.pendings, p.kind = kind ∧ w ∈ p.waiters

theorem waitsFor_joinPending {s : State} {e : Failure} {r : Requester} {w : Waiter} {k : Nat × Nat}
    (h : (joinPending s e r w).2 = some k) : WaitsFor (joinPending s e r w).1 e.kind w := by
  unfold joinPending at h ⊢
  dsimp only at h ⊢
  split at h
  · rename_i p hfind
    have hsame := List.find?_some hfind
    refine ⟨_, List.mem_map_of_mem (List.mem_of_find?_eq_some hfind), ?_⟩
    simp only [hsame, if_true]
    simp only [Bool.and_eq_true, beq_iff_eq] at hsame
    refine ⟨hsame.2, ?_⟩
    split
    · rename_i hin; simpa using hin
    · simp
  · split at h
    · cases h
    · exact ⟨_, List.mem_append_right _ (List.mem_singleton_self _), rfl, List.mem_singleton_self _⟩

theorem waitsFor_holdPending (s : State) (e : Failure) (r : Requester) (w : Waiter) :
    WaitsFor (holdPending s e r w).1 e.kind w := by
  unfold holdPending
  split
  · rename_i s1 k hjoin
    have h := waitsFor_joinPending (k := k) (congrArg Prod.snd hjoin)
    rwa [hjoin] at h
  · exact ⟨_, List.mem_append_right _ (List.mem_singleton_self _), rfl, List.mem_singleton_self _⟩

/-- A failing access moves nothing but the entries and the fault queue. -/
theorem joinPending_keeps {γ : Type} (p : State → γ) (hp : ∀ s ps fs, p { s with pendings := ps, faultQ := fs } = p s)
    (s : State) (e : Failure) (r : Requester) (w : Waiter) : p (joinPending s e r w).1 = p s := by
  unfold joinPending
  dsimp only
  split
  · exact hp s _ s.faultQ
  · split
    · rfl
    · exact hp s _ _

theorem mem_setAcc (s : State) (a : Acc) : a ∈ (setAcc s a).accs := by
  have hreplace : ∀ xs : List Acc, xs.any (·.id == a.id) = true → a ∈ replaceFirst (·.id == a.id) (fun _ => a) xs := by
    intro xs h
    induction xs with
    | nil => cases h
    | cons x rest ih =>
      unfold replaceFirst
      split
      · exact List.mem_cons_self
      · rename_i hx
        exact List.mem_cons_of_mem x (ih (by simpa [hx] using h))
  unfold setAcc
  dsimp only
  split
  · rename_i h; exact hreplace _ h
  · exact List.mem_append_right _ (List.mem_singleton_self a)

section Fault

variable {s : State} {a : Acc}

/-- A load or an atomic that fails at its home: it joins an entry, or stands where it is. -/
theorem faultAccess_eq (hw : a.writes = false) (e : Failure) :
    faultAccess s a e = setAcc (joinPending s e (a.requester s) (.acc a.id)).1 { a with
      stage := if (joinPending s e (a.requester s) (.acc a.id)).2.isSome then .fault else .full s.cyc, since := s.cyc } := by
  unfold faultAccess
  rw [if_neg (by simp [hw])]

theorem faultAccess_hostUp (hw : a.writes = false) (e : Failure) : (faultAccess s a e).hostUp = s.hostUp := by
  rw [faultAccess_eq hw]
  exact joinPending_keeps State.hostUp (fun _ _ _ => rfl) s e _ _

/-- It waits in an entry, or, where the table is full, for one. -/
theorem faultAccess_waits (hw : a.writes = false) (e : Failure) :
    WaitsFor (faultAccess s a e) e.kind (.acc a.id) ∨
      ∃ b ∈ (faultAccess s a e).accs, b.id = a.id ∧ b.stage = .full s.cyc := by
  rw [faultAccess_eq hw]
  cases hjoin : (joinPending s e (a.requester s) (.acc a.id)).2 with
  | some k => exact .inl (waitsFor_joinPending hjoin)
  | none => exact .inr ⟨_, mem_setAcc .., rfl, rfl⟩

end Fault

/-! ### Accesses of a host (R342, R395) -/

/-- The request of a host through a decoder, as it enters the module. -/
def hostRequest (q : State) (port ctx ia n : Nat) (write : Bool) (bytes : List Byte) : HostReq :=
  { id := q.nextId, port := port, ctx := ctx, ia := ia, n := n, write := write, bytes := bytes }

/-- The state with a new request in it. -/
def withRequest (q : State) (r : HostReq) : State := { q with nextId := q.nextId + 1, hostReqs := q.hostReqs ++ [r] }

/-- The request that entered last takes its new value. -/
theorem setHostReq_of_last {u : State} {rs : List HostReq} {r r' : HostReq} (hu : u.hostReqs = rs ++ [r]) (hid : r'.id = r.id)
    (hnew : ∀ y ∈ rs, y.id ≠ r.id) : setHostReq u r' = { u with hostReqs := rs ++ [r'] } := by
  have hold : rs.map (fun x => if x.id == r'.id then r' else x) = rs := by
    conv_rhs => rw [← List.map_id rs]
    exact List.map_congr_left fun y hy => by simp [hid, hnew y hy]
  unfold setHostReq
  rw [hu, List.map_append, hold]
  simp [hid]

theorem hostFails_waits (s : State) (r : HostReq) (e : Failure) : WaitsFor (hostFails s r e) e.kind (.host r.id) :=
  waitsFor_holdPending s e _ _

section Access

variable {s : State} {port dec off n : Nat} {write : Bool} {bytes : List Byte}

theorem hostCxlMemAccess_refused (h : 4 ≤ port ∨ 4 ≤ dec ∨ (if write then bytes.length else n) = 0 ∨
      128 < (((findSite (park s) (hostPortSites.getD port 24)).hdxia.getD dec 0#64).toNat + off) % 128 +
        (if write then bytes.length else n) ∨ portUp (park s) port = false) :
    exec (.hostCxlMemAccess port dec off n write bytes) s = .next (park s) :=
  congrArg _ (if_pos (by simpa [or_assoc] using h))

variable (hport : port < 4) (hdec : dec < 4) (hup : portUp (park s) port = true)
variable {ia : Nat} (hia : ((findSite (park s) (hostPortSites.getD port 24)).hdxia.getD dec 0#64).toNat + off = ia)
variable {ctx : Nat} (hctx : ((findSite (park s) (hostPortSites.getD port 24)).hdxctx.getD dec 0#64).toNat = ctx)
variable {len : Nat} (hlen : (if write then bytes.length else n) = len) (hpos : 0 < len) (hline : ia % 128 + len ≤ 128)
include hport hdec hup hia hctx hlen hpos hline

/-- A request through a decoder of another node waits for service. -/
theorem hostCxlMemAccess_of_other_node (hnode : iaNode ia ≠ s.wafer) :
    exec (.hostCxlMemAccess port dec off n write bytes) s = .next (hostFails
      (withRequest (park s) (hostRequest (park s) port ctx ia len write bytes)) (hostRequest (park s) port ctx ia len write bytes)
      ⟨hostPortSites.getD port 24, 5, 0, ia⟩) := by
  subst hia hctx hlen
  refine congrArg Host.Outcome.next ((if_neg ?_).trans (if_pos (by simpa using hnode)))
  simp only [hup, Bool.or_eq_true, decide_eq_true_eq, beq_iff_eq, Bool.not_true, Bool.false_eq_true, or_false]
  omega

/-- A request through a decoder of this module goes to its home; a page without HB takes no line from an agent. -/
theorem hostCxlMemAccess_of_own_node (hnode : iaNode ia = s.wafer)
    (hattr : (place (park s) (hostMaster port ctx) (if write then rightW else rightR) (hostPortSites.getD port 24) ia).1.attr ≠ 3) :
    exec (.hostCxlMemAccess port dec off n write bytes) s = .next (serveHost
      (withRequest (park s) (hostRequest (park s) port ctx ia len write bytes))
      (hostRequest (park s) port ctx ia len write bytes)) := by
  subst hia hctx hlen
  refine congrArg Host.Outcome.next ((if_neg ?_).trans ((if_neg (by simpa using hnode)).trans
    (congrArg (serveHost · _) (if_neg (by simpa using hattr)))))
  simp only [hup, Bool.or_eq_true, decide_eq_true_eq, beq_iff_eq, Bool.not_true, Bool.false_eq_true, or_false]
  omega

end Access

section Serve

variable {v u : State} {r : HostReq}

theorem serveHost_of_read {bs : List Byte} {bad : Bool} (hdone : r.done = false) (hnode : iaNode r.ia = v.wafer)
    (hflip : flipping v r.ctx r.ia = false) (hread : r.write = false)
    (hget : masterGet v (hostMaster r.port r.ctx) (hostPortSites.getD r.port 24) r.ia r.n = .ok (u, bs, bad)) :
    serveHost v r = setHostReq u { r with done := true, fid := none, bytes := bs, err := bad } := by
  simp only [serveHost, hdone, hnode, hflip, hread, hget, bne_self_eq_false, Bool.false_eq_true, if_false]

theorem serveHost_of_write (hdone : r.done = false) (hnode : iaNode r.ia = v.wafer)
    (hflip : flipping v r.ctx r.ia = false) (hwrite : r.write = true)
    (hput : masterPut v (hostMaster r.port r.ctx) (hostPortSites.getD r.port 24) r.ia r.bytes false = .ok u) :
    serveHost v r = setHostReq u { r with done := true, fid := none } := by
  simp only [serveHost, hdone, hnode, hflip, hwrite, hput, bne_self_eq_false, Bool.false_eq_true, if_false, if_true]

end Serve

/-! ### Links (R396) -/

theorem portUp_set (s : State) (port p : Nat) (x : Bool) (h : port < s.hostUp.length) :
    portUp { s with hostUp := s.hostUp.set port x } p = if p = port then x else portUp s p := by
  unfold portUp
  by_cases hp : p = port
  · subst hp; simp [h]
  · simp [List.getD_eq_getElem?_getD, List.getElem?_set_ne (Ne.symm hp), hp]

/-- The names of a port's requests that are not done. -/
def unfinished (q : State) (port : Nat) : List Nat := (q.hostReqs.filter (fun r => r.port == port && !r.done)).map (·.id)

/-- The state without the link of a port and without its unfinished requests. -/
def linkLost (q : State) (port : Nat) : State :=
  { q with
    hostUp := q.hostUp.set port false
    hostReqs := q.hostReqs.filter (fun r => !(unfinished q port).contains r.id)
    pendings := q.pendings.map (fun p => { p with waiters := p.waiters.filter (fun w => match w with
      | .host id => !(unfinished q port).contains id
      | _ => true) }) }

theorem portUp_lt {s : State} {port : Nat} (h : portUp s port = true) : port < s.hostUp.length := by
  by_contra hn
  simp [portUp, List.getD_eq_getElem?_getD, List.getElem?_eq_none (Nat.not_lt.1 hn)] at h

theorem portUp_linkLost {q : State} {port : Nat} (h : portUp q port = true) (p : Nat) :
    portUp (linkLost q port) p = if p = port then false else portUp q p :=
  portUp_set q port p false (portUp_lt h)

theorem hostLinkDown_eq {s : State} {port : Nat} (hport : port < 4) (hup : portUp (park s) port = true)
    (hlogs : ∀ c ∈ (park s).cores, c.log = []) :
    exec (.hostLinkDown port) s = .next (((park s).accs.filter (waitsAtPort (hostPortSites.getD port 24))).foldl
      (fun acc a => faultAccess acc a ⟨if iaNode a.ia == (park s).wafer then iaSite a.ia else a.src, 6, 0, a.ia⟩)
      (linkLost (park s) port)) := by
  have hno : ¬ (decide (4 ≤ port) || !portUp (park s) port) = true := by simp [hup]; omega
  have hlog : ((linkLost (park s) port).cores.map (·.id)).foldl (fun acc c => abortLog acc (hostPortSites.getD port 24) c)
      (linkLost (park s) port) = linkLost (park s) port := 
    foldl_of_fixed fun c _ => abortLog_of_logs_nil (s := linkLost (park s) port) hlogs _ c
  refine congrArg Host.Outcome.next ((if_neg hno).trans ?_)
  exact congrArg (List.foldl _ · _) hlog

theorem hostLinkDown_of_down {s : State} {port : Nat} (h : 4 ≤ port ∨ portUp (park s) port = false) :
    exec (.hostLinkDown port) s = .next (park s) :=
  congrArg _ (if_pos (by simpa using h))

/-- A port that goes down keeps none of its unfinished requests, and every other one. -/
theorem mem_linkLost {q : State} {port : Nat} {r : HostReq} :
    r ∈ (linkLost q port).hostReqs ↔ r ∈ q.hostReqs ∧ ∀ y ∈ q.hostReqs, y.port = port → y.done = false → y.id ≠ r.id := by
  simp only [linkLost, unfinished, List.mem_filter, Bool.not_eq_true', List.contains_eq_mem, decide_eq_false_iff_not, List.mem_map,
    Bool.and_eq_true, beq_iff_eq, not_exists, not_and, and_imp]

/-! ### Host lines (R100, R357) -/

section Lines

variable (line : Nat)

/-- The caching sites of a list give up a host line. -/
def giveUpAll (ns : List Nat) (s : State) : State := ns.foldl (fun acc n => giveUpLine acc n line) s

theorem mem_hbHeld_giveUpAll (ns : List Nat) (s : State) (x : Nat × Nat) :
    x ∈ (giveUpAll line ns s).hbHeld ↔ x ∈ s.hbHeld ∧ ¬ (x.2 = line ∧ x.1 ∈ ns) := by
  induction ns generalizing s with
  | nil => simp [giveUpAll]
  | cons n rest ih =>
    refine (ih (giveUpLine s n line)).trans ?_
    obtain ⟨a, b⟩ := x
    simp [giveUpLine]
    tauto

theorem mem_hbShared_giveUpAll (ns : List Nat) (s : State) (x : Nat × Nat) :
    x ∈ (giveUpAll line ns s).hbShared ↔ x ∈ s.hbShared ∧ ¬ (x.2 = line ∧ x.1 ∈ ns) := by
  induction ns generalizing s with
  | nil => simp [giveUpAll]
  | cons n rest ih =>
    refine (ih (giveUpLine s n line)).trans ?_
    obtain ⟨a, b⟩ := x
    simp [giveUpLine]
    tauto

/-- The core d after sites have given up the line: it has no more copies than before, and none of the line at these sites. -/
structure CoreWithout (ns : List Nat) (d c : Core) : Prop where
  id : c.id = d.id
  log : c.log = d.log
  l1 : ∀ l ∈ c.l1, l ∈ d.l1 ∧ (l.line = line → d.id.site ∉ ns)

theorem coreWithout_giveUpLine (n : Nat) (s : State) :
    ∀ c ∈ (giveUpLine s n line).cores, ∃ d ∈ s.cores, CoreWithout line [n] d c := by
  intro c hc
  obtain ⟨d, hd, rfl⟩ := List.mem_map.1 hc
  refine ⟨d, hd, ?_⟩
  by_cases hn : d.id.site = n
  · simp only [hn, beq_self_eq_true, if_true]
    exact ⟨rfl, rfl, fun l hl => by simp at hl; exact ⟨hl.1, fun h => absurd h hl.2⟩⟩
  · rw [if_neg (by simpa using hn)]
    exact ⟨rfl, rfl, fun l hl => ⟨hl, fun _ => by simpa using hn⟩⟩

theorem coreWithout_giveUpAll (ns : List Nat) (s : State) :
    ∀ c ∈ (giveUpAll line ns s).cores, ∃ d ∈ s.cores, CoreWithout line ns d c := by
  induction ns generalizing s with
  | nil => exact fun c hc => ⟨c, hc, rfl, rfl, fun l hl => ⟨hl, fun _ => by simp⟩⟩
  | cons n rest ih =>
    intro c hc
    obtain ⟨d, hd, hdc⟩ := ih (giveUpLine s n line) c hc
    obtain ⟨e, he, hed⟩ := coreWithout_giveUpLine line n s d hd
    refine ⟨e, he, hdc.id.trans hed.id, hdc.log.trans hed.log, fun l hl => ?_⟩
    obtain ⟨hl1, hrest⟩ := hdc.l1 l hl
    obtain ⟨hl2, hn⟩ := hed.l1 l hl1
    refine ⟨hl2, fun h => ?_⟩
    have h1 := hrest h
    have h2 := hn h
    rw [hed.id] at h1
    simp only [List.mem_cons, List.not_mem_nil, or_false] at h2
    simp [h1, h2]

theorem giveUpAll_keeps {γ : Type} (p : State → γ) (hp : ∀ s n, p (giveUpLine s n line) = p s) (ns : List Nat) (s : State) :
    p (giveUpAll line ns s) = p s :=
  foldl_keeps p _ hp ns s

/-- The other sites that hold a line, for reading or alone. -/
def otherHolders (s : State) (site : Nat) : List Nat :=
  distinct (((s.hbHeld ++ s.hbShared).filter (fun (n, l) => n != site && l == line)).map (·.1))

theorem mem_otherHolders (s : State) (site n : Nat) :
    n ∈ otherHolders line s site ↔ n ≠ site ∧ (n, line) ∈ s.hbHeld ++ s.hbShared := by
  simp [otherHolders, mem_distinct]
  tauto

end Lines

/-- A site that takes a line for writing, which it does not hold, takes it from every other one. -/
theorem holdLine_alone {s : State} {site line : Nat} (h : (site, line) ∉ s.hbHeld) : holdLine s site line false =
    { giveUpAll line (otherHolders line s site) s with
      hbHeld := (giveUpAll line (otherHolders line s site) s).hbHeld ++ [(site, line)]
      hbShared := (giveUpAll line (otherHolders line s site) s).hbShared.filter (· != (site, line)) } := by
  unfold holdLine
  rw [if_neg (by simpa using h), if_neg (by simp)]
  rfl

theorem holdLine_of_held {s : State} {site line : Nat} (h : (site, line) ∈ s.hbHeld) (shared : Bool) :
    holdLine s site line shared = s := if_pos (by simpa using h)

section Grant

variable {s : State} {site line : Nat}

theorem hostLineGrant_eq {shared : Bool} (h : nearestHostPort (park s) site ≠ none) : exec (.hostLineGrant site line shared) s =
    .next (pumpLogs ((park s).accs.foldl (fun acc a => grantAcc acc site line a) (holdLine (park s) site line shared))) :=
  congrArg _ (if_neg (by simpa using h))

/-- Where nothing waits at a port and no log holds an entry, a grant moves the line alone. -/
theorem hostLineGrant_of_quiet {shared : Bool} (h : nearestHostPort (park s) site ≠ none)
    (haccs : ∀ a ∈ (park s).accs, ∀ p, a.stage ≠ .host p) (hlogs : ∀ c ∈ (holdLine (park s) site line shared).cores, c.log = []) :
    exec (.hostLineGrant site line shared) s = .next (holdLine (park s) site line shared) := by
  rw [hostLineGrant_eq h, foldl_of_fixed fun a ha => ?_, pumpLogs_of_logs_nil hlogs]
  unfold grantAcc
  split
  · rename_i p hp; exact absurd hp (haccs a ha p)
  · rfl

/-- An access that has asked at the port of its own site goes on at its home. -/
theorem grantAcc_at_port {u : State} {a : Acc} (hstage : a.stage = .host site) (hasked : a.asked = true) (hsrc : a.src = site)
    (hline : iaLine a.ia = line) : grantAcc u site line a = arriveHome u a := by
  simp [grantAcc, hstage, hasked, hsrc, hline]

/-- After a grant for writing no other site holds the line, and no core of one that held it keeps a copy. -/
theorem hostLineGrant_alone (h : nearestHostPort (park s) site ≠ none)
    (haccs : ∀ a ∈ (park s).accs, ∀ p, a.stage ≠ .host p) (hlogs : ∀ c ∈ (park s).cores, c.log = [])
    (hfree : (site, line) ∉ (park s).hbHeld) :
    ∃ u, exec (.hostLineGrant site line false) s = .next u ∧ (site, line) ∈ u.hbHeld ∧ (site, line) ∉ u.hbShared ∧
      u.mem = (park s).mem ∧ u.teams = (park s).teams ∧ ∀ n, n ≠ site → (n, line) ∉ u.hbHeld ∧ (n, line) ∉ u.hbShared ∧
        ∀ c ∈ u.cores, (n, line) ∈ (park s).hbHeld ++ (park s).hbShared → c.id.site = n → ∀ l ∈ c.l1, l.line ≠ line := by
  have hcores := coreWithout_giveUpAll line (otherHolders line (park s) site) (park s)
  have halone := holdLine_alone hfree
  have hexec := hostLineGrant_of_quiet (line := line) (shared := false) h haccs (by
    rw [halone]
    intro c hc
    obtain ⟨d, hd, hdc⟩ := hcores c hc
    exact hdc.log.trans (hlogs d hd))
  rw [halone] at hexec
  refine ⟨_, hexec, by simp, by simp, giveUpAll_keeps line State.mem (fun _ _ => rfl) _ _,
    giveUpAll_keeps line State.teams (fun _ _ => rfl) _ _, fun n hn => ⟨?_, ?_, ?_⟩⟩
  · simp only [List.mem_append, List.mem_singleton, mem_hbHeld_giveUpAll, mem_otherHolders, Prod.mk.injEq]
    tauto
  · simp only [List.mem_filter, mem_hbShared_giveUpAll, mem_otherHolders, List.mem_append]
    tauto
  · intro c hc hheld hsite l hl hline
    obtain ⟨d, -, hdc⟩ := hcores c hc
    exact (hdc.l1 l hl).2 hline ((mem_otherHolders ..).2 ⟨by rw [← hdc.id, hsite]; exact hn, by rw [← hdc.id, hsite]; exact hheld⟩)

end Grant

theorem hostSnoop_gives_up (s : State) (site line : Nat) :
    exec (.hostSnoop site line false) s = .next (giveUpLine (park s) site line) := rfl

theorem hostSnoop_keeps_shared {s : State} {site line : Nat} (h : (site, line) ∈ (park s).hbHeld) :
    exec (.hostSnoop site line true) s = .next { park s with
      hbHeld := (park s).hbHeld.filter (· != (site, line)), hbShared := (park s).hbShared ++ [(site, line)] } :=
  congrArg Host.Outcome.next (if_pos (by simpa using h))

/-! ### The statement -/

/-- Settles O59: each step of a host is the branch that its hypotheses choose; a failing access waits in an entry, a port that
goes down takes its unfinished requests along, and a line granted alone has been given up by every other site. -/
theorem hostPorts : Obligations.HostPorts := by
  unfold Obligations.HostPorts
  intro s port q site x
  refine ⟨fun dec off n write bytes => ?_, ?_, ?_, hostLinkDown_of_down, ?_, ?_, ?_, ?_, ?_, ?_⟩
  · intro len ia ctx r v e
    refine ⟨hostCxlMemAccess_refused, fun hport hdec hpos hline hup hnode hattr hflip => ?_,
      fun hport hdec hpos hline hup hnode => ?_⟩
    · have hexec := hostCxlMemAccess_of_own_node hport hdec hup rfl rfl rfl hpos hline hnode hattr
      have hown : iaNode r.ia = v.wafer := hnode.trans (park_wafer s).symm
      refine ⟨fun u bs bad hwrite hget hreqs hnew => ?_, fun u hwrite hput hreqs hnew => ?_⟩
      · have hget' : masterGet v (hostMaster r.port r.ctx) (hostPortSites.getD r.port 24) r.ia r.n = .ok (u, bs, bad) := by
          subst hwrite; exact hget
        exact hexec.trans (congrArg _ ((serveHost_of_read rfl hown hflip hwrite hget').trans (setHostReq_of_last hreqs rfl hnew)))
      · exact hexec.trans (congrArg _ ((serveHost_of_write rfl hown hflip hwrite hput).trans (setHostReq_of_last hreqs rfl hnew)))
    · exact ⟨_, hostCxlMemAccess_of_other_node hport hdec hup rfl rfl rfl hpos hline hnode, hostFails_mem _ _ _, hostFails_waits _ _ _⟩
  · intro a hport hup haccs hstage hwrites hlogs
    have hexec := hostLinkDown_eq hport hup hlogs
    have hhit : (park s).accs.filter (waitsAtPort (hostPortSites.getD port 24)) = [a] := by
      have hwaits : waitsAtPort (hostPortSites.getD port 24) a = true := beq_iff_eq.2 hstage
      rw [show (park s).accs = [a] from haccs, List.filter_cons_of_pos hwaits, List.filter_nil]
    rw [hhit, List.foldl_cons, List.foldl_nil] at hexec
    refine ⟨_, hexec, ?_, faultAccess_waits hwrites _⟩
    have hdown := portUp_linkLost hup port
    rw [if_pos rfl] at hdown
    unfold portUp at hdown ⊢
    rwa [faultAccess_hostUp hwrites]
  · intro hport hup _ hnone hlogs
    have hexec := hostLinkDown_eq hport hup hlogs
    have hhit : (park s).accs.filter (waitsAtPort (hostPortSites.getD port 24)) = [] :=
      List.filter_eq_nil_iff.2 fun a ha hw => hnone a ha (beq_iff_eq.1 hw)
    rw [hhit, List.foldl_nil] at hexec
    refine ⟨_, hexec, (portUp_linkLost hup port).trans (if_pos rfl), rfl, rfl,
      fun p hp => (portUp_linkLost hup p).trans (if_neg hp), fun r hr hrport => ?_, fun r hr hkept hsame => ?_⟩
    · obtain ⟨hin, hno⟩ := mem_linkLost.1 hr
      exact Bool.of_not_eq_false fun hdone => hno r hin hrport hdone rfl
    · refine mem_linkLost.2 ⟨hr, fun y hy hyport hydone hid => ?_⟩
      rw [hsame y hy hid] at hyport hydone
      rcases hkept with h | h
      · exact h hyport
      · simp [h] at hydone
  · exact fun hport hjoined => congrArg _ (if_pos (by simpa using ⟨hport, hjoined⟩))
  · intro h
    refine congrArg Host.Outcome.next (if_neg fun hboth => ?_)
    obtain ⟨hport, hjoined⟩ := Bool.and_eq_true_iff.1 hboth
    rcases h with h | h
    · exact absurd (of_decide_eq_true hport) (by omega)
    · exact Bool.false_ne_true (h.symm.trans hjoined)
  · intro at_ line sh a hnear haccs hstage hasked hsrc hline
    rw [hostLineGrant_eq (by rw [hnear]; simp), show (park s).accs = [a] from haccs, List.foldl_cons, List.foldl_nil,
      grantAcc_at_port hstage hasked hsrc hline]
  · intro at_ line haccs hlogs
    refine ⟨fun hnear => ⟨fun sh hheld => ?_, fun hfree => ⟨?_, ?_⟩⟩, fun hnone sh => congrArg _ (if_pos (by simpa using hnone))⟩
    · rw [hostLineGrant_of_quiet hnear haccs (by rw [holdLine_of_held hheld]; exact hlogs), holdLine_of_held hheld]
    · exact hostLineGrant_alone hnear haccs hlogs hfree
    · have hshared : holdLine q at_ line true = { q with
          hbShared := if q.hbShared.contains (at_, line) then q.hbShared else q.hbShared ++ [(at_, line)] } :=
        (if_neg (by simpa using hfree)).trans (if_pos rfl)
      rw [← hshared]
      exact hostLineGrant_of_quiet hnear haccs (by rw [hshared]; exact hlogs)
  · intro at_ line
    have hcores := coreWithout_giveUpLine line at_ q
    refine ⟨_, hostSnoop_gives_up s at_ line, by simp [giveUpLine], by simp [giveUpLine], fun c hc hsite l hl hl' => ?_, rfl,
      fun y hy => by simp [giveUpLine, hy]; rfl⟩
    obtain ⟨d, -, hd⟩ := hcores c hc
    exact (hd.l1 l hl).2 hl' (by simp [← hd.id, hsite])
  · intro at_ line hheld
    exact ⟨_, hostSnoop_keeps_shared hheld, by simp, by simp, rfl, rfl⟩

end Sys2Proof.Laws
end

