-- ==== Sys2Proof/Proofs/EndsOfTeams.lean ====
section
/-!
Settles O49: the end of an original team, and the completion of a launch.
-/

namespace Sys2Proof.Laws
open Sys2Proof Sys2Proof.Machine Sys2Proof.Safety

/-! ### The assay window -/

theorem findLaunch_key {s : State} {key : Nat} {l : Launch} (h : findLaunch s key = some l) : l.key = key := by
  simpa using List.find?_some h

theorem findLaunch_onLaunch_found {s : State} {key : Nat} {l : Launch} (h : findLaunch s key = some l) (f : Launch → Launch)
    (hf : ∀ l, (f l).key = l.key) : findLaunch (onLaunch s key f) key = some (f l) := by
  rw [findLaunch_onLaunch s key key f hf, h]
  simp

/-- A fold whose steps change only the memory changes only the memory. -/
theorem foldl_mem_only {α : Type} (g : State → α → State) (hg : ∀ s x, ∃ m, g s x = { s with mem := m }) (xs : List α)
    (s : State) : ∃ m, xs.foldl g s = { s with mem := m } := by
  induction xs generalizing s with
  | nil => exact ⟨s.mem, rfl⟩
  | cons x xs ih =>
    obtain ⟨m1, h1⟩ := hg s x
    obtain ⟨m2, h2⟩ := ih { s with mem := m1 }
    exact ⟨m2, by rw [List.foldl_cons, h1, h2]⟩

/-- The memory with no frozen entry of the launch, one entry of its list after another. -/
def clearFrozen (l : Launch) (s : State) : State :=
  l.frozen.foldl (fun acc (n, _, _) =>
    (List.range 16).foldl (fun acc t =>
      ((frozenKeys acc n t).filter (fun k => cellNat acc.mem k 4 == frozenD0 l % 2 ^ 32)).foldl (fun acc k =>
        { acc with mem := cellWriteN acc.mem k (List.replicate 32 0#8) }) acc) acc) s

theorem clearFrozen_eq (l : Launch) (s : State) : ∃ m, clearFrozen l s = { s with mem := m } :=
  foldl_mem_only _ (fun s _ => foldl_mem_only _ (fun s _ => foldl_mem_only _ (fun _ _ => ⟨_, rfl⟩) _ s) _ s) _ s

theorem removeFrozen_eq (s : State) (l : Launch) :
    ∃ m, removeFrozen s l = onLaunch { s with mem := m } l.key (fun l => { l with frozen := [], frozenSet := false }) := by
  obtain ⟨m, hm⟩ := clearFrozen_eq l s
  refine ⟨m, ?_⟩
  rw [← hm]
  rfl

theorem settleLaunch_of_not_provisional {s : State} {key : Nat} {l : Launch} (h : findLaunch s key = some l)
    (hstate : l.state ≠ 1) : settleLaunch s key = s := by
  simp [settleLaunch, h, hstate]

theorem closeWindow_of_closed {s : State} {key : Nat} {l : Launch} (h : findLaunch s key = some l)
    (hclosed : l.windowOpen = false) : closeWindow s key = s := by
  simp [closeWindow, h, hclosed]

/-- What closing its window changes of a launch. -/
def closedBy (l : Launch) (frozen : List (Nat × Nat × Nat)) (frozenSet windowOpen : Bool) : Launch :=
  { l with frozen := frozen, frozenSet := frozenSet, windowOpen := windowOpen }

/-- With no access held, and the launch not completed, only its frozen entries and its window change. -/
theorem closeWindow_of_quiet {s : State} {key : Nat} {l : Launch} (h : findLaunch s key = some l)
    (hquiet : s.pendings = []) (hstate : l.state ≠ 1) :
    (closeWindow s key).teams = s.teams ∧
    ∃ fr fs wo, findLaunch (closeWindow s key) key = some (closedBy l fr fs wo) := by
  have hkey := findLaunch_key h
  obtain ⟨m, hm⟩ := removeFrozen_eq s l
  have hfound : findLaunch (onLaunch (removeFrozen s l) key (fun l => { l with windowOpen := false })) key =
      some (closedBy l [] false false) := by
    rw [hm, hkey]
    exact findLaunch_onLaunch_found (findLaunch_onLaunch_found (s := { s with mem := m }) h _ (by intro; rfl)) _ (by intro; rfl)
  have hteams : (removeFrozen s l).teams = s.teams := by rw [hm]; rfl
  have hpend : (removeFrozen s l).pendings = [] := by rw [hm]; exact hquiet
  have hreplay : ∀ f hit, replayAll (onLaunch (removeFrozen s l) key f) hit = onLaunch (removeFrozen s l) key f := by
    intro f hit
    simp [replayAll, hpend]
  unfold closeWindow
  simp only [h, hquiet, List.filter_nil, payReplay, List.foldl_nil, Bool.not_true, Bool.false_eq_true, if_false, hreplay]
  split
  · exact ⟨rfl, l.frozen, l.frozenSet, l.windowOpen, h⟩
  · have hsettled : ∀ u, findLaunch u key = some (closedBy l [] false false) → settleLaunch u key = u :=
      fun u hu => settleLaunch_of_not_provisional hu hstate
    split
    · rw [hsettled _ hfound]
      exact ⟨hteams, _, _, _, hfound⟩
    · rw [hsettled]
      · exact ⟨hteams, _, _, _, hfound⟩
      · exact hfound

/-! ### The end of a team -/

section
variable {s : State} {uid : Nat} {t : Team} {l : Launch}

/-- What the end of an original team changes of its launch, before the window closes. -/
def afterOriginal (l : Launch) (s : State) (t : Team) : Launch :=
  { l with
    units := if l.units.contains t.at_.unit then l.units else l.units ++ [t.at_.unit]
    lastRounds := assocSet (t.at_.unit / 1024) (findSite s (t.at_.unit / 1024)).round l.lastRounds
    usedSlots := l.usedSlots.filter (fun g => !t.slots.contains g)
    ended := if l.ended.contains t.lix then l.ended else l.ended ++ [t.lix]
    heldSig := l.heldSig.filter (· != t.lix)
    heldMst := l.heldMst.filter (·.1 != t.lix)
    skipped := if t.sampled && (t.ending || !t.eligible) then l.skipped + 1 else l.skipped
    trials := if t.sampled && !t.ending && t.eligible then
      l.trials ++ [{ lix := t.lix, runs := [t.trialRun], since := s.cyc }] else l.trials }

/-- The team leaves its core, and its launch takes note of its end and of its run. -/
theorem endOriginal_of_quiet (hl : findLaunch s t.launch = some l) (hquiet : s.pendings = []) (hstate : l.state ≠ 1) :
    (endOriginal s t).teams = s.teams.filter (·.uid != t.uid) ∧
    ∃ fr fs wo, findLaunch (endOriginal s t) t.launch = some (closedBy (afterOriginal l s t) fr fs wo) := by
  refine closeWindow_of_quiet (l := afterOriginal l s t) ?_ hquiet hstate
  have hworked := findLaunch_onLaunch_found
    (s := { s with teams := s.teams.filter (·.uid != t.uid), watches := s.watches.filter (·.uid != t.uid) }) hl
    (fun l => { l with
      units := if l.units.contains t.at_.unit then l.units else l.units ++ [t.at_.unit]
      lastRounds := assocSet (t.at_.unit / 1024) (findSite s (t.at_.unit / 1024)).round l.lastRounds }) (fun _ => rfl)
  have hreleased := findLaunch_onLaunch_found hworked
    (fun l => { l with usedSlots := l.usedSlots.filter (fun g => !t.slots.contains g) }) (fun _ => rfl)
  exact findLaunch_onLaunch_found hreleased _ (by intro; rfl)

theorem findTeam_filter_same (ts : List Team) (uid : Nat) : (ts.filter (·.uid != uid)).find? (·.uid == uid) = none := by
  simp [List.find?_eq_none]

theorem findTeam_filter_other (ts : List Team) {uid v : Nat} (h : v ≠ uid) :
    (ts.filter (·.uid != uid)).find? (·.uid == v) = ts.find? (·.uid == v) := by
  rw [List.find?_filter]
  refine congrFun (congrArg _ (funext fun t => ?_)) _
  by_cases hv : t.uid = v
  · simp [hv, h]
  · simp [hv]

theorem teamEnd_of_done (ht : findTeam (park s) uid = some t) (hrun : t.run = .original) (hdone : teamDone (park s) t = true) :
    exec (.teamEnd uid) s = .next (endOriginal (park s) t) := by
  simp [exec, execTeamEnd, event, ht, hrun, hdone]

theorem teamEnd_of_not_done (ht : findTeam (park s) uid = some t) (hdone : teamDone (park s) t = false) :
    exec (.teamEnd uid) s = .next (park s) := by
  simp [exec, execTeamEnd, event, ht, hdone]

theorem teamDone_sound (h : teamDone s t = true) :
    (∀ w ∈ t.weaves, w.ended = true) ∧ (∀ a ∈ s.accs, a.uid ≠ t.uid) ∧ (∀ o ∈ s.remotes, o.uid ≠ t.uid) ∧
    (∀ c ∈ s.clusters, ∀ k ∈ c.copies, k.uid ≠ t.uid) ∧ (∀ c ∈ s.clusters, ∀ e ∈ c.cmds, e.uid ≠ t.uid) ∧
    ∀ e ∈ (findCore s t.at_).log, e.uid ≠ t.uid := by
  simp only [teamDone, Bool.and_eq_true, Bool.not_eq_true', List.all_eq_true, List.any_eq_false, Bool.or_eq_true,
    not_or, beq_iff_eq, List.any_eq_true, Cluster.outstanding, List.mem_append, not_exists, not_and] at h
  obtain ⟨⟨⟨⟨hweaves, haccs⟩, hclusters⟩, hremotes⟩, hlog⟩ := h
  exact ⟨hweaves, haccs, hremotes, fun c hc => (hclusters c hc).2, fun c hc e he => ((hclusters c hc).1 e (.inl he)).1, hlog⟩

end

/-! ### The completion of a launch -/

section
variable {s : State} {key : Nat} {l : Launch}

/-- The launch has completed with a state, and its replicas are gone. -/
def completedAs (s : State) (key state : Nat) : State :=
  onLaunch { s with replicas := s.replicas.filter (·.launch != key) } key (fun l => { l with completed := true, state := state })

theorem findLaunch_completedAs (h : findLaunch s key = some l) (state : Nat) :
    findLaunch (completedAs s key state) key = some { l with completed := true, state := state } :=
  findLaunch_onLaunch_found (s := { s with replicas := s.replicas.filter (·.launch != key) }) h _ (by intro; rfl)

theorem launchCompletion_of_open (h : findLaunch (park s) key = some l)
    (hopen : l.completed = true ∨ l.ended.length ≠ l.teams) :
    exec (.launchCompletion key) s = .next (closeWindow (park s) key) := by
  simp [exec, execLaunchCompletion, event, h, hopen]

theorem launchCompletion_of_record (h : findLaunch (park s) key = some l) (hopen : l.completed = false)
    (hended : l.ended.length = l.teams) {d0 d1 : Nat} (hrec : l.crec = some (d0, d1)) :
    exec (.launchCompletion key) s = .next (settleLaunch (closeWindow
      (postRecord (completedAs (park s) key (if l.poisoned then 3 else 1)) (2 * key) l.site l.ctx l.lnum
        [(d1, toBytes 8 (l.num * 2 ^ 32 + if l.poisoned then 3 else 1)), (d0, toBytes 8 (cycAt (park s) l.site))]) key) key) := by
  simp only [exec, execLaunchCompletion, event, h, hopen, hended, hrec, bne_self_eq_false, Bool.or_self,
    Bool.false_eq_true, if_false]
  rfl

theorem launchCompletion_of_no_record (h : findLaunch (park s) key = some l) (hopen : l.completed = false)
    (hended : l.ended.length = l.teams) (hrec : l.crec = none) :
    exec (.launchCompletion key) s = .next (settleLaunch (closeWindow
      (completedAs (park s) key (if l.poisoned then 3 else 1)) key) key) := by
  simp only [exec, execLaunchCompletion, event, h, hopen, hended, hrec, bne_self_eq_false, Bool.or_self,
    Bool.false_eq_true, if_false]
  rfl

/-- The conditions of an assured completion, where the window is closed and nothing is poisoned. -/
theorem assured_iff (u : State) (hcompleted : l.completed = true) (hclean : l.poisoned = false) (hclosed : l.windowOpen = false) :
    Launch.assured u l = true ↔ l.trials = [] ∧ ∀ r ∈ l.lastRounds, r.2 + 2 ≤ (findSite u r.1).round := by
  simp [Launch.assured, hcompleted, hclean, hclosed]

/-- A provisional launch that nothing poisons and that has no record is assured or stays as it is. -/
theorem settleLaunch_of_provisional (h : findLaunch s key = some l) (hstate : l.state = 1) (hclean : l.poisoned = false)
    (hrec : l.crec = none) :
    settleLaunch s key = if Launch.assured s l then
      postErr (onLaunch s key (fun l => { l with state := 2 })) 0x0B l.ctx 0 0 l.lnum 0xFFFFFFFF 2 0 else s := by
  simp [settleLaunch, h, hstate, hclean, rewriteState, hrec, findLaunch_key h]

/-- A launch without a record that completes with no window open: poisoned, assured or provisional. -/
theorem settle_completed (h : findLaunch s key = some l) (hrec : l.crec = none) (hclosed : l.windowOpen = false) {u : State}
    (hu : u = settleLaunch (closeWindow (completedAs s key (if l.poisoned then 3 else 1)) key) key) :
    ∃ l', findLaunch u key = some l' ∧ l'.completed = true ∧ u.mem = s.mem ∧ u.teams = s.teams ∧
      (∀ r ∈ u.replicas, r.launch ≠ key) ∧
      l'.state = if l.poisoned then 3
        else if l.trials = [] ∧ ∀ r ∈ l.lastRounds, r.2 + 2 ≤ (findSite s r.1).round then 2 else 1 := by
  have hreplicas : ∀ r ∈ s.replicas.filter (·.launch != key), r.launch ≠ key := by simp
  have hfound := findLaunch_completedAs h (if l.poisoned then 3 else 1)
  rw [closeWindow_of_closed hfound hclosed] at hu
  by_cases hpois : l.poisoned = true
  · rw [settleLaunch_of_not_provisional hfound (by simp [hpois])] at hu
    rw [hu]
    exact ⟨_, hfound, rfl, rfl, rfl, hreplicas, by simp [hpois]⟩
  · rw [if_neg hpois] at hfound hu ⊢
    rw [settleLaunch_of_provisional hfound rfl (by simpa using hpois) hrec] at hu
    have hsure : _ ↔ l.trials = [] ∧ ∀ r ∈ l.lastRounds, r.2 + 2 ≤ (findSite s r.1).round :=
      assured_iff (l := { l with completed := true, state := 1 }) (completedAs s key 1) rfl (by simpa using hpois) hclosed
    split at hu
    · next hassured =>
      have hfound2 := findLaunch_onLaunch_found hfound (fun l => { l with state := 2 }) (by intro; rfl)
      rw [hu, if_pos (hsure.1 hassured)]
      exact ⟨_, hfound2, rfl, rfl, rfl, hreplicas, rfl⟩
    · next hassured =>
      rw [hu, if_neg (fun hh => hassured (hsure.2 hh))]
      exact ⟨_, hfound, rfl, rfl, rfl, hreplicas, rfl⟩

end

/-- Settles O49: the end of an original team and what the completion of its launch waits for, the completion of a launch
with and without a record, and the window of a completed one. -/
theorem endsOfTeamsAndLaunches : Obligations.EndsOfTeamsAndLaunches := by
  unfold Obligations.EndsOfTeamsAndLaunches
  intro s q
  refine ⟨fun uid t l ht hrun hl hquiet hstate => ⟨fun hdone => ?_, teamEnd_of_not_done ht⟩,
    fun t => teamDone_sound, fun key l hl => ⟨launchCompletion_of_open hl, closeWindow_of_closed hl, ?_⟩⟩
  · obtain ⟨hteams, fr, fs, wo, hfound⟩ := endOriginal_of_quiet hl hquiet (by omega)
    have huid := findTeam_uid ht
    rw [huid] at hteams
    refine ⟨_, _, teamEnd_of_done ht hrun hdone, ?_, fun v hv => ?_, hfound, ?_, rfl, ?_, ?_, ?_⟩
    · rw [findTeam, hteams, findTeam_filter_same]
    · rw [findTeam, hteams, findTeam_filter_other _ hv]; rfl
    · simp [closedBy, afterOriginal]
    · intro hs
      simp [closedBy, afterOriginal, hs]
    · intro hs hskip
      rcases hskip with hskip | hskip
      · simp [closedBy, afterOriginal, hs, hskip]
      · simp [closedBy, afterOriginal, hs, hskip]
    · intro hs hend helig
      simp [closedBy, afterOriginal, hs, hend, helig, Team.trialRun]
  · intro hopen hended st v
    refine ⟨fun hrec hclosed => ?_, fun d0 d1 hrec => launchCompletion_of_record hl hopen hended hrec⟩
    obtain ⟨l', hs⟩ := settle_completed hl hrec hclosed rfl
    exact ⟨_, l', launchCompletion_of_no_record hl hopen hended hrec, hs⟩

end Sys2Proof.Laws
end

