-- ==== Sys2Proof/Proofs/ScalarEffects.lean ====
section
/-!
SUPPORT. Instructions above opcode 0xD7 whose effect changes the state and writes scalar registers.
-/

namespace Sys2Proof.Laws
open Sys2Proof Sys2Proof.Machine Sys2Proof.Safety

/-! ### Writes of scalar registers -/

/-- Writes of scalar registers, in order. -/
def scalars (xs : List (Nat × DWord)) : List Write := xs.map fun x => .s x.1 x.2

theorem applyWrites_scalars_vget (b : State) (xs : List (Nat × DWord)) (k : Nat) :
    vget (applyWrites b (scalars xs)) k = vget b k := by
  rw [applyWrites, scalars, List.foldl_map]
  exact foldl_keeps (fun u => vget u k) _ (fun u x => vget_writeS u x.1 k x.2) xs b

theorem applyWrites_scalars_kregs (b : State) (xs : List (Nat × DWord)) :
    (applyWrites b (scalars xs)).weave.kregs = b.weave.kregs := by
  rw [applyWrites, scalars, List.foldl_map]
  exact foldl_keeps (fun u : State => u.weave.kregs) _ (fun u x => kregs_writeS u x.1 x.2) xs b

theorem applyWrites_scalars_sget (b : State) (xs : List (Nat × DWord)) (k : Nat) (hk : k ∉ xs.map Prod.fst) :
    sget (applyWrites b (scalars xs)) k = sget b k := by
  induction xs generalizing b with
  | nil => rfl
  | cons x xs ih =>
    rw [List.map_cons, List.mem_cons, not_or] at hk
    exact (ih (writeS b x.1 x.2) hk.2).trans (sget_writeS_ne b x.1 k x.2 hk.1)

section
variable (s0 u : State) (i : Instr) (f : Fields) (a : DWord) (m : LaneMask)

theorem keepsRegs_scalars (xs : List (Nat × DWord)) :
    KeepsRegs u (complete s0 (rowAt i) f a m u (scalars xs) 0#7 none) i f [] (xs.map Prod.fst) [] := by
  refine ⟨fun n hn _ => ?_, fun n _ hne => ?_, fun n _ => ?_⟩
  · rw [vget_complete, applyWrites_scalars_vget]
    exact vget_afterReads u i f hn
  · rw [sget_complete, applyWrites_scalars_sget _ _ _ hne]
    exact sget_afterReads u i f n
  · rw [kMask_complete, kMask, applyWrites_scalars_kregs, kregs_afterReads]
    rfl

/-- The last write of a scalar register stays. -/
theorem sVal_complete_last (r : Row) (xs : List (Nat × DWord)) (n : Nat) (x : DWord) :
    sVal (complete s0 r f a m u (scalars (xs ++ [(n, x)])) 0#7 none) n = x := by
  rw [sVal, sget_complete, scalars, List.map_append, applyWrites, List.foldl_append]
  exact congrArg (·.getD 0#64) ((sget_writeS _ n n x).trans (if_pos rfl))

/-- A write of another scalar register changes nothing. -/
theorem sVal_complete_other (r : Row) (xs : List (Nat × DWord)) {n k : Nat} (x : DWord) (h : n ≠ k) :
    sVal (complete s0 r f a m u (scalars (xs ++ [(k, x)])) 0#7 none) n =
      sVal (complete s0 r f a m u (scalars xs) 0#7 none) n := by
  rw [sVal, sVal, sget_complete, sget_complete, scalars, List.map_append, applyWrites, List.foldl_append]
  exact congrArg (fun y : Option SReg => (y.map (·.val)).getD 0#64) (sget_writeS_ne _ k n x h)

end

/-! ### The issue -/

/-- An instruction above opcode 0xD7 holds no source in an operand latch (R50). -/
theorem hold_of_high {s : State} {i : Instr} {f : Fields} {r : Row} (h : CanIssue s i f) (hf : fieldsOf i = some f)
    (hr : rowOf i = some r) (hop : 0xD7 < opcodeOf i) : f.hold = 0#2 := by
  have hlegal := (legal_of_wellFormed h.wellFormed hf hr).1
  simp only [Row.legal, Bool.and_eq_true] at hlegal
  have hhold : holdOk r (opcodeOf i) f = true := by tauto
  have hnot : ¬ opcodeOf i ≤ 0xD7 := by omega
  simpa [holdOk, hnot] using hhold

/-- It completes in the state u of its effect, where there is room for its writes. -/
theorem issue_of_effect {s u : State} {i : Instr} {f : Fields} {r : Row} {body : Fields → DWord → LaneMask → State → Result}
    {ws ws' : List Write} (h : CanIssue s i f) (hf : fieldsOf i = some f) (hr : rowOf i = some r) (hop : 0xD7 < opcodeOf i)
    (hroom : HasRoom u i f ws) (hblank : ws'.map Write.blank = ws.map Write.blank)
    (hbody : body f s.ply.pc (activeLanes s f) s = Result.regs u ws') :
    issue i s body = .next (complete s (rowAt i) f s.ply.pc (activeLanes s f) u ws' 0#7 none) := by
  have hhold := hold_of_high h hf hr hop
  have hsame : afterHold s u (rowAt i) f = afterHold u u (rowAt i) f := by simp [afterHold, holdWindow, hhold]
  rw [issue_eq h hf hr, hbody, ← rowAt_of_rowOf hr]
  show Host.Outcome.next (finish s (rowAt i) f s.ply.pc (activeLanes s f) u ws' 0#7 none) = _
  rw [finish, overPeak_blank _ hblank, hsame, overPool_blank _ hblank, hroom.peak, hroom.pool]
  rfl

/-- The registers of the state at issue, where the effect changes none. -/
theorem keepsRegs_of_same {s u t : State} {i : Instr} {f : Fields} {vs ss ks : List Nat} (h : KeepsRegs u t i f vs ss ks)
    (hw : u.weave.map = s.weave.map) (hk : u.weave.kregs = s.weave.kregs) : KeepsRegs s t i f vs ss ks := by
  obtain ⟨hv, hs, hm⟩ := h
  simp only [vget, sget, kMask, hw, hk] at hv hs hm
  exact ⟨hv, hs, hm⟩

/-- An effect that changes no register, and writes of scalar registers after it. -/
theorem goesBy_scalars {s u : State} (i : Instr) (f : Fields) (m : LaneMask) (xs : List (Nat × DWord))
    (hw : u.weave.map = s.weave.map) (hk : u.weave.kregs = s.weave.kregs) (hfl : u.weave.fpflags = s.weave.fpflags) :
    GoesBy s (complete s (rowAt i) f s.ply.pc m u (scalars xs) 0#7 none) i f (xs.map Prod.fst) :=
  ⟨(ply_complete ..).1, (ply_complete ..).2, (fpflags_complete ..).1.trans (by simp [hfl]),
    keepsRegs_of_same (keepsRegs_scalars s u i f s.ply.pc m xs) hw hk⟩

/-- The scalar destination D with a value. -/
def sclPairs (d : BitVec 8) (x : DWord) : List (Nat × DWord) := if isS d.toNat then [(d.toNat - 0xC0, x)] else []

theorem sclWrite_eq (d : BitVec 8) (x : DWord) : sclWrite d x = scalars (sclPairs d x) := by
  unfold sclWrite sclPairs; split <;> rfl

theorem map_fst_sclPairs (f : Fields) (x : DWord) : (sclPairs f.d x).map Prod.fst = sName f := by
  unfold sclPairs sName; split <;> rfl

/-- An effect that changes neither a register nor memory, and an answer in D. -/
theorem completes_answer {s u : State} (i : Instr) (f : Fields) (m : LaneMask) (x : DWord)
    (hw : u.weave.map = s.weave.map) (hk : u.weave.kregs = s.weave.kregs) (hfl : u.weave.fpflags = s.weave.fpflags)
    (hmem : u.mem = s.mem) :
    let t := complete s (rowAt i) f s.ply.pc m u (sclWrite f.d x) 0#7 none
    Completes s t i f (sName f) ∧ answers t f x := by
  intro t
  have hgoes := goesBy_scalars i f m (sclPairs f.d x) hw hk hfl
  rw [map_fst_sclPairs, ← sclWrite_eq] at hgoes
  refine ⟨⟨hgoes.pc, hgoes.ready, hgoes.flags, fun a => ?_, hgoes.keeps⟩, fun hd => ?_⟩
  · refine ((goesOn_complete s u i f s.ply.pc m (sclWrite f.d x) 0#7 none).memory a).trans ?_
    rw [byteAt, byteAt, hmem]
  · have hlast := sVal_complete_last s u f s.ply.pc m (rowAt i) [] (f.d.toNat - 0xC0) x
    rw [List.nil_append, ← show sclPairs f.d x = _ from if_pos hd, ← sclWrite_eq] at hlast
    exact hlast

end Sys2Proof.Laws
end

