-- ==== Sys2Proof/Proofs/Copies.lean ====
section
/-!
Settles O38: `xcopy`, `xwait` and `xwait.rn`.
-/

namespace Sys2Proof.Laws
open Sys2Proof Sys2Proof.Machine Sys2Proof.Safety

/-! ### What reading a descriptor leaves unchanged -/

/-- The issuing weave, its team but for its fitness for assay, and the clusters. -/
def issuerView (s : State) : Weave × Team × List Cluster := (s.weave, { s.team with eligible := true }, s.clusters)

theorem issuerView_foldl {α : Type} {g : State → α → State} {xs : List α} {s : State}
    (hg : ∀ b a, issuerView (g b a) = issuerView b) : issuerView (xs.foldl g s) = issuerView s :=
  foldl_keeps issuerView g hg xs s

theorem issuerView_takeHostLine (s : State) (m : Master) (src attr ia : Nat) (only : Bool) :
    issuerView (takeHostLine s m src attr ia only) = issuerView s := by
  have hothers : ∀ b site line, issuerView (othersGiveUp b site line) = issuerView b := fun _ _ _ =>
    issuerView_foldl fun _ _ => rfl
  unfold takeHostLine holdLine
  dsimp only
  repeat' split
  · rfl
  · rfl
  · rfl
  · rfl
  · exact hothers s _ _

theorem issuerView_leaveDistant (s : State) (src ia ctx : Nat) (data : List Byte) :
    issuerView (leaveDistant s src ia ctx data) = issuerView s := by
  unfold leaveDistant
  repeat' split
  all_goals rfl

theorem issuerView_agentRead (s : State) (key ia n : Nat) : issuerView (agentRead s key ia n).1 = issuerView s := by
  unfold agentRead
  dsimp only
  split
  · exact issuerView_foldl (s := s) fun _ _ => rfl
  · rfl

theorem issuerView_masterGet {s : State} {m : Master} {src ia n : Nat} {x : State × List Byte × Bool}
    (h : masterGet s m src ia n = .ok x) : issuerView x.1 = issuerView s := by
  unfold masterGet at h
  split at h
  · cases h
  · cases h
    rfl
  · cases h
    exact (issuerView_agentRead ..).trans ((issuerView_takeHostLine ..).trans (issuerView_leaveDistant ..))

theorem issuerView_agentGetAll {s : State} {ctx src va n : Nat} {wins : List Window} {x : State × List Byte × Bool}
    (h : agentGetAll s ctx src wins va n = .ok x) : issuerView x.1 = issuerView s := by
  refine foldl_ok_induction (fun y : State × List Byte × Bool => issuerView y.1 = issuerView s) (fun _ _ => rfl) ?_ rfl h
  intro y piece z hy hz
  dsimp only at hz
  split at hz
  · cases hz
  · next hget =>
    cases hz
    exact (issuerView_masterGet hget).trans hy

theorem issuerView_loadTs (s : State) (pts : Nat) (lines : List Nat) : issuerView (loadTs s pts lines).1 = issuerView s :=
  issuerView_foldl fun _ _ => rfl

theorem issuerView_stampPlain (s : State) (a n : Nat) : issuerView (stampPlain s a n) = issuerView s := by
  refine issuerView_foldl fun b piece => ?_
  dsimp only
  split
  · rfl
  · exact issuerView_loadTs ..

/-- Reads of the weave that count against its team's fitness for assay change nothing else of the state. -/
theorem spoilRange_eq (s : State) (va n : Nat) : ∃ e, spoilRange s va n = { s with team := { s.team with eligible := e } } := by
  unfold spoilRange
  dsimp only
  split
  · exact ⟨s.team.eligible, rfl⟩
  · exact ⟨false, rfl⟩

theorem issuerView_spoilRange (s : State) (va n : Nat) : issuerView (spoilRange s va n) = issuerView s := by
  obtain ⟨e, he⟩ := spoilRange_eq s va n
  rw [he]
  rfl

theorem issuerView_readDwords {s : State} {sp : Bool} {m : LaneMask} {a n : Nat} {t : State} {d : List DWord}
    (h : readDwords s sp m a n = .ok t d) : issuerView t = issuerView s := by
  unfold readDwords at h
  repeat' split at h
  all_goals cases h
  · exact issuerView_loadTs ..
  · next hget _ =>
    exact (issuerView_spoilRange ..).trans ((issuerView_stampPlain ..).trans (issuerView_agentGetAll hget))

theorem spoilCopy_eq (s : State) (c : Copy) : ∃ e, spoilCopy s c = { s with team := { s.team with eligible := e } } := by
  unfold spoilCopy
  split
  · exact ⟨s.team.eligible, rfl⟩
  · induction List.range c.total generalizing s with
    | nil => exact ⟨s.team.eligible, rfl⟩
    | cons k ks ih =>
      obtain ⟨e1, h1⟩ := spoilRange_eq s (c.src k) (2 ^ c.lgel)
      obtain ⟨e2, h2⟩ := ih (spoilRange s (c.src k) (2 ^ c.lgel))
      exact ⟨e2, by rw [List.foldl_cons, h2, h1]⟩

/-! ### Acceptance (R102, R268) -/

section
variable (z : State) (f : Fields) (c : Copy)

/-- The promise of the accepted copy. -/
def acceptedPromise : DWord := (acceptCopy z f c).2.1

/-- The handle that it takes is outstanding, with its promise. -/
theorem acceptCopy_handle : ∃ x ∈ (acceptCopy z f c).1.weave.handles,
    x.h = z.weave.nextHandle ∧ x.copy = true ∧ x.promise = acceptedPromise z f c := by
  refine ⟨_, List.mem_map_of_mem (List.mem_append_right _ (List.mem_singleton_self _)), ?_⟩
  rw [if_pos (beq_self_eq_true _)]
  exact ⟨rfl, rfl, rfl⟩

/-- The engine of the issuing team's cluster has one entry more. -/
theorem acceptCopy_entry : ∃ k, (findCluster (acceptCopy z f c).1 z.team.at_.site z.team.at_.cluster).copies =
      (clusterHere z).copies ++ [k] ∧
    k.h = z.weave.nextHandle ∧ k.promise = acceptedPromise z f c ∧ k.uid = z.team.uid ∧ k.windex = z.weave.windex ∧
    k.dims = c.dims ∧ k.sbase = c.sbase ∧ k.dbase = c.dbase ∧ k.pos = c.pos := by
  have hids := findCluster_ids z z.team.at_.site z.team.at_.cluster
  refine ⟨_, congrArg Cluster.copies ((findCluster_setCluster _ _ _ _).trans (if_pos ?_)), rfl, rfl, rfl, rfl, rfl, rfl,
    rfl, rfl⟩
  exact ⟨hids.1.symm, hids.2.symm⟩

theorem acceptedPromise_of_no_allowance (h : copyAllowance z z.team.at_.site = 0) :
    acceptedPromise z f c = 0xFFFFFFFFFFFFFFFF#64 := by
  show promiseOf _ _ _ _ _ = _
  simp only [promiseOf, h]
  rfl

end

section
variable {s : State} {f : Fields}

/-- An accepted copy whose state z before acceptance has the issuer as s has it. -/
theorem xcopy_accepted {z : State} (c : Copy) (hview : issuerView z = issuerView s) (hmem : z.mem = s.mem) (hpos : c.pos = 0) :
    let p := acceptedPromise z f c
    let a := f.d.toNat - 0xC0
    let t := complete s (rowAt (.xcopy f)) f s.ply.pc (activeLanes s f) (acceptCopy z f c).1
      (scalars ([(a, p)] ++ [(a + 1, BitVec.ofNat 64 s.weave.nextHandle)])) 0#7 none
    GoesBy s t (.xcopy f) f [a, a + 1] ∧ (∀ x, byteAt t x = byteAt s x) ∧
    sVal t a = p ∧ sVal t (a + 1) = BitVec.ofNat 64 s.weave.nextHandle ∧
    (∃ x ∈ t.weave.handles, x.h = s.weave.nextHandle ∧ x.copy = true ∧ x.promise = p) ∧
    ∃ k, (clusterIn s t).copies = (clusterHere s).copies ++ [k] ∧ k.h = s.weave.nextHandle ∧ k.promise = p ∧
      k.uid = s.team.uid ∧ k.windex = s.weave.windex ∧ k.dims = c.dims ∧ k.sbase = c.sbase ∧ k.dbase = c.dbase ∧
      k.pos = 0 := by
  intro p a t
  have hw : z.weave = s.weave := congrArg Prod.fst hview
  have hat : z.team.at_ = s.team.at_ := congrArg (fun v : Weave × Team × List Cluster => v.2.1.at_) hview
  have huid : z.team.uid = s.team.uid := congrArg (fun v : Weave × Team × List Cluster => v.2.1.uid) hview
  have hc : z.clusters = s.clusters := congrArg (fun v : Weave × Team × List Cluster => v.2.2) hview
  have hhere : clusterHere z = clusterHere s := by
    rw [clusterHere, clusterHere, hat]
    exact findCluster_congr hc ..
  have hrest : rest t = rest (acceptCopy z f c).1 := rest_complete ..
  have hclusters := congrArg State.clusters hrest
  have hhandles := congrArg (fun u : State => u.weave.handles) hrest
  have hmap := congrArg Weave.map hw
  have hkregs := congrArg Weave.kregs hw
  have hflags := congrArg Weave.fpflags hw
  refine ⟨goesBy_scalars (u := (acceptCopy z f c).1) (.xcopy f) f (activeLanes s f) _ hmap hkregs hflags, fun x => ?_, ?_,
    sVal_complete_last .., ?_, ?_⟩
  · refine ((goesOn_complete s (acceptCopy z f c).1 (.xcopy f) f s.ply.pc (activeLanes s f) _ 0#7 none).memory x).trans ?_
    rw [byteAt, byteAt, acceptCopy_mem, hmem]
  · exact (sVal_complete_other s _ f s.ply.pc _ (rowAt (.xcopy f)) [(a, p)] _ (by omega)).trans
      (sVal_complete_last s _ f s.ply.pc _ (rowAt (.xcopy f)) [] a p)
  · rw [show t.weave.handles = _ from hhandles, ← hw]
    exact acceptCopy_handle z f c
  · obtain ⟨k, hk, h⟩ := acceptCopy_entry z f c
    rw [hat, hhere] at hk
    rw [hw, huid, hpos] at h
    exact ⟨k, by rw [clusterIn, findCluster_congr (u := t) hclusters]; exact hk, h⟩

/-- What `xcopy` does where it may issue, no active lane is missing, and the weave, the engine and the ply are ready. -/
theorem xcopy_of_ready (hm : activeLanes s f ≠ 0#32) (hhandles : s.weave.handles.length < 32)
    (hcopies : (clusterHere s).copies.length < 64) (hready : commandReady s = true) : ∃ body,
    exec (.xcopy f) s = issue (.xcopy f) s body ∧ body f s.ply.pc (activeLanes s f) s =
      if (scl s f f.a).toNat % 8 != 0 then .trap 0x0B [scl s f f.a]
      else match readDwords s (f.variant.getLsbD 0) (activeLanes s f) (scl s f f.a).toNat 1 with
        | .stop r => r
        | .ok s0 d0 =>
          match readDwords s0 (f.variant.getLsbD 0) (activeLanes s f) (scl s f f.a).toNat
              (3 + 2 * (((d0.getD 0 0#64).extractLsb' 60 4).toNat + 1)) with
          | .stop r => r
          | .ok s1 d =>
            match copyTrap s1 (activeLanes s f) (scl s f f.a) d (copyOf d) with
            | some (code, info) => .trap code info
            | none => offerCommand s (Result.regs (acceptCopy (spoilCopy s1 (copyOf d)) f (copyOf d)).1
                [.s (f.d.toNat - 0xC0) (acceptedPromise (spoilCopy s1 (copyOf d)) f (copyOf d)),
                 .s (f.d.toNat - 0xC0 + 1) (BitVec.ofNat 64 (acceptCopy (spoilCopy s1 (copyOf d)) f (copyOf d)).2.2)]) := by
  apply Exists.intro
  apply And.intro rfl
  have hm' : ¬ (activeLanes s f == 0#32) = true := by simpa using hm
  have hwait : ¬ (handlesFull s || 64 ≤ (clusterHere s).copies.length || !commandReady s) = true := by
    simp [handlesFull, hready]; omega
  have hspace : f.variant.getLsbD 0 = bit f.variant.toNat 0 := (bit_eq_testBit ..).symm
  dsimp only
  rw [if_neg hm', if_neg hwait, hspace]
  rfl

theorem xcopy_misaligned (h : CanIssue s (.xcopy f) f) (hm : activeLanes s f ≠ 0#32)
    (hhandles : s.weave.handles.length < 32) (hcopies : (clusterHere s).copies.length < 64) (hready : commandReady s = true)
    (hmis : (scl s f f.a).toNat % 8 ≠ 0) :
    exec (.xcopy f) s = .next (takeTrap s 0x0B s.ply.pc [scl s f f.a] (activeLanes s f)) := by
  obtain ⟨body, hexec, hbody⟩ := xcopy_of_ready hm hhandles hcopies hready
  rw [if_pos (by simpa using hmis)] at hbody
  rw [hexec, issue_eq h rfl rfl, hbody]
  rfl

theorem xcopy_accepts (h : CanIssue s (.xcopy f) f) (hm : activeLanes s f ≠ 0#32) (hhandles : s.weave.handles.length < 32)
    (hcopies : (clusterHere s).copies.length < 64) (hready : commandReady s = true) (hal : (scl s f f.a).toNat % 8 = 0)
    {s0 s1 : State} {d0 d : List DWord}
    (h0 : readDwords s (f.variant.getLsbD 0) (activeLanes s f) (scl s f f.a).toNat 1 = .ok s0 d0)
    (h1 : readDwords s0 (f.variant.getLsbD 0) (activeLanes s f) (scl s f f.a).toNat
      (3 + 2 * (((d0.getD 0 0#64).extractLsb' 60 4).toNat + 1)) = .ok s1 d)
    (htrap : copyTrap s1 (activeLanes s f) (scl s f f.a) d (copyOf d) = none) (hpost : mayPost s = true)
    (hroom : HasRoom (acceptCopy (spoilCopy s1 (copyOf d)) f (copyOf d)).1 (.xcopy f) f
      [.s (f.d.toNat - 0xC0) 0#64, .s (f.d.toNat - 0xC0 + 1) 0#64]) :
    exec (.xcopy f) s = .next (complete s (rowAt (.xcopy f)) f s.ply.pc (activeLanes s f)
      (acceptCopy (spoilCopy s1 (copyOf d)) f (copyOf d)).1
      (scalars [(f.d.toNat - 0xC0, acceptedPromise (spoilCopy s1 (copyOf d)) f (copyOf d)),
        (f.d.toNat - 0xC0 + 1, BitVec.ofNat 64 (acceptCopy (spoilCopy s1 (copyOf d)) f (copyOf d)).2.2)]) 0#7 none) := by
  obtain ⟨body, hexec, hbody⟩ := xcopy_of_ready hm hhandles hcopies hready
  rw [if_neg (by simpa using hal), h0] at hbody
  simp only [h1, htrap, offerCommand_of_mayPost hpost] at hbody
  rw [hexec]
  exact issue_of_effect h rfl rfl (by decide : (0xD7 : Nat) < 0xF0) hroom rfl hbody

end

/-! ### `xwait` (R270, R272) -/

/-- The lower of the choice so far and one more handle. -/
def lowerHandle (acc : Option Handle) (x : Handle) : Option Handle :=
  match acc with
  | none => some x
  | some y => if x.h < y.h then some x else some y

/-- The new handle takes the place of the choice just where it is lower. -/
theorem lowerHandle_cases (acc : Option Handle) (y : Handle) :
    (lowerHandle acc y = some y ∧ ∀ z, acc = some z → y.h < z.h) ∨ (lowerHandle acc y = acc ∧ ∃ z, acc = some z ∧ z.h ≤ y.h) := by
  cases acc with
  | none => exact .inl ⟨rfl, by simp⟩
  | some z =>
    by_cases hlt : y.h < z.h
    · exact .inl ⟨if_pos hlt, by simpa using hlt⟩
    · exact .inr ⟨if_neg hlt, z, rfl, by omega⟩

theorem foldl_lowerHandle {x : Handle} (ys : List Handle) (acc : Option Handle) (hys : ∀ y ∈ ys, y = x ∨ x.h < y.h)
    (hacc : ∀ y, acc = some y → y = x ∨ x.h < y.h) (hmem : x ∈ ys ∨ acc = some x) : ys.foldl lowerHandle acc = some x := by
  induction ys generalizing acc with
  | nil => simpa using hmem
  | cons y ys ih =>
    have hy := hys y List.mem_cons_self
    have hrest := fun z hz => hys z (List.mem_cons_of_mem _ hz)
    rw [List.mem_cons] at hmem
    rcases lowerHandle_cases acc y with ⟨hnew, hlow⟩ | ⟨hold, z, hz, hle⟩
    · rw [List.foldl_cons, hnew]
      refine ih _ hrest (by simpa using hy) ?_
      rcases hmem with (rfl | hin) | hx
      · exact .inr rfl
      · exact .inl hin
      · have := hlow x hx
        exact .inr (congrArg some (hy.resolve_right (by omega)))
    · rw [List.foldl_cons, hold]
      refine ih _ hrest hacc ?_
      rcases hmem with (rfl | hin) | hx
      · exact .inr (hz.trans (congrArg some ((hacc z hz).resolve_right (by omega))))
      · exact .inl hin
      · exact .inr hx

/-- The handle that every other one of a list is above. -/
theorem lowestHandle_of_least {hs : List Handle} {x : Handle} (hx : x ∈ hs) (hleast : ∀ y ∈ hs, y = x ∨ x.h < y.h) :
    lowestHandle hs = some x :=
  foldl_lowerHandle hs none hleast (by simp) (.inl hx)

section
variable {s : State} {f : Fields}

/-- The outstanding handles of the set of an `xwait`. -/
def xwaitOut (s : State) (f : Fields) : List Handle :=
  s.weave.handles.filter fun x => (xwaitSet s f (activeLanes s f)).contains x.h

theorem xwait_issue (s : State) (f : Fields) : ∃ body, exec (.xwait f) s = issue (.xwait f) s body ∧
    body f s.ply.pc (activeLanes s f) s =
      if (xwaitOut s f).isEmpty then Result.regs (acquireAt s s.team.at_) []
      else match lowestHandle ((xwaitOut s f).filter (Handle.missed s)) with
        | some x => .trap 0x10 (missedRecord s x)
        | none => .wait (.xwait (xwaitSet s f (activeLanes s f))) s := by
  apply Exists.intro
  apply And.intro <;> rfl

theorem missed_iff (x : Handle) : Handle.missed s x = true ↔ x.copy = true ∧ x.promise.toNat ≤ cycHere s := by
  simp [Handle.missed]

theorem xwait_goes_on (h : CanIssue s (.xwait f) f) (hout : xwaitOut s f = []) :
    ∃ t, exec (.xwait f) s = .next t ∧ Done (acquireAt s s.team.at_) t (.xwait f) f (afterPc s.ply.pc f) := by
  obtain ⟨body, hexec, hbody⟩ := xwait_issue s f
  rw [hout] at hbody
  exact ⟨_, hexec.trans (issue_of_regs_nil h rfl rfl hbody), done_complete ..⟩

theorem xwait_waits (h : CanIssue s (.xwait f) f) (hout : xwaitOut s f ≠ [])
    (hnone : ∀ x ∈ xwaitOut s f, x.copy = true → cycHere s < x.promise.toNat) :
    exec (.xwait f) s = .next (stand s (.xwait (xwaitSet s f (activeLanes s f)))) := by
  obtain ⟨body, hexec, hbody⟩ := xwait_issue s f
  have hmissed : (xwaitOut s f).filter (Handle.missed s) = [] := by
    rw [List.filter_eq_nil_iff]
    intro x hx hmiss
    obtain ⟨hcopy, hle⟩ := (missed_iff x).1 hmiss
    have := hnone x hx hcopy
    omega
  rw [if_neg (by simpa using hout), hmissed] at hbody
  rw [hexec, issue_eq h rfl rfl, hbody]
  rfl

theorem xwait_missed (h : CanIssue s (.xwait f) f) {x : Handle} (hx : x ∈ xwaitOut s f) (hcopy : x.copy = true)
    (hle : x.promise.toNat ≤ cycHere s)
    (hleast : ∀ y ∈ xwaitOut s f, y.copy = true → y.promise.toNat ≤ cycHere s → y = x ∨ x.h < y.h) :
    exec (.xwait f) s = .next (takeTrap s 0x10 s.ply.pc (missedRecord s x) (activeLanes s f)) := by
  obtain ⟨body, hexec, hbody⟩ := xwait_issue s f
  have hlow : lowestHandle ((xwaitOut s f).filter (Handle.missed s)) = some x := by
    refine lowestHandle_of_least (List.mem_filter.2 ⟨hx, (missed_iff x).2 ⟨hcopy, hle⟩⟩) fun y hy => ?_
    obtain ⟨hout, hmiss⟩ := List.mem_filter.1 hy
    obtain ⟨hc, hp⟩ := (missed_iff y).1 hmiss
    exact hleast y hout hc hp
  rw [if_neg (by simpa using List.ne_nil_of_mem hx), hlow] at hbody
  rw [hexec, issue_eq h rfl rfl, hbody]
  rfl

/-! ### `xwait.rn` (R271) -/

/-- The handle that operand A of an `xwait.rn` names. -/
def renewedHandle (s : State) (f : Fields) : Nat := (scl s f f.a).toNat % 2 ^ 32

theorem xwaitRn_issue (s : State) (f : Fields) : ∃ body, exec (.xwaitRn f) s = issue (.xwaitRn f) s body ∧
    body f s.ply.pc (activeLanes s f) s =
      if activeLanes s f == 0#32 then Result.regs s []
      else match findCopy s s.team.uid s.weave.windex (renewedHandle s f) with
        | none => Result.regs s (sclWrite f.d 0xFFFFFFFFFFFFFFFF#64)
        | some (k, c) => Result.regs (renewCopy s k c).1 (sclWrite f.d (renewCopy s k c).2) := by
  apply Exists.intro
  apply And.intro <;> rfl

theorem xwaitRn_of_no_copy (h : CanIssue s (.xwaitRn f) f) (hm : activeLanes s f ≠ 0#32)
    (hnone : findCopy s s.team.uid s.weave.windex (renewedHandle s f) = none)
    (hroom : HasRoom s (.xwaitRn f) f (sclWrite f.d 0#64)) :
    ∃ t, exec (.xwaitRn f) s = .next t ∧ SclDone s t (.xwaitRn f) f 0xFFFFFFFFFFFFFFFF#64 := by
  obtain ⟨body, hexec, hbody⟩ := xwaitRn_issue s f
  rw [if_neg (by simpa using hm), hnone] at hbody
  exact ⟨_, hexec.trans (issue_of_effect h rfl rfl (by decide : (0xD7 : Nat) < 0xF1) hroom (sclWrite_blank ..) hbody),
    sclDone_complete s _ f _ hm⟩

theorem xwaitRn_of_copy (h : CanIssue s (.xwaitRn f) f) (hm : activeLanes s f ≠ 0#32) {k : Cluster} {c : Copy}
    (hsome : findCopy s s.team.uid s.weave.windex (renewedHandle s f) = some (k, c))
    (hroom : HasRoom (renewCopy s k c).1 (.xwaitRn f) f (sclWrite f.d 0#64)) :
    ∃ t, exec (.xwaitRn f) s = .next t ∧ Completes s t (.xwaitRn f) f (sName f) ∧ answers t f (renewCopy s k c).2 := by
  obtain ⟨body, hexec, hbody⟩ := xwaitRn_issue s f
  rw [if_neg (by simpa using hm), hsome] at hbody
  exact ⟨_, hexec.trans (issue_of_effect h rfl rfl (by decide : (0xD7 : Nat) < 0xF1) hroom (sclWrite_blank ..) hbody),
    completes_answer (.xwaitRn f) f _ _ rfl rfl rfl (renewCopy_mem ..)⟩

end

/-- Settles O38: what `xcopy` does with an aligned descriptor and with one that is not, what `xwait` waits for and takes,
and the promise that `xwait.rn` gives. -/
theorem copies : Obligations.Copies := by
  unfold Obligations.Copies
  intro s f m
  refine ⟨fun h hm hhandles hcopies hready => ?_, fun h => ?_, fun h hm => ?_⟩
  · refine ⟨?_, xcopy_misaligned h hm hhandles hcopies hready⟩
    intro hal s0 d0 s1 d h0 h1 htrap hpost u odd hroom
    rw [show odd - 1 = f.d.toNat - 0xC0 from Nat.add_sub_cancel ..] at hroom ⊢
    have hview1 : issuerView s1 = issuerView s := (issuerView_readDwords h1).trans (issuerView_readDwords h0)
    obtain ⟨e, he⟩ := spoilCopy_eq s1 (copyOf d)
    have hview : issuerView (spoilCopy s1 (copyOf d)) = issuerView s := by
      rw [he]
      exact hview1
    have hmem : (spoilCopy s1 (copyOf d)).mem = s.mem :=
      (spoilCopy_mem ..).trans ((readDwords_mem h1).trans (readDwords_mem h0))
    obtain ⟨hgoes, hbytes, hpromise, hhandle, hlive, k, hk⟩ :=
      xcopy_accepted (f := f) (copyOf d) hview hmem rfl
    have hexec := xcopy_accepts h hm hhandles hcopies hready hal h0 h1 htrap hpost hroom
    have hname : (acceptCopy (spoilCopy s1 (copyOf d)) f (copyOf d)).2.2 = s.weave.nextHandle :=
      congrArg (fun v : Weave × Team × List Cluster => v.1.nextHandle) hview
    rw [hname] at hexec
    obtain ⟨hcopies', hkh, hkp, huid, hwindex, hdims, hsbase, hdbase, hpos⟩ := hk
    refine ⟨_, k, _, hexec, hgoes, hbytes, hpromise, hhandle, hlive, hcopies', hkh, hkp, huid, hwindex, hdims, hsbase,
      hdbase, hpos, fun hzero => acceptedPromise_of_no_allowance _ f _ ?_⟩
    have hat : s1.team.at_ = s.team.at_ := congrArg (fun v : Weave × Team × List Cluster => v.2.1.at_) hview1
    rw [he, ← hzero, ← hat]
    rfl
  · exact ⟨xwait_goes_on h, xwait_waits h, fun x => xwait_missed h⟩
  · exact ⟨xwaitRn_of_no_copy h hm, fun k c => xwaitRn_of_copy h hm⟩

end Sys2Proof.Laws
end

