-- ==== Sys2Proof/Proofs/WeavesAnywhere.lean ====
section
/-!
SUPPORT. Updates of a weave, a ply or a team wherever it stands, and what is read of it afterwards.
-/

namespace Sys2Proof.Laws
open Sys2Proof Sys2Proof.Machine Sys2Proof.Safety

section
variable (s : State) (uid windex : Nat)

/-- Another focused team, or none: the weave is read among the resident teams. -/
theorem peekWeave_of_elsewhere {s : State} {u : Nat} (h : ¬ (s.focused && s.team.uid == u) = true) (v : Nat) :
    peekWeave s u v = findWeave s u v := if_neg h

/-- An update of one weave, seen at any name. -/
theorem peekWeave_updWeave {f : Weave → Weave} (hf : ∀ w, (f w).windex = w.windex) (u v : Nat) :
    peekWeave (updWeave s uid windex f) u v = (peekWeave s u v).map fun w => if u = uid ∧ v = windex then f w else w := by
  by_cases hs : (s.focused && s.team.uid == uid) = true
  · obtain ⟨hfoc, rfl⟩ : s.focused = true ∧ s.team.uid = uid := by simpa using hs
    by_cases hu : u = s.team.uid
    · subst hu
      by_cases hw : s.weave.windex = windex
      · subst hw
        by_cases hv : s.weave.windex = v
        · subst hv
          simp [updWeave, peekWeave, hfoc, hf]
        · simp [updWeave, peekWeave, hfoc, hf, hv, Ne.symm hv]
      · by_cases hv : s.weave.windex = v
        · subst hv
          simp [updWeave, peekWeave, hfoc, hw]
        · have hfind := find?_map_key Weave.windex windex v f hf s.team.weaves
          simpa [updWeave, peekWeave, hfoc, hw, hv, mapWeave] using hfind
    · have hu' : ¬ s.team.uid = u := fun h => hu h.symm
      have hsame : findWeave (updWeave s s.team.uid windex f) u v = findWeave s u v := by
        unfold updWeave
        rw [if_pos hs]
        split <;> rfl
      rw [peekWeave_of_elsewhere (by simp [updWeave, hfoc]; split <;> simpa using hu'), hsame,
        peekWeave_of_elsewhere (by simp [hu'])]
      simp [hu]
  · rw [updWeave, if_neg hs]
    by_cases hu : (s.focused && s.team.uid == u) = true
    · have hne : u ≠ uid := fun h => hs (h ▸ hu)
      have hsame : peekWeave (onWeave s uid windex f) u v = peekWeave s u v := by
        unfold peekWeave
        exact (if_pos hu).trans (if_pos hu).symm
      rw [hsame]
      simp [hne]
    · rw [peekWeave_of_elsewhere hu]
      exact (peekWeave_of_elsewhere (s := onWeave s uid windex f) hu v).trans (findWeave_onWeave _ _ _ _ _ _ hf)

/-- What does not read a weave's plies does not see an update of a ply. -/
theorem peekWeave_updPly {γ : Type} (g : Weave → γ) (hg : ∀ w ps, g { w with plies := ps } = g w) (n : Nat) (f : Ply → Ply)
    (u v : Nat) : (peekWeave (updPly s uid windex n f) u v).map g = (peekWeave s u v).map g := by
  unfold updPly
  split
  · rfl
  · rw [peekWeave_updWeave s uid windex (by intro; rfl), Option.map_map]
    congr 1
    funext w
    dsimp only [Function.comp]
    split
    · exact hg ..
    · rfl

end

/-! ### Spoilt teams -/

section
variable (s : State) (uid : Nat)

/-- A team's fitness for assay is none of its name, its weaves and its core. -/
theorem onAnyTeam_spoil_cases (P : State → Prop) (hfocus : P { s with team := s.team.spoil })
    (hteams : P (onTeams s (·.uid == uid) Team.spoil)) (haway : ∀ ls, P { s with launches := ls }) :
    P (onAnyTeam s uid Team.spoil) := by
  unfold onAnyTeam updTeam
  split
  · split
    · exact hfocus
    · exact hteams
  · exact haway _

theorem findTeam_spoilt {γ : Type} (g : Team → γ) (hg : ∀ t : Team, g t.spoil = g t) (u : Nat) :
    (findTeam (onTeams s (·.uid == uid) Team.spoil) u).map g = (findTeam s u).map g := by
  rw [findTeam_onTeams s uid u _ (by intro; rfl), Option.map_map]
  congr 1
  funext t
  dsimp only [Function.comp]
  split
  · exact hg t
  · rfl

theorem peekWeave_spoilt (u v : Nat) : peekWeave (onAnyTeam s uid Team.spoil) u v = peekWeave s u v := by
  refine onAnyTeam_spoil_cases s uid (fun b => peekWeave b u v = peekWeave s u v) rfl ?_ (fun _ => rfl)
  have hfind : findWeave (onTeams s (·.uid == uid) Team.spoil) u v = findWeave s u v := by
    have h := congrArg (fun o : Option (List Weave) => o.bind fun ws => ws.find? (·.windex == v))
      (findTeam_spoilt s uid Team.weaves (fun _ => rfl) u)
    simpa only [findWeave, Option.bind_map, Function.comp_def] using h
  unfold peekWeave
  rw [hfind]
  rfl

theorem peekPly_spoilt (u v n : Nat) : peekPly (onAnyTeam s uid Team.spoil) u v n = peekPly s u v n := by
  have hfocus : (onAnyTeam s uid Team.spoil).focused = s.focused ∧ (onAnyTeam s uid Team.spoil).team.uid = s.team.uid ∧
      (onAnyTeam s uid Team.spoil).weave = s.weave ∧ (onAnyTeam s uid Team.spoil).ply = s.ply :=
    onAnyTeam_spoil_cases s uid (fun b => b.focused = s.focused ∧ b.team.uid = s.team.uid ∧ b.weave = s.weave ∧ b.ply = s.ply)
      ⟨rfl, rfl, rfl, rfl⟩ ⟨rfl, rfl, rfl, rfl⟩ (fun _ => ⟨rfl, rfl, rfl, rfl⟩)
  obtain ⟨hfoc, hteam, hweave, hply⟩ := hfocus
  unfold peekPly
  rw [hfoc, hteam, hweave, hply, peekWeave_spoilt]

theorem coreOf_spoilt (u : Nat) : coreOf (onAnyTeam s uid Team.spoil) u = coreOf s u := by
  refine onAnyTeam_spoil_cases s uid (fun b => coreOf b u = coreOf s u) ?_ ?_ (fun _ => rfl)
  · unfold coreOf peekTeam
    dsimp only
    rw [show s.team.spoil.uid = s.team.uid from rfl]
    split <;> rfl
  · have h := findTeam_spoilt s uid Team.at_ (fun _ => rfl) u
    unfold coreOf peekTeam
    refine congrArg (fun c : Option CoreId => c.getD {}) ?_
    show (if s.focused && s.team.uid == u then some s.team else _).map _ = _
    split
    · rfl
    · exact h

end

end Sys2Proof.Laws
end

