-- ==== Sys2Proof/Proofs/NearAccesses.lean ====
section
/-!
Settles O24: near loads and stores as their home performs them.
-/

namespace Sys2Proof.Laws
open Sys2Proof Sys2Proof.Machine Sys2Proof.Safety

/-! ### The way to the home -/

section
variable {s : State} {a : Acc} {key attr : Nat}

/-- The state in which a near access is performed: it has its number, and its walks are cached. -/
def reached (s : State) (walks : List WalkEntry) : State := { s with nextId := s.nextId + 1, walkCache := walks }

/-- The one piece of an access that lies in one line. -/
def wholePiece (a : Acc) (key attr : Nat) : Piece := ⟨a.ia, a.n, .cell key attr⟩

theorem foldl_cacheWalk {α : Type} (g : α → List WalkEntry) (xs : List α) (s : State) :
    ∃ wc, xs.foldl (fun acc x => cacheWalk acc (g x)) s = { s with walkCache := wc } := by
  induction xs generalizing s with
  | nil => exact ⟨s.walkCache, rfl⟩
  | cons x xs ih =>
    obtain ⟨wc, h⟩ := ih (cacheWalk s (g x))
    exact ⟨wc, h⟩

theorem afterWalks_eq (s : State) (m : Master) (right src ia n : Nat) :
    ∃ wc, afterWalks s m right src ia n = { s with walkCache := wc } :=
  foldl_cacheWalk (fun x : Nat × Nat => (place s m right src x.1).2) _ s

theorem isNear_iff (s : State) (src ia : Nat) : isNear s src ia = true ↔ iaNode ia = s.wafer ∧ iaSite ia = src := by
  simp [isNear]

/-- A near access of one line is performed and answered at once, with its walks cached. -/
theorem tryHome_of_near (hnear : isNear s a.src a.ia = true) (hdev : attr ≠ 3)
    (hloc : locate s (ctxMaster a.ctx) a.right a.src a.ia a.n = .ok [wholePiece a key attr]) :
    ∃ wc, tryHome s a = answered (performAccess { s with walkCache := wc } a [wholePiece a key attr]).1 a
      (performAccess { s with walkCache := wc } a [wholePiece a key attr]).2.1
      (performAccess { s with walkCache := wc } a [wholePiece a key attr]).2.2 := by
  obtain ⟨wc, hwalks⟩ := afterWalks_eq s (ctxMaster a.ctx) a.right a.src a.ia a.n
  obtain ⟨hnode, hsite⟩ := (isNear_iff s a.src a.ia).1 hnear
  have hline : hostLineWanted s a.src (a.kind == 0) [wholePiece a key attr] = none := by
    simp [hostLineWanted, wholePiece, hdev]
  have hport : leavePort { s with walkCache := wc } a = { s with walkCache := wc } := by
    simp [leavePort, isDistant, hnode]
  have hserved : servedAt s a = a.src := by
    simp [servedAt, hnode, hsite]
  refine ⟨wc, ?_⟩
  unfold tryHome answerAccess
  simp only [hloc, hline, hserved, hwalks, hport, beq_self_eq_true, if_true]

/-- No byte comes from a log without entries. -/
theorem forwardAll_nil (ia : Nat) {n : Nat} (h : 0 < n) : forwardAll (storesOf []) ia n = none := by
  obtain ⟨k, rfl⟩ := Nat.exists_eq_succ_of_ne_zero (Nat.ne_of_gt h)
  rw [forwardAll, List.range_succ_eq_map, List.foldr_cons]
  rfl

/-- Nothing holds the first access of its ply back at its home. -/
theorem arriveHome_of_first (hn : 0 < a.n) (horder : orderWaits s a = false) (hlog : logBefore s a = [])
    (hpage : flipping s a.ctx a.ia = false) : arriveHome s a = tryHome s a := by
  have hnone := forwardAll_nil a.ia hn
  have hwait : logWaits s a = false := by simp [logWaits, hlog]
  unfold arriveHome
  rw [horder, hpage, hlog]
  by_cases hw : a.writes = true
  · simp [hw]
  · by_cases hk : a.kind = 0
    · simp [hw, hk, hwait, hnone]
    · simp [hw, hk, hwait]

theorem submitAccess_of_near (s : State) {a : Acc} (hnear : isNear s a.src a.ia = true) :
    submitAccess s a = arriveHome { s with nextId := s.nextId + 1 } (numbered s a) := by
  obtain ⟨hnode, hsite⟩ := (isNear_iff s a.src a.ia).1 hnear
  have hfar : isFar { s with nextId := s.nextId + 1 } a.src a.ia = false := by simp [isFar, hsite]
  have hdistant : isDistant { s with nextId := s.nextId + 1 } a.ia = false := by simp [isDistant, hnode]
  unfold submitAccess
  dsimp only
  rw [hfar, hdistant]
  rfl

/-- What becomes of an access at its home: it is performed in the state reached, and answered. -/
theorem submitAccess_of_home (h : AtHome s a key attr) : ∃ wc, submitAccess s a =
    answered (performAccess (reached s wc) (numbered s a) [wholePiece (numbered s a) key attr]).1 (numbered s a)
      (performAccess (reached s wc) (numbered s a) [wholePiece (numbered s a) key attr]).2.1
      (performAccess (reached s wc) (numbered s a) [wholePiece (numbered s a) key attr]).2.2 := by
  obtain ⟨horder, hlog, hpage⟩ := h.first
  obtain ⟨wc, htry⟩ := tryHome_of_near (s := { s with nextId := s.nextId + 1 }) (a := numbered s a) h.near h.device h.placed
  refine ⟨wc, ?_⟩
  rw [submitAccess_of_near s h.near, arriveHome_of_first (a := numbered s a) h.size.1 horder hlog hpage, htry]
  rfl

end

/-! ### Timestamps -/

/-- What a line's timestamps are after they are set. -/
theorem tsOf_setTs (s : State) (t : LineTs) (line : Nat) : tsOf (setTs s t) line = if line = t.line then t else tsOf s line := by
  unfold tsOf setTs
  dsimp only
  by_cases hline : line = t.line
  · subst hline
    rw [if_pos rfl]
    split
    · next hany =>
      rw [find?_replaceFirst (·.line == t.line) (·.line == t.line) t (beq_self_eq_true _) _ (fun _ => rfl), if_pos hany]
      rfl
    · next hany =>
      have hnone : s.lineTs.find? (·.line == t.line) = none := by
        rw [List.find?_eq_none]
        simpa using hany
      simp [List.find?_append, hnone]
  · rw [if_neg hline]
    have hne : (t.line == line) = false := by simpa using fun h : t.line = line => hline h.symm
    split
    · rw [find?_replaceFirst_ne (·.line == line) (·.line == t.line) t hne]
      intro y hy
      simpa [show y.line = t.line by simpa using hy] using hne
    · simp [List.find?_append, hne]

/-! ### What answers and raised timestamps leave unchanged -/

/-- What reads neither the issuing ply, the weaves nor the teams does not see an update of a weave. -/
theorem updWeave_keeps {γ : Type} (p : State → γ) (hp : ∀ s w t ts, p { s with weave := w, team := t, teams := ts } = p s)
    (s : State) (uid windex : Nat) (f : Weave → Weave) : p (updWeave s uid windex f) = p s := by
  unfold updWeave
  split
  · split
    · exact hp s _ s.team s.teams
    · exact hp s s.weave _ s.teams
  · exact hp s s.weave s.team _

theorem updPly_keeps {γ : Type} (p : State → γ) (hp : ∀ s y w t ts, p { s with ply := y, weave := w, team := t, teams := ts } = p s)
    (s : State) (uid windex n : Nat) (f : Ply → Ply) : p (updPly s uid windex n f) = p s := by
  unfold updPly
  split
  · exact hp s _ s.weave s.team s.teams
  · exact updWeave_keeps p (fun s w t ts => hp s s.ply w t ts) s uid windex _

theorem recordSpec_keeps {γ : Type} (p : State → γ)
    (hp : ∀ s y w t ts, p { s with ply := y, weave := w, team := t, teams := ts } = p s)
    (s : State) (a : Acc) (lines : List (Nat × Nat)) : p (recordSpec s a lines) = p s := by
  unfold recordSpec
  split
  · rfl
  · exact updPly_keeps p hp ..

/-- The loads of a weave wherever it stands. -/
def loadsAt (s : State) (uid windex : Nat) : Option (List LoadReq) := (peekWeave s uid windex).map (·.loads)

theorem loadsAt_raisePts (s : State) (a : Acc) (ts u v : Nat) : loadsAt (raisePts s a ts) u v = loadsAt s u v :=
  peekWeave_updPly s a.uid a.windex Weave.loads (fun _ _ => rfl) a.ply _ u v

theorem loadsAt_recordSpec (s : State) (a : Acc) (lines : List (Nat × Nat)) (u v : Nat) :
    loadsAt (recordSpec s a lines) u v = loadsAt s u v := by
  unfold recordSpec
  split
  · rfl
  · exact peekWeave_updPly s a.uid a.windex Weave.loads (fun _ _ => rfl) a.ply _ u v

/-- What an answer changes: the loads of its weave. -/
theorem loadsAt_deliver (s : State) (uid windex tag ln : Nat) (x : DWord) (bad : Option Nat) (sh : Nat) :
    loadsAt (deliver s uid windex tag ln x bad sh) uid windex =
      (loadsAt s uid windex).map fun ls => ls.map fun l => if l.tag == tag then l.take ln sh x bad else l := by
  unfold loadsAt deliver
  rw [peekWeave_updWeave s uid windex (by intro; rfl), Option.map_map, Option.map_map]
  congr 1
  funext w
  simp

theorem received_eq (s : State) (a : Acc) (x : DWord) (bad : Option Nat) :
    received s a x bad = (loadsAt s a.uid a.windex).map fun ls => ls.map fun l =>
      if l.tag == a.tag then l.take a.lane a.sh x bad else l := by
  unfold received loadsAt
  rw [Option.map_map]
  congr 1
  funext w
  simp [LoadReq.take]

/-! ### A load at its home (R97, R109) -/

section
variable {s : State} {a : Acc} {key attr : Nat}

theorem l1Read_of_lease {core : CoreId} {pts ia n policy : Nat} {c : L1Copy} (hmay : l1May attr policy = true)
    (hc : (findCore s core).l1.find? (fun c => c.line == iaLine ia && pts ≤ c.rts) = some c) :
    l1Read s core pts key ia n attr policy = (s, (c.data.drop (ia % 128)).take n, max pts c.wts, c.wts) := by
  simp only [l1Read, hmay, hc, if_true]

theorem l1Read_of_no_lease {core : CoreId} {pts ia n policy : Nat} (h : l1May attr policy = false ∨
      (findCore s core).l1.find? (fun c => c.line == iaLine ia && pts ≤ c.rts) = none) :
    l1Read s core pts key ia n attr policy =
      (l1Fill (setTs s { tsOf s (iaLine ia) with rts := max (tsOf s (iaLine ia)).rts (pts + 16) }) core key ia attr policy,
        cellReadN s.mem key n, max pts (tsOf s (iaLine ia)).wts, (tsOf s (iaLine ia)).wts) := by
  rcases h with h | h
  · simp only [l1Read, h, Bool.false_eq_true, if_false]
  · simp only [l1Read, h, ite_self]

/-- A fill of an L1 changes the cores alone. -/
theorem l1Fill_keeps {γ : Type} (p : State → γ) (hp : ∀ s cs, p { s with cores := cs } = p s) (s : State) (core : CoreId)
    (key ia attr policy : Nat) : p (l1Fill s core key ia attr policy) = p s := by
  unfold l1Fill
  split
  · rfl
  · exact hp ..

/-- The copy or the line that a near load reads, in a state and for a place. -/
def homeRead (s : State) (a : Acc) (key attr : Nat) : State × List Byte × Nat × Nat :=
  l1Read s (coreOf s a.uid) (ptsNow s a) key a.ia a.n attr a.policy

/-- The state in which a load reads: its run is spoilt where the page is UC or DEV. -/
def readState (s : State) (a : Acc) (key attr : Nat) : State := spoilUc s a.uid [.cell key attr]

theorem spoilUc_keeps {γ : Type} (p : State → γ) (hp : ∀ s t ts ls, p { s with team := t, teams := ts, launches := ls } = p s)
    (s : State) (uid : Nat) (ps : List Place) : p (spoilUc s uid ps) = p s := by
  unfold spoilUc
  split
  · exact onAnyTeam_spoil_cases s uid (fun b => p b = p s) (hp s _ s.teams s.launches) (hp s s.team _ s.launches)
      (hp s s.team s.teams)
  · rfl

theorem spoilUc_cases (s : State) (uid : Nat) (ps : List Place) :
    spoilUc s uid ps = onAnyTeam s uid Team.spoil ∨ spoilUc s uid ps = s := by
  unfold spoilUc
  split
  · exact .inl rfl
  · exact .inr rfl

theorem peekWeave_spoilUc (s : State) (uid : Nat) (ps : List Place) (u v : Nat) :
    peekWeave (spoilUc s uid ps) u v = peekWeave s u v := by
  rcases spoilUc_cases s uid ps with h | h
  · rw [h, peekWeave_spoilt]
  · rw [h]

theorem coreOf_spoilUc (s : State) (uid : Nat) (ps : List Place) (u : Nat) : coreOf (spoilUc s uid ps) u = coreOf s u := by
  rcases spoilUc_cases s uid ps with h | h
  · rw [h, coreOf_spoilt]
  · rw [h]

theorem ptsNow_spoilUc (s : State) (uid : Nat) (ps : List Place) (a : Acc) : ptsNow (spoilUc s uid ps) a = ptsNow s a := by
  have hcyc : (spoilUc s uid ps).cyc = s.cyc := spoilUc_keeps State.cyc (fun _ _ _ _ => rfl) s uid ps
  unfold ptsNow
  rw [hcyc]
  rcases spoilUc_cases s uid ps with h | h
  · rw [h, peekPly_spoilt]
  · rw [h]

/-- A near load: what it reads, the poison that it meets, and the state that it leaves. -/
theorem performAccess_load (hk : a.kind = 0) (hnear : isNear s a.src a.ia = true) :
    ∃ z, performAccess s a [wholePiece a key attr] =
        (z, BitVec.ofNat 64 (ofBytes (homeRead (readState s a key attr) a key attr).2.1),
          poisonAt (readState s a key attr) a (wholePiece a key attr) key) ∧
      z.mem = s.mem ∧ z.lineTs = (homeRead (readState s a key attr) a key attr).1.lineTs ∧
      loadsAt z a.uid a.windex = loadsAt (homeRead (readState s a key attr) a key attr).1 a.uid a.windex := by
  have hwafer : (readState s a key attr).wafer = s.wafer := spoilUc_keeps State.wafer (fun _ _ _ _ => rfl) ..
  have hnear' : isNear (readState s a key attr) a.src a.ia = true := by
    rw [isNear_iff, hwafer]
    exact (isNear_iff ..).1 hnear
  have hpiece : loadPiece (readState s a key attr) a (wholePiece a key attr) =
      (recordSpec (raisePts (homeRead (readState s a key attr) a key attr).1 a (homeRead (readState s a key attr) a key attr).2.2.1) a
        [(iaLine a.ia, (homeRead (readState s a key attr) a key attr).2.2.2)],
        (homeRead (readState s a key attr) a key attr).2.1, poisonAt (readState s a key attr) a (wholePiece a key attr) key) := by
    simp only [loadPiece, wholePiece, hnear', if_true]
    rfl
  have hmem : (homeRead (readState s a key attr) a key attr).1.mem = s.mem := by
    rw [homeRead, l1Read_mem]
    exact spoilUc_keeps State.mem (fun _ _ _ _ => rfl) ..
  generalize hy : homeRead (readState s a key attr) a key attr = y at hpiece hmem ⊢
  generalize hz : recordSpec (raisePts y.1 a y.2.2.1) a [(iaLine a.ia, y.2.2.2)] = z at hpiece
  have hlines : z.lineTs = y.1.lineTs := by
    rw [← hz]
    exact (recordSpec_keeps State.lineTs (fun _ _ _ _ _ => rfl) ..).trans (updPly_keeps State.lineTs (fun _ _ _ _ _ => rfl) ..)
  have hloads : loadsAt z a.uid a.windex = loadsAt y.1 a.uid a.windex := by
    rw [← hz, loadsAt_recordSpec, loadsAt_raisePts]
  have hpieces : loadPieces (readState s a key attr) a [wholePiece a key attr] =
      (z, y.2.1, poisonAt (readState s a key attr) a (wholePiece a key attr) key) := by
    simp only [loadPieces, hpiece, List.append_nil]
    split
    · rfl
    · next h => simp [Option.not_isSome_iff_eq_none.1 h]
  have hread : spoilUc s a.uid ([wholePiece a key attr].map (·.place)) = readState s a key attr := rfl
  have hmemz : z.mem = s.mem := by rw [← hz, recordSpec_mem, raisePts_mem, hmem]
  refine ⟨if hasAcq false a.order then acquireAt z (coreOf s a.uid) else z, ?_, ?_, ?_, ?_⟩
  · unfold performAccess
    rw [if_pos (by simpa using hk), hread, hpieces]
  · split <;> exact hmemz
  · split <;> exact hlines
  · split <;> exact hloads

/-- The state in which the access reads, once it has reached its home. -/
def readAt (s : State) (a : Acc) (wc : List WalkEntry) (key attr : Nat) : State :=
  readState (reached s wc) (numbered s a) key attr

/-- A near load: what its lane receives, and the timestamps that it leaves. -/
theorem submitAccess_load (hk : a.kind = 0) (h : AtHome s a key attr) : ∃ wc,
    (submitAccess s a).mem = s.mem ∧
    (submitAccess s a).lineTs = (homeRead (readAt s a wc key attr) (numbered s a) key attr).1.lineTs ∧
    loadsAt (submitAccess s a) a.uid a.windex =
      (loadsAt (homeRead (readAt s a wc key attr) (numbered s a) key attr).1 a.uid a.windex).map fun ls => ls.map fun l =>
        if l.tag == a.tag then l.take a.lane a.sh
          (BitVec.ofNat 64 (ofBytes (homeRead (readAt s a wc key attr) (numbered s a) key attr).2.1)) (metPoison s a key attr)
        else l := by
  obtain ⟨wc, hsub⟩ := submitAccess_of_home h
  obtain ⟨z, hz, hmem, hlines, hloads⟩ := performAccess_load (s := reached s wc) (a := numbered s a) (key := key) (attr := attr) hk h.near
  have hpoison : poisonAt (readAt s a wc key attr) (numbered s a) (wholePiece (numbered s a) key attr) key = metPoison s a key attr := by
    have hsame : (readAt s a wc key attr).poisoned = s.poisoned := spoilUc_keeps State.poisoned (fun _ _ _ _ => rfl) (reached s wc) ..
    simp only [metPoison, poisonAt, poisonIn, hsame]
    rfl
  have hnw : (numbered s a).writes = false := by simp [Acc.writes, numbered, hk]
  refine ⟨wc, ?_⟩
  rw [hsub, hz, answered, hnw, ← hpoison]
  refine ⟨?_, ?_, ?_⟩
  · exact (deliver_mem ..).trans hmem
  · exact (updWeave_keeps State.lineTs (fun _ _ _ _ => rfl) ..).trans hlines
  · refine (loadsAt_deliver ..).trans ?_
    exact congrArg (Option.map _) hloads

/-- What the state in which a load reads has in common with the one at issue. -/
theorem readAt_same (wc : List WalkEntry) : coreOf (readAt s a wc key attr) a.uid = coreOf s a.uid ∧
    ptsNow (readAt s a wc key attr) (numbered s a) = ptsOf s a ∧ (readAt s a wc key attr).cores = s.cores ∧
    (readAt s a wc key attr).lineTs = s.lineTs ∧ (readAt s a wc key attr).mem = s.mem ∧
    loadsAt (readAt s a wc key attr) a.uid a.windex = loadsAt s a.uid a.windex :=
  ⟨coreOf_spoilUc (reached s wc) .., ptsNow_spoilUc (reached s wc) .., spoilUc_keeps State.cores (fun _ _ _ _ => rfl) (reached s wc) ..,
    spoilUc_keeps State.lineTs (fun _ _ _ _ => rfl) (reached s wc) .., spoilUc_keeps State.mem (fun _ _ _ _ => rfl) (reached s wc) ..,
    congrArg (Option.map Weave.loads) (peekWeave_spoilUc (reached s wc) ..)⟩

/-- The copy of the line that the core holds under a lease that lasts for the access's ply. -/
def leaseOf (s : State) (a : Acc) : Option L1Copy :=
  (findCore s (coreOf s a.uid)).l1.find? (fun c => c.line == iaLine a.ia && ptsOf s a ≤ c.rts)

theorem lease_readAt (wc : List WalkEntry) :
    (findCore (readAt s a wc key attr) (coreOf (readAt s a wc key attr) a.uid)).l1.find?
      (fun c => c.line == iaLine a.ia && ptsNow (readAt s a wc key attr) (numbered s a) ≤ c.rts) = leaseOf s a := by
  obtain ⟨hcore, hpts, hcores, -⟩ := readAt_same (s := s) (a := a) (key := key) (attr := attr) wc
  rw [hcore, hpts, leaseOf]
  simp only [findCore, hcores]

/-- While the core's copy lasts, the load reads the copy and changes nothing. -/
theorem homeRead_of_lease (wc : List WalkEntry) {c : L1Copy} (hmay : l1May attr a.policy = true) (hc : leaseOf s a = some c) :
    (homeRead (readAt s a wc key attr) (numbered s a) key attr).1 = readAt s a wc key attr ∧
    (homeRead (readAt s a wc key attr) (numbered s a) key attr).2.1 = (c.data.drop (a.ia % 128)).take a.n := by
  have hread : homeRead (readAt s a wc key attr) (numbered s a) key attr = _ :=
    l1Read_of_lease hmay ((lease_readAt wc).trans hc)
  rw [hread]
  exact ⟨rfl, rfl⟩

/-- Else it reads memory, and the line may be read until 16 above the ply's timestamp. -/
theorem homeRead_of_no_lease (wc : List WalkEntry) (h : l1May attr a.policy = false ∨ leaseOf s a = none) :
    loadsAt (homeRead (readAt s a wc key attr) (numbered s a) key attr).1 a.uid a.windex = loadsAt s a.uid a.windex ∧
    (tsOf (homeRead (readAt s a wc key attr) (numbered s a) key attr).1 (iaLine a.ia)).rts =
      max (tsOf s (iaLine a.ia)).rts (ptsOf s a + 16) ∧
    (homeRead (readAt s a wc key attr) (numbered s a) key attr).2.1 = cellReadN s.mem key a.n := by
  obtain ⟨-, hpts, -, hlines, hmem, hloads⟩ := readAt_same (s := s) (a := a) (key := key) (attr := attr) wc
  have hread : homeRead (readAt s a wc key attr) (numbered s a) key attr = _ :=
    l1Read_of_no_lease (h.imp_right fun hnone => (lease_readAt wc).trans hnone)
  have hts : tsOf (readAt s a wc key attr) (iaLine a.ia) = tsOf s (iaLine a.ia) := by
    unfold tsOf
    rw [hlines]
  rw [hread]
  refine ⟨?_, ?_, congrArg (cellReadN · key a.n) hmem⟩
  · exact (l1Fill_keeps (loadsAt · a.uid a.windex) (fun _ _ => rfl) ..).trans hloads
  · refine (congrArg LineTs.rts ((l1Fill_keeps (tsOf · (iaLine a.ia)) (fun _ _ => rfl) ..).trans (tsOf_setTs ..))).trans ?_
    have hline : (tsOf s (iaLine a.ia)).line = iaLine a.ia := by
      unfold tsOf
      cases hf : s.lineTs.find? (·.line == iaLine a.ia) with
      | none => rfl
      | some t => simpa using List.find?_some hf
    show (if iaLine a.ia = (tsOf (readAt s a wc key attr) (iaLine a.ia)).line then _ else _ : LineTs).rts = _
    rw [hts, if_pos hline.symm]
    show max (tsOf (readAt s a wc key attr) (iaLine a.ia)).rts (ptsNow (readAt s a wc key attr) (numbered s a) + 16) = _
    rw [hts, hpts]

end

theorem loadPerformed : Rules.LoadPerformed := by
  intro s a key attr hk h t lease
  obtain ⟨wc, hmem, hlines, hloads⟩ := submitAccess_load hk h
  refine ⟨fun x => congrArg (cellRead · x) hmem, fun hnone => ?_, fun c hmay hc => ?_⟩
  · obtain ⟨hsame, hrts, hbytes⟩ := homeRead_of_no_lease (key := key) wc hnone
    rw [hsame, hbytes] at hloads
    refine ⟨hloads.trans (received_eq ..).symm, ?_⟩
    rw [← hrts]
    unfold tsOf
    rw [show t.lineTs = _ from hlines]
  · obtain ⟨hsame, hbytes⟩ := homeRead_of_lease (key := key) wc hmay hc
    obtain ⟨-, -, -, -, -, hbefore⟩ := readAt_same (s := s) (a := a) (key := key) (attr := attr) wc
    rw [hsame, hbytes, hbefore] at hloads
    exact hloads.trans (received_eq ..).symm

/-! ### Reservations wherever they stand (R119) -/

/-- The weave v of the team u holds the reservation r. -/
def HoldsResv (s : State) (u v : Nat) (r : Resv) : Prop :=
  (u = s.team.uid ∧ v = s.weave.windex ∧ r ∈ s.weave.resv) ∨
  (u = s.team.uid ∧ ∃ w ∈ s.team.weaves, v = w.windex ∧ r ∈ w.resv) ∨
  ∃ t ∈ s.teams, u = t.uid ∧ ∃ w ∈ t.weaves, v = w.windex ∧ r ∈ w.resv

theorem exists_mem_map_weave {ws : List Weave} {f : Weave → Weave} (hi : ∀ w, (f w).windex = w.windex)
    (hr : ∀ w, (f w).resv = w.resv) {v : Nat} {r : Resv} (h : ∃ w ∈ ws.map f, v = w.windex ∧ r ∈ w.resv) :
    ∃ w ∈ ws, v = w.windex ∧ r ∈ w.resv := by
  obtain ⟨w, hw, hv, hmem⟩ := h
  obtain ⟨x, hx, rfl⟩ := List.mem_map.1 hw
  exact ⟨x, hx, hv.trans (hi x), hr x ▸ hmem⟩

/-- An update of a weave that keeps its reservations. -/
theorem HoldsResv.of_updWeave {s : State} {uid windex : Nat} {f : Weave → Weave} (hi : ∀ w, (f w).windex = w.windex)
    (hr : ∀ w, (f w).resv = w.resv) {u v : Nat} {r : Resv} (h : HoldsResv (updWeave s uid windex f) u v r) :
    HoldsResv s u v r := by
  have hi' : ∀ w : Weave, (if w.windex == windex then f w else w).windex = w.windex := fun w => by split <;> simp [hi]
  have hr' : ∀ w : Weave, (if w.windex == windex then f w else w).resv = w.resv := fun w => by split <;> simp [hr]
  unfold updWeave at h
  split at h
  · split at h
    · refine h.imp_left fun ⟨hu, hv, hmem⟩ => ⟨hu, hv.trans (hi _), hr s.weave ▸ hmem⟩
    · refine h.imp_right (Or.imp_left fun ⟨hu, hw⟩ => ⟨hu, exists_mem_map_weave hi' hr' hw⟩)
  · refine h.imp_right (Or.imp_right fun ⟨t, ht, hu, hw⟩ => ?_)
    obtain ⟨x, hx, rfl⟩ := List.mem_map.1 ht
    by_cases hteam : (x.uid == uid) = true
    · rw [if_pos hteam] at hu hw
      exact ⟨x, hx, hu, exists_mem_map_weave hi' hr' hw⟩
    · rw [if_neg hteam] at hu hw
      exact ⟨x, hx, hu, hw⟩

theorem HoldsResv.of_raisePts {s : State} {a : Acc} {ts u v : Nat} {r : Resv} (h : HoldsResv (raisePts s a ts) u v r) :
    HoldsResv s u v r := by
  unfold raisePts updPly at h
  split at h
  · exact h
  · exact h.of_updWeave (by intro; rfl) (by intro; rfl)

/-- After a write the reservations left on its lines are those of the writing ply's own lanes. -/
theorem HoldsResv.own_of_clearResv {s : State} {lines : List Nat} {x w p u v : Nat} {r : Resv}
    (h : HoldsResv (clearResv s lines (some (x, w, p))) u v r) (hline : r.line ∈ lines) :
    (x, w) = (u, v) ∧ inMask (((peekPly s x w p).map (·.mask)).getD 0#32) r.lane = true := by
  have hkept : ∀ {y z : Nat} {rs : List Resv}, r ∈ rs.filter (fun r =>
      !lines.contains r.line || ((some (x, w) == some (y, z)) && inMask (((peekPly s x w p).map (·.mask)).getD 0#32) r.lane)) →
      (x, w) = (y, z) ∧ inMask (((peekPly s x w p).map (·.mask)).getD 0#32) r.lane = true := by
    intro y z rs hmem
    have hcond := (List.mem_filter.1 hmem).2
    simpa [hline] using hcond
  rcases h with ⟨rfl, rfl, hmem⟩ | ⟨rfl, y, hy, rfl, hmem⟩ | ⟨t, ht, rfl, y, hy, rfl, hmem⟩
  · exact hkept hmem
  · obtain ⟨z, -, rfl⟩ := List.mem_map.1 hy
    exact hkept hmem
  · obtain ⟨t0, -, rfl⟩ := List.mem_map.1 ht
    obtain ⟨z, -, rfl⟩ := List.mem_map.1 hy
    exact hkept hmem

/-! ### A store at its home (R105, R109, R119, R359) -/

section
variable {s : State} {a : Acc} {key attr : Nat}

/-- What a home holds of its memory. -/
def homeView (s : State) : List Host.Cell × List Nat × List Watch × List LineTs := (s.mem, s.poisoned, s.watches, s.lineTs)

/-- The bytes of an access that lies in one line. -/
theorem linesIn_one {ia n : Nat} (hn : 0 < n) (hline : ia % 128 + n ≤ 128) : linesIn ia n = [iaLine ia] := by
  have hlast : (ia + n - 1) / 128 = ia / 128 := by omega
  simp [linesIn, hlast, iaLine]

/-- The place of a near store in its line's order: above the line's leases and the ply's own time. -/
def placeOfStore (s : State) (a : Acc) : Nat := max (ptsOf s a) ((tsOf s (iaLine a.ia)).rts + 1)

/-- What the store of an access makes of the state at its home. -/
def stored (s : State) (a : Acc) (wc : List WalkEntry) (key : Nat) : State :=
  spoilWords (performWrite (reached s wc) key a.ia (tableBytes s key (toBytes a.n a.data.toNat)) (placeOfStore s a)
    (some (a.uid, a.windex, a.ply))) key a.n a.bad

/-- A near store leaves what its write makes of the home. -/
theorem storePieces_near (h : AtHome s a key attr) (hfine : refusedWrite s key (toBytes a.n a.data.toNat) = none)
    (wc : List WalkEntry) : storePieces (reached s wc) (numbered s a) false [wholePiece (numbered s a) key attr]
      (toBytes a.n a.data.toNat) =
    raisePts (l1Fill (stored s a wc key) (coreOf (reached s wc) a.uid) key a.ia attr a.policy) (numbered s a) (placeOfStore s a) := by
  have hnear : isNear (reached s wc) (numbered s a).src (numbered s a).ia = true := h.near
  have hts : storeTs (reached s wc) (ptsNow (reached s wc) (numbered s a)) (linesIn a.ia a.n) false = placeOfStore s a := by
    rw [linesIn_one h.size.1 h.line]
    rfl
  have hwrite : storeBytes (reached s wc) key a.ia (toBytes a.n a.data.toNat) (placeOfStore s a) (some (a.uid, a.windex, a.ply)) =
      performWrite (reached s wc) key a.ia (tableBytes s key (toBytes a.n a.data.toNat)) (placeOfStore s a)
        (some (a.uid, a.windex, a.ply)) := by
    have hfine' : refusedWrite (reached s wc) key (toBytes a.n a.data.toNat) = none := hfine
    unfold storeBytes
    rw [hfine']
    rfl
  have hall : (toBytes a.n a.data.toNat).take a.n = toBytes a.n a.data.toNat :=
    List.take_of_length_le (length_toBytes ..).le
  show storePiece (reached s wc) (numbered s a) (wholePiece (numbered s a) key attr) ((toBytes a.n a.data.toNat).take a.n) false = _
  rw [hall]
  simp only [storePiece, wholePiece, hnear, if_true]
  show raisePts (l1Fill (spoilWords (storeBytes _ _ a.ia _ (storeTs _ _ (linesIn a.ia a.n) false) (some (a.uid, a.windex, a.ply))) _ _ _)
    _ _ _ _ _) _ (storeTs _ _ (linesIn a.ia a.n) false) = _
  rw [hts, hwrite]
  rfl

theorem performAccess_store (hk : a.kind = 1) (h : AtHome s a key attr)
    (hfine : refusedWrite s key (toBytes a.n a.data.toNat) = none) (wc : List WalkEntry) :
    homeView (performAccess (reached s wc) (numbered s a) [wholePiece (numbered s a) key attr]).1 = homeView (stored s a wc key) ∧
    ∀ u v r, HoldsResv (performAccess (reached s wc) (numbered s a) [wholePiece (numbered s a) key attr]).1 u v r →
      HoldsResv (stored s a wc key) u v r := by
  have hstate : (performAccess (reached s wc) (numbered s a) [wholePiece (numbered s a) key attr]).1 =
      if hasAcq true a.order then acquireAt (storePieces (reached s wc) (numbered s a) false [wholePiece (numbered s a) key attr]
        (toBytes a.n a.data.toNat)) (coreOf (reached s wc) a.uid)
      else storePieces (reached s wc) (numbered s a) false [wholePiece (numbered s a) key attr] (toBytes a.n a.data.toNat) := by
    have hk' : (numbered s a).kind = 1 := hk
    simp only [performAccess, hk']
    rfl
  rw [hstate, storePieces_near h hfine wc]
  have hview : homeView (raisePts (l1Fill (stored s a wc key) (coreOf (reached s wc) a.uid) key a.ia attr a.policy) (numbered s a)
      (placeOfStore s a)) = homeView (stored s a wc key) :=
    (updPly_keeps homeView (fun _ _ _ _ _ => rfl) ..).trans (l1Fill_keeps homeView (fun _ _ => rfl) ..)
  have hresv : ∀ u v r, HoldsResv (raisePts (l1Fill (stored s a wc key) (coreOf (reached s wc) a.uid) key a.ia attr a.policy)
      (numbered s a) (placeOfStore s a)) u v r → HoldsResv (stored s a wc key) u v r := fun u v r hr =>
    l1Fill_keeps (fun b => HoldsResv b u v r) (fun _ _ => rfl) (stored s a wc key) .. ▸ hr.of_raisePts
  split
  · exact ⟨hview, hresv⟩
  · exact ⟨hview, hresv⟩

theorem submitAccess_store (hk : a.kind = 1) (h : AtHome s a key attr)
    (hfine : refusedWrite s key (toBytes a.n a.data.toNat) = none) : ∃ wc,
    homeView (submitAccess s a) = homeView (stored s a wc key) ∧
    ∀ u v r, HoldsResv (submitAccess s a) u v r → HoldsResv (stored s a wc key) u v r := by
  obtain ⟨wc, hsub⟩ := submitAccess_of_home h
  have hw : (numbered s a).writes = true := by simp [Acc.writes, numbered, hk]
  refine ⟨wc, ?_⟩
  rw [hsub, answered, if_pos hw]
  exact performAccess_store hk h hfine wc

/-- A write within one line. -/
theorem performWrite_one {b : State} {ia ts : Nat} {bytes : List Byte} (by_ : Option (Nat × Nat × Nat))
    (hlines : linesIn ia bytes.length = [iaLine ia]) : performWrite b key ia bytes ts by_ =
      hitWatches (clearResv (setTs (clearPoison { b with mem := cellWriteN b.mem key bytes } key bytes.length)
        ⟨iaLine ia, ts, ts⟩) [iaLine ia] by_) [iaLine ia] := by
  unfold performWrite
  dsimp only
  rw [hlines]
  rfl

theorem length_tableBytes (s : State) (key : Nat) (bytes : List Byte) : (tableBytes s key bytes).length = bytes.length := by
  unfold tableBytes
  split
  · rfl
  · simp

/-- The bytes that a store writes. -/
def storedBytes (s : State) (a : Acc) (key : Nat) : List Byte := tableBytes s key (toBytes a.n a.data.toNat)

theorem length_storedBytes (s : State) (a : Acc) (key : Nat) : (storedBytes s a key).length = a.n :=
  (length_tableBytes ..).trans (length_toBytes ..)

/-- The state after a store's bytes and timestamps, before an error of its data. -/
def lineWritten (s : State) (a : Acc) (wc : List WalkEntry) (key : Nat) : State :=
  hitWatches (clearResv (setTs (clearPoison { reached s wc with mem := cellWriteN s.mem key (storedBytes s a key) } key a.n)
    ⟨iaLine a.ia, placeOfStore s a, placeOfStore s a⟩) [iaLine a.ia] (some (a.uid, a.windex, a.ply))) [iaLine a.ia]

theorem stored_eq (h : AtHome s a key attr) (wc : List WalkEntry) :
    stored s a wc key = spoilWords (lineWritten s a wc key) key a.n a.bad := by
  have hone : linesIn a.ia (storedBytes s a key).length = [iaLine a.ia] := by
    rw [length_storedBytes]
    exact linesIn_one h.size.1 h.line
  have hwrite := performWrite_one (key := key) (b := reached s wc) (ts := placeOfStore s a) (some (a.uid, a.windex, a.ply)) hone
  rw [length_storedBytes] at hwrite
  rw [stored]
  exact congrArg (spoilWords · key a.n a.bad) hwrite

/-- An error in the data marks words and changes nothing else. -/
theorem spoilWords_keeps {γ : Type} (p : State → γ) (hp : ∀ s ws, p { s with poisoned := ws } = p s) (s : State) (key n : Nat)
    (bad : Bool) : p (spoilWords s key n bad) = p s := by
  unfold spoilWords
  split
  · exact hp ..
  · rfl

section
variable (h : AtHome s a key attr) (wc : List WalkEntry)
include h

theorem stored_mem : (stored s a wc key).mem = cellWriteN s.mem key (storedBytes s a key) := by
  rw [stored_eq h]
  exact spoilWords_keeps State.mem (fun _ _ => rfl) ..

theorem stored_rts : (tsOf (stored s a wc key) (iaLine a.ia)).rts = placeOfStore s a := by
  rw [stored_eq h]
  refine (congrArg LineTs.rts (spoilWords_keeps (tsOf · (iaLine a.ia)) (fun _ _ => rfl) ..)).trans ?_
  have hset := tsOf_setTs (clearPoison { reached s wc with mem := cellWriteN s.mem key (storedBytes s a key) } key a.n)
    ⟨iaLine a.ia, placeOfStore s a, placeOfStore s a⟩ (iaLine a.ia)
  exact congrArg LineTs.rts (hset.trans (if_pos rfl))

theorem stored_watches {x : Watch} (hx : x ∈ (stored s a wc key).watches) (hline : x.line = iaLine a.ia) : x.hit = true := by
  rw [stored_eq h, spoilWords_keeps State.watches (fun _ _ => rfl)] at hx
  obtain ⟨y, -, rfl⟩ := List.mem_map.1 hx
  split
  · rfl
  · next hne =>
    rw [if_neg hne] at hline
    exact absurd hline (by simpa using hne)

theorem stored_resv {u v : Nat} {r : Resv} (hr : HoldsResv (stored s a wc key) u v r) (hline : r.line = iaLine a.ia) :
    ownResv s a u v r.lane := by
  have hheld : HoldsResv (lineWritten s a wc key) u v r := by
    rw [stored_eq h] at hr
    exact spoilWords_keeps (HoldsResv · u v r) (fun _ _ => rfl) (lineWritten s a wc key) .. ▸ hr
  obtain ⟨hname, hlane⟩ := HoldsResv.own_of_clearResv (s := setTs _ _) hheld (by simp [hline])
  refine ⟨hname, ?_⟩
  cases hp : peekPly s a.uid a.windex a.ply with
  | none =>
    exfalso
    have hlane' : inMask (((peekPly s a.uid a.windex a.ply).map (·.mask)).getD 0#32) r.lane = true := hlane
    simp [hp, inMask] at hlane'
  | some p =>
    have hlane' : inMask (((peekPly s a.uid a.windex a.ply).map (·.mask)).getD 0#32) r.lane = true := hlane
    rw [hp] at hlane'
    exact ⟨p, rfl, hlane'⟩

theorem stored_heals (hgood : a.bad = false) {w : Nat} (hw : w ∈ (stored s a wc key).poisoned) :
    ¬ (key ≤ 4 * w ∧ 4 * w + 4 ≤ key + a.n) := by
  rw [stored_eq h, spoilWords, hgood] at hw
  have hkept : w ∈ s.poisoned.filter (fun w => !(key ≤ 4 * w && 4 * w + 4 ≤ key + a.n)) := hw
  have hcond := (List.mem_filter.1 hkept).2
  rintro ⟨hlo, hhi⟩
  simp [hlo, hhi] at hcond

theorem stored_poisons (hbad : a.bad = true) {k : Nat} (hk : k < a.n) : (key + k) / 4 ∈ (stored s a wc key).poisoned := by
  rw [stored_eq h, spoilWords, hbad, if_pos rfl]
  refine (mem_distinct _ _).2 (List.mem_append_right _ (List.mem_map.2 ⟨(key + k) / 4 - key / 4, ?_, ?_⟩))
  · rw [List.mem_range]
    omega
  · omega

end

end

theorem storePerformed : Rules.StorePerformed := by
  intro s a key attr hsafe hk h hfine t
  obtain ⟨wc, hview, hresv⟩ := submitAccess_store hk h hfine
  have hmem : t.mem = cellWriteN s.mem key (storedBytes s a key) := (congrArg (·.1) hview).trans (stored_mem h wc)
  have hpoisoned : t.poisoned = (stored s a wc key).poisoned := congrArg (·.2.1) hview
  have hwatches : t.watches = (stored s a wc key).watches := congrArg (·.2.2.1) hview
  have hlines : t.lineTs = (stored s a wc key).lineTs := congrArg (·.2.2.2) hview
  have hbyte : ∀ x, byteAt t x = if key ≤ x ∧ x < key + a.n then (storedBytes s a key).getD (x - key) 0#8 else byteAt s x := by
    intro x
    rw [byteAt, hmem, cellRead_cellWriteN hsafe, length_storedBytes]
    rfl
  have hin : ∀ k < a.n, byteAt t (key + k) = (storedBytes s a key).getD k 0#8 := by
    intro k hk
    rw [hbyte, if_pos (by omega), Nat.add_sub_cancel_left]
  refine ⟨hin, fun hplain k hk => ?_, fun x hx => ?_, fun r hr hl => ?_, fun w hw r hr hl => ?_, fun u hu w hw r hr hl => ?_,
    fun x hx => ?_, fun hgood w hw => ?_, fun hbad k hk => ?_, ?_⟩
  · have hbytes : storedBytes s a key = toBytes a.n a.data.toNat := by
      unfold storedBytes tableBytes
      rw [hplain]
    rw [hin k hk, hbytes, toBytes, getD_map_range _ _ hk, Nat.pow_mul]
  · rw [hbyte, if_neg (by omega)]
  · exact stored_resv h wc (hresv _ _ _ (.inl ⟨rfl, rfl, hr⟩)) hl
  · exact stored_resv h wc (hresv _ _ _ (.inr (.inl ⟨rfl, w, hw, rfl, hr⟩))) hl
  · exact stored_resv h wc (hresv _ _ _ (.inr (.inr ⟨u, hu, rfl, w, hw, rfl, hr⟩))) hl
  · rw [hwatches] at hx
    exact stored_watches h wc hx
  · rw [hpoisoned] at hw
    exact stored_heals h wc hgood hw
  · rw [hpoisoned]
    exact stored_poisons h wc hbad hk
  · have hts : tsOf t (iaLine a.ia) = tsOf (stored s a wc key) (iaLine a.ia) := by
      unfold tsOf
      rw [hlines]
    rw [hts]
    exact stored_rts h wc

/-- Settles O24: a near access is performed in the state that it reaches; a load then reads the copy or the line, a store is
one write within one line. -/
theorem nearLoadsAndStores : Obligations.NearLoadsAndStores := ⟨loadPerformed, storePerformed⟩

end Sys2Proof.Laws
end

