-- ==== Sys2Proof/Proofs/AtomicsAtHome.lean ====
section
/-!
Settles O25: atomics, reservations and reductions as their home performs them.
-/

namespace Sys2Proof.Laws
open Sys2Proof Sys2Proof.Machine Sys2Proof.Safety

/-! ### Updates of every weave -/

/-- An update of every weave, seen at any name. -/
theorem peekWeave_updAllWeaves (s : State) {f : Nat → Weave → Weave} (hf : ∀ uid w, (f uid w).windex = w.windex) (u v : Nat) :
    peekWeave (updAllWeaves s f) u v = (peekWeave s u v).map (f u) := by
  have hfind : ∀ uid (ws : List Weave), (ws.map (f uid)).find? (·.windex == v) = (ws.find? (·.windex == v)).map (f uid) := fun uid ws => by
    rw [List.find?_map]
    congr 2
    funext w
    simp [hf]
  by_cases hu : (s.focused && s.team.uid == u) = true
  · have huid : s.team.uid = u := by simpa using (Bool.and_eq_true_iff.1 hu).2
    have hu' : ((updAllWeaves s f).focused && (updAllWeaves s f).team.uid == u) = true := hu
    unfold peekWeave
    rw [if_pos hu, if_pos hu']
    show (if (f s.team.uid s.weave).windex == v then some (f s.team.uid s.weave) else (s.team.weaves.map (f s.team.uid)).find? _) = _
    rw [hf, huid, hfind, ← huid]
    split <;> rfl
  · rw [peekWeave_of_elsewhere hu, peekWeave_of_elsewhere (s := updAllWeaves s f) hu]
    have hteam : findTeam (updAllWeaves s f) u = (findTeam s u).map fun t => { t with weaves := t.weaves.map (f t.uid) } := by
      show (s.teams.map _).find? _ = _
      rw [List.find?_map]
      rfl
    unfold findWeave
    rw [hteam]
    cases ht : findTeam s u with
    | none => rfl
    | some t =>
      have huid : t.uid = u := findTeam_uid ht
      show (t.weaves.map (f t.uid)).find? _ = _
      rw [huid, hfind]
      rfl

/-- Clearing reservations leaves loads and plies. -/
theorem loadsAt_clearResv (s : State) (lines : List Nat) (by_ : Option (Nat × Nat × Nat)) (u v : Nat) :
    loadsAt (clearResv s lines by_) u v = loadsAt s u v := by
  unfold loadsAt clearResv
  rw [peekWeave_updAllWeaves s (by intros; rfl), Option.map_map]
  rfl

theorem ptsNow_clearResv (s : State) (lines : List Nat) (by_ : Option (Nat × Nat × Nat)) (a : Acc) :
    ptsNow (clearResv s lines by_) a = ptsNow s a := by
  have hply : peekPly (clearResv s lines by_) a.uid a.windex a.ply = peekPly s a.uid a.windex a.ply := by
    have hweave : (peekWeave (clearResv s lines by_) a.uid a.windex).bind (fun w => w.plies.find? (·.n == a.ply)) =
        (peekWeave s a.uid a.windex).bind (fun w => w.plies.find? (·.n == a.ply)) := by
      unfold clearResv
      rw [peekWeave_updAllWeaves s (by intros; rfl), Option.bind_map]
      rfl
    unfold peekPly
    rw [hweave]
    rfl
  unfold ptsNow
  rw [hply]
  rfl

/-! ### What an atomic leaves -/

/-- What an access's home holds of its line and its weave. -/
def lineView (s : State) (a : Acc) : List Host.Cell × List LineTs × Option (List LoadReq) :=
  (s.mem, s.lineTs, loadsAt s a.uid a.windex)

theorem lineView_raisePts (s : State) (a b : Acc) (ts : Nat) : lineView (raisePts s b ts) a = lineView s a := by
  have hlines : (raisePts s b ts).lineTs = s.lineTs := updPly_keeps State.lineTs (fun _ _ _ _ _ => rfl) ..
  unfold lineView
  rw [raisePts_mem, hlines, loadsAt_raisePts]

theorem lineView_clearResv (s : State) (lines : List Nat) (by_ : Option (Nat × Nat × Nat)) (a : Acc) :
    lineView (clearResv s lines by_) a = lineView s a := by
  unfold lineView
  rw [loadsAt_clearResv]
  rfl

theorem lineView_updWeave (s : State) {f : Weave → Weave} (hf : ∀ w, (f w).windex = w.windex ∧ (f w).loads = w.loads)
    (uid windex : Nat) (a : Acc) : lineView (updWeave s uid windex f) a = lineView s a := by
  have hlines : (updWeave s uid windex f).lineTs = s.lineTs := updWeave_keeps State.lineTs (fun _ _ _ _ => rfl) ..
  have hloads : loadsAt (updWeave s uid windex f) a.uid a.windex = loadsAt s a.uid a.windex := by
    unfold loadsAt
    rw [peekWeave_updWeave s uid windex (fun w => (hf w).1), Option.map_map]
    congr 1
    funext w
    dsimp only [Function.comp]
    split
    · exact (hf w).2
    · rfl
  unfold lineView
  rw [updWeave_mem, hlines, hloads]

/-- The reservations of a weave wherever it stands. -/
def resvAt (s : State) (a : Acc) : Option (List Resv) := (peekWeave s a.uid a.windex).map (·.resv)

theorem holdsResv_eq (s : State) (a : Acc) : holdsResv s a = ((resvAt s a).map (·.contains ⟨a.lane, iaLine a.ia⟩)).getD false := by
  unfold holdsResv resvAt
  rw [Option.map_map]
  rfl

theorem holdsResv_congr {s t : State} {a : Acc} (h : resvAt t a = resvAt s a) : holdsResv t a = holdsResv s a := by
  rw [holdsResv_eq, holdsResv_eq, h]

theorem resvAt_deliver (s : State) (a : Acc) (tag ln : Nat) (x : DWord) (bad : Option Nat) (sh : Nat) :
    resvAt (deliver s a.uid a.windex tag ln x bad sh) a = resvAt s a := by
  unfold resvAt deliver
  rw [peekWeave_updWeave s a.uid a.windex (by intro; rfl), Option.map_map]
  congr 1
  funext w
  dsimp only [Function.comp]
  split <;> rfl

theorem resvAt_dropResv (s : State) (a : Acc) :
    resvAt (dropResv s a) a = (resvAt s a).map (·.filter (fun r => r.lane != a.lane)) := by
  unfold resvAt dropResv
  rw [peekWeave_updWeave s a.uid a.windex (by intro; rfl), Option.map_map, Option.map_map]
  congr 1
  funext w
  simp

/-- After `sc` its lane holds no reservation (R229). -/
theorem holdsResv_dropResv (s : State) (a : Acc) : holdsResv (dropResv s a) a = false := by
  rw [holdsResv_eq, resvAt_dropResv]
  cases resvAt s a <;> simp

theorem lineView_dropResv (s : State) (a b : Acc) : lineView (dropResv s b) a = lineView s a :=
  lineView_updWeave s (by intro; exact ⟨rfl, rfl⟩) ..

section
variable {s : State} {a : Acc} {key attr : Nat}

/-- An atomic's place in its line's order: above every lease and every write of the line (R118). -/
def placeOfAtomic (s : State) (a : Acc) : Nat :=
  max (ptsOf s a) (max ((tsOf s (iaLine a.ia)).rts + 1) ((tsOf s (iaLine a.ia)).wts + 1))

/-- The timestamps of the lines once the access has taken its place. -/
def placedLines (s : State) (a : Acc) : List LineTs := (setTs s ⟨iaLine a.ia, placeOfAtomic s a, placeOfAtomic s a⟩).lineTs

theorem rts_of_placed {t : State} (h : t.lineTs = placedLines s a) : (tsOf t (iaLine a.ia)).rts = placeOfAtomic s a := by
  have hset := tsOf_setTs s ⟨iaLine a.ia, placeOfAtomic s a, placeOfAtomic s a⟩ (iaLine a.ia)
  rw [if_pos rfl] at hset
  have hsame : tsOf t (iaLine a.ia) = tsOf (setTs s ⟨iaLine a.ia, placeOfAtomic s a, placeOfAtomic s a⟩) (iaLine a.ia) := by
    unfold tsOf
    rw [h]
    rfl
  rw [hsame, hset]

theorem storeTs_atomic (h : AtHome s a key attr) {v : State} (hv : v.lineTs = s.lineTs) (pts : Nat) :
    storeTs v pts (linesIn a.ia a.n) true = max pts (max ((tsOf s (iaLine a.ia)).rts + 1) ((tsOf s (iaLine a.ia)).wts + 1)) := by
  have hts : tsOf v (iaLine a.ia) = tsOf s (iaLine a.ia) := by
    unfold tsOf
    rw [hv]
  rw [linesIn_one h.size.1 h.line]
  simp [storeTs, hts]

theorem lineView_hitWatches (s : State) (lines : List Nat) (a : Acc) : lineView (hitWatches s lines) a = lineView s a := rfl

/-- The bytes that an atomic writes where it has been let through (R345). -/
theorem lineView_storeBytes (h : AtHome s a key attr) (hfine : ∀ bs, refusedWrite s key bs = none) (wc : List WalkEntry) (x : Nat) :
    lineView (storeBytes (reached s wc) key a.ia (toBytes a.n x) (placeOfAtomic s a) (some (a.uid, a.windex, a.ply))) a =
      (cellWriteN s.mem key (tableBytes s key (toBytes a.n x)), placedLines s a, loadsAt s a.uid a.windex) := by
  have hfine' : refusedWrite (reached s wc) key (toBytes a.n x) = none := hfine _
  have htable : tableBytes (reached s wc) key (toBytes a.n x) = tableBytes s key (toBytes a.n x) := rfl
  have hone : linesIn a.ia (tableBytes s key (toBytes a.n x)).length = [iaLine a.ia] := by
    rw [length_tableBytes, length_toBytes]
    exact linesIn_one h.size.1 h.line
  unfold storeBytes
  rw [hfine']
  dsimp only
  rw [htable, performWrite_one _ hone, lineView_hitWatches, lineView_clearResv]
  exact Prod.ext rfl (Prod.ext rfl rfl)

/-- The line after a write of x by an atomic. -/
theorem lineView_storePieces (h : AtHome s a key attr) (hfine : ∀ bs, refusedWrite s key bs = none) (wc : List WalkEntry)
    (bad : Bool) (x : Nat) :
    lineView (storePieces (reached s wc) { numbered s a with bad := bad } true [wholePiece (numbered s a) key attr] (toBytes a.n x)) a =
      (cellWriteN s.mem key (tableBytes s key (toBytes a.n x)), placedLines s a, loadsAt s a.uid a.windex) := by
  have hnear : isNear (reached s wc) (numbered s a).src (numbered s a).ia = true := h.near
  have hts : storeTs (reached s wc) (ptsNow (reached s wc) { numbered s a with bad := bad }) (linesIn (numbered s a).ia (numbered s a).n) true =
      placeOfAtomic s a := storeTs_atomic h rfl _
  have hall : (toBytes a.n x).take a.n = toBytes a.n x := List.take_of_length_le (length_toBytes ..).le
  show lineView (storePiece (reached s wc) { numbered s a with bad := bad } (wholePiece (numbered s a) key attr)
    ((toBytes a.n x).take a.n) true) a = _
  rw [hall]
  simp only [storePiece, wholePiece, hnear, if_true, hts]
  rw [lineView_raisePts, l1Fill_keeps (lineView · a) (fun _ _ => rfl), spoilWords_keeps (lineView · a) (fun _ _ => rfl)]
  exact lineView_storeBytes h hfine wc x

/-- The line after a `cas` that fails: it takes its place, and no byte changes (R118, R228). -/
theorem lineView_stampFailed (h : AtHome s a key attr) (wc : List WalkEntry) :
    lineView (stampFailed (reached s wc) (numbered s a) (wholePiece (numbered s a) key attr)) a =
      (s.mem, placedLines s a, loadsAt s a.uid a.windex) := by
  have hcleared : ∀ b : State, b = clearResv (reached s wc) (linesIn a.ia a.n) (some (a.uid, a.windex, a.ply)) →
      lineView b a = lineView s a ∧ ptsNow b (numbered s a) = ptsOf s a ∧ isNear b a.src a.ia = true := by
    rintro b rfl
    exact ⟨lineView_clearResv .., ptsNow_clearResv .., h.near⟩
  have heq : stampFailed (reached s wc) (numbered s a) (wholePiece (numbered s a) key attr) =
      (let b := clearResv (reached s wc) (linesIn a.ia a.n) (some (a.uid, a.windex, a.ply))
       if isNear b a.src a.ia then
         raisePts (stampOnly b a.ia a.n (storeTs b (ptsNow b (numbered s a)) (linesIn a.ia a.n) true)) (numbered s a)
           (storeTs b (ptsNow b (numbered s a)) (linesIn a.ia a.n) true)
       else stampFailed (reached s wc) (numbered s a) (wholePiece (numbered s a) key attr)) := by
    obtain ⟨-, -, hnear⟩ := hcleared _ rfl
    dsimp only
    rw [if_pos hnear]
    unfold stampFailed
    exact if_pos hnear
  rw [heq]
  generalize hb : clearResv (reached s wc) (linesIn a.ia a.n) (some (a.uid, a.windex, a.ply)) = b
  obtain ⟨hview, hpts, hnear⟩ := hcleared b hb.symm
  simp only [lineView, Prod.mk.injEq] at hview
  obtain ⟨hmem, hlines, hloads⟩ := hview
  dsimp only
  rw [if_pos hnear, lineView_raisePts, hpts, storeTs_atomic h hlines]
  unfold stampOnly
  rw [linesIn_one h.size.1 h.line]
  show (b.mem, (setTs b ⟨iaLine a.ia, placeOfAtomic s a, placeOfAtomic s a⟩).lineTs, loadsAt b a.uid a.windex) = _
  rw [hmem, hloads]
  unfold placedLines setTs
  dsimp only
  rw [hlines]

end

/-! ### The operations (R118, R161, R226 to R229) -/

section
variable {s : State} {a : Acc} {key attr : Nat}

theorem atomicOld_whole (wc : List WalkEntry) :
    atomicOld (reached s wc) [wholePiece (numbered s a) key attr] = cellNat s.mem key a.n := by
  simp only [atomicOld, wholePiece, List.flatMap_cons, List.flatMap_nil, List.append_nil]
  rfl

/-- What an atomic that writes leaves in its element (R161). -/
def newValue (s : State) (a : Acc) (key : Nat) : Nat :=
  if a.op = 8 then a.data.toNat else amo a.op (Ty.ofCodeD a.type) (cellNat s.mem key a.n) a.data.toNat

/-- Every operation of R161, and a `cas` that finds its comparand, writes. -/
theorem performAtomic_of_write (hop : a.op < 8 ∨ a.op = 8 ∧ cellNat s.mem key a.n = a.cmp.toNat) (wc : List WalkEntry) :
    ∃ bad, performAtomic (reached s wc) (numbered s a) [wholePiece (numbered s a) key attr] =
      (storePieces (reached s wc) { numbered s a with bad := bad } true [wholePiece (numbered s a) key attr] (toBytes a.n (newValue s a key)),
        BitVec.ofNat 64 (cellNat s.mem key a.n), metPoison s a key attr) := by
  have hctl : inCtl [wholePiece (numbered s a) key attr] = false := rfl
  have hfail : ¬ ((numbered s a).op == 8 && cellNat s.mem key a.n != (numbered s a).cmp.toNat) = true := by
    rcases hop with hop | ⟨-, hold⟩
    · simp [numbered, show a.op ≠ 8 by omega]
    · simp [numbered, hold]
  have hsc : ¬ ((numbered s a).op == 10) = true := by simp [numbered]; omega
  have hlr : ¬ ((numbered s a).op == 9) = true := by simp [numbered]; omega
  refine ⟨a.bad || ((metPoison s a key attr).isSome && amoMixes a.op), ?_⟩
  unfold performAtomic
  rw [hctl, atomicOld_whole, List.findSome?_singleton]
  dsimp only
  rw [if_neg Bool.false_ne_true, if_neg hsc, if_neg hlr, if_neg hfail]
  simp only [beq_iff_eq]
  rfl

/-- A `cas` that does not find its comparand takes its place in the line's order (R118, R228). -/
theorem performAtomic_of_failed_cas (hop : a.op = 8) (hold : cellNat s.mem key a.n ≠ a.cmp.toNat) (wc : List WalkEntry) :
    performAtomic (reached s wc) (numbered s a) [wholePiece (numbered s a) key attr] =
      (stampFailed (reached s wc) (numbered s a) (wholePiece (numbered s a) key attr),
        BitVec.ofNat 64 (cellNat s.mem key a.n), metPoison s a key attr) := by
  have hctl : inCtl [wholePiece (numbered s a) key attr] = false := rfl
  have hop' : (numbered s a).op = 8 := hop
  have hold' : cellNat s.mem key a.n ≠ (numbered s a).cmp.toNat := hold
  unfold performAtomic
  rw [hctl, atomicOld_whole, List.findSome?_singleton]
  simp only [hop', Nat.reduceBEq, Bool.false_eq_true, if_false, Bool.true_and, bne_iff_ne, ne_eq, hold', not_false_eq_true, if_true]
  rfl

/-- `lr` reads the line at its home and reserves it for its lane (R229). -/
theorem performAtomic_of_lr (hop : a.op = 9) (hnear : isNear s a.src a.ia = true) (wc : List WalkEntry) : ∃ z,
    performAtomic (reached s wc) (numbered s a) [wholePiece (numbered s a) key attr] =
      (updWeave (dropResv z (numbered s a)) a.uid a.windex (fun w => { w with resv := w.resv ++ [⟨a.lane, iaLine a.ia⟩] }),
        BitVec.ofNat 64 (cellNat s.mem key a.n), metPoison s a key attr) ∧
      z.mem = s.mem ∧ loadsAt z a.uid a.windex = loadsAt s a.uid a.windex := by
  let b : Acc := { numbered s a with policy := 2 }
  have hnear' : isNear (reached s wc) b.src b.ia = true := hnear
  have hread : l1Read (reached s wc) (coreOf (reached s wc) b.uid) (ptsNow (reached s wc) b) key a.ia a.n attr 2 = _ :=
    l1Read_of_no_lease (.inl (by simp [l1May]))
  obtain ⟨y, ts, w, hy, hmem, hloads⟩ : ∃ y ts w,
      l1Read (reached s wc) (coreOf (reached s wc) b.uid) (ptsNow (reached s wc) b) key a.ia a.n attr 2 =
        (y, cellReadN s.mem key a.n, ts, w) ∧ y.mem = s.mem ∧ loadsAt y a.uid a.windex = loadsAt s a.uid a.windex := by
    refine ⟨_, _, _, hread, ?_, ?_⟩
    · exact l1Fill_keeps State.mem (fun _ _ => rfl) ..
    · exact l1Fill_keeps (loadsAt · a.uid a.windex) (fun _ _ => rfl) ..
  have hpiece : loadPiece (reached s wc) b (wholePiece (numbered s a) key attr) =
      (recordSpec (raisePts y b ts) b [(iaLine a.ia, w)], cellReadN s.mem key a.n, metPoison s a key attr) := by
    have hy' : l1Read (reached s wc) (coreOf (reached s wc) b.uid) (ptsNow (reached s wc) b) key (numbered s a).ia (numbered s a).n attr
        b.policy = (y, cellReadN s.mem key a.n, ts, w) := hy
    have hnear'' : isNear (reached s wc) b.src (numbered s a).ia = true := hnear
    simp only [loadPiece, wholePiece, hnear', hy', if_true]
    rfl
  have hpieces : loadPieces (reached s wc) b [wholePiece (numbered s a) key attr] =
      (recordSpec (raisePts y b ts) b [(iaLine a.ia, w)], cellReadN s.mem key a.n, metPoison s a key attr) := by
    simp only [loadPieces, hpiece, List.append_nil]
    split
    · rfl
    · next h => simp [Option.not_isSome_iff_eq_none.1 h]
  refine ⟨recordSpec (raisePts y b ts) b [(iaLine a.ia, w)], ?_, ?_, ?_⟩
  · have hctl : inCtl [wholePiece (numbered s a) key attr] = false := rfl
    have hop' : (numbered s a).op = 9 := hop
    unfold performAtomic
    rw [hctl, hpieces, hop']
    rfl
  · rw [recordSpec_mem, raisePts_mem, hmem]
  · rw [loadsAt_recordSpec, loadsAt_raisePts, hloads]

/-- `sc` writes only where its lane holds the reservation of the line, and drops the reservation (R229). -/
theorem performAtomic_of_sc (hop : a.op = 10) (wc : List WalkEntry) :
    performAtomic (reached s wc) (numbered s a) [wholePiece (numbered s a) key attr] =
      if holdsResv s a then
        (dropResv (storePieces (reached s wc) (numbered s a) true [wholePiece (numbered s a) key attr] (toBytes a.n a.data.toNat))
          (numbered s a), 1#64, none)
      else (dropResv (reached s wc) (numbered s a), 0#64, none) := by
  have hctl : inCtl [wholePiece (numbered s a) key attr] = false := rfl
  have hop' : (numbered s a).op = 10 := hop
  unfold performAtomic
  rw [hctl, hop']
  rfl

/-- What becomes of an atomic at its home: it is performed in the state reached, and its lane takes the result, a reduction's
nothing. -/
theorem submitAccess_atomic (hk : a.kind = 2 ∨ a.kind = 3) (h : AtHome s a key attr) : ∃ wc, ∀ z x bad,
    performAtomic (reached s wc) (numbered s a) [wholePiece (numbered s a) key attr] = (z, x, bad) →
      (submitAccess s a).mem = z.mem ∧ (submitAccess s a).lineTs = z.lineTs ∧
      (a.kind = 2 → loadsAt z a.uid a.windex = loadsAt s a.uid a.windex →
        loadsAt (submitAccess s a) a.uid a.windex = received s a x bad) ∧
      (a.kind = 3 → loadsAt (submitAccess s a) a.uid a.windex = loadsAt z a.uid a.windex) ∧
      (a.kind = 2 → resvAt (submitAccess s a) a = resvAt z a) := by
  obtain ⟨wc, hsub⟩ := submitAccess_of_home h
  refine ⟨wc, fun z x bad hz => ?_⟩
  obtain ⟨y, hy, hmem, hlines, hloads, hresv⟩ : ∃ y, performAccess (reached s wc) (numbered s a) [wholePiece (numbered s a) key attr] = (y, x, bad) ∧
      y.mem = z.mem ∧ y.lineTs = z.lineTs ∧ loadsAt y a.uid a.windex = loadsAt z a.uid a.windex ∧ resvAt y a = resvAt z a := by
    have hk0 : ¬ ((numbered s a).kind == 0) = true := by simp [numbered]; omega
    have hk1 : ¬ ((numbered s a).kind == 1) = true := by simp [numbered]; omega
    refine ⟨if hasAcq false a.order then acquireAt z (coreOf (reached s wc) a.uid) else z, ?_, ?_, ?_, ?_, ?_⟩
    · unfold performAccess
      rw [if_neg hk0, if_neg hk1, hz]
      rfl
    all_goals split <;> rfl
  rw [hsub, hy]
  rcases hk with hk | hk
  · have hnw : ¬ (numbered s a).writes = true := by simp [Acc.writes, numbered, hk]
    rw [answered, if_neg hnw]
    refine ⟨(deliver_mem ..).trans hmem, (updWeave_keeps State.lineTs (fun _ _ _ _ => rfl) ..).trans hlines, fun _ hsame => ?_,
      fun h3 => absurd (hk.symm.trans h3) (by decide), fun _ => (resvAt_deliver ..).trans hresv⟩
    rw [received_eq, ← hsame, ← hloads]
    exact loadsAt_deliver ..
  · have hw : (numbered s a).writes = true := by simp [Acc.writes, numbered, hk]
    rw [answered, if_pos hw]
    exact ⟨hmem, hlines, fun h2 => absurd (hk.symm.trans h2) (by decide), fun _ => hloads,
      fun h2 => absurd (hk.symm.trans h2) (by decide)⟩

/-- The bytes after an atomic's write of x. -/
theorem bytes_of_written {t : State} (hsafe : Safe s) {x : Nat}
    (h : t.mem = cellWriteN s.mem key (tableBytes s key (toBytes a.n x))) :
    (∀ k < a.n, byteAt t (key + k) = (tableBytes s key (toBytes a.n x)).getD k 0#8) ∧
      ∀ y, y < key ∨ key + a.n ≤ y → byteAt t y = byteAt s y := by
  have hlen : (tableBytes s key (toBytes a.n x)).length = a.n := (length_tableBytes ..).trans (length_toBytes ..)
  have hbyte : ∀ y, byteAt t y = if key ≤ y ∧ y < key + a.n then (tableBytes s key (toBytes a.n x)).getD (y - key) 0#8 else byteAt s y := by
    intro y
    rw [byteAt, h, cellRead_cellWriteN hsafe, hlen]
    rfl
  refine ⟨fun k hk => ?_, fun y hy => ?_⟩
  · rw [hbyte, if_pos (by omega), Nat.add_sub_cancel_left]
  · rw [hbyte, if_neg (by omega)]

section
variable (hk : a.kind = 2 ∨ a.kind = 3) (h : AtHome s a key attr)
include hk h

/-- An atomic that writes: its new value, its place, and what its lane receives. -/
theorem submitAccess_of_write (hfine : ∀ bs, refusedWrite s key bs = none)
    (hop : a.op < 8 ∨ a.op = 8 ∧ cellNat s.mem key a.n = a.cmp.toNat) :
    (submitAccess s a).mem = cellWriteN s.mem key (tableBytes s key (toBytes a.n (newValue s a key))) ∧
    (submitAccess s a).lineTs = placedLines s a ∧
    (a.kind = 2 → loadsAt (submitAccess s a) a.uid a.windex =
      received s a (BitVec.ofNat 64 (cellNat s.mem key a.n)) (metPoison s a key attr)) ∧
    (a.kind = 3 → loadsAt (submitAccess s a) a.uid a.windex = loadsAt s a.uid a.windex) := by
  obtain ⟨wc, hsub⟩ := submitAccess_atomic hk h
  obtain ⟨bad, hperform⟩ := performAtomic_of_write (attr := attr) hop wc
  obtain ⟨hmem, hlines, hanswer, hnone, -⟩ := hsub _ _ _ hperform
  have hview := lineView_storePieces h hfine wc bad (newValue s a key)
  simp only [lineView, Prod.mk.injEq] at hview
  obtain ⟨hmem', hlines', hloads⟩ := hview
  exact ⟨hmem.trans hmem', hlines.trans hlines', fun h2 => hanswer h2 hloads, fun h3 => (hnone h3).trans hloads⟩

/-- A `cas` that fails: its place, and what its lane receives; no byte changes. -/
theorem submitAccess_of_failed_cas (hop : a.op = 8) (hold : cellNat s.mem key a.n ≠ a.cmp.toNat) :
    (submitAccess s a).mem = s.mem ∧ (submitAccess s a).lineTs = placedLines s a ∧
    (a.kind = 2 → loadsAt (submitAccess s a) a.uid a.windex =
      received s a (BitVec.ofNat 64 (cellNat s.mem key a.n)) (metPoison s a key attr)) := by
  obtain ⟨wc, hsub⟩ := submitAccess_atomic hk h
  obtain ⟨hmem, hlines, hanswer, -, -⟩ := hsub _ _ _ (performAtomic_of_failed_cas (attr := attr) hop hold wc)
  have hview := lineView_stampFailed h wc
  simp only [lineView, Prod.mk.injEq] at hview
  obtain ⟨hmem', hlines', hloads⟩ := hview
  exact ⟨hmem.trans hmem', hlines.trans hlines', fun h2 => hanswer h2 hloads⟩

end

/-- `lr` leaves memory alone and its lane with the reservation of the line (R229). -/
theorem submitAccess_of_lr (hk : a.kind = 2) (h : AtHome s a key attr) (hop : a.op = 9) :
    (submitAccess s a).mem = s.mem ∧
    loadsAt (submitAccess s a) a.uid a.windex = received s a (BitVec.ofNat 64 (cellNat s.mem key a.n)) (metPoison s a key attr) ∧
    ((peekWeave s a.uid a.windex).isSome = true → holdsResv (submitAccess s a) a = true) := by
  obtain ⟨wc, hsub⟩ := submitAccess_atomic (.inl hk) h
  obtain ⟨z, hperform, hmem', hloads'⟩ := performAtomic_of_lr (attr := attr) (key := key) hop h.near wc
  obtain ⟨hmem, -, hanswer, -, hresv⟩ := hsub _ _ _ hperform
  have hview : ∀ y : State, lineView (updWeave (dropResv y (numbered s a)) a.uid a.windex
      (fun w => { w with resv := w.resv ++ [⟨a.lane, iaLine a.ia⟩] })) a = lineView y a := fun y =>
    (lineView_updWeave _ (by intro; exact ⟨rfl, rfl⟩) _ _ _).trans (lineView_dropResv ..)
  have hloads := (congrArg (·.2.2) (hview z)).trans hloads'
  refine ⟨hmem.trans ((congrArg (·.1) (hview z)).trans hmem'), hanswer hk hloads, fun hweave => ?_⟩
  obtain ⟨w, hw⟩ : ∃ w, peekWeave (dropResv z (numbered s a)) a.uid a.windex = some w := by
    have hsome : (loadsAt (dropResv z (numbered s a)) a.uid a.windex).isSome = true := by
      rw [show loadsAt (dropResv z (numbered s a)) a.uid a.windex = loadsAt s a.uid a.windex from
        (congrArg (·.2.2) (lineView_dropResv z a (numbered s a))).trans hloads']
      simpa [loadsAt] using hweave
    exact Option.isSome_iff_exists.1 (by simpa [loadsAt] using hsome)
  rw [holdsResv_congr (hresv hk), holdsResv, peekWeave_updWeave _ _ _ (by intro; rfl), hw]
  simp

/-- `sc` that holds the reservation writes and answers 1; else it answers 0 (R229). -/
theorem submitAccess_of_sc (hk : a.kind = 2) (h : AtHome s a key attr) (hfine : ∀ bs, refusedWrite s key bs = none) (hop : a.op = 10) :
    holdsResv (submitAccess s a) a = false ∧
    (holdsResv s a = true → loadsAt (submitAccess s a) a.uid a.windex = received s a 1#64 none ∧
      (submitAccess s a).mem = cellWriteN s.mem key (tableBytes s key (toBytes a.n a.data.toNat))) ∧
    (holdsResv s a = false → loadsAt (submitAccess s a) a.uid a.windex = received s a 0#64 none ∧ (submitAccess s a).mem = s.mem) := by
  obtain ⟨wc, hsub⟩ := submitAccess_atomic (.inl hk) h
  have hperform := performAtomic_of_sc (s := s) (key := key) (attr := attr) hop wc
  by_cases hholds : holdsResv s a = true
  · rw [if_pos hholds] at hperform
    obtain ⟨hmem, -, hanswer, -, hresv⟩ := hsub _ _ _ hperform
    have hview := (lineView_dropResv _ a (numbered s a)).trans (lineView_storePieces h hfine wc a.bad a.data.toNat)
    simp only [lineView, Prod.mk.injEq] at hview
    obtain ⟨hmem', -, hloads⟩ := hview
    refine ⟨(holdsResv_congr (hresv hk)).trans (holdsResv_dropResv ..), fun _ => ⟨hanswer hk hloads, hmem.trans hmem'⟩,
      fun hnot => absurd (hholds.symm.trans hnot) (by decide)⟩
  · rw [if_neg hholds] at hperform
    obtain ⟨hmem, -, hanswer, -, hresv⟩ := hsub _ _ _ hperform
    have hview : lineView (dropResv (reached s wc) (numbered s a)) a = lineView s a := lineView_dropResv ..
    simp only [lineView, Prod.mk.injEq] at hview
    obtain ⟨hmem', -, hloads⟩ := hview
    exact ⟨(holdsResv_congr (hresv hk)).trans (holdsResv_dropResv ..), fun hyes => absurd hyes hholds,
      fun _ => ⟨hanswer hk hloads, hmem.trans hmem'⟩⟩

end

/-- Settles O25: an atomic is performed in the state that it reaches; where it writes, its new value is written within one
line, which takes its place. -/
theorem atomicPerformed : Obligations.AtomicPerformed := by
  intro s a key attr hsafe h hk hfine t ty old v bad loads writes
  have hwrites : ∀ x, t.mem = cellWriteN s.mem key (tableBytes s key (toBytes a.n x)) → writes x := fun x hx => bytes_of_written hsafe hx
  have hwrite : ∀ x, a.op < 8 → amo a.op ty old v = x → writes x := fun x hop hx => by
    have hnew : newValue s a key = x := by rw [newValue, if_neg (by omega)]; exact hx
    exact hwrites x (hnew ▸ (submitAccess_of_write hk h hfine (.inl hop)).1)
  have hamo : ∀ op, a.op = op → amo a.op ty old v = amo op ty old v := fun op hop => by rw [hop]
  refine ⟨fun hop => hwrite _ (by omega) (hamo 0 hop), fun hop => hwrite _ (by omega) ((hamo 1 hop).trans (by simp [amo])),
    fun hop => hwrite _ (by omega) ((hamo 2 hop).trans (by simp [amo])), fun hop => hwrite _ (by omega) (hamo 3 hop),
    fun hop => hwrite _ (by omega) (hamo 4 hop), fun hop => hwrite _ (by omega) (hamo 5 hop),
    fun hop => hwrite _ (by omega) (hamo 6 hop), fun hop => hwrite _ (by omega) (hamo 7 hop), fun hop => ?_, fun hop => ?_,
    fun h2 hop => ?_, fun h2 hop => ?_, fun h2 hop => ?_⟩
  · refine rts_of_placed ?_
    by_cases hcas : a.op = 8 ∧ old ≠ a.cmp.toNat
    · exact (submitAccess_of_failed_cas hk h hcas.1 hcas.2).2.1
    · exact (submitAccess_of_write hk h hfine (by
        rcases hop with hop | ⟨-, hop⟩
        · exact .inl hop
        · exact .inr ⟨hop, by simpa [hop] using hcas⟩)).2.1
  · obtain ⟨-, -, hatom, hred⟩ := submitAccess_of_write hk h hfine (.inl hop)
    split
    · next h2 => exact hatom h2
    · next h2 => exact hred (hk.resolve_left h2)
  · by_cases hold : old = a.cmp.toNat
    · obtain ⟨hmem, -, hatom, -⟩ := submitAccess_of_write hk h hfine (.inr ⟨hop, hold⟩)
      refine ⟨hatom h2, fun _ => hwrites _ ?_, fun hne => absurd hold hne⟩
      rwa [newValue, if_pos hop] at hmem
    · obtain ⟨hmem, -, hatom⟩ := submitAccess_of_failed_cas hk h hop hold
      exact ⟨hatom h2, fun heq => absurd heq hold, fun _ y => congrArg (cellRead · y) hmem⟩
  · obtain ⟨hmem, hread, hresv⟩ := submitAccess_of_lr h2 h hop
    exact ⟨hread, fun y => congrArg (cellRead · y) hmem, hresv⟩
  · obtain ⟨hdropped, hheld, hlost⟩ := submitAccess_of_sc h2 h hfine hop
    refine ⟨hdropped, fun hyes => ?_, fun hno => ?_⟩
    · obtain ⟨hanswer, hmem⟩ := hheld hyes
      exact ⟨hanswer, hwrites _ hmem⟩
    · obtain ⟨hanswer, hmem⟩ := hlost hno
      exact ⟨hanswer, fun y => congrArg (cellRead · y) hmem⟩

end Sys2Proof.Laws
end

