-- ==== Sys2Proof/Proofs/Packets.lean ====
section
/-!
Settles O56: packets on the mesh, at their goal, at the seam gate and on the external plane.
-/

namespace Sys2Proof.Laws
open Sys2Proof Sys2Proof.Machine Sys2Proof.Safety

/-! ### Router inputs (R375) -/

theorem inputTakes_le (s : State) (input : Nat × Nat) (c k : Nat) : inputTakes s input c k ≤ k := by
  unfold inputTakes
  split
  · exact Nat.zero_le k
  · split <;> exact Nat.min_le_left ..

/-- A channel without flits takes its guaranteed one and the free shared ones. -/
theorem inputTakes_of_empty {s : State} {input : Nat × Nat} {c : Nat} (k : Nat) (h : chanFlits s input c = 0) :
    inputTakes s input c k ≤ sharedFree s input + 1 := by
  simp only [inputTakes, holdRaised, h, Nat.reduceLeDiff, decide_false, Bool.false_and, Bool.false_eq_true, if_false, beq_self_eq_true,
    if_true]
  exact Nat.min_le_right ..

/-- A channel that holds flits takes free shared ones, none while the hold signal is up. -/
theorem inputTakes_of_held {s : State} {input : Nat × Nat} {c : Nat} (k : Nat) (h : chanFlits s input c ≠ 0) :
    inputTakes s input c k ≤ sharedFree s input ∧ (sharedFree s input < 8 → inputTakes s input c k = 0) := by
  have hhold : holdRaised s input c = decide (sharedFree s input < 8) := by
    simp [holdRaised, show 1 ≤ chanFlits s input c by omega]
  have hne : (chanFlits s input c == 0) = false := by simpa using h
  unfold inputTakes
  rw [hhold, hne]
  by_cases hfew : sharedFree s input < 8
  · simp [hfew]
  · simp only [hfew, decide_false, Bool.false_eq_true, if_false, false_implies, and_true]
    exact Nat.min_le_right ..

/-! ### The flits behind a header (R375) -/

theorem sum_dropWhile_empty (xs : List Seg) : ((xs.dropWhile (·.n == 0)).map (·.n)).sum = (xs.map (·.n)).sum := by
  induction xs with
  | nil => rfl
  | cons x rest ih =>
    by_cases hx : x.n = 0
    · simpa [List.dropWhile_cons, hx] using ih
    · simp [hx]

/-- Only segments without flits are freed. -/
theorem sum_trimSegs (left : Nat) (xs : List Seg) : ((trimSegs left xs).map (·.n)).sum = (xs.map (·.n)).sum := by
  unfold trimSegs
  split
  · rfl
  · have hdrop := sum_dropWhile_empty (xs.drop 1).reverse
    rw [List.map_reverse, List.sum_reverse] at hdrop
    rw [List.map_append, List.sum_append, List.map_reverse, List.sum_reverse, hdrop, ← List.sum_append, ← List.map_append,
      List.take_append_drop]

/-- What moves up into an input comes out of the one behind it. -/
theorem sum_pullFrom (s : State) (x : Seg) (rest : List Seg) (left : Nat) :
    (pullFrom s x rest left).2.1 + ((pullFrom s x rest left).1.map (·.n)).sum = left + (x.n + (rest.map (·.n)).sum) := by
  induction rest generalizing x left with
  | nil =>
    have hle := inputTakes_le s x.input x.chan left
    simp only [pullFrom, List.map_cons, List.map_nil, List.sum_cons, List.sum_nil]
    omega
  | cons y rest ih =>
    have hle := inputTakes_le s x.input x.chan y.n
    have hrest := ih { y with n := y.n - inputTakes s x.input x.chan y.n } left
    simp only [pullFrom, List.map_cons, List.sum_cons]
    generalize pullFrom s _ rest left = r at hrest ⊢
    obtain ⟨segs, left', moved⟩ := r
    dsimp only at hrest ⊢
    omega

/-- A flit that crosses a link is noted there and nowhere else. -/
theorem noteLink_eq (s : State) (id src dst n : Nat) : ∃ r, noteLink s id src dst n = { s with retry := r } := by
  unfold noteLink
  extract_lets live key
  split
  · exact ⟨s.retry, rfl⟩
  · exact ⟨_, rfl⟩

theorem foldl_noteLink {α : Type} (id : Nat) (g : α → Nat × Nat × Nat) (xs : List α) (s : State) :
    ∃ r, xs.foldl (fun acc x => noteLink acc id (g x).1 (g x).2.1 (g x).2.2) s = { s with retry := r } := by
  induction xs generalizing s with
  | nil => exact ⟨s.retry, rfl⟩
  | cons x xs ih =>
    obtain ⟨r, hr⟩ := noteLink_eq s id (g x).1 (g x).2.1 (g x).2.2
    obtain ⟨r', hr'⟩ := ih { s with retry := r }
    exact ⟨r', by rw [List.foldl_cons, hr, hr']⟩

/-- t is s but for the notes of its links, and q is p with as many flits. -/
def Follows (s t : State) (p q : Packet) : Prop := (∃ r, t = { s with retry := r }) ∧ q.id = p.id ∧ flitsOf q = flitsOf p

theorem Follows.trans {s t u : State} {p q r : Packet} (h : Follows s t p q) (h' : Follows t u q r) : Follows s u p r := by
  obtain ⟨⟨x, rfl⟩, hid, hn⟩ := h
  obtain ⟨⟨y, rfl⟩, hid', hn'⟩ := h'
  exact ⟨⟨y, rfl⟩, hid'.trans hid, hn'.trans hn⟩

theorem follows_pullBody (s : State) (p : Packet) : Follows s (pullBody s p).1 p (pullBody s p).2 := by
  unfold pullBody
  split
  · exact ⟨⟨s.retry, rfl⟩, rfl, rfl⟩
  · next x rest hsegs =>
    refine ⟨foldl_noteLink p.id (fun e : (Nat × Nat) × Nat => (e.1.2, e.1.1, e.2)) _ s, rfl, ?_⟩
    have hsum := sum_pullFrom s x rest p.left
    generalize pullFrom s x rest p.left = r at hsum ⊢
    obtain ⟨segs, left, moved⟩ := r
    simp only [flitsOf, sum_trimSegs, hsegs, List.map_cons, List.sum_cons]
    dsimp only at hsum
    omega

/-- Where a header moves, its flits stand in the next input and in the places behind. -/
theorem follows_moveHeader {s t : State} {p q : Packet} (h : moveHeader s p = some (t, q)) : Follows s t p q := by
  obtain ⟨⟨m, c⟩, -, hmove⟩ := Option.map_eq_some_iff.1 h
  cases hmove
  refine ⟨noteLink_eq .., rfl, ?_⟩
  have hle := inputTakes_le s (m, p.at_) c p.front
  cases hsegs : p.segs with
  | nil =>
    have hfront : p.front = p.left := by simp [Packet.front, hsegs]
    simp only [flitsOf, sum_trimSegs, hsegs, List.map_cons, List.map_nil, List.sum_cons, List.sum_nil]
    omega
  | cons y rest =>
    have hfront : p.front = y.n := by simp [Packet.front, hsegs]
    simp only [flitsOf, sum_trimSegs, hsegs, List.map_cons, List.sum_cons]
    omega

/-- A packet under way is put in its place, or behind the others, with as many flits. -/
theorem forwardPacket_cases (s : State) (p : Packet) : ∃ t q, Follows s t p q ∧
    (forwardPacket s p = setPacket t q ∨ forwardPacket s p = { t with packets := t.packets.filter (·.id != p.id) ++ [q] }) := by
  have hpull := follows_pullBody s p
  unfold forwardPacket
  generalize pullBody s p = x at hpull ⊢
  obtain ⟨t, q⟩ := x
  dsimp only at hpull ⊢
  split
  · refine ⟨t, _, hpull.trans ⟨⟨t.retry, rfl⟩, ?_, ?_⟩, .inl rfl⟩
    · cases q.segs <;> rfl
    · cases hsegs : q.segs with
      | nil => simp [flitsOf, hsegs]; omega
      | cons y rest => simp [flitsOf, hsegs]; omega
  · split
    · exact ⟨t, q, hpull, .inl rfl⟩
    · split
      · exact ⟨t, q, hpull, .inl rfl⟩
      · next u r hmove => exact ⟨u, r, hpull.trans (follows_moveHeader hmove), .inr rfl⟩

theorem mem_setPacket {s : State} {p y : Packet} (h : y ∈ (setPacket s p).packets) : y = p ∨ y ∈ s.packets ∧ y.id ≠ p.id := by
  obtain ⟨x, hx, rfl⟩ := List.mem_map.1 h
  by_cases hid : x.id = p.id
  · simp [hid]
  · simp [hid, hx]

theorem mem_setPacket_of_ne {s : State} {p y : Packet} (hid : y.id ≠ p.id) :
    y ∈ (setPacket s p).packets ↔ y ∈ s.packets := by
  constructor
  · intro h
    rcases mem_setPacket h with rfl | ⟨hy, -⟩
    · exact absurd rfl hid
    · exact hy
  · exact fun h => List.mem_map.2 ⟨y, h, by simp [hid]⟩

/-- No flit of a packet under way is lost, and other packets stand. -/
theorem forwardPacket_keeps (s : State) (p : Packet) :
    (forwardPacket s p).teams = s.teams ∧ (forwardPacket s p).sites = s.sites ∧ (forwardPacket s p).accs = s.accs ∧
    (∀ y ∈ (forwardPacket s p).packets, y.id = p.id → flitsOf y = flitsOf p) ∧
    ∀ y : Packet, y.id ≠ p.id → (y ∈ (forwardPacket s p).packets ↔ y ∈ s.packets) := by
  obtain ⟨t, q, ⟨⟨r, rfl⟩, hid, hn⟩, hset | happ⟩ := forwardPacket_cases s p
  · rw [hset]
    refine ⟨rfl, rfl, rfl, fun y hy hyid => ?_, fun y hy => mem_setPacket_of_ne (hid ▸ hy)⟩
    rcases mem_setPacket hy with rfl | ⟨-, hne⟩
    · exact hn
    · exact absurd (hyid.trans hid.symm) hne
  · rw [happ]
    refine ⟨rfl, rfl, rfl, fun y hy hyid => ?_, fun y hy => ?_⟩
    · rcases List.mem_append.1 hy with hold | hnew
      · exact absurd hyid (by simpa using (List.mem_filter.1 hold).2)
      · rw [List.mem_singleton.1 hnew, hn]
    · have hne : y ≠ q := fun h => hy (h ▸ hid)
      simp [hy, hne]

/-! ### The header (R376, R380) -/

/-- The packet's header may go over a link of the seam to m into a channel there. -/
def HopOpen (s : State) (p : Packet) (m c : Nat) : Prop :=
  seamLive s p.at_ m = true ∧ (∀ y ∈ s.packets, y.entering (m, p.at_) c = false) ∧ 0 < inputTakes s (m, p.at_) c p.front

/-- A hop leads over an open one, nearer to the goal or on the escape channel, which the packet does not leave. -/
theorem nextHop_some {s : State} {p : Packet} {m c : Nat} (h : nextHop s p = some (m, c)) :
    HopOpen s p m c ∧ (c = p.escape s ∨ hops m (p.goal s) < hops p.at_ (p.goal s)) ∧ (p.onEscape = true → c = p.chan) := by
  have hopen : ∀ m' c', (if seamLive s p.at_ m' && chanOpen s (m', p.at_) c' && inputTakes s (m', p.at_) c' p.front != 0
      then some (m', c') else none) = some (m, c) → HopOpen s p m c ∧ m' = m ∧ c' = c := by
    intro m' c' hif
    obtain ⟨hcond, heq⟩ := Option.ite_none_right_eq_some.1 hif
    cases heq
    simp only [Bool.and_eq_true, bne_iff_ne, chanOpen, List.all_eq_true, Bool.not_eq_true'] at hcond
    obtain ⟨⟨hseam, hchan⟩, htakes⟩ := hcond
    exact ⟨⟨hseam, hchan, Nat.pos_of_ne_zero htakes⟩, rfl, rfl⟩
  unfold nextHop at h
  dsimp only at h
  split at h
  · next hop hadaptive =>
    rw [h] at hadaptive
    by_cases hesc : p.onEscape = true
    · simp [hesc] at hadaptive
    · rw [if_neg hesc] at hadaptive
      obtain ⟨m', hm, hsome⟩ := List.exists_of_findSome?_eq_some hadaptive
      obtain ⟨c', -, htry⟩ := List.exists_of_findSome?_eq_some hsome
      obtain ⟨hhop, rfl, rfl⟩ := hopen m' c' htry
      exact ⟨hhop, .inr (by simpa using (List.mem_filter.1 hm).2), fun hyes => absurd hyes hesc⟩
  · obtain ⟨m', -, htry⟩ := Option.bind_eq_some_iff.1 h
    obtain ⟨hhop, rfl, rfl⟩ := hopen _ _ htry
    exact ⟨hhop, .inl rfl, fun hesc => by simp [Packet.escape, hesc]⟩

/-! ### A packet that is injected, and one that arrives flit by flit -/

section
variable {s : State} {p : Packet}

/-- The only packet under its number, set to itself. -/
theorem setPacket_self (hone : ∀ y ∈ s.packets, y.id = p.id → y = p) : setPacket s p = s := by
  have hmap : (s.packets.map fun x => if x.id == p.id then p else x) = s.packets := by
    conv_rhs => rw [← List.map_id s.packets]
    refine List.map_congr_left fun x hx => ?_
    by_cases hid : x.id = p.id
    · simp [hone x hx hid]
    · simp [hid]
  unfold setPacket
  rw [hmap]

section
variable (hsegs : p.segs = []) (hgoal : p.at_ ≠ p.goal s)
include hsegs hgoal

/-- A packet where it was injected waits for a hop. -/
theorem forwardPacket_of_stuck (hhop : nextHop s p = none) : forwardPacket s p = setPacket s p := by
  have hpull : pullBody s p = (s, p) := by simp [pullBody, hsegs]
  have hmove : moveHeader s p = none := by simp [moveHeader, hhop]
  simp only [forwardPacket, hpull, hmove, beq_iff_eq, if_neg hgoal, ite_self]

/-- Its header goes into the first router input of its way, with the flits that this takes. -/
theorem forwardPacket_of_hop {m c : Nat} (hhop : nextHop s p = some (m, c)) : ∃ r, forwardPacket s p =
    { s with
      retry := r
      packets := s.packets.filter (·.id != p.id) ++
        [{ p with segs := [{ input := (m, p.at_), chan := c, n := inputTakes s (m, p.at_) c p.left }]
                  left := p.left - inputTakes s (m, p.at_) c p.left }] } := by
  have hpull : pullBody s p = (s, p) := by simp [pullBody, hsegs]
  have hfirst : firstOfChannel s p = true := by simp [firstOfChannel, hsegs]
  have hfront : p.front = p.left := by simp [Packet.front, hsegs]
  have htrim : ∀ (left : Nat) (x : Seg), trimSegs left [x] = [x] := fun left x => by simp [trimSegs]
  obtain ⟨r, hr⟩ := noteLink_eq s p.id p.at_ m (inputTakes s (m, p.at_) c p.left)
  have hmove : moveHeader s p = some ({ s with retry := r },
      { p with segs := [{ input := (m, p.at_), chan := c, n := inputTakes s (m, p.at_) c p.left }]
               left := p.left - inputTakes s (m, p.at_) c p.left }) := by
    simp [moveHeader, hhop, hfront, hsegs, hr, htrim]
  refine ⟨r, ?_⟩
  simp only [forwardPacket, hpull, hmove, beq_iff_eq, if_neg hgoal, hfirst, Bool.not_true, Bool.false_eq_true, if_false]

end

/-- At the goal the site takes what stands in the last router input. -/
theorem forwardPacket_of_arriving {x : Seg} (hgoal : p.at_ = p.goal s) (hsegs : p.segs = [x]) :
    ∃ r, forwardPacket s p = setPacket { s with retry := r } { p with
      segs := [{ x with n := 0 }], left := p.left - inputTakes s x.input x.chan p.left
      got := p.got + (x.n + inputTakes s x.input x.chan p.left) } := by
  obtain ⟨r, hr⟩ := noteLink_eq s p.id x.input.2 x.input.1 (inputTakes s x.input x.chan p.left)
  have htrim : ∀ (left : Nat) (x : Seg), trimSegs left [x] = [x] := fun left x => by simp [trimSegs]
  have hat : x.input.1 = p.goal s := by rw [← hgoal]; simp [Packet.at_, hsegs]
  have hpull : pullBody s p = ({ s with retry := r },
      { p with segs := [{ x with n := x.n + inputTakes s x.input x.chan p.left }], left := p.left - inputTakes s x.input x.chan p.left }) := by
    simp [pullBody, hsegs, pullFrom, hr, htrim]
  refine ⟨r, ?_⟩
  unfold forwardPacket
  rw [hpull]
  dsimp only
  rw [if_pos]
  simp only [Packet.at_, Packet.goal] at hat ⊢
  simpa using hat

end

/-! ### A packet at its goal (R381 to R383, R391) -/

section
variable {s : State} {p : Packet}

theorem packets_setPacket {id : Nat} (hid : p.id = id) :
    (setPacket s p).packets = s.packets.map (fun x => if x.id = id then p else x) := by
  subst hid
  simp only [setPacket, beq_iff_eq]

/-- Until the external plane is open at both ends a packet that waits for it stands. -/
theorem settlePacket_of_closed (hout : p.ext = true ∧ p.entry = none)
    (hclosed : exitSite s p.src = none ∨ entrySite s p.dst = none) (forged : Bool) : settlePacket s p forged = s := by
  have hcross : crossPlane s p = s := by
    unfold crossPlane
    split
    · next hx he =>
      rcases hclosed with hnone | hnone
      · exact absurd (hx.symm.trans hnone) (by simp)
      · exact absurd (he.symm.trans hnone) (by simp)
    · rfl
  simp [settlePacket, hout.1, hout.2, hcross]

/-- A packet leaves by one port and comes in at another, from where it goes on afresh. -/
theorem settlePacket_of_open (hout : p.ext = true ∧ p.entry = none) {x e : Nat} (hx : exitSite s p.src = some x)
    (he : entrySite s p.dst = some e) (forged : Bool) : ∃ xs, settlePacket s p forged =
      setPacket { s with sites := xs } { p with entry := some e, segs := [], left := p.flits, got := 0 } := by
  refine ⟨(putOut s x s.wafer p ((List.range 5).map (Config.cmdDword p.id)) (packetData s p.cls p.acc)).sites, ?_⟩
  simp only [settlePacket, hout.1, hout.2, hx, crossPlane, he, Option.isNone_none, Bool.and_self, Option.isSome_some, if_true]
  rfl

/-- A packet that has not to cross the plane, in the order of the checks at its destination. -/
theorem settlePacket_of_inside (hin : ¬ (p.ext = true ∧ p.entry = none)) (forged : Bool) : settlePacket s p forged =
    if p.stomp then dropPacket s p.id
    else if (p.node s).isSome && portFull s p.dst then s
    else if forged && p.domain s != 0 then deliveryFailed (postFabric s 0x19 p.dst (p.domain s) 1) p
    else if (findSite s p.dst).seen.contains (p.src, p.cls, p.pseq) then dropPacket s p.id
    else acceptPacket (notePacket (dropPacket s p.id) p) p := by
  have hcond : ¬ (p.ext && p.entry.isNone) = true := by simpa using hin
  rw [settlePacket, if_neg hcond]

/-- A failed delivery before the eighth is counted. -/
theorem deliveryFailed_of_few (hfew : p.fails < 7) : deliveryFailed s p = setPacket s { p with fails := p.fails + 1 } := by
  rw [deliveryFailed, if_neg (by omega)]

/-- A record of the fabric joins those that wait for the fabric buffer. -/
theorem length_fabricQ_postFabric (s : State) (kind site x y : Nat) :
    (postFabric s kind site x y).fabricQ.length = s.fabricQ.length + 1 := by
  rw [postFabric]
  dsimp only
  rw [List.length_append]
  rfl

/-- The eighth fails the packet's access. -/
theorem deliveryFailed_of_eighth (hmany : 7 ≤ p.fails) {a : Acc} (ha : s.accs.find? (·.id == p.acc) = some a) :
    deliveryFailed s p = faultAccess (dropPacket s p.id) a ⟨a.src, 5, 0, a.ia⟩ := by
  have ha' : (dropPacket s p.id).accs.find? (·.id == p.acc) = some a := ha
  rw [deliveryFailed, if_pos (by omega)]
  simp only [failPacket, ha']

/-- A stomped packet is discarded (R382). -/
theorem settlePacket_of_stomp (hin : ¬ (p.ext = true ∧ p.entry = none)) (hstomp : p.stomp = true) (forged : Bool) :
    settlePacket s p forged = dropPacket s p.id := by
  rw [settlePacket_of_inside hin, if_pos hstomp]

/-- A packet to another module waits for room at its port (R386). -/
theorem settlePacket_of_full (hin : ¬ (p.ext = true ∧ p.entry = none)) (hwhole : p.stomp = false) (hnode : p.node s ≠ none)
    (hfull : portFull s p.dst = true) (forged : Bool) : settlePacket s p forged = s := by
  rw [settlePacket_of_inside hin, if_neg (by simp [hwhole]), if_pos (by simp [Option.isSome_iff_ne_none.2 hnode, hfull])]

section
variable (hin : ¬ (p.ext = true ∧ p.entry = none)) (hwhole : p.stomp = false) (hport : p.node s = none ∨ portFull s p.dst = false)
include hin hwhole hport

/-- A whole packet with room at its port: forged, a duplicate, or accepted. -/
theorem settlePacket_of_room (forged : Bool) : settlePacket s p forged =
    if forged && p.domain s != 0 then deliveryFailed (postFabric s 0x19 p.dst (p.domain s) 1) p
    else if (p.src, p.cls, p.pseq) ∈ (findSite s p.dst).seen then dropPacket s p.id
    else acceptPacket (notePacket (dropPacket s p.id) p) p := by
  have hfree : ¬ ((p.node s).isSome && portFull s p.dst) = true := by
    rcases hport with h | h <;> simp [h]
  rw [settlePacket_of_inside hin, if_neg (by simp [hwhole]), if_neg hfree]
  simp only [List.contains_iff_mem]

theorem settlePacket_of_forged (hdom : p.domain s ≠ 0) (hfew : p.fails < 7) : settlePacket s p true =
    setPacket (postFabric s 0x19 p.dst (p.domain s) 1) { p with fails := p.fails + 1 } := by
  rw [settlePacket_of_room hin hwhole hport, if_pos (by simpa using hdom), deliveryFailed_of_few hfew]

theorem settlePacket_of_known (hknown : (p.src, p.cls, p.pseq) ∈ (findSite s p.dst).seen) :
    settlePacket s p false = dropPacket s p.id := by
  rw [settlePacket_of_room hin hwhole hport, if_neg (by simp), if_pos hknown]

theorem settlePacket_of_new (hnew : (p.src, p.cls, p.pseq) ∉ (findSite s p.dst).seen) :
    settlePacket s p false = acceptPacket (notePacket (dropPacket s p.id) p) p := by
  rw [settlePacket_of_room hin hwhole hport, if_neg (by simp), if_neg hnew]

end

/-- An accepted request of a far access stands at the gate of its home. -/
theorem acceptPacket_of_request {a : Acc} (hcls : p.cls = 2) (ha : s.accs.find? (·.id == p.acc) = some a)
    (hstage : a.stage = .mesh) : acceptPacket s p = setAcc s { a with stage := .gate } := by
  simp [acceptPacket, ha, hcls, hstage]

theorem find?_setAcc (s : State) (a : Acc) : (setAcc s a).accs.find? (·.id == a.id) = some a := by
  unfold setAcc
  dsimp only
  split
  · next hany => rw [find?_replaceFirst (·.id == a.id) (·.id == a.id) a (beq_self_eq_true _) _ (fun _ => rfl), if_pos hany]
  · next hany =>
    have hnone : s.accs.find? (·.id == a.id) = none := by
      rw [List.find?_eq_none]
      simpa using hany
    simp [List.find?_append, hnone]

/-- What is noted of a packet is known at its destination. -/
theorem mem_seen_notePacket (s : State) (p : Packet) : (p.src, p.cls, p.pseq) ∈ (findSite (notePacket s p) p.dst).seen := by
  unfold notePacket
  rw [findSite_onSite _ _ _ _ (by exact fun _ => rfl), if_pos rfl]
  exact List.mem_cons_self

end

/-! ### The steps -/

section
variable {s : State} {id : Nat} {p : Packet} (hp : (park s).packets.find? (·.id == id) = some p)
include hp

theorem meshPacketArrival_of_under_way (h : p.settled (park s) = false) (forged : Bool) :
    exec (.meshPacketArrival id forged) s = .next (forwardPacket (park s) p) := by
  show execMeshPacketArrival id forged s = _
  simp only [execMeshPacketArrival, event, hp, h, Bool.false_eq_true, if_false]

theorem meshPacketArrival_of_settled (h : p.settled (park s) = true) (forged : Bool) :
    exec (.meshPacketArrival id forged) s = .next (settlePacket (park s) p forged) := by
  show execMeshPacketArrival id forged s = _
  simp only [execMeshPacketArrival, event, hp, h, if_true]

theorem retransmission_eq : exec (.ultraEthernetRetransmission id) s = .next (
    if (p.node (park s)).isSome then (if (findSite (park s) p.dst).mode == 1 then deliveryFailed (park s) p else park s)
    else if p.ext then { park s with nextId := (park s).nextId + 1, packets := (park s).packets ++ [{ p.afresh with id := (park s).nextId }] }
    else park s) := by
  show execUltraEthernetRetransmission id s = _
  simp only [execUltraEthernetRetransmission, event, hp]

/-- Towards another module it counts as a failed delivery (R391). -/
theorem retransmission_of_node (hnode : p.node (park s) ≠ none) (hmode : (findSite (park s) p.dst).mode = 1) :
    exec (.ultraEthernetRetransmission id) s = .next (deliveryFailed (park s) p) := by
  rw [retransmission_eq hp, if_pos (Option.isSome_iff_ne_none.2 hnode), if_pos (by simpa using hmode)]

theorem retransmission_of_other_mode (hnode : p.node (park s) ≠ none) (hmode : (findSite (park s) p.dst).mode ≠ 1) :
    exec (.ultraEthernetRetransmission id) s = .next (park s) := by
  rw [retransmission_eq hp, if_pos (Option.isSome_iff_ne_none.2 hnode), if_neg (by simpa using hmode)]

end

section
variable {s : State} {id : Nat} {a : Acc} (ha : (park s).accs.find? (·.id == id) = some a)
include ha

theorem gateRequestArrival_eq : exec (.gateRequestArrival id) s =
    .next (if a.stage == .gate && (isRlx a.order || !gateBefore (park s) a) then arriveHome (park s) a else park s) := by
  show execGateRequestArrival id s = _
  simp only [execGateRequestArrival, event, ha]

/-- A request whose turn has come goes from the gate to its home (R111, R378). -/
theorem gateRequestArrival_of_turn (hgate : a.stage = .gate) (hturn : isRlx a.order = true ∨ gateBefore (park s) a = false) :
    exec (.gateRequestArrival id) s = .next (arriveHome (park s) a) := by
  rw [gateRequestArrival_eq ha, if_pos]
  rcases hturn with h | h <;> simp [hgate, h]

theorem gateRequestArrival_of_wait (hwait : a.stage ≠ .gate ∨ (isRlx a.order = false ∧ gateBefore (park s) a = true)) :
    exec (.gateRequestArrival id) s = .next (park s) := by
  rw [gateRequestArrival_eq ha, if_neg]
  rcases hwait with h | ⟨hrlx, hbefore⟩
  · simp [h]
  · simp [hrlx, hbefore]

end

/-- Settles O56: a packet under way is moved with as many flits, one at its goal is taken by the first check that applies,
and a request at the gate goes on when its turn has come. -/
theorem packets : Obligations.Packets := by
  intro s id q drop
  refine ⟨fun hnone forged => ?_, fun p hp hone => ?_, fun input c k => ⟨inputTakes_le .., inputTakes_of_empty k, inputTakes_of_held k⟩,
    fun a ha => ?_⟩
  · show execMeshPacketArrival id forged s = _
    simp only [execMeshPacketArrival, event]
    rw [hnone]
  · have hid : p.id = id := by simpa using List.find?_some hp
    have hself : setPacket q p = q := setPacket_self (hid ▸ hone)
    have hdrop : dropPacket q p.id = drop := by rw [hid]; rfl
    intro known instead outside
    have hinstead : ∀ (t : State) (y : Packet), t.packets = q.packets → y.id = id → (setPacket t y).packets = instead y :=
      fun t y ht hy => by rw [packets_setPacket hy, ht]
    refine ⟨fun forged hway => ?_, fun m c hhop => ?_, fun hsettled => ?_, fun hnode hext => ?_, fun hnode hext => ?_,
      fun hnode hmode => ?_, fun hnode hmode => ⟨fun hfew => ?_, fun a hmany ha => ?_⟩⟩
    · rw [meshPacketArrival_of_under_way hp hway]
      obtain ⟨hteams, hsites, haccs, hflits, hothers⟩ := forwardPacket_keeps q p
      refine ⟨⟨_, rfl, forwardPacket_mem q p, hteams, hsites, haccs, hid ▸ hflits, hid ▸ hothers⟩, fun hsegs hgoal => ?_,
        fun x hgoal hsegs => ?_⟩
      · refine ⟨fun hstuck => by rw [forwardPacket_of_stuck hsegs hgoal hstuck, hself], fun m c hhop => ?_⟩
        obtain ⟨r, hforward⟩ := forwardPacket_of_hop hsegs hgoal hhop
        exact ⟨_, rfl, by rw [hforward, hid]⟩
      · obtain ⟨r, hforward⟩ := forwardPacket_of_arriving hgoal hsegs
        exact ⟨_, rfl, by rw [hforward]; exact hinstead _ _ rfl hid⟩
    · obtain ⟨⟨hseam, hchan, htakes⟩, hway, hesc⟩ := nextHop_some hhop
      exact ⟨hseam, hway, hesc, hchan, htakes⟩
    · have hstep : ∀ forged, exec (.meshPacketArrival id forged) s = .next (settlePacket q p forged) :=
        meshPacketArrival_of_settled hp hsettled
      simp only [hstep]
      refine ⟨fun forged hout hclosed => by rw [settlePacket_of_closed hout hclosed], fun forged x e hout hx he => ?_, fun hin => ?_⟩
      · obtain ⟨xs, hcross⟩ := settlePacket_of_open hout hx he forged
        exact ⟨_, rfl, by rw [hcross]; rfl, by rw [hcross]; rfl, by rw [hcross]; exact hinstead _ _ rfl hid⟩
      refine ⟨fun hstomp forged => by rw [settlePacket_of_stomp hin hstomp, hdrop], fun hwhole =>
        ⟨fun hnode hfull forged => by rw [settlePacket_of_full hin hwhole hnode hfull], fun hport =>
          ⟨fun hdom hfew => ?_, fun hknown => by rw [settlePacket_of_known hin hwhole hport hknown, hdrop],
            fun hnew => by rw [settlePacket_of_new hin hwhole hport hnew, hdrop], fun a hnew hcls ha hstage => ?_⟩⟩⟩
      · refine ⟨_, rfl, ?_⟩
        rw [settlePacket_of_forged hin hwhole hport hdom hfew]
        exact ⟨(setPacket_mem ..).trans (postFabric_mem ..), hinstead _ _ (postFabric_packets ..) hid, length_fabricQ_postFabric ..⟩
      · have hacc : a.id = p.acc := by simpa using List.find?_some ha
        refine ⟨_, rfl, ?_⟩
        rw [settlePacket_of_new hin hwhole hport hnew, hdrop, acceptPacket_of_request (s := notePacket drop p) hcls ha hstage]
        refine ⟨rfl, ?_, fun y hy => ?_, mem_seen_notePacket drop p⟩
        · rw [← hacc]
          exact find?_setAcc (notePacket drop p) { a with stage := .gate }
        · simpa using (List.mem_filter.1 hy).2
    · rw [retransmission_eq hp, hnode, hext]
      rfl
    · rw [retransmission_eq hp, hnode, hext]
      rfl
    · exact retransmission_of_other_mode hp hnode hmode
    · rw [retransmission_of_node hp hnode hmode, deliveryFailed_of_few hfew, ← hinstead q { p with fails := p.fails + 1 } rfl hid]
      rfl
    · rw [retransmission_of_node hp hnode hmode, deliveryFailed_of_eighth hmany ha, hdrop]
  · exact ⟨gateRequestArrival_of_turn ha, gateRequestArrival_of_wait ha⟩

end Sys2Proof.Laws
end

