-- ==== Sys2Proof/Proofs/StrayStore.lean ====
section
/-!
Refutes O28. The statement speaks of every state, also of one whose memory is not in canonical form (`Safe`): there a store
of a zero byte frees a cell that hid a later one of a lower address, and a byte that the store misses reads otherwise.
-/

namespace Sys2Proof.Laws
open Sys2Proof Sys2Proof.Machine Sys2Proof.Safety

/-! ### The state -/

/-- One ply of one lane at 0x10000 of context 1; s0 holds 0x10800, v0 zeros. -/
def strayPly : State :=
  { focused := true
    ply := { pc := 0x10000#64, mask := 1#32 }
    weave := { map := { v := (List.replicate 192 none).set 0 (some ⟨1, tabulate (fun _ => 0#32), false⟩)
                        s := (List.replicate 48 none).set 0 (some ⟨2, 0x10800#64, false⟩) } }
    team := { uid := 1, ctx := 1 } }

/-- The page at 0x10000 with the right to write it. -/
def strayPage : State :=
  let t := codePage strayPly []
  { t with mem := cellWriteN t.mem (regionKey t 27 0x200000) (toBytes 8 (2 ^ 63 + 15 * 2 ^ 54 + 2 ^ 32)) }

/-- The memory key of 0x10800. -/
def strayKey : Nat := regionKey strayPage 27 0x410800

/-- A cell at the key, and after it one at the byte before, which no read finds. -/
def strayState : State := { strayPage with mem := strayPage.mem ++ [(strayKey, 1#8), (strayKey - 1, 1#8)] }

/-- `st` of v0 at s0 in global memory. -/
def strayFields : Fields :=
  { Fields.base with d := 0xF0#8, a := 0xC0#8, b := 0#8, c := 0#8, type := 6#4, variant := 0#5, pfx := some ⟨0#2, 0#3, 1#3, 0#3, 0#3⟩ }

def strayResolved : Resolved := resolve strayState 0xC1 strayFields

def strayLanes : List (Nat × DWord) := laneAddrs (activeLanes strayState strayFields) (addrMode strayState strayFields (elemBytes strayFields))

def strayAccs : List Acc :=
  laneStores strayState strayResolved 1 0 strayFields.type.toNat (elemBytes strayFields) strayLanes (dataLane strayState strayFields 1)

/-! ### The hypotheses -/

theorem canIssue_stray : CanIssue strayState (.st strayFields) strayFields where
  wellFormed := by decide +kernel
  noTrap := rfl
  level := .inl (by decide +kernel)
  latches := by decide +kernel
  settled := ⟨by decide +kernel, by decide +kernel⟩
  mapped := by decide +kernel
  clean := by decide +kernel

/-- `misses` as a computation. -/
def missesCheck (v : State) (x : Acc) (a : Nat) : Bool :=
  match locate v (ctxMaster x.ctx) x.right x.src x.ia x.n with
  | .error _ => true
  | .ok ps => ps.all (fun p => match p.place with
    | .cell key _ => decide (a < key ∨ key + p.len ≤ a)
    | _ => false)

theorem misses_of_check {v : State} {x : Acc} {a : Nat} (h : missesCheck v x a = true) : misses v x a := by
  intro ps hps p hp
  have hall := h
  rw [missesCheck, hps] at hall
  have hone := List.all_eq_true.1 hall p hp
  cases hplace : p.place with
  | cell key attr =>
    rw [hplace] at hone
    exact of_decide_eq_true hone
  | ctl site off => simp [hplace] at hone
  | fail site kind lvl => simp [hplace] at hone

theorem strayAccs_check : (strayAccs.zipIdx.all fun x =>
    missesCheck (issueStores (strayAccs.take x.2) true strayState) x.1 (strayKey - 1)) = true := by
  decide +kernel

/-- No lane stores to the byte before the key. -/
theorem strayAccs_miss (k : Nat) (x : Acc) (hx : strayAccs[k]? = some x) :
    misses (issueStores (strayAccs.take k) true strayState) x (strayKey - 1) :=
  misses_of_check (List.all_eq_true.1 strayAccs_check (x, k) (List.mk_mem_zipIdx_iff_getElem?.2 hx))

/-! ### The byte before and after -/

theorem byteAt_strayState : byteAt strayState (strayKey - 1) = 0#8 := by decide +kernel

/-- The byte at an address after a step. -/
def byteAfter (o : Host.Outcome State Fault Refusal) (a : Nat) : Option Byte :=
  match o with
  | .next t => some (byteAt t a)
  | _ => none

theorem byteAfter_stray : byteAfter (exec (.st strayFields) strayState) (strayKey - 1) = some 1#8 := by decide +kernel

/-- Refutes O28: in `strayState`, a state whose memory is not in canonical form, the zero that `st` stores at 0x10800 makes
the byte before it, which no lane stores to, read as 1 instead of 0. -/
theorem not_stores : ¬ Obligations.Stores := by
  intro h
  obtain ⟨hst, -, -⟩ := h strayState strayFields
  obtain ⟨-, hlanes⟩ := hst canIssue_stray
  obtain ⟨hglobal, -⟩ := hlanes (by decide +kernel) (by decide +kernel)
  obtain ⟨hput, -⟩ := hglobal (by decide +kernel)
  obtain ⟨t, ht, -, hframe⟩ := hput rfl (by decide +kernel) (.inl (by decide +kernel))
  have hsame : byteAt t (strayKey - 1) = byteAt strayState (strayKey - 1) := hframe _ strayAccs_miss
  have hone : byteAt t (strayKey - 1) = 1#8 := by
    have hafter := byteAfter_stray
    rw [ht] at hafter
    exact Option.some.inj hafter
  rw [hone, byteAt_strayState] at hsame
  exact absurd hsame (by decide)

end Sys2Proof.Laws
end
